-- ==== Sys2Proof/Word.lean ====
section
/-! DEFINITION. Words of the Rhastan G4 and their plainest arithmetic (R5, R6, R36). -/

namespace Sys2Proof

abbrev Byte := BitVec 8
abbrev W16 := BitVec 16
abbrev W32 := BitVec 32
abbrev W64 := BitVec 64

/-- The bits `[hi:lo]` of a word as a number (R5). -/
abbrev field {n : Nat} (w : BitVec n) (lo len : Nat) : Nat := (w.extractLsb' lo len).toNat

end Sys2Proof
end

