-- ==== Sys2Proof/Syntax.lean ====
section
/-! DEFINITION. The steps of the Rhastan G4 as syntax: one constructor per row of the opcode table. Element operations
carry the fields of the 64-bit word (R49), walker nodes those of R178, sequencer words those of R209. Every other step
of the table (spec/95) has no fields: where it happens stands in `State.here` (log 1, log 4). -/

namespace Sys2Proof

/-- Table 3.1 without OPC and V: every field of an element word that is loaded as an instruction. -/
structure Fields where
  pv : BitVec 8
  pm : BitVec 8
  qa : BitVec 2
  ta : BitVec 3
  qb : BitVec 2
  tb : BitVec 3
  dst : BitVec 5
  sa : BitVec 5
  sb : BitVec 5
  dqa : Bool
  dqb : Bool
  pu : BitVec 3
  pn : BitVec 3
  pri : BitVec 2
  tout : BitVec 3
  x : Bool
  deriving DecidableEq, Repr

/-- Table 10.2 without KIND. -/
structure NodeFields where
  next : BitVec 10
  alt : BitVec 10
  flags : BitVec 6
  payload : BitVec 32
  deriving DecidableEq, Repr

/-- R209: a sequencer word without OP. -/
structure SeqFields where
  a : BitVec 6
  b : BitVec 6
  pf : BitVec 6
  opnd : BitVec 40
  deriving DecidableEq, Repr

/-- One constructor per row of spec/opcode_table.json. -/
inductive Instr where
  | mov (f : Fields)
  | add (f : Fields)
  | sub (f : Fields)
  | addw (f : Fields)
  | subw (f : Fields)
  | mul (f : Fields)
  | mulh (f : Fields)
  | mulhn (f : Fields)
  | div (f : Fields)
  | divn (f : Fields)
  | rem (f : Fields)
  | remn (f : Fields)
  | and (f : Fields)
  | or (f : Fields)
  | xor (f : Fields)
  | andn (f : Fields)
  | shl (f : Fields)
  | shr (f : Fields)
  | sra (f : Fields)
  | rotr (f : Fields)
  | min (f : Fields)
  | max (f : Fields)
  | minn (f : Fields)
  | maxn (f : Fields)
  | abs (f : Fields)
  | clz (f : Fields)
  | popc (f : Fields)
  | ext (f : Fields)
  | ins (f : Fields)
  | seq (f : Fields)
  | sne (f : Fields)
  | slt (f : Fields)
  | sle (f : Fields)
  | sltn (f : Fields)
  | slen (f : Fields)
  | mula (f : Fields)
  | crd (f : Fields)
  | crx (f : Fields)
  | inc (f : Fields)
  | dec (f : Fields)
  | step (f : Fields)
  | sel (f : Fields)
  | pass (f : Fields)
  | drop (f : Fields)
  | tagr (f : Fields)
  | tagw (f : Fields)
  | busr (f : Fields)
  | busc (f : Fields)
  | pack2 (f : Fields)
  | fadd (f : Fields)
  | fsub (f : Fields)
  | fmul (f : Fields)
  | fma (f : Fields)
  | fmin (f : Fields)
  | fmax (f : Fields)
  | fabs (f : Fields)
  | fneg (f : Fields)
  | fclt (f : Fields)
  | fceq (f : Fields)
  | fexp2 (f : Fields)
  | flog2 (f : Fields)
  | frcp (f : Fields)
  | frsq (f : Fields)
  | fsum (f : Fields)
  | fscl (f : Fields)
  | vaddBf (f : Fields)
  | vsubBf (f : Fields)
  | vmulBf (f : Fields)
  | vfmaBf (f : Fields)
  | vmaxBf (f : Fields)
  | vminBf (f : Fields)
  | vdotBf (f : Fields)
  | vrsumBf (f : Fields)
  | vaddB (f : Fields)
  | vaddsB (f : Fields)
  | vsubB (f : Fields)
  | vmaxB (f : Fields)
  | vminB (f : Fields)
  | vdotB (f : Fields)
  | vaddW (f : Fields)
  | vmulW (f : Fields)
  | vshuf (f : Fields)
  | vbcast (f : Fields)
  | vsel (f : Fields)
  | mmaBf16 (f : Fields)
  | mmaBf16D (f : Fields)
  | mmaBf16Z (f : Fields)
  | mmaBf16Zd (f : Fields)
  | mmaE4m3 (f : Fields)
  | mmaE4m3D (f : Fields)
  | mmaE4m3Z (f : Fields)
  | mmaE4m3Zd (f : Fields)
  | mmaE5m2 (f : Fields)
  | mmaE5m2D (f : Fields)
  | mmaE5m2Z (f : Fields)
  | mmaE5m2Zd (f : Fields)
  | mmaMx4 (f : Fields)
  | mmaMx4D (f : Fields)
  | mmaMx4Z (f : Fields)
  | mmaMx4Zd (f : Fields)
  | mmaI8 (f : Fields)
  | mmaI8D (f : Fields)
  | mmaI8Z (f : Fields)
  | mmaI8Zd (f : Fields)
  | mmaT2 (f : Fields)
  | mmaT2D (f : Fields)
  | mmaT2Z (f : Fields)
  | mmaT2Zd (f : Fields)
  | mmaRowLanding
  | accZero (f : Fields)
  | accDcy (f : Fields)
  | accScl (f : Fields)
  | accDrn (f : Fields)
  | accDrnRowSend
  | accRd (f : Fields)
  | accPatch (f : Fields)
  | accMode (f : Fields)
  | bhold (f : Fields)
  | sld (f : Fields)
  | sst (f : Fields)
  | sldg (f : Fields)
  | sstg (f : Fields)
  | sgen (f : Fields)
  | saadd (f : Fields)
  | samax (f : Fields)
  | scas (f : Fields)
  | sown (f : Fields)
  | sfill (f : Fields)
  | sbeat (f : Fields)
  | seStreamWord
  | cvtBfF32 (f : Fields)
  | cvtF32Bf (f : Fields)
  | cvtE4F32 (f : Fields)
  | cvtE5F32 (f : Fields)
  | cvtF32E4 (f : Fields)
  | cvtF32E5 (f : Fields)
  | cvtBfE4 (f : Fields)
  | cvtMx4Bf (f : Fields)
  | cvtBfMx4 (f : Fields)
  | cvtI8F32 (f : Fields)
  | cvtF32I8 (f : Fields)
  | cvtF32I64 (f : Fields)
  | cvtI64F32 (f : Fields)
  | gld (f : Fields)
  | gldc (f : Fields)
  | gst (f : Fields)
  | gatom (f : Fields)
  | gldb (f : Fields)
  | agen (f : Fields)
  | astr (f : Fields)
  | xfer (f : Fields)
  | gred (f : Fields)
  | coll (f : Fields)
  | route (f : Fields)
  | msnd (f : Fields)
  | tstat (f : Fields)
  | mown (f : Fields)
  | leReply
  | leStreamToken
  | faultReissue
  | nop (f : Fields)
  | halt (f : Fields)
  | commit (f : Fields)
  | trap (f : Fields)
  | waitc (f : Fields)
  | time (f : Fields)
  | cyc (f : Fields)
  | id (f : Fields)
  | fence (f : Fields)
  | bars (f : Fields)
  | cwset (f : Fields)
  | watch (f : Fields)
  | cfgw (f : Fields)
  | arrv (f : Fields)
  | evt (f : Fields)
  | elementTrap
  | longResultArrival
  | tokenArrival
  | detourSend
  | creditReturn
  | rowBusDelivery
  | columnChunkDelivery
  | columnReaderChunk
  | blockLoad
  | blockIssue
  | blockComplete
  | groupCommit
  | spillCommit
  | cfgMissTimeout
  | admitWindow
  | contextSwitch
  | eviction
  | restore
  | run (n : NodeFields)
  | runs (n : NodeFields)
  | lgen (n : NodeFields)
  | lend (n : NodeFields)
  | cond (n : NodeFields)
  | whileN (n : NodeFields)
  | jmp (n : NodeFields)
  | callg (n : NodeFields)
  | retg (n : NodeFields)
  | fork (n : NodeFields)
  | join (n : NodeFields)
  | bar (n : NodeFields)
  | waitt (n : NodeFields)
  | place (n : NodeFields)
  | yieldg (n : NodeFields)
  | trapg (n : NodeFields)
  | haltg (n : NodeFields)
  | evw (n : NodeFields)
  | capq (n : NodeFields)
  | taskRun
  | stealProbe
  | joinDecrement
  | boundTokenApply
  | tdef (q : SeqFields)
  | tset (q : SeqFields)
  | mode (q : SeqFields)
  | rot (q : SeqFields)
  | strm (q : SeqFields)
  | acpt (q : SeqFields)
  | pred (q : SeqFields)
  | tcmp (q : SeqFields)
  | arrvSet (q : SeqFields)
  | waita (q : SeqFields)
  | waits (q : SeqFields)
  | own (q : SeqFields)
  | drng (q : SeqFields)
  | sigw (q : SeqFields)
  | seqXfer (q : SeqFields)
  | seqJmp (q : SeqFields)
  | loop (q : SeqFields)
  | seqHalt (q : SeqFields)
  | strmBeat
  | tileWriteArrival
  | predComplete
  | tcmpComplete
  | verifyComplete
  | verdictApply
  | barrierComplete
  | transferCommand
  | gatherReduceCommand
  | routingCommand
  | collectiveCommand
  | engineCompletion
  | curatorPlace
  | translationFill
  | frameMove
  | hostSend
  | launch
  | cancel
  | setpri
  | bound
  | unknownCommand
  | reservedChannelMessage
  | serviceMessage
  | queuePlacement
  | teamComplete
  | resume
  | freeze
  | teardown
  | vopen
  | vclose
  | lease
  | resolve
  | deadlockProbe
  | probeArrival
  | hangFreeze
  | uncorrectableError
  | correctedError
  | scoreDecay
  | conservatorWithdraw
  | testComplete
  | thermalSample
  | referenceLoss
  | migwaitExpiry
  | migration
  | powerInterval
  | rlsUpdate
  | pbudgetWrite
  | powerOn
  | rdmaWrite
  | rdmaRead
  | refusedRequest
  | windowDescriptorWrite
  | registerWrite
  | extend
  | nonceWrite
  | attreq
  | reportComplete
  | hostMessageSend
  | flitReceive
  | retryResend
  | packetStart
  | escapeTimeout
  | auditSend
  | auditCheck
  | laneFailure
  | portStateFlit
  | podBarrierArrival
  | podBarrierRelease
  | timeSync
  | loadRequest
  | linkUp
  deriving DecidableEq, Repr

end Sys2Proof
end

