-- ==== Sys2Proof/Decode.lean ====
section
/-! DEFINITION. From bits to a step and back. The element word is Table 3.1 with the opcode map of Tables 3.6 to 3.9,
the node word Table 10.2 with the kinds of Table 10.3, the sequencer word R209 with Table 11.3. A step of the table
that has no word in the spec is numbered by the model (log 4): class 3 of the 72-bit step word. -/

namespace Sys2Proof

/-- Why bits are no step. -/
inductive DecodeError where
  /-- V = 0: an empty slot (R50). -/
  | emptySlot
  /-- The opcode is in no range of Table 3.6 (ILLEGAL_OPC, R54). -/
  | illegalOpc (opc : BitVec 8)
  /-- The node KIND is not in Table 10.3 (BAD_KIND, R176). -/
  | badKind (kind : BitVec 6)
  /-- The sequencer OP is not in Table 11.3 (R209). -/
  | badOp (op : BitVec 6)
  /-- No machine step has this number (log 4). -/
  | badEvent (code : BitVec 64)
  /-- The class byte of a step word is above 3 (log 4). -/
  | badClass (cls : BitVec 8)
  deriving DecidableEq, Repr

/-- The fields of an element word (Table 3.1). -/
def Fields.ofWord (w : BitVec 64) : Fields where
  pv := w.extractLsb' 56 8
  pm := w.extractLsb' 48 8
  qa := w.extractLsb' 46 2
  ta := w.extractLsb' 43 3
  qb := w.extractLsb' 41 2
  tb := w.extractLsb' 38 3
  dst := w.extractLsb' 25 5
  sa := w.extractLsb' 20 5
  sb := w.extractLsb' 15 5
  dqa := w.getLsbD 14
  dqb := w.getLsbD 13
  pu := w.extractLsb' 10 3
  pn := w.extractLsb' 7 3
  pri := w.extractLsb' 5 2
  tout := w.extractLsb' 2 3
  x := w.getLsbD 0

/-- The element word of Table 3.1 with V = 1. -/
def Fields.toWord (f : Fields) (opc : BitVec 8) : BitVec 64 :=
  f.pv ++ f.pm ++ f.qa ++ f.ta ++ f.qb ++ f.tb ++ opc ++ f.dst ++ f.sa ++ f.sb ++ BitVec.ofBool f.dqa ++
    BitVec.ofBool f.dqb ++ f.pu ++ f.pn ++ f.pri ++ f.tout ++ (1#1) ++ BitVec.ofBool f.x

def NodeFields.ofWord (w : BitVec 64) : NodeFields where
  next := w.extractLsb' 48 10
  alt := w.extractLsb' 38 10
  flags := w.extractLsb' 32 6
  payload := w.extractLsb' 0 32

def NodeFields.toWord (n : NodeFields) (kind : BitVec 6) : BitVec 64 :=
  kind ++ n.next ++ n.alt ++ n.flags ++ n.payload

def SeqFields.ofWord (w : BitVec 64) : SeqFields where
  a := w.extractLsb' 52 6
  b := w.extractLsb' 46 6
  pf := w.extractLsb' 40 6
  opnd := w.extractLsb' 0 40

def SeqFields.toWord (q : SeqFields) (op : BitVec 6) : BitVec 64 :=
  op ++ q.a ++ q.b ++ q.pf ++ q.opnd

/-- Tables 3.7 to 3.9. -/
def opcodeMap (c : Nat) : Option (Fields → Instr) :=
  match c with
  | 0x0 => some .mov
  | 0x1 => some .add
  | 0x2 => some .sub
  | 0x3 => some .addw
  | 0x4 => some .subw
  | 0x5 => some .mul
  | 0x6 => some .mulh
  | 0x7 => some .mulhn
  | 0x8 => some .div
  | 0x9 => some .divn
  | 0xa => some .rem
  | 0xb => some .remn
  | 0xc => some .and
  | 0xd => some .or
  | 0xe => some .xor
  | 0xf => some .andn
  | 0x10 => some .shl
  | 0x11 => some .shr
  | 0x12 => some .sra
  | 0x13 => some .rotr
  | 0x14 => some .min
  | 0x15 => some .max
  | 0x16 => some .minn
  | 0x17 => some .maxn
  | 0x18 => some .abs
  | 0x19 => some .clz
  | 0x1a => some .popc
  | 0x1b => some .ext
  | 0x1c => some .ins
  | 0x1d => some .seq
  | 0x1e => some .sne
  | 0x1f => some .slt
  | 0x20 => some .sle
  | 0x21 => some .sltn
  | 0x22 => some .slen
  | 0x23 => some .mula
  | 0x24 => some .crd
  | 0x25 => some .crx
  | 0x26 => some .inc
  | 0x27 => some .dec
  | 0x28 => some .step
  | 0x40 => some .sel
  | 0x41 => some .pass
  | 0x42 => some .drop
  | 0x43 => some .tagr
  | 0x44 => some .tagw
  | 0x45 => some .busr
  | 0x46 => some .busc
  | 0x47 => some .pack2
  | 0x60 => some .fadd
  | 0x61 => some .fsub
  | 0x62 => some .fmul
  | 0x63 => some .fma
  | 0x64 => some .fmin
  | 0x65 => some .fmax
  | 0x66 => some .fabs
  | 0x67 => some .fneg
  | 0x68 => some .fclt
  | 0x69 => some .fceq
  | 0x6a => some .fexp2
  | 0x6b => some .flog2
  | 0x6c => some .frcp
  | 0x6d => some .frsq
  | 0x6e => some .fsum
  | 0x6f => some .fscl
  | 0x70 => some .vaddBf
  | 0x71 => some .vsubBf
  | 0x72 => some .vmulBf
  | 0x73 => some .vfmaBf
  | 0x74 => some .vmaxBf
  | 0x75 => some .vminBf
  | 0x76 => some .vdotBf
  | 0x77 => some .vrsumBf
  | 0x78 => some .vaddB
  | 0x79 => some .vaddsB
  | 0x7a => some .vsubB
  | 0x7b => some .vmaxB
  | 0x7c => some .vminB
  | 0x7d => some .vdotB
  | 0x7e => some .vaddW
  | 0x7f => some .vmulW
  | 0x80 => some .vshuf
  | 0x81 => some .vbcast
  | 0x82 => some .vsel
  | 0x90 => some .mmaBf16
  | 0x91 => some .mmaBf16D
  | 0x92 => some .mmaBf16Z
  | 0x93 => some .mmaBf16Zd
  | 0x94 => some .mmaE4m3
  | 0x95 => some .mmaE4m3D
  | 0x96 => some .mmaE4m3Z
  | 0x97 => some .mmaE4m3Zd
  | 0x98 => some .mmaE5m2
  | 0x99 => some .mmaE5m2D
  | 0x9a => some .mmaE5m2Z
  | 0x9b => some .mmaE5m2Zd
  | 0x9c => some .mmaMx4
  | 0x9d => some .mmaMx4D
  | 0x9e => some .mmaMx4Z
  | 0x9f => some .mmaMx4Zd
  | 0xa0 => some .mmaI8
  | 0xa1 => some .mmaI8D
  | 0xa2 => some .mmaI8Z
  | 0xa3 => some .mmaI8Zd
  | 0xa4 => some .mmaT2
  | 0xa5 => some .mmaT2D
  | 0xa6 => some .mmaT2Z
  | 0xa7 => some .mmaT2Zd
  | 0xa8 => some .accZero
  | 0xa9 => some .accDcy
  | 0xaa => some .accScl
  | 0xab => some .accDrn
  | 0xac => some .accRd
  | 0xad => some .accPatch
  | 0xae => some .accMode
  | 0xaf => some .bhold
  | 0xb0 => some .sld
  | 0xb1 => some .sst
  | 0xb2 => some .sldg
  | 0xb3 => some .sstg
  | 0xb4 => some .sgen
  | 0xb5 => some .saadd
  | 0xb6 => some .samax
  | 0xb7 => some .scas
  | 0xb8 => some .sown
  | 0xb9 => some .sfill
  | 0xba => some .sbeat
  | 0xc0 => some .cvtBfF32
  | 0xc1 => some .cvtF32Bf
  | 0xc2 => some .cvtE4F32
  | 0xc3 => some .cvtE5F32
  | 0xc4 => some .cvtF32E4
  | 0xc5 => some .cvtF32E5
  | 0xc6 => some .cvtBfE4
  | 0xc7 => some .cvtMx4Bf
  | 0xc8 => some .cvtBfMx4
  | 0xc9 => some .cvtI8F32
  | 0xca => some .cvtF32I8
  | 0xcb => some .cvtF32I64
  | 0xcc => some .cvtI64F32
  | 0xd0 => some .gld
  | 0xd1 => some .gldc
  | 0xd2 => some .gst
  | 0xd3 => some .gatom
  | 0xd4 => some .gldb
  | 0xd5 => some .agen
  | 0xd6 => some .astr
  | 0xd7 => some .xfer
  | 0xd8 => some .gred
  | 0xd9 => some .coll
  | 0xda => some .route
  | 0xdb => some .msnd
  | 0xdc => some .tstat
  | 0xdd => some .mown
  | 0xe0 => some .nop
  | 0xe1 => some .halt
  | 0xe2 => some .commit
  | 0xe3 => some .trap
  | 0xe4 => some .waitc
  | 0xe5 => some .time
  | 0xe6 => some .cyc
  | 0xe7 => some .id
  | 0xe8 => some .fence
  | 0xe9 => some .bars
  | 0xea => some .cwset
  | 0xeb => some .watch
  | 0xec => some .cfgw
  | 0xed => some .arrv
  | 0xee => some .evt
  | _ => none

/-- Table 10.3. -/
def nodeMap (c : Nat) : Option (NodeFields → Instr) :=
  match c with
  | 0x1 => some .run
  | 0x2 => some .runs
  | 0x3 => some .lgen
  | 0x4 => some .lend
  | 0x5 => some .cond
  | 0x6 => some .whileN
  | 0x7 => some .jmp
  | 0x8 => some .callg
  | 0x9 => some .retg
  | 0xa => some .fork
  | 0xb => some .join
  | 0xc => some .bar
  | 0xd => some .waitt
  | 0xe => some .place
  | 0xf => some .yieldg
  | 0x10 => some .trapg
  | 0x11 => some .haltg
  | 0x12 => some .evw
  | 0x13 => some .capq
  | _ => none

/-- Table 11.3. -/
def seqMap (c : Nat) : Option (SeqFields → Instr) :=
  match c with
  | 0x1 => some .tdef
  | 0x2 => some .tset
  | 0x3 => some .mode
  | 0x4 => some .rot
  | 0x5 => some .strm
  | 0x6 => some .acpt
  | 0x7 => some .pred
  | 0x8 => some .tcmp
  | 0x9 => some .arrvSet
  | 0xa => some .waita
  | 0xb => some .waits
  | 0xc => some .own
  | 0xd => some .drng
  | 0xe => some .sigw
  | 0xf => some .seqXfer
  | 0x10 => some .seqJmp
  | 0x11 => some .loop
  | 0x12 => some .seqHalt
  | _ => none

/-- The model's numbering of the steps that have no word (log 4). -/
def eventMap (c : Nat) : Option (Instr) :=
  match c with
  | 0x0 => some .mmaRowLanding
  | 0x1 => some .accDrnRowSend
  | 0x2 => some .seStreamWord
  | 0x3 => some .leReply
  | 0x4 => some .leStreamToken
  | 0x5 => some .faultReissue
  | 0x6 => some .elementTrap
  | 0x7 => some .longResultArrival
  | 0x8 => some .tokenArrival
  | 0x9 => some .detourSend
  | 0xa => some .creditReturn
  | 0xb => some .rowBusDelivery
  | 0xc => some .columnChunkDelivery
  | 0xd => some .columnReaderChunk
  | 0xe => some .blockLoad
  | 0xf => some .blockIssue
  | 0x10 => some .blockComplete
  | 0x11 => some .groupCommit
  | 0x12 => some .spillCommit
  | 0x13 => some .cfgMissTimeout
  | 0x14 => some .admitWindow
  | 0x15 => some .contextSwitch
  | 0x16 => some .eviction
  | 0x17 => some .restore
  | 0x18 => some .taskRun
  | 0x19 => some .stealProbe
  | 0x1a => some .joinDecrement
  | 0x1b => some .boundTokenApply
  | 0x1c => some .strmBeat
  | 0x1d => some .tileWriteArrival
  | 0x1e => some .predComplete
  | 0x1f => some .tcmpComplete
  | 0x20 => some .verifyComplete
  | 0x21 => some .verdictApply
  | 0x22 => some .barrierComplete
  | 0x23 => some .transferCommand
  | 0x24 => some .gatherReduceCommand
  | 0x25 => some .routingCommand
  | 0x26 => some .collectiveCommand
  | 0x27 => some .engineCompletion
  | 0x28 => some .curatorPlace
  | 0x29 => some .translationFill
  | 0x2a => some .frameMove
  | 0x2b => some .hostSend
  | 0x2c => some .launch
  | 0x2d => some .cancel
  | 0x2e => some .setpri
  | 0x2f => some .bound
  | 0x30 => some .unknownCommand
  | 0x31 => some .reservedChannelMessage
  | 0x32 => some .serviceMessage
  | 0x33 => some .queuePlacement
  | 0x34 => some .teamComplete
  | 0x35 => some .resume
  | 0x36 => some .freeze
  | 0x37 => some .teardown
  | 0x38 => some .vopen
  | 0x39 => some .vclose
  | 0x3a => some .lease
  | 0x3b => some .resolve
  | 0x3c => some .deadlockProbe
  | 0x3d => some .probeArrival
  | 0x3e => some .hangFreeze
  | 0x3f => some .uncorrectableError
  | 0x40 => some .correctedError
  | 0x41 => some .scoreDecay
  | 0x42 => some .conservatorWithdraw
  | 0x43 => some .testComplete
  | 0x44 => some .thermalSample
  | 0x45 => some .referenceLoss
  | 0x46 => some .migwaitExpiry
  | 0x47 => some .migration
  | 0x48 => some .powerInterval
  | 0x49 => some .rlsUpdate
  | 0x4a => some .pbudgetWrite
  | 0x4b => some .powerOn
  | 0x4c => some .rdmaWrite
  | 0x4d => some .rdmaRead
  | 0x4e => some .refusedRequest
  | 0x4f => some .windowDescriptorWrite
  | 0x50 => some .registerWrite
  | 0x51 => some .extend
  | 0x52 => some .nonceWrite
  | 0x53 => some .attreq
  | 0x54 => some .reportComplete
  | 0x55 => some .hostMessageSend
  | 0x56 => some .flitReceive
  | 0x57 => some .retryResend
  | 0x58 => some .packetStart
  | 0x59 => some .escapeTimeout
  | 0x5a => some .auditSend
  | 0x5b => some .auditCheck
  | 0x5c => some .laneFailure
  | 0x5d => some .portStateFlit
  | 0x5e => some .podBarrierArrival
  | 0x5f => some .podBarrierRelease
  | 0x60 => some .timeSync
  | 0x61 => some .loadRequest
  | 0x62 => some .linkUp
  | _ => none

/-- An element word as an instruction (R49, R50, R54). -/
def decodeSlot (w : BitVec 64) : Except DecodeError Instr :=
  if w.getLsbD 1 = false then .error .emptySlot
  else match opcodeMap (w.extractLsb' 30 8).toNat with
    | some mk => .ok (mk (Fields.ofWord w))
    | none => .error (.illegalOpc (w.extractLsb' 30 8))

/-- A node word (R178). -/
def decodeNode (w : BitVec 64) : Except DecodeError Instr :=
  match nodeMap (w.extractLsb' 58 6).toNat with
  | some mk => .ok (mk (NodeFields.ofWord w))
  | none => .error (.badKind (w.extractLsb' 58 6))

/-- A sequencer word (R209). -/
def decodeSeq (w : BitVec 64) : Except DecodeError Instr :=
  match seqMap (w.extractLsb' 58 6).toNat with
  | some mk => .ok (mk (SeqFields.ofWord w))
  | none => .error (.badOp (w.extractLsb' 58 6))

/-- A machine step's number (log 4). -/
def decodeEvent (w : BitVec 64) : Except DecodeError Instr :=
  match eventMap w.toNat with
  | some i => .ok i
  | none => .error (.badEvent w)

/-- A step word: class byte 0 element word, 1 node word, 2 sequencer word, 3 machine step (log 4). -/
def decode (w : BitVec 72) : Except DecodeError Instr :=
  let cls := w.extractLsb' 64 8
  let v := w.extractLsb' 0 64
  if cls = 0#8 then decodeSlot v
  else if cls = 1#8 then decodeNode v
  else if cls = 2#8 then decodeSeq v
  else if cls = 3#8 then decodeEvent v
  else .error (.badClass cls)

/-- Bytes as a number, the first byte least significant (R6). -/
def leNat : List (BitVec 8) → Nat
  | [] => 0
  | b :: bs => b.toNat + 256 * leNat bs

/-- `n` bytes of a number, least significant first (R6). -/
def leBytes : Nat → Nat → List (BitVec 8)
  | 0, _ => []
  | n + 1, v => BitVec.ofNat 8 v :: leBytes n (v / 256)

/-- The step in the first nine bytes of a byte list; missing bytes read as zero. -/
def decodeBytes (bs : List (BitVec 8)) : Except DecodeError Instr :=
  decode (BitVec.ofNat 72 (leNat (bs.take 9)))

/-- The word of a step: the words of Tables 3.1, 10.2 and R209, and the numbering of log 4. -/
def encode : Instr → BitVec 72
  | .mov f => (0#8) ++ f.toWord 0x0#8
  | .add f => (0#8) ++ f.toWord 0x1#8
  | .sub f => (0#8) ++ f.toWord 0x2#8
  | .addw f => (0#8) ++ f.toWord 0x3#8
  | .subw f => (0#8) ++ f.toWord 0x4#8
  | .mul f => (0#8) ++ f.toWord 0x5#8
  | .mulh f => (0#8) ++ f.toWord 0x6#8
  | .mulhn f => (0#8) ++ f.toWord 0x7#8
  | .div f => (0#8) ++ f.toWord 0x8#8
  | .divn f => (0#8) ++ f.toWord 0x9#8
  | .rem f => (0#8) ++ f.toWord 0xa#8
  | .remn f => (0#8) ++ f.toWord 0xb#8
  | .and f => (0#8) ++ f.toWord 0xc#8
  | .or f => (0#8) ++ f.toWord 0xd#8
  | .xor f => (0#8) ++ f.toWord 0xe#8
  | .andn f => (0#8) ++ f.toWord 0xf#8
  | .shl f => (0#8) ++ f.toWord 0x10#8
  | .shr f => (0#8) ++ f.toWord 0x11#8
  | .sra f => (0#8) ++ f.toWord 0x12#8
  | .rotr f => (0#8) ++ f.toWord 0x13#8
  | .min f => (0#8) ++ f.toWord 0x14#8
  | .max f => (0#8) ++ f.toWord 0x15#8
  | .minn f => (0#8) ++ f.toWord 0x16#8
  | .maxn f => (0#8) ++ f.toWord 0x17#8
  | .abs f => (0#8) ++ f.toWord 0x18#8
  | .clz f => (0#8) ++ f.toWord 0x19#8
  | .popc f => (0#8) ++ f.toWord 0x1a#8
  | .ext f => (0#8) ++ f.toWord 0x1b#8
  | .ins f => (0#8) ++ f.toWord 0x1c#8
  | .seq f => (0#8) ++ f.toWord 0x1d#8
  | .sne f => (0#8) ++ f.toWord 0x1e#8
  | .slt f => (0#8) ++ f.toWord 0x1f#8
  | .sle f => (0#8) ++ f.toWord 0x20#8
  | .sltn f => (0#8) ++ f.toWord 0x21#8
  | .slen f => (0#8) ++ f.toWord 0x22#8
  | .mula f => (0#8) ++ f.toWord 0x23#8
  | .crd f => (0#8) ++ f.toWord 0x24#8
  | .crx f => (0#8) ++ f.toWord 0x25#8
  | .inc f => (0#8) ++ f.toWord 0x26#8
  | .dec f => (0#8) ++ f.toWord 0x27#8
  | .step f => (0#8) ++ f.toWord 0x28#8
  | .sel f => (0#8) ++ f.toWord 0x40#8
  | .pass f => (0#8) ++ f.toWord 0x41#8
  | .drop f => (0#8) ++ f.toWord 0x42#8
  | .tagr f => (0#8) ++ f.toWord 0x43#8
  | .tagw f => (0#8) ++ f.toWord 0x44#8
  | .busr f => (0#8) ++ f.toWord 0x45#8
  | .busc f => (0#8) ++ f.toWord 0x46#8
  | .pack2 f => (0#8) ++ f.toWord 0x47#8
  | .fadd f => (0#8) ++ f.toWord 0x60#8
  | .fsub f => (0#8) ++ f.toWord 0x61#8
  | .fmul f => (0#8) ++ f.toWord 0x62#8
  | .fma f => (0#8) ++ f.toWord 0x63#8
  | .fmin f => (0#8) ++ f.toWord 0x64#8
  | .fmax f => (0#8) ++ f.toWord 0x65#8
  | .fabs f => (0#8) ++ f.toWord 0x66#8
  | .fneg f => (0#8) ++ f.toWord 0x67#8
  | .fclt f => (0#8) ++ f.toWord 0x68#8
  | .fceq f => (0#8) ++ f.toWord 0x69#8
  | .fexp2 f => (0#8) ++ f.toWord 0x6a#8
  | .flog2 f => (0#8) ++ f.toWord 0x6b#8
  | .frcp f => (0#8) ++ f.toWord 0x6c#8
  | .frsq f => (0#8) ++ f.toWord 0x6d#8
  | .fsum f => (0#8) ++ f.toWord 0x6e#8
  | .fscl f => (0#8) ++ f.toWord 0x6f#8
  | .vaddBf f => (0#8) ++ f.toWord 0x70#8
  | .vsubBf f => (0#8) ++ f.toWord 0x71#8
  | .vmulBf f => (0#8) ++ f.toWord 0x72#8
  | .vfmaBf f => (0#8) ++ f.toWord 0x73#8
  | .vmaxBf f => (0#8) ++ f.toWord 0x74#8
  | .vminBf f => (0#8) ++ f.toWord 0x75#8
  | .vdotBf f => (0#8) ++ f.toWord 0x76#8
  | .vrsumBf f => (0#8) ++ f.toWord 0x77#8
  | .vaddB f => (0#8) ++ f.toWord 0x78#8
  | .vaddsB f => (0#8) ++ f.toWord 0x79#8
  | .vsubB f => (0#8) ++ f.toWord 0x7a#8
  | .vmaxB f => (0#8) ++ f.toWord 0x7b#8
  | .vminB f => (0#8) ++ f.toWord 0x7c#8
  | .vdotB f => (0#8) ++ f.toWord 0x7d#8
  | .vaddW f => (0#8) ++ f.toWord 0x7e#8
  | .vmulW f => (0#8) ++ f.toWord 0x7f#8
  | .vshuf f => (0#8) ++ f.toWord 0x80#8
  | .vbcast f => (0#8) ++ f.toWord 0x81#8
  | .vsel f => (0#8) ++ f.toWord 0x82#8
  | .mmaBf16 f => (0#8) ++ f.toWord 0x90#8
  | .mmaBf16D f => (0#8) ++ f.toWord 0x91#8
  | .mmaBf16Z f => (0#8) ++ f.toWord 0x92#8
  | .mmaBf16Zd f => (0#8) ++ f.toWord 0x93#8
  | .mmaE4m3 f => (0#8) ++ f.toWord 0x94#8
  | .mmaE4m3D f => (0#8) ++ f.toWord 0x95#8
  | .mmaE4m3Z f => (0#8) ++ f.toWord 0x96#8
  | .mmaE4m3Zd f => (0#8) ++ f.toWord 0x97#8
  | .mmaE5m2 f => (0#8) ++ f.toWord 0x98#8
  | .mmaE5m2D f => (0#8) ++ f.toWord 0x99#8
  | .mmaE5m2Z f => (0#8) ++ f.toWord 0x9a#8
  | .mmaE5m2Zd f => (0#8) ++ f.toWord 0x9b#8
  | .mmaMx4 f => (0#8) ++ f.toWord 0x9c#8
  | .mmaMx4D f => (0#8) ++ f.toWord 0x9d#8
  | .mmaMx4Z f => (0#8) ++ f.toWord 0x9e#8
  | .mmaMx4Zd f => (0#8) ++ f.toWord 0x9f#8
  | .mmaI8 f => (0#8) ++ f.toWord 0xa0#8
  | .mmaI8D f => (0#8) ++ f.toWord 0xa1#8
  | .mmaI8Z f => (0#8) ++ f.toWord 0xa2#8
  | .mmaI8Zd f => (0#8) ++ f.toWord 0xa3#8
  | .mmaT2 f => (0#8) ++ f.toWord 0xa4#8
  | .mmaT2D f => (0#8) ++ f.toWord 0xa5#8
  | .mmaT2Z f => (0#8) ++ f.toWord 0xa6#8
  | .mmaT2Zd f => (0#8) ++ f.toWord 0xa7#8
  | .mmaRowLanding => (3#8) ++ (0x0#64)
  | .accZero f => (0#8) ++ f.toWord 0xa8#8
  | .accDcy f => (0#8) ++ f.toWord 0xa9#8
  | .accScl f => (0#8) ++ f.toWord 0xaa#8
  | .accDrn f => (0#8) ++ f.toWord 0xab#8
  | .accDrnRowSend => (3#8) ++ (0x1#64)
  | .accRd f => (0#8) ++ f.toWord 0xac#8
  | .accPatch f => (0#8) ++ f.toWord 0xad#8
  | .accMode f => (0#8) ++ f.toWord 0xae#8
  | .bhold f => (0#8) ++ f.toWord 0xaf#8
  | .sld f => (0#8) ++ f.toWord 0xb0#8
  | .sst f => (0#8) ++ f.toWord 0xb1#8
  | .sldg f => (0#8) ++ f.toWord 0xb2#8
  | .sstg f => (0#8) ++ f.toWord 0xb3#8
  | .sgen f => (0#8) ++ f.toWord 0xb4#8
  | .saadd f => (0#8) ++ f.toWord 0xb5#8
  | .samax f => (0#8) ++ f.toWord 0xb6#8
  | .scas f => (0#8) ++ f.toWord 0xb7#8
  | .sown f => (0#8) ++ f.toWord 0xb8#8
  | .sfill f => (0#8) ++ f.toWord 0xb9#8
  | .sbeat f => (0#8) ++ f.toWord 0xba#8
  | .seStreamWord => (3#8) ++ (0x2#64)
  | .cvtBfF32 f => (0#8) ++ f.toWord 0xc0#8
  | .cvtF32Bf f => (0#8) ++ f.toWord 0xc1#8
  | .cvtE4F32 f => (0#8) ++ f.toWord 0xc2#8
  | .cvtE5F32 f => (0#8) ++ f.toWord 0xc3#8
  | .cvtF32E4 f => (0#8) ++ f.toWord 0xc4#8
  | .cvtF32E5 f => (0#8) ++ f.toWord 0xc5#8
  | .cvtBfE4 f => (0#8) ++ f.toWord 0xc6#8
  | .cvtMx4Bf f => (0#8) ++ f.toWord 0xc7#8
  | .cvtBfMx4 f => (0#8) ++ f.toWord 0xc8#8
  | .cvtI8F32 f => (0#8) ++ f.toWord 0xc9#8
  | .cvtF32I8 f => (0#8) ++ f.toWord 0xca#8
  | .cvtF32I64 f => (0#8) ++ f.toWord 0xcb#8
  | .cvtI64F32 f => (0#8) ++ f.toWord 0xcc#8
  | .gld f => (0#8) ++ f.toWord 0xd0#8
  | .gldc f => (0#8) ++ f.toWord 0xd1#8
  | .gst f => (0#8) ++ f.toWord 0xd2#8
  | .gatom f => (0#8) ++ f.toWord 0xd3#8
  | .gldb f => (0#8) ++ f.toWord 0xd4#8
  | .agen f => (0#8) ++ f.toWord 0xd5#8
  | .astr f => (0#8) ++ f.toWord 0xd6#8
  | .xfer f => (0#8) ++ f.toWord 0xd7#8
  | .gred f => (0#8) ++ f.toWord 0xd8#8
  | .coll f => (0#8) ++ f.toWord 0xd9#8
  | .route f => (0#8) ++ f.toWord 0xda#8
  | .msnd f => (0#8) ++ f.toWord 0xdb#8
  | .tstat f => (0#8) ++ f.toWord 0xdc#8
  | .mown f => (0#8) ++ f.toWord 0xdd#8
  | .leReply => (3#8) ++ (0x3#64)
  | .leStreamToken => (3#8) ++ (0x4#64)
  | .faultReissue => (3#8) ++ (0x5#64)
  | .nop f => (0#8) ++ f.toWord 0xe0#8
  | .halt f => (0#8) ++ f.toWord 0xe1#8
  | .commit f => (0#8) ++ f.toWord 0xe2#8
  | .trap f => (0#8) ++ f.toWord 0xe3#8
  | .waitc f => (0#8) ++ f.toWord 0xe4#8
  | .time f => (0#8) ++ f.toWord 0xe5#8
  | .cyc f => (0#8) ++ f.toWord 0xe6#8
  | .id f => (0#8) ++ f.toWord 0xe7#8
  | .fence f => (0#8) ++ f.toWord 0xe8#8
  | .bars f => (0#8) ++ f.toWord 0xe9#8
  | .cwset f => (0#8) ++ f.toWord 0xea#8
  | .watch f => (0#8) ++ f.toWord 0xeb#8
  | .cfgw f => (0#8) ++ f.toWord 0xec#8
  | .arrv f => (0#8) ++ f.toWord 0xed#8
  | .evt f => (0#8) ++ f.toWord 0xee#8
  | .elementTrap => (3#8) ++ (0x6#64)
  | .longResultArrival => (3#8) ++ (0x7#64)
  | .tokenArrival => (3#8) ++ (0x8#64)
  | .detourSend => (3#8) ++ (0x9#64)
  | .creditReturn => (3#8) ++ (0xa#64)
  | .rowBusDelivery => (3#8) ++ (0xb#64)
  | .columnChunkDelivery => (3#8) ++ (0xc#64)
  | .columnReaderChunk => (3#8) ++ (0xd#64)
  | .blockLoad => (3#8) ++ (0xe#64)
  | .blockIssue => (3#8) ++ (0xf#64)
  | .blockComplete => (3#8) ++ (0x10#64)
  | .groupCommit => (3#8) ++ (0x11#64)
  | .spillCommit => (3#8) ++ (0x12#64)
  | .cfgMissTimeout => (3#8) ++ (0x13#64)
  | .admitWindow => (3#8) ++ (0x14#64)
  | .contextSwitch => (3#8) ++ (0x15#64)
  | .eviction => (3#8) ++ (0x16#64)
  | .restore => (3#8) ++ (0x17#64)
  | .run n => (1#8) ++ n.toWord 0x1#6
  | .runs n => (1#8) ++ n.toWord 0x2#6
  | .lgen n => (1#8) ++ n.toWord 0x3#6
  | .lend n => (1#8) ++ n.toWord 0x4#6
  | .cond n => (1#8) ++ n.toWord 0x5#6
  | .whileN n => (1#8) ++ n.toWord 0x6#6
  | .jmp n => (1#8) ++ n.toWord 0x7#6
  | .callg n => (1#8) ++ n.toWord 0x8#6
  | .retg n => (1#8) ++ n.toWord 0x9#6
  | .fork n => (1#8) ++ n.toWord 0xa#6
  | .join n => (1#8) ++ n.toWord 0xb#6
  | .bar n => (1#8) ++ n.toWord 0xc#6
  | .waitt n => (1#8) ++ n.toWord 0xd#6
  | .place n => (1#8) ++ n.toWord 0xe#6
  | .yieldg n => (1#8) ++ n.toWord 0xf#6
  | .trapg n => (1#8) ++ n.toWord 0x10#6
  | .haltg n => (1#8) ++ n.toWord 0x11#6
  | .evw n => (1#8) ++ n.toWord 0x12#6
  | .capq n => (1#8) ++ n.toWord 0x13#6
  | .taskRun => (3#8) ++ (0x18#64)
  | .stealProbe => (3#8) ++ (0x19#64)
  | .joinDecrement => (3#8) ++ (0x1a#64)
  | .boundTokenApply => (3#8) ++ (0x1b#64)
  | .tdef q => (2#8) ++ q.toWord 0x1#6
  | .tset q => (2#8) ++ q.toWord 0x2#6
  | .mode q => (2#8) ++ q.toWord 0x3#6
  | .rot q => (2#8) ++ q.toWord 0x4#6
  | .strm q => (2#8) ++ q.toWord 0x5#6
  | .acpt q => (2#8) ++ q.toWord 0x6#6
  | .pred q => (2#8) ++ q.toWord 0x7#6
  | .tcmp q => (2#8) ++ q.toWord 0x8#6
  | .arrvSet q => (2#8) ++ q.toWord 0x9#6
  | .waita q => (2#8) ++ q.toWord 0xa#6
  | .waits q => (2#8) ++ q.toWord 0xb#6
  | .own q => (2#8) ++ q.toWord 0xc#6
  | .drng q => (2#8) ++ q.toWord 0xd#6
  | .sigw q => (2#8) ++ q.toWord 0xe#6
  | .seqXfer q => (2#8) ++ q.toWord 0xf#6
  | .seqJmp q => (2#8) ++ q.toWord 0x10#6
  | .loop q => (2#8) ++ q.toWord 0x11#6
  | .seqHalt q => (2#8) ++ q.toWord 0x12#6
  | .strmBeat => (3#8) ++ (0x1c#64)
  | .tileWriteArrival => (3#8) ++ (0x1d#64)
  | .predComplete => (3#8) ++ (0x1e#64)
  | .tcmpComplete => (3#8) ++ (0x1f#64)
  | .verifyComplete => (3#8) ++ (0x20#64)
  | .verdictApply => (3#8) ++ (0x21#64)
  | .barrierComplete => (3#8) ++ (0x22#64)
  | .transferCommand => (3#8) ++ (0x23#64)
  | .gatherReduceCommand => (3#8) ++ (0x24#64)
  | .routingCommand => (3#8) ++ (0x25#64)
  | .collectiveCommand => (3#8) ++ (0x26#64)
  | .engineCompletion => (3#8) ++ (0x27#64)
  | .curatorPlace => (3#8) ++ (0x28#64)
  | .translationFill => (3#8) ++ (0x29#64)
  | .frameMove => (3#8) ++ (0x2a#64)
  | .hostSend => (3#8) ++ (0x2b#64)
  | .launch => (3#8) ++ (0x2c#64)
  | .cancel => (3#8) ++ (0x2d#64)
  | .setpri => (3#8) ++ (0x2e#64)
  | .bound => (3#8) ++ (0x2f#64)
  | .unknownCommand => (3#8) ++ (0x30#64)
  | .reservedChannelMessage => (3#8) ++ (0x31#64)
  | .serviceMessage => (3#8) ++ (0x32#64)
  | .queuePlacement => (3#8) ++ (0x33#64)
  | .teamComplete => (3#8) ++ (0x34#64)
  | .resume => (3#8) ++ (0x35#64)
  | .freeze => (3#8) ++ (0x36#64)
  | .teardown => (3#8) ++ (0x37#64)
  | .vopen => (3#8) ++ (0x38#64)
  | .vclose => (3#8) ++ (0x39#64)
  | .lease => (3#8) ++ (0x3a#64)
  | .resolve => (3#8) ++ (0x3b#64)
  | .deadlockProbe => (3#8) ++ (0x3c#64)
  | .probeArrival => (3#8) ++ (0x3d#64)
  | .hangFreeze => (3#8) ++ (0x3e#64)
  | .uncorrectableError => (3#8) ++ (0x3f#64)
  | .correctedError => (3#8) ++ (0x40#64)
  | .scoreDecay => (3#8) ++ (0x41#64)
  | .conservatorWithdraw => (3#8) ++ (0x42#64)
  | .testComplete => (3#8) ++ (0x43#64)
  | .thermalSample => (3#8) ++ (0x44#64)
  | .referenceLoss => (3#8) ++ (0x45#64)
  | .migwaitExpiry => (3#8) ++ (0x46#64)
  | .migration => (3#8) ++ (0x47#64)
  | .powerInterval => (3#8) ++ (0x48#64)
  | .rlsUpdate => (3#8) ++ (0x49#64)
  | .pbudgetWrite => (3#8) ++ (0x4a#64)
  | .powerOn => (3#8) ++ (0x4b#64)
  | .rdmaWrite => (3#8) ++ (0x4c#64)
  | .rdmaRead => (3#8) ++ (0x4d#64)
  | .refusedRequest => (3#8) ++ (0x4e#64)
  | .windowDescriptorWrite => (3#8) ++ (0x4f#64)
  | .registerWrite => (3#8) ++ (0x50#64)
  | .extend => (3#8) ++ (0x51#64)
  | .nonceWrite => (3#8) ++ (0x52#64)
  | .attreq => (3#8) ++ (0x53#64)
  | .reportComplete => (3#8) ++ (0x54#64)
  | .hostMessageSend => (3#8) ++ (0x55#64)
  | .flitReceive => (3#8) ++ (0x56#64)
  | .retryResend => (3#8) ++ (0x57#64)
  | .packetStart => (3#8) ++ (0x58#64)
  | .escapeTimeout => (3#8) ++ (0x59#64)
  | .auditSend => (3#8) ++ (0x5a#64)
  | .auditCheck => (3#8) ++ (0x5b#64)
  | .laneFailure => (3#8) ++ (0x5c#64)
  | .portStateFlit => (3#8) ++ (0x5d#64)
  | .podBarrierArrival => (3#8) ++ (0x5e#64)
  | .podBarrierRelease => (3#8) ++ (0x5f#64)
  | .timeSync => (3#8) ++ (0x60#64)
  | .loadRequest => (3#8) ++ (0x61#64)
  | .linkUp => (3#8) ++ (0x62#64)

/-- The host's question: the step whose word is `w`, its bits above `nbits` zero. The word is laid out in bytes, least
significant first (R6), and read by the decoder. -/
def decodeTableWord (nbits w : Nat) : Option Instr :=
  match decodeBytes (leBytes 9 (w % 2 ^ nbits)) with
  | .ok i => some i
  | .error _ => none

end Sys2Proof
end

