-- ==== Sys2Proof/Machine/Check.lean ====
section
/-! DEFINITION. The checks a word passes before it may run: element placement (R11), the shape of each opcode (R54, R55,
Tables 3.7 to 3.9, 6.5, 7.3), the single-slot reasons 0x01 to 0x07 of Table 3.10 (R51 to R59), the validation record
(R58), and the node and sequencer checks of R176 and R209. -/

namespace Sys2Proof.Machine

/-- The kinds of element (R11). -/
inductive Kind where
  | pe | me | se | ce | le
  deriving DecidableEq, Repr

/-- Table 1.1: the kind of element at position row × 8 + column. -/
def kindAt (pos : Nat) : Kind :=
  let r := pos / 8
  let c := pos % 8
  if 2 ≤ r ∧ r ≤ 5 then .me
  else if (r = 0 ∨ r = 7) ∧ (c = 0 ∨ c = 7) then .se
  else if (r = 1 ∨ r = 6) ∧ (c = 3 ∨ c = 4) then .ce
  else if pos = 4 ∨ pos = 8 ∨ pos = 55 ∨ pos = 59 then .le
  else .pe

/-- What an opcode's DST field is (R54, R55, Table 6.5). -/
inductive DstUse where
  /-- unused: must hold 28 -/
  | none
  /-- D: a result destination -/
  | result
  /-- D*: a register that is also read (R66) -/
  | accum
  /-- a bank acc0 to acc7 -/
  | bank
  /-- BHOLD takes 0 (R101) -/
  | zero
  /-- an output port only (SBEAT, GLDB) -/
  | port
  deriving DecidableEq, Repr

/-- What an opcode's SA or SB field is. -/
inductive SrcUse where
  /-- unused: must hold 20 -/
  | none
  /-- a source, codes 0 to 23 -/
  | source
  /-- a queue, codes 12 to 15 -/
  | queue
  /-- an output port, the exception of ACC.RD (Table 6.5) -/
  | port
  /-- the port pair or port of ACC.DRN -/
  | drainPort
  /-- the form of ACC.DRN: 20 f32, 21 bf16 -/
  | drainForm
  /-- the conversion field of a CVT (R122) -/
  | cvt
  deriving DecidableEq, Repr

/-- R54: the fields an operation uses. -/
structure Shape where
  d : DstUse
  a : SrcUse
  b : SrcUse
  guarded : Bool
  deriving DecidableEq, Repr

def Shape.dab : Shape := ⟨.result, .source, .source, false⟩
def Shape.da : Shape := ⟨.result, .source, .none, false⟩
def Shape.accab : Shape := ⟨.accum, .source, .source, false⟩
def Shape.ab : Shape := ⟨.none, .source, .source, false⟩
def Shape.sa : Shape := ⟨.none, .source, .none, false⟩

/-- Tables 3.7 to 3.9: the shape of an opcode. -/
def shapeOf (opc : Nat) : Option Shape :=
  if opc = 0x00 then some .da
  else if opc ≤ 0x17 then some .dab
  else if opc ≤ 0x1A then some .da
  else if opc = 0x1B then some .dab
  else if opc = 0x1C then some .accab
  else if opc ≤ 0x22 then some .dab
  else if opc = 0x23 then some .accab
  else if opc ≤ 0x25 then some .dab
  else if opc ≤ 0x27 then some .da
  else if opc = 0x28 then some .dab
  else if opc < 0x40 then none
  else if opc = 0x40 then some ⟨.result, .source, .source, true⟩
  else if opc = 0x41 then some .da
  else if opc = 0x42 then some ⟨.none, .queue, .none, false⟩
  else if opc = 0x43 then some ⟨.result, .queue, .none, false⟩
  else if opc = 0x44 then some .dab
  else if opc ≤ 0x46 then some .ab
  else if opc = 0x47 then some .dab
  else if opc < 0x60 then none
  else if opc ≤ 0x62 then some .dab
  else if opc = 0x63 then some .accab
  else if opc ≤ 0x65 then some .dab
  else if opc ≤ 0x67 then some .da
  else if opc ≤ 0x69 then some .dab
  else if opc ≤ 0x6E then some .da
  else if opc ≤ 0x72 then some .dab
  else if opc = 0x73 then some .accab
  else if opc ≤ 0x75 then some .dab
  else if opc = 0x76 then some .accab
  else if opc = 0x77 then some .da
  else if opc ≤ 0x7C then some .dab
  else if opc = 0x7D then some .accab
  else if opc ≤ 0x82 then some .dab
  else if opc < 0x90 then none
  else if opc ≤ 0xA7 then some ⟨.bank, .queue, .none, false⟩
  else match opc with
    | 0xA8 => some ⟨.bank, .none, .none, false⟩
    | 0xA9 => some ⟨.bank, .source, .none, false⟩
    | 0xAA => some ⟨.bank, .source, .none, false⟩
    | 0xAB => some ⟨.bank, .drainPort, .drainForm, false⟩
    | 0xAC => some ⟨.bank, .port, .source, false⟩
    | 0xAD => some ⟨.bank, .source, .source, false⟩
    | 0xAE => some ⟨.bank, .source, .none, false⟩
    | 0xAF => some ⟨.zero, .source, .none, false⟩
    | 0xB0 => some .da
    | 0xB1 => some ⟨.none, .source, .source, true⟩
    | 0xB2 => some .da
    | 0xB3 => some .ab
    | 0xB4 => some .ab
    | 0xB5 => some ⟨.result, .source, .source, true⟩
    | 0xB6 => some ⟨.result, .source, .source, true⟩
    | 0xB7 => some ⟨.result, .source, .source, true⟩
    | 0xB8 => some .sa
    | 0xB9 => some .ab
    | 0xBA => some ⟨.port, .source, .none, false⟩
    | 0xD0 => some .da
    | 0xD1 => some .da
    | 0xD2 => some ⟨.none, .source, .source, true⟩
    | 0xD3 => some ⟨.result, .source, .source, true⟩
    | 0xD4 => some ⟨.port, .source, .none, false⟩
    | 0xD5 => some .dab
    | 0xD6 => some .ab
    | 0xD7 => some .ab
    | 0xD8 => some .ab
    | 0xD9 => some .ab
    | 0xDA => some .ab
    | 0xDB => some .ab
    | 0xDC => some .da
    | 0xDD => some .sa
    | 0xE0 => some ⟨.none, .none, .none, false⟩
    | 0xE1 => some ⟨.none, .none, .none, false⟩
    | 0xE2 => some ⟨.none, .none, .none, false⟩
    | 0xE3 => some .sa
    | 0xE4 => some .sa
    | 0xE5 => some ⟨.result, .none, .none, false⟩
    | 0xE6 => some ⟨.result, .none, .none, false⟩
    | 0xE7 => some .da
    | 0xE8 => some .sa
    | 0xE9 => some .ab
    | 0xEA => some .ab
    | 0xEB => some .ab
    | 0xEC => some .ab
    | 0xED => some .ab
    | 0xEE => some .sa
    | n => if 0xC0 ≤ n ∧ n ≤ 0xCC then some ⟨.result, .source, .cvt, false⟩ else none

/-- Table 3.6: is the opcode legal on the kind (R54)? -/
def opcLegal (k : Kind) (opc : Nat) : Bool :=
  (shapeOf opc).isSome &&
    (decide (0xE0 ≤ opc) ||
      match k with
      | .pe => decide (opc ≤ 0x82)
      | .me => decide (0x90 ≤ opc ∧ opc ≤ 0xAF)
      | .se => decide (0xB0 ≤ opc ∧ opc ≤ 0xBA)
      | .ce => decide (0xC0 ≤ opc ∧ opc ≤ 0xCC)
      | .le => decide (0xD0 ≤ opc ∧ opc ≤ 0xDD))

/-- A failing field: its reason, value and lowest bit position in the slot word (R58). -/
structure SlotFail where
  reason : Nat
  value : Nat
  bitPos : Nat
  deriving DecidableEq, Repr

def codeIsQueue (c : Nat) : Bool := decide (12 ≤ c ∧ c ≤ 15)
def codeIsReg (c : Nat) : Bool := decide (c ≤ 11)
def codeIsPort (c : Nat) : Bool := decide (24 ≤ c ∧ c ≤ 27)

/-- The conversions of Table 7.3: parts, is it exact, may OVF be set. -/
def cvtInfo (opc : Nat) : Nat × Bool × Bool :=
  match opc with
  | 0xC0 => (2, false, false)
  | 0xC1 => (2, true, false)
  | 0xC2 => (4, false, true)
  | 0xC3 => (4, false, true)
  | 0xC4 => (4, true, false)
  | 0xC5 => (4, true, false)
  | 0xC6 => (2, true, false)
  | 0xC7 => (3, false, false)
  | 0xC8 => (4, false, false)
  | 0xC9 => (4, false, false)
  | 0xCA => (4, true, false)
  | 0xCB => (2, false, false)
  | _ => (2, false, false)

/-- R122, R124, R125: is the SB field of a CVT legal with this DST? -/
def cvtLegal (opc sb dst : Nat) : Bool :=
  let rnd := sb % 4
  let ovf := sb / 4 % 2
  let part := sb / 8
  let (parts, exact, ovfOk) := cvtInfo opc
  decide (rnd ≠ 3) && decide (part < parts) && (ovf == 0 || ovfOk) && (!exact || rnd == 0)
    && !(decide (opc = 0xC7 ∧ dst = 28 ∧ part ≠ 0)) && !(decide (opc = 0xC8 ∧ dst = 28 ∧ part ≠ 0))

/-- Is the DST code legal (R52, R54, R55, R101, R104)? -/
def dstLegal (k : Kind) (opc : Nat) (u : DstUse) (c : Nat) : Bool :=
  match u with
  | .none => c == 28
  | .result =>
    if k = .me ∧ 0xE0 ≤ opc then decide (24 ≤ c ∧ c ≤ 28) else decide (c ≤ 11 ∨ (24 ≤ c ∧ c ≤ 28))
  | .accum => decide (c ≤ 11)
  | .bank => decide (c ≤ 7)
  | .zero => c == 0
  | .port => codeIsPort c

/-- Is a source code legal (R52, R54, R55, Table 6.5)? -/
def srcLegal (opc : Nat) (u : SrcUse) (c other dst : Nat) : Bool :=
  match u with
  | .none => c == 20
  | .source => decide (c ≤ 23) && !(decide (opc = 0xC7 ∧ dst ≠ 28 ∧ c ≠ 20))
  | .queue => codeIsQueue c
  | .port => codeIsPort c
  | .drainPort => if other = 20 then c == 24 || c == 26 else codeIsPort c
  | .drainForm => c == 20 || c == 21
  | .cvt => cvtLegal opc c dst

/-- Which DQ bits may be set on a field (R24). -/
def dqLegal (u : SrcUse) (c : Nat) : Bool :=
  (match u with | .source => true | .queue => true | _ => false) && (codeIsReg c || codeIsQueue c)

/-- Every failure of the single-slot reasons of Table 3.10 except ILLEGAL_OPC, for a word with this opcode and shape.
DESIGN CHOICE (log 46): K1_ILLEGAL for X = 1 with TA = 000 names TA, value 0 at bit 43. -/
def fieldFails (k : Kind) (opc : Nat) (sh : Shape) (f : Fields) : List SlotFail :=
  let dst := f.dst.toNat
  let sa := f.sa.toNat
  let sb := f.sb.toNat
  let pu := f.pu.toNat
  let pn := f.pn.toNat
  let tout := f.tout.toNat
  let isMma := decide (0x90 ≤ opc ∧ opc ≤ 0xA7)
  let isBank := decide (0xA8 ≤ opc ∧ opc ≤ 0xAE)
  let aQueue := codeIsQueue sa && (sh.a == .source || sh.a == .queue)
  let bQueue := codeIsQueue sb && (sh.b == .source || sh.b == .queue)
  let on (b : Bool) (x : SlotFail) : List SlotFail := if b then [x] else []
  on (!dstLegal k opc sh.d dst) ⟨2, dst, 25⟩ ++
  on (!srcLegal opc sh.a sa sb dst) ⟨2, sa, 20⟩ ++
  on (!srcLegal opc sh.b sb sa dst) ⟨2, sb, 15⟩ ++
  on (sh.guarded && decide (2 < pu)) ⟨3, pu, 10⟩ ++
  on (pu == 0 && pn != 0) ⟨3, pn, 7⟩ ++
  on (!sh.guarded && pu == 6 && !aQueue) ⟨3, pu, 10⟩ ++
  on ((isMma || (isBank && opc != 0xAC)) && decide (3 ≤ pu ∧ pu ≤ 5)) ⟨3, pu, 10⟩ ++
  on (decide (6 ≤ tout) || (tout == 4 && !aQueue) || (tout == 5 && !bQueue)
      || (tout != 0 && !(codeIsPort dst))
      || (tout != 0 && (opc == 0x44 || opc == 0xBA || opc == 0xD4))) ⟨4, tout, 2⟩ ++
  on (f.dqa && !dqLegal sh.a sa) ⟨5, 1, 14⟩ ++
  on (f.dqb && !dqLegal sh.b sb) ⟨5, 1, 13⟩ ++
  on (opc == 0x42 && !f.dqa) ⟨5, 0, 14⟩ ++
  on (f.ta == 0#3 && f.qa != 0#2) ⟨6, f.qa.toNat, 46⟩ ++
  on (f.tb == 0#3 && f.qb != 0#2) ⟨6, f.qb.toNat, 41⟩ ++
  on (f.x && f.ta == 0#3) ⟨7, 0, 43⟩ ++
  on (f.x && (k == .me || k == .ce)) ⟨7, 1, 0⟩

/-- R57: of several failures, the lowest reason; of one reason, the field that stands highest in the word. -/
def worstFail : List SlotFail → Option SlotFail
  | [] => none
  | x :: xs => match worstFail xs with
    | none => some x
    | some y =>
      if x.reason < y.reason ∨ (x.reason = y.reason ∧ y.bitPos ≤ x.bitPos) then some x else some y

/-- The checks of Table 3.10 that concern a single slot, on an element of kind `k`; `commitHere` says whether this is
the block's commit element (R144). An empty slot passes (R50). -/
def slotFail (k : Kind) (commitHere : Bool) (w : W64) : Option SlotFail :=
  if w.getLsbD 1 = false then none
  else
    let opc := field w 30 8
    if !opcLegal k opc || (opc == 0xE2 && !commitHere) then some ⟨1, opc, 30⟩
    else match shapeOf opc with
      | none => some ⟨1, opc, 30⟩
      | some sh => worstFail (fieldFails k opc sh (Fields.ofWord w))

/-- R58: the validation record. DESIGN CHOICE (log 107): of a field wider than eight bits it holds the low eight. -/
def validationRecord (reason variant pos slot : Nat) (notSlot : Bool) (value bitPos : Nat) : W64 :=
  BitVec.ofNat 8 reason ++ BitVec.ofNat 2 variant ++ BitVec.ofNat 6 pos ++ BitVec.ofNat 4 slot ++
    BitVec.ofBool notSlot ++ BitVec.ofNat 8 value ++ BitVec.ofNat 6 bitPos ++ (0#29)

/-- The record of a slot's failure. -/
def slotRecord (variant pos slot : Nat) (x : SlotFail) : W64 :=
  validationRecord x.reason variant pos slot false x.value x.bitPos

/-! ### Walker nodes (R176) and sequencer words (R209) -/

/-- R176: the reason a node word is rejected, given the node count and the registered blocks. DESIGN CHOICE (log 46): of several
the lowest code. -/
def nodeFail (nnode : Nat) (blocks : List Nat) (w : W64) : Option Nat :=
  let kind := field w 58 6
  let next := field w 48 10
  let alt := field w 38 10
  let fl := field w 32 5
  let p := field w 0 32
  let rsv (b : Bool) : Option Nat := if b then some 0x0E else none
  let scope (b : Bool) : Option Nat := if b then some 0x0F else none
  let link (b : Bool) : Option Nat := if b then some 0x12 else none
  let fld (b : Bool) : Option Nat := if b then some 0x13 else none
  let nx := link (decide (nnode ≤ next))
  let al := link (decide (nnode ≤ alt))
  match kind with
  | 0x01 | 0x02 => rsv (alt != 0 || decide (2 ≤ fl) || decide (2 ^ 20 ≤ p)) <|> nx <|> link (!(blocks.contains (p % 2 ^ 20)))
  | 0x03 => nx <|> al <|> fld (fl % 2 == 1 && decide (2 ^ 16 ≤ p))
  | 0x04 => rsv (alt != 0 || fl != 0 || p != 0) <|> nx
  | 0x05 | 0x06 => rsv (fl != 0 || decide (256 ≤ p)) <|> nx <|> al
  | 0x07 => rsv (alt != 0 || fl != 0 || p != 0) <|> nx
  | 0x08 => rsv (fl != 0 || p != 0) <|> nx <|> al
  | 0x09 => rsv (next != 0 || alt != 0 || fl != 0 || p != 0)
  | 0x0A => rsv (decide (8 ≤ fl)) <|> nx <|> al
  | 0x0B => rsv (alt != 0 || decide (16 ≤ fl) || p != 0) <|> nx
  | 0x0C => rsv (alt != 0 || fl != 0 || decide (2 ^ 11 ≤ p)) <|> scope (decide (6 ≤ p % 8)) <|> nx <|> fld (decide (p % 8 < 2))
  | 0x0D => rsv (alt != 0 || fl != 0 || decide (2 ^ 25 ≤ p)) <|> nx <|> fld (decide (6 ≤ p / 2 ^ 22 % 8))
  | 0x0E => rsv (alt != 0 || fl != 0 || decide (2 ^ 20 ≤ p)) <|> nx
  | 0x0F => rsv (alt != 0 || fl != 0 || p != 0) <|> nx
  | 0x10 => rsv (alt != 0 || fl != 0) <|> nx
  | 0x11 => rsv (next != 0 || alt != 0 || fl != 0 || p != 0)
  | 0x12 => rsv (alt != 0 || fl != 0 || p / 32 % 8 != 0) <|> nx
  | 0x13 => rsv (alt != 0 || fl != 0 || decide (2 ^ 26 ≤ p)) <|> nx
  | _ => some 0x11

/-- R176: the graph validation record. -/
def graphRecord (reason node : Nat) (header : Bool) : W64 :=
  BitVec.ofNat 8 reason ++ (0#8) ++ BitVec.ofNat 10 node ++ BitVec.ofBool header ++ (0#37)

/-- A BF16 tolerance that R217 rejects: negative or NaN. -/
def badTolBf16 (t : Nat) : Bool := decide (0x8000 ≤ t) || decide (0x7F80 < t % 0x8000)

/-- R209: the reason a sequencer word is rejected, given the program length; of several the lowest code (log 46). -/
def seqFail (len : Nat) (w : W64) : Option Nat :=
  let op := field w 58 6
  let a := field w 52 6
  let b := field w 46 6
  let pf := field w 40 6
  let o := field w 0 40
  let rsv (x : Bool) : Option Nat := if x then some 0x0E else none
  let link (x : Bool) : Option Nat := if x then some 0x12 else none
  let fld (x : Bool) : Option Nat := if x then some 0x13 else none
  match op with
  | 0x01 => rsv (b != 0 || decide (4 ≤ pf)) <|> fld (pf == 3)
  | 0x02 => rsv (b != 0 || decide (8 ≤ pf) || o != 0) <|> fld (pf != 0 && pf != 2)
  | 0x03 => rsv (b != 0 || decide (4 ≤ pf) || o != 0) <|> fld (pf == 3)
  | 0x04 => rsv (b != 0 || pf != 0 || decide (2 ^ 12 ≤ o))
  | 0x05 =>
    if pf / 4 % 2 = 1 then fld (pf % 4 != 0 || pf / 8 % 4 == 3)
    else rsv (b != 0) <|> fld (pf / 8 % 4 == 3 || decide (2 ^ 26 ≤ o))
  | 0x06 => rsv (b != 0 || decide (32 ≤ pf) || o / 2 ^ 20 % 2 ^ 18 != 0) <|> fld (o / 2 ^ 38 == 3)
  | 0x07 => rsv (b != 0 || decide (4 ≤ pf) || decide (16 ≤ o)) <|> fld (pf == 3)
  | 0x08 => rsv (decide (32 ≤ pf) || decide (2 ^ 37 ≤ o)) <|> fld (badTolBf16 (o % 2 ^ 16) || badTolBf16 (o / 2 ^ 16 % 2 ^ 16))
  | 0x09 | 0x0A => rsv (a != 0 || b != 0 || decide (16 ≤ pf) || decide (2 ^ 32 ≤ o))
  | 0x0B => rsv (b != 0 || decide (8 ≤ pf) || o != 0) <|> fld (decide (6 ≤ pf))
  | 0x0C => rsv (b != 0 || decide (2 ≤ pf) || o != 0)
  | 0x0D => rsv (b != 0 || pf != 0 || o != 0)
  | 0x0E =>
    rsv (decide (32 ≤ pf) || decide (2 ^ 26 ≤ o) || (pf % 2 == 1 && (a != 0 || b != 0)) || (pf % 2 == 0 && pf != 0))
  | 0x0F => rsv (b != 0 || decide (32 ≤ pf) || decide (2 ^ 13 ≤ o))
  | 0x10 => rsv (a != 0 || b != 0 || pf != 0 || decide (2 ^ 8 ≤ o)) <|> link (decide (len ≤ o))
  | 0x11 => rsv (a != 0 || b != 0 || decide (4 ≤ pf) || decide (2 ^ 24 ≤ o)) <|> link (decide (len ≤ o % 256))
  | 0x12 => rsv (a != 0 || b != 0 || pf != 0 || o != 0)
  | _ => some 0x11

end Sys2Proof.Machine
end

