-- ==== Sys2Proof/Config.lean ====
section
/-! DEFINITION. What one part fixes and what the manual leaves open: figures of the package, firmware parameters, and the
free values, which have no body so that no proof can know them. -/

namespace Sys2Proof.Config

/-- R203: a byte of an undefined tile buffer; the argument is a fresh number of `State.free` plus the byte's place
(free value, log 7). -/
opaque freeByte : Nat → BitVec 8

/-- A 64-bit value that the manual does not state; the argument is a fresh number of `State.free` (free value, log 7). -/
opaque freeWord : Nat → BitVec 64

/-- Table 19.1: the location of the tile table of a tensor that a launch at a TIME declares (free value, log 7). -/
opaque tileTable : Nat → Nat → BitVec 48

/-- R221: VERSION in the dirty-range entry of a writer of this slot that never published (free value, log 7). -/
opaque unpublished : Nat → BitVec 32

/-- R224: what the droop detectors of a core choose for its next cycle: physical compute core n is unit 2n, memory core n unit
2n + 1, and the second argument numbers the cycle (free value, log 21). -/
opaque droop : Nat → Nat → Nat

/-- R229, R259: what no rule fixes of a load that goes over the die network, by a fresh number of `State.free`: bit 0 an entry of
the beat buffer serves it where one can, bit 1 the beat is not kept, bit 2 it is not served in this cycle (free value,
log 1). -/
opaque path : Nat → Nat

/-- R382: the identity key, which never leaves the part: the bits of its 3,072-bit modulus below the highest, and its private
exponent (fixed for the part, log 8). -/
opaque keyModulus : BitVec 3071
opaque keyExponent : BitVec 3072

/-- R379: SERIAL (fixed for the part, log 8). -/
opaque serial : BitVec 64

/-- R379, Table 26.1: the identity certificate's length, at most 4,096, and its bytes (fixed for the part, log 8). -/
opaque certLen : Fin 4097
opaque certByte : Nat → BitVec 8

/-- R370: the power-model weights at boot and their bounds, in picojoules, weight 24 the static energy of a second; they
are kept with the firmware (fixed for the part, log 9). -/
opaque weightInit : Nat → Rat
opaque weightMin : Nat → Rat
opaque weightMax : Nat → Rat

/-- R363: dies, and quads of a die (32 × 20). -/
def dies : Nat := 4
def quadCols : Nat := 32
def quadRows : Nat := 20
def quadsPerDie : Nat := quadCols * quadRows
def quads : Nat := dies * quadsPerDie

/-- R367. -/
def hbmChannels : Nat := 384
def framesPerChannel : Nat := 24576
def frameBytes : Nat := 65536

/-- Table 23.2 (R343). -/
def tPeriod : Nat := 8640000000000
def testNow : Nat := 0x4000
def retire : Nat := 0xC000
def migWait : Nat := 2 ^ 20
def tMig : Nat := 95
def tForce : Nat := 105
def tStop : Nat := 115
def tClear : Nat := 90

/-- R387. -/
def escWait : Nat := 64

/-- R281: block images of one launch. -/
def blockImageLimit : Nat := 16 * 1024 * 1024

/-- R304: the size of a quad's place in the image area. -/
def quadPlace : Nat := 0x580000

end Sys2Proof.Config
end

