-- ==== Sys2Proof/Machine/Data.lean ====
section
/-! DEFINITION. The containers of the state: lists keyed by a number or a pair (the first entry of a key counts), fixed
rows read and written by index, and byte memories in one canonical form. -/

namespace Sys2Proof.Machine

/-- A list of keyed values; the first entry of a key counts. -/
abbrev Assoc (κ α : Type) := List (κ × α)

variable {κ α : Type} [DecidableEq κ]

/-- The value at a key. -/
def Assoc.get? : Assoc κ α → κ → Option α
  | [], _ => none
  | (k', v) :: t, k => if k' = k then some v else Assoc.get? t k

/-- Replaces the value at a key, or adds one at the end. -/
def Assoc.put : Assoc κ α → κ → α → Assoc κ α
  | [], k, v => [(k, v)]
  | (k', v') :: t, k, v => if k' = k then (k', v) :: t else (k', v') :: Assoc.put t k v

/-- Changes the value at a key that is present. -/
def Assoc.adjust : Assoc κ α → κ → (α → α) → Assoc κ α
  | [], _, _ => []
  | (k', v') :: t, k, f => if k' = k then (k', f v') :: t else (k', v') :: Assoc.adjust t k f

/-- Removes every entry of a key. -/
def Assoc.del (l : Assoc κ α) (k : κ) : Assoc κ α := l.filter fun p => p.1 ≠ k

/-- Replaces the `i`-th entry of a fixed row; an index past its end changes nothing. -/
def upd {n : Nat} (v : Vector α n) (i : Nat) (x : α) : Vector α n := v.setIfInBounds i x

/-- The `i`-th entry of a fixed row, or `d` past its end. -/
def at' {n : Nat} (v : Vector α n) (i : Nat) (d : α) : α := v.getD i d

/-- Changes the `i`-th entry of a list. -/
def modAt (f : α → α) : List α → Nat → List α
  | [], _ => []
  | x :: xs, 0 => f x :: xs
  | x :: xs, i + 1 => x :: modAt f xs i

/-! ### Byte memories -/

/-- Addresses strictly rising, no byte equal to 0, which is what an unlisted address reads as (log 3). -/
abbrev Memory := List Host.Cell

/-- A byte; an unlisted address reads as 0 (log 3). -/
def Memory.read : Memory → Nat → Byte
  | [], _ => 0#8
  | (k, v) :: t, a => if k = a then v else if a < k then 0#8 else Memory.read t a

/-- A byte written in canonical form. -/
def Memory.write : Memory → Nat → Byte → Memory
  | [], a, b => if b = 0#8 then [] else [(a, b)]
  | (k, v) :: t, a, b =>
    if a < k then (if b = 0#8 then (k, v) :: t else (a, b) :: (k, v) :: t)
    else if a = k then (if b = 0#8 then t else (a, b) :: t)
    else (k, v) :: Memory.write t a b

/-- Every listed address is at least `lo`, they rise strictly, and no listed byte is 0. -/
def Memory.wfFrom : Nat → Memory → Bool
  | _, [] => true
  | lo, (k, v) :: t => decide (lo ≤ k) && decide (v ≠ 0#8) && Memory.wfFrom (k + 1) t

/-- The canonical form. -/
def Memory.wf (m : Memory) : Bool := Memory.wfFrom 0 m

/-- `n` bytes from `a` upward. -/
def Memory.readN (m : Memory) (a : Nat) : Nat → List Byte
  | 0 => []
  | n + 1 => m.read a :: Memory.readN m (a + 1) n

/-- Bytes written from `a` upward. -/
def Memory.writeN (m : Memory) (a : Nat) : List Byte → Memory
  | [] => m
  | b :: bs => Memory.writeN (m.write a b) (a + 1) bs

/-- Drops the bytes of `[lo, hi)`, so that they read as 0. -/
def Memory.clear (m : Memory) (lo hi : Nat) : Memory := m.filter fun c => decide (c.1 < lo) || decide (hi ≤ c.1)

end Sys2Proof.Machine
end

