-- ==== Sys2Proof/Machine/State.lean ====
section
/-! DEFINITION. The state of one Rhastan G4 package as plain data: elements and their kinds' own state, compute cores
with their walkers, memory cores, teams, engines, dispatcher, host window, health, power and fabric. Nothing of a team
exists before a launch, so the state after reset is small. -/

namespace Sys2Proof.Machine

/-! ### Tokens and elements (R12 to R20) -/

/-- Table 1.4. -/
inductive Fmt where
  | raw | i64 | f32x2 | bf16x4 | e4m3x8 | e5m2x8 | e2m1x16 | i8x8
  deriving DecidableEq, Repr

/-- Table 1.5. -/
inductive Ctl where
  | data | last | sep | null
  deriving DecidableEq, Repr

/-- R14. -/
structure Token where
  data : W64
  fmt : Fmt
  ctl : Ctl
  tnt : Bool
  deriving DecidableEq, Repr

/-- R42 with R103: the sticky flags in the order of ID selector 0x06. -/
structure Flags where
  nv : Bool
  dz : Bool
  of : Bool
  uf : Bool
  nx : Bool
  io : Bool
  tc : Bool
  deriving DecidableEq, Repr

def Flags.none : Flags := ⟨false, false, false, false, false, false, false⟩

structure Reg where
  data : W64
  fmt : Fmt
  tnt : Bool
  full : Bool
  pending : Bool
  deriving DecidableEq, Repr

structure Pred where
  val : Bool
  tnt : Bool
  pending : Bool
  deriving DecidableEq, Repr

/-- A receiver of a route: element position, queue, latency (R156) and the credits the sender holds for it (R18). -/
structure Recv where
  pos : Nat
  q : Nat
  lat : Nat
  credits : Nat
  deriving DecidableEq, Repr

/-- Who holds an output port from the start of a stream to its last send (R120, R134, R212, R330). -/
inductive Hold where
  | gen (g : Nat)
  | burst
  | leGen (g : Nat)
  | strm (mcore port : Nat)
  | gred (id : Nat)
  deriving DecidableEq, Repr

structure Port where
  recvs : List Recv
  hold : Option Hold
  deriving DecidableEq, Repr

/-- Table 1.3, Table 8.1, and the kind field of Table 9.5. -/
structure ElemCfg where
  regmode : BitVec 12
  emptytrap : BitVec 12
  accept : Vector (BitVec 8) 4
  detour : Vector Nat 4
  age : Nat
  initp : BitVec 8
  initf : BitVec 12
  /-- ME column reader descriptor, SE SHARED, CE seed -/
  kindWord : W64
  tids : Vector Nat 4
  defer : BitVec 4
  lslots : Vector (BitVec 9) 16
  /-- words 0 and 1 of the element record (view, Table 20.6) -/
  word0 : W64
  word1 : W64
  deriving DecidableEq, Repr

/-- An access of an LE that R301 names again: the fired access of a slot, the next token of a generator's load stream, or a
request to be reissued. -/
inductive LateAccess where
  | slot (i : Nat)
  | gen (g : Nat)
  | req (id : Nat)
  deriving DecidableEq, Repr

/-- A trap with its INFO fields (Table 20.4). -/
structure TrapInfo where
  code : Nat
  info : W64
  info2 : W64
  deriving DecidableEq, Repr

/-- Table 1.2 with HALT (R143), WAITC (R146), a deferred fence (R149), a held trap (R255) and the block run that owns
the element. -/
structure Elem where
  regs : Vector Reg 12
  preds : Vector Pred 8
  queues : Vector (List Token) 4
  ports : Vector Port 4
  consts : Vector (W64 × Fmt) 4
  slots : Vector W64 16
  flags : Flags
  /-- flags set by results landing in this cycle (R42) -/
  landed : Flags
  ptr : Nat
  ages : Vector Nat 16
  cfg : ElemCfg
  /-- the number of the block run, or none -/
  run : Option Nat
  halted : Bool
  waitc : Nat
  /-- a WAITC holds this element in this cycle (R146) -/
  waiting : Bool
  /-- requests and load streams that an acquire FENCE waits for (R149) -/
  fence : List Nat
  fenceGens : List Nat
  held : Option TrapInfo
  heldSlot : Nat
  /-- cycles port-blocked on the same edge (R314) -/
  blocked : Nat
  /-- that edge, in one number; 0 for none -/
  edge : Nat
  /-- the accesses that raised WATCH_HIT since the last resumption, and those that a resumption lets go untested (R301) -/
  watched : List LateAccess
  noWatch : List LateAccess
  deriving DecidableEq, Repr

/-! ### Matrix elements (R99 to R110) -/

structure Bank where
  c : Vector W32 16
  int : Bool
  gamma : W32
  tnt : Bool
  deriving DecidableEq, Repr

/-- A chunk in the B register (R100). -/
structure BEntry where
  chunk : BitVec 512
  side : W32
  tnt : Bool
  cm : BitVec 4
  hold : Option Nat
  deriving DecidableEq, Repr

/-- A drain in progress (R110): bank, next row, first port and form. -/
structure Drain where
  bank : Nat
  row : Nat
  port : Nat
  bf16 : Bool
  deriving DecidableEq, Repr

structure ME where
  banks : Vector Bank 8
  cur : Option BEntry
  nxt : Option BEntry
  /-- entries reserved by chunks in transit -/
  reserved : Nat
  ph : Nat
  /-- scales and count of each slice's holder (R99) -/
  holders : Vector (W32 × Nat) 4
  /-- scale tokens on their way to each holder -/
  scalesComing : Vector Nat 4
  /-- holders whose last scale was taken in this cycle: free from the next on (R21, R99) -/
  gave : Vector Bool 4
  slicePtrs : Vector Nat 4
  drains : List Drain
  /-- cycles a bank stays busy (Table 6.5) -/
  busy : Vector Nat 8
  /-- slots of each queue as the row-bus writers see them in use (R79) -/
  qUsed : Vector Nat 4
  deriving DecidableEq, Repr

/-! ### Scratchpad, converter and endpoint elements -/

/-- R113, R119. -/
structure SGen where
  base : Nat
  stride : BitVec 12
  count : Nat
  pos : Nat
  stream : Bool
  port : Nat
  busy : Bool
  configured : Bool
  deriving DecidableEq, Repr

structure Burst where
  addr : Nat
  prog : Nat
  port : Nat
  deriving DecidableEq, Repr

structure SE where
  /-- words that are not 0 with tag RAW -/
  bank : Assoc Nat (W64 × Fmt)
  own : BitVec 16
  gens : Vector SGen 4
  burst : Option Burst
  ptr : Nat
  fillLeft : Nat
  /-- the regions that the running fill writes (R115, R121) -/
  fillMask : BitVec 16
  deriving DecidableEq, Repr

/-- R122. -/
structure CE where
  pk : W64
  pkTnt : Bool
  mb : List W16
  mt : Bool
  xe : BitVec 8
  xs : BitVec 8
  lfsr : W32
  deriving DecidableEq, Repr

/-- `ending`: a load stream whose requests are all formed and whose last token is not yet sent (R134). -/
inductive GenMode where
  | idle | load | ending | store
  deriving DecidableEq, Repr

/-- R128: base coordinates, extents minus 1, the group reached, and the stream's fire. -/
structure LGen where
  c : Vector W32 5
  n : Vector Nat 5
  mode : GenMode
  group : Nat
  port : Nat
  slot : Nat
  addr : W64
  tnt : Bool
  deriving DecidableEq, Repr

inductive ReqKind where
  /-- GLD, GLDC -/
  | load
  | burst
  | atomic
  | tstat
  /-- a token of the load stream of generator `g`; is it the last of its box? -/
  | stream (g : Nat) (lastOfBox : Bool)
  /-- a token formed at its fire that waits for earlier results of its port (R130, R136) -/
  | sent
  deriving DecidableEq, Repr

inductive ReqState where
  /-- not yet performed at the memory -/
  | waiting
  /-- performed: the tokens to deliver -/
  | served (toks : List Token)
  /-- the NULL token of a deferred fault stands for it: the fault record's index, and whether it was sent (R136) -/
  | faulted (record : Nat) (told : Bool)
  /-- discarded behind a deferred fault and to be reissued (R136) -/
  | behind
  deriving DecidableEq, Repr

/-- An entry of the outstanding-request table (R128), in fire order. -/
structure LReq where
  id : Nat
  kind : ReqKind
  slot : Nat
  binding : Nat
  tid : Nat
  coords : List Nat
  lanes : Nat
  dst : Nat
  tnt : Bool
  ctl : Ctl
  pu : Nat
  pn : Nat
  addr : W64
  run : Nat
  /-- the commit group open at the fire (R144) -/
  group : Nat
  /-- lanes taken from the own block's buffered stores at the fire (R170) -/
  fwd : List (Option Nat)
  /-- holds a credit of its output port (R25, R136) -/
  held : Bool
  /-- count watchpoints that the access matched at its fire (R300) -/
  hits : List Nat
  /-- core cycles before the result may land (Table 12.1, neighbour tile read) -/
  left : Nat
  st : ReqState
  /-- tokens of a burst that have been sent, which a load made again after a restore does not send again (R173) -/
  gone : Nat
  /-- the LE's own beat buffer or the block's buffered stores served it: nothing arrives at the core for it (R159, R259) -/
  own : Bool
  deriving DecidableEq, Repr

/-- A beat of a stream or of a gather-reduce row that an LE holds: its port, the tokens still to send, whose it is, and
whether it is the last one (R212, R330). -/
structure InBeat where
  port : Nat
  toks : List Token
  hold : Hold
  final : Bool
  deriving DecidableEq, Repr

structure LE where
  gens : Vector LGen 4
  reqs : List LReq
  /-- the beat buffer: block address (memory kind, number of the 64-byte block) and its bytes (R259) -/
  beats : List ((Nat × Nat) × List Byte)
  /-- beats that have arrived (R228) -/
  inbeats : List InBeat
  deriving DecidableEq, Repr

/-! ### What is in flight on a core -/

/-- The pipelines of a PE (R65, R84) and the units of the other kinds. -/
inductive Unit' where
  | int | mul | divider | fp | special | vec | store | conv | mem | common
  deriving DecidableEq, Repr

/-- A long-latency result (R19, R25, R26, R83). -/
structure LongResult where
  pos : Nat
  slot : Nat
  unit : Unit'
  dst : Nat
  data : W64
  fmt : Fmt
  tnt : Bool
  ctl : Ctl
  flags : Flags
  pu : Nat
  pn : Nat
  /-- a scratchpad word this access reads (R115) -/
  word : Option Nat
  deriving DecidableEq, Repr

/-- A row fire on its way to the accumulator (R107). -/
structure MmaLand where
  pos : Nat
  slice : Nat
  bank : Nat
  opc : Nat
  row : BitVec 128
  chunk : BitVec 512
  side : W32
  scale : Nat
  tnt : Bool
  deriving DecidableEq, Repr

inductive Cargo where
  | token (pos q : Nat) (t : Token)
  | credit (pos port rcv : Nat)
  | result (r : LongResult)
  | busToken (pos q : Nat) (t : Token)
  | busScales (pos q : Nat) (v : W32)
  | busCredit (pos q : Nat)
  | chunk (col : Nat) (rmask : Nat) (data : BitVec 512) (side : W32) (tnt : Bool)
  | mma (m : MmaLand)
  | streamWord (pos port word : Nat) (t : Token) (last : Bool) (h : Hold)
  | cfgw (pos slot : Nat) (w : W64)
  /-- the last word of a stream has been sent: its port is free at the end of the cycle (R120) -/
  | portFree (pos port : Nat) (h : Hold)
  /-- a beat of a STRM or gather-reduce row that reaches an LE (R212, R330) -/
  | beat (pos port : Nat) (toks : List Token) (h : Hold) (final : Bool)
  deriving DecidableEq, Repr

/-- An item in flight: core cycles left, the block run that caused it with its commit group open at the fire (R144), and
what it is. -/
structure Flight where
  left : Nat
  run : Nat
  group : Nat
  cargo : Cargo
  deriving DecidableEq, Repr

/-- A column bus's staging chunk (R80). -/
structure Staging where
  lanes : Vector (Option W64) 8
  side : Option W32
  rmask : Nat
  tnt : Bool
  /-- cycles that have begun since the chunk was full -/
  age : Nat
  deriving DecidableEq, Repr

/-- An upper-store column reader (R102). -/
structure Reader where
  desc : W64
  pass : Nat
  idx : Nat
  run : Nat
  deriving DecidableEq, Repr

/-! ### Commit buffer and block runs (R143 to R170, R247 to R255) -/

inductive BufOp where
  | store (tid : Nat) (coords : List Nat) (lanes : Nat) (data : W64)
  | arrv (mcore ctr : Nat) (v : W32)
  | msnd (payload dest : W64)
  | seUndo (pos word : Nat) (old : W64 × Fmt)
  | meUndo (pos bank : Nat) (old : Bank)
  deriving DecidableEq, Repr

/-- An entry of the commit buffer; `sent`: a store into a tile that the tile has accepted (R201). -/
structure BufEntry where
  run : Nat
  group : Nat
  pos : Nat
  op : BufOp
  sent : Bool
  deriving DecidableEq, Repr

/-- How a speculative input was resolved (Table 15.3). -/
inductive InputKind where
  | real
  | prediction
  | tentative (core run : Nat)
  deriving DecidableEq, Repr

structure SpecInput where
  mcore : Nat
  slot : Nat
  ver : W32
  kind : InputKind
  /-- the pinned buffer -/
  buf : Nat
  passed : Bool
  deriving DecidableEq, Repr

/-- R169. -/
structure RunStatus where
  done : Bool
  spilled : Bool
  squashed : Bool
  discarded : Bool
  variant : Nat
  groups : Nat
  deriving DecidableEq, Repr

/-- A running block (a block run): an entry of the walker's table of runs (R174, R182). -/
structure Run where
  id : Nat
  node : Nat
  block : Nat
  itr : Nat
  runs : Bool
  status : RunStatus
  /-- the positions of its region and its commit element (R144, R163) -/
  elems : List Nat
  commitPos : Nat
  /-- the open group's number; groups below it in `ended` wait to perform -/
  group : Nat
  ended : List Nat
  /-- a COMMIT has fired in this cycle: the group ends with the cycle (R144) -/
  closing : Bool
  level : Nat
  spec : Bool
  inputs : List SpecInput
  /-- every element has halted and all results and streams are done (R143) -/
  complete : Bool
  /-- squashed and to be issued again before every pending entry (R254) -/
  reissue : Bool
  fires : Nat
  unroll : Nat
  /-- block issues of the core before this one (R190) -/
  issue : Nat
  deriving DecidableEq, Repr

/-! ### The walker (R174) -/

structure Level where
  head : Nat
  index : W32
  bound : W32
  step : Nat
  deriving DecidableEq, Repr

structure RetEntry where
  node : Option Nat
  depth : Nat
  task : Bool
  deriving DecidableEq, Repr

structure Task where
  entry : Nat
  arg : W32
  group : Nat
  owner : Nat
  deriving DecidableEq, Repr

/-- A pending entry (R180); `id` is the number its block run will have. -/
structure Pend where
  id : Nat
  node : Nat
  block : Nat
  itr : Nat
  spec : Bool
  wait : Nat
  deriving DecidableEq, Repr

/-- What the node being processed has already done (R180, R193, R194). -/
inductive Mark where
  | none
  /-- RUN with SYNC: its entry is appended; wait for that instance -/
  | appended (id : Nat)
  /-- BAR arrived in this generation -/
  | arrived (gen : Nat)
  /-- PLACE sent: the record's tensor and words as they were read (R194) -/
  | placing (tid : Nat) (record : List W64)
  /-- PLACE complete -/
  | placed
  deriving DecidableEq, Repr

structure Walker where
  pos : Option Nat
  levels : List Level
  cw : W64
  rstack : List RetEntry
  deque : List Task
  joins : Vector Nat 8
  bch : List (Nat × W32)
  pend : List Pend
  lstat : W64
  roleage : Nat
  /-- tasks being run, innermost first, each with the number of the next pending entry and of block issues when it
  began (R190) -/
  tasks : List (Task × Nat × Nat)
  mark : Mark
  /-- ring offset of the next steal probe (R191) -/
  probe : Nat
  /-- join decrements that have arrived (group) (R190) -/
  decs : List Nat
  /-- bound tokens that have arrived (R187) -/
  bounds : List W64
  /-- CWSETs of this cycle (R151) -/
  cwsets : List (W64 × W64)
  yielded : Bool
  deriving DecidableEq, Repr

/-! ### A compute core's context -/

/-- A bus write that a selector has chosen (R82): its element and slot, and the slots that were candidates. -/
structure BusWrite where
  pos : Nat
  slot : Nat
  cands : List Nat
  deriving DecidableEq, Repr

structure CoreCtx where
  elems : Assoc Nat Elem
  mes : Assoc Nat ME
  ses : Assoc Nat SE
  ces : Assoc Nat CE
  les : Assoc Nat LE
  flights : List Flight
  staging : Vector Staging 8
  /-- grant pointers: row buses 0 to 3, column buses 4 to 11 (R82) -/
  grant : Vector Nat 12
  /-- tokens and scale tokens granted on each row bus in this cycle (R82) -/
  rowUsed : Vector (Nat × Bool) 4
  /-- columns the upper-store reader took in this cycle (R81) -/
  colTaken : List Nat
  /-- bus writes chosen in this cycle (R82) -/
  busChosen : List BusWrite
  readers : Assoc Nat Reader
  upper : Memory
  divs : Vector Nat 8
  runs : List Run
  nextRun : Nat
  nextReq : Nat
  buf : List BufEntry
  /-- locations in the store filter: tensor and coordinates (R170, log 13) -/
  filter : List (Nat × List Nat)
  walker : Walker
  /-- CYC: the number of the cycle that runs, and between cycles of the last one; has the first cycle begun? (R225) -/
  cyc : W64
  begun : Bool
  epoch : Nat
  evc : Vector W64 32
  admitN : Nat
  admitW : Nat
  allowance : Nat
  admitLeft : Nat
  frozen : Bool
  /-- indices of the records raised in this cycle, lowest first (R306) -/
  raised : List Nat
  viewOpen : Bool
  resident : Bool
  /-- a trap of this cycle found no free position in the ring: the team is torn down at the cycle's end (R305) -/
  ringFull : Bool
  /-- a commit group has ended in this cycle (R353) -/
  ends : Bool
  /-- the blocks that arrivals wait for and that are not in the configuration cache, with the cycles waited (R164) -/
  cfgMiss : List (Nat × Nat)
  /-- capacity-change records made for the team before this cycle (R350) -/
  capSeen : Nat
  /-- verdicts that have arrived: run, memory core, slot, pass (R252) -/
  verdicts : List (Nat × Nat × Nat × Bool)
  deriving DecidableEq, Repr

/-! ### Memory cores (R198 to R222) -/

inductive TileState where
  | empty | filling | ready | draining | predicted | verifying
  deriving DecidableEq, Repr

inductive TileMode where
  | store | fifo | line
  deriving DecidableEq, Repr

/-- The writer that holds a shadow (R201). -/
inductive Claimer where
  | block (core run group : Nat)
  | fill
  deriving DecidableEq, Repr

/-- An armed fill (R213): bytes still to come, counter, transposition. -/
structure Fill where
  total : Nat
  left : Nat
  ctr : Option Nat
  xp : Nat
  /-- the memory cores whose streams have written into it since its last publish (R207, R221) -/
  srcs : List Nat
  deriving DecidableEq, Repr

/-- A registered speculative reader and its tolerances (R248, R252). -/
structure SpecReader where
  core : Nat
  run : Nat
  eabs : W32
  erel : W32
  deriving DecidableEq, Repr

/-- Table 11.1 with the roles of the buffers. -/
structure Tile where
  defd : Bool
  state : TileState
  own : Bool
  ret : Nat
  mode : TileMode
  base : Nat
  rows : Nat
  rowb : Nat
  fmt : Fmt
  version : W32
  claim : Option Claimer
  pins : Vector Nat 3
  head : Nat
  count : Nat
  /-- which buffer is current, shadow and previous -/
  cur : Nat
  shadow : Nat
  prev : Nat
  fill : Option Fill
  /-- bytes already placed in the row being appended (R204) -/
  partialRow : Nat
  readers : List SpecReader
  /-- a publish that waits for a prediction being formed (R203) -/
  publishWaits : Bool
  /-- the dispatcher's system channel (R286) -/
  system : Bool
  /-- the compute core whose MOWN back to the thread waits with no engine operation left: no further one starts (R139) -/
  flipWaits : Option Nat
  deriving DecidableEq, Repr

/-- A running stream (R212). -/
structure Strm where
  slot : Nat
  port : Nat
  dn : Bool
  xp : Nat
  rel : Bool
  /-- the row being sent, rows still to send with it, its next beat, and the beats sent so far -/
  row : Nat
  left : Nat
  beat : Nat
  sent : Nat
  /-- the pinned buffer, once a row has been read -/
  buf : Option Nat
  /-- LE output port, or destination memory core -/
  dest : Nat
  dslot : Nat
  /-- the sequencer word that started it -/
  word : Nat
  deriving DecidableEq, Repr

/-- A prediction or a comparison in progress (R215, R217). -/
structure PredJob where
  slot : Nat
  mode : Nat
  m : Nat
  deriving DecidableEq, Repr

structure CmpJob where
  a : Nat
  b : Nat
  bufA : Nat
  bufB : Nat
  eabs : W16
  erel : W16
  pass : Option Nat
  fail : Option Nat
  deriving DecidableEq, Repr

/-- A dirty-range box (R207, R221): slot, writer kind as in a DRNG record, corners, version; `who` names the writer while the
box is open: a core and block run, or a fill by (2^40, slot). -/
structure Dirty where
  slot : Nat
  kind : Nat
  lowRow : Nat
  lowEl : Nat
  highRow : Nat
  highEl : Nat
  version : W32
  who : Nat × Nat
  deriving DecidableEq, Repr

/-- A trap's open record (R305). -/
structure OpenRec where
  index : Nat
  src : Nat
  core : Nat
  pos : Nat
  slot : Nat
  node : Nat
  code : Nat
  deriving DecidableEq, Repr

structure MCoreCtx where
  wbase : Nat
  wsize : Nat
  window : Memory
  /-- byte ranges of the window whose contents are undefined: low, high, number of the free value (R203, log 7) -/
  undef : List (Nat × Nat × Nat)
  tiles : Assoc Nat Tile
  ctrs : Vector W32 16
  log : List Dirty
  logOverflow : Bool
  boxes : List Dirty
  prog : List W64
  pc : Nat
  loops : Vector W16 4
  stopped : Bool
  streams : List Strm
  preds : List PredJob
  cmps : List CmpJob
  /-- tiles being verified (R252) -/
  verifying : List Nat
  frozen : Bool
  raised : List Nat
  viewOpen : Bool
  resident : Bool
  epoch : Nat
  /-- slots that have been defined since launch (R211) -/
  everDef : List Nat
  /-- byte ranges of the window that tiles have occupied since launch (log 7) -/
  used : List (Nat × Nat)
  /-- switched out for a migration: both compute cores of the quad have reached their points (R354) -/
  moving : Bool
  /-- a trap of this cycle found no free position in the ring (R305) -/
  ringFull : Bool
  deriving DecidableEq, Repr

/-! ### Teams (R277 to R301) -/

/-- Table 19.1. -/
structure Desc where
  tid : Nat
  rank : Nat
  efmt : Nat
  r : Bool
  w : Bool
  ext : Bool
  mchi : Nat
  dims : List Nat
  lts : List Nat
  /-- where the dispatcher keeps the tile table, and how many leases it holds on the tensor -/
  ttbase : Nat
  nlease : Nat
  deriving DecidableEq, Repr

/-- A lease: a box of one tensor with rights (R294). -/
structure Lease where
  tid : Nat
  lo : List Nat
  hi : List Nat
  r : Bool
  w : Bool
  deriving DecidableEq, Repr

/-- R297. -/
structure FaultRec where
  code : Nat
  binding : Nat
  resolved : Bool
  tid : Nat
  eid : Nat
  coords : List Nat
  /-- the LE and port the NULL token went to -/
  core : Nat
  pos : Nat
  port : Nat
  deriving DecidableEq, Repr

/-- R299, R300. -/
structure WatchPoint where
  on : Bool
  tid : Nat
  kind : Nat
  count1 : Bool
  lo : List Nat
  hi : List Nat
  count : W32
  deriving DecidableEq, Repr

/-- Table 18.5. -/
structure LaunchRec where
  tag : Nat
  dest : Nat
  dk : Bool
  image : Nat
  quads : Nat
  pri : Nat
  ft : Bool
  cap : Bool
  svc : Bool
  sch : Nat
  hh : Bool
  hctx : Nat
  sys : Bool
  sslot : Nat
  sctr : Nat
  ups : Bool
  admitReg : W32
  cfgto : Nat
  wd : Nat
  roleage : Nat
  area : Nat
  wsize : Nat
  deriving DecidableEq, Repr

inductive Phase where
  /-- waits at step 4 or 5 of R281 -/
  | waiting
  | running
  | parked
  /-- being torn down; resources are freed after its last status message -/
  | ending
  deriving DecidableEq, Repr

/-- Who arrived at a barrier: core, position (64 for the walker), the late predicate update (code 0: none), block run,
acquire semantics, and whether the run has been validated (R245, R246). -/
structure Arrival where
  core : Nat
  pos : Nat
  pu : Nat
  pn : Nat
  tnt : Bool
  run : Nat
  acq : Bool
  valid : Bool
  deriving DecidableEq, Repr

/-- A barrier of one scope instance (R243 to R245); core scope: core and block run. -/
structure Barrier where
  scope : Nat
  unit : Nat × Nat
  num : Nat
  gen : Nat
  arrived : List Arrival
  /-- cores that have arrived, in order: by a block run, or by the walker -/
  full : List (Nat × Option Nat)
  /-- the package side of a pod barrier has sent its arrival (R394) -/
  sentPod : Bool
  deriving DecidableEq, Repr

/-- Initial contents of a tensor (R63 .data, R281 step 6). -/
structure DataInit where
  tid : Nat
  off : Nat
  bytes : List Byte
  deriving DecidableEq, Repr

/-- A migration asked for a logical quad (R352, R353). -/
structure Migration where
  lquad : Nat
  reason : Nat
  forced : Bool
  /-- cores of the quad that have reached their migration point -/
  reached : List Nat
  waited : Nat
  deriving DecidableEq, Repr

structure Team where
  launch : LaunchRec
  seq : Nat
  phase : Phase
  descs : List Desc
  leases : List Lease
  /-- resident translation tiles: (tensor, tile) to frame (R293) -/
  frames : Assoc (Nat × Nat) Nat
  faults : Assoc Nat FaultRec
  watch : Vector WatchPoint 16
  blocks : Assoc Nat (List W64)
  graph : List W64
  entry0 : Nat
  entryN : Nat
  idleN : Bool
  programs : Assoc Nat (List W64)
  data : List DataInit
  /-- physical quad of each logical quad -/
  place : List Nat
  /-- die group of each logical quad (R243) -/
  groups : List Nat
  /-- crossing stream ports: (memory core, port) to the compute core faced (R199) -/
  crossing : Assoc (Nat × Nat) Nat
  evicted : List Nat
  /-- logical quads being switched out for an eviction or a migration: they neither fire nor issue (R173, R354) -/
  leaving : List Nat
  recs : List OpenRec
  ringNext : Assoc Nat Nat
  recSeq : Nat
  epochs : Nat
  /-- a fixed-timing team's epoch has begun and not ended by a switch-out (R230) -/
  epochOpen : Bool
  /-- the reference edge on which the newest epoch began (R230) -/
  epochAt : Nat
  capQueue : List (List W64)
  capSeq : Nat
  /-- rows waiting for the system channel (R286) -/
  sysQueue : List (List W64)
  watchdog : Nat
  progress : Nat
  ending : Option Nat
  plans : Assoc (Nat × Nat) Nat
  bars : List Barrier
  migrations : List Migration
  /-- switched out by the power controller (R372) -/
  powerOut : Bool
  /-- RESUMEs accepted for evicted cores (R319) -/
  resumes : List (Bool × Nat)
  deriving DecidableEq, Repr

/-! ### Physical units, dispatcher, engines -/

/-- A validated block image in the configuration cache; a rejected one keeps its record (R162). -/
structure CacheEntry where
  ctx : Nat
  block : Nat
  words : Nat
  record : Option W64
  lastUse : Nat
  deriving DecidableEq, Repr

/-- An elastic core's clock (R224): the eighths of a nominal period into the next tick at which its next cycle begins, and the
cycles whose stretch has been chosen. -/
structure Clock where
  offset : Nat
  begun : Nat
  deriving DecidableEq, Repr

structure PhysCore where
  cache : List CacheEntry
  res : List Nat
  fg : Option Nat
  fgCycles : Nat
  uses : Nat
  totals : Vector Nat 24
  /-- the layout unit's translations: context, tensor and tile, least recently used first (R293) -/
  xlat : List (Nat × Nat × Nat)
  clock : Clock
  deriving DecidableEq, Repr

structure PhysMCore where
  res : List Nat
  /-- which context the next contested grant of each shared unit goes to (R198): stream ports 0 to 3, the die-network port,
  the predictor, the compare engine and the transpose unit -/
  turns : Vector Bool 8
  clock : Clock
  /-- units that accesses have taken in this cycle, and those that accesses ask for in the next, with their contexts -/
  taken : List (Nat × Nat)
  wants : List (Nat × Nat)
  deriving DecidableEq, Repr

/-- A queued engine command (R320 to R324): the record's words as read at its entry. -/
structure Cmd where
  id : Nat
  engine : Nat
  ctx : Nat
  core : Nat
  record : List W64
  tid : Nat
  off : Nat
  tag : Nat
  ctr : Option (Nat × Nat)
  fromSeq : Option (Nat × Nat)
  started : Bool
  /-- elements copied, rows' beats sent, or the stage of a collective -/
  done : Nat
  /-- flags so far (Table 21.1), and the number of a collective on its group -/
  flags : Nat
  ordinal : Nat
  /-- result, flags and detail once finished -/
  result : Option (Nat × Nat × Nat)
  deriving DecidableEq, Repr

/-- Where a message came from (R277, R278). -/
inductive Source where
  | host (queue : Nat)
  | team (ctx : Nat)
  deriving DecidableEq, Repr

structure Msg where
  src : Source
  chan : Nat
  toks : List W64
  deriving DecidableEq, Repr

/-- A launch that waits (R281). -/
structure Waiting where
  launch : LaunchRec
  ctx : Option Nat
  src : Source
  arrival : Nat
  deriving DecidableEq, Repr

structure Dispatcher where
  inbox : List Msg
  waiting : List Waiting
  arrivals : Nat
  launches : Nat
  /-- evicted quads in restore order: context and logical quad -/
  restores : List (Nat × Nat)
  /-- bound tokens of BOUND commands that wait for room in a channel (R187): context, core and token -/
  bounds : List ((Nat × Nat) × W64)
  deriving DecidableEq, Repr

/-! ### Host side (R376 to R382) -/

inductive HostReq where
  /-- a SEND on the queue pair of a host queue, for a channel of the dispatcher (log 64) -/
  | send (queue chan : Nat) (payload : List Byte)
  | write (rkey off : Nat) (bytes : List Byte)
  | read (rkey off len : Nat)
  /-- the host's writing of a launch image into flat memory (R279, log 72) -/
  | image (off : Nat) (bytes : List Byte)
  /-- an RDMA atomic or an unreliable transport -/
  | refused
  deriving DecidableEq, Repr

/-- Why a request is NAKed: an invalid request (R376), a remote access error (R377), or a reason that the spec does not name
(R379). -/
inductive Nak where
  | invalid | access | other
  deriving DecidableEq, Repr

inductive HostReply where
  | ack
  | rnr
  | nak (why : Nak)
  | data (bytes : List Byte)
  deriving DecidableEq, Repr

structure Window where
  valid : Bool
  w : Bool
  ctx : Nat
  tid : Nat
  base : Nat
  len : Nat
  deriving DecidableEq, Repr

structure Mgmt where
  stage : Nat
  ready : Bool
  fail : Nat
  /-- firmware stages in flash: readable, header good, image (R380, log 10) -/
  flash : List (Bool × Bool × List Byte)
  windows : Assoc Nat Window
  hqmap : Assoc Nat W64
  hq0 : Vector W64 4
  hqdrop : W32
  mr : Vector (List Byte) 8
  extdata : List Byte
  nonce : List Byte
  busy : Bool
  done : Bool
  dropped : Bool
  snapshot : List Byte
  report : List Byte
  /-- deaccession records, oldest first, 8 words each (Table 23.4) -/
  deaccessions : List (List W64)
  shutdown : Option (Nat × Nat)
  deriving DecidableEq, Repr

structure HostSide where
  reqs : List HostReq
  /-- answers, newest last -/
  replies : List HostReply
  /-- messages waiting for the host's receive queue: queue, the team whose MSND it is, and words (R378) -/
  out : List (Nat × Option Nat × List W64)
  /-- the queues whose receive queue at the host is not ready (R378) -/
  closed : List Nat
  /-- messages sent: queue, Ethernet port, queue pair number and words -/
  sent : List (Nat × Nat × Nat × List W64)
  deriving DecidableEq, Repr

/-! ### Health, power, fabric -/

/-- Table 23.1 and Table 23.4. -/
inductive ResKind where
  | core | mcore | engine | linkHalf | port | channel
  deriving DecidableEq, Repr

structure Resource where
  score : Nat
  lastTest : Nat
  inService : Bool
  leased : Bool
  /-- an uncorrectable error has been charged to it (R317, Table 23.4) -/
  uncorrected : Bool
  /-- ticks in service before the present spell of it, and the tick at which that began (R345) -/
  served : Nat
  since : Nat
  deriving DecidableEq, Repr

/-- A quad's thermal marks (R352). -/
structure QuadHeat where
  celsius : Nat
  hot : Bool
  deriving DecidableEq, Repr

structure Health where
  res : Assoc (ResKind × Nat) Resource
  heat : Assoc Nat QuadHeat
  deriving DecidableEq, Repr

structure Power where
  budget : Nat
  pending : Option Nat
  pest : Nat
  pmeas : Nat
  step : Nat
  smin : Nat
  ftout : Bool
  /-- w0 to w23 in picojoules, and the static energy of a second in picojoules (R369, log 9) -/
  weights : List Rat
  static : Rat
  p : List (List Rat)
  /-- physical totals at the last interval, by core, and of the package at the last second -/
  lastTotals : Assoc Nat (List Nat)
  secondTotals : List Nat
  overs : Nat
  unders : Nat
  /-- physical cores whose issues are narrowed: those of every elastic context, or of one that migrated there (R371, R373) -/
  narrowed : List (Nat × Option Nat)
  /-- groups that must end before a narrowed core issues again: physical core, context, logical core, run and group (R371) -/
  holds : List (Nat × Nat × Nat × Nat × Nat)
  deriving DecidableEq, Repr

/-- Table 27.1. -/
structure Flit where
  vc : Nat
  pos : Nat
  rty : Bool
  seq : Nat
  ackseq : Nat
  dpkg : Nat
  spkg : Nat
  idle : Bool
  rvc : Nat
  rcnt : Nat
  rseq : Nat
  payload : BitVec 512
  deriving DecidableEq, Repr

/-- A packet that waits to leave: its VC and output port, flits, flit times waited (R387), and the input port and VC whose
buffer holds it, or none for one injected here. -/
structure Packet where
  vc : Nat
  port : Option Nat
  dpkg : Nat
  spkg : Nat
  flits : List (BitVec 512)
  waited : Nat
  origin : Option (Nat × Nat)
  deriving DecidableEq, Repr

structure FPort where
  en : Bool
  dl : Bool
  lanes : Nat
  wdrawn : Bool
  retired : Bool
  /-- the peer has told that its end is down, withdrawn or retired (R392) -/
  peerDown : Bool
  peerPort : Nat
  peerPkg : Nat
  /-- the peer's idle flits have told its package -/
  peerKnown : Bool
  retries : Nat
  resync : Nat
  drops : Nat
  /-- free-slot counts of the sender per VC (R385) -/
  counts : Vector Nat 8
  /-- flits of packets still arriving per VC -/
  rx : Vector (List Flit) 8
  retry : List Flit
  nextSeq : Nat
  /-- the next SEQ expected, and the last ACKSEQ told -/
  expect : Nat
  told : Nat
  rty : Bool
  /-- numbers of the next return to send and of the last one applied (R390) -/
  rseqOut : Nat
  rseqIn : Nat
  /-- missing returns: number, and VC and slots once known (R390) -/
  missing : List (Nat × Nat × Nat)
  /-- slots freed and not yet returned per VC -/
  owed : Vector Nat 8
  /-- data flits sent since the last audit, number and VC (R391) -/
  sent : List (Nat × Nat)
  resyncing : Bool
  /-- what this end and the peer have told in a resynchronisation: 1 retry buffer empty, 2 receiving buffers drained -/
  resyncOut : Nat
  resyncIn : Nat
  /-- the lane test has come back from the peer (R392) -/
  tested : Bool
  /-- flits put on the wire, oldest first -/
  wire : List Flit
  deriving DecidableEq, Repr

structure RouteEnt where
  port : Nat
  valid : Bool
  esc : Nat
  evalid : Bool
  deriving DecidableEq, Repr

structure GroupEnt where
  valid : Bool
  n : Nat
  rank : Nat
  root : Nat
  deriving DecidableEq, Repr

/-- A collective's exchange with the other members (R335): group, ordinal, and by rank what each has sent: the agreement
word, and the bytes that arrived with their number. -/
structure CollWait where
  group : Nat
  ordinal : Nat
  heads : Assoc Nat W64
  datas : Assoc Nat (Memory × Nat)
  /-- at the root: the members' packages by rank, and whether their agreement words have gone round -/
  pkgs : Assoc Nat Nat
  relayed : Bool
  deriving DecidableEq, Repr

structure Fabric where
  pkgid : Nat
  syncRoot : Bool
  syncPort : Nat
  /-- the delay of the link to the parent in ticks, once measured (R396) -/
  delay : Option Nat
  ports : Assoc Nat FPort
  routes : Assoc Nat RouteEnt
  groups : Assoc Nat GroupEnt
  /-- flits on the wire into a port: port and 640 bits -/
  wireIn : List (Nat × BitVec 640)
  /-- packages whose pod barrier arrivals the root has counted, by group, barrier and generation (R394) -/
  podCount : Assoc (Nat × Nat × Nat) (List Nat)
  colls : List CollWait
  /-- collectives begun on each group -/
  ordinals : Assoc Nat Nat
  /-- packets that wait to leave, oldest first -/
  out : List Packet
  deriving DecidableEq, Repr

/-! ### The package -/

/-- Where the running turn stands: a context, a logical or physical unit, a position, a slot or an index, and an input
from outside (log 1). -/
structure Here where
  ctx : Nat
  core : Nat
  pos : Nat
  idx : Nat
  val : Nat
  deriving DecidableEq, Repr

/-- Who moves next (log 1). -/
inductive Turn where
  /-- a physical compute core begins its next cycle: counts run down and what is due lands -/
  | cycle (pc : Nat)
  /-- the rest of that cycle: what the units of the core do in it -/
  | work (pc : Nat)
  /-- runs that have finished and groups that have ended in that cycle -/
  | finish (pc : Nat)
  /-- that cycle ends: groups close, slot rewrites and CWSETs take effect, traps freeze their core -/
  | endCycle (pc : Nat)
  /-- the cycles that begin in this tick of the reference, on the cores as their contexts have just been switched (R223) -/
  | cycles
  /-- a physical memory core begins its next cycle, and ends it -/
  | mcycle (pm : Nat)
  | endMcycle (pm : Nat)
  /-- one tick of the 100 MHz reference -/
  | tick
  /-- the selectors of an element choose (R22, R105) -/
  | element (ctx core pos : Nat)
  /-- a chosen slot fires: `sel` = 1 for a slot that a selector of an ME has chosen (R105) -/
  | fire (ctx core pos slot sel : Nat)
  /-- the buses of a core put the writes chosen in this cycle in order, and one of them is granted or not (R82) -/
  | arbitrate (ctx core : Nat)
  | bus (ctx core pos slot : Nat)
  /-- the walker processes its node (R179) -/
  | walker (ctx core : Nat)
  /-- the sequencer processes the word at its PC (R208) -/
  | sequencer (ctx core : Nat)
  /-- any other step of the table, with where it happens -/
  | event (i : Instr) (h : Here)
  deriving DecidableEq, Repr

structure State where
  turns : List Turn
  here : Here
  /-- number of the next free value (log 7) -/
  free : Nat
  /-- ticks of the reference since power-on (R224) -/
  ticks : Nat
  /-- TIME in ticks, and a correction to apply (R226, R396) -/
  time : Nat
  corr : Int
  lastCorr : Nat
  off : Bool
  cores : Assoc (Nat × Nat) CoreCtx
  mcores : Assoc (Nat × Nat) MCoreCtx
  teams : Assoc Nat Team
  phys : Assoc Nat PhysCore
  physM : Assoc Nat PhysMCore
  /-- transfer and gather-reduce queues by physical quad, routing and collective queues by die: (engine, unit) -/
  engines : Assoc (Nat × Nat) (List Cmd)
  nextCmd : Nat
  disp : Dispatcher
  flat : Memory
  hbm : Memory
  /-- allocated frames -/
  frames : List Nat
  host : HostSide
  mgmt : Mgmt
  health : Health
  power : Power
  fabric : Fabric
  deriving DecidableEq, Repr

/-- Why a step stops. No step does: the manual gives every step of its tables an effect, and where its condition does not hold
nothing happens (log 2). Safe. -/
inductive Fault where
  deriving DecidableEq, Repr

/-- Why a step has no meaning. -/
inductive Refusal where
  /-- An instruction this model gives no meaning, by its mnemonic: raised by exec. Safe. -/
  | notModelled (mnemonic : String)
  /-- A word that the load checks reject stands where a step fetches (R57, R176, R209): raised by step only. No run
  reaches it, since rejected words are never loaded. Safe. -/
  | illegalWord
  deriving DecidableEq, Repr

/-! ### Values at launch, issue and reset -/

def zeros (n : Nat) : List Byte := List.replicate n 0#8

/-- R103. -/
def Bank.init : Bank := ⟨Vector.replicate 16 0#32, false, 0x3F800000#32, false⟩

def ME.init : ME where
  banks := Vector.replicate 8 Bank.init
  cur := none
  nxt := none
  reserved := 0
  ph := 0
  holders := Vector.replicate 4 (0#32, 0)
  scalesComing := Vector.replicate 4 0
  gave := Vector.replicate 4 false
  slicePtrs := Vector.replicate 4 0
  drains := []
  busy := Vector.replicate 8 0
  qUsed := Vector.replicate 4 0

def SGen.init : SGen := ⟨0, 0#12, 0, 0, false, 0, false, false⟩

def SE.init : SE := ⟨[], 0#16, Vector.replicate 4 SGen.init, none, 0, 0, 0#16⟩

def CE.init : CE := ⟨0#64, false, [], false, 0#8, 0x7F#8, 1#32⟩

def LGen.init : LGen := ⟨Vector.replicate 5 0#32, Vector.replicate 5 0, .idle, 0, 0, 0, 0#64, false⟩

def LE.init : LE := ⟨Vector.replicate 4 LGen.init, [], [], []⟩

def ElemCfg.init : ElemCfg where
  regmode := 0#12
  emptytrap := 0#12
  accept := Vector.replicate 4 0xFF#8
  detour := Vector.replicate 4 0
  age := 32
  initp := 0#8
  initf := 0#12
  kindWord := 0#64
  tids := Vector.replicate 4 0
  defer := 0#4
  lslots := Vector.replicate 16 0x10#9
  word0 := 0#64
  word1 := 0#64

def Reg.empty : Reg := ⟨0#64, .i64, false, false, false⟩
def Pred.zero : Pred := ⟨false, false, false⟩
def Port.none : Port := ⟨[], Option.none⟩

def Elem.init : Elem where
  regs := Vector.replicate 12 Reg.empty
  preds := Vector.replicate 8 Pred.zero
  queues := Vector.replicate 4 []
  ports := Vector.replicate 4 Port.none
  consts := Vector.replicate 4 (0#64, .i64)
  slots := Vector.replicate 16 0#64
  flags := Flags.none
  landed := Flags.none
  ptr := 0
  ages := Vector.replicate 16 0
  cfg := ElemCfg.init
  run := none
  halted := false
  waitc := 0
  waiting := false
  fence := []
  fenceGens := []
  held := none
  heldSlot := 0
  blocked := 0
  edge := 0
  watched := []
  noWatch := []

def Staging.empty : Staging := ⟨Vector.replicate 8 none, none, 0, false, 0⟩

def Walker.init : Walker where
  pos := none
  levels := []
  cw := 0#64
  rstack := []
  deque := []
  joins := Vector.replicate 8 0
  bch := []
  pend := []
  lstat := 0#64
  roleage := 256
  tasks := []
  mark := .none
  probe := 0
  decs := []
  bounds := []
  cwsets := []
  yielded := false

def CoreCtx.init : CoreCtx where
  elems := []
  mes := []
  ses := []
  ces := []
  les := []
  flights := []
  staging := Vector.replicate 8 Staging.empty
  grant := Vector.replicate 12 0
  rowUsed := Vector.replicate 4 (0, false)
  colTaken := []
  busChosen := []
  readers := []
  upper := []
  divs := Vector.replicate 8 1
  runs := []
  nextRun := 0
  nextReq := 0
  buf := []
  filter := []
  walker := Walker.init
  cyc := 0#64
  begun := false
  epoch := 1
  evc := Vector.replicate 32 0#64
  admitN := 0
  admitW := 0
  allowance := 0
  admitLeft := 0
  frozen := false
  raised := []
  viewOpen := false
  resident := true
  ringFull := false
  capSeen := 0
  ends := false
  cfgMiss := []
  verdicts := []

/-- Table 11.1. -/
def Tile.init : Tile where
  defd := false
  state := .empty
  own := false
  ret := 0
  mode := .store
  base := 0
  rows := 0
  rowb := 0
  fmt := .raw
  version := 0#32
  claim := none
  pins := Vector.replicate 3 0
  head := 0
  count := 0
  cur := 0
  shadow := 1
  prev := 2
  fill := none
  partialRow := 0
  readers := []
  publishWaits := false
  system := false
  flipWaits := none

def MCoreCtx.init : MCoreCtx where
  wbase := 0
  wsize := 0
  window := []
  undef := []
  tiles := []
  ctrs := Vector.replicate 16 0#32
  log := []
  logOverflow := false
  boxes := []
  prog := []
  pc := 0
  loops := Vector.replicate 4 0#16
  stopped := true
  streams := []
  preds := []
  cmps := []
  verifying := []
  frozen := false
  raised := []
  viewOpen := false
  resident := true
  epoch := 1
  everDef := []
  moving := false
  ringFull := false
  used := []

def LaunchRec.init : LaunchRec where
  tag := 0
  dest := 0
  dk := true
  image := 0
  quads := 1
  pri := 0
  ft := false
  cap := false
  svc := false
  sch := 0
  hh := true
  hctx := 0
  sys := false
  sslot := 0
  sctr := 0
  ups := false
  admitReg := 0#32
  cfgto := 20
  wd := 24
  roleage := 256
  area := 0
  wsize := 4096

def WatchPoint.off : WatchPoint := ⟨false, 0, 0, false, [], [], 0#32⟩

def Team.init : Team where
  launch := LaunchRec.init
  seq := 0
  phase := .running
  descs := []
  leases := []
  frames := []
  faults := []
  watch := Vector.replicate 16 WatchPoint.off
  blocks := []
  graph := []
  entry0 := 0
  entryN := 0
  idleN := false
  programs := []
  data := []
  place := []
  groups := []
  crossing := []
  evicted := []
  leaving := []
  recs := []
  ringNext := []
  recSeq := 0
  epochs := 1
  epochOpen := true
  epochAt := 0
  capQueue := []
  capSeq := 0
  sysQueue := []
  watchdog := 0
  progress := 0
  ending := none
  plans := []
  bars := []
  migrations := []
  powerOut := false
  resumes := []

def PhysCore.init : PhysCore := ⟨[], [], none, 0, 0, Vector.replicate 24 0, [], ⟨0, 0⟩⟩
def PhysMCore.init : PhysMCore := ⟨[], Vector.replicate 8 false, ⟨0, 0⟩, [], []⟩

def Here.zero : Here := ⟨0, 0, 0, 0, 0⟩

def FPort.init : FPort where
  en := false
  dl := false
  lanes := 0
  wdrawn := false
  retired := false
  peerDown := false
  peerPort := 0
  peerPkg := 0
  peerKnown := false
  retries := 0
  resync := 0
  drops := 0
  counts := Vector.replicate 8 0
  rx := Vector.replicate 8 []
  retry := []
  nextSeq := 0
  expect := 0
  told := 4095
  rty := false
  rseqOut := 0
  rseqIn := 4095
  missing := []
  owed := Vector.replicate 8 0
  sent := []
  resyncing := false
  resyncOut := 0
  resyncIn := 0
  tested := false
  wire := []

def Mgmt.reset : Mgmt where
  stage := 0
  ready := false
  fail := 0
  flash := List.replicate 5 (true, true, [])
  windows := []
  hqmap := []
  hq0 := Vector.replicate 4 0#64
  hqdrop := 0#32
  mr := Vector.replicate 8 (zeros 32)
  extdata := zeros 32
  nonce := zeros 32
  busy := false
  done := false
  dropped := false
  snapshot := []
  report := []
  deaccessions := []
  shutdown := none

/-- R370, R375. -/
def Power.reset : Power where
  budget := 4800
  pending := none
  pest := 0
  pmeas := 0
  step := 0
  smin := 0
  ftout := false
  weights := List.replicate 24 0
  static := 0
  p := []
  lastTotals := []
  secondTotals := List.replicate 24 0
  overs := 0
  unders := 0
  narrowed := []
  holds := []

def Fabric.reset : Fabric where
  pkgid := 0
  syncRoot := false
  syncPort := 0
  delay := none
  ports := []
  routes := []
  groups := []
  wireIn := []
  podCount := []
  colls := []
  ordinals := []
  out := []

/-- The package right after power-on: no team, MR0 to MR7 zero, STAGE 0, READY 0 (R380), PBUDGET 4,800 (R375); the
values the spec does not give are those of log 3, log 6 and log 10. -/
def State.reset : State where
  turns := []
  here := Here.zero
  free := 0
  ticks := 0
  time := 0
  corr := 0
  lastCorr := 0
  off := false
  cores := []
  mcores := []
  teams := []
  phys := []
  physM := []
  engines := []
  nextCmd := 0
  disp := ⟨[], [], 0, 0, [], []⟩
  flat := []
  hbm := []
  frames := []
  host := ⟨[], [], [], [], []⟩
  mgmt := Mgmt.reset
  health := ⟨[], []⟩
  power := Power.reset
  fabric := Fabric.reset

end Sys2Proof.Machine
end

