-- ==== Sys2Proof/Machine/Num.lean ====
section
/-! DEFINITION. Number formats (R32 to R37), the one rounding (R38 to R41), exact sums (R34, R43, R87), the special
functions (R92) and the integer helpers of R47 and R68. Values are decoded to exact binary fractions. -/

namespace Sys2Proof.Machine

/-! ### Flags -/

def Flags.or (a b : Flags) : Flags :=
  ⟨a.nv || b.nv, a.dz || b.dz, a.of || b.of, a.uf || b.uf, a.nx || b.nx, a.io || b.io, a.tc || b.tc⟩

def Flags.justNv : Flags := { Flags.none with nv := true }
def Flags.justDz : Flags := { Flags.none with dz := true }
def Flags.justIo : Flags := { Flags.none with io := true }

/-! ### Formats -/

/-- Table 2.1: exponent bits, mantissa bits, bias, and whether the top exponent holds infinities (IEEE style), a NaN
in one code only (E4M3), or no special value (E2M1). -/
inductive Special where
  | ieee | e4m3 | none
  deriving DecidableEq, Repr

structure FFmt where
  eb : Nat
  mb : Nat
  bias : Nat
  sp : Special
  deriving DecidableEq, Repr

def fp32 : FFmt := ⟨8, 23, 127, .ieee⟩
def bf16 : FFmt := ⟨8, 7, 127, .ieee⟩
def e4m3 : FFmt := ⟨4, 3, 7, .e4m3⟩
def e5m2 : FFmt := ⟨5, 2, 15, .ieee⟩
def e2m1 : FFmt := ⟨2, 1, 1, .none⟩

/-- A decoded value: a number is (−1)^neg × m × 2^e, a zero keeps its sign. -/
inductive FVal where
  | nan (signalling : Bool)
  | inf (neg : Bool)
  | num (neg : Bool) (m : Nat) (e : Int)
  deriving DecidableEq, Repr

/-- The canonical NaN (R33, Table 2.1). -/
def FFmt.canon (f : FFmt) : Nat :=
  match f.sp with
  | .ieee => (2 ^ f.eb - 1) * 2 ^ f.mb + 2 ^ (f.mb - 1)
  | .e4m3 => 0x7F
  | .none => 0

def FFmt.signBit (f : FFmt) : Nat := 2 ^ (f.eb + f.mb)

def FFmt.infBits (f : FFmt) (neg : Bool) : Nat :=
  (2 ^ f.eb - 1) * 2 ^ f.mb + if neg then f.signBit else 0

/-- The largest finite magnitude's code (Table 2.1). -/
def FFmt.maxBits (f : FFmt) : Nat :=
  match f.sp with
  | .ieee => (2 ^ f.eb - 1) * 2 ^ f.mb - 1
  | .e4m3 => 0x7E
  | .none => 2 ^ (f.eb + f.mb) - 1

/-- R32, R33: the value of a code. E5M2's canonical NaN is 0x7E, all E4M3 and E5M2 NaNs are quiet. -/
def FFmt.decode (f : FFmt) (bits : Nat) : FVal :=
  let neg := decide (bits / f.signBit % 2 = 1)
  let e := bits / 2 ^ f.mb % 2 ^ f.eb
  let m := bits % 2 ^ f.mb
  if f.sp = .ieee ∧ e = 2 ^ f.eb - 1 then
    if m = 0 then .inf neg else .nan (decide (f.eb = 8) && decide (m < 2 ^ (f.mb - 1)))
  else if f.sp = .e4m3 ∧ e = 15 ∧ m = 7 then .nan false
  else if e = 0 then .num neg m (1 - (f.bias : Int) - f.mb)
  else .num neg (2 ^ f.mb + m) ((e : Int) - f.bias - f.mb)

/-- R35: an E2M1 code under a scale e: NaN for 0xFF. -/
def decodeMx (code scale : Nat) : FVal :=
  if scale = 0xFF then .nan false
  else match e2m1.decode code with
    | .num n m e => .num n m (e + scale - 127)
    | v => v

def FVal.isNan : FVal → Bool
  | .nan _ => true
  | _ => false

def FVal.isSnan : FVal → Bool
  | .nan s => s
  | _ => false

def FVal.isInf : FVal → Bool
  | .inf _ => true
  | _ => false

def FVal.isZero : FVal → Bool
  | .num _ m _ => m == 0
  | _ => false

def FVal.neg? : FVal → Bool
  | .nan _ => false
  | .inf n => n
  | .num n _ _ => n

/-- Negation of a value. -/
def FVal.negate : FVal → FVal
  | .nan s => .nan s
  | .inf n => .inf !n
  | .num n m e => .num (!n) m e

/-! ### Rounding (R38 to R40) -/

inductive RMode where
  | rne | rtz | sr
  deriving DecidableEq, Repr

/-- An exact positive magnitude: m × 2^e, or a value strictly between m and m + 1 quanta when `sticky`. -/
structure Mag where
  m : Nat
  e : Int
  sticky : Bool
  deriving DecidableEq, Repr

/-- What a rounding gives: the code, the flags, and whether the value needed rounding (a draw under SR, R39). -/
structure Rounded where
  bits : Nat
  flags : Flags
  inexact : Bool
  deriving DecidableEq, Repr

/-- n quanta kept of a magnitude at quantum 2^q, the remainder's fraction of 2^16, and whether it is inexact, above or at
the half. -/
structure Cut where
  n : Nat
  frac16 : Nat
  inexact : Bool
  up : Bool
  deriving DecidableEq, Repr

/-- Cuts a magnitude at quantum 2^q; `up` is the RNE decision. -/
def Mag.cut (x : Mag) (q : Int) : Cut :=
  if q ≤ x.e then ⟨x.m * 2 ^ (x.e - q).toNat, 0, x.sticky, false⟩
  else
    let s := (q - x.e).toNat
    let n := x.m / 2 ^ s
    let r := x.m % 2 ^ s
    let half := 2 ^ (s - 1)
    ⟨n, r * 65536 / 2 ^ s, r ≠ 0 || x.sticky,
      decide (half < r) || (r == half && (x.sticky || n % 2 == 1))⟩

/-- The code of n quanta of 2^q in a format, its exponent unbounded above (used below the overflow test). -/
def FFmt.pack (f : FFmt) (neg : Bool) (n : Nat) (q : Int) : Nat :=
  let s := if neg then f.signBit else 0
  if n < 2 ^ f.mb then s + n
  else if n < 2 ^ (f.mb + 1) then s + (q + f.mb + f.bias).toNat * 2 ^ f.mb + (n - 2 ^ f.mb)
  else s + (q + 1 + f.mb + f.bias).toNat * 2 ^ f.mb

/-- R40, Table 2.5: the result of a finite overflow. -/
def FFmt.overflow (f : FFmt) (neg : Bool) (mode : RMode) (sat : Bool) : Nat :=
  let s := if neg then f.signBit else 0
  if f.eb = 8 then (if mode = .rtz then s + f.maxBits else f.infBits neg)
  else if sat then s + f.maxBits
  else if f.sp = .e4m3 then s + 0x7F
  else f.infBits neg

/-- R38: `round_to` of a nonzero magnitude. `draw` is the draw of R39, used by SR only. -/
def roundMag (f : FFmt) (mode : RMode) (sat : Bool) (draw : Nat) (neg : Bool) (x : Mag) : Rounded :=
  let lead : Int := x.e + Nat.log2 x.m
  let emin : Int := 1 - (f.bias : Int) - f.mb
  let qfree : Int := lead - f.mb
  let q : Int := if qfree < emin then emin else qfree
  let c := x.cut q
  let up := c.inexact && (match mode with
    | .rne => c.up
    | .rtz => false
    | .sr => decide (65536 ≤ c.frac16 + draw))
  let n := if up then c.n + 1 else c.n
  let cf := x.cut qfree
  let upFree := cf.inexact && (match mode with
    | .rne => cf.up
    | .rtz => false
    | .sr => up)
  let nf := if upFree then cf.n + 1 else cf.n
  let tiny := decide (lead < emin + f.mb) && !(decide (lead + 1 = emin + f.mb ∧ nf = 2 ^ (f.mb + 1)))
  let code := f.pack false n q
  if f.maxBits < code ∨ 2 ^ (f.eb + f.mb) ≤ code then
    ⟨f.overflow neg mode sat, { Flags.none with of := true, nx := true }, true⟩
  else
    ⟨f.pack neg n q, { Flags.none with nx := c.inexact, uf := c.inexact && tiny }, c.inexact⟩

/-- The exact value of a number as an integer multiple of 2^e. -/
def FVal.scaled (v : FVal) (e : Int) : Int :=
  match v with
  | .num n m ev => let k : Int := (m : Int) * 2 ^ (ev - e).toNat; if n then -k else k
  | _ => 0

def FVal.expo : FVal → Int
  | .num _ _ e => e
  | _ => 0

/-- A product, or none where it is 0 × ∞ (R87). -/
def FVal.mul (a b : FVal) : Option FVal :=
  match a, b with
  | .nan s, _ => some (.nan s)
  | _, .nan s => some (.nan s)
  | .inf n, .inf n' => some (.inf (n != n'))
  | .inf n, .num n' m _ => if m = 0 then none else some (.inf (n != n'))
  | .num n m _, .inf n' => if m = 0 then none else some (.inf (n != n'))
  | .num n m e, .num n' m' e' => some (.num (n != n') (m * m') (e + e'))

/-- The exact sum of addends none of which is NaN: none where infinities oppose (R87); a zero sum is −0 only when every
addend is −0 (R34). -/
def sumVals (ts : List FVal) : Option FVal :=
  let pos := ts.any fun t => t == .inf false
  let neg := ts.any fun t => t == .inf true
  if pos && neg then none
  else if pos then some (.inf false)
  else if neg then some (.inf true)
  else
    let e : Int := ts.foldl (fun a t => if t.expo < a then t.expo else a) (ts.headD (.num false 0 0)).expo
    let s : Int := ts.foldl (fun a t => a + t.scaled e) (0 : Int)
    if s = 0 then some (.num (!ts.isEmpty && ts.all fun t => t.neg? && t.isZero) 0 0)
    else some (.num (decide (s < 0)) s.natAbs e)

/-- A value narrowed to a format: a number by R38, an infinity by Table 2.5, a NaN to the canonical one. DESIGN CHOICE
(log 103): a zero keeps its sign. -/
def narrow (f : FFmt) (mode : RMode) (sat : Bool) (draw : Nat) (v : FVal) : Rounded :=
  match v with
  | .nan s => ⟨f.canon, { Flags.none with nv := s }, false⟩
  | .inf n =>
    if f.sp = .e4m3 then
      let s := if n then f.signBit else 0
      if sat then ⟨s + 0x7E, { Flags.none with of := true }, false⟩ else ⟨s + 0x7F, Flags.justNv, false⟩
    else ⟨f.infBits n, Flags.none, false⟩
  | .num n m e =>
    if m = 0 then ⟨if n then f.signBit else 0, Flags.none, false⟩
    else roundMag f mode sat draw n ⟨m, e, false⟩

/-- R87: `fp_eval` of a sum of addends; `ops` are the operands it reads, an addend `none` is an invalid product. -/
def fpEval (f : FFmt) (ops : List FVal) (terms : List (Option FVal)) : Rounded :=
  if ops.any FVal.isNan then ⟨f.canon, { Flags.none with nv := ops.any FVal.isSnan }, false⟩
  else if terms.any Option.isNone then ⟨f.canon, Flags.justNv, false⟩
  else match sumVals (terms.filterMap id) with
    | none => ⟨f.canon, Flags.justNv, false⟩
    | some v => narrow f .rne true 0 v

/-- x < y for values that are not NaN, with −0 below +0 when `zeros` (R89). -/
def FVal.lt (zeros : Bool) (x y : FVal) : Bool :=
  match x, y with
  | .inf n, .inf n' => n && !n'
  | .inf n, _ => n
  | _, .inf n' => !n'
  | .num n m e, .num n' m' e' =>
    let b := if e ≤ e' then e else e'
    let a := (FVal.num n m e).scaled b
    let c := (FVal.num n' m' e').scaled b
    if m = 0 ∧ m' = 0 then zeros && n && !n' else decide (a < c)
  | _, _ => false

/-- Equal by value, +0 = −0 (R91). -/
def FVal.veq (x y : FVal) : Bool :=
  match x, y with
  | .nan _, _ => false
  | _, .nan _ => false
  | _, _ => !(FVal.lt false x y) && !(FVal.lt false y x)

/-- R89 on codes. -/
def fminmax (f : FFmt) (isMin : Bool) (x y : Nat) : Nat × Flags :=
  let vx := f.decode x
  let vy := f.decode y
  let fl : Flags := { Flags.none with nv := vx.isSnan || vy.isSnan }
  if vx.isNan && vy.isNan then (f.canon, fl)
  else if vx.isNan then (y, fl)
  else if vy.isNan then (x, fl)
  else if isMin then (if FVal.lt true vy vx then y else x, fl)
  else (if FVal.lt true vx vy then y else x, fl)

/-! ### Conversions to integers (R41) -/

/-- A number rounded to an integer by mode; the integer and whether it was inexact. -/
def roundInt (mode : RMode) (draw : Nat) (neg : Bool) (m : Nat) (e : Int) : Int × Bool :=
  let c := (Mag.mk m e false).cut 0
  let up := c.inexact && (match mode with
    | .rne => c.up
    | .rtz => false
    | .sr => decide (65536 ≤ c.frac16 + draw))
  let n : Int := ((if up then c.n + 1 else c.n : Nat) : Int)
  (if neg then -n else n, c.inexact)

/-- R41: to a signed integer of `w` bits. -/
def toInt (w : Nat) (mode : RMode) (draw : Nat) (v : FVal) : Int × Flags × Bool :=
  let hi : Int := 2 ^ (w - 1) - 1
  let lo : Int := -(2 ^ (w - 1))
  match v with
  | .nan _ => (0, Flags.justNv, false)
  | .inf n => (if n then lo else hi, Flags.justNv, false)
  | .num n m e =>
    let (k, inex) := roundInt mode draw n m e
    if hi < k then (hi, Flags.justNv, inex)
    else if k < lo then (lo, Flags.justNv, inex)
    else (k, { Flags.none with nx := inex }, inex)

/-! ### Special functions (R92): each exact value is bracketed by a cut with its sticky bit -/

/-- Working precision in bits of the bracketing (log 11). -/
def workBits : Nat := 320

/-- Σ over k < n of t^(2k+1)/(2k+1), scaled by 2^workBits; `pw` is t^(2k+1) scaled, `t2` is t² scaled. -/
def atanhSum : Nat → Nat → Nat → Nat → Nat
  | 0, _, _, _ => 0
  | n + 1, k, pw, t2 => pw / (2 * k + 1) + atanhSum n (k + 1) (pw * t2 / 2 ^ workBits) t2

/-- ln((1 + t)/(1 − t)) for t = a/b ≤ 1/3, scaled by 2^workBits. -/
def lnRatio (a b : Nat) : Nat :=
  let t := a * 2 ^ workBits / b
  2 * atanhSum 110 0 t (t * t / 2 ^ workBits)

/-- ln 2 scaled by 2^workBits. -/
def ln2 : Nat := lnRatio 1 3

/-- exp of y (scaled, 0 ≤ y < 1), scaled: the Taylor sum of n terms from `term`. -/
def expSum : Nat → Nat → Nat → Nat → Nat
  | 0, _, _, _ => 0
  | n + 1, k, term, y => term + expSum n (k + 1) (term * y / 2 ^ workBits / (k + 1)) y

def expUnit (y : Nat) : Nat := expSum 80 0 (2 ^ workBits) y

/-- 2^x for a finite x that is not an integer, as a magnitude. -/
def exp2Mag (neg : Bool) (m : Nat) (e : Int) : Mag :=
  -- x × 2^k is the integer v, k = −e > 0
  let k := (-e).toNat
  let v : Int := if neg then -(m : Int) else m
  let n : Int := v / (2 ^ k : Int)
  let f : Nat := (v % (2 ^ k : Int)).toNat
  ⟨expUnit (f * ln2 / 2 ^ k), n - workBits, true⟩

/-- FEXP2 of a code (R92, Table 5.3). -/
def fexp2 (x : Nat) : Nat × Flags :=
  match fp32.decode x with
  | .nan s => (fp32.canon, { Flags.none with nv := s })
  | .inf n => (if n then 0 else fp32.infBits false, Flags.none)
  | .num n m e =>
    if m = 0 then (0x3F800000, Flags.none)
    else
      let lead := e + Nat.log2 m
      if 8 ≤ lead then
        if n then (0, { Flags.none with uf := true, nx := true })
        else (fp32.infBits false, { Flags.none with of := true, nx := true })
      else
        let r :=
          if e ≥ 0 ∨ m % 2 ^ (-e).toNat = 0 then
            let k : Int := if e ≥ 0 then (m : Int) * 2 ^ e.toNat else (m / 2 ^ (-e).toNat : Nat)
            roundMag fp32 .rne true 0 false ⟨1, if n then -k else k, false⟩
          else roundMag fp32 .rne true 0 false (exp2Mag n m e)
        (r.bits, r.flags)

/-- FLOG2 of a code. -/
def flog2 (x : Nat) : Nat × Flags :=
  match fp32.decode x with
  | .nan s => (fp32.canon, { Flags.none with nv := s })
  | .inf n => if n then (fp32.canon, Flags.justNv) else (fp32.infBits false, Flags.none)
  | .num n m e =>
    if m = 0 then (fp32.infBits true, Flags.justDz)
    else if n then (fp32.canon, Flags.justNv)
    else
      let l := Nat.log2 m
      let ex : Int := e + l
      if m = 2 ^ l then
        if ex = 0 then (0, Flags.none)
        else
          let r := roundMag fp32 .rne true 0 (decide (ex < 0)) ⟨ex.natAbs, 0, false⟩
          (r.bits, r.flags)
      else
        -- m/2^l in (1, 2); log2 = ln(m/2^l)/ln 2
        let fr := lnRatio (m - 2 ^ l) (m + 2 ^ l) * 2 ^ workBits / ln2
        let v : Int := ex * 2 ^ workBits + fr
        let r := roundMag fp32 .rne true 0 (decide (v < 0))
          ⟨if v < 0 then v.natAbs - 1 else v.natAbs, -(workBits : Int), true⟩
        (r.bits, r.flags)

/-- FRCP of a code: the exact quotient cut with its remainder. -/
def frcp (x : Nat) : Nat × Flags :=
  match fp32.decode x with
  | .nan s => (fp32.canon, { Flags.none with nv := s })
  | .inf n => (if n then 0x80000000 else 0, Flags.none)
  | .num n m e =>
    if m = 0 then (fp32.infBits n, Flags.justDz)
    else
      let r := roundMag fp32 .rne true 0 n ⟨2 ^ 80 / m, -e - 80, decide (2 ^ 80 % m ≠ 0)⟩
      (r.bits, r.flags)

/-- The largest s built from bits below `i` on top of `s` with s² × m ≤ t. -/
def rsqBits : Nat → Nat → Nat → Nat → Nat
  | 0, s, _, _ => s
  | i + 1, s, m, t =>
    let s' := s + 2 ^ i
    if s' * s' * m ≤ t then rsqBits i s' m t else rsqBits i s m t

/-- FRSQ of a code: floor(2^K/√m′) with m′ × 2^(2h) the operand. -/
def frsq (x : Nat) : Nat × Flags :=
  match fp32.decode x with
  | .nan s => (fp32.canon, { Flags.none with nv := s })
  | .inf n => if n then (fp32.canon, Flags.justNv) else (0, Flags.none)
  | .num n m e =>
    if m = 0 then (fp32.infBits n, Flags.justDz)
    else if n then (fp32.canon, Flags.justNv)
    else
      let odd := decide (e % 2 = 1)
      let m' := if odd then 2 * m else m
      let h : Int := (if odd then e - 1 else e) / 2
      let s := rsqBits 66 0 m' (2 ^ 128)
      let r := roundMag fp32 .rne true 0 false ⟨s, -h - 64, decide (s * s * m' ≠ 2 ^ 128)⟩
      (r.bits, r.flags)

/-! ### Integer helpers (R47, R68) -/

def sx (x : W64) : Int := x.toInt
def ux (x : W64) : Nat := x.toNat
def wrap64 (n : Int) : W64 := BitVec.ofInt 64 n

/-- R47: quotient and remainder of signed values, the quotient truncated toward zero. -/
def divSigned (a b : W64) : W64 × W64 :=
  if b = 0#64 then (BitVec.allOnes 64, a)
  else (wrap64 ((sx a).tdiv (sx b)), wrap64 ((sx a).tmod (sx b)))

/-- R47: quotient and remainder of unsigned values. -/
def divUnsigned (a b : W64) : W64 × W64 :=
  if b = 0#64 then (BitVec.allOnes 64, a) else (a / b, a % b)

/-! ### Lanes (R6, R83) -/

/-- Lane `i` of width `w` as a number. -/
def lane (w i : Nat) (x : W64) : Nat := x.toNat / 2 ^ (w * i) % 2 ^ w

/-- A word from lanes of width `w`, lane 0 first. -/
def ofLanes (w : Nat) : List Nat → W64
  | [] => 0#64
  | v :: vs => BitVec.ofNat 64 (v % 2 ^ w) ||| (ofLanes w vs <<< w)

def lanes (w : Nat) (x : W64) : List Nat := (List.range (64 / w)).map fun i => lane w i x

/-- A lane read as signed. -/
def slane (w i : Nat) (x : W64) : Int := (BitVec.ofNat w (lane w i x)).toInt

/-- A signed number as a lane of width `w`. -/
def toLane (w : Nat) (n : Int) : Nat := (BitVec.ofInt w n).toNat

end Sys2Proof.Machine
end

