-- ==== Sys2Proof/Machine/Ops.lean ====
section
/-! DEFINITION. The operations every step shares: reading and changing the parts of the state, codes of tags and formats,
what is in flight on a core, event counters, the words sent to hosts and teams, and taking a trap (R302 to R306) with
its way back (R309). -/

namespace Sys2Proof.Machine

/-- A context and a logical compute or memory core. -/
abbrev Key := Nat × Nat

/-! ### Parts of the state -/

def State.core? (s : State) (k : Key) : Option CoreCtx := s.cores.get? k
def State.mcore? (s : State) (k : Key) : Option MCoreCtx := s.mcores.get? k
def State.team? (s : State) (ctx : Nat) : Option Team := s.teams.get? ctx

def State.modCore (s : State) (k : Key) (f : CoreCtx → CoreCtx) : State := { s with cores := s.cores.adjust k f }
def State.modMcore (s : State) (k : Key) (f : MCoreCtx → MCoreCtx) : State := { s with mcores := s.mcores.adjust k f }
def State.modTeam (s : State) (ctx : Nat) (f : Team → Team) : State := { s with teams := s.teams.adjust ctx f }

def State.physOf (s : State) (pc : Nat) : PhysCore := (s.phys.get? pc).getD PhysCore.init
def State.modPhys (s : State) (pc : Nat) (f : PhysCore → PhysCore) : State :=
  { s with phys := s.phys.put pc (f (s.physOf pc)) }
def State.physMOf (s : State) (pm : Nat) : PhysMCore := (s.physM.get? pm).getD PhysMCore.init
def State.modPhysM (s : State) (pm : Nat) (f : PhysMCore → PhysMCore) : State :=
  { s with physM := s.physM.put pm (f (s.physMOf pm)) }

/-- Where the running step stands. -/
def State.key (s : State) : Key := (s.here.ctx, s.here.core)

/-- Runs a step where it stands; a place of no team is no step. -/
def State.onCore (s : State) (f : CoreCtx → State) : Host.Outcome State Fault Refusal :=
  match s.core? s.key with
  | some c => .next (f c)
  | none => .next s

def State.onMcore (s : State) (f : MCoreCtx → State) : Host.Outcome State Fault Refusal :=
  match s.mcore? s.key with
  | some c => .next (f c)
  | none => .next s

def CoreCtx.elem? (c : CoreCtx) (pos : Nat) : Option Elem := c.elems.get? pos
def CoreCtx.elemD (c : CoreCtx) (pos : Nat) : Elem := (c.elems.get? pos).getD Elem.init
def CoreCtx.modElem (c : CoreCtx) (pos : Nat) (f : Elem → Elem) : CoreCtx :=
  { c with elems := c.elems.put pos (f (c.elemD pos)) }
def CoreCtx.me (c : CoreCtx) (pos : Nat) : ME := (c.mes.get? pos).getD ME.init
def CoreCtx.modMe (c : CoreCtx) (pos : Nat) (f : ME → ME) : CoreCtx := { c with mes := c.mes.put pos (f (c.me pos)) }
def CoreCtx.se (c : CoreCtx) (pos : Nat) : SE := (c.ses.get? pos).getD SE.init
def CoreCtx.modSe (c : CoreCtx) (pos : Nat) (f : SE → SE) : CoreCtx := { c with ses := c.ses.put pos (f (c.se pos)) }
def CoreCtx.ce (c : CoreCtx) (pos : Nat) : CE := (c.ces.get? pos).getD CE.init
def CoreCtx.modCe (c : CoreCtx) (pos : Nat) (f : CE → CE) : CoreCtx := { c with ces := c.ces.put pos (f (c.ce pos)) }
def CoreCtx.le (c : CoreCtx) (pos : Nat) : LE := (c.les.get? pos).getD LE.init
def CoreCtx.modLe (c : CoreCtx) (pos : Nat) (f : LE → LE) : CoreCtx := { c with les := c.les.put pos (f (c.le pos)) }
def CoreCtx.run? (c : CoreCtx) (id : Nat) : Option Run := c.runs.find? fun r => r.id == id
def CoreCtx.modRun (c : CoreCtx) (id : Nat) (f : Run → Run) : CoreCtx :=
  { c with runs := c.runs.map fun r => if r.id = id then f r else r }
def CoreCtx.modWalker (c : CoreCtx) (f : Walker → Walker) : CoreCtx := { c with walker := f c.walker }

def State.elem? (s : State) (k : Key) (pos : Nat) : Option Elem := (s.core? k).bind (·.elem? pos)
def State.modElem (s : State) (k : Key) (pos : Nat) (f : Elem → Elem) : State := s.modCore k (·.modElem pos f)

def Elem.reg (e : Elem) (n : Nat) : Reg := at' e.regs n Reg.empty
def Elem.setReg (e : Elem) (n : Nat) (r : Reg) : Elem := { e with regs := upd e.regs n r }
def Elem.pred (e : Elem) (n : Nat) : Pred := at' e.preds n Pred.zero
def Elem.setPred (e : Elem) (n : Nat) (p : Pred) : Elem := { e with preds := upd e.preds n p }
def Elem.queue (e : Elem) (q : Nat) : List Token := at' e.queues q []
def Elem.setQueue (e : Elem) (q : Nat) (l : List Token) : Elem := { e with queues := upd e.queues q l }
def Elem.port (e : Elem) (p : Nat) : Port := at' e.ports p Port.none
def Elem.setPort (e : Elem) (p : Nat) (x : Port) : Elem := { e with ports := upd e.ports p x }
def Elem.slot (e : Elem) (i : Nat) : W64 := at' e.slots i 0#64

/-! ### Codes -/

/-- Table 1.4. -/
def Fmt.code : Fmt → Nat
  | .raw => 0 | .i64 => 1 | .f32x2 => 2 | .bf16x4 => 3 | .e4m3x8 => 4 | .e5m2x8 => 5 | .e2m1x16 => 6 | .i8x8 => 7

def Fmt.ofCode (n : Nat) : Fmt :=
  match n % 8 with
  | 0 => .raw | 1 => .i64 | 2 => .f32x2 | 3 => .bf16x4 | 4 => .e4m3x8 | 5 => .e5m2x8 | 6 => .e2m1x16 | _ => .i8x8

/-- Table 1.5. -/
def Ctl.code : Ctl → Nat
  | .data => 0 | .last => 1 | .sep => 2 | .null => 3

def Ctl.ofCode (n : Nat) : Ctl :=
  match n % 4 with
  | 0 => .data | 1 => .last | 2 => .sep | _ => .null

def b2n (b : Bool) : Nat := if b then 1 else 0

/-- A word from a number. -/
def w64 (n : Nat) : W64 := BitVec.ofNat 64 n
def w32 (n : Nat) : W32 := BitVec.ofNat 32 n

/-- A word of bytes, least significant first (R6). -/
def wordBytes (w : W64) : List Byte := leBytes 8 w.toNat
def wordsBytes (ws : List W64) : List Byte := ws.flatMap wordBytes
def bytesWord (bs : List Byte) : W64 := BitVec.ofNat 64 (leNat (bs.take 8))

/-- A list of bytes cut into words. -/
def bytesWords (n : Nat) (bs : List Byte) : List W64 :=
  match n with
  | 0 => []
  | n + 1 => bytesWord bs :: bytesWords n (bs.drop 8)

/-! ### Flat memory and HBM -/

def State.flatWords (s : State) (a n : Nat) : List W64 := bytesWords n (s.flat.readN a (8 * n))
def State.setFlat (s : State) (a : Nat) (bs : List Byte) : State := { s with flat := s.flat.writeN a bs }

/-! ### Physical places -/

/-- Table 1.1, R242: the physical quad of a logical one; place is meaningful while the quad is resident. -/
def Team.physQuad (t : Team) (lq : Nat) : Nat := t.place.getD lq 0
/-- Is a team running, or parked between messages (R285)? -/
def Team.live (t : Team) : Bool := t.phase == .running || t.phase == .parked

def Team.physCore (t : Team) (core : Nat) : Nat := t.physQuad (core / 2) * 2 + core % 2
def State.physCore? (s : State) (k : Key) : Option Nat := (s.team? k.1).map (·.physCore k.2)
def Team.cores (t : Team) : Nat := 2 * t.launch.quads

/-- R4. -/
def eidOf (core pos : Nat) : Nat := core * 64 + pos

/-- Has a compute core reached its migration point, its quad not yet moved (R353, R354)? -/
def State.atMove (s : State) (k : Key) : Bool :=
  ((s.team? k.1).map fun t => t.migrations.any fun m => m.reached.contains k.2).getD false

/-- R312, R354: is a memory core closed to accesses: its view open, or its quad on the move? -/
def MCoreCtx.shut (m : MCoreCtx) : Bool := m.viewOpen || m.moving

/-- Is it out of reach of compute core `k`: evicted, or on the move (R173, R354)? DEDUCED (log 113): what the ended groups of a
core that waits for its own move still need is let through, since step 2 of R354 has them commit. -/
def State.awayFor (s : State) (k : Key) (ended : Bool) (m : MCoreCtx) : Bool :=
  !m.resident || (m.moving && !(ended && s.atMove k))

/-- Is it closed to an access of compute core `k` to its window or its counters: out of reach, or its view open (R312)? -/
def State.shutFor (s : State) (k : Key) (ended : Bool) (m : MCoreCtx) : Bool := m.viewOpen || s.awayFor k ended m

/-! ### Event counters and progress -/

/-- R368: counter `i` of a context's core and the physical total rise by n. -/
def State.count (s : State) (k : Key) (i n : Nat) : State :=
  let s := s.modCore k fun c => { c with evc := upd c.evc i (at' c.evc i 0#64 + w64 n) }
  if i < 24 then
    match s.physCore? k with
    | some pc => s.modPhys pc fun p => { p with totals := upd p.totals i (at' p.totals i 0 + n) }
    | none => s
  else s

/-- R315: an event that resets the hang watchdog of a team. -/
def State.progressed (s : State) (ctx : Nat) : State :=
  s.modTeam ctx fun t => { t with watchdog := 0, progress := s.time }

/-! ### What is in flight on a core -/

/-- The open commit group of a block run (R144). -/
def CoreCtx.groupOf (c : CoreCtx) (run : Nat) : Nat := ((c.run? run).map (·.group)).getD 0

def CoreCtx.fly (c : CoreCtx) (left run : Nat) (x : Cargo) : CoreCtx :=
  { c with flights := c.flights ++ [⟨left, run, c.groupOf run, x⟩] }

/-- Removes the first due item that `p` accepts (it arrives in this cycle). -/
def takeDue (p : Cargo → Bool) : List Flight → Option (Flight × List Flight)
  | [] => none
  | f :: fs =>
    if f.left = 0 ∧ p f.cargo = true then some (f, fs)
    else match takeDue p fs with
      | some (g, gs) => some (g, f :: gs)
      | none => none

/-- R227: an element latency in core cycles. -/
def CoreCtx.cyclesOf (c : CoreCtx) (pos lat : Nat) : Nat := lat * at' c.divs (pos / 8) 1

/-! ### Routes (R16, R18, R156) -/

/-- Does every receiver of a port have a free slot by the port's credits (R18)? An unrouted port is never writable. -/
def Port.writable (p : Port) : Bool := !p.recvs.isEmpty && p.recvs.all fun r => decide (0 < r.credits)

/-- Takes one credit of every receiver of a port. -/
def Port.take (p : Port) : Port := { p with recvs := p.recvs.map fun r => { r with credits := r.credits - 1 } }

/-- The tokens of one send, one for each receiver at its own latency (R16, R156). -/
def sendFlights (run group : Nat) (p : Port) (t : Token) : List Flight :=
  p.recvs.map fun r => ⟨r.lat, run, group, .token r.pos r.q t⟩

/-- Sends a token on a port: `held` says that the credit was taken at the fire (R25). -/
def CoreCtx.send (c : CoreCtx) (pos port run : Nat) (held : Bool) (t : Token) : CoreCtx :=
  let p := (c.elemD pos).port port
  let c := if held then c else c.modElem pos fun e => e.setPort port p.take
  { c with flights := c.flights ++ sendFlights run (c.groupOf run) p t }

/-- The last word has been sent: the hold ends with the cycle, so that nothing else is sent on the port in it (R120). -/
def CoreCtx.endHold (c : CoreCtx) (pos port run : Nat) (h : Hold) : CoreCtx := c.fly 0 run (.portFree pos port h)

/-- Takes the credit of a port at the fire of a long operation (R25). -/
def CoreCtx.holdCredit (c : CoreCtx) (pos port : Nat) : CoreCtx :=
  c.modElem pos fun e => e.setPort port (e.port port).take

/-- Gives back the credits that a discarded result held (R254). -/
def CoreCtx.dropCredit (c : CoreCtx) (pos port : Nat) : CoreCtx :=
  c.modElem pos fun e =>
    e.setPort port { e.port port with recvs := (e.port port).recvs.map fun r => { r with credits := r.credits + 1 } }

/-- The index of the receiver of a port that is queue (pos, q). -/
def recvIdx (rs : List Recv) (pos q : Nat) : Option Nat := rs.findIdx? fun r => r.pos == pos && r.q == q

/-- The credits that one dequeue at (pos, q) sends back to the queue's producers (R18): element, port, receiver and
latency. -/
def CoreCtx.producers (c : CoreCtx) (pos q : Nat) : List (Nat × Nat × Nat × Nat) :=
  c.elems.flatMap fun (sp, e) =>
    (List.range 4).filterMap fun p =>
      let rs := (e.port p).recvs
      (recvIdx rs pos q).map fun i => (sp, p, i, ((rs[i]?).map (·.lat)).getD 1)

/-- R156: the latency of a route. -/
def routeLat (src dst : Nat) : Nat :=
  let d := (src / 8 - dst / 8) + (dst / 8 - src / 8) + (src % 8 - dst % 8) + (dst % 8 - src % 8)
  1 + (d + 3) / 4

/-- R17: the CE a DETOUR code names. -/
def detourCe (code : Nat) : Option Nat :=
  match code with
  | 1 => some 11 | 2 => some 12 | 3 => some 51 | 4 => some 52
  | _ => none

/-- The element whose queue q detours to this CE (R126: at most one). -/
def CoreCtx.detourSource (c : CoreCtx) (ce q : Nat) : Option Nat :=
  (c.elems.find? fun (_, e) => detourCe (at' e.cfg.detour q 0) == some ce).map (·.1)

/-- The credits given back for one token dequeued at (pos, q): to the route's sender (R18), to the detour's sender
(R126), or to the row bus (R79). -/
def CoreCtx.giveCredit (c : CoreCtx) (pos q : Nat) : CoreCtx :=
  if kindAt pos = .me then c.fly 2 0 (.busCredit pos q)
  else
    let back : List Flight := (c.producers pos q).map fun (sp, p, i, l) => ⟨l, 0, 0, .credit sp p i⟩
    let det : List Flight := match c.detourSource pos q with
      | some sp => [⟨routeLat sp pos, 0, 0, .credit sp (4 + q) 0⟩]
      | none => []
    { c with flights := c.flights ++ back ++ det }

/-- Removes the first n tokens of a queue and gives their credits back (R18, R24). -/
def CoreCtx.dequeue (c : CoreCtx) (pos q : Nat) : Nat → CoreCtx
  | 0 => c
  | n + 1 => ((c.modElem pos fun e => e.setQueue q (e.queue q).tail).giveCredit pos q).dequeue pos q n

/-! ### Messages and notices (R277, R278, R285, R306) -/

/-- A message to a host queue. -/
def State.toHost (s : State) (queue : Nat) (ws : List W64) : State :=
  { s with host := { s.host with out := s.host.out ++ [(queue, none, ws)] } }

/-- An MSND of a team to a host queue. -/
def State.teamToHost (s : State) (ctx queue : Nat) (w : W64) : State :=
  { s with host := { s.host with out := s.host.out ++ [(queue, some ctx, [w])] } }

/-- A message to the dispatcher. -/
def State.toDisp (s : State) (src : Source) (chan : Nat) (ws : List W64) : State :=
  { s with disp := { s.disp with inbox := s.disp.inbox ++ [⟨src, chan, ws⟩] } }

/-- The live service team that owns a service channel (R278, R285). -/
def State.serviceTeam (s : State) (ch : Nat) : Option Nat :=
  (s.teams.find? fun (_, t) => t.launch.svc && t.launch.sch == ch && t.live).map (·.1)

/-- R278: a message to a launch's destination; a service channel whose team has ended gives way to host queue 0. -/
def State.toDest (s : State) (l : LaunchRec) (from' : Source) (ws : List W64) : State :=
  if l.dk then s.toHost l.dest ws
  else match s.serviceTeam l.dest with
    | some _ => s.toDisp from' l.dest ws
    | none => s.toHost 0 ws

/-- Table 18.4. -/
def statusMsg (status code tag : Nat) (ctx : Option Nat) (detail : W64) (time : Nat) : List W64 :=
  [w64 (status + code * 2 ^ 8 + tag * 2 ^ 16 + (ctx.map fun c => c * 2 ^ 32 + 2 ^ 38).getD 0), detail, w64 time, 0#64]

/-- R278: where the answer to a command that is not a launch goes. -/
def State.reply (s : State) (src : Source) (status code tag : Nat) (ctx : Option Nat) (detail : W64) : State :=
  let m := statusMsg status code tag ctx detail s.time
  match src with
  | .host q => s.toHost q m
  | .team c => match s.team? c with
    | some t => s.toDest t.launch src m
    | none => s.toHost 0 m

/-- R278: a status message of a team. -/
def State.teamStatus (s : State) (ctx : Nat) (status code : Nat) (detail : W64) : State :=
  match s.team? ctx with
  | some t => s.toDest t.launch (.team ctx) (statusMsg status code t.launch.tag (some ctx) detail s.time)
  | none => s

/-! ### Trap records (R304 to R306) -/

/-- Table 9.7. -/
def RunStatus.word (r : RunStatus) : W64 :=
  w64 (b2n r.done + 2 * b2n r.spilled + 4 * b2n r.squashed + 8 * b2n r.discarded + 16 * (r.variant % 4) +
    256 * min r.groups 255)

/-- Byte offset of a quad's place in flat memory (R304). -/
def Team.quadPlace (t : Team) (q : Nat) : Nat := t.launch.area + q * Config.quadPlace

/-- The core a record names belongs to this quad. -/
def quadOf (core : Nat) : Nat := core / 2

/-- The ring positions of a quad that hold open records. -/
def Team.openPos (t : Team) (q : Nat) : List Nat :=
  (t.recs.filter fun r => r.index / 512 == q).map fun r => r.index % 512

/-- R305: the next free position of a quad's ring, going round once. -/
def Team.freePos (t : Team) (q : Nat) : Option Nat :=
  let start := (t.ringNext.get? q).getD 0
  (List.range 512).findSome? fun i =>
    let p := (start + i) % 512
    if (t.openPos q).contains p then none else some p

/-- What a record says beside the trap itself. -/
structure RecordSite where
  src : Nat
  held : Bool
  core : Nat
  pos : Nat
  slot : Nat
  node : Nat
  status : W64
  cyc : W64
  epoch : Nat
  deriving DecidableEq, Repr

/-- Table 20.2. -/
def recordWords (ctx : Nat) (t : TrapInfo) (r : RecordSite) (time seq : Nat) : List W64 :=
  [w64 (t.code + r.src * 2 ^ 8 + 2 ^ 10 + b2n r.held * 2 ^ 11 + r.core % 2 ^ 16 * 2 ^ 16 + ctx * 2 ^ 32 +
      r.pos * 2 ^ 38 + r.slot * 2 ^ 44 + r.node * 2 ^ 48),
    t.info, t.info2, r.status, w64 time, r.cyc, w64 (r.epoch % 2 ^ 32 + seq * 2 ^ 32), 0#64]

/-- What a team's last status message says: status, trap code and detail in one number (`Team.ending`). -/
def endingCode (status code detail : Nat) : Nat := status + 256 * code + 65536 * detail

/-- Begins the end of a team (R284, R318): every core freezes; the team ends with this status. An end begun earlier
stands. A team that ends neither moves nor stays open to a debugger: what an open view or a move held back goes on. -/
def State.beginEnding (s : State) (ctx status code detail : Nat) : State :=
  match s.team? ctx with
  | none => s
  | some t =>
    if t.ending.isSome then s
    else
      let s := { s with
        cores := s.cores.map fun (p : Key × CoreCtx) =>
          (p.1, if p.1.1 = ctx then { p.2 with frozen := true, viewOpen := false } else p.2)
        mcores := s.mcores.map fun (p : Key × MCoreCtx) =>
          (p.1, if p.1.1 = ctx then { p.2 with frozen := true, viewOpen := false, moving := false } else p.2) }
      s.modTeam ctx fun t =>
        { t with phase := .ending, ending := some (endingCode status code detail), migrations := [] }

/-- Writes a trap record in the next free position of a quad's ring (R305) and gives the new team index; a full ring
leaves the record unwritten and gives none. -/
def State.writeRecord (s : State) (ctx quad : Nat) (t : TrapInfo) (r : RecordSite) : State × Option Nat :=
  match s.team? ctx with
  | none => (s, none)
  | some tm =>
    match tm.freePos quad with
    | none => (s, none)
    | some p =>
      let idx := quad * 512 + p
      let s := s.setFlat (tm.quadPlace quad + 0x170000 + 64 * p) (wordsBytes (recordWords ctx t r s.time tm.recSeq))
      let s := s.modTeam ctx fun tm => { tm with
        recs := tm.recs ++ [⟨idx, r.src, r.core, r.pos, r.slot, r.node, t.code⟩]
        ringNext := tm.ringNext.put quad ((p + 1) % 512)
        recSeq := tm.recSeq + 1 }
      (s, some idx)

/-- R306: does the handler team still live and run? -/
def State.handlerLive (s : State) (t : Team) : Bool :=
  match s.team? t.launch.hctx with
  | some h => h.launch.svc && h.live && h.recs.isEmpty
  | none => false

/-- R306: the notice of one freeze; without a live handler the team is torn down. -/
def State.notice (s : State) (ctx code idx n : Nat) : State :=
  match s.team? ctx with
  | none => s
  | some t =>
    let m := [w64 (0x40 + code * 2 ^ 8 + ctx * 2 ^ 32), w64 idx, w64 s.time, w64 n]
    if t.launch.hh then s.toHost (if t.launch.dk then t.launch.dest else 0) m
    else if s.handlerLive t then
      match s.team? t.launch.hctx with
      | some h => s.toDisp (.team ctx) h.launch.sch m
      | none => s
    else s.beginEnding ctx 0x08 code idx

/-- The status word of the block run that owns an element (Table 20.2). -/
def CoreCtx.runStatus (c : CoreCtx) (run : Option Nat) : W64 :=
  match run.bind c.run? with
  | some r => r.status.word
  | none => 0#64

/-- A trap on a compute core (R30, R196, R302): writes the record, or notes that the ring is full (R305); the core freezes at
the end of the cycle. -/
def State.raiseOnCore (s : State) (k : Key) (t : TrapInfo) (r : RecordSite) : State :=
  match s.writeRecord k.1 (quadOf k.2) t r with
  | (s, some idx) => s.modCore k fun c => { c with raised := c.raised ++ [idx] }
  | (s, none) => s.modCore k fun c => { c with ringFull := true }

/-- R255: is a trap with this code held inside a speculative run? -/
def heldCode (code : Nat) : Bool := (decide (1 ≤ code) && decide (code ≤ 7)) || code == 9

def CoreCtx.specRun (c : CoreCtx) (run : Option Nat) : Bool :=
  match run.bind c.run? with
  | some r => r.spec
  | none => false

/-- TAKING A TRAP AT AN ELEMENT (R30, R255, R300, R302, R305): the element changes nothing else; inside a speculative
run the trap is held until validation. `held` marks a trap raised at validation. The access that a watchpoint stopped is noted
for the resumption (R301). -/
def State.elementTrap (s : State) (k : Key) (pos slot : Nat) (t : TrapInfo) (held : Bool) : State :=
  match s.core? k with
  | none => s
  | some c =>
    let e := c.elemD pos
    let s := if !held && t.code == 0x07 then s.modElem k pos fun e => { e with watched := e.watched ++ [.slot slot] } else s
    if !held && heldCode t.code && c.specRun e.run then
      s.modElem k pos fun e => { e with held := some t, heldSlot := slot }
    else
      let s := if t.code = 0x07 then
          s.modTeam k.1 fun tm =>
            let i := field t.info 20 4
            let w := at' tm.watch i WatchPoint.off
            { tm with watch := upd tm.watch i { w with count := if w.count = BitVec.allOnes 32 then w.count else w.count + 1#32 } }
        else s
      s.raiseOnCore k t ⟨0, held, k.2, pos, slot, 0, c.runStatus e.run, c.cyc, c.epoch⟩

/-- A trap of a walker (R196, R302) about the block run `run`, if it concerns one (Table 20.2). -/
def State.walkerTrapAt (s : State) (k : Key) (node : Nat) (run : Option Nat) (t : TrapInfo) : State :=
  match s.core? k with
  | none => s
  | some c => s.raiseOnCore k t ⟨1, false, k.2, 0, 0, node, c.runStatus run, c.cyc, c.epoch⟩

/-- A trap of a walker's node. -/
def State.walkerTrap (s : State) (k : Key) (node : Nat) (t : TrapInfo) : State := s.walkerTrapAt k node none t

/-- A trap of a memory core's sequencer (R210, R302). -/
def State.seqTrap (s : State) (k : Key) (pc : Nat) (t : TrapInfo) : State :=
  match s.mcore? k with
  | none => s
  | some m =>
    match s.writeRecord k.1 (quadOf k.2) t ⟨2, false, k.2, 0, 0, pc, 0#64, 0#64, m.epoch⟩ with
    | (s, some idx) => s.modMcore k fun m => { m with raised := m.raised ++ [idx] }
    | (s, none) => s.modMcore k fun m => { m with ringFull := true }

/-- The code of an open record. -/
def Team.recCode (t : Team) (idx : Nat) : Nat := ((t.recs.find? fun r => r.index == idx).map (·.code)).getD 0

/-- R30, R305: the records of one core and cycle stand in ascending element identifier, the walker's after them. -/
def OpenRec.rank (r : OpenRec) : Nat := if r.src = 1 then 64 else r.pos

/-- Puts a record behind those of its rank. -/
def insertRec (x : OpenRec) : List OpenRec → List OpenRec
  | [] => [x]
  | y :: ys => if x.rank < y.rank then x :: y :: ys else y :: insertRec x ys

def sortRecs (xs : List OpenRec) : List OpenRec := xs.foldl (fun ys x => insertRec x ys) []

/-- R305: brings the records that a core raised in one cycle into their order: their places in the ring and their sequence
numbers stay, what they say moves. -/
def State.orderRecords (s : State) (ctx : Nat) (raised : List Nat) : State :=
  match s.team? ctx with
  | none => s
  | some t =>
    let old := raised.filterMap fun i => t.recs.find? fun r => r.index == i
    let new := sortRecs old
    if new = old then s
    else
      let place (i : Nat) : Nat := t.quadPlace (i / 512) + 0x170000 + 64 * (i % 512)
      let moves := old.zip new
      let bytes (x : OpenRec × OpenRec) : List Byte :=
        s.flat.readN (place x.2.index) 52 ++ s.flat.readN (place x.1.index + 52) 4 ++ s.flat.readN (place x.2.index + 56) 8
      let s := (moves.map fun x => (place x.1.index, bytes x)).foldl (fun s x => s.setFlat x.1 x.2) s
      let moved (r : OpenRec) : OpenRec := match moves.find? fun x => x.1.index == r.index with
        | some x => { x.2 with index := r.index }
        | none => r
      s.modTeam ctx fun t => { t with recs := t.recs.map moved }

/-- R305: a trap that found the ring full ends its team with code 0x0D. -/
def State.endFull (s : State) (ctx : Nat) (full : Bool) : State := if full then s.beginEnding ctx 0x08 0x0D 0 else s

/-- The freeze at the end of a trap cycle (R302, R306): the core stops and one notice covers the records of the cycle.
A fixed-timing epoch ends (R230). -/
def State.freezeCore (s : State) (k : Key) : State :=
  let raised := ((s.core? k).map (·.raised)).getD []
  let s := s.orderRecords k.1 raised
  match s.core? k, s.team? k.1 with
  | some _, some t =>
    let s := match raised with
      | [] => s
      | i :: is =>
        let low := is.foldl min i
        let s := s.modCore k fun c => { c with
          frozen := true
          raised := []
          elems := c.elems.map fun (x : Nat × Elem) => (x.1, if c.specRun x.2.run then x.2 else { x.2 with held := none }) }
        s.notice k.1 (t.recCode low) low (i :: is).length
    s.endFull k.1 (((s.core? k).map (·.ringFull)).getD false)
  | _, _ => s

def State.freezeMcore (s : State) (k : Key) : State :=
  match s.mcore? k, s.team? k.1 with
  | some m, some t =>
    let s := match m.raised with
      | [] => s
      | i :: is =>
        let low := is.foldl min i
        let s := s.modMcore k fun m => { m with frozen := true, raised := [] }
        s.notice k.1 (t.recCode low) low (i :: is).length
    s.endFull k.1 m.ringFull
  | _, _ => s

/-- R305, R309: closes the open records of a core; SRC 2 belongs to memory cores. -/
def Team.closeRecs (t : Team) (mc : Bool) (core : Nat) : Team :=
  { t with recs := t.recs.filter fun r => !(r.core == core && ((r.src == 2) == mc) && r.src != 3) }

def Team.hasRec (t : Team) (mc : Bool) (core : Nat) : Bool :=
  t.recs.any fun r => r.core == core && ((r.src == 2) == mc) && r.src != 3

end Sys2Proof.Machine
end

