-- ==== Sys2Proof/Machine/Tiles.lean ====
section
/-! DEFINITION. A memory core's tiles (R198 to R207): buffers and their bytes, claims, publishes, owner bits, FIFO and
LINE rows, arrival counters and the dirty-range log. -/

namespace Sys2Proof.Machine

/-! ### Bytes of the window; undefined bytes are free values (R203, log 7) -/

/-- The free value's number of a byte that is undefined. -/
def undefAt : List (Nat × Nat × Nat) → Nat → Option Nat
  | [], _ => none
  | (lo, hi, n) :: t, a => if lo ≤ a ∧ a < hi then some (n + (a - lo)) else undefAt t a

/-- What is left of the undefined ranges once [lo, hi) is written. -/
def undefCut (u : List (Nat × Nat × Nat)) (lo hi : Nat) : List (Nat × Nat × Nat) :=
  u.flatMap fun (a, b, n) =>
    (if a < min b lo then [(a, min b lo, n)] else []) ++
    (if max a hi < b then [(max a hi, b, n + (max a hi - a))] else [])

/-- The undefined ranges inside [lo, hi), moved to begin at `dst` in place of `lo`. -/
def undefMove (u : List (Nat × Nat × Nat)) (lo hi dst : Nat) : List (Nat × Nat × Nat) :=
  u.filterMap fun (a, b, n) =>
    let x := max a lo
    let y := min b hi
    if x < y then some (dst + (x - lo), dst + (y - lo), n + (x - a)) else none

def MCoreCtx.byte (m : MCoreCtx) (a : Nat) : Byte :=
  match undefAt m.undef a with
  | some n => Config.freeByte n
  | none => m.window.read a

def MCoreCtx.bytes (m : MCoreCtx) (a n : Nat) : List Byte := (List.range n).map fun i => m.byte (a + i)

def MCoreCtx.setBytes (m : MCoreCtx) (a : Nat) (bs : List Byte) : MCoreCtx :=
  { m with window := m.window.writeN a bs, undef := undefCut m.undef a (a + bs.length) }

/-- Copies a range of the window, undefined bytes as undefined. -/
def MCoreCtx.copy (m : MCoreCtx) (src dst n : Nat) : MCoreCtx :=
  let u := undefCut m.undef dst (dst + n) ++ undefMove m.undef src (src + n) dst
  { m with window := m.window.writeN dst (m.window.readN src n), undef := u }

/-! ### Tiles -/

def MCoreCtx.tile (m : MCoreCtx) (slot : Nat) : Tile := (m.tiles.get? slot).getD Tile.init
def MCoreCtx.modTile (m : MCoreCtx) (slot : Nat) (f : Tile → Tile) : MCoreCtx :=
  { m with tiles := m.tiles.put slot (f (m.tile slot)) }

/-- Bytes of a row, of a tile, and units it occupies (R200). -/
def Tile.rowBytes (t : Tile) : Nat := (t.rowb + 1) * 64
def Tile.size (t : Tile) : Nat := (t.rows + 1) * t.rowBytes
def Tile.buffers (t : Tile) : Nat := if t.mode = .store then t.ret + 1 else 1
def Tile.units (t : Tile) : Nat := t.buffers * (t.size / 64)

/-- Byte offset of a buffer in the window. -/
def Tile.bufAt (t : Tile) (b : Nat) : Nat := t.base * 64 + b * t.size

def Tile.pin (t : Tile) (b : Nat) : Nat := at' t.pins b 0
def Tile.pinned (t : Tile) : Bool := (List.range 3).any fun b => decide (0 < t.pin b)
def Tile.addPin (t : Tile) (b : Nat) : Tile := { t with pins := upd t.pins b (t.pin b + 1) }
def Tile.dropPin (t : Tile) (b : Nat) : Tile := { t with pins := upd t.pins b (t.pin b - 1) }

/-- Does a claim belong to this block run, whatever its group? -/
def Tile.claimedBy (t : Tile) (core run : Nat) : Bool :=
  match t.claim with
  | some (.block c r _) => c == core && r == run
  | _ => false

/-- R201, R202, R203: may this writer write the shadow now, its claim held or begun? -/
def Tile.mayClaim (t : Tile) (w : Claimer) : Bool :=
  t.mode == .store && decide (1 ≤ t.ret) &&
  (if t.claim = some w then true else t.claim.isNone && t.pin t.shadow == 0 && t.state != .draining)

/-- R201, Table 11.2: the claim begins with a copy of the current version in the shadow. -/
def MCoreCtx.claim (m : MCoreCtx) (slot : Nat) (w : Claimer) : MCoreCtx :=
  let t := m.tile slot
  if t.claim = some w then m
  else
    let m := m.copy (t.bufAt t.cur) (t.bufAt t.shadow) t.size
    m.modTile slot fun t => { t with claim := some w, state := if t.state = .empty then .filling else t.state }

/-- R201, Table 11.2: the claim is discarded. -/
def Tile.unclaim (t : Tile) : Tile :=
  { t with claim := none, state := if t.state = .filling then .empty else t.state }

/-- R202, Table 11.2: the publish of a claim. -/
def Tile.publish (t : Tile) : Tile :=
  { t with
    version := t.version + 1#32
    claim := none
    cur := t.shadow
    shadow := if t.ret = 2 then t.prev else t.cur
    prev := if t.ret = 2 then t.cur else t.prev
    state := match t.state with
      | .filling => .ready
      | .predicted => .verifying
      | st => st }

/-- Is a prediction of the slot being formed (R203)? -/
def MCoreCtx.predicting (m : MCoreCtx) (slot : Nat) : Bool := m.preds.any fun p => p.slot == slot

/-! ### Arrival counters (R206) -/

def MCoreCtx.bump (m : MCoreCtx) (i : Nat) (v : W32) : MCoreCtx := { m with ctrs := upd m.ctrs i (at' m.ctrs i 0#32 + v) }

/-! ### Dirty-range boxes (R207): writer kinds 0 to 3 stream ports, 4 die network, 5 engine (R221) -/

def Dirty.grow (d : Dirty) (row lo hi : Nat) : Dirty :=
  { d with lowRow := min d.lowRow row, highRow := max d.highRow row, lowEl := min d.lowEl lo, highEl := max d.highEl hi }

/-- The writer of an armed fill, and of the stream that a memory core sends into a slot (log 100). -/
def fillWho (slot : Nat) : Nat × Nat := (2 ^ 40, slot)
def streamWho (mc slot : Nat) : Nat × Nat := (2 ^ 41 + mc, slot)

/-- The box of a writer grows by elements lo to hi of a row. -/
def MCoreCtx.mark (m : MCoreCtx) (slot kind : Nat) (who : Nat × Nat) (row lo hi : Nat) : MCoreCtx :=
  if m.boxes.any fun d => d.slot == slot && d.kind == kind && d.who == who then
    { m with boxes := m.boxes.map fun d =>
        if d.slot = slot ∧ d.kind = kind ∧ d.who = who then d.grow row lo hi else d }
  else { m with boxes := m.boxes ++ [⟨slot, kind, row, lo, row, hi, Config.unpublished slot, who⟩] }

/-- A deposit into the log of 16 entries; a full one drops its oldest entry (R207). -/
def MCoreCtx.deposit (m : MCoreCtx) (d : Dirty) : MCoreCtx :=
  if m.log.length < 16 then { m with log := m.log ++ [d] }
  else { m with log := m.log.tail ++ [d], logOverflow := true }

/-- R221: the writers of a slot that `p` picks have published; their boxes keep the tile's VERSION. -/
def MCoreCtx.noteVersion (m : MCoreCtx) (slot : Nat) (p : Nat × Nat → Bool) : MCoreCtx :=
  { m with boxes := m.boxes.map fun (d : Dirty) =>
      if d.slot = slot ∧ p d.who = true then { d with version := (m.tile slot).version } else d }

/-- Has a writer part in what a fill has taken since its last publish: the fill itself, and the streams whose beats it took? -/
def Fill.wrote (f : Fill) (slot : Nat) (who : Nat × Nat) : Bool :=
  who == fillWho slot || f.srcs.any fun mc => who == streamWho mc slot

/-- The memory core whose stream writes joins the writers of a fill. -/
def Fill.writtenBy (f : Fill) (src : Option Nat) : Fill :=
  { f with srcs := match src with
      | some mc => if f.srcs.contains mc then f.srcs else f.srcs ++ [mc]
      | none => f.srcs }

/-- Has a writer part in the shadow that a tile's claim holds? -/
def Tile.wrote (t : Tile) (slot : Nat) (who : Nat × Nat) : Bool :=
  match t.claim with
  | some (.block core run _) => who == (core, run)
  | some .fill => t.fill.any fun f => f.wrote slot who
  | none => false

/-- The boxes of a writer close into the log (R207). -/
def MCoreCtx.close (m : MCoreCtx) (p : Dirty → Bool) : MCoreCtx :=
  let done := m.boxes.filter p
  done.foldl MCoreCtx.deposit { m with boxes := m.boxes.filter fun d => !p d }

/-- The publish of a slot's claim (R202, R221). -/
def MCoreCtx.publish (m : MCoreCtx) (slot : Nat) : MCoreCtx :=
  (m.modTile slot Tile.publish).noteVersion slot ((m.tile slot).wrote slot)

/-- An entry of the log as the words of a DRNG record that are not 0 (R221); none is a record with VALID = 0. -/
def logWords (d : Option Dirty) (overflow : Bool) : List W64 :=
  let o := if overflow then 2 ^ 10 else 0
  match d with
  | none => [w64 o, 0#64, 0#64, 0#64]
  | some d => [w64 (d.slot + d.kind * 2 ^ 6 + 2 ^ 9 + o), w64 (d.lowRow * 2 ^ 32 + d.lowEl),
      w64 (d.highRow * 2 ^ 32 + d.highEl), d.version.setWidth 64]

/-! ### FIFO and LINE rows (R204) -/

/-- Byte offset of a ring row. -/
def Tile.ringAt (t : Tile) (r : Nat) : Nat := t.base * 64 + (t.head + r) % (t.rows + 1) * t.rowBytes

/-- Is there room for the row being appended? -/
def Tile.ringRoom (t : Tile) : Bool := decide (t.count ≤ t.rows)

def Tile.ringState (t : Tile) : Tile := { t with state := if t.count = 0 then .empty else .ready }

/-- Appends up to a row's worth of bytes; the row publishes when it is full (R204). The second part says whether a row
was completed. -/
def MCoreCtx.append (m : MCoreCtx) (slot : Nat) (bs : List Byte) : MCoreCtx × Bool :=
  let t := m.tile slot
  let m := m.setBytes (t.ringAt t.count + t.partialRow) bs
  let full := decide (t.rowBytes ≤ t.partialRow + bs.length)
  let m := m.modTile slot fun t =>
    if full then Tile.ringState { t with partialRow := 0, count := t.count + 1, version := t.version + 1#32 }
    else { t with partialRow := t.partialRow + bs.length }
  (m, full)

/-- Removes rows from the head of a ring. -/
def Tile.popRows (t : Tile) (n : Nat) : Tile :=
  Tile.ringState { t with head := (t.head + n) % (t.rows + 1), count := t.count - n }

/-! ### Reading (R201 to R205) -/

/-- The buffer a non-speculative reader of a STORE tile reads, if it may read now: its own claimed shadow in any state,
or the current version of a READY tile; the owner bit must be 0. -/
def Tile.readBuf (t : Tile) (core run : Nat) : Option Nat :=
  if t.own then none
  else if t.claimedBy core run then some t.shadow
  else if t.state = .ready then some t.cur
  else none

/-- An element's value at a bit offset of a buffer. -/
def MCoreCtx.bits (m : MCoreCtx) (base bit n : Nat) : Nat :=
  leNat (m.bytes (base + bit / 8) ((n + 7) / 8)) / 2 ^ (bit % 8) % 2 ^ n

/-- Writes a value of n bits at a bit offset. -/
def MCoreCtx.setBits (m : MCoreCtx) (base bit n v : Nat) : MCoreCtx :=
  let k := (n + 7) / 8
  let a := base + bit / 8
  let old := leNat (m.bytes a k)
  let sh := 2 ^ (bit % 8)
  let mid := old / sh % 2 ^ n
  m.setBytes a (leBytes k (old - mid * sh + v % 2 ^ n * sh))

end Sys2Proof.Machine
end

