-- ==== Sys2Proof/Machine/Mem.lean ====
section
/-! DEFINITION. Tensor addressing (R129, R289 to R292), the checks of every access (R294 to R300), and the bytes behind
coordinates: HBM frames, flat memory and tiles. -/

namespace Sys2Proof.Machine

/-! ### Element formats -/

/-- R292: element width in bits by EFMT code. -/
def ebits (efmt : Nat) : Nat :=
  match efmt with
  | 0 => 8 | 1 => 8 | 2 => 16 | 3 => 32 | 4 => 64 | 5 => 32 | 6 => 16 | 7 => 8 | 8 => 8 | 9 => 4 | _ => 2

/-- Table 8.2: lanes of one token. -/
def lanesOf (efmt : Nat) : Nat := 64 / ebits efmt

/-- Table 8.2: FMT of loaded tokens. -/
def efmtFmt (efmt : Nat) : Fmt :=
  match efmt with
  | 1 => .i8x8 | 4 => .i64 | 5 => .f32x2 | 6 => .bf16x4 | 7 => .e4m3x8 | 8 => .e5m2x8 | 9 => .e2m1x16 | _ => .raw

/-- R289: the element format of a tile. -/
def fmtEfmt : Fmt → Nat
  | .raw => 0 | .i64 => 4 | .f32x2 => 5 | .bf16x4 => 6 | .e4m3x8 => 7 | .e5m2x8 => 8 | .e2m1x16 => 9 | .i8x8 => 1

/-! ### Tensors -/

/-- What a tensor identifier names (R289). -/
inductive Where where
  | flat
  | hbm (lts : List Nat)
  | tile (mcore slot : Nat)
  deriving DecidableEq, Repr

/-- The shape and rights of a tensor. -/
structure Tensor where
  tid : Nat
  rank : Nat
  dims : List Nat
  efmt : Nat
  r : Bool
  w : Bool
  ext : Bool
  loc : Where
  deriving DecidableEq, Repr

def Team.desc? (t : Team) (tid : Nat) : Option Desc := t.descs.find? fun d => d.tid == tid && d.tid != 0

/-- R289: a team-local identifier's memory core and slot. -/
def localPlace (mchi tid : Nat) : Nat × Nat := (mchi * 1024 + (tid - 0xF0000) / 64, tid % 64)

/-- The tensor an identifier names; none fails check 1 of Table 19.3. -/
def State.tensor? (s : State) (ctx tid : Nat) : Option Tensor :=
  match s.team? ctx with
  | none => none
  | some t =>
    if tid = 0 then some ⟨0, 1, [2 ^ 48], 0, true, true, false, .flat⟩
    else if tid < 0xF0000 then
      (t.desc? tid).map fun d => ⟨tid, d.rank, d.dims, d.efmt, d.r, d.w, d.ext, .hbm d.lts⟩
    else
      let d := t.desc? tid
      let (mc, slot) := localPlace ((d.map (·.mchi)).getD 0) tid
      match s.mcore? (ctx, mc) with
      | none => none
      | some m =>
        let x := m.tile slot
        if mc < 2 * t.launch.quads ∧ x.defd = true ∧ x.mode = .store ∧ 1 ≤ x.ret then
          let ef := fmtEfmt x.fmt
          some ⟨tid, 2, [x.rows + 1, x.rowBytes * 8 / ebits ef], ef, ((d.map (·.r)).getD true), ((d.map (·.w)).getD true),
            false, .tile mc slot⟩
        else none

/-- The tensor that an engine may write under an identifier: also a tile in FIFO or LINE mode, whose rows its writes fill
(R204, R213). -/
def State.fillTensor? (s : State) (ctx tid : Nat) : Option Tensor :=
  match s.tensor? ctx tid with
  | some t => some t
  | none =>
    match s.team? ctx with
    | none => none
    | some t =>
      let d := t.desc? tid
      let (mc, slot) := localPlace ((d.map (·.mchi)).getD 0) tid
      match s.mcore? (ctx, mc) with
      | none => none
      | some m =>
        let x := m.tile slot
        let ef := fmtEfmt x.fmt
        if 0xF0000 ≤ tid ∧ mc < 2 * t.launch.quads ∧ x.defd = true ∧ x.mode ≠ .store then
          some ⟨tid, 2, [x.rows + 1, x.rowBytes * 8 / ebits ef], ef, ((d.map (·.r)).getD true), ((d.map (·.w)).getD true),
            false, .tile mc slot⟩
        else none

def Tensor.inner (t : Tensor) : Nat := t.dims.getD (t.rank - 1) 0

/-- R129: coordinates of an access; `base` are the base coordinates of the binding's generator. -/
def Tensor.coords (t : Tensor) (base : List Nat) (a : W64) : List Nat :=
  if t.rank = 1 then [a.toNat]
  else base.take (t.rank - 2) ++ [a.toNat / 2 ^ 32, a.toNat % 2 ^ 32]

/-- The coordinates of lane i. -/
def laneCoords (cs : List Nat) (i : Nat) : List Nat := cs.dropLast ++ [cs.getLastD 0 + i]

/-- R129: how many of n lanes are accessed. -/
def Tensor.accessed (t : Tensor) (cs : List Nat) (n : Nat) : Nat := min n (t.inner - cs.getLastD 0)

/-- R129, check 3: every coordinate but the innermost lies in its dimension. -/
def Tensor.inRange (t : Tensor) (cs : List Nat) : Bool :=
  cs.length == t.rank && ((cs.dropLast.zip t.dims).all fun (c, d) => decide (c < d))

/-! ### Leases (R291, R294, R295) -/

def inBox (lo hi cs : List Nat) : Bool :=
  ((lo.zip hi).zip cs).all fun ((l, h), c) => decide (l ≤ c) && decide (c ≤ h)

inductive Access where
  | load | store | atomic
  deriving DecidableEq, Repr

def Access.reads (a : Access) : Bool := a != .store
def Access.writes (a : Access) : Bool := a != .load

/-- Check 5 of Table 19.3 on one lane. -/
def Team.leased (tm : Team) (t : Tensor) (k : Access) (cs : List Nat) : Bool :=
  tm.leases.any fun l => l.tid == t.tid && inBox l.lo l.hi cs &&
    (t.tid != 0 || ((!k.reads || l.r) && (!k.writes || l.w)))

/-! ### Watchpoints (R299, R300) -/

/-- A corner as it counts for a rank: a rank-1 corner is one value of 64 bits (R295, R299). -/
def corner (rank : Nat) (cs : List Nat) : List Nat :=
  if rank = 1 then [cs.getD 0 0 + 2 ^ 32 * cs.getD 1 0] else cs.take rank

/-- Does a watchpoint match an access of n accessed lanes? -/
def WatchPoint.matches? (w : WatchPoint) (t : Tensor) (k : Access) (cs : List Nat) (n : Nat) : Bool :=
  w.on && w.tid == t.tid &&
  (match k with
    | .load => w.kind % 2 == 1
    | .store => w.kind / 2 == 1
    | .atomic => w.kind != 0) &&
  ((List.range n).any fun i => inBox (corner t.rank w.lo) (corner t.rank w.hi) (laneCoords cs i))

/-- The watchpoints that an access matches. -/
def Team.watchHits (tm : Team) (t : Tensor) (k : Access) (cs : List Nat) (n : Nat) : List Nat :=
  (List.range 16).filter fun i => (at' tm.watch i WatchPoint.off).matches? t k cs n

/-- The lowest watchpoint with the trap action among those matched. -/
def Team.watchTrap (tm : Team) (hits : List Nat) : Option Nat :=
  hits.find? fun i => !(at' tm.watch i WatchPoint.off).count1

/-- R300: the hit counts of the matching count watchpoints rise, saturating. -/
def Team.countWatch (tm : Team) (hits : List Nat) : Team :=
  hits.foldl (fun tm i =>
    let w := at' tm.watch i WatchPoint.off
    if w.count1 ∧ w.count ≠ BitVec.allOnes 32 then { tm with watch := upd tm.watch i { w with count := w.count + 1#32 } }
    else tm) tm

/-! ### Checks (R296, Table 19.3) -/

inductive Verdict where
  | ok (t : Tensor) (cs : List Nat) (n : Nat)
  | violation
  | watch (i : Nat)
  | miss (t : Tensor) (cs : List Nat)
  deriving DecidableEq, Repr

/-- The first lane that no lease covers. -/
def Team.firstUncovered (tm : Team) (t : Tensor) (k : Access) (cs : List Nat) (n : Nat) : Option Nat :=
  (List.range n).find? fun i => !tm.leased t k (laneCoords cs i)

/-- Table 19.3 in order. `watch`: are the watchpoints tested (R299, R301)? -/
def State.check (s : State) (ctx tid : Nat) (k : Access) (coords : Tensor → List Nat) (lanes : Tensor → Nat)
    (watch : Bool) : Verdict :=
  match s.tensor? ctx tid, s.team? ctx with
  | some t, some tm =>
    let cs := coords t
    let n := t.accessed cs (lanes t)
    if (k.reads && !t.r) || (k.writes && !t.w) then .violation
    else if !t.inRange cs then .violation
    else match (if watch then tm.watchTrap (tm.watchHits t k cs n) else none) with
      | some i => .watch i
      | none =>
        match t.loc with
        | .tile _ _ => .ok t cs n
        | _ =>
          match tm.firstUncovered t k cs n with
          | none => .ok t cs n
          | some i => if t.ext then .miss t (laneCoords cs i) else .violation
  | _, _ => .violation

/-! ### Translation (R292, R293) -/

/-- R292: tile number and inner index of coordinates. -/
def translate : List Nat → List Nat → List Nat → Nat → Nat → Nat × Nat
  | c :: cs, d :: ds, l :: ls, tile, inner =>
    let T := 2 ^ l
    translate cs ds ls (tile * ((d + T - 1) / T) + c / T) (inner * T + c % T)
  | _, _, _, tile, inner => (tile, inner)

/-- A bit of storage: flat memory, HBM, or a place in a tile's buffer. -/
inductive Spot where
  | flat (bit : Nat)
  | hbm (bit : Nat)
  | tile (mcore slot bit : Nat)
  /-- no frame holds the tile of the tensor (R293): no access reaches it -/
  | none
  deriving DecidableEq, Repr

/-- Where an element's bits lie. -/
def Team.spot (tm : Team) (t : Tensor) (cs : List Nat) : Spot :=
  match t.loc with
  | .flat => .flat (8 * cs.getD 0 0)
  | .tile mc slot => .tile mc slot ((cs.getD 0 0 * t.inner + cs.getD 1 0) * ebits t.efmt)
  | .hbm lts =>
    let (tile, inner) := translate cs t.dims lts 0 0
    match tm.frames.get? (t.tid, tile) with
    | some f => .hbm (f * Config.frameBytes * 8 + inner * ebits t.efmt)
    | none => .none

def Memory.bits (m : Memory) (bit n : Nat) : Nat :=
  leNat (m.readN (bit / 8) ((n + 7) / 8)) / 2 ^ (bit % 8) % 2 ^ n

def Memory.setBits (m : Memory) (bit n v : Nat) : Memory :=
  let k := (n + 7) / 8
  let old := leNat (m.readN (bit / 8) k)
  let sh := 2 ^ (bit % 8)
  m.writeN (bit / 8) (leBytes k (old - old / sh % 2 ^ n * sh + v % 2 ^ n * sh))

/-- Reads n bits; `buf` chooses the buffer of a tile (R203). -/
def State.readSpot (s : State) (ctx : Nat) (buf : Nat → Tile → Nat) (x : Spot) (n : Nat) : Nat :=
  match x with
  | .flat b => s.flat.bits b n
  | .hbm b => s.hbm.bits b n
  | .tile mc slot b => match s.mcore? (ctx, mc) with
    | some m => let t := m.tile slot; m.bits (t.bufAt (buf slot t)) b n
    | none => 0
  | .none => 0

/-- Writes n bits of flat memory or HBM, or of a buffer of a tile. -/
def State.writeSpot (s : State) (ctx : Nat) (buf : Nat → Tile → Nat) (x : Spot) (n v : Nat) : State :=
  match x with
  | .flat b => { s with flat := s.flat.setBits b n v }
  | .hbm b => { s with hbm := s.hbm.setBits b n v }
  | .tile mc slot b =>
    s.modMcore (ctx, mc) fun m => let t := m.tile slot; m.setBits (t.bufAt (buf slot t)) b n v
  | .none => s

/-- The lanes of a load: n accessed of `lanes`, the others 0 (R129), some of them forwarded (R170). -/
def State.readLanes (s : State) (ctx : Nat) (t : Tensor) (cs : List Nat) (n : Nat) (buf : Nat → Tile → Nat)
    (fwd : List (Option Nat)) : List Nat :=
  match s.team? ctx with
  | none => []
  | some tm =>
    (List.range n).map fun i =>
      match fwd.getD i none with
      | some v => v
      | none => s.readSpot ctx buf (tm.spot t (laneCoords cs i)) (ebits t.efmt)

/-- Writes the accessed lanes of a token (R129, R131). -/
def State.writeLanes (s : State) (ctx : Nat) (t : Tensor) (cs : List Nat) (n : Nat) (buf : Nat → Tile → Nat) (v : W64) :
    State :=
  match s.team? ctx with
  | none => s
  | some tm =>
    let w := ebits t.efmt
    (List.range n).foldl (fun s i => s.writeSpot ctx buf (tm.spot t (laneCoords cs i)) w (lane w i v)) s

/-! ### Bytes of a tensor, for engines, sequencers and the host: elements in row-major order (R325) -/

/-- The coordinates of a byte offset of a tensor whose elements are whole bytes or parts of one, row-major. -/
def Tensor.coordsAt (t : Tensor) (idx : Nat) : List Nat :=
  ((t.dims.take t.rank).foldr (fun d (acc : List Nat × Nat) => ((acc.2 % d) :: acc.1, acc.2 / d)) ([], idx)).1

def Tensor.elems (t : Tensor) : Nat := (t.dims.take t.rank).foldl (· * ·) 1
def Tensor.bytes (t : Tensor) : Nat := (t.elems * ebits t.efmt + 7) / 8

/-- The number of an element in row-major order. -/
def Tensor.indexOf (t : Tensor) (cs : List Nat) : Nat := (cs.zip (t.dims.take t.rank)).foldl (fun a x => a * x.2 + x.1) 0

/-- The spot of byte `off` of a tensor. -/
def Team.byteSpot (tm : Team) (t : Tensor) (off : Nat) : Spot :=
  let w := ebits t.efmt
  let base := tm.spot t (t.coordsAt (off * 8 / w))
  let extra := off * 8 % w
  match base with
  | .flat b => .flat (b + extra)
  | .hbm b => .hbm (b + extra)
  | .tile mc slot b => .tile mc slot (b + extra)
  | .none => .none

/-- What byte `off` of a tensor is made of: a spot, its width and its place in the byte. Elements of 4 or 2 bits that share
a byte of the row-major order need not share one of a frame (R292). -/
def Team.byteParts (tm : Team) (t : Tensor) (off : Nat) : List (Spot × Nat × Nat) :=
  let w := ebits t.efmt
  if 8 ≤ w then if off * 8 / w < t.elems then [(tm.byteSpot t off, 8, 0)] else []
  else (List.range (8 / w)).filterMap fun j =>
    let e := off * (8 / w) + j
    if e < t.elems then some (tm.spot t (t.coordsAt e), w, j * w) else none

/-- Reads a value that stands in parts: the spot, width and place of each (tiles through their current version). -/
def State.readParts (s : State) (ctx : Nat) (parts : List (Spot × Nat × Nat)) : Nat :=
  (parts.map fun x => s.readSpot ctx (fun _ x => x.cur) x.1 x.2.1 * 2 ^ x.2.2).sum

/-- Writes a value into its parts. -/
def State.writeParts (s : State) (ctx : Nat) (buf : Nat → Tile → Nat) (parts : List (Spot × Nat × Nat)) (v : Nat) : State :=
  parts.foldl (fun s x => s.writeSpot ctx buf x.1 x.2.1 (v / 2 ^ x.2.2 % 2 ^ x.2.1)) s

/-- The parts of the 64-bit word at byte `off` of a tensor. -/
def Team.wordParts (tm : Team) (t : Tensor) (off : Nat) : List (Spot × Nat × Nat) :=
  (List.range 8).flatMap fun j => (tm.byteParts t (off + j)).map fun x => (x.1, x.2.1, x.2.2 + 8 * j)

/-- Committed bytes of a tensor: tiles through their current version. -/
def State.tensorBytes (s : State) (ctx : Nat) (t : Tensor) (off n : Nat) : List Byte :=
  match s.team? ctx with
  | none => []
  | some tm =>
    (List.range n).map fun i => BitVec.ofNat 8 (s.readParts ctx (tm.byteParts t (off + i)))

def State.setTensorBytes (s : State) (ctx : Nat) (t : Tensor) (buf : Nat → Tile → Nat) : Nat → List Byte → State
  | _, [] => s
  | off, b :: bs =>
    match s.team? ctx with
    | none => s
    | some tm => (s.writeParts ctx buf (tm.byteParts t off) b.toNat).setTensorBytes ctx t buf (off + 1) bs

/-- Checks 1 to 3 and 5 for a byte range (R296): engine, sequencer and host accesses. -/
def State.rangeOk (s : State) (ctx tid off n : Nat) (k : Access) : Option Tensor :=
  match s.tensor? ctx tid, s.team? ctx with
  | some t, some tm =>
    let w := ebits t.efmt
    if (k.reads && !t.r) || (k.writes && !t.w) then none
    else if t.bytes < off + n then none
    else match t.loc with
      | .tile _ _ => some t
      | _ =>
        let first := off * 8 / w
        let last := (off * 8 + n * 8 + w - 1) / w
        if (List.range (last - first)).all fun i => tm.leased t k (t.coordsAt (first + i)) then some t else none
  | _, _ => none

/-- R312, R326, R354: does a tensor stand in a memory core that is away, moves or has its view open, so that every access to it
waits? -/
def State.tileAway (s : State) (ctx : Nat) (t : Tensor) : Bool :=
  match t.loc with
  | .tile mc _ => ((s.mcore? (ctx, mc)).map fun m => m.shut || !m.resident).getD false
  | _ => false

/-- A record of 64 bytes at a tensor offset (R140, R152): its words, where it is readable committed memory. -/
def State.recordAt (s : State) (ctx tid off : Nat) : Option (List W64) :=
  (s.rangeOk ctx tid off 64 .load).map fun t => bytesWords 8 (s.tensorBytes ctx t off 64)

/-! ### Byte windows for the beat buffer (R259) -/

/-- Memory kind and 64-byte block of a spot: 0 flat, 1 HBM, 2 + memory core for a tile (block of its buffer). -/
def Spot.block (x : Spot) : Nat × Nat :=
  match x with
  | .flat b => (0, b / 512)
  | .hbm b => (1, b / 512)
  | .tile mc slot b => (2 + mc * 64 + slot, b / 512)
  | .none => (0, 2 ^ 64)

/-- The first bit of a place within its block. -/
def Spot.bitIn (x : Spot) : Nat :=
  match x with
  | .flat b => b % 512
  | .hbm b => b % 512
  | .tile _ _ b => b % 512
  | .none => 0

end Sys2Proof.Machine
end

