-- ==== Sys2Proof/Machine/Operands.lean ====
section
/-! DEFINITION. Operand forms of element slots: sources (Table 3.5, R29, R53), trigger tests (R21, R29), where results
go (R18, R19, R25, R66) and the tags they carry (R25, R28). -/

namespace Sys2Proof.Machine

/-- A source as a fire reads it. -/
structure Src where
  data : W64
  fmt : Fmt
  tnt : Bool
  deriving DecidableEq, Repr

/-- Where a slot runs. `chosen`: a selector of an ME has found it ready at the start of this cycle, so that what R21 asks
of the state at the start of the cycle is not tested again (R105). `keep`: queues, as a mask, whose head a row fire of the
same ME takes in the same cycle; the control slot reads that head and leaves its removal to the row fire (log 94). -/
structure Site where
  k : Key
  pos : Nat
  slot : Nat
  chosen : Bool
  keep : Nat
  deriving DecidableEq, Repr

/-- The sources of a fire, the D* register, and the guard with its taint (R24 steps 1 and 2). -/
structure Ins where
  a : Src
  b : Src
  d : Src
  guard : Bool
  guardTnt : Bool
  /-- CTL of the heads read through SA and SB -/
  ctlA : Ctl
  ctlB : Ctl
  deriving DecidableEq, Repr

def Src.zero : Src := ⟨0#64, .i64, false⟩

/-- The head of a queue. -/
def Elem.head? (e : Elem) (q : Nat) : Option Token := (e.queue q).head?

/-- The token a source code names, if it is a queue that holds one. -/
def Elem.headOf (e : Elem) (code : Nat) : Option Token := if codeIsQueue code then e.head? (code - 12) else none

/-- R29: the value of a queue operand in a K1 slot. -/
def k1Data (x : Bool) (d : W64) : W64 := if x then d &&& 0x00FFFFFFFFFFFFFF#64 else d

/-- The itr of the block run that owns an element (R53). -/
def CoreCtx.itrOf (c : CoreCtx) (run : Option Nat) : Nat :=
  match run.bind c.run? with
  | some r => r.itr
  | none => 0

/-- Table 3.5: the value of a source code. -/
def readSrc (c : CoreCtx) (e : Elem) (core pos : Nat) (x : Bool) (code : Nat) : Src :=
  if code ≤ 11 then
    let r := e.reg code
    ⟨r.data, r.fmt, r.tnt⟩
  else if code ≤ 15 then
    match e.head? (code - 12) with
    | some t => ⟨k1Data x t.data, t.fmt, t.tnt⟩
    | none => Src.zero
  else if code ≤ 19 then
    let p := at' e.consts (code - 16) (0#64, .i64)
    ⟨p.1, p.2, false⟩
  else if code = 21 then ⟨1#64, .i64, false⟩
  else if code = 22 then ⟨w64 (eidOf core pos), .i64, false⟩
  else if code = 23 then ⟨w64 (c.itrOf e.run), .i64, false⟩
  else Src.zero

/-- Is SA, SB or DST a source of an operation (R54)? -/
def Shape.srcA (sh : Shape) : Bool := sh.a == .source || sh.a == .queue
def Shape.srcB (sh : Shape) : Bool := sh.b == .source || sh.b == .queue
def Shape.srcD (sh : Shape) : Bool := sh.d == .accum

/-- The source codes of a slot. -/
def sourceCodes (sh : Shape) (f : Fields) : List Nat :=
  (if sh.srcA then [f.sa.toNat] else []) ++ (if sh.srcB then [f.sb.toNat] else [])

/-- The registers a slot reads, its D* destination among them (R19, R66). -/
def regSources (sh : Shape) (f : Fields) : List Nat :=
  ((sourceCodes sh f).filter codeIsReg) ++ (if sh.srcD then [f.dst.toNat] else [])

/-- The queues a slot reads as operands. -/
def queueSources (sh : Shape) (f : Fields) : List Nat :=
  ((sourceCodes sh f).filter codeIsQueue).map fun c => c - 12

/-- R24 steps 1 and 2. -/
def readIns (c : CoreCtx) (e : Elem) (core pos : Nat) (sh : Shape) (f : Fields) : Ins :=
  let rd (use : Bool) (code : Nat) : Src := if use then readSrc c e core pos f.x code else Src.zero
  let p := e.pred f.pn.toNat
  let g : Bool × Bool :=
    if sh.guarded then
      (if f.pu = 1#3 then (p.val, p.tnt) else if f.pu = 2#3 then (!p.val, p.tnt) else (true, false))
    else (true, false)
  { a := rd sh.srcA f.sa.toNat
    b := rd sh.srcB f.sb.toNat
    d := rd sh.srcD f.dst.toNat
    guard := g.1
    guardTnt := g.2
    ctlA := ((e.headOf f.sa.toNat).map (·.ctl)).getD .data
    ctlB := ((e.headOf f.sb.toNat).map (·.ctl)).getD .data }

/-- R28: the taint of a result. -/
def Ins.tnt (i : Ins) : Bool := i.a.tnt || i.b.tnt || i.d.tnt || i.guardTnt

/-! ### Triggers -/

/-- R21: the tag test on a queue. -/
def qtest (e : Elem) (q t : Nat) : Bool :=
  if t = 0 then true
  else match e.head? q with
    | none => false
    | some h =>
      match t with
      | 1 => true
      | 2 => h.ctl == .data
      | 3 => h.ctl == .last
      | 4 => h.ctl == .sep
      | 5 => h.ctl == .null
      | 6 => h.ctl != .null
      | _ => h.ctl != .data

/-- The predicates as a mask. -/
def Elem.predMask (e : Elem) : BitVec 8 :=
  BitVec.ofNat 8 ((List.range 8).foldl (fun n i => n + if (e.pred i).val then 2 ^ i else 0) 0)

def Elem.pendingMask (e : Elem) : BitVec 8 :=
  BitVec.ofNat 8 ((List.range 8).foldl (fun n i => n + if (e.pred i).pending then 2 ^ i else 0) 0)

/-- R21, R29: the predicate match of a trigger, with the K1 tag of queue QA in a K1 slot. -/
def predMatch (e : Elem) (f : Fields) : Bool :=
  if f.x then
    match e.head? f.qa.toNat with
    | some h => h.fmt == .raw && (h.data.extractLsb' 56 8 &&& f.pm) == (f.pv &&& f.pm)
    | none => false
  else (e.predMask &&& f.pm) == (f.pv &&& f.pm) && (e.pendingMask &&& f.pm) == 0#8

/-- R21: the whole trigger. -/
def triggered (e : Elem) (f : Fields) : Bool :=
  predMatch e f && qtest e f.qa.toNat f.ta.toNat && qtest e f.qb.toNat f.tb.toNat

/-- R17: is the head of a queue unaccepted and not detoured? -/
def Elem.unaccepted (e : Elem) (q : Nat) : Bool :=
  match e.head? q with
  | some h => !(at' e.cfg.accept q 0xFF#8).getLsbD h.fmt.code && at' e.cfg.detour q 0 == 0
  | none => false

/-- R17: does the head of a queue leave by its detour? -/
def Elem.detours (e : Elem) (q : Nat) : Bool :=
  match e.head? q with
  | some h => !(at' e.cfg.accept q 0xFF#8).getLsbD h.fmt.code && at' e.cfg.detour q 0 != 0
  | none => false

/-- R31: does the trigger test queue q with .n or .!d? -/
def nullExempt (f : Fields) (q : Nat) : Bool :=
  let t (qq : BitVec 2) (tt : BitVec 3) : Bool := qq.toNat == q && (tt == 5#3 || tt == 7#3)
  t f.qa f.ta || t f.qb f.tb

/-! ### Destinations -/

/-- The registers a fire marks empty: DQ bits on register sources (R24). -/
def dqRegs (sh : Shape) (f : Fields) : List Nat :=
  (if sh.srcA && f.dqa && codeIsReg f.sa.toNat then [f.sa.toNat] else []) ++
  (if sh.srcB && f.dqb && codeIsReg f.sb.toNat then [f.sb.toNat] else [])

/-- The queues a fire dequeues; a queue named twice loses one token (R24). -/
def dqQueues (sh : Shape) (f : Fields) : List Nat :=
  let a := if sh.srcA && f.dqa && codeIsQueue f.sa.toNat then [f.sa.toNat - 12] else []
  let b := if sh.srcB && f.dqb && codeIsQueue f.sb.toNat then [f.sb.toNat - 12] else []
  if a = b then a else a ++ b

/-- The fields of a slot without the DQ bits whose queue heads a row fire takes in the same cycle (log 94). -/
def Site.takes (t : Site) (f : Fields) : Fields :=
  let kept (code : BitVec 5) : Bool := codeIsQueue code.toNat && t.keep.testBit (code.toNat - 12)
  if t.keep = 0 then f else { f with dqa := f.dqa && !kept f.sa, dqb := f.dqb && !kept f.sb }

/-- Is a result bound for a port in flight whose arrival cycle is that of a fire of this latency or later (R85)? -/
def CoreCtx.portOrder (c : CoreCtx) (pos port cycles : Nat) : Bool :=
  !(c.flights.any fun fl =>
    match fl.cargo with
    | .result r => r.pos == pos && r.dst == 24 + port && decide (cycles ≤ fl.left)
    | _ => false)

/-- R18, R19, R66, R85, R120: may a slot write its destination in this cycle? `cycles` is its latency. DEDUCED (log 105): R84's
order of arrival in one pipeline holds nothing back that R85 does not. -/
def destWritable (c : CoreCtx) (e : Elem) (pos : Nat) (sh : Shape) (f : Fields) (cycles : Nat) : Bool :=
  let d := f.dst.toNat
  match sh.d with
  | .accum =>
    !(e.reg d).pending
  | .result =>
    if d ≤ 11 then
      let r := e.reg d
      !r.pending && (e.cfg.regmode.getLsbD d || !r.full || (dqRegs sh f).contains d)
    else if codeIsPort d then
      let p := e.port (d - 24)
      p.writable && p.hold.isNone && (kindAt pos != .pe || c.portOrder pos (d - 24) cycles)
    else true
  | .port =>
    let p := e.port (d - 24)
    p.writable && p.hold.isNone
  | _ => true

/-- R25: the CTL of an output token. -/
def toutCtl (f : Fields) (i : Ins) : Ctl :=
  match f.tout.toNat with
  | 4 => i.ctlA
  | 5 => i.ctlB
  | n => Ctl.ofCode n

/-! ### Predicate updates (R26, R28) -/

/-- Does a slot update a predicate? A guarded operation updates none (R27). -/
def updatesPred (sh : Shape) (f : Fields) : Bool := !sh.guarded && f.pu != 0#3

/-- Is the update's value that of the result (codes 011, 100, 101)? -/
def updateByResult (f : Fields) : Bool := f.pu == 3#3 || f.pu == 4#3 || f.pu == 5#3

/-- The bit that codes 011, 100 and 101 test. -/
def resultBit (pu : Nat) (v : W64) : Bool :=
  match pu with
  | 3 => v.getLsbD 0
  | 4 => v == 0#64
  | _ => v.getLsbD 63

/-- R26, R28: the update of a predicate at the fire, `v` and `t` the result and its taint. -/
def applyPred (e : Elem) (f : Fields) (i : Ins) (headTnt : Bool) (v : W64) (t : Bool) : Elem :=
  let n := f.pn.toNat
  let p := e.pred n
  match f.pu.toNat with
  | 0 => e
  | 1 => e.setPred n { p with val := true, tnt := false }
  | 2 => e.setPred n { p with val := false, tnt := false }
  | 6 => e.setPred n { p with val := i.ctlA == .last, tnt := headTnt }
  | 7 => e.setPred n { p with val := !p.val }
  | pu => e.setPred n { p with val := resultBit pu v, tnt := t }

end Sys2Proof.Machine
end

