-- ==== Sys2Proof/Machine/Commit.lean ====
section
/-! DEFINITION. The commit buffer (R165 to R168): taking entries, own-store forwarding (R170), performing a group as one
instant, and the spill commit. -/

namespace Sys2Proof.Machine

/-! ### Neighbours (R158, R199) -/

/-- R199: the LE position that a memory core's port 0 to 3 (N, E, S, W) connects to. -/
def portLe (port : Nat) : Nat := match port with | 0 => 59 | 1 => 8 | 2 => 4 | _ => 55

/-- The port of a memory core that connects to an LE. -/
def lePort (pos : Nat) : Option Nat :=
  if pos = 59 then some 0 else if pos = 8 then some 1 else if pos = 4 then some 2 else if pos = 55 then some 3 else none

/-- R199, R242: the logical compute core that a port of a logical memory core faces. -/
def Team.faces (t : Team) (mc port : Nat) : Option Nat :=
  if mc % 2 = 0 then
    (if port = 3 then some mc else if port = 2 then some (mc + 1) else t.crossing.get? (mc, port))
  else if port = 0 then some (mc - 1)
  else if port = 1 then some mc
  else t.crossing.get? (mc, port)

/-- Physical quads next to one on its die: north, east, south, west. -/
def neighbour (p dir : Nat) : Option Nat :=
  let q := p % Config.quadsPerDie
  let row := q / Config.quadCols
  let col := q % Config.quadCols
  match dir with
  | 0 => if 0 < row then some (p - Config.quadCols) else none
  | 1 => if col + 1 < Config.quadCols then some (p + 1) else none
  | 2 => if row + 1 < Config.quadRows then some (p + Config.quadCols) else none
  | _ => if 0 < col then some (p - 1) else none

/-- R355: are the two ends of a stream port still physically adjacent? Those of one quad always are. -/
def Team.adjacent (t : Team) (mc port core : Nat) : Bool :=
  mc / 2 == core / 2 || neighbour (t.physQuad (mc / 2)) port == some (t.physQuad (core / 2))

/-- R158, R355: does an LE's stream port face this memory core, and is it next to it? Else its accesses take the die network. -/
def Team.near (t : Team) (core pos mc : Nat) : Bool :=
  match lePort pos with
  | some p => t.faces mc p == some core && t.adjacent mc p core
  | none => false

/-! ### Entries (R167) -/

/-- The number of the block run that owns an element. -/
def Elem.runId (e : Elem) : Nat := e.run.getD 0

/-- Entries held by the other resident contexts of a physical core. -/
def State.otherEntries (s : State) (k : Key) : Nat :=
  match s.physCore? k with
  | none => 0
  | some pc =>
    ((s.physOf pc).res.filter fun x => x != k.1).foldl (fun n x =>
      n + (s.cores.foldl (fun a (p : Key × CoreCtx) =>
        if p.1.1 = x ∧ s.physCore? p.1 = some pc then a + p.2.buf.length else a) 0)) 0

/-- Can a context that holds `used` entries obtain n more? 4,096 are shared and 1,024 stay guaranteed to the other
resident context (R167, log 14). -/
def roomFor (used other n : Nat) : Bool := decide (used + n + max 1024 other ≤ 4096)

/-- Has a commit group of a run ended? -/
def CoreCtx.hasEnded (c : CoreCtx) (run group : Nat) : Bool := (c.run? run).any fun r => r.ended.contains group

/-- Entries of a run's own open group. -/
def CoreCtx.openEntries (c : CoreCtx) (run : Nat) : Nat :=
  let g := c.groupOf run
  (c.buf.filter fun b => b.run == run && b.group == g).length

/-- Does a fire that needs n entries find them as the buffer stands? -/
def State.canTake (s : State) (k : Key) (n : Nat) : Bool :=
  match s.core? k with
  | some c => n == 0 || roomFor c.buf.length (s.otherEntries k) n
  | none => false

/-- Would a spill commit of the run's own open group free enough (R168)? Never for a speculative run. -/
def State.canSpill (s : State) (k : Key) (run n : Nat) : Bool :=
  match s.core? k with
  | some c => !c.specRun (some run) && decide (0 < c.openEntries run) &&
      roomFor (c.buf.length - c.openEntries run) (s.otherEntries k) n
  | none => false

/-- Takes entries for operations of a fire, in fire order. -/
def State.buffer (s : State) (k : Key) (run pos : Nat) (ops : List BufOp) : State :=
  let s := s.modCore k fun c =>
    let g := c.groupOf run
    { c with
      buf := c.buf ++ ops.map fun o => ⟨run, g, pos, o, false⟩
      filter := c.filter ++ ops.filterMap fun o => match o with
        | .store tid cs _ _ => some (tid, cs)
        | _ => none }
  s.count k 14 ops.length

/-! ### Own-store forwarding (R170) -/

/-- The value that the youngest buffered store of a run gives for an element, if any. -/
def forwardLane (buf : List BufEntry) (run tid w : Nat) (cs : List Nat) : Option Nat :=
  buf.foldl (fun r b =>
    if b.run = run then
      match b.op with
      | .store t c n v =>
        if t = tid ∧ c.dropLast = cs.dropLast ∧ c.getLastD 0 ≤ cs.getLastD 0 ∧ cs.getLastD 0 < c.getLastD 0 + n then
          some (lane w (cs.getLastD 0 - c.getLastD 0) v)
        else r
      | _ => r
    else r) none

def CoreCtx.forward (c : CoreCtx) (run : Nat) (t : Tensor) (cs : List Nat) (n : Nat) : List (Option Nat) :=
  (List.range n).map fun i => forwardLane c.buf run t.tid (ebits t.efmt) (laneCoords cs i)

/-! ### Performing a group (R165) -/

/-- Has the reply of a request come to its LE (R144)? -/
def LReq.arrived (q : LReq) : Bool :=
  (match q.st with
    | .served _ => true
    | _ => false) && q.left == 0

def LReq.unserved (r : LReq) : Bool := match r.st with | .served _ => false | _ => true

/-- Have the results of a run's groups up to g arrived, and the loads of its streams performed (R144, R260 case 7)? The
replies that a frozen core holds have not (R303). -/
def CoreCtx.groupArrived (c : CoreCtx) (run g : Nat) : Bool :=
  (c.flights.all fun f => !(f.run == run && decide (f.group ≤ g) &&
    (match f.cargo with | .result _ => true | .mma _ => true | _ => false))) &&
  c.les.all fun (_, x) => x.reqs.all fun q => !(q.run == run && decide (q.group ≤ g) &&
    (match q.kind with | .stream _ _ => q.unserved | .sent => false | _ => !(q.arrived && !c.frozen)))

/-- The tile that a store goes to, if its tensor is team-local. -/
def State.tileOf (s : State) (ctx tid : Nat) : Option (Nat × Nat) :=
  match s.tensor? ctx tid with
  | some t => match t.loc with
    | .tile mc slot => some (mc, slot)
    | _ => none
  | none => none

/-- R167, R173, R201, R312, R354: do all stores of the entries of a group of core `k` into tiles stand accepted in their shadows,
and is no counter they add to behind an open view, on a quad that moves or on a memory core that is not resident? `ended`: the
group has ended. -/
def State.accepted (s : State) (k : Key) (ended : Bool) (es : List BufEntry) : Bool :=
  es.all fun b => match b.op with
    | .store tid _ _ _ => b.sent || (s.tileOf k.1 tid).isNone
    | .arrv mc _ _ => !(((s.mcore? (k.1, mc)).map fun m => s.shutFor k ended m).getD false)
    | _ => true

/-- The tiles whose shadow a group of a run has claimed: memory core and slot. -/
def State.claims (s : State) (ctx core run : Nat) (group : Option Nat) : List (Nat × Nat) :=
  s.mcores.flatMap fun (k, m) =>
    if k.1 = ctx then
      m.tiles.filterMap fun (slot, t) =>
        match t.claim with
        | some (.block c r g) =>
          if c = core ∧ r = run ∧ (group.all fun x => x == g) = true then some (k.2, slot) else none
        | _ => none
    else []

/-- Sends a verdict to every run of the team that reads the tentative shadow of this claimer (R252, R254). -/
def State.tellDependents (s : State) (ctx core run mc slot : Nat) (pass : Bool) : State :=
  { s with cores := s.cores.map fun (p : Key × CoreCtx) =>
      if p.1.1 = ctx then
        (p.1, { p.2 with verdicts := p.2.verdicts ++ p.2.runs.filterMap fun r =>
          let dep := r.inputs.any fun i => i.mcore == mc && i.slot == slot && i.kind == .tentative core run
          if dep then some (r.id, mc, slot, pass) else none })
      else p }

/-- R202, R203, R252: publishes a claimed tile; a predicted tile enters VERIFYING. -/
def State.publishTile (s : State) (ctx mc slot : Nat) : State :=
  s.modMcore (ctx, mc) fun m =>
    let was := (m.tile slot).state
    let m := m.publish slot
    if was = .predicted then { m with verifying := m.verifying ++ [slot] } else m

/-- Performs one store of a group into HBM or flat memory; a store into a tile is already in its shadow. -/
def State.performStore (s : State) (k : Key) (tid : Nat) (cs : List Nat) (n : Nat) (v : W64) : State :=
  match s.tensor? k.1 tid with
  | none => s
  | some t =>
    match t.loc with
    | .tile _ _ => s
    | .flat => s.writeLanes k.1 t cs n (fun _ x => x.cur) v
    | .hbm _ => (s.writeLanes k.1 t cs n (fun _ x => x.cur) v).count k 22 1

/-- R137: a message of a group: to a host queue, or to a channel of the dispatcher. -/
def State.performMsg (s : State) (ctx : Nat) (payload dest : W64) : State :=
  if field dest 8 1 = 0 then s.toDisp (.team ctx) (field dest 0 8) [payload]
  else s.teamToHost ctx (field dest 0 8) payload

/-- The 64-byte blocks that a store touches, for the beat buffers (R259). -/
def State.storeBlocks (s : State) (ctx tid : Nat) (cs : List Nat) (n : Nat) : List (Nat × Nat) :=
  match s.tensor? ctx tid, s.team? ctx with
  | some t, some tm => (List.range n).map fun i => (tm.spot t (laneCoords cs i)).block
  | _, _ => []

/-- R259: a commit drops the beat entries of its own core's LEs that it writes into. -/
def State.dropBeats (s : State) (k : Key) (blocks : List (Nat × Nat)) : State :=
  s.modCore k fun c => { c with les := c.les.map fun (p : Nat × LE) =>
    (p.1, { p.2 with beats := p.2.beats.filter fun b => !blocks.contains b.1 }) }

/-- R259: every LE of a team drops its beat buffer, as it may at any time (log 98). -/
def State.dropTeamBeats (s : State) (ctx : Nat) : State :=
  { s with cores := s.cores.map fun (p : Key × CoreCtx) =>
      if p.1.1 = ctx then (p.1, { p.2 with les := p.2.les.map fun (x : Nat × LE) => (x.1, { x.2 with beats := [] }) }) else p }

/-- R158, R275, R368: does what a core's element exchanges with a memory location cross its stream port (counter 11), or the die
network (counter 12, a flit each way; log 121)? -/
def State.pathCounter (s : State) (k : Key) (pos : Nat) (loc : Where) : Nat :=
  match loc, s.team? k.1 with
  | .tile mc _, some tm => if tm.near k.2 pos mc then 11 else 12
  | _, _ => 12

/-- R368: the accesses of 64 bytes that elements of a tensor in HBM take, counted for a core (counter 22, log 121). -/
def State.countElems (s : State) (k : Key) (t : Tensor) (css : List (List Nat)) : State :=
  match t.loc, s.team? k.1 with
  | .hbm _, some tm => s.count k 22 (css.map fun cs => (tm.spot t cs).block).eraseDups.length
  | _, _ => s

/-- The same for n bytes from a byte on. -/
def State.countBytes (s : State) (k : Key) (t : Tensor) (off n : Nat) : State :=
  match t.loc with
  | .hbm _ => s.count k 22 ((off + n + 63) / 64 - off / 64)
  | _ => s

/-- The counter of the path that an entry of a group takes when it performs; none for one that stays in its core. -/
def State.entryPath (s : State) (k : Key) (b : BufEntry) : Option Nat :=
  match b.op with
  | .store tid _ _ _ => (s.tensor? k.1 tid).map fun t => s.pathCounter k b.pos t.loc
  | .arrv _ _ _ => some 12
  | .msnd _ _ => some 12
  | _ => none

/-- R165: performs the buffered effects of a group in one instant: stores in fire order with the publishes of the tiles
written, then counter additions, then messages. -/
def State.perform (s : State) (k : Key) (run group : Nat) (es : List BufEntry) : State :=
  let s1 := es.foldl (fun s b => match b.op with
    | .store tid cs n v => (s.performStore k tid cs n v).dropBeats k (s.storeBlocks k.1 tid cs n)
    | _ => s) s
  let s2 := (s1.claims k.1 k.2 run (some group)).foldl (fun s (p : Nat × Nat) =>
    (s.publishTile k.1 p.1 p.2).tellDependents k.1 k.2 run p.1 p.2 true) s1
  let s3 := es.foldl (fun s b => match b.op with
    | .arrv mc ctr v => s.modMcore (k.1, mc) fun m => m.bump ctr v
    | _ => s) s2
  let s4 := es.foldl (fun s b => match b.op with
    | .msnd p d => s.performMsg k.1 p d
    | _ => s) s3
  [11, 12].foldl (fun s' i => s'.count k i ((es.filterMap (s.entryPath k)).filter fun j => j == i).length) s4

/-- Frees the entries of a group; the store filter clears with the last entry of the context (R167, R170). -/
def CoreCtx.freeGroup (c : CoreCtx) (run group : Nat) : CoreCtx :=
  let b := c.buf.filter fun e => !(e.run == run && e.group == group)
  { c with buf := b, filter := if b.isEmpty then [] else c.filter }

def CoreCtx.groupEntries (c : CoreCtx) (run group : Nat) : List BufEntry :=
  c.buf.filter fun e => e.run == run && e.group == group

/-- R203, R266: may every tile of a group publish now, none of them being predicted or engine-owned? -/
def State.mayPublish (s : State) (ctx core run group : Nat) : Bool :=
  (s.claims ctx core run (some group)).all fun (mc, slot) =>
    match s.mcore? (ctx, mc) with
    | some m => !m.predicting slot && !(m.tile slot).own
    | none => true

/-- R286: how many rows more may come to a service channel before one would wait in the dispatcher: the room of its FIFO less the
rows that wait and the messages still to be read. A channel without a FIFO holds nobody up. -/
def State.channelRoom (s : State) (ch : Nat) : Option Nat :=
  ((s.serviceTeam ch).bind fun ctx => (s.team? ctx).map fun t => (ctx, t)).bind fun (ctx, t) =>
    let used := ((s.mcore? (ctx, 0)).map fun m => (m.tile t.launch.sslot).count).getD 0
    if t.launch.sys then some (16 - (used + t.sysQueue.length + (s.disp.inbox.filter fun m => m.chan == ch).length)) else none

def State.channelFull (s : State) (ch : Nat) : Bool := s.channelRoom ch == some 0

/-- R286, R378: MSNDs hold their group while their service channel has no room for all of them, and while the receive queue of their
host queue is not ready or messages wait for it. DESIGN CHOICE (log 116): a group with more messages for one channel than its
FIFO has rows performs once the FIFO is empty. -/
def State.mayMessage (s : State) (es : List BufEntry) : Bool :=
  let dests := es.filterMap fun b => match b.op with
    | .msnd _ d => some (field d 0 9)
    | _ => none
  dests.all fun d =>
    if 256 ≤ d then !s.host.closed.contains (d - 256) && s.host.out.all fun x => x.1 != d - 256
    else match (if 16 ≤ d then s.channelRoom d else none) with
      | some room => decide (min (dests.countP fun x => x == d) 16 ≤ room)
      | none => true

/-- THE SPILL COMMIT (R168): performs the run's own open group as a commit of one more group, drops its undo records and
opens the next group. -/
def State.spill (s : State) (k : Key) (run : Nat) : State :=
  match s.core? k with
  | none => s
  | some c =>
    let g := c.groupOf run
    let s := s.perform k run g (c.groupEntries run g)
    let s := s.modCore k fun c =>
      (c.freeGroup run g).modRun run fun r =>
        { r with group := r.group + 1, status := { r.status with spilled := true, groups := r.status.groups + 1 } }
    s.progressed k.1

/-- Could the open group of a run be performed now: its earlier groups gone and its results arrived (R144, R260), its tile
stores accepted, its publishes free (R168)? -/
def State.spillReady (s : State) (k : Key) (run : Nat) : Bool :=
  match s.core? k with
  | none => false
  | some c =>
    let g := c.groupOf run
    let es := c.groupEntries run g
    ((c.run? run).all fun r => r.ended.isEmpty) && c.groupArrived run g &&
      s.accepted k false es && s.mayPublish k.1 k.2 run g && s.mayMessage es

end Sys2Proof.Machine
end

