-- ==== Sys2Proof/Machine/Flags.lean ====
section
/-! DEFINITION. The sticky flags of an element (R42): how a result sets them and how the ID selectors read and clear
them (R148). -/

namespace Sys2Proof.Machine

/-- A fire sets flags and never clears one (R42). -/
def Elem.setFlags (e : Elem) (fl : Flags) : Elem := { e with flags := e.flags.or fl }

/-- Flags of a result that arrives in this cycle: a clear in the same cycle applies before them (R42). -/
def Elem.landFlags (e : Elem) (fl : Flags) : Elem := { e with flags := e.flags.or fl, landed := e.landed.or fl }

/-- Selector 0x06 (R148). -/
def Flags.word (f : Flags) : Nat :=
  b2n f.nv + 2 * b2n f.dz + 4 * b2n f.of + 8 * b2n f.uf + 16 * b2n f.nx + 32 * b2n f.io + 64 * b2n f.tc

def Flags.ofNat (n : Nat) : Flags :=
  let b (i : Nat) : Bool := n / 2 ^ i % 2 == 1
  ⟨b 0, b 1, b 2, b 3, b 4, b 5, b 6⟩

/-- Selector 0x07 (R148, R42): clears the named flags, but for those of results that arrived in this cycle. -/
def Elem.clearFlags (e : Elem) (m : Flags) : Elem :=
  let f := e.flags
  let g : Flags := ⟨f.nv && !m.nv, f.dz && !m.dz, f.of && !m.of, f.uf && !m.uf, f.nx && !m.nx, f.io && !m.io, f.tc && !m.tc⟩
  { e with flags := g.or e.landed }

end Sys2Proof.Machine
end

