-- ==== Sys2Proof/Machine/Fire.lean ====
section
/-! DEFINITION. What makes a slot ready or trap-ready (R21, R30, R31) and what one fire does (R24), once for every
element operation: an operation is a record of what it adds to these rules. -/

namespace Sys2Proof.Machine

/-- What an operation looks at: the state, where the slot stands, its fields, the core, the element and its operands. -/
structure Look where
  s : State
  t : Site
  f : Fields
  c : CoreCtx
  e : Elem
  i : Ins

/-- A result: the value, its format and taint, the flags it sets, and a CTL of its own where TOUT does not choose it. -/
structure Res where
  data : W64
  fmt : Fmt
  tnt : Bool
  flags : Flags
  ctl : Option Ctl
  deriving DecidableEq, Repr

/-- An operation. `delay` is its latency, 0 where a reply brings the result (R130). The fields with a default are the
ones few operations need. -/
structure Op where
  opc : Nat
  unit : Unit'
  delay : Nat
  /-- the result, or for an operation without D the value that R67 tests -/
  res : Look → Res
  /-- conditions beyond R21 -/
  ready : Look → Bool := fun _ => true
  /-- traps beyond R17, R19 and R31 -/
  trap : Look → Option TrapInfo := fun _ => none
  /-- a trap that asks for no operand (WAITC, Table 1.7) -/
  modeTrap : Look → Option TrapInfo := fun _ => none
  /-- takes a queue head as a whole token (R31) -/
  whole : Bool := false
  /-- a K1 store, whose data may be NULL (R29) -/
  store : Bool := false
  /-- stalls in a speculative run (R142, Table 8.3, Table 15.4) -/
  stalls : Look → Bool := fun _ => false
  /-- waits for an acquire FENCE that has not completed (R149) -/
  access : Bool := false
  /-- commit-buffer entries (R167) -/
  entries : Look → Nat := fun _ => 0
  /-- tokens that one DQ takes (R107) -/
  take : Nat := 1
  /-- the event counter of its family (R368) -/
  counter : Option Nat := none
  /-- the scratchpad word that a load in flight reads (R115) -/
  word : Look → Option Nat := fun _ => none
  /-- does the result come by no reply after all (a guard of 0, a setting AGEN)? -/
  now : Look → Bool := fun _ => false
  /-- does the operation write no destination and send nothing (R134)? -/
  mute : Look → Bool := fun _ => false
  /-- further effects, on the state once operands are taken -/
  effect : Look → State → State := fun _ s => s

/-- The result of an integer operation (R64). -/
def Look.int (l : Look) (v : W64) : Res := ⟨v, .i64, l.i.tnt, Flags.none, none⟩

/-- The value that R67 tests for an operation without D: SA's, with the taint of every source that the fire reads (R28,
DEDUCED, log 96). -/
def Look.sa (l : Look) : Res := ⟨l.i.a.data, .i64, l.i.tnt, Flags.none, none⟩

/-- ILLEGAL_IN_MODE of a slot (Table 20.4). -/
def Look.illegal (l : Look) : TrapInfo := ⟨0x01, l.e.slot l.t.slot, l.i.a.data⟩

/-- LEASE_VIOLATION and LEASE_MISS of a slot (Table 20.4): tensor and binding, and the address operand. -/
def leaseTrap (code tid binding : Nat) (a : W64) : TrapInfo := ⟨code, w64 (tid + binding * 2 ^ 20), a⟩

/-! ### Readiness -/

inductive Status where
  | wait
  | ready
  | trap (t : TrapInfo)
  deriving DecidableEq, Repr

/-- May any slot of the element fire: its block run is issued, it has not halted (R143), no WAITC counts (R146), no trap
is held (R255) and the core is not frozen (R302)? -/
def awake (c : CoreCtx) (e : Elem) : Bool :=
  !c.frozen && c.resident && e.run.isSome && !e.halted && !e.waiting && e.held.isNone

/-- Has a generator's load stream performed: are all its requests formed and served (Table 16.1)? -/
def LE.streamDone (x : LE) (g : Nat) : Bool :=
  (at' x.gens g LGen.init).mode != .load &&
    !(x.reqs.any fun r => r.unserved && match r.kind with | .stream i _ => i == g | _ => false)

/-- R149: has every load that an acquire FENCE of this element waits for performed, those of its streams that were formed after
its fire among them? -/
def fenceDone (c : CoreCtx) (e : Elem) (pos : Nat) : Bool :=
  let x := c.le pos
  (e.fence.all fun id => !(x.reqs.any fun r => r.id == id && r.unserved)) && e.fenceGens.all x.streamDone

/-- The queues that a slot tests or reads. -/
def usedQueues (sh : Shape) (f : Fields) : List Nat :=
  (if f.ta = 0#3 then [] else [f.qa.toNat]) ++ (if f.tb = 0#3 then [] else [f.qb.toNat]) ++ queueSources sh f

/-- R21 `base`, without what depends on operand values. -/
def baseReady (o : Op) (sh : Shape) (f : Fields) (c : CoreCtx) (e : Elem) (t : Site) : Bool :=
  awake c e && triggered e f &&
  ((usedQueues sh f).all fun q => !e.detours q) &&
  ((queueSources sh f).all fun q => !(e.queue q).isEmpty) &&
  destWritable c e t.pos sh f (c.cyclesOf t.pos (max o.delay 1)) &&
  !(updatesPred sh f && (e.pred f.pn.toNat).pending) &&
  !(sh.guarded && f.pu != 0#3 && (e.pred f.pn.toNat).pending) &&
  ((regSources sh f).all fun r => !(e.reg r).pending) &&
  (!o.access || fenceDone c e t.pos)

/-- The first queue operand whose head is not accepted and has no detour (R17). -/
def fmtFault (sh : Shape) (f : Fields) (e : Elem) : Option Nat := (queueSources sh f).find? e.unaccepted

/-- Is a slot an X = 1 store whose data operand is a NULL token, which raises no NULL_OPERAND (R29)? -/
def skippedStore (o : Op) (sh : Shape) (f : Fields) (e : Elem) : Bool :=
  f.x && o.store && sh.srcB && ((e.headOf f.sb.toNat).map (·.ctl)) == some .null

/-- The first queue operand that raises NULL_OPERAND (R31, R29). -/
def nullFault (o : Op) (sh : Shape) (f : Fields) (e : Elem) : Option Nat :=
  if o.whole || skippedStore o sh f e then none
  else (queueSources sh f).find? fun q => ((e.head? q).map (·.ctl)) == some .null && !nullExempt f q

/-- FMT_MISMATCH, EMPTY_READ and NULL_OPERAND as trap records give them (Table 20.4). -/
def fmtTrap (e : Elem) (q : Nat) : TrapInfo :=
  let h := (e.head? q).getD ⟨0#64, .raw, .data, false⟩
  ⟨0x02, h.data, w64 (q + h.fmt.code * 4 + h.ctl.code * 32)⟩

def emptyTrap (r : Nat) : TrapInfo := ⟨0x03, 0#64, w64 r⟩

def nullTrap (e : Elem) (q : Nat) : TrapInfo := ⟨0x04, ((e.head? q).map (·.data)).getD 0#64, w64 q⟩

/-- EMPTY_READ of a slot with empty register sources (R21, R30): it is trap-ready for them alone only if every one has its
EMPTYTRAP bit; where a queue head makes it trap-ready, one such register is enough (Table 1.7). -/
def emptyTraps (e : Elem) (empty : List Nat) (heads : List TrapInfo) : List TrapInfo :=
  match empty.filter fun r => e.cfg.emptytrap.getLsbD r with
  | [] => []
  | r :: rs => if (r :: rs).length = empty.length ∨ heads ≠ [] then [emptyTrap r] else []

/-- Of several traps the one with the lowest code (R30). -/
def lowestTrap : List TrapInfo → Option TrapInfo
  | [] => none
  | t :: ts => match lowestTrap ts with
    | some u => if u.code < t.code then some u else some t
    | none => some t

def lookAt (o : Op) (f : Fields) (s : State) (t : Site) (c : CoreCtx) (e : Elem) : Look :=
  ⟨s, t, f, c, e, readIns c e t.k.2 t.pos ((shapeOf o.opc).getD .sa) f⟩

/-- The commit buffer as a spill commit of the run's open group would leave it (R168). -/
def Look.afterSpill (l : Look) : Look :=
  let g := l.c.groupOf l.e.runId
  { l with c := (l.c.freeGroup l.e.runId g).modRun l.e.runId fun r => { r with group := r.group + 1 } }

/-- Can the fire have the commit-buffer entries it needs, as the buffer stands or after a spill commit (R167, R168)? The spill
drops undo records, so the fire may need more entries after it (R116). -/
def entriesReady (o : Op) (l : Look) : Bool :=
  let run := l.e.runId
  let n := o.entries l
  n == 0 || l.s.canTake l.t.k n || (l.s.canSpill l.t.k run (o.entries l.afterSpill) && l.s.spillReady l.t.k run)

/-- R21: ready, trap-ready or neither, on the state at the start of the cycle. A faulty operand traps whatever else the
operation waits for, since R21's `trap_ready` asks for `base` alone; an operation's own traps arise when it could
otherwise fire, and of several causes the lowest code counts (R30). A slot that a selector has chosen is not tested
again for what the other slots of its cycle change (R105); if its bank's undo entries no longer fit it does not fire,
though the selectors' ages and pointers have moved (DESIGN CHOICE, log 94). -/
def slotStatus (o : Op) (f : Fields) (s : State) (t : Site) : Status :=
  match s.core? t.k, shapeOf o.opc with
  | some c, some sh =>
    match c.elem? t.pos with
    | none => .wait
    | some e =>
      let l := lookAt o f s t c e
      let empty := (regSources sh f).filter fun r => !(e.reg r).full
      let full := empty.isEmpty
      let present := full && (queueSources sh f).all fun q => decide (o.take ≤ (e.queue q).length)
      let rest := o.ready l && !(o.stalls l && c.specRun e.run) && entriesReady o l
      if t.chosen then (if present && rest then .ready else .wait)
      else if !(baseReady o sh f c e t) then .wait
      else
        let own := match if full then o.trap l else o.modeTrap l with | some x => [x] | none => []
        let heads := (match fmtFault sh f e with | some q => [fmtTrap e q] | none => []) ++
          (match nullFault o sh f e with | some q => [nullTrap e q] | none => [])
        let ts := heads ++ emptyTraps e empty heads
        match lowestTrap (if ts.isEmpty then [] else ts ++ if (present || !full) && rest then own else []) with
        | some x => .trap x
        | none =>
          if !present || !rest then .wait
          else match lowestTrap own with
            | some x => .trap x
            | none => .ready
  | _, _ => .wait

/-! ### The fire -/

/-- R24 steps 3 and 4. -/
def takeOperands (o : Op) (sh : Shape) (f : Fields) (pos : Nat) (c : CoreCtx) : CoreCtx :=
  let c := (dqQueues sh f).foldl (fun c q => c.dequeue pos q o.take) c
  (dqRegs sh f).foldl (fun c r => c.modElem pos fun e => e.setReg r { e.reg r with full := false }) c

/-- Is the result delivered at the fire itself (R19)? -/
def Op.atOnce (o : Op) (l : Look) : Bool := o.delay == 1 || o.now l

/-- Do earlier results of an LE wait for this port (R130, R136)? -/
def CoreCtx.behindReqs (c : CoreCtx) (pos dst : Nat) : Bool := kindAt pos == .le && (c.le pos).reqs.any fun r => r.dst == dst

/-- Do earlier results of an LE wait for any of its registers (R130)? -/
def CoreCtx.regBehind (c : CoreCtx) (pos : Nat) : Bool := kindAt pos == .le && (c.le pos).reqs.any fun r => decide (r.dst ≤ 11)

/-- A result formed at the fire of an LE joins the table behind earlier ones. -/
def CoreCtx.joinReqs (c : CoreCtx) (pos slot dst run : Nat) (t : Token) : CoreCtx :=
  let r : LReq :=
    ⟨c.nextReq, .sent, slot, 0, 0, [], 0, dst, t.tnt, t.ctl, 0, 0, 0#64, run, c.groupOf run, [], true, [], 0, .served [t], 0, true⟩
  { c.modLe pos (fun x => { x with reqs := x.reqs ++ [r] }) with nextReq := c.nextReq + 1 }

/-- A token formed at the fire of an LE that must follow earlier results of its port: it holds its credit and waits. -/
def CoreCtx.sendBehind (c : CoreCtx) (pos slot dst run : Nat) (t : Token) : CoreCtx :=
  (c.holdCredit pos (dst - 24)).joinReqs pos slot dst run t

/-- A GATOM's result of no access that must follow earlier results bound for registers: its register is pending until then. -/
def CoreCtx.writeBehind (c : CoreCtx) (pos slot dst run : Nat) (t : Token) : CoreCtx :=
  (c.modElem pos fun e => e.setReg dst { e.reg dst with full := false, pending := true }).joinReqs pos slot dst run t

/-- R24 steps 5 to 7 for the destination and the flags. -/
def deliver (o : Op) (sh : Shape) (l : Look) (r : Res) (c : CoreCtx) : CoreCtx :=
  let pos := l.t.pos
  let d := l.f.dst.toNat
  let hasD := (sh.d == .result || sh.d == .accum) && !o.mute l
  let ctl := r.ctl.getD (toutCtl l.f l.i)
  if o.atOnce l then
    let c := c.modElem pos fun e => e.setFlags r.flags
    let t : Token := ⟨r.data, r.fmt, ctl, r.tnt⟩
    if !hasD then c
    else if d ≤ 11 then
      if o.delay = 0 ∧ c.regBehind pos = true then c.writeBehind pos l.t.slot d l.e.runId t
      else c.modElem pos fun e => e.setReg d ⟨r.data, r.fmt, r.tnt, true, false⟩
    else if codeIsPort d then
      if c.behindReqs pos d then c.sendBehind pos l.t.slot d l.e.runId t else c.send pos (d - 24) l.e.runId false t
    else c
  else
    let c := if !hasD then c
      else if d ≤ 11 then c.modElem pos fun e => e.setReg d { e.reg d with full := false, pending := true }
      else if codeIsPort d then c.holdCredit pos (d - 24)
      else c
    if o.delay = 0 then c
    else
      let byRes := updatesPred sh l.f && updateByResult l.f
      c.fly (c.cyclesOf pos o.delay) l.e.runId (.result ⟨pos, l.t.slot, o.unit, if hasD then d else 28, r.data, r.fmt,
        r.tnt, ctl, r.flags, if byRes then l.f.pu.toNat else 0, l.f.pn.toNat, o.word l⟩)

/-- R24 step 6, R26, R28. -/
def updatePred (o : Op) (sh : Shape) (l : Look) (r : Res) (c : CoreCtx) : CoreCtx :=
  if !updatesPred sh l.f then c
  else c.modElem l.t.pos fun e =>
    if updateByResult l.f && !o.atOnce l then
      e.setPred l.f.pn.toNat { e.pred l.f.pn.toNat with pending := true }
    else
      let ht := ((l.e.headOf l.f.sa.toNat).map (·.tnt)).getD false
      applyPred e l.f l.i ht r.data r.tnt

/-- Does a fire send a token at once (R368, counter 23)? -/
def sendsNow (o : Op) (sh : Shape) (l : Look) : Bool :=
  o.atOnce l && sh.d == .result && !o.mute l && codeIsPort l.f.dst.toNat && !l.c.behindReqs l.t.pos l.f.dst.toNat

/-- The counters of a fire (R368) and of its block run (R256), and the hang watchdog (R315). -/
def State.fired (s : State) (k : Key) (run : Nat) (counter : Option Nat) : State :=
  let s := s.count k 0 1
  let s := match counter with
    | some i => s.count k i 1
    | none => s
  (s.modCore k fun c => c.modRun run fun r => { r with fires := r.fires + 1 }).progressed k.1

/-- R168: the machine as a fire finds its commit buffer, after the spill commit where the entries it needs cannot be had. -/
def Look.spilled (l : Look) (n : Nat) : Look :=
  if n = 0 ∨ l.s.canTake l.t.k n = true then l
  else
    let s := l.s.spill l.t.k l.e.runId
    { l with s := s, c := (s.core? l.t.k).getD l.c }

/-- One fire of a ready slot (R24): operands are read, queues and registers are taken, the destination is written or
marked pending, further effects apply, the predicate is updated and the token is sent. -/
def fireSlot (o : Op) (sh : Shape) (l : Look) : State :=
  let k := l.t.k
  let run := l.e.runId
  let l := l.spilled (o.entries l)
  let r := o.res l
  let s := l.s.modCore k (takeOperands o sh (l.t.takes l.f) l.t.pos)
  let s := s.modCore k (deliver o sh l r)
  let s := o.effect l s
  let s := s.modCore k (updatePred o sh l r)
  let s := if sendsNow o sh l then s.count k 23 1 else s
  s.fired k run o.counter

/-- Where the running step's slot stands; on an ME bit 0 of `here.val` says that a selector has chosen it and the bits above
it are the queues whose heads row fires take (R105, log 1, log 94). -/
def State.site (s : State) : Site := 
  let me := kindAt s.here.pos == .me
  ⟨s.key, s.here.pos, s.here.idx, me && s.here.val % 2 == 1, if me then s.here.val / 2 else 0⟩

/-- An element operation as a step: a slot that is not ready leaves the machine as it is, a trap-ready one traps in
place of firing (R30), and a ready one fires. -/
def runOp (o : Op) (f : Fields) (s : State) : Host.Outcome State Fault Refusal :=
  match s.core? s.key, shapeOf o.opc with
  | some c, some sh =>
    match c.elem? s.here.pos with
    | none => .next s
    | some e =>
      match slotStatus o f s s.site with
      | .wait => .next s
      | .trap t => .next (s.elementTrap s.key s.here.pos s.here.idx t false)
      | .ready => .next (fireSlot o sh (lookAt o f s s.site c e))
  | _, _ => .next s

end Sys2Proof.Machine
end

