-- ==== Sys2Proof/Machine/Record.lean ====
section
/-! DEFINITION. What an engine command's record names (R320, R327, R328): the tiles and scratchpad regions on which the
command is outstanding from its entry until its completion (R140). -/

namespace Sys2Proof.Machine

/-- The fields of an endpoint word of a transfer record (R327). -/
structure Endpoint where
  tid : Nat
  kind : Nat
  core : Nat
  se : Nat
  rsv : Nat
  lo : List Nat
  deriving DecidableEq, Repr

def wordAt (r : List W64) (i : Nat) : W64 := r.getD i 0#64

/-- 32 bits at a byte offset of a record that is a multiple of 4. -/
def half (r : List W64) (off : Nat) : Nat := field (wordAt r (off / 8)) (off % 8 * 8) 32

def endpoint (w : W64) (lo : List Nat) : Endpoint :=
  ⟨field w 0 20, field w 20 2, field w 22 16, field w 38 2, field w 40 24, lo⟩

/-- Table 21.2. -/
def srcEnd (r : List W64) : Endpoint := endpoint (wordAt r 1) [half r 16, half r 20, half r 24]
/-- DST stands at bytes 28 to 35. -/
def dstEnd (r : List W64) : Endpoint :=
  endpoint (w64 (half r 28 + half r 32 * 2 ^ 32)) [half r 36, half r 40, half r 44]
def extent (r : List W64) (i : Nat) : Nat := field (wordAt r 6) (16 * i) 16 + 1

/-- Elements of the box of a record's tensor endpoint. -/
def boxElems (r : List W64) (rank : Nat) : Nat := ((List.range rank).map fun i => extent r i).foldl (· * ·) 1

/-- R328: the byte length of a copy: the box of the tensor endpoint, or N0 + 1 bytes. -/
def State.copyBytes (s : State) (ctx : Nat) (r : List W64) : Nat :=
  let a := srcEnd r
  let b := dstEnd r
  let box (e : Endpoint) (t : Option Tensor) : Option Nat :=
    if e.kind = 0 then t.map fun t => boxElems r t.rank * ebits t.efmt / 8 else none
  (box a (s.tensor? ctx a.tid) <|> box b (s.fillTensor? ctx b.tid)).getD (extent r 0)

/-- The element position of SE n of Table 1.1. -/
def sePos (n : Nat) : Nat := match n with | 0 => 0 | 1 => 7 | 2 => 56 | _ => 63

/-- The tile an endpoint names. -/
def State.endTile (s : State) (ctx : Nat) (e : Endpoint) : Option (Nat × Nat) :=
  if e.kind = 0 ∧ 0xF0000 ≤ e.tid then
    some (localPlace ((((s.team? ctx).bind fun t => t.desc? e.tid).map (·.mchi)).getD 0) e.tid)
  else none

/-- Is a queued or running transfer of a team outstanding on a tile? -/
def State.engineOnTile (s : State) (ctx mc slot : Nat) : Bool :=
  s.engines.any fun (_, cs) => cs.any fun c =>
    c.ctx == ctx && c.engine == 1 &&
      (s.endTile ctx (srcEnd c.record) == some (mc, slot) || s.endTile ctx (dstEnd c.record) == some (mc, slot))

/-- Regions of 128 words (1 KiB) that a byte run touches. -/
def seRegions (off len : Nat) : List Nat :=
  (List.range 16).filter fun r => decide (off < (r + 1) * 1024) && decide (r * 1024 < off + len)

/-- Is a queued or running transfer of a team outstanding on a region of an SE? -/
def State.engineOnSe (s : State) (ctx core pos region : Nat) : Bool :=
  s.engines.any fun (_, cs) => cs.any fun c =>
    c.ctx == ctx && c.engine == 1 && [srcEnd c.record, dstEnd c.record].any fun e =>
      e.kind == 1 && e.core == core && sePos e.se == pos &&
        (seRegions (e.lo.getD 0 0) (s.copyBytes ctx c.record)).contains region

end Sys2Proof.Machine
end

