-- ==== Sys2Proof/Machine/Endpoint.lean ====
section
/-! DEFINITION. The endpoint element (R127 to R141): loads, atomics, stores, generator boxes, requests and their replies,
deferred faults, the beat buffer (R259), engine issue, messages and owner flips. -/

namespace Sys2Proof.Machine

/-! ### Admission (R159) -/

def CoreCtx.admits (c : CoreCtx) (cost : Nat) : Bool := c.admitN == 0 || c.admitW == 0 || decide (cost ≤ c.allowance)
def CoreCtx.charge (c : CoreCtx) (cost : Nat) : CoreCtx := { c with allowance := c.allowance - cost }

/-! ### The configuration of a slot (Table 8.1) -/

def Look.leOf (l : Look) : LE := l.c.le l.t.pos
def Look.lslot (l : Look) : BitVec 9 := at' l.e.cfg.lslots l.t.slot 0x10#9
def Look.binding (l : Look) : Nat := field l.lslot 0 2
def Look.ord (l : Look) : Nat := field l.lslot 7 2
def Look.tid (l : Look) : Nat := at' l.e.cfg.tids l.binding 0
def LE.gen (x : LE) (g : Nat) : LGen := at' x.gens g LGen.init
def LE.setGen (x : LE) (g : Nat) (v : LGen) : LE := { x with gens := upd x.gens g v }
/-- The base coordinates of a generator. -/
def LE.base (x : LE) (g : Nat) : List Nat := (x.gen g).c.toList.map (·.toNat)

/-! ### Limits (R128, R171) -/

def LReq.live (r : LReq) : Bool :=
  (match r.kind with | .sent => false | _ => true) && (match r.st with | .waiting => true | .served _ => true | _ => false)
def LE.live (x : LE) : Nat := (x.reqs.filter LReq.live).length

/-- The contexts resident on the physical core of a context's core. -/
def State.coResident (s : State) (k : Key) : List CoreCtx :=
  match s.physCore? k with
  | none => []
  | some pc => (s.cores.filter fun p => s.physCore? p.1 == some pc && (s.physOf pc).res.contains p.1.1).map (·.2)

/-- R128: may an LE make another request? -/
def State.reqRoom (s : State) (k : Key) (pos : Nat) : Bool :=
  let cs := s.coResident k
  decide ((cs.map fun c => (c.le pos).live).sum < 128) &&
    decide ((cs.map fun c => (c.les.map fun p => p.2.live).sum).sum < 512)

/-! ### Translations (R293) -/

/-- The translation tiles of the accessed lanes of an HBM access. -/
def xlatTiles (t : Tensor) (cs : List Nat) (n : Nat) : List Nat :=
  match t.loc with
  | .hbm lts => ((List.range n).map fun i => (translate (laneCoords cs i) t.dims lts 0 0).1).eraseDups
  | _ => []

/-- The translations that an access awaits: of more than the unit's 64, which are filled one after another, the last 64
(log 97). -/
def xlatNeeds (t : Tensor) (cs : List Nat) (n : Nat) : List Nat := (xlatTiles t cs n).drop ((xlatTiles t cs n).length - 64)

/-- Does the layout unit hold every translation that an access awaits? -/
def State.xlatHit (s : State) (k : Key) (t : Tensor) (cs : List Nat) (n : Nat) : Bool :=
  match s.physCore? k with
  | some pc => (xlatNeeds t cs n).all fun tile => (s.physOf pc).xlat.contains (k.1, t.tid, tile)
  | none => false

/-- The used translations become the most recent ones. -/
def State.xlatUse (s : State) (k : Key) (t : Tensor) (cs : List Nat) (n : Nat) : State :=
  match s.physCore? k with
  | some pc => (xlatTiles t cs n).foldl (fun s tile => s.modPhys pc fun p =>
      let x := (k.1, t.tid, tile)
      if p.xlat.contains x then { p with xlat := p.xlat.erase x ++ [x] } else p) s
  | none => s

/-- TRANSLATION_FILL (R293): the translation of tile `here.val` of tensor `here.idx` enters the layout unit's 64 entries,
in place of the least recently used; only a resident tile has one. -/
def execTranslationFill (s : State) : Host.Outcome State Fault Refusal :=
  match s.team? s.here.ctx, s.physCore? s.key with
  | some tm, some pc =>
    if (tm.frames.get? (s.here.idx, s.here.val)).isNone then .next s
    else .next (s.modPhys pc fun p =>
      let x := (s.here.ctx, s.here.idx, s.here.val)
      let l := p.xlat.erase x ++ [x]
      { p with xlat := l.drop (l.length - 64) })
  | _, _ => .next s

/-! ### Checks of a fired access (R129, R296, R300) -/

/-- Are watchpoints tested for an access (R301)? -/
def Elem.watches (e : Elem) (x : LateAccess) : Bool := !e.noWatch.contains x

/-- The access that a resumption lets go untested has been made (R301). -/
def Elem.passWatch (e : Elem) (x : LateAccess) : Elem := { e with noWatch := e.noWatch.erase x }

/-- The checks of Table 19.3 for a slot's access. -/
def Look.verdict (l : Look) (k : Access) (lanes : Tensor → Nat) : Verdict :=
  l.s.check l.t.k.1 l.tid k (fun t => t.coords (l.leOf.base l.binding) l.i.a.data) lanes (l.e.watches (.slot l.t.slot))

def oneToken (t : Tensor) : Nat := lanesOf t.efmt
def eightTokens (t : Tensor) : Nat := 8 * lanesOf t.efmt

/-- R297: the lowest free fault record. -/
def State.freeFault (s : State) (ctx : Nat) : Option Nat :=
  match s.team? ctx with
  | some t => (List.range 64).find? fun i => (t.faults.get? i).isNone
  | none => none

/-- WATCH_HIT of Table 20.4. -/
def watchInfo (tm : Team) (i tid : Nat) (a : W64) : TrapInfo :=
  ⟨0x07, w64 (tid + i * 2 ^ 20 + (at' tm.watch i WatchPoint.off).kind * 2 ^ 24), a⟩

def State.watchInfo (s : State) (ctx i tid : Nat) (a : W64) : TrapInfo :=
  match s.team? ctx with
  | some tm => Machine.watchInfo tm i tid a
  | none => ⟨0x07, 0#64, a⟩

/-- R136, R297: is a fault of this slot's load deferred? -/
def Look.defers (l : Look) : Bool :=
  l.e.cfg.defer.getLsbD l.binding && codeIsPort l.f.dst.toNat && (l.s.freeFault l.t.k.1).isSome

/-- The trap of a failing access. -/
def Look.accessTrap (l : Look) (v : Verdict) (defer : Bool) : Option TrapInfo :=
  match v with
  | .ok _ _ _ => none
  | .violation => some (leaseTrap 0x06 l.tid l.binding l.i.a.data)
  | .watch i => some (l.s.watchInfo l.t.k.1 i l.tid l.i.a.data)
  | .miss _ _ => if defer then none else some (leaseTrap 0x05 l.tid l.binding l.i.a.data)

/-- The watchpoints that an access matches. -/
def State.hits (s : State) (ctx : Nat) (t : Tensor) (k : Access) (cs : List Nat) (n : Nat) : List Nat :=
  match s.team? ctx with
  | some tm => tm.watchHits t k cs n
  | none => []

def State.countHits (s : State) (ctx : Nat) (hits : List Nat) : State :=
  if hits.isEmpty then s else s.modTeam ctx fun tm => tm.countWatch hits

/-! ### The request table (R128) -/

/-- Has a deferred fault stopped a port of an LE (R136)? -/
def LE.stopped (x : LE) (dst : Nat) : Bool :=
  x.reqs.any fun r => r.dst == dst && (match r.st with | .faulted _ _ => true | .behind => true | _ => false)

/-- A new entry, which takes the next number. -/
def State.addReq (s : State) (k : Key) (pos : Nat) (r : LReq) : State :=
  s.modCore k fun c =>
    { c.modLe pos (fun x => { x with reqs := x.reqs ++ [{ r with id := c.nextReq }] }) with nextReq := c.nextReq + 1 }

/-- R297: a deferred fault takes record i. -/
def State.recordFault (s : State) (k : Key) (i binding tid pos dst : Nat) (cs : List Nat) : State :=
  s.modTeam k.1 fun tm =>
    { tm with faults := tm.faults.put i ⟨0x05, binding, false, tid, eidOf k.2 pos, cs, k.2, pos, dst - 24⟩ }

/-- Table 12.1: the wait of a neighbour tile read. -/
def State.readWait (s : State) (k : Key) (pos : Nat) (t : Tensor) : Nat :=
  match t.loc, s.team? k.1 with
  | .tile mc _, some tm => if tm.near k.2 pos mc then 24 else 0
  | _, _ => 0

/-- The entry of a slot's request, before its state is known; `late`: a predicate update waits for the result (R26). -/
def Look.request (l : Look) (kind : ReqKind) (tnt held late : Bool) : LReq :=
  ⟨0, kind, l.t.slot, l.binding, l.tid, [], 0, l.f.dst.toNat, tnt, toutCtl l.f l.i,
    if late && updateByResult l.f then l.f.pu.toNat else 0, l.f.pn.toNat,
    l.i.a.data, l.e.runId, l.c.groupOf l.e.runId, [], held, [], 0, .waiting, 0, false⟩

/-- R130, R133, R136: the effect of a load's fire: a request, a deferred fault, or a request behind one. -/
def loadEffect (l : Look) (lanes : Tensor → Nat) (kind : ReqKind) (tnt held : Bool) (s : State) : State :=
  let k := l.t.k
  let pos := l.t.pos
  let dst := l.f.dst.toNat
  let s := s.modElem k pos fun e => e.passWatch (.slot l.t.slot)
  let r := l.request kind tnt held (kind == .load)
  let stopped := codeIsPort dst && l.leOf.stopped dst
  match l.verdict .load lanes with
  | .ok t cs n =>
    let r := { r with
      coords := cs, lanes := n, fwd := l.c.forward l.e.runId t cs n, hits := s.hits k.1 t .load cs n
      left := s.readWait k pos t, st := if stopped then .behind else .waiting }
    (s.addReq k pos r).xlatUse k t cs n
  | .miss t cs =>
    let full := t.coords (l.leOf.base l.binding) l.i.a.data
    let r := { r with coords := full, lanes := t.accessed full (lanes t) }
    if stopped then s.addReq k pos { r with st := .behind }
    else match s.freeFault k.1 with
      | some i => (s.recordFault k i l.binding l.tid pos dst cs).addReq k pos { r with st := .faulted i false }
      | none => s
  | _ => s

/-- Are the translations of an access there, where it has any (R293)? -/
def Look.translated (l : Look) (v : Verdict) : Bool :=
  match v with
  | .ok t cs n => l.s.xlatHit l.t.k t cs n
  | _ => true

/-- A fired load (R130, R133). -/
def loadOp (opc : Nat) (lanes : Tensor → Nat) (kind : ReqKind) (tnt : Look → Bool) (held : Look → Bool) : Op where
  opc := opc
  unit := .mem
  delay := 0
  res := fun l => l.sa
  ready := fun l => l.s.reqRoom l.t.k l.t.pos && l.translated (l.verdict .load lanes)
  trap := fun l => l.accessTrap (l.verdict .load lanes) l.defers
  access := true
  counter := some 10
  effect := fun l s => loadEffect l lanes kind (tnt l) (held l) s

def toPort (l : Look) : Bool := codeIsPort l.f.dst.toNat

/-- GLD (R130). -/
def gldOp : Op := loadOp 0xD0 oneToken .load (fun l => l.i.tnt) toPort
def execGld (f : Fields) (s : State) : Host.Outcome State Fault Refusal := runOp gldOp f s

/-- GLDC (R130, R261): its result is tainted. -/
def gldcOp : Op := loadOp 0xD1 oneToken .load (fun _ => true) toPort
def execGldc (f : Fields) (s : State) : Host.Outcome State Fault Refusal := runOp gldcOp f s

/-- GLDB (R133): one request for eight tokens; it holds its port from its fire to its last token, and its predicate
update tests SA as SBEAT's does (log 17). -/
def gldbOp : Op :=
  { loadOp 0xD4 eightTokens .burst (fun l => l.i.tnt) (fun _ => false) with
    delay := 1
    effect := fun l s =>
      let p := l.f.dst.toNat - 24
      (loadEffect l eightTokens .burst l.i.tnt false s).modElem l.t.k l.t.pos fun e =>
        e.setPort p { e.port p with hold := some .burst } }
def execGldb (f : Fields) (s : State) : Host.Outcome State Fault Refusal := runOp gldbOp f s

/-! ### Atomics (R132) -/

/-- The byte offset of the 64-bit word that an atomic acts on: the element's byte offset, in the tensor's row-major order,
rounded down to a multiple of 8 (log 93). -/
def atomicOffset (t : Tensor) (cs : List Nat) : Nat := t.indexOf cs * ebits t.efmt / 64 * 8

/-- The new word of Table R132. -/
def atomicWord (op : Nat) (old b : W64) : W64 :=
  match op with
  | 0 => old + b
  | 1 => if old.slt b then b else old
  | 2 => if old.extractLsb' 0 32 = b.extractLsb' 32 32 then old.extractLsb' 32 32 ++ b.extractLsb' 0 32 else old
  | _ => b

/-- Where a slot's atomic acts: nowhere if the addressed element is no accessed lane (R129). -/
def Look.atomicParts (l : Look) : List (Spot × Nat × Nat) :=
  match l.verdict .atomic oneToken, l.s.team? l.t.k.1 with
  | .ok t cs n, some tm => if n = 0 then [] else tm.wordParts t (atomicOffset t cs)
  | _, _ => []

/-- R132: may an atomic act on this spot now? -/
def State.atomicFree (s : State) (ctx : Nat) (x : Spot) : Bool :=
  match x with
  | .tile mc slot _ => match s.mcore? (ctx, mc) with
    | some m => let t := m.tile slot; t.state == .ready && t.claim.isNone && !t.pinned && !t.own && !m.shut && m.resident
    | none => false
  | _ => true

/-- The bytes that a request reads, each by its block and its place in it (R257). -/
def State.reqBytes (s : State) (ctx : Nat) (r : LReq) : List ((Nat × Nat) × Nat) :=
  match s.tensor? ctx r.tid, s.team? ctx with
  | some t, some tm => (List.range r.lanes).map fun i =>
      let x := tm.spot t (laneCoords r.coords i)
      (x.block, x.bitIn / 8)
  | _, _ => []

/-- R257, R260 case 1: do two requests of an LE read one location: a byte of one tensor, or one entry of a tile table? -/
def State.sameLocation (s : State) (ctx : Nat) (r q : LReq) : Bool :=
  if r.kind = .tstat ∨ q.kind = .tstat then r.kind == q.kind && r.coords == q.coords
  else r.tid == q.tid && (s.reqBytes ctx r).any (s.reqBytes ctx q).contains

/-- Do n elements from coordinates on meet the 64-bit word of an atomic of the same tensor? -/
def meetsWord (t : Tensor) (cs ds : List Nat) (n : Nat) : Bool :=
  let lo := 8 * atomicOffset t cs
  let w := ebits t.efmt
  decide (t.indexOf ds * w < lo + 64 ∧ lo < (t.indexOf ds + n) * w)

/-- R260 cases 1 and 4: an atomic waits for earlier loads and buffered stores of its LE to its location, and with ORD
release for every earlier load and atomic of its LE. -/
def Look.atomicOrder (l : Look) : Bool :=
  let x := l.leOf
  match l.verdict .atomic oneToken with
  | .ok t cs n =>
    (n == 0 ||
      !(x.reqs.any fun r => r.unserved && r.tid == l.tid && meetsWord t cs r.coords r.lanes) &&
        !(l.c.buf.any fun b => b.pos == l.t.pos && (match b.op with
          | .store tid ds m _ => tid == l.tid && meetsWord t cs ds m
          | _ => false))) &&
      (if l.ord / 2 = 1 then
        !(x.reqs.any LReq.unserved) && (List.range 4).all fun g => (x.gen g).mode != .load
      else true)
  | _ => true

/-- The old word of a slot's atomic. -/
def Look.atomicOld (l : Look) : W64 := BitVec.ofNat 64 (l.s.readParts l.t.k.1 l.atomicParts)

/-- GATOM's effect with a guard of 1: the word is read and written in one instant, the beats of its block leave the LE's
buffer, all of them for an acquire (R259), and the old word is a served request. -/
def gatomEffect (l : Look) (s : State) : State :=
  match l.verdict .atomic oneToken with
  | .ok t cs n =>
    let k := l.t.k
    let parts := l.atomicParts
    let old := l.atomicOld
    let hits := s.hits k.1 t .atomic cs n
    let s := s.writeParts k.1 (fun _ t => t.cur) parts (atomicWord (field l.lslot 2 2) old l.i.b.data).toNat
    let s := (s.countHits k.1 hits).xlatUse k t cs n
    let s := match t.loc with | .hbm _ => s.count k 22 1 | _ => s
    let s := s.count k (s.pathCounter k l.t.pos t.loc) 1
    let s := s.modElem k l.t.pos fun e => e.passWatch (.slot l.t.slot)
    let s := s.modCore k fun c => c.modLe l.t.pos fun y =>
      { y with beats := if l.ord % 2 = 1 then [] else y.beats.filter fun b => !parts.any fun x => x.1.block == b.1 }
    let r := l.request .atomic l.i.tnt (toPort l) false
    s.addReq k l.t.pos { r with coords := cs, lanes := n, st := .served [⟨old, .i64, toutCtl l.f l.i, l.i.tnt⟩] }
  | _ => s

/-- GATOM (R132). DESIGN CHOICE (log 117): with a guard of 0, which makes no access, it does not wait for the request table. -/
def gatomOp : Op where
  opc := 0xD3
  unit := .mem
  delay := 0
  res := fun l => l.int 0#64
  ready := fun l =>
    if l.i.guard then
      let v := l.verdict .atomic oneToken
      l.s.reqRoom l.t.k l.t.pos && l.translated v && l.atomicOrder &&
        l.atomicParts.all fun x => l.s.atomicFree l.t.k.1 x.1
    else true
  trap := fun l => if l.i.guard then l.accessTrap (l.verdict .atomic oneToken) false else none
  stalls := fun _ => true
  access := true
  counter := some 10
  now := fun l => !l.i.guard
  effect := fun l s => if l.i.guard then gatomEffect l s else s
def execGatom (f : Fields) (s : State) : Host.Outcome State Fault Refusal := runOp gatomOp f s

/-! ### Stores (R131) -/

/-- R27, R29: does a GST store? -/
def gstStores (l : Look) : Bool := l.i.guard && !(l.f.x && codeIsQueue l.f.sb.toNat && l.i.ctlB == .null)

/-- Buffers a store of n lanes of b, and counts its watchpoints (R131, R300). -/
def bufferStore (l : Look) (t : Tensor) (cs : List Nat) (n : Nat) (v : W64) (s : State) : State :=
  let k := l.t.k
  let hits := s.hits k.1 t .store cs n
  let s := s.buffer k l.e.runId l.t.pos [.store t.tid cs n v]
  ((s.countHits k.1 hits).xlatUse k t cs n).modElem k l.t.pos fun e => e.passWatch (.slot l.t.slot)

/-- GST (R131). -/
def gstOp : Op where
  opc := 0xD2
  unit := .mem
  delay := 1
  res := fun l => l.sa
  ready := fun l => if gstStores l then l.translated (l.verdict .store oneToken) else true
  trap := fun l => if gstStores l then l.accessTrap (l.verdict .store oneToken) false else none
  store := true
  access := true
  entries := fun l => if gstStores l then 1 else 0
  effect := fun l s =>
    if gstStores l then
      match l.verdict .store oneToken with
      | .ok t cs n => bufferStore l t cs n l.i.b.data s
      | _ => s
    else s
def execGst (f : Fields) (s : State) : Host.Outcome State Fault Refusal := runOp gstOp f s

/-! ### Generator boxes (R134, R135) -/

/-- Extents of a box over a rank. -/
def LGen.extents (g : LGen) (rank : Nat) : List Nat := (g.n.toList.take rank).map (· + 1)

/-- Groups of L lanes of one innermost run, and of the whole box. -/
def LGen.runGroups (g : LGen) (rank L : Nat) : Nat := ((g.extents rank).getLastD 1 + L - 1) / L
def LGen.groups (g : LGen) (rank L : Nat) : Nat := ((g.extents rank).dropLast.foldl (· * ·) 1) * g.runGroups rank L

/-- The coordinates and the lanes of group number `n` of a box, innermost coordinate fastest. -/
def LGen.place (g : LGen) (rank L n : Nat) : List Nat × Nat :=
  let per := g.runGroups rank L
  let outer := (g.extents rank).dropLast
  let idx := (outer.foldr (fun d (acc : List Nat × Nat) => ((acc.2 % d) :: acc.1, acc.2 / d)) ([], n / per)).1
  let off := n % per * L
  let base := (g.c.toList.take rank).map (·.toNat)
  ((base.zip (idx ++ [off])).map fun (a, b) => a + b, min L ((g.extents rank).getLastD 1 - off))

/-- R134: the tag of a group. -/
def LGen.tag (g : LGen) (rank L n : Nat) : Ctl :=
  if n + 1 = g.groups rank L then .last else if (n + 1) % g.runGroups rank L = 0 then .sep else .data

def agenNo (b : W64) : Nat := field b 0 2
def agenOp' (b : W64) : Nat := field b 2 3

/-- The setting operations of R134. -/
def LGen.set (g : LGen) (op : Nat) (a : W64) : LGen :=
  let hi : W32 := a.extractLsb' 32 32
  let lo : W32 := a.extractLsb' 0 32
  match op with
  | 0 => { g with c := upd (upd g.c 0 hi) 1 lo }
  | 1 => { g with c := upd (upd g.c 2 hi) 3 lo }
  | 2 => { g with c := upd g.c 4 lo }
  | 3 => { g with n := (List.range 4).foldl (fun n i => upd n i (field a (16 * i) 16)) g.n }
  | _ => { g with n := upd g.n 4 (field a 0 16) }

/-- AGEN (R134): it writes no destination of its own; a predicate update tests SA (log 18). -/
def agenOp : Op where
  opc := 0xD5
  unit := .mem
  delay := 1
  res := fun l => l.sa
  mute := fun _ => true
  ready := fun l =>
    let b := l.i.b.data
    (l.leOf.gen (agenNo b)).mode == .idle &&
      (if agenOp' b = 5 then l.s.reqRoom l.t.k l.t.pos && fenceDone l.c l.e l.t.pos else true)
  trap := fun l =>
    let op := agenOp' l.i.b.data
    if op = 7 ∨ (op = 5 ∧ codeIsPort l.f.dst.toNat = false) then some l.illegal else none
  effect := fun l s =>
    let b := l.i.b.data
    let p := l.f.dst.toNat - 24
    let armed (m : GenMode) (g : LGen) : LGen :=
      { g with mode := m, group := 0, port := p, slot := l.t.slot, addr := l.i.a.data, tnt := l.i.tnt }
    let s := s.modCore l.t.k fun c => c.modLe l.t.pos fun x =>
      let g := x.gen (agenNo b)
      x.setGen (agenNo b) (match agenOp' b with
        | 5 => armed .load g
        | 6 => armed .store g
        | op => g.set op l.i.a.data)
    if agenOp' b = 5 then
      s.modElem l.t.k l.t.pos fun e =>
        { e.setPort p { e.port p with hold := some (.leGen (agenNo b)) } with fence := [], fenceGens := [] }
    else s
def execAgen (f : Fields) (s : State) : Host.Outcome State Fault Refusal := runOp agenOp f s

/-- The check of a generator's next group. -/
def State.genVerdict (s : State) (k : Key) (g : LGen) (tid : Nat) (a : Access) (watch : Bool) : Verdict :=
  match s.tensor? k.1 tid with
  | none => .violation
  | some t =>
    let p := g.place t.rank (lanesOf t.efmt) g.group
    s.check k.1 tid a (fun _ => p.1) (fun _ => p.2) watch

def Look.armed (l : Look) : LGen := l.leOf.gen (agenNo l.i.b.data)

/-- The checks of an ASTR (R135). DESIGN CHOICE (log 111): the tensor is the one that the slot of the ASTR is bound to. -/
def Look.astrVerdict (l : Look) : Verdict := l.s.genVerdict l.t.k l.armed l.tid .store (l.e.watches (.slot l.t.slot))

/-- ASTR (R135). -/
def astrOp : Op where
  opc := 0xD6
  unit := .mem
  delay := 1
  res := fun l => l.sa
  ready := fun l => l.armed.mode == .store && l.translated l.astrVerdict
  trap := fun l => l.accessTrap l.astrVerdict false
  access := true
  entries := fun _ => 1
  effect := fun l s =>
    match l.astrVerdict with
    | .ok t cs n =>
      (bufferStore l t cs n l.i.a.data s).modCore l.t.k fun c => c.modLe l.t.pos fun x =>
        let i := agenNo l.i.b.data
        let g := x.gen i
        x.setGen i (if g.group + 1 = g.groups t.rank (lanesOf t.efmt) then { g with mode := .idle, group := 0 }
          else { g with group := g.group + 1 })
    | _ => s
def execAstr (f : Fields) (s : State) : Host.Outcome State Fault Refusal := runOp astrOp f s

/-! ### Engines, messages, tiles (R137 to R141) -/

/-- R140: where an engine of a logical core stands: its quad for engines 1 and 2, its die for 3 and 4. -/
def State.engineUnit (s : State) (ctx core engine : Nat) : Nat :=
  match s.team? ctx with
  | some t => if engine ≤ 2 then t.physQuad (core / 2) else t.physQuad (core / 2) / Config.quadsPerDie
  | none => 0

/-- R242: 16 commands in each engine's queue; the die engines' depth is log 19. -/
def State.engineRoom (s : State) (engine unit : Nat) : Bool :=
  decide (((s.engines.get? (engine, unit)).getD []).length < 16)

/-- A command enters a queue with its record as it stands (R140). -/
def State.enqueueCmd (s : State) (engine unit : Nat) (c : Cmd) : State :=
  { s with
    engines := s.engines.put (engine, unit) (((s.engines.get? (engine, unit)).getD []) ++ [{ c with id := s.nextCmd }])
    nextCmd := s.nextCmd + 1 }

/-- R321: do the 64 bytes of a record lie within one lease? -/
def Team.oneLease (tm : Team) (t : Tensor) (off : Nat) : Bool :=
  let w := ebits t.efmt
  let first := off * 8 / w
  let last := (off * 8 + 512 + w - 1) / w
  tm.leases.any fun l => l.tid == t.tid && (t.tid != 0 || (l.r && l.w)) &&
    (List.range (last - first)).all fun i => inBox l.lo l.hi (t.coordsAt (first + i))

/-- R141, R321: is the record of an engine command good? -/
def State.recordOk (s : State) (ctx tid off : Nat) : Bool :=
  off % 64 == 0 && decide (tid < 0xF0000) &&
    (match s.tensor? ctx tid, s.team? ctx with
      | some t, some tm => t.r && t.w && decide (off + 64 ≤ t.bytes) && tm.oneLease t off
      | _, _ => false)

/-- R141: is this a logical core of the team? -/
def State.coreOk (s : State) (ctx core : Nat) : Bool :=
  match s.team? ctx with
  | some t => decide (core < t.cores)
  | none => false

def recTid (a : W64) : Nat := field a 32 20
def recOff (a : W64) : Nat := field a 0 32

/-- An engine issue (R140, R321). -/
def issueOp (opc engine : Nat) : Op where
  opc := opc
  unit := .mem
  delay := 1
  res := fun l => l.sa
  ready := fun l => l.s.engineRoom engine (l.s.engineUnit l.t.k.1 l.t.k.2 engine)
  trap := fun l =>
    let b := l.i.b.data
    if l.s.recordOk l.t.k.1 (recTid l.i.a.data) (recOff l.i.a.data) && (!b.getLsbD 20 || l.s.coreOk l.t.k.1 (field b 0 16))
    then none else some (leaseTrap 0x06 (recTid l.i.a.data) 0 l.i.a.data)
  stalls := fun _ => true
  access := true
  effect := fun l s =>
    let a := l.i.a.data
    let b := l.i.b.data
    let rec' := (s.recordAt l.t.k.1 (recTid a) (recOff a)).getD []
    let s := match s.tensor? l.t.k.1 (recTid a) with
      | some t => s.countBytes l.t.k t (recOff a) 64
      | none => s
    (s.count l.t.k 12 1).enqueueCmd engine (s.engineUnit l.t.k.1 l.t.k.2 engine)
      ⟨0, engine, l.t.k.1, l.t.k.2, rec', recTid a, recOff a, field b 24 8,
        if b.getLsbD 20 then some (field b 0 16, field b 16 4) else none, none, false, 0, 0, 0, none⟩

/-- XFER. -/
def xferOp : Op := issueOp 0xD7 1
def execXfer (f : Fields) (s : State) : Host.Outcome State Fault Refusal := runOp xferOp f s

/-- GRED. -/
def gredOp : Op := issueOp 0xD8 2
def execGred (f : Fields) (s : State) : Host.Outcome State Fault Refusal := runOp gredOp f s

/-- COLL. -/
def collOp : Op := issueOp 0xD9 4
def execColl (f : Fields) (s : State) : Host.Outcome State Fault Refusal := runOp collOp f s

/-- ROUTE. -/
def routeOp : Op := issueOp 0xDA 3
def execRoute (f : Fields) (s : State) : Host.Outcome State Fault Refusal := runOp routeOp f s

/-- MSND (R137). -/
def msndOp : Op where
  opc := 0xDB
  unit := .mem
  delay := 1
  res := fun l => l.sa
  access := true
  entries := fun _ => 1
  effect := fun l s => s.buffer l.t.k l.e.runId l.t.pos [.msnd l.i.a.data l.i.b.data]
def execMsnd (f : Fields) (s : State) : Host.Outcome State Fault Refusal := runOp msndOp f s

def mcoreOf (a : W64) : Nat := field a 0 16
def tileSlotOf (a : W64) : Nat := field a 16 6

/-- R141: the trap of a memory core beyond the team. -/
def Look.mcoreTrap (l : Look) (mc : Nat) : Option TrapInfo :=
  if l.s.coreOk l.t.k.1 mc then none else some (leaseTrap 0x06 0 0 l.i.a.data)

/-- TSTAT (R138): a request served at the memory core. -/
def tstatOp : Op where
  opc := 0xDC
  unit := .mem
  delay := 0
  res := fun l => l.sa
  ready := fun l => l.s.reqRoom l.t.k l.t.pos
  trap := fun l => l.mcoreTrap (mcoreOf l.i.a.data)
  access := true
  counter := some 10
  effect := fun l s =>
    let r := l.request .tstat l.i.tnt (toPort l) true
    let stopped := toPort l && l.leOf.stopped l.f.dst.toNat
    s.addReq l.t.k l.t.pos { r with
      tid := 0, coords := [mcoreOf l.i.a.data, tileSlotOf l.i.a.data], st := if stopped then .behind else .waiting }
def execTstat (f : Fields) (s : State) : Host.Outcome State Fault Refusal := runOp tstatOp f s

/-- R139: are further engine operations on a tile held for a MOWN that waits? -/
def State.flipWaits (s : State) (ctx : Nat) (place : Nat × Nat) : Bool :=
  ((s.mcore? (ctx, place.1)).map fun m => (m.tile place.2).flipWaits.isSome).getD false

/-- MOWN (R139); accesses after the flip see what was written before it (R259, R266). -/
def mownOp : Op where
  opc := 0xDD
  unit := .mem
  delay := 1
  res := fun l => l.sa
  ready := fun l =>
    let a := l.i.a.data
    let place := (mcoreOf a, tileSlotOf a)
    ((l.s.mcore? (l.t.k.1, place.1)).all fun m => !l.s.awayFor l.t.k false m) &&
    if a.getLsbD 24 then
      !(l.c.buf.any fun b => b.run == l.e.runId && match b.op with
        | .store tid _ _ _ => l.s.tileOf l.t.k.1 tid == some place
        | _ => false)
    else (l.s.flipWaits l.t.k.1 place) || !l.s.engineOnTile l.t.k.1 place.1 place.2
  trap := fun l =>
    let a := l.i.a.data
    match l.s.mcore? (l.t.k.1, mcoreOf a) with
    | some m => if (m.tile (tileSlotOf a)).system then some (leaseTrap 0x06 0 0 a) else l.mcoreTrap (mcoreOf a)
    | none => l.mcoreTrap (mcoreOf a)
  effect := fun l s =>
    let a := l.i.a.data
    (s.modMcore (l.t.k.1, mcoreOf a) fun m => m.modTile (tileSlotOf a) fun t =>
      { t with own := a.getLsbD 24, flipWaits := none }).dropTeamBeats l.t.k.1
def execMown (f : Fields) (s : State) : Host.Outcome State Fault Refusal := runOp mownOp f s

/-- R139: the tiles that MOWNs of a core would give back to the thread, were no engine operation outstanding on them. -/
def State.mownWaits (s : State) (k : Key) (c : CoreCtx) : List (Nat × Nat) :=
  let here (pos : Nat) (e : Elem) (i : Nat) : Option (Nat × Nat) :=
    let f := Fields.ofWord (e.slot i)
    if field (e.slot i) 30 8 ≠ 0xDD then none
    else
      let t : Site := ⟨k, pos, i, false, 0⟩
      let a := (lookAt mownOp f s t c e).i.a.data
      if a.getLsbD 24 = false ∧ slotStatus { mownOp with ready := fun _ => true } f s t = .ready then some (mcoreOf a, tileSlotOf a)
      else none
  c.elems.flatMap fun x => if kindAt x.1 = .le then (List.range 16).filterMap (here x.1 x.2) else []

/-- R139: from the moment at which a MOWN waits and no engine operation on its tile is outstanding, until it fires, the memory
core holds further ones from starting. -/
def State.holdEngines (s : State) (k : Key) : State :=
  match s.core? k with
  | none => s
  | some c =>
    let ws := s.mownWaits k c
    let held (mc : Nat) (x : Nat × Tile) : Nat × Tile :=
      let waits := ws.contains (mc, x.1)
      if waits = true ∧ x.2.flipWaits.isNone = true ∧ s.engineOnTile k.1 mc x.1 = false then
        (x.1, { x.2 with flipWaits := some k.2 })
      else if waits = false ∧ x.2.flipWaits = some k.2 then (x.1, { x.2 with flipWaits := none })
      else x
    { s with mcores := s.mcores.map fun (p : Key × MCoreCtx) =>
        (p.1, if p.1.1 = k.1 then { p.2 with tiles := p.2.tiles.map (held p.1.2) } else p.2) }

/-! ### Serving requests at the memory (R130, R203, R258, R259) -/

/-- Lanes of w bits as one word. -/
def packLanes (w : Nat) : List Nat → Nat
  | [] => 0
  | v :: vs => v % 2 ^ w + 2 ^ w * packLanes w vs

/-- The tokens of a served request from its lanes. -/
def LReq.tokens (r : LReq) (t : Tensor) (vals : List Nat) : List Token :=
  let L := lanesOf t.efmt
  let w := ebits t.efmt
  let tok (i : Nat) (c : Ctl) : Token := ⟨w64 (packLanes w ((vals.drop (i * L)).take L)), efmtFmt t.efmt, c, r.tnt⟩
  match r.kind with
  | .burst => (List.range 8).map fun i => tok i (if i = 7 then .last else .data)
  | _ => [tok 0 r.ctl]

/-- R203, R249: the buffer of a tile that a request reads, if it may be read now, and whether it is the current version. -/
def State.loadBuf (s : State) (k : Key) (c : CoreCtx) (r : LReq) (mc slot : Nat) : Option (Nat × Bool) :=
  match s.mcore? (k.1, mc) with
  | none => none
  | some m =>
    let t := m.tile slot
    if s.shutFor k (c.hasEnded r.run r.group) m then none
    else match (c.run? r.run).bind fun r => r.inputs.find? fun i => i.mcore == mc && i.slot == slot with
      | some i => if t.own then none else some (i.buf, false)
      | none => (t.readBuf k.2 r.run).map fun b => (b, b == t.cur)

/-- The 64 bytes of a block. -/
def State.blockBytes (s : State) (ctx : Nat) (x : Spot) : List Byte :=
  let y : Spot := match x with
    | .flat b => .flat (b / 512 * 512)
    | .hbm b => .hbm (b / 512 * 512)
    | .tile mc slot b => .tile mc slot (b / 512 * 512)
    | .none => .none
  leBytes 64 (s.readSpot ctx (fun _ t => t.cur) y 512)

/-- R259: the lanes of a load as the beat buffer gives them, where it holds them all. -/
def LE.beatLanes (x : LE) (spots : List Spot) (w : Nat) (fwd : List (Option Nat)) : Option (List Nat) :=
  (spots.zipIdx).mapM fun (sp, i) =>
    match fwd.getD i none with
    | some v => some v
    | none => (x.beats.find? fun b => b.1 == sp.block).map fun b => leNat b.2 / 2 ^ sp.bitIn % 2 ^ w

/-- R259: fetched blocks enter the beat buffer, or displace what it held of them. -/
def LE.keepBeats (x : LE) (keep : Bool) (bs : List ((Nat × Nat) × List Byte)) : LE :=
  bs.foldl (fun x b =>
    let rest := x.beats.filter fun y => y.1 != b.1
    let l := if keep then rest ++ [b] else rest
    { x with beats := l.drop (l.length - 4) }) x

/-- Marks a request served; `own`: nothing comes to the core for it. -/
def CoreCtx.serveReq (c : CoreCtx) (pos id : Nat) (own : Bool) (toks : List Token) : CoreCtx :=
  c.modLe pos fun x => { x with reqs := x.reqs.map fun r =>
    if r.id = id then { r with st := .served (toks.drop r.gone), own := own } else r }

/-- Does the own block's commit buffer give every lane of a load (R170)? -/
def LReq.forwarded (r : LReq) : Bool := decide (r.fwd.length = r.lanes) && r.fwd.all (·.isSome)

/-- R138: TSTAT's word. -/
def Tile.statWord (t : Tile) : W64 :=
  let st := match t.state with
    | .empty => 0 | .filling => 1 | .ready => 2 | .draining => 3 | .predicted => 4 | .verifying => 5
  w64 (st + 8 * b2n t.own + 16 * t.ret + 2 ^ 32 * t.version.toNat)

/-- Serves a load, by the beat buffer where `here.val` asks for it and R259 allows it; `here.val` also says whether
fetched blocks stay in the buffer (log 12). -/
def State.serveLoad (s : State) (k : Key) (c : CoreCtx) (pos : Nat) (r : LReq) (t : Tensor) (tm : Team) : State :=
  let spots := (List.range r.lanes).map fun i => tm.spot t (laneCoords r.coords i)
  let near := match t.loc with | .tile mc _ => tm.near k.2 pos mc | _ => false
  let go (buf : Nat) (cacheable : Bool) : State :=
    let mayKeep := cacheable && !near && fenceDone c (c.elemD pos) pos
    let fromBeats := if mayKeep && !r.tnt && s.here.val % 2 == 1 then (c.le pos).beatLanes spots (ebits t.efmt) r.fwd else none
    let s := s.countHits k.1 r.hits
    match fromBeats with
    | some vals => s.modCore k fun c => c.serveReq pos r.id true (r.tokens t vals)
    | none =>
      let vals := s.readLanes k.1 t r.coords r.lanes (fun _ _ => buf) r.fwd
      let s' := s.modCore k fun c => c.serveReq pos r.id r.forwarded (r.tokens t vals)
      let blocks := (spots.map fun x => (x.block, s.blockBytes k.1 x)).eraseDups
      let s' := if mayKeep then s'.modCore k fun c => c.modLe pos fun x => x.keepBeats (s.here.val / 2 % 2 == 0) blocks else s'
      let s' := match t.loc with | .hbm _ => s'.count k 22 blocks.length | _ => s'
      if near then s'.count k 11 1 else s'.count k 12 1
  match t.loc with
  | .tile mc slot => match s.loadBuf k c r mc slot with
    | some (b, cur) => go b cur
    | none => s
  | _ => go 0 true

/-- R228, R229: does a request read the memory core that its LE faces, in a time that Table 12.1 fixes? -/
def State.nearReq (s : State) (k : Key) (pos : Nat) (r : LReq) : Bool :=
  match s.team? k.1 with
  | none => false
  | some tm =>
    if r.kind == .tstat then tm.near k.2 pos (r.coords.getD 0 0)
    else match s.tensor? k.1 r.tid with
      | some t => (match t.loc with | .tile mc _ => tm.near k.2 pos mc | _ => false)
      | none => false

/-- LOAD_REQUEST (R203, R258): request `here.idx` of the LE at `here.pos` performs at its memory, after earlier requests
of the LE for the same location (R260 case 1), once the tile may be read. What no rule fixes of an access over the die network
stands in `here.val` (`Config.path`, log 1): with bit 2 set it does not perform yet. -/
def execLoadRequest (s : State) : Host.Outcome State Fault Refusal :=
  s.onCore fun c =>
    let pos := s.here.pos
    let reqs := (c.le pos).reqs
    match reqs.find? fun r => r.id == s.here.idx with
    | none => s
    | some r =>
      let earlier := (reqs.takeWhile fun q => q.id != r.id).any fun q =>
        q.unserved && s.sameLocation s.here.ctx r q
      let far := s.here.val / 4 % 2 = 1 ∧ s.nearReq s.key pos r = false
      if r.st ≠ .waiting ∨ earlier = true ∨ far then s
      else if r.kind = .tstat then
        match s.mcore? (s.here.ctx, r.coords.getD 0 0) with
        | some m =>
          if s.awayFor s.key (c.hasEnded r.run r.group) m then s
          else s.modCore s.key fun c => c.serveReq pos r.id false [⟨(m.tile (r.coords.getD 1 0)).statWord,
            .i64, r.ctl, r.tnt⟩]
        | none => s
      else match s.tensor? s.here.ctx r.tid, s.team? s.here.ctx with
        | some t, some tm => s.serveLoad s.key c pos r t tm
        | _, _ => s

/-! ### Replies (R130, R136) -/

/-- A late predicate update (R26, R28). -/
def Elem.landPred (e : Elem) (pu pn : Nat) (v : W64) (t : Bool) : Elem :=
  if pu = 0 then e else e.setPred pn ⟨resultBit pu v, t, false⟩

/-- The class of a request's destination: ports 0 to 3, registers 4, none 5. -/
def LReq.cls (r : LReq) : Nat := if codeIsPort r.dst then r.dst - 24 else if r.dst ≤ 11 then 4 else 5

/-- R136: a reissue of the front request of a port keeps first call on a credit that comes free. -/
def CoreCtx.topUp (c : CoreCtx) (pos port : Nat) : CoreCtx :=
  let lacks (r : LReq) : Bool := r.dst == 24 + port && !r.held && (match r.kind with
    | .burst => false | .stream _ _ => false | _ => true)
  match (c.le pos).reqs.find? lacks with
  | some r =>
    if ((c.elemD pos).port port).writable then
      (c.holdCredit pos port).modLe pos fun x =>
        { x with reqs := x.reqs.map fun q => if q.id = r.id then { q with held := true } else q }
    else c
  | none => c

/-- R15: the NULL token of a fault record. -/
def nullToken (code rec' : Nat) : Token := ⟨w64 (code * 2 ^ 56 + rec'), .raw, .null, false⟩

/-- A request that has delivered everything leaves the table; a stream or burst frees its port at its end. -/
def CoreCtx.endReq (c : CoreCtx) (pos : Nat) (r : LReq) : CoreCtx :=
  let c := c.modLe pos fun x => { x with reqs := x.reqs.filter fun q => q.id != r.id }
  match r.kind with
  | .burst => c.endHold pos (r.dst - 24) r.run .burst
  | .stream g true => c.endHold pos (r.dst - 24) r.run (.leGen g)
  | _ => c

/-- Is a context in the foreground of its core (R171)? -/
def State.foreground (s : State) (k : Key) : Bool :=
  match s.physCore? k with
  | some pc => (s.physOf pc).fg == some k.1
  | none => false

def isStream (k : ReqKind) : Bool := match k with | .stream _ _ => true | _ => false

/-- R159: what the delivery of a request's next token costs: nothing where nothing arrives at the core for it. -/
def LReq.cost (r : LReq) : Nat := if r.kind = .sent ∨ r.own = true then 0 else 1

/-- One delivery of the front request of a class; `held`: a reply that a frozen core has held lands whatever the window
allows, and is charged with it (R159, R303, log 106). -/
def State.deliverReply (s : State) (k : Key) (c : CoreCtx) (pos : Nat) (r : LReq) (held : Bool) : State :=
  let port := r.dst - 24
  let may := r.left == 0 && (held || c.admits r.cost)
  let cost := r.cost
  match r.st with
  | .served (t :: ts) =>
    if !may then s
    else if r.dst ≤ 11 then
      s.modCore k fun c => ((c.charge cost).endReq pos r).modElem pos fun e =>
        (e.setReg r.dst ⟨t.data, t.fmt, t.tnt, true, false⟩).landPred r.pu r.pn t.data t.tnt
    else if codeIsPort r.dst then
      if r.held || ((c.elemD pos).port port).writable then
        (s.modCore k fun c =>
          let c := (c.charge cost).send pos port r.run r.held t
          let c := c.modElem pos fun e => e.landPred r.pu r.pn t.data t.tnt
          if ts.isEmpty then c.endReq pos r
          else c.modLe pos fun x => { x with reqs := x.reqs.map fun q =>
            if q.id = r.id then { q with st := .served ts, held := false, gone := q.gone + 1 } else q }).count k 23 1
      else s
    else s.modCore k fun c => ((c.charge cost).endReq pos r).modElem pos fun e => e.landPred r.pu r.pn t.data t.tnt
  | .served [] => s.modCore k fun c => c.endReq pos r
  | .faulted i false =>
    if r.held || ((c.elemD pos).port port).writable then
      (s.modCore k fun c =>
        let c := c.send pos port r.run r.held (nullToken 0x05 i)
        let c := c.modLe pos fun x => { x with reqs := x.reqs.map fun q =>
          if q.id = r.id then { q with st := .faulted i true, held := false } else q }
        c.topUp pos port).count k 23 1
    else s
  | _ => s

/-- LE_REPLY (R130): the front request of class `here.idx` of the LE at `here.pos` delivers: results of one port and of
the registers go out in fire order; a frozen core holds them (R303). -/
def execLeReply (s : State) : Host.Outcome State Fault Refusal :=
  s.onCore fun c =>
    if c.frozen then s
    else match (c.le s.here.pos).reqs.find? fun r => r.cls == s.here.idx with
      | some r => s.deliverReply s.key c s.here.pos r false
      | none => s

/-! ### Load streams (R134) -/

/-- The trap of a stream token or of a reissued request (R296, R298): at the LE, with the slot and the address operand
of the fire that began it. -/
def State.lateTrap (s : State) (k : Key) (pos slot tid binding : Nat) (a : W64) (x : LateAccess) (v : Verdict) : State :=
  match v with
  | .ok _ _ _ => s
  | .violation => s.elementTrap k pos slot (leaseTrap 0x06 tid binding a) false
  | .watch i =>
    (s.elementTrap k pos slot (s.watchInfo k.1 i tid a) false).modElem k pos fun e => { e with watched := e.watched.dropLast ++ [x] }
  | .miss _ _ => s.elementTrap k pos slot (leaseTrap 0x05 tid binding a) false

/-- LE_STREAM_TOKEN (R134, R136, R296): generator `here.idx` of the LE at `here.pos` forms its next request; a failing
check is deferred where the binding permits it and traps otherwise, and the stream stays at that token. -/
def execLeStreamToken (s : State) : Host.Outcome State Fault Refusal :=
  s.onCore fun c =>
    let k := s.key
    let pos := s.here.pos
    let x := c.le pos
    let g := x.gen s.here.idx
    let e := c.elemD pos
    let binding := field (at' e.cfg.lslots g.slot 0x10#9) 0 2
    let tid := at' e.cfg.tids binding 0
    let dst := 24 + g.port
    if g.mode ≠ .load ∨ c.frozen = true ∨ s.foreground k = false ∨ e.held.isSome = true ∨ e.run.isNone = true ∨ x.stopped dst = true ∨
        s.reqRoom k pos = false then s
    else match s.tensor? k.1 tid with
      | none => s.elementTrap k pos g.slot (leaseTrap 0x06 tid binding g.addr) false
      | some t =>
        let L := lanesOf t.efmt
        if g.groups t.rank L ≤ g.group then s
        else
          let run := e.runId
          let last := g.group + 1 == g.groups t.rank L
          let (full, n) := g.place t.rank L g.group
          let r : LReq := ⟨0, .stream s.here.idx last, g.slot, binding, tid, full, t.accessed full n, dst, g.tnt,
            g.tag t.rank L g.group, 0, 0, g.addr, run, c.groupOf run, [], false, [], 0, .waiting, 0, false⟩
          let next (s : State) : State :=
            (s.modCore k fun c => (c.modLe pos fun x => x.setGen s.here.idx
              { x.gen s.here.idx with group := g.group + 1, mode := if last then .ending else .load }).modElem
                pos fun e => e.passWatch (.gen s.here.idx)).count k 10 1
          let v := s.genVerdict k g tid .load (e.watches (.gen s.here.idx))
          match v with
          | .ok t cs n =>
            if !s.xlatHit k t cs n then s
            else
              let r := { r with fwd := c.forward run t cs n, hits := s.hits k.1 t .load cs n, left := s.readWait k pos t }
              (next (s.addReq k pos r)).xlatUse k t cs n
          | .miss _ cs =>
            if e.cfg.defer.getLsbD binding then
              match s.freeFault k.1 with
              | some i => next ((s.recordFault k i binding tid pos dst cs).addReq k pos { r with st := .faulted i false })
              | none => s.lateTrap k pos g.slot tid binding g.addr (.gen s.here.idx) v
            else s.lateTrap k pos g.slot tid binding g.addr (.gen s.here.idx) v
          | v => s.lateTrap k pos g.slot tid binding g.addr (.gen s.here.idx) v

/-! ### Deferred faults (R136, R298) -/

/-- Removes the NULL token of a record from the receivers of a port, and gives the sender its credits back (R136). -/
def CoreCtx.removeNull (c : CoreCtx) (pos port rec' : Nat) : CoreCtx :=
  let t := nullToken 0x05 rec'
  let rs := ((c.elemD pos).port port).recvs
  (rs.zipIdx).foldl (fun c (r, i) =>
    let credit (c : CoreCtx) : CoreCtx := c.modElem pos fun e =>
      e.setPort port { e.port port with recvs := modAt (fun x => { x with credits := x.credits + 1 }) (e.port port).recvs i }
    if ((c.elemD r.pos).queue r.q).contains t then
      credit (c.modElem r.pos fun e => e.setQueue r.q ((e.queue r.q).erase t))
    else
      let isIt (f : Flight) : Bool := f.cargo == .token r.pos r.q t
      if c.flights.any isIt then credit { c with flights := c.flights.eraseP isIt } else c) c

/-- R298: reissues one request that waited behind a fault: it is checked afresh. `true`: go on with the next. -/
def State.reissueOne (s : State) (k : Key) (pos : Nat) (r : LReq) : State × Bool :=
  let set (s : State) (f : LReq → LReq) : State := s.modCore k fun c => c.modLe pos fun x =>
    { x with reqs := x.reqs.map fun q => if q.id = r.id then f q else q }
  match s.core? k with
  | none => (s, false)
  | some c =>
    let e := c.elemD pos
    if r.kind = .tstat then (set s fun q => { q with st := .waiting }, true)
    else
      let v := s.check k.1 r.tid .load (fun _ => r.coords) (fun _ => r.lanes) (e.watches (.req r.id))
      match v with
      | .ok t cs n =>
        if !s.xlatHit k t cs n then (s, false)
        else
          let hits := s.hits k.1 t .load cs n
          let s := set s fun q =>
            { q with st := .waiting, fwd := c.forward r.run t cs n, hits := hits, left := s.readWait k pos t }
          ((s.xlatUse k t cs n).modElem k pos fun e => e.passWatch (.req r.id), true)
      | .miss _ cs =>
        if e.cfg.defer.getLsbD r.binding then
          match s.freeFault k.1 with
          | some i => (set (s.recordFault k i r.binding r.tid pos r.dst cs) fun q => { q with st := .faulted i false }, false)
          | none => (s.lateTrap k pos r.slot r.tid r.binding r.addr (.req r.id) v, false)
        else (s.lateTrap k pos r.slot r.tid r.binding r.addr (.req r.id) v, false)
      | v => (s.lateTrap k pos r.slot r.tid r.binding r.addr (.req r.id) v, false)

def State.reissueAll (s : State) (k : Key) (pos : Nat) : List LReq → State
  | [] => s
  | r :: rs =>
    if !s.reqRoom k pos then s
    else match s.reissueOne k pos r with
      | (s, true) => s.reissueAll k pos rs
      | (s, false) => s

/-- FAULT_REISSUE (R136, R298): on port `here.idx` of the LE at `here.pos`, once the record of the standing fault is
resolved: its NULL token leaves the receiving queue if it is still there, the record is freed, and the requests from the
faulting one on are reissued in order. -/
def execFaultReissue (s : State) : Host.Outcome State Fault Refusal :=
  s.onCore fun c =>
    let k := s.key
    let pos := s.here.pos
    let mine (r : LReq) : Bool := r.dst == 24 + s.here.idx
    if c.frozen then s
    else
      let reqs := (c.le pos).reqs.filter mine
      let resolved (i : Nat) : Bool := (((s.team? k.1).bind fun t => t.faults.get? i).map (·.resolved)).getD true
      let s := match reqs.find? fun r => (match r.st with | .faulted _ true => true | _ => false) with
        | some r => match r.st with
          | .faulted i _ =>
            if resolved i then
              (s.modTeam k.1 fun t => { t with faults := t.faults.del i }).modCore k fun c =>
                let c := c.removeNull pos s.here.idx i
                let c := c.modLe pos fun x =>
                  { x with reqs := x.reqs.map fun (q : LReq) => if q.id = r.id then { q with st := .behind } else q }
                c.topUp pos s.here.idx
            else s
          | _ => s
        | none => s
      match s.core? k with
      | none => s
      | some c =>
        let reqs := (c.le pos).reqs.filter mine
        if reqs.any fun r => (match r.st with | .faulted _ _ => true | _ => false) then s
        else s.reissueAll k pos (reqs.filter fun (r : LReq) => r.st == .behind)

end Sys2Proof.Machine
end

