-- ==== Sys2Proof/Machine/Common.lean ====
section
/-! DEFINITION. The common operations of every element but BARS (R142 to R155). -/

namespace Sys2Proof.Machine

/-- A common operation without a destination: its predicate update tests SA (R142). -/
def commonOp (opc : Nat) : Op where
  opc := opc
  unit := .common
  delay := 1
  res := fun l => l.sa

/-- NOP: the tested value is 0 (R142). -/
def nopOp : Op := { commonOp 0xE0 with res := fun l => l.int 0#64 }
def execNop (f : Fields) (s : State) : Host.Outcome State Fault Refusal := runOp nopOp f s

/-- HALT (R143). -/
def haltOp : Op :=
  { commonOp 0xE1 with
    res := fun l => l.int 0#64
    effect := fun l s => s.modElem l.t.k l.t.pos fun e => { e with halted := true } }
def execHalt (f : Fields) (s : State) : Host.Outcome State Fault Refusal := runOp haltOp f s

/-- COMMIT (R144): the open group ends with the cycle. -/
def commitOp : Op :=
  { commonOp 0xE2 with
    res := fun l => l.int 0#64
    ready := fun l => match l.c.run? l.e.runId with
      | some r => r.ended.isEmpty && !r.closing
      | none => true
    effect := fun l s => s.modCore l.t.k fun c => c.modRun l.e.runId fun r => { r with closing := true } }
def execCommit (f : Fields) (s : State) : Host.Outcome State Fault Refusal := runOp commitOp f s

/-- TRAP (R145): always trap-ready; its fire comes with the resumption (R309). -/
def trapOp : Op := { commonOp 0xE3 with trap := fun l => some ⟨0x09, l.i.a.data, 0#64⟩ }
def execTrap (f : Fields) (s : State) : Host.Outcome State Fault Refusal := runOp trapOp f s

/-- Is a context a fixed-timing one (R223)? -/
def State.fixedTiming (s : State) (ctx : Nat) : Bool := ((s.team? ctx).map (·.launch.ft)).getD false

/-- WAITC (R146). -/
def waitcOp : Op :=
  { commonOp 0xE4 with
    trap := fun l => if l.s.fixedTiming l.t.k.1 then none else some l.illegal
    modeTrap := fun l => if l.s.fixedTiming l.t.k.1 then none else some l.illegal
    stalls := fun _ => true
    effect := fun l s => s.modElem l.t.k l.t.pos fun e => { e with waitc := field l.i.a.data 0 32 } }
def execWaitc (f : Fields) (s : State) : Host.Outcome State Fault Refusal := runOp waitcOp f s

/-- TIME (R147). -/
def timeOp : Op := { commonOp 0xE5 with res := fun l => l.int (w64 l.s.time) }
def execTime (f : Fields) (s : State) : Host.Outcome State Fault Refusal := runOp timeOp f s

/-- CYC (R147). -/
def cycOp : Op := { commonOp 0xE6 with res := fun l => l.int l.c.cyc }
def execCyc (f : Fields) (s : State) : Host.Outcome State Fault Refusal := runOp cycOp f s

/-- R148: the value of an ID selector. -/
def idValue (l : Look) : Nat :=
  let sel := field l.i.a.data 0 8
  let run := l.c.run? l.e.runId
  let team := l.s.team? l.t.k.1
  match sel with
  | 0x00 => eidOf l.t.k.2 l.t.pos
  | 0x01 => l.t.k.2
  | 0x02 => (team.map (·.launch.quads)).getD 0
  | 0x03 => l.t.k.1
  | 0x04 => (team.map (·.launch.pri)).getD 0
  | 0x05 => b2n (l.s.fixedTiming l.t.k.1)
  | 0x06 | 0x07 => l.e.flags.word
  | 0x08 => (run.map (·.status.groups)).getD 0
  | 0x09 => (run.map fun r => r.status.variant + 4 * r.unroll).getD 0
  | 0x0A => l.c.walker.cw.toNat
  | 0x0B => if l.s.fixedTiming l.t.k.1 then l.c.epoch else 0
  | n =>
    if 0x20 ≤ n ∧ n ≤ 0x2F then (team.map fun t => (at' t.watch (n - 0x20) WatchPoint.off).count.toNat).getD 0 else 0

/-- ID (R148): selector 0x07 also clears flags (R42). -/
def idOp : Op :=
  { commonOp 0xE7 with
    res := fun l => l.int (w64 (idValue l))
    effect := fun l s =>
      if field l.i.a.data 0 8 = 7 then
        s.modElem l.t.k l.t.pos fun e => e.clearFlags (Flags.ofNat (field l.i.a.data 8 7))
      else s }
def execId (f : Fields) (s : State) : Host.Outcome State Fault Refusal := runOp idOp f s

/-! ### Fences (R149) -/

def scopeOf (a : W64) : Nat := field a 0 3
def semAcquire (a : W64) : Bool := field a 3 2 != 2
def semRelease (a : W64) : Bool := field a 3 2 != 1

/-- Have the earlier loads and atomics of an element performed? -/
def Look.allPerformed (l : Look) : Bool :=
  kindAt l.t.pos != .le ||
    (!(l.leOf.reqs.any LReq.unserved) && (List.range 4).all fun g => (l.leOf.gen g).mode != .load)

/-- An acquire notes the loads it waits for, and drops the beat buffer of its LE (R149, R259). -/
def acquireEffect (l : Look) (s : State) : State :=
  if kindAt l.t.pos = .le then
    let x := l.leOf
    (s.modElem l.t.k l.t.pos fun e =>
      { e with
        fence := (x.reqs.filter LReq.unserved).map (·.id)
        fenceGens := (List.range 4).filter fun g => (x.gen g).mode == .load }).modCore l.t.k fun c =>
      c.modLe l.t.pos fun x => { x with beats := [] }
  else s

/-- FENCE (R149). -/
def fenceOp : Op :=
  { commonOp 0xE8 with
    ready := fun l => !semRelease l.i.a.data || l.allPerformed
    trap := fun l => if 6 ≤ scopeOf l.i.a.data then some l.illegal else none
    effect := fun l s => if semAcquire l.i.a.data then acquireEffect l s else s }
def execFence (f : Fields) (s : State) : Host.Outcome State Fault Refusal := runOp fenceOp f s

/-- CWSET (R151): the walker sees the new word from the next cycle on. -/
def cwsetOp : Op :=
  { commonOp 0xEA with
    stalls := fun _ => true
    effect := fun l s => s.modCore l.t.k fun c => c.modWalker fun w =>
      { w with cwsets := w.cwsets ++ [(l.i.a.data, l.i.b.data)] } }
def execCwset (f : Fields) (s : State) : Host.Outcome State Fault Refusal := runOp cwsetOp f s

/-! ### Watchpoints (R152) -/

/-- The record that a WATCH reads, if it may be read; a tile must be READY and thread-owned. -/
def Look.watchRecord (l : Look) : Option (List W64) :=
  if recOff l.i.a.data % 64 ≠ 0 then none else l.s.recordAt l.t.k.1 (recTid l.i.a.data) (recOff l.i.a.data)

def Look.recordReadable (l : Look) : Bool :=
  match l.s.tileOf l.t.k.1 (recTid l.i.a.data) with
  | some (mc, slot) => match l.s.mcore? (l.t.k.1, mc) with
    | some m => let t := m.tile slot; t.state == .ready && !t.own && !m.shut
    | none => false
  | none => true

/-- The watchpoint of a record. -/
def watchOf (r : List W64) : WatchPoint :=
  let w := wordAt r 0
  ⟨true, field w 0 20, field w 20 2, w.getLsbD 22, (List.range 5).map fun i => half r (8 + 4 * i),
    (List.range 5).map fun i => half r (28 + 4 * i), 0#32⟩

/-- WATCH (R152); disabling a watchpoint leaves its hit count. -/
def watchOp : Op :=
  { commonOp 0xEB with
    access := true
    ready := fun l => !l.i.b.data.getLsbD 4 || l.watchRecord.isNone || l.recordReadable
    trap := fun l =>
      if l.i.b.data.getLsbD 4 && l.watchRecord.isNone then some (leaseTrap 0x06 (recTid l.i.a.data) 0 l.i.a.data) else none
    effect := fun l s =>
      let i := field l.i.b.data 0 4
      let new (w : WatchPoint) : WatchPoint :=
        if l.i.b.data.getLsbD 4 then watchOf (l.watchRecord.getD []) else { WatchPoint.off with count := w.count }
      let s := match l.s.tensor? l.t.k.1 (recTid l.i.a.data) with
        | some t => if l.i.b.data.getLsbD 4 then s.countBytes l.t.k t (recOff l.i.a.data) 64 else s
        | none => s
      s.modTeam l.t.k.1 fun t => { t with watch := upd t.watch i (new (at' t.watch i WatchPoint.off)) } }
def execWatch (f : Fields) (s : State) : Host.Outcome State Fault Refusal := runOp watchOp f s

/-! ### Slot rewrites (R59, R153) -/

def cfgwPos (b : W64) : Nat := field b 0 6
def cfgwSlot (b : W64) : Nat := field b 6 4

/-- R59, R153: a target outside the region, or a word that fails the single-slot checks. -/
def cfgwTrap (l : Look) : Option TrapInfo :=
  let pos := cfgwPos l.i.b.data
  match l.c.run? l.e.runId with
  | none => some l.illegal
  | some r =>
    if !r.elems.contains pos then some l.illegal
    else match slotFail (kindAt pos) (r.commitPos == pos) l.i.a.data with
      | some x => some ⟨0x01, slotRecord r.status.variant pos (cfgwSlot l.i.b.data) x, l.i.a.data⟩
      | none => none

/-- CFGW (R153): the word takes its place at the end of the fire cycle. -/
def cfgwOp : Op :=
  { commonOp 0xEC with
    trap := cfgwTrap
    effect := fun l s => s.modCore l.t.k fun c =>
      c.fly 0 l.e.runId (.cfgw (cfgwPos l.i.b.data) (cfgwSlot l.i.b.data) l.i.a.data) }
def execCfgw (f : Fields) (s : State) : Host.Outcome State Fault Refusal := runOp cfgwOp f s

/-- ARRV (R154). -/
def arrvOp : Op :=
  { commonOp 0xED with
    access := true
    trap := fun l => l.mcoreTrap (field l.i.a.data 0 16)
    entries := fun _ => 1
    effect := fun l s =>
      s.buffer l.t.k l.e.runId l.t.pos [.arrv (field l.i.a.data 0 16) (field l.i.a.data 16 4) (l.i.b.data.extractLsb' 0 32)] }
def execArrv (f : Fields) (s : State) : Host.Outcome State Fault Refusal := runOp arrvOp f s

/-- EVT (R155). -/
def evtOp : Op :=
  { commonOp 0xEE with
    stalls := fun _ => true
    trap := fun l => if field l.i.a.data 0 5 < 24 then some l.illegal else none
    effect := fun l s => s.modCore l.t.k fun c =>
      let i := field l.i.a.data 0 5
      { c with evc := upd c.evc i (at' c.evc i 0#64 + w64 (field l.i.a.data 16 16)) } }
def execEvt (f : Fields) (s : State) : Host.Outcome State Fault Refusal := runOp evtOp f s

end Sys2Proof.Machine
end

