-- ==== Sys2Proof/Machine/Barrier.lean ====
section
/-! DEFINITION. Barriers (R150, R243 to R246): arrivals of elements and walkers, and completion. -/

namespace Sys2Proof.Machine

/-! ### Scope instances and participants (R243, Table 15.1) -/

/-- The instance of a scope in which a core (and block run) stands. -/
def Team.scopeUnit (t : Team) (scope core run : Nat) : Nat × Nat :=
  match scope with
  | 1 => (core, run)
  | 2 => (core / 2, 0)
  | 3 => (t.groups.getD (core / 2) 0, 0)
  | _ => (0, 0)

/-- The cores that take part in a barrier of quad scope or wider. -/
def Team.participants (t : Team) (scope : Nat) (unit : Nat × Nat) : List Nat :=
  (List.range t.cores).filter fun c =>
    match scope with
    | 2 => c / 2 == unit.1
    | 3 => t.groups.getD (c / 2) 0 == unit.1
    | _ => true

/-- R244: is an element enrolled for barrier `num` of a scope: a valid BARS slot with constants that name them? -/
def Elem.enrolled (e : Elem) (scope num : Nat) : Bool :=
  e.slots.toList.any fun w =>
    let f := Fields.ofWord w
    let k (c : BitVec 5) : W64 := (at' e.consts (c.toNat - 16) (0#64, .i64)).1
    w.getLsbD 1 && field w 30 8 == 0xE9 && decide (16 ≤ f.sa.toNat ∧ f.sa.toNat ≤ 19) &&
      decide (16 ≤ f.sb.toNat ∧ f.sb.toNat ≤ 19) && field (k f.sa) 0 3 == scope && field (k f.sb) 0 6 == num

/-- The enrolled elements of a block run. -/
def CoreCtx.enrolledOf (c : CoreCtx) (run scope num : Nat) : List Nat :=
  (c.elems.filter fun (_, e) => e.run == some run && e.enrolled scope num).map (·.1)

def Barrier.is (b : Barrier) (scope : Nat) (unit : Nat × Nat) (num : Nat) : Bool :=
  b.scope == scope && b.unit == unit && b.num == num

def Team.bar? (t : Team) (scope : Nat) (unit : Nat × Nat) (num : Nat) : Option Barrier :=
  t.bars.find? fun b => b.is scope unit num

/-- Changes a barrier; one that nothing has reached yet stands at generation 0. -/
def Team.modBar (t : Team) (scope : Nat) (unit : Nat × Nat) (num : Nat) (f : Barrier → Barrier) : Team :=
  if (t.bar? scope unit num).isSome then { t with bars := t.bars.map fun b => if b.is scope unit num then f b else b }
  else { t with bars := t.bars ++ [f ⟨scope, unit, num, 0, [], [], false⟩] }

/-! ### Arrivals -/

/-- R244: once every enrolled element of a run has arrived in the generation, its core has. -/
def Barrier.fill (b : Barrier) (core run : Nat) (enrolled : List Nat) : Barrier :=
  let here' (p : Nat) : Bool := b.arrived.any fun x => x.core == core && x.run == run && x.pos == p
  if !enrolled.isEmpty && enrolled.all here' && !b.full.contains (core, some run) then
    { b with full := b.full ++ [(core, some run)] }
  else b

/-- An element's arrival; with the last enrolled element of its run the core has arrived (R244). -/
def Barrier.arrive (b : Barrier) (enrolled : List Nat) (a : Arrival) : Barrier :=
  { b with arrived := b.arrived ++ [a] }.fill a.core a.run enrolled

/-- A walker's arrival (R193). -/
def Barrier.arriveWalker (b : Barrier) (core : Nat) (acq : Bool) : Barrier :=
  { b with arrived := b.arrived ++ [⟨core, 64, 0, 0, false, 0, acq, true⟩], full := b.full ++ [(core, none)] }

/-- R245: has this element an arrival that has not been counted? -/
def Team.hasArrived (t : Team) (scope : Nat) (unit : Nat × Nat) (num core pos run : Nat) : Bool :=
  match t.bar? scope unit num with
  | some b => b.arrived.any fun a => a.core == core && a.pos == pos && a.run == run
  | none => false

def barNum (b : W64) : Nat := field b 0 6

/-- The team's barrier as a BARS names it. -/
def Look.barUnit (l : Look) : Nat × Nat :=
  match l.s.team? l.t.k.1 with
  | some t => t.scopeUnit (scopeOf l.i.a.data) l.t.k.2 l.e.runId
  | none => (0, 0)

/-- BARS (R150, R244 to R246); lane scope completes with its fire. -/
def barsOp : Op :=
  { commonOp 0xE9 with
    delay := 0
    res := fun l => l.int 1#64
    now := fun l => scopeOf l.i.a.data == 0
    stalls := fun l => decide (3 ≤ scopeOf l.i.a.data)
    access := true
    ready := fun l =>
      (!semRelease l.i.a.data || l.allPerformed) &&
        (match l.s.team? l.t.k.1 with
          | some t => !t.hasArrived (scopeOf l.i.a.data) l.barUnit (barNum l.i.b.data) l.t.k.2 l.t.pos l.e.runId
          | none => true)
    trap := fun l =>
      let sc := scopeOf l.i.a.data
      if 6 ≤ sc ∨ (sc = 1 ∧ l.e.enrolled 1 (barNum l.i.b.data) = false) then some l.illegal else none
    effect := fun l s =>
      let a := l.i.a.data
      let sc := scopeOf a
      if sc = 0 then (if semAcquire a then acquireEffect l s else s)
      else
        let late := updateByResult l.f
        let x : Arrival := ⟨l.t.k.2, l.t.pos, if late then l.f.pu.toNat else 0, l.f.pn.toNat, l.i.tnt, l.e.runId,
          semAcquire a, !l.c.specRun l.e.run⟩
        s.modTeam l.t.k.1 fun t => t.modBar sc l.barUnit (barNum l.i.b.data) fun b =>
          b.arrive (l.c.enrolledOf l.e.runId sc (barNum l.i.b.data)) x }
def execBars (f : Fields) (s : State) : Host.Outcome State Fault Refusal := runOp barsOp f s

/-! ### Completion (R245, R246) -/

/-- The arrivals that complete a generation: of each core the run or walker that brought it first. -/
def Barrier.counted (b : Barrier) (cores : List Nat) : List (Nat × Option Nat) :=
  cores.filterMap fun c => b.full.find? fun f => f.1 == c

def Barrier.counts (b : Barrier) (cores : List Nat) (a : Arrival) : Bool :=
  (b.counted cores).contains (a.core, if a.pos = 64 then none else some a.run)

/-- R245: does an arrival belong to a second arrival of its core, which is held for the next generation? -/
def Barrier.holds (b : Barrier) (cores : List Nat) (a : Arrival) : Bool :=
  b.scope != 1 && b.full.contains (a.core, if a.pos = 64 then none else some a.run) && !b.counts cores a

/-- Has every participant arrived, and is no arrival in the generation of an instance that is not validated (R245, R246)? -/
def Team.barDone (t : Team) (enrolled : List Nat) (b : Barrier) : Bool :=
  if b.scope = 1 then
    !enrolled.isEmpty && (enrolled.all fun p => b.arrived.any fun a => a.pos == p) && b.arrived.all (·.valid)
  else
    let cores := t.participants b.scope b.unit
    (cores.all fun c => b.full.any fun f => f.1 == c) && b.arrived.all fun a => b.holds cores a || a.valid

/-- R244: the barrier with the cores that have arrived by the slots as they now stand: a rewrite may take the last element
that had not arrived out of an enrolled set. -/
def State.barNow (s : State) (ctx : Nat) (b : Barrier) : Barrier :=
  if b.scope = 1 then b
  else
    (b.arrived.filter fun a => a.pos != 64).foldl (fun b' a => match s.core? (ctx, a.core) with
      | some c => b'.fill a.core a.run (c.enrolledOf a.run b.scope b.num)
      | none => b') b

/-- What a completion does at one arrival: its predicate, and the acquire half (R149, R245). -/
def CoreCtx.barLand (c : CoreCtx) (a : Arrival) : CoreCtx :=
  if a.pos = 64 then c
  else
    let c := if ((c.elemD a.pos).run == some a.run) then
        c.modElem a.pos fun e => e.landPred a.pu a.pn 1#64 a.tnt else c
    if a.acq && kindAt a.pos == .le then
      let x := c.le a.pos
      (c.modElem a.pos fun e => { e with
        fence := (x.reqs.filter LReq.unserved).map (·.id)
        fenceGens := (List.range 4).filter fun g => (x.gen g).mode == .load }).modLe a.pos fun x => { x with beats := [] }
    else c

/-- Completes a barrier: every arriving BARS of the generation lands, and second arrivals of a core count toward the next
generation. -/
def State.completeBar (s : State) (ctx : Nat) (t : Team) (b : Barrier) : State :=
  let cores := t.participants b.scope b.unit
  let mine (a : Arrival) : Bool := !b.holds cores a
  let s := (b.arrived.filter mine).foldl (fun s a => s.modCore (ctx, a.core) fun c => c.barLand a) s
  let used := b.counted cores
  s.modTeam ctx fun t => t.modBar b.scope b.unit b.num fun _ =>
    { b with
      gen := b.gen + 1
      arrived := b.arrived.filter fun a => !mine a
      full := if b.scope = 1 then [] else b.full.filter fun f => !used.contains f
      sentPod := false }

/-- The enrolled elements that a core-scope barrier waits for. -/
def State.barEnrolled (s : State) (ctx : Nat) (b : Barrier) : List Nat :=
  if b.scope = 1 then
    match s.core? (ctx, b.unit.1) with
    | some c => c.enrolledOf b.unit.2 1 b.num
    | none => []
  else []

/-- R394: does a pod barrier wait for other packages? -/
def State.podAlone (s : State) (ctx : Nat) : Bool :=
  match (s.team? ctx).bind fun t => s.fabric.groups.get? t.launch.tag with
  | some g => !g.valid
  | none => true

/-- BARRIER_COMPLETE (R245): barrier `here.idx` of the team completes once every participant has arrived; a pod barrier
with other packages completes by its release (R394). -/
def execBarrierComplete (s : State) : Host.Outcome State Fault Refusal :=
  match s.team? s.here.ctx with
  | none => .next s
  | some t =>
    match (t.bars[s.here.idx]?).map (s.barNow s.here.ctx) with
    | none => .next s
    | some b =>
      if t.barDone (s.barEnrolled s.here.ctx b) b && (b.scope != 5 || s.podAlone s.here.ctx) then
        .next (s.completeBar s.here.ctx t b)
      else .next s

/-- R254: the predicates that a run's open arrivals would write keep their values and are no longer pending. -/
def CoreCtx.dropArrivals (c : CoreCtx) (t : Team) (core run : Nat) : CoreCtx :=
  (t.bars.flatMap (·.arrived)).foldl (fun c a =>
    if a.core = core ∧ a.run = run ∧ a.pos ≠ 64 ∧ a.pu ≠ 0 then
      c.modElem a.pos fun e => e.setPred a.pn { e.pred a.pn with pending := false }
    else c) c

/-- R246, R254: a squashed run's arrivals leave the open generations. -/
def Team.withdraw (t : Team) (core run : Nat) : Team :=
  { t with bars := t.bars.map fun b => { b with
      arrived := b.arrived.filter fun a => !(a.core == core && a.run == run && a.pos != 64)
      full := b.full.filter fun f => f != (core, some run) } }

/-- R246, R253: a validated run's arrivals count. -/
def Team.confirm (t : Team) (core run : Nat) : Team :=
  { t with bars := t.bars.map fun b => { b with
      arrived := b.arrived.map fun a => if a.core = core ∧ a.run = run then { a with valid := true } else a } }

/-- R245: a completed instance leaves its core-scope barriers. -/
def Team.leaveBars (t : Team) (core run : Nat) : Team :=
  { t with bars := t.bars.filter fun b => !(b.scope == 1 && b.unit == (core, run)) }

end Sys2Proof.Machine
end

