-- ==== Sys2Proof/Machine/Convert.lean ====
section
/-! DEFINITION. The converter element (R39, R122 to R126). -/

namespace Sys2Proof.Machine

/-! ### The LFSR (R39) -/

def lfsrStep (s : W32) : W32 :=
  (s <<< 1) ||| BitVec.zeroExtend 32 (BitVec.ofBool (s.getLsbD 31 ^^ s.getLsbD 21 ^^ s.getLsbD 1 ^^ s.getLsbD 0))

def lfsrSteps : Nat → W32 → W32
  | 0, s => s
  | n + 1, s => lfsrSteps n (lfsrStep s)

/-- One draw: sixteen steps and the low half. -/
def lfsrNext (s : W32) : W32 × Nat :=
  let t := lfsrSteps 16 s
  (t, field t 0 16)

/-! ### Rounding with draws (R38 to R41) -/

/-- The fields of SB (R122). -/
def cvtRnd (f : Fields) : RMode := match f.sb.toNat % 4 with | 1 => .rtz | 2 => .sr | _ => .rne
def cvtSat (f : Fields) : Bool := f.sb.toNat / 4 % 2 == 0
def cvtPart (f : Fields) : Nat := f.sb.toNat / 8

/-- Is a value off the grid of a format whose exponent is unbounded above (R38)? -/
def offGrid (f : FFmt) (v : FVal) : Bool :=
  match v with
  | .num _ m e =>
    if m = 0 then false
    else
      let lead : Int := e + Nat.log2 m
      let emin : Int := 1 - (f.bias : Int) - f.mb
      let q : Int := if lead - f.mb < emin then emin else lead - f.mb
      ((Mag.mk m e false).cut q).inexact
  | _ => false

/-- One lane narrowed to a floating format: code, flags, and the LFSR after its draw, if it drew (R39). -/
def roundLane (f : FFmt) (mode : RMode) (sat : Bool) (s : W32) (v : FVal) : Nat × Flags × W32 :=
  if mode = .sr ∧ offGrid f v = true then
    let (t, d) := lfsrNext s
    let r := narrow f mode sat d v
    (r.bits, r.flags, t)
  else
    let r := narrow f mode sat 0 v
    (r.bits, r.flags, s)

/-- One lane rounded to an integer of w bits (R41). -/
def intLane (w : Nat) (mode : RMode) (s : W32) (v : FVal) : Nat × Flags × W32 :=
  let inex : Bool := match v with
    | .num n m e => m != 0 && (roundInt .rtz 0 n m e).2
    | _ => false
  if mode = .sr ∧ inex = true then
    let (t, d) := lfsrNext s
    let r := toInt w mode d v
    (toLane w r.1, r.2.1, t)
  else
    let r := toInt w mode 0 v
    (toLane w r.1, r.2.1, s)

/-- Lanes in ascending order, each with the LFSR the one before left. -/
def drawLanes (g : W32 → FVal → Nat × Flags × W32) : List FVal → W32 → List Nat × Flags × W32
  | [], s => ([], Flags.none, s)
  | v :: vs, s =>
    let (x, fl, s) := g s v
    let (xs, fls, s) := drawLanes g vs s
    (x :: xs, fl.or fls, s)

/-! ### Narrowing and widening (R123) -/

/-- What a conversion leaves: the result, its taint, and the CE. -/
structure CvtOut where
  data : W64
  tnt : Bool
  flags : Flags
  ce : CE
  deriving DecidableEq, Repr

/-- A conversion as an operation: the CE changes at the fire. -/
def cvtOp (opc : Nat) (fmt : Fmt) (ready : Look → Bool) (g : Look → CE → CvtOut) : Op where
  opc := opc
  unit := .conv
  delay := 2
  res := fun l => let o := g l (l.c.ce l.t.pos); ⟨o.data, fmt, o.tnt, o.flags, none⟩
  ready := ready
  counter := some 9
  effect := fun l s => s.modCore l.t.k fun c => c.modCe l.t.pos fun _ => (g l (l.c.ce l.t.pos)).ce

/-- Replaces lane i of width w. -/
def setLane (w i v : Nat) (x : W64) : W64 :=
  w64 (x.toNat - lane w i x * 2 ^ (w * i) + v % 2 ^ w * 2 ^ (w * i))

/-- R123 `narrow`: n lanes of width w per part. -/
def narrowCvt (w : Nat) (vals : W64 → List FVal) (g : Fields → W32 → FVal → Nat × Flags × W32) (l : Look) (ce : CE) : CvtOut :=
  let vs := vals l.i.a.data
  let (xs, fl, s) := drawLanes (g l.f) vs ce.lfsr
  let base := vs.length * cvtPart l.f
  let pk := (xs.zipIdx).foldl (fun (p : W64) (x : Nat × Nat) => setLane w (base + x.2) x.1 p) ce.pk
  let t := ce.pkTnt || l.i.tnt
  if l.f.dst = 28#5 then ⟨pk, t, fl, { ce with pk := pk, pkTnt := t, lfsr := s }⟩
  else ⟨pk, t, fl, { ce with pk := 0#64, pkTnt := false, lfsr := s }⟩

/-- R123 `widen`: n lanes of width `w` of a beginning at the part, each to width `v`. -/
def widenCvt (w v n : Nat) (dec : Nat → FVal) (g : Fields → W32 → FVal → Nat × Flags × W32) (l : Look) (ce : CE) : CvtOut :=
  let vs := (List.range n).map fun i => dec (lane w (n * cvtPart l.f + i) l.i.a.data)
  let (xs, fl, s) := drawLanes (g l.f) vs ce.lfsr
  ⟨ofLanes v xs, l.i.tnt, fl, { ce with lfsr := s }⟩

def always (_ : Look) : Bool := true

/-- The two FP32 lanes of a. -/
def f32Lanes (a : W64) : List FVal := [fp32.decode (lane 32 0 a), fp32.decode (lane 32 1 a)]

/-- An integer as a value. -/
def intVal (n : Int) : FVal := .num (decide (n < 0)) n.natAbs 0

def toFmt (t : FFmt) (f : Fields) : W32 → FVal → Nat × Flags × W32 := roundLane t (cvtRnd f) (cvtSat f)
def toI (w : Nat) (f : Fields) : W32 → FVal → Nat × Flags × W32 := intLane w (cvtRnd f)

/-- CVT.BF.F32 (R123). -/
def cvtBfF32Op : Op := cvtOp 0xC0 .bf16x4 always (narrowCvt 16 f32Lanes (toFmt bf16))
def execCvtBfF32 (f : Fields) (s : State) : Host.Outcome State Fault Refusal := runOp cvtBfF32Op f s

/-- CVT.F32.BF (R123). -/
def cvtF32BfOp : Op := cvtOp 0xC1 .f32x2 always (widenCvt 16 32 2 bf16.decode (toFmt fp32))
def execCvtF32Bf (f : Fields) (s : State) : Host.Outcome State Fault Refusal := runOp cvtF32BfOp f s

/-- CVT.E4.F32 (R123). -/
def cvtE4F32Op : Op := cvtOp 0xC2 .e4m3x8 always (narrowCvt 8 f32Lanes (toFmt e4m3))
def execCvtE4F32 (f : Fields) (s : State) : Host.Outcome State Fault Refusal := runOp cvtE4F32Op f s

/-- CVT.E5.F32 (R123). -/
def cvtE5F32Op : Op := cvtOp 0xC3 .e5m2x8 always (narrowCvt 8 f32Lanes (toFmt e5m2))
def execCvtE5F32 (f : Fields) (s : State) : Host.Outcome State Fault Refusal := runOp cvtE5F32Op f s

/-- CVT.F32.E4 (R123). -/
def cvtF32E4Op : Op := cvtOp 0xC4 .f32x2 always (widenCvt 8 32 2 e4m3.decode (toFmt fp32))
def execCvtF32E4 (f : Fields) (s : State) : Host.Outcome State Fault Refusal := runOp cvtF32E4Op f s

/-- CVT.F32.E5 (R123). -/
def cvtF32E5Op : Op := cvtOp 0xC5 .f32x2 always (widenCvt 8 32 2 e5m2.decode (toFmt fp32))
def execCvtF32E5 (f : Fields) (s : State) : Host.Outcome State Fault Refusal := runOp cvtF32E5Op f s

/-- CVT.BF.E4 (R123). -/
def cvtBfE4Op : Op := cvtOp 0xC6 .bf16x4 always (widenCvt 8 16 4 e4m3.decode (toFmt bf16))
def execCvtBfE4 (f : Fields) (s : State) : Host.Outcome State Fault Refusal := runOp cvtBfE4Op f s

/-- CVT.I8.F32 (R123). -/
def cvtI8F32Op : Op := cvtOp 0xC9 .i8x8 always (narrowCvt 8 f32Lanes (toI 8))
def execCvtI8F32 (f : Fields) (s : State) : Host.Outcome State Fault Refusal := runOp cvtI8F32Op f s

/-- CVT.F32.I8 (R123). -/
def cvtF32I8Op : Op := cvtOp 0xCA .f32x2 always (widenCvt 8 32 2 (fun x => intVal (BitVec.ofNat 8 x).toInt) (toFmt fp32))
def execCvtF32I8 (f : Fields) (s : State) : Host.Outcome State Fault Refusal := runOp cvtF32I8Op f s

/-- CVT.F32.I64 (R123). -/
def cvtF32I64Op : Op := cvtOp 0xCB .f32x2 always (narrowCvt 32 (fun a => [intVal a.toInt]) (toFmt fp32))
def execCvtF32I64 (f : Fields) (s : State) : Host.Outcome State Fault Refusal := runOp cvtF32I64Op f s

/-- CVT.I64.F32 (R123). -/
def cvtI64F32Op : Op := cvtOp 0xCC .i64 always (widenCvt 32 64 1 fp32.decode (toI 64))
def execCvtI64F32 (f : Fields) (s : State) : Host.Outcome State Fault Refusal := runOp cvtI64F32Op f s

/-! ### Microscaling (R124, R125) -/

/-- R124: XE of a full buffer, and whether NV is set. -/
def mxExponent (mb : List W16) : Nat × Bool :=
  let vs := mb.map fun x => bf16.decode x.toNat
  if vs.any fun v => v.isNan || v.isInf then (0xFF, true)
  else
    let mags := vs.filterMap fun v => match v with
      | .num _ m e => if m = 0 then none else some (e + Nat.log2 m)
      | _ => none
    match mags with
    | [] => (0, false)
    | x :: xs =>
      let top : Int := xs.foldl (fun (a b : Int) => if a < b then b else a) x
      ((max (-127) (min 127 (top - 2)) + 127).toNat, false)

/-- An element of a block under its scale (R124): beyond 6 the code of 6 with NX only. -/
def mxElem (mode : RMode) (xe : Nat) (s : W32) (v : FVal) : Nat × Flags × W32 :=
  if xe = 0xFF then (0, Flags.none, s)
  else
    let y : FVal := match v with
      | .num n m e => .num n m (e - xe + 127)
      | x => x
    let (x, fl, t) := roundLane e2m1 mode true s y
    (x, { fl with of := false }, t)

/-- R124: gather with DST none, emit otherwise. A gather forms no result: what its predicate update tests is a free
value (log 7). -/
def mx4Cvt (l : Look) (ce : CE) : CvtOut :=
  if l.f.dst = 28#5 then
    let mb := ce.mb ++ (List.range 4).map fun i => BitVec.ofNat 16 (lane 16 i l.i.a.data)
    let (xe, nv) := if mb.length = 32 then mxExponent mb else (ce.xe.toNat, false)
    ⟨Config.freeWord l.s.free, l.i.tnt, { Flags.none with nv := nv },
      { ce with mb := mb, mt := ce.mt || l.i.tnt, xe := BitVec.ofNat 8 xe }⟩
  else if cvtPart l.f = 2 then
    ⟨ce.xe.zeroExtend 64, ce.mt || l.i.tnt, Flags.none, { ce with mb := [], mt := false }⟩
  else
    let vs := ((ce.mb.drop (16 * cvtPart l.f)).take 16).map fun x => bf16.decode x.toNat
    let (xs, fl, s) := drawLanes (mxElem (cvtRnd l.f) ce.xe.toNat) vs ce.lfsr
    ⟨ofLanes 4 xs, ce.mt || l.i.tnt, fl, { ce with lfsr := s }⟩

def mx4Ready (l : Look) : Bool :=
  if l.f.dst = 28#5 then decide ((l.c.ce l.t.pos).mb.length < 32) else decide (32 ≤ (l.c.ce l.t.pos).mb.length)

/-- A free value has been used. -/
def usesFree (l : Look) (s : State) : State := if l.f.dst = 28#5 then { s with free := s.free + 1 } else s

/-- CVT.MX4.BF (R124): elements leave as E2M1x16, the scale as RAW. -/
def cvtMx4BfOp : Op :=
  let o := cvtOp 0xC7 .e2m1x16 mx4Ready mx4Cvt
  { o with
    res := fun l => { o.res l with fmt := if cvtPart l.f = 2 then .raw else .e2m1x16 }
    effect := fun l s => usesFree l (o.effect l s) }
def execCvtMx4Bf (f : Fields) (s : State) : Host.Outcome State Fault Refusal := runOp cvtMx4BfOp f s

/-- R125: scale load with DST none, conversion otherwise. -/
def bfMx4Cvt (l : Look) (ce : CE) : CvtOut :=
  if l.f.dst = 28#5 then
    ⟨Config.freeWord l.s.free, l.i.tnt, Flags.none, { ce with xs := l.i.a.data.extractLsb' 0 8 }⟩
  else
    let vs := (List.range 4).map fun i => decodeMx (lane 4 (4 * cvtPart l.f + i) l.i.a.data) ce.xs.toNat
    let (xs, fl, s) := drawLanes (toFmt bf16 l.f) vs ce.lfsr
    ⟨ofLanes 16 xs, l.i.tnt, fl, { ce with lfsr := s }⟩

/-- CVT.BF.MX4 (R125). -/
def cvtBfMx4Op : Op :=
  let o := cvtOp 0xC8 .bf16x4 always bfMx4Cvt
  { o with effect := fun l s => usesFree l (o.effect l s) }
def execCvtBfMx4 (f : Fields) (s : State) : Host.Outcome State Fault Refusal := runOp cvtBfMx4Op f s

end Sys2Proof.Machine
end

