-- ==== Sys2Proof/Machine/Float.lean ====
section
/-! DEFINITION. Floating-point and vector operations of a PE, 0x60 to 0x82 (R83 to R96). -/

namespace Sys2Proof.Machine

/-- A value with the flags it sets. -/
abbrev Flagged := W64 × Flags

/-- A lane operation: result lanes and flags from D, a and b (R83, R84, R86). -/
def laneOp (opc delay : Nat) (u : Unit') (fmt : Fmt) (counter : Nat) (v : W64 → W64 → W64 → Flagged) : Op where
  opc := opc
  unit := u
  delay := delay
  res := fun l =>
    let x := v l.i.d.data l.i.a.data l.i.b.data
    ⟨x.1, fmt, l.i.tnt, x.2, none⟩
  counter := some counter

def fpOp (opc delay : Nat) (u : Unit') (fmt : Fmt) (v : W64 → W64 → W64 → Flagged) : Op := laneOp opc delay u fmt 2 v
def vecOp (opc delay : Nat) (u : Unit') (fmt : Fmt) (v : W64 → W64 → W64 → Flagged) : Op := laneOp opc delay u fmt 3 v

/-- Lane i as an FP32 or BF16 value. -/
def f32 (i : Nat) (x : W64) : FVal := fp32.decode (lane 32 i x)
def fbf (i : Nat) (x : W64) : FVal := bf16.decode (lane 16 i x)

def orFlags (l : List Flags) : Flags := l.foldl Flags.or Flags.none

/-- Two FP32 lanes or four BF16 lanes, each formed on its own. -/
def lanes32 (v : Nat → Rounded) : Flagged :=
  let r := [v 0, v 1]
  (ofLanes 32 (r.map (·.bits)), orFlags (r.map (·.flags)))
def lanes16 (v : Nat → Rounded) : Flagged :=
  let r := [v 0, v 1, v 2, v 3]
  (ofLanes 16 (r.map (·.bits)), orFlags (r.map (·.flags)))

def four {α : Type} (v : Nat → α) : List α := [v 0, v 1, v 2, v 3]

/-- Lane 0 computed, lane 1 given. -/
def lowLane (r : Rounded) (hi : Nat) : Flagged := (ofLanes 32 [r.bits, hi], r.flags)

def pairRounded (x : Nat × Flags) : Rounded := ⟨x.1, x.2, false⟩
def noFlags (v : W64) : Flagged := (v, Flags.none)

/-- R90: a sign operation; a NaN becomes canonical. -/
def signOp (g : Nat → Nat) (x : Nat) : Rounded :=
  match fp32.decode x with
  | .nan s => ⟨fp32.canon, { Flags.none with nv := s }, false⟩
  | _ => ⟨g x, Flags.none, false⟩

/-- R91: a lane mask; FCLT sets NV for any NaN, FCEQ for a signalling one; a NaN makes the lane 0. -/
def compareRes (anyNan cond : Bool) (x y : FVal) : Rounded :=
  let nan := x.isNan || y.isNan
  ⟨if cond && !nan then 0xFFFFFFFF else 0,
    { Flags.none with nv := if anyNan then nan else x.isSnan || y.isSnan }, false⟩

/-- a × 2^n; beyond ±1000 the result no longer depends on n (R88). -/
def scaleVal (v : FVal) (n : Int) : FVal :=
  match v with
  | .num s m e => .num s m (e + max (-1000) (min 1000 n))
  | x => x

/-- Eight INT8 lanes modulo 2^8. -/
def bytes8 (v : Nat → Int) : W64 := ofLanes 8 ((List.range 8).map fun i => toLane 8 (v i))

/-- R95. -/
def vdotbVal (d a b : W64) : W64 :=
  wrap64 (sx d + (List.range 8).foldl (fun (n : Int) i => n + slane 8 i a * slane 8 i b) 0)

/-- R96. -/
def shufVal (a b : W64) : W64 :=
  ofLanes 8 ((List.range 8).map fun i =>
    let c := lane 4 i b
    if 8 ≤ c then 0 else lane 8 c a)
def bcastVal (a b : W64) : W64 :=
  let w := 4 * 2 ^ field b 4 2
  let n := 64 / w
  ofLanes w (List.replicate n (lane w (field b 0 4 % n) a))
def vselVal (p : BitVec 8) (a b : W64) : W64 :=
  ofLanes 8 ((List.range 8).map fun i => if p.getLsbD i then lane 8 i a else lane 8 i b)

/-- FADD (R88). -/
def faddOp : Op := fpOp 0x60 4 .fp .f32x2 fun _ a b => lanes32 fun i => fpEval fp32 [f32 i a, f32 i b] [some (f32 i a), some (f32 i b)]
def execFadd (f : Fields) (s : State) : Host.Outcome State Fault Refusal := runOp faddOp f s

/-- FSUB (R88): the sum with the second operand negated (DESIGN CHOICE, log 109: so -0 less +0 is -0). -/
def fsubOp : Op := fpOp 0x61 4 .fp .f32x2 fun _ a b => lanes32 fun i => fpEval fp32 [f32 i a, f32 i b] [some (f32 i a), some (f32 i b).negate]
def execFsub (f : Fields) (s : State) : Host.Outcome State Fault Refusal := runOp fsubOp f s

/-- FMUL (R88). -/
def fmulOp : Op := fpOp 0x62 4 .fp .f32x2 fun _ a b => lanes32 fun i => fpEval fp32 [f32 i a, f32 i b] [(f32 i a).mul (f32 i b)]
def execFmul (f : Fields) (s : State) : Host.Outcome State Fault Refusal := runOp fmulOp f s

/-- FMA (R86, R88): one rounding. -/
def fmaOp : Op := fpOp 0x63 4 .fp .f32x2 fun d a b => lanes32 fun i => fpEval fp32 [f32 i d, f32 i a, f32 i b] [some (f32 i d), (f32 i a).mul (f32 i b)]
def execFma (f : Fields) (s : State) : Host.Outcome State Fault Refusal := runOp fmaOp f s

/-- FMIN (R89). -/
def fminOp : Op := fpOp 0x64 4 .fp .f32x2 fun _ a b => lanes32 fun i => pairRounded (fminmax fp32 true (lane 32 i a) (lane 32 i b))
def execFmin (f : Fields) (s : State) : Host.Outcome State Fault Refusal := runOp fminOp f s

/-- FMAX (R89). -/
def fmaxOp : Op := fpOp 0x65 4 .fp .f32x2 fun _ a b => lanes32 fun i => pairRounded (fminmax fp32 false (lane 32 i a) (lane 32 i b))
def execFmax (f : Fields) (s : State) : Host.Outcome State Fault Refusal := runOp fmaxOp f s

/-- FABS (R90). -/
def fabsOp : Op := fpOp 0x66 4 .fp .f32x2 fun _ a _ => lanes32 fun i => signOp (fun x => x % 2 ^ 31) (lane 32 i a)
def execFabs (f : Fields) (s : State) : Host.Outcome State Fault Refusal := runOp fabsOp f s

/-- FNEG (R90). -/
def fnegOp : Op := fpOp 0x67 4 .fp .f32x2 fun _ a _ => lanes32 fun i => signOp (fun x => (x + 2 ^ 31) % 2 ^ 32) (lane 32 i a)
def execFneg (f : Fields) (s : State) : Host.Outcome State Fault Refusal := runOp fnegOp f s

/-- FCLT (R91). -/
def fcltOp : Op := fpOp 0x68 4 .fp .raw fun _ a b => lanes32 fun i => compareRes true (FVal.lt false (f32 i a) (f32 i b)) (f32 i a) (f32 i b)
def execFclt (f : Fields) (s : State) : Host.Outcome State Fault Refusal := runOp fcltOp f s

/-- FCEQ (R91). -/
def fceqOp : Op := fpOp 0x69 4 .fp .raw fun _ a b => lanes32 fun i => compareRes false ((f32 i a).veq (f32 i b)) (f32 i a) (f32 i b)
def execFceq (f : Fields) (s : State) : Host.Outcome State Fault Refusal := runOp fceqOp f s

/-- FEXP2 (R92, Table 5.3). -/
def fexp2Op : Op := fpOp 0x6A 8 .special .f32x2 fun _ a _ => lanes32 fun i => pairRounded (Machine.fexp2 (lane 32 i a))
def execFexp2 (f : Fields) (s : State) : Host.Outcome State Fault Refusal := runOp fexp2Op f s

/-- FLOG2 (R92, Table 5.3). -/
def flog2Op : Op := fpOp 0x6B 8 .special .f32x2 fun _ a _ => lanes32 fun i => pairRounded (Machine.flog2 (lane 32 i a))
def execFlog2 (f : Fields) (s : State) : Host.Outcome State Fault Refusal := runOp flog2Op f s

/-- FRCP (R92, Table 5.3). -/
def frcpOp : Op := fpOp 0x6C 8 .special .f32x2 fun _ a _ => lanes32 fun i => pairRounded (Machine.frcp (lane 32 i a))
def execFrcp (f : Fields) (s : State) : Host.Outcome State Fault Refusal := runOp frcpOp f s

/-- FRSQ (R92, Table 5.3). -/
def frsqOp : Op := fpOp 0x6D 8 .special .f32x2 fun _ a _ => lanes32 fun i => pairRounded (Machine.frsq (lane 32 i a))
def execFrsq (f : Fields) (s : State) : Host.Outcome State Fault Refusal := runOp frsqOp f s

/-- FSUM (R88): lane 1 is +0. -/
def fsumOp : Op := fpOp 0x6E 4 .fp .f32x2 fun _ a _ => lowLane (fpEval fp32 [f32 0 a, f32 1 a] [some (f32 0 a), some (f32 1 a)]) 0
def execFsum (f : Fields) (s : State) : Host.Outcome State Fault Refusal := runOp fsumOp f s

/-- FSCL (R88). -/
def fsclOp : Op := fpOp 0x6F 4 .fp .f32x2 fun _ a b => lanes32 fun i => fpEval fp32 [f32 i a] [some (scaleVal (f32 i a) (b.extractLsb' 0 32).toInt)]
def execFscl (f : Fields) (s : State) : Host.Outcome State Fault Refusal := runOp fsclOp f s

/-- VADD.BF (R93). -/
def vaddBfOp : Op := vecOp 0x70 3 .vec .bf16x4 fun _ a b => lanes16 fun i => fpEval bf16 [fbf i a, fbf i b] [some (fbf i a), some (fbf i b)]
def execVaddBf (f : Fields) (s : State) : Host.Outcome State Fault Refusal := runOp vaddBfOp f s

/-- VSUB.BF (R93): as FSUB (log 109). -/
def vsubBfOp : Op := vecOp 0x71 3 .vec .bf16x4 fun _ a b => lanes16 fun i => fpEval bf16 [fbf i a, fbf i b] [some (fbf i a), some (fbf i b).negate]
def execVsubBf (f : Fields) (s : State) : Host.Outcome State Fault Refusal := runOp vsubBfOp f s

/-- VMUL.BF (R93). -/
def vmulBfOp : Op := vecOp 0x72 3 .vec .bf16x4 fun _ a b => lanes16 fun i => fpEval bf16 [fbf i a, fbf i b] [(fbf i a).mul (fbf i b)]
def execVmulBf (f : Fields) (s : State) : Host.Outcome State Fault Refusal := runOp vmulBfOp f s

/-- VFMA.BF (R86, R93). -/
def vfmaBfOp : Op := vecOp 0x73 3 .vec .bf16x4 fun d a b => lanes16 fun i => fpEval bf16 [fbf i d, fbf i a, fbf i b] [some (fbf i d), (fbf i a).mul (fbf i b)]
def execVfmaBf (f : Fields) (s : State) : Host.Outcome State Fault Refusal := runOp vfmaBfOp f s

/-- VMAX.BF (R93). -/
def vmaxBfOp : Op := vecOp 0x74 3 .vec .bf16x4 fun _ a b => lanes16 fun i => pairRounded (fminmax bf16 false (lane 16 i a) (lane 16 i b))
def execVmaxBf (f : Fields) (s : State) : Host.Outcome State Fault Refusal := runOp vmaxBfOp f s

/-- VMIN.BF (R93). -/
def vminBfOp : Op := vecOp 0x75 3 .vec .bf16x4 fun _ a b => lanes16 fun i => pairRounded (fminmax bf16 true (lane 16 i a) (lane 16 i b))
def execVminBf (f : Fields) (s : State) : Host.Outcome State Fault Refusal := runOp vminBfOp f s

/-- VDOT.BF (R86, R94): lane 1 passes bit for bit. -/
def vdotBfOp : Op := vecOp 0x76 3 .vec .f32x2 fun d a b => lowLane (fpEval fp32 (f32 0 d :: (four fun i => fbf i a) ++ (four fun i => fbf i b)) (some (f32 0 d) :: four fun i => (fbf i a).mul (fbf i b))) (lane 32 1 d)
def execVdotBf (f : Fields) (s : State) : Host.Outcome State Fault Refusal := runOp vdotBfOp f s

/-- VRSUM.BF (R94). -/
def vrsumBfOp : Op := vecOp 0x77 3 .vec .f32x2 fun _ a _ => lowLane (fpEval fp32 (four fun i => fbf i a) (four fun i => some (fbf i a))) 0
def execVrsumBf (f : Fields) (s : State) : Host.Outcome State Fault Refusal := runOp vrsumBfOp f s

/-- VADD.B (R95). -/
def vaddBOp : Op := vecOp 0x78 1 .vec .i8x8 fun _ a b => noFlags (bytes8 fun i => slane 8 i a + slane 8 i b)
def execVaddB (f : Fields) (s : State) : Host.Outcome State Fault Refusal := runOp vaddBOp f s

/-- VADDS.B (R95). -/
def vaddsBOp : Op := vecOp 0x79 1 .vec .i8x8 fun _ a b => noFlags (bytes8 fun i => max (-128) (min 127 (slane 8 i a + slane 8 i b)))
def execVaddsB (f : Fields) (s : State) : Host.Outcome State Fault Refusal := runOp vaddsBOp f s

/-- VSUB.B (R95). -/
def vsubBOp : Op := vecOp 0x7A 1 .vec .i8x8 fun _ a b => noFlags (bytes8 fun i => slane 8 i a - slane 8 i b)
def execVsubB (f : Fields) (s : State) : Host.Outcome State Fault Refusal := runOp vsubBOp f s

/-- VMAX.B (R95). -/
def vmaxBOp : Op := vecOp 0x7B 1 .vec .i8x8 fun _ a b => noFlags (bytes8 fun i => max (slane 8 i a) (slane 8 i b))
def execVmaxB (f : Fields) (s : State) : Host.Outcome State Fault Refusal := runOp vmaxBOp f s

/-- VMIN.B (R95). -/
def vminBOp : Op := vecOp 0x7C 1 .vec .i8x8 fun _ a b => noFlags (bytes8 fun i => min (slane 8 i a) (slane 8 i b))
def execVminB (f : Fields) (s : State) : Host.Outcome State Fault Refusal := runOp vminBOp f s

/-- VDOT.B (R84, R86, R95). -/
def vdotBOp : Op := vecOp 0x7D 3 .mul .i64 fun d a b => noFlags (vdotbVal d a b)
def execVdotB (f : Fields) (s : State) : Host.Outcome State Fault Refusal := runOp vdotBOp f s

/-- VADD.W (R95). -/
def vaddWOp : Op := vecOp 0x7E 1 .vec .raw fun _ a b => noFlags (ofLanes 32 [lane 32 0 a + lane 32 0 b, lane 32 1 a + lane 32 1 b])
def execVaddW (f : Fields) (s : State) : Host.Outcome State Fault Refusal := runOp vaddWOp f s

/-- VMUL.W (R84, R95). -/
def vmulWOp : Op := vecOp 0x7F 3 .mul .raw fun _ a b => noFlags (ofLanes 32 [lane 32 0 a * lane 32 0 b, lane 32 1 a * lane 32 1 b])
def execVmulW (f : Fields) (s : State) : Host.Outcome State Fault Refusal := runOp vmulWOp f s

/-- VSHUF (R96): the format of a. -/
def vshufOp : Op := { vecOp 0x80 1 .vec .raw (fun _ a b => noFlags (shufVal a b)) with res := fun l => ⟨shufVal l.i.a.data l.i.b.data, l.i.a.fmt, l.i.tnt, Flags.none, none⟩ }
def execVshuf (f : Fields) (s : State) : Host.Outcome State Fault Refusal := runOp vshufOp f s

/-- VBCAST (R96). -/
def vbcastOp : Op := vecOp 0x81 1 .vec .raw fun _ a b => noFlags (bcastVal a b)
def execVbcast (f : Fields) (s : State) : Host.Outcome State Fault Refusal := runOp vbcastOp f s

/-- VSEL (R96): the predicates are data. -/
def vselOp : Op := { vecOp 0x82 1 .vec .raw (fun _ a _ => noFlags a) with
    ready := fun l => l.e.pendingMask == 0#8
    res := fun l => ⟨vselVal l.e.predMask l.i.a.data l.i.b.data, if l.i.a.fmt = l.i.b.fmt then l.i.a.fmt else .raw,
      l.i.tnt || (List.range 8).any (fun i => (l.e.pred i).tnt), Flags.none, none⟩ }
def execVsel (f : Fields) (s : State) : Host.Outcome State Fault Refusal := runOp vselOp f s

end Sys2Proof.Machine
end

