-- ==== Sys2Proof/Machine/Int.lean ====
section
/-! DEFINITION. Integer, logic, compare and coordinate operations of a PE, 0x00 to 0x28 (R64 to R74). -/

namespace Sys2Proof.Machine

/-- R65: the divider of a PE, shared by both resident contexts, holds no operation. -/
def dividerFree (l : Look) : Bool :=
  let pc := l.s.physCore? l.t.k
  l.s.cores.all fun (p : Key × CoreCtx) =>
    !(l.s.physCore? p.1 == pc && p.2.flights.any fun fl =>
      match fl.cargo with
      | .result r => r.pos == l.t.pos && r.unit == .divider
      | _ => false)

/-- An integer operation of two operands (R64, R65); operations of one source take no second. -/
def intOp (opc delay : Nat) (u : Unit') (v : W64 → W64 → W64) : Op where
  opc := opc
  unit := u
  delay := delay
  res := fun l => l.int (v l.i.a.data l.i.b.data)
  counter := some 1

/-- An integer operation that reads its destination (R66). -/
def intAccOp (opc delay : Nat) (u : Unit') (v : W64 → W64 → W64 → W64) : Op where
  opc := opc
  unit := u
  delay := delay
  res := fun l => l.int (v l.i.d.data l.i.a.data l.i.b.data)
  counter := some 1

/-- 1 where a condition holds, else 0 (R71). -/
def bool64 (b : Bool) : W64 := if b then 1#64 else 0#64

/-- R68: sums and differences of the low words, sign-extended. -/
def addwVal (a b : W64) : W64 := (a.extractLsb' 0 32 + b.extractLsb' 0 32).signExtend 64
def subwVal (a b : W64) : W64 := (a.extractLsb' 0 32 - b.extractLsb' 0 32).signExtend 64

/-- R68: bits [127:64] of the signed and of the unsigned product. -/
def mulhVal (a b : W64) : W64 := (BitVec.ofInt 128 (sx a * sx b)).extractLsb' 64 64
def mulhnVal (a b : W64) : W64 := w64 (ux a * ux b / 2 ^ 64)

/-- R69. -/
def clzVal (a : W64) : Nat := if a = 0#64 then 64 else 63 - Nat.log2 a.toNat
def popcVal (a : W64) : Nat := (List.range 64).foldl (fun n i => n + b2n (a.getLsbD i)) 0

/-- R70: position, length and mask of a field descriptor; a field that would pass bit 63 is cut there. -/
def fieldPos (b : W64) : Nat := field b 0 6
def fieldLen (b : W64) : Nat := min (field b 8 6 + 1) (64 - fieldPos b)
def fieldMask (b : W64) : W64 := w64 (2 ^ fieldLen b - 1)

/-- R70. -/
def extVal (a b : W64) : W64 :=
  let m := fieldMask b
  let f := (a >>> fieldPos b) &&& m
  if b.getLsbD 16 && f.getLsbD (fieldLen b - 1) then f ||| ~~~m else f

/-- R70. -/
def insVal (d a b : W64) : W64 :=
  let m := fieldMask b
  (d &&& ~~~(m <<< fieldPos b)) ||| ((a &&& m) <<< fieldPos b)

/-- R73. -/
def crdVal (a b : W64) : W64 := a.extractLsb' 0 32 ++ b.extractLsb' 0 32
def crxVal (a b : W64) : W64 :=
  (a.extractLsb' 32 32 + b.extractLsb' 32 32) ++ (a.extractLsb' 0 32 + b.extractLsb' 0 32)

/-- R74. -/
def stepVal (a b : W64) : W64 :=
  let n := a + (b.extractLsb' 32 32).signExtend 64
  if field b 0 32 ≤ n.toNat then 0#64 else n

/-- MOV (R68): the source with its format. -/
def movOp : Op := { intOp 0x00 1 .int (fun a _ => a) with res := fun l => ⟨l.i.a.data, l.i.a.fmt, l.i.tnt, Flags.none, none⟩ }
def execMov (f : Fields) (s : State) : Host.Outcome State Fault Refusal := runOp movOp f s

/-- ADD (R68). -/
def addOp : Op := intOp 0x01 1 .int fun a b => a + b
def execAdd (f : Fields) (s : State) : Host.Outcome State Fault Refusal := runOp addOp f s

/-- SUB (R68). -/
def subOp : Op := intOp 0x02 1 .int fun a b => a - b
def execSub (f : Fields) (s : State) : Host.Outcome State Fault Refusal := runOp subOp f s

/-- ADDW (R68). -/
def addwOp : Op := intOp 0x03 1 .int fun a b => addwVal a b
def execAddw (f : Fields) (s : State) : Host.Outcome State Fault Refusal := runOp addwOp f s

/-- SUBW (R68). -/
def subwOp : Op := intOp 0x04 1 .int fun a b => subwVal a b
def execSubw (f : Fields) (s : State) : Host.Outcome State Fault Refusal := runOp subwOp f s

/-- MUL (R68). -/
def mulOp : Op := intOp 0x05 3 .mul fun a b => a * b
def execMul (f : Fields) (s : State) : Host.Outcome State Fault Refusal := runOp mulOp f s

/-- MULH (R68). -/
def mulhOp : Op := intOp 0x06 3 .mul fun a b => mulhVal a b
def execMulh (f : Fields) (s : State) : Host.Outcome State Fault Refusal := runOp mulhOp f s

/-- MULHN (R68). -/
def mulhnOp : Op := intOp 0x07 3 .mul fun a b => mulhnVal a b
def execMulhn (f : Fields) (s : State) : Host.Outcome State Fault Refusal := runOp mulhnOp f s

/-- DIV (R47, R65, R68). -/
def divOp : Op := { intOp 0x08 18 .divider (fun a b => (divSigned a b).1) with ready := dividerFree }
def execDiv (f : Fields) (s : State) : Host.Outcome State Fault Refusal := runOp divOp f s

/-- DIVN (R47, R65, R68). -/
def divnOp : Op := { intOp 0x09 18 .divider (fun a b => (divUnsigned a b).1) with ready := dividerFree }
def execDivn (f : Fields) (s : State) : Host.Outcome State Fault Refusal := runOp divnOp f s

/-- REM (R47, R65, R68). -/
def remOp : Op := { intOp 0x0A 18 .divider (fun a b => (divSigned a b).2) with ready := dividerFree }
def execRem (f : Fields) (s : State) : Host.Outcome State Fault Refusal := runOp remOp f s

/-- REMN (R47, R65, R68). -/
def remnOp : Op := { intOp 0x0B 18 .divider (fun a b => (divUnsigned a b).2) with ready := dividerFree }
def execRemn (f : Fields) (s : State) : Host.Outcome State Fault Refusal := runOp remnOp f s

/-- AND (R68). -/
def andOp : Op := intOp 0x0C 1 .int fun a b => a &&& b
def execAnd (f : Fields) (s : State) : Host.Outcome State Fault Refusal := runOp andOp f s

/-- OR (R68). -/
def orOp : Op := intOp 0x0D 1 .int fun a b => a ||| b
def execOr (f : Fields) (s : State) : Host.Outcome State Fault Refusal := runOp orOp f s

/-- XOR (R68). -/
def xorOp : Op := intOp 0x0E 1 .int fun a b => a ^^^ b
def execXor (f : Fields) (s : State) : Host.Outcome State Fault Refusal := runOp xorOp f s

/-- ANDN (R68). -/
def andnOp : Op := intOp 0x0F 1 .int fun a b => a &&& ~~~b
def execAndn (f : Fields) (s : State) : Host.Outcome State Fault Refusal := runOp andnOp f s

/-- SHL (R68). -/
def shlOp : Op := intOp 0x10 1 .int fun a b => a <<< field b 0 6
def execShl (f : Fields) (s : State) : Host.Outcome State Fault Refusal := runOp shlOp f s

/-- SHR (R68). -/
def shrOp : Op := intOp 0x11 1 .int fun a b => a >>> field b 0 6
def execShr (f : Fields) (s : State) : Host.Outcome State Fault Refusal := runOp shrOp f s

/-- SRA (R68). -/
def sraOp : Op := intOp 0x12 1 .int fun a b => a.sshiftRight (field b 0 6)
def execSra (f : Fields) (s : State) : Host.Outcome State Fault Refusal := runOp sraOp f s

/-- ROTR (R68). -/
def rotrOp : Op := intOp 0x13 1 .int fun a b => a.rotateRight (field b 0 6)
def execRotr (f : Fields) (s : State) : Host.Outcome State Fault Refusal := runOp rotrOp f s

/-- MIN (R68). -/
def minOp : Op := intOp 0x14 1 .int fun a b => if a.sle b then a else b
def execMin (f : Fields) (s : State) : Host.Outcome State Fault Refusal := runOp minOp f s

/-- MAX (R68). -/
def maxOp : Op := intOp 0x15 1 .int fun a b => if b.sle a then a else b
def execMax (f : Fields) (s : State) : Host.Outcome State Fault Refusal := runOp maxOp f s

/-- MINN (R68). -/
def minnOp : Op := intOp 0x16 1 .int fun a b => if a ≤ b then a else b
def execMinn (f : Fields) (s : State) : Host.Outcome State Fault Refusal := runOp minnOp f s

/-- MAXN (R68). -/
def maxnOp : Op := intOp 0x17 1 .int fun a b => if b ≤ a then a else b
def execMaxn (f : Fields) (s : State) : Host.Outcome State Fault Refusal := runOp maxnOp f s

/-- ABS (R69). -/
def absOp : Op := intOp 0x18 1 .int fun a _ => if a.msb then -a else a
def execAbs (f : Fields) (s : State) : Host.Outcome State Fault Refusal := runOp absOp f s

/-- CLZ (R69). -/
def clzOp : Op := intOp 0x19 1 .int fun a _ => w64 (clzVal a)
def execClz (f : Fields) (s : State) : Host.Outcome State Fault Refusal := runOp clzOp f s

/-- POPC (R69). -/
def popcOp : Op := intOp 0x1A 1 .int fun a _ => w64 (popcVal a)
def execPopc (f : Fields) (s : State) : Host.Outcome State Fault Refusal := runOp popcOp f s

/-- EXT (R70). -/
def extOp : Op := intOp 0x1B 1 .int fun a b => extVal a b
def execExt (f : Fields) (s : State) : Host.Outcome State Fault Refusal := runOp extOp f s

/-- INS (R66, R70). -/
def insOp : Op := intAccOp 0x1C 1 .int insVal
def execIns (f : Fields) (s : State) : Host.Outcome State Fault Refusal := runOp insOp f s

/-- SEQ (R71). -/
def seqOp : Op := intOp 0x1D 1 .int fun a b => bool64 (a == b)
def execSeq (f : Fields) (s : State) : Host.Outcome State Fault Refusal := runOp seqOp f s

/-- SNE (R71). -/
def sneOp : Op := intOp 0x1E 1 .int fun a b => bool64 (a != b)
def execSne (f : Fields) (s : State) : Host.Outcome State Fault Refusal := runOp sneOp f s

/-- SLT (R71). -/
def sltOp : Op := intOp 0x1F 1 .int fun a b => bool64 (a.slt b)
def execSlt (f : Fields) (s : State) : Host.Outcome State Fault Refusal := runOp sltOp f s

/-- SLE (R71). -/
def sleOp : Op := intOp 0x20 1 .int fun a b => bool64 (a.sle b)
def execSle (f : Fields) (s : State) : Host.Outcome State Fault Refusal := runOp sleOp f s

/-- SLTN (R71). -/
def sltnOp : Op := intOp 0x21 1 .int fun a b => bool64 (a.ult b)
def execSltn (f : Fields) (s : State) : Host.Outcome State Fault Refusal := runOp sltnOp f s

/-- SLEN (R71). -/
def slenOp : Op := intOp 0x22 1 .int fun a b => bool64 (a.ule b)
def execSlen (f : Fields) (s : State) : Host.Outcome State Fault Refusal := runOp slenOp f s

/-- MULA (R66, R72). -/
def mulaOp : Op := intAccOp 0x23 3 .mul fun d a b => d + a * b
def execMula (f : Fields) (s : State) : Host.Outcome State Fault Refusal := runOp mulaOp f s

/-- CRD (R73). -/
def crdOp : Op := intOp 0x24 1 .int fun a b => crdVal a b
def execCrd (f : Fields) (s : State) : Host.Outcome State Fault Refusal := runOp crdOp f s

/-- CRX (R73). -/
def crxOp : Op := intOp 0x25 1 .int fun a b => crxVal a b
def execCrx (f : Fields) (s : State) : Host.Outcome State Fault Refusal := runOp crxOp f s

/-- INC (R74). -/
def incOp : Op := intOp 0x26 1 .int fun a _ => a + 1#64
def execInc (f : Fields) (s : State) : Host.Outcome State Fault Refusal := runOp incOp f s

/-- DEC (R74). -/
def decOp : Op := intOp 0x27 1 .int fun a _ => a - 1#64
def execDec (f : Fields) (s : State) : Host.Outcome State Fault Refusal := runOp decOp f s

/-- STEP (R74). -/
def stepOp : Op := intOp 0x28 1 .int fun a b => stepVal a b
def execStep (f : Fields) (s : State) : Host.Outcome State Fault Refusal := runOp stepOp f s

end Sys2Proof.Machine
end

