-- ==== Sys2Proof/Machine/Matrix.lean ====
section
/-! DEFINITION. The matrix element (R98 to R112): row fires and their landing, the B register, bank operations and
drains. -/

namespace Sys2Proof.Machine

/-! ### Numerics of a row fire (R43, R44, R108) -/

/-- Element k of width w of a wide word. -/
def wide {n : Nat} (x : BitVec n) (w k : Nat) : Nat := field x (w * k) w

/-- One FP32 accumulator element after a row fire (R43): `as` and `bs` are the row and the column. -/
def mmaElem (c γ : FVal) (z d : Bool) (as bs : List FVal) : Rounded :=
  let all := as ++ bs
  let ps := (as.zip bs).map fun (a, b) => a.mul b
  let anyNan := all.any FVal.isNan
  let s := sumVals (ps.filterMap id)
  let bad := !anyNan && (ps.any Option.isNone || s.isNone)
  let γc := if d && !z then [c, γ] else if z then [] else [c]
  let nv := bad || (all ++ γc).any FVal.isSnan
  let nan : Rounded := ⟨0x7FC00000, { Flags.none with nv := nv }, false⟩
  if anyNan || bad || γc.any FVal.isNan then nan
  else
    let base := if z then some (.num false 0 0) else if d then γ.mul c else some c
    match base, s with
    | some b, some v =>
      match sumVals [b, v] with
      | some x => narrow fp32 .rne true 0 x
      | none => ⟨0x7FC00000, Flags.justNv, false⟩
    | _, _ => ⟨0x7FC00000, Flags.justNv, false⟩

/-- One INT32 accumulator element after a row fire (R44, R108): value and flags. DESIGN CHOICE (log 104): the rounding of a
decayed base sets no NX. -/
def mmaIntElem (c : W32) (γ : FVal) (z d : Bool) (sum : Int) : W32 × Flags :=
  let (base, nv) : Int × Bool :=
    if z then (0, false)
    else if d then
      (match γ with
        | .num s m e =>
          let neg := s != decide (c.toInt < 0)
          ((roundInt .rne 0 neg (m * c.toInt.natAbs) e).1, false)
        | _ => (0, true))
    else (c.toInt, false)
  let v := base + sum
  (BitVec.ofInt 32 v, { Flags.none with nv := nv, io := decide (v < -(2 ^ 31)) || decide (2 ^ 31 - 1 < v) })

/-- Table 2.4: the value of a T2 code. -/
def t2Val (code : Nat) : Int :=
  match code with
  | 1 => 1
  | 3 => -1
  | _ => 0

/-- R55: format, Z and D of an MMA opcode. -/
def mmaFmt (opc : Nat) : Nat := (opc - 0x90) / 4
def mmaZ (opc : Nat) : Bool := opc / 2 % 2 == 1
def mmaD (opc : Nat) : Bool := opc % 2 == 1

/-- Table 6.1: does the format need an INT32 bank? -/
def mmaInt (opc : Nat) : Bool := decide (4 ≤ mmaFmt opc)

/-- Element (i, j) of a bank. -/
def Bank.at (b : Bank) (i j : Nat) : W32 := at' b.c (4 * i + j) 0#32
def Bank.set (b : Bank) (i j : Nat) (v : W32) : Bank := { b with c := upd b.c (4 * i + j) v }

/-- The decoded A element k and B element (k, j) of a landing, for floating formats. -/
def MmaLand.aVal (m : MmaLand) (k : Nat) : FVal :=
  match mmaFmt m.opc with
  | 0 => bf16.decode (wide m.row 16 k)
  | 1 => e4m3.decode (wide m.row 8 k)
  | 2 => e5m2.decode (wide m.row 8 k)
  | _ => decodeMx (wide m.row 4 k) m.scale

def MmaLand.depth (m : MmaLand) : Nat :=
  match mmaFmt m.opc with
  | 0 => 8
  | 3 => 32
  | _ => 16

def MmaLand.bVal (m : MmaLand) (k j : Nat) : FVal :=
  let e := j * m.depth + k
  match mmaFmt m.opc with
  | 0 => bf16.decode (wide m.chunk 16 e)
  | 1 => e4m3.decode (wide m.chunk 8 e)
  | 2 => e5m2.decode (wide m.chunk 8 e)
  | _ => decodeMx (wide m.chunk 4 e) (field m.side (8 * j) 8)

/-- R44: the exact sum of the integer products of column j. -/
def MmaLand.intSum (m : MmaLand) (j : Nat) : Int :=
  (List.range 16).foldl (fun (acc : Int) k =>
    let a := (BitVec.ofNat 8 (wide m.row 8 k)).toInt
    let e := j * 16 + k
    acc + a * (if mmaFmt m.opc = 4 then (BitVec.ofNat 8 (wide m.chunk 8 e)).toInt else t2Val (wide m.chunk 2 e))) 0

/-- The bank after a row fire lands, and the flags it sets (R43, R44, R107). -/
def MmaLand.land (m : MmaLand) (b : Bank) : Bank × Flags :=
  let z := mmaZ m.opc
  let d := mmaD m.opc
  let γ := fp32.decode b.gamma.toNat
  let (b, fl) := (List.range 4).foldl (fun (acc : Bank × Flags) j =>
    let c := acc.1.at m.slice j
    if mmaInt m.opc then
      let (v, f) := mmaIntElem c γ z d (m.intSum j)
      (acc.1.set m.slice j v, acc.2.or f)
    else
      let r := mmaElem (fp32.decode c.toNat) γ z d ((List.range m.depth).map m.aVal)
        ((List.range m.depth).map fun k => m.bVal k j)
      (acc.1.set m.slice j (w32 r.bits), acc.2.or r.flags)) (b, Flags.none)
  ({ b with tnt := b.tnt || m.tnt }, fl)

/-! ### Banks in use (R106) -/

def ME.bank (m : ME) (n : Nat) : Bank := at' m.banks n Bank.init
def ME.setBank (m : ME) (n : Nat) (b : Bank) : ME := { m with banks := upd m.banks n b }

def ME.bankBusy (m : ME) (n : Nat) : Bool := decide (0 < at' m.busy n 0) || m.drains.any fun d => d.bank == n

def CoreCtx.mmaInFlight (c : CoreCtx) (pos n : Nat) : Bool :=
  c.flights.any fun fl => match fl.cargo with
    | .mma m => m.pos == pos && m.bank == n
    | _ => false

/-- R251: the undo entries that a speculative run takes before its first write to a bank. -/
def bankUndo (l : Look) : List BufOp :=
  let n := l.f.dst.toNat
  if l.c.specRun l.e.run then
    let have' := l.c.buf.any fun b => b.run == l.e.runId && match b.op with
      | .meUndo p m _ => p == l.t.pos && m == n
      | _ => false
    if have' then [] else List.replicate 5 (.meUndo l.t.pos n ((l.c.me l.t.pos).bank n))
  else []

def takeUndo (l : Look) (s : State) : State :=
  match bankUndo l with
  | [] => s
  | ops => s.buffer l.t.k l.e.runId l.t.pos ops

/-! ### Bank operations (R109 to R112) -/

/-- R106: the bank is free and no MMA to it is in flight. -/
def bankFree (l : Look) : Bool :=
  let n := l.f.dst.toNat
  !(l.c.me l.t.pos).bankBusy n && !l.c.mmaInFlight l.t.pos n

/-- Applies a bank operation and keeps the bank busy (Table 6.5). -/
def bankWrite (l : Look) (cycles : Nat) (g : Bank → Bank × Flags) (s : State) : State :=
  let n := l.f.dst.toNat
  (takeUndo l s).modCore l.t.k fun c =>
    let r := g ((c.me l.t.pos).bank n)
    c.modMe l.t.pos fun m => { m.setBank n r.1 with busy := upd m.busy n (c.cyclesOf l.t.pos cycles) }

/-- A bank operation that writes its bank; its flags are set when its result is visible (R42, Table 6.5). -/
def bankOp (opc cycles : Nat) (g : Look → Bank → Bank × Flags) : Op where
  opc := opc
  unit := .common
  delay := cycles
  res := fun l => { l.sa with flags := (g l ((l.c.me l.t.pos).bank l.f.dst.toNat)).2 }
  ready := bankFree
  entries := fun l => (bankUndo l).length
  effect := fun l => bankWrite l cycles (g l)

/-- ACC.ZERO. -/
def accZeroOp : Op := bankOp 0xA8 1 fun _ b => ({ b with c := Vector.replicate 16 0#32, tnt := false }, Flags.none)
def execAccZero (f : Fields) (s : State) : Host.Outcome State Fault Refusal := runOp accZeroOp f s

/-- ACC.DCY: the decay is stored as given. -/
def accDcyOp : Op := bankOp 0xA9 1 fun l b =>
  ({ b with gamma := l.i.a.data.extractLsb' 0 32, tnt := b.tnt || l.i.tnt }, Flags.none)
def execAccDcy (f : Fields) (s : State) : Host.Outcome State Fault Refusal := runOp accDcyOp f s

/-- ACC.SCL on every element. -/
def sclBank (a : W64) (tnt : Bool) (b : Bank) : Bank × Flags :=
  let s := field a 0 32
  let r := (List.range 16).map fun i =>
    let c := at' b.c i 0#32
    if b.int then
      let p := c.toInt * (BitVec.ofNat 32 s).toInt
      (BitVec.ofInt 32 p, { Flags.none with io := decide (p < -(2 ^ 31)) || decide (2 ^ 31 - 1 < p) })
    else
      let x := fp32.decode c.toNat
      let y := fp32.decode s
      let v := fpEval fp32 [x, y] [x.mul y]
      (w32 v.bits, v.flags)
  ({ b with c := (Vector.range 16).map fun i => ((r[i]?).map (·.1)).getD 0#32, tnt := b.tnt || tnt },
    (r.map (·.2)).foldl Flags.or Flags.none)

def accSclOp : Op := bankOp 0xAA 4 fun l b => sclBank l.i.a.data l.i.tnt b
def execAccScl (f : Fields) (s : State) : Host.Outcome State Fault Refusal := runOp accSclOp f s

/-- The tokens of row i of a drain with their ports (R110), and the flags that rounding to BF16 sets. -/
def drainToks (d : Drain) (b : Bank) : List (Nat × Token) × Flags :=
  let ctl : Ctl := if d.row = 3 then .last else .data
  let v (j : Nat) : Nat := (b.at d.row j).toNat
  if d.bf16 then
    let r := (List.range 4).map fun j => narrow bf16 .rne true 0 (fp32.decode (v j))
    ([(d.port, ⟨ofLanes 16 (r.map (·.bits)), .bf16x4, ctl, b.tnt⟩)], (r.map (·.flags)).foldl Flags.or Flags.none)
  else
    let fm : Fmt := if b.int then .raw else .f32x2
    ([(d.port, ⟨ofLanes 32 [v 0, v 1], fm, ctl, b.tnt⟩), (d.port + 1, ⟨ofLanes 32 [v 2, v 3], fm, ctl, b.tnt⟩)], Flags.none)

/-- R110: sends the next row of a drain if every port it needs has a credit; after row 3 the bank stays busy for the
rest of the cycle. -/
def CoreCtx.drainRow (c : CoreCtx) (pos bank run : Nat) : CoreCtx :=
  let m := c.me pos
  match m.drains.find? fun d => d.bank == bank with
  | none => c
  | some d =>
    let (ts, fl) := drainToks d (m.bank bank)
    if ts.all fun (p, _) => ((c.elemD pos).port p).writable then
      let c := ts.foldl (fun c (p, t) => c.send pos p run false t) c
      let c := c.modElem pos fun e => e.landFlags fl
      c.modMe pos fun m =>
        if d.row = 3 then
          { m with drains := m.drains.filter fun x => x.bank != bank, busy := upd m.busy bank (c.cyclesOf pos 1) }
        else { m with drains := m.drains.map fun x => if x.bank = bank then { x with row := x.row + 1 } else x }
    else c

/-- The tokens that `drainRow` sends (R368, counter 23). -/
def CoreCtx.drainSends (c : CoreCtx) (pos bank : Nat) : Nat :=
  match (c.me pos).drains.find? fun d => d.bank == bank with
  | none => 0
  | some d =>
    let (ts, _) := drainToks d ((c.me pos).bank bank)
    if ts.all fun (p, _) => ((c.elemD pos).port p).writable then ts.length else 0

/-- One row of a drain, counted. -/
def State.drainRow (s : State) (k : Key) (pos bank run : Nat) : State :=
  match s.core? k with
  | some c => (s.modCore k fun c => c.drainRow pos bank run).count k 23 (c.drainSends pos bank)
  | none => s

/-- ACC.DRN (R110): the bf16 form of an INT32 bank traps. -/
def accDrnOp : Op where
  opc := 0xAB
  unit := .common
  delay := 1
  res := fun l => l.sa
  ready := bankFree
  trap := fun l =>
    if l.f.sb.toNat == 21 && ((l.c.me l.t.pos).bank l.f.dst.toNat).int then some l.illegal else none
  effect := fun l s => (s.modCore l.t.k fun c => c.modMe l.t.pos fun m =>
      { m with drains := m.drains ++ [⟨l.f.dst.toNat, 0, l.f.sa.toNat - 24, l.f.sb.toNat == 21⟩] }).drainRow
        l.t.k l.t.pos l.f.dst.toNat l.e.runId
def execAccDrn (f : Fields) (s : State) : Host.Outcome State Fault Refusal := runOp accDrnOp f s

/-- R111: the token of ACC.RD. -/
def readToken (l : Look) : Res :=
  let b := (l.c.me l.t.pos).bank l.f.dst.toNat
  let x := b.at (field l.i.b.data 2 2) (field l.i.b.data 0 2)
  if b.int then ⟨x.signExtend 64, .i64, b.tnt || l.i.tnt, Flags.none, none⟩
  else ⟨x.zeroExtend 64, .f32x2, b.tnt || l.i.tnt, Flags.none, none⟩

/-- ACC.RD (R109, R111). -/
def accRdOp : Op where
  opc := 0xAC
  unit := .common
  delay := 1
  res := readToken
  ready := fun l => bankFree l && (let p := l.e.port (l.f.sa.toNat - 24); p.writable && p.hold.isNone)
  effect := fun l s =>
    let r := readToken l
    (s.modCore l.t.k fun c =>
      (c.modMe l.t.pos fun m => { m with busy := upd m.busy l.f.dst.toNat (c.cyclesOf l.t.pos 1) }).send l.t.pos
        (l.f.sa.toNat - 24) l.e.runId false ⟨r.data, r.fmt, .data, r.tnt⟩).count l.t.k 23 1
def execAccRd (f : Fields) (s : State) : Host.Outcome State Fault Refusal := runOp accRdOp f s

/-- R112. -/
def patchBank (a b : W64) (tnt : Bool) (k : Bank) : Bank × Flags :=
  let i := field b 2 2
  let j := field b 0 2
  let c := k.at i j
  let x : W32 := a.extractLsb' 0 32
  let (v, fl) : W32 × Flags :=
    if !b.getLsbD 4 then (x, Flags.none)
    else if k.int then
      let n := c.toInt + x.toInt
      (BitVec.ofInt 32 n, { Flags.none with io := decide (n < -(2 ^ 31)) || decide (2 ^ 31 - 1 < n) })
    else
      let p := fp32.decode c.toNat
      let q := fp32.decode x.toNat
      let r := fpEval fp32 [p, q] [some p, some q]
      (w32 r.bits, r.flags)
  ({ k.set i j v with tnt := k.tnt || tnt }, fl)

/-- ACC.PATCH (R112). -/
def accPatchOp : Op := bankOp 0xAD 1 fun l b => patchBank l.i.a.data l.i.b.data l.i.tnt b
def execAccPatch (f : Fields) (s : State) : Host.Outcome State Fault Refusal := runOp accPatchOp f s

/-- ACC.MODE (R109): the decay is kept. -/
def accModeOp : Op := bankOp 0xAE 1 fun l b =>
  ({ b with int := l.i.a.data.getLsbD 0, c := Vector.replicate 16 0#32, tnt := false }, Flags.none)
def execAccMode (f : Fields) (s : State) : Host.Outcome State Fault Refusal := runOp accModeOp f s

/-- BHOLD (R101). -/
def bholdOp : Op where
  opc := 0xAF
  unit := .common
  delay := 1
  res := fun l => l.sa
  effect := fun l s => s.modCore l.t.k fun c => c.modMe l.t.pos fun m => { m with ph := field l.i.a.data 0 16 }
def execBhold (f : Fields) (s : State) : Host.Outcome State Fault Refusal := runOp bholdOp f s

/-- The bank operation of an opcode. -/
def bankOpOf (opc : Nat) : Option Op :=
  match opc with
  | 0xA8 => some accZeroOp
  | 0xA9 => some accDcyOp
  | 0xAA => some accSclOp
  | 0xAB => some accDrnOp
  | 0xAC => some accRdOp
  | 0xAD => some accPatchOp
  | 0xAE => some accModeOp
  | _ => none

/-! ### Row fires (R100, R106, R107) -/

/-- R106 `held(N)`: a valid bank-operation slot on bank n is ready but for MMAs in flight. -/
def bankHeld (s : State) (t : Site) (e : Elem) (n : Nat) : Bool :=
  (List.range 16).any fun i =>
    let w := e.slot i
    w.getLsbD 1 && (match bankOpOf (field w 30 8) with
      | some o =>
        let f := Fields.ofWord w
        let port (l : Look) : Bool := if o.opc = 0xAC then (let p := l.e.port (l.f.sa.toNat - 24); p.writable && p.hold.isNone) else true
        f.dst.toNat == n && slotStatus { o with ready := port } f s ⟨t.k, t.pos, i, false, 0⟩ == .ready
      | none => false)

/-- The slice of an MMA slot. -/
def sliceOf (f : Fields) : Nat := f.sa.toNat - 12

/-- R100 `b_open(q)`. -/
def bOpen (m : ME) (q : Nat) : Bool :=
  match m.cur with
  | some b => match b.hold with
    | some h => decide (0 < h)
    | none => b.cm.getLsbD q
  | none => false

/-- R106 `mma_ready`, without its last line. -/
def mmaReady (opc : Nat) (l : Look) : Bool :=
  let m := l.c.me l.t.pos
  let n := l.f.dst.toNat
  let q := sliceOf l.f
  bOpen m q && (mmaFmt opc != 3 || decide (0 < (at' m.holders q (0#32, 0)).2)) && !m.bankBusy n &&
    (l.t.chosen || !bankHeld l.s l.t l.e n)

/-- R106: NULL_OPERAND before ILLEGAL_IN_MODE. -/
def mmaTrap (opc : Nat) (l : Look) : Option TrapInfo :=
  let q := sliceOf l.f
  match (l.e.queue q).take 2 |>.find? (fun t => t.ctl == .null) with
  | some t => some ⟨0x04, t.data, w64 q⟩
  | none => if ((l.c.me l.t.pos).bank l.f.dst.toNat).int != mmaInt opc then some l.illegal else none

/-- R100: one use of the current chunk by slice q. -/
def BEntry.consume (b : BEntry) (q : Nat) : BEntry :=
  match b.hold with
  | some h => { b with hold := some (h - 1) }
  | none => { b with cm := b.cm &&& ~~~(1#4 <<< q) }

/-- R100: the uses of a chunk are all made. -/
def BEntry.spent (b : BEntry) : Bool :=
  match b.hold with
  | some h => h == 0
  | none => b.cm == 0#4

/-- R100: at the end of a cycle a current chunk is freed once its uses are made. -/
def ME.freeSpent (m : ME) : ME := if (m.cur.map BEntry.spent).getD false then { m with cur := none } else m

/-- R99: the scale byte that an MX4 fire takes, and the holder after it. -/
def takeScale (h : W32 × Nat) : Nat × (W32 × Nat) := (field h.1 (8 * (4 - h.2)) 8, (h.1, h.2 - 1))

/-- R37, R107: does a row fire of format T2 read the code 10, which sets TC as it is read? -/
def readsT2Ten (opc : Nat) (chunk : BitVec 512) : Bool := mmaFmt opc == 5 && (List.range 64).any fun e => wide chunk 2 e == 2

/-- R107: the row leaves for the accumulator. -/
def mmaEffect (opc : Nat) (l : Look) (s : State) : State :=
  let q := sliceOf l.f
  let m := l.c.me l.t.pos
  let ts := (l.e.queue q).take 2
  let t0 := ts.getD 0 ⟨0#64, .raw, .data, false⟩
  let t1 := ts.getD 1 ⟨0#64, .raw, .data, false⟩
  let (sc, h) := takeScale (at' m.holders q (0#32, 0))
  let b := m.cur.getD ⟨0#512, 0#32, false, 0#4, none⟩
  (takeUndo l s).modCore l.t.k fun c =>
    let c := c.modMe l.t.pos fun m =>
      { m with
        cur := m.cur.map fun b => b.consume q
        holders := if mmaFmt opc = 3 then upd m.holders q h else m.holders
        gave := if mmaFmt opc = 3 ∧ h.2 = 0 then upd m.gave q true else m.gave }
    let c := c.modElem l.t.pos fun e => e.landFlags { Flags.none with tc := readsT2Ten opc b.chunk }
    c.fly (c.cyclesOf l.t.pos 4) l.e.runId (.mma ⟨l.t.pos, q, l.f.dst.toNat, opc, k1Data l.f.x t1.data ++ k1Data l.f.x t0.data, b.chunk, b.side,
      if mmaFmt opc = 3 then sc else 0, t0.tnt || t1.tnt || b.tnt⟩)

/-- An MMA (R106, R107): both tokens of the row, at the fire; the accumulator four cycles later. -/
def mmaOp (opc : Nat) : Op where
  opc := opc
  unit := .common
  delay := 1
  res := fun l => l.sa
  ready := mmaReady opc
  trap := mmaTrap opc
  whole := true
  entries := fun l => (bankUndo l).length
  take := 2
  counter := some (match mmaFmt opc with | 0 => 4 | 1 => 5 | 2 => 5 | 3 => 6 | _ => 7)
  effect := mmaEffect opc

/-- MMA.BF16 (R55, R107). -/
def execMmaBf16 (f : Fields) (s : State) : Host.Outcome State Fault Refusal := runOp (mmaOp 0x90) f s
/-- MMA.BF16.D (R55, R107). -/
def execMmaBf16D (f : Fields) (s : State) : Host.Outcome State Fault Refusal := runOp (mmaOp 0x91) f s
/-- MMA.BF16.Z (R55, R107). -/
def execMmaBf16Z (f : Fields) (s : State) : Host.Outcome State Fault Refusal := runOp (mmaOp 0x92) f s
/-- MMA.BF16.ZD (R55, R107). -/
def execMmaBf16Zd (f : Fields) (s : State) : Host.Outcome State Fault Refusal := runOp (mmaOp 0x93) f s
/-- MMA.E4M3 (R55, R107). -/
def execMmaE4m3 (f : Fields) (s : State) : Host.Outcome State Fault Refusal := runOp (mmaOp 0x94) f s
/-- MMA.E4M3.D (R55, R107). -/
def execMmaE4m3D (f : Fields) (s : State) : Host.Outcome State Fault Refusal := runOp (mmaOp 0x95) f s
/-- MMA.E4M3.Z (R55, R107). -/
def execMmaE4m3Z (f : Fields) (s : State) : Host.Outcome State Fault Refusal := runOp (mmaOp 0x96) f s
/-- MMA.E4M3.ZD (R55, R107). -/
def execMmaE4m3Zd (f : Fields) (s : State) : Host.Outcome State Fault Refusal := runOp (mmaOp 0x97) f s
/-- MMA.E5M2 (R55, R107). -/
def execMmaE5m2 (f : Fields) (s : State) : Host.Outcome State Fault Refusal := runOp (mmaOp 0x98) f s
/-- MMA.E5M2.D (R55, R107). -/
def execMmaE5m2D (f : Fields) (s : State) : Host.Outcome State Fault Refusal := runOp (mmaOp 0x99) f s
/-- MMA.E5M2.Z (R55, R107). -/
def execMmaE5m2Z (f : Fields) (s : State) : Host.Outcome State Fault Refusal := runOp (mmaOp 0x9A) f s
/-- MMA.E5M2.ZD (R55, R107). -/
def execMmaE5m2Zd (f : Fields) (s : State) : Host.Outcome State Fault Refusal := runOp (mmaOp 0x9B) f s
/-- MMA.MX4 (R55, R107). -/
def execMmaMx4 (f : Fields) (s : State) : Host.Outcome State Fault Refusal := runOp (mmaOp 0x9C) f s
/-- MMA.MX4.D (R55, R107). -/
def execMmaMx4D (f : Fields) (s : State) : Host.Outcome State Fault Refusal := runOp (mmaOp 0x9D) f s
/-- MMA.MX4.Z (R55, R107). -/
def execMmaMx4Z (f : Fields) (s : State) : Host.Outcome State Fault Refusal := runOp (mmaOp 0x9E) f s
/-- MMA.MX4.ZD (R55, R107). -/
def execMmaMx4Zd (f : Fields) (s : State) : Host.Outcome State Fault Refusal := runOp (mmaOp 0x9F) f s
/-- MMA.I8 (R55, R107). -/
def execMmaI8 (f : Fields) (s : State) : Host.Outcome State Fault Refusal := runOp (mmaOp 0xA0) f s
/-- MMA.I8.D (R55, R107). -/
def execMmaI8D (f : Fields) (s : State) : Host.Outcome State Fault Refusal := runOp (mmaOp 0xA1) f s
/-- MMA.I8.Z (R55, R107). -/
def execMmaI8Z (f : Fields) (s : State) : Host.Outcome State Fault Refusal := runOp (mmaOp 0xA2) f s
/-- MMA.I8.ZD (R55, R107). -/
def execMmaI8Zd (f : Fields) (s : State) : Host.Outcome State Fault Refusal := runOp (mmaOp 0xA3) f s
/-- MMA.T2 (R55, R107). -/
def execMmaT2 (f : Fields) (s : State) : Host.Outcome State Fault Refusal := runOp (mmaOp 0xA4) f s
/-- MMA.T2.D (R55, R107). -/
def execMmaT2D (f : Fields) (s : State) : Host.Outcome State Fault Refusal := runOp (mmaOp 0xA5) f s
/-- MMA.T2.Z (R55, R107). -/
def execMmaT2Z (f : Fields) (s : State) : Host.Outcome State Fault Refusal := runOp (mmaOp 0xA6) f s
/-- MMA.T2.ZD (R55, R107). -/
def execMmaT2Zd (f : Fields) (s : State) : Host.Outcome State Fault Refusal := runOp (mmaOp 0xA7) f s

/-! ### Landing and the B register (R100, R101, R107) -/

/-- R107: a row fire reaches the accumulator. -/
def execMmaRowLanding (s : State) : Host.Outcome State Fault Refusal :=
  s.onCore fun c =>
    let isMma (x : Cargo) : Bool := match x with | .mma _ => true | _ => false
    match takeDue isMma c.flights with
    | some (⟨_, _, _, .mma m⟩, rest) =>
      s.modCore s.key fun c =>
        let r := m.land ((c.me m.pos).bank m.bank)
        ({ c with flights := rest }.modMe m.pos fun x => x.setBank m.bank r.1).modElem m.pos fun e => e.landFlags r.2
    | _ => s

/-- R100: can an ME accept a chunk: an entry free and not reserved? -/
def ME.accepts (m : ME) : Bool := decide (m.reserved + b2n m.cur.isSome + b2n m.nxt.isSome < 2)

/-- R100: the slices for which the ME holds a valid MMA slot. -/
def enabledSlices (e : Elem) : BitVec 4 :=
  (List.range 16).foldl (fun (m : BitVec 4) i =>
    let w := e.slot i
    let opc := field w 30 8
    if w.getLsbD 1 && decide (0x90 ≤ opc ∧ opc ≤ 0xA7) then m ||| (1#4 <<< (field w 20 5 - 12)) else m) 0#4

/-- R100, R101: a chunk arrives at the B register of one ME. -/
def CoreCtx.chunkArrives (c : CoreCtx) (pos : Nat) (data : BitVec 512) (side : W32) (tnt : Bool) : CoreCtx :=
  let en := enabledSlices (c.elemD pos)
  c.modMe pos fun m =>
    let m := { m with reserved := m.reserved - 1 }
    if en = 0#4 then m
    else
      let b : BEntry := ⟨data, side, tnt, en, if m.ph = 0 then none else some m.ph⟩
      let m := { m with ph := 0 }
      if m.cur.isNone then { m with cur := some b } else { m with nxt := some b }

/-- R80, R100: a chunk of a column bus reaches the B registers of its rows. -/
def execColumnChunkDelivery (s : State) : Host.Outcome State Fault Refusal :=
  s.onCore fun c =>
    let isChunk (x : Cargo) : Bool := match x with | .chunk _ _ _ _ _ => true | _ => false
    match takeDue isChunk c.flights with
    | some (⟨_, _, _, .chunk col rmask data side tnt⟩, rest) =>
      s.modCore s.key fun c =>
        ((List.range 4).filter fun m => decide (rmask / 2 ^ m % 2 = 1)).foldl
          (fun c m => c.chunkArrives ((m + 2) * 8 + col) data side tnt) { c with flights := rest }
    | _ => s

/-- R79, R99: a row-bus token reaches its queue, or scales their holder. -/
def execRowBusDelivery (s : State) : Host.Outcome State Fault Refusal :=
  s.onCore fun c =>
    let isBus (x : Cargo) : Bool := match x with
      | .busToken _ _ _ => true
      | .busScales _ _ _ => true
      | _ => false
    match takeDue isBus c.flights with
    | some (⟨_, _, _, .busToken pos q t⟩, rest) =>
      s.modCore s.key fun c => { c with flights := rest }.modElem pos fun e => e.setQueue q (e.queue q ++ [t])
    | some (⟨_, _, _, .busScales pos q v⟩, rest) =>
      s.modCore s.key fun c => { c with flights := rest }.modMe pos fun m =>
        { m with holders := upd m.holders q (v, 4), scalesComing := upd m.scalesComing q (at' m.scalesComing q 0 - 1) }
    | _ => s

/-- ACC_DRN_ROW_SEND (R110): the drain of the bank that `here.idx` names sends its next row. -/
def execAccDrnRowSend (s : State) : Host.Outcome State Fault Refusal :=
  s.onCore fun c =>
    s.drainRow s.key s.here.pos s.here.idx ((c.elemD s.here.pos).runId)

/-! ### Column readers (R81, R102) -/

/-- Table 6.2. -/
def readerRmask (d : W64) : Nat := field d 47 4
def readerCount (d : W64) : Nat := field d 24 12 + 1
def readerPasses (d : W64) : Nat := field d 36 11 + 1

/-- The chunk number and the side-band byte of the next delivery. -/
def Reader.chunkNo (r : Reader) : Nat :=
  (((field r.desc 0 12 : Int) + r.idx * (r.desc.extractLsb' 12 12).toInt) % 4096).toNat
def Reader.sideAt (r : Reader) : Nat := (64 * field r.desc 52 12 + 4 * r.idx) % 0x40000

/-- The reader after a delivery, or none when it has made its passes. -/
def Reader.next (r : Reader) : Option Reader :=
  if r.idx + 1 < readerCount r.desc then some { r with idx := r.idx + 1 }
  else if r.pass + 1 < readerPasses r.desc then some { r with idx := 0, pass := r.pass + 1 }
  else none

/-- May the reader of column `col` deliver in this cycle: the staging chunk is empty and the target B registers accept? -/
def CoreCtx.readerReady (c : CoreCtx) (col : Nat) : Bool :=
  match c.readers.get? col with
  | some r =>
    let g := at' c.staging col Staging.empty
    ((List.range 8).all fun i => (at' g.lanes i none).isNone) && g.side.isNone && readerRmask r.desc != 0 &&
      (List.range 4).all fun m => readerRmask r.desc / 2 ^ m % 2 == 0 || (c.me ((m + 2) * 8 + col)).accepts
  | none => false

/-- Reserves an entry of each target B register and sends a chunk; it arrives after `left` cycles. -/
def CoreCtx.sendChunk (c : CoreCtx) (col rmask left run : Nat) (data : BitVec 512) (side : W32) (tnt : Bool) : CoreCtx :=
  (((List.range 4).filter fun m => decide (rmask / 2 ^ m % 2 = 1)).foldl
    (fun c m => c.modMe ((m + 2) * 8 + col) fun x => { x with reserved := x.reserved + 1 }) c).fly left run
      (.chunk col rmask data side tnt)

/-- COLUMN_READER_CHUNK (R81, R102): the reader of the column that `here.idx` names places a chunk on its bus. -/
def execColumnReaderChunk (s : State) : Host.Outcome State Fault Refusal :=
  s.onCore fun c =>
    let col := s.here.idx
    match c.readers.get? col with
    | none => s
    | some r =>
      if c.frozen = false ∧ c.readerReady col = true then
        let base := col * 0x40000
        let data := BitVec.ofNat 512 (leNat (c.upper.readN (base + 64 * r.chunkNo) 64))
        let side := if r.desc.getLsbD 51 then w32 (leNat (c.upper.readN (base + r.sideAt) 4)) else 0x7F7F7F7F#32
        let s := s.modCore s.key fun c =>
          let c := c.sendChunk col (readerRmask r.desc) 2 r.run data side false
          { c with
            colTaken := c.colTaken ++ [col]
            readers := match r.next with
              | some n => c.readers.put col n
              | none => c.readers.del col }
        s.count s.key 13 1
      else s

end Sys2Proof.Machine
end

