-- ==== Sys2Proof/Machine/Scratch.lean ====
section
/-! DEFINITION. The scratchpad element (R113 to R121): fired accesses, generators, streams, bursts and fills. -/

namespace Sys2Proof.Machine

/-! ### Words and owner bits (R113 to R116) -/

/-- A word; a word the bank does not list is 0 with tag RAW. -/
def SE.word (b : SE) (w : Nat) : W64 × Fmt := (b.bank.get? w).getD (0#64, .raw)

def SE.setWord (b : SE) (w : Nat) (v : W64 × Fmt) : SE :=
  { b with bank := if v = (0#64, .raw) then b.bank.del w else b.bank.put w v }

/-- R114: a scratchpad address is the low 11 bits. -/
def seAddr (a : W64) : Nat := field a 0 11

/-- R115: is the region of a word engine-owned? -/
def SE.owned (b : SE) (w : Nat) : Bool := b.own.getLsbD (w / 128)

/-- R121: does a fill run? -/
def SE.filling (b : SE) : Bool := decide (0 < b.fillLeft)

def Look.seOf (l : Look) : SE := l.c.se l.t.pos

/-- R116: the undo entry for the first write to a word in the open group. -/
def undoWord (l : Look) (w : Nat) : List BufOp :=
  let g := l.c.groupOf l.e.runId
  let have' := l.c.buf.any fun b => b.run == l.e.runId && b.group == g && match b.op with
    | .seUndo p x _ => p == l.t.pos && x == w
    | _ => false
  if have' then [] else [.seUndo l.t.pos w (l.seOf.word w)]

/-- Writes words of the bank, with their undo entries. -/
def seWrite (l : Look) (ws : List (Nat × (W64 × Fmt))) (s : State) : State :=
  let ops := ws.flatMap fun w => undoWord l w.1
  (s.buffer l.t.k l.e.runId l.t.pos ops).modCore l.t.k fun c =>
    c.modSe l.t.pos fun b => ws.foldl (fun b w => b.setWord w.1 w.2) b

/-- A fired access (R114, R115). -/
def seOp (opc delay : Nat) (r : Look → Res) : Op where
  opc := opc
  unit := .store
  delay := delay
  res := r
  counter := some 8

/-- May the slot access a word now? -/
def mayAccess (l : Look) (w : Nat) : Bool := !l.seOf.filling && !l.seOf.owned w

/-! ### Loads, stores and atomics (R117) -/

/-- SLD: data and format from the word, taint from the address. -/
def sldOp : Op :=
  { seOp 0xB0 2 fun l => let w := l.seOf.word (seAddr l.i.a.data); ⟨w.1, w.2, l.i.tnt, Flags.none, none⟩ with
    ready := fun l => mayAccess l (seAddr l.i.a.data)
    word := fun l => some (seAddr l.i.a.data) }
def execSld (f : Fields) (s : State) : Host.Outcome State Fault Refusal := runOp sldOp f s

/-- R27, R29, R117: does an SST store? -/
def sstStores (l : Look) : Bool := l.i.guard && !(l.f.x && codeIsQueue l.f.sb.toNat && l.i.ctlB == .null)

/-- SST. -/
def sstOp : Op :=
  { seOp 0xB1 2 (fun l => l.sa) with
    ready := fun l => if sstStores l then mayAccess l (seAddr l.i.a.data) else true
    store := true
    entries := fun l => if sstStores l then (undoWord l (seAddr l.i.a.data)).length else 0
    effect := fun l s =>
      if sstStores l then seWrite l [(seAddr l.i.a.data, (l.i.b.data, l.i.b.fmt))] s else s }
def execSst (f : Fields) (s : State) : Host.Outcome State Fault Refusal := runOp sstOp f s

/-- R113, Table 15.4: is the word's region shared with other blocks? -/
def sharedWord (l : Look) (w : Nat) : Bool := l.e.cfg.kindWord.getLsbD (w / 128)

/-- An atomic: the new word from the old one and b; with a guard of 0 it accesses nothing and gives 0 (R117). -/
def seAtomic (opc : Nat) (g : W64 → W64 → W64) : Op :=
  { seOp opc 2 fun l =>
      if l.i.guard then l.int (l.seOf.word (seAddr l.i.a.data)).1 else l.int 0#64 with
    ready := fun l => if l.i.guard then mayAccess l (seAddr l.i.a.data) else true
    stalls := fun l => l.i.guard && sharedWord l (seAddr l.i.a.data)
    entries := fun l => if l.i.guard then (undoWord l (seAddr l.i.a.data)).length else 0
    effect := fun l s =>
      if l.i.guard then
        let w := seAddr l.i.a.data
        let old := l.seOf.word w
        seWrite l [(w, (g old.1 l.i.b.data, old.2))] s
      else s
    word := fun l => if l.i.guard then some (seAddr l.i.a.data) else none }

/-- SAADD. -/
def saaddOp : Op := seAtomic 0xB5 fun o b => o + b
def execSaadd (f : Fields) (s : State) : Host.Outcome State Fault Refusal := runOp saaddOp f s

/-- SAMAX. -/
def samaxOp : Op := seAtomic 0xB6 fun o b => if o.slt b then b else o
def execSamax (f : Fields) (s : State) : Host.Outcome State Fault Refusal := runOp samaxOp f s

/-- SCAS. -/
def scasOp : Op := seAtomic 0xB7 fun o b =>
  if o.extractLsb' 0 32 = b.extractLsb' 32 32 then o.extractLsb' 32 32 ++ b.extractLsb' 0 32 else o
def execScas (f : Fields) (s : State) : Host.Outcome State Fault Refusal := runOp scasOp f s

/-! ### Generators (R119) -/

def SE.gen (b : SE) (g : Nat) : SGen := at' b.gens g ⟨0, 0#12, 0, 0, false, 0, false, false⟩
def SE.setGen (b : SE) (g : Nat) (x : SGen) : SE := { b with gens := upd b.gens g x }

/-- R119 `gen_addr`. -/
def SGen.addr (g : SGen) : Nat := (((g.base : Int) + g.pos * g.stride.toInt) % 2048).toNat

/-- R119 `advance`. -/
def SGen.advance (g : SGen) : SGen := { g with pos := if g.pos + 1 = g.count then 0 else g.pos + 1 }

def genOf (l : Look) : Nat := field l.i.a.data 0 2
def genReady (l : Look) : Bool :=
  let g := l.seOf.gen (genOf l)
  g.configured && !g.busy && mayAccess l g.addr

def advanceGen (l : Look) (s : State) : State :=
  s.modCore l.t.k fun c => c.modSe l.t.pos fun b => b.setGen (genOf l) (b.gen (genOf l)).advance

/-- SLDG: with TOUT = 000 the tag is LAST at the last position. -/
def sldgOp : Op :=
  { seOp 0xB2 2 fun l =>
      let g := l.seOf.gen (genOf l)
      let w := l.seOf.word g.addr
      ⟨w.1, w.2, l.i.tnt, Flags.none,
        if l.f.tout = 0#3 then some (if g.pos + 1 = g.count then .last else .data) else none⟩ with
    ready := genReady
    effect := advanceGen
    word := fun l => some (l.seOf.gen (genOf l)).addr }
def execSldg (f : Fields) (s : State) : Host.Outcome State Fault Refusal := runOp sldgOp f s

/-- SSTG. -/
def sstgOp : Op :=
  { seOp 0xB3 2 (fun l => l.sa) with
    ready := genReady
    entries := fun l => (undoWord l (l.seOf.gen (genOf l)).addr).length
    effect := fun l s =>
      advanceGen l (seWrite l [((l.seOf.gen (genOf l)).addr, (l.i.b.data, l.i.b.fmt))] s) }
def execSstg (f : Fields) (s : State) : Host.Outcome State Fault Refusal := runOp sstgOp f s

/-- R119: the generator and port of an SGEN control word, and whether it starts a stream. -/
def sgenNo (b : W64) : Nat := field b 0 2
def sgenStream (b : W64) : Bool := b.getLsbD 2
def sgenPort (b : W64) : Nat := field b 3 2

/-- R119, R120: SGEN loads a generator; with STREAM = 1 it starts a stream that holds its port; an unrouted port ends
the stream at once. -/
def sgenEffect (l : Look) (s : State) : State :=
  let a := l.i.a.data
  let b := l.i.b.data
  let p := sgenPort b
  let routed := !(l.e.port p).recvs.isEmpty
  let run := sgenStream b && routed
  let g : SGen := ⟨field a 0 11, a.extractLsb' 11 12, field a 23 12 + 1, 0, sgenStream b, p, run, true⟩
  s.modCore l.t.k fun c =>
    let c := c.modSe l.t.pos fun x => x.setGen (sgenNo b) g
    if run then c.modElem l.t.pos fun e => e.setPort p { e.port p with hold := some (.gen (sgenNo b)) } else c

/-- SGEN. -/
def sgenOp : Op :=
  { seOp 0xB4 1 (fun l => l.sa) with
    ready := fun l =>
      let b := l.i.b.data
      !(l.seOf.gen (sgenNo b)).busy && !(sgenStream b && (l.e.port (sgenPort b)).hold.isSome)
    counter := none
    effect := sgenEffect }
def execSgen (f : Fields) (s : State) : Host.Outcome State Fault Refusal := runOp sgenOp f s

/-! ### Owner bits (R115) -/

/-- R115: has a stream or burst words left in a region? -/
def SE.streamIn (b : SE) (r : Nat) : Bool :=
  ((List.range 4).any fun i =>
    let g := b.gen i
    g.busy && ((List.range (g.count - g.pos)).any fun k => ({ g with pos := g.pos + k }).addr / 128 == r)) ||
  (match b.burst with
    | some x => decide (x.prog < 8) && x.addr * 8 / 128 == r
    | none => false)

/-- R115: may SOWN change the masked regions now? -/
def sownReady (l : Look) : Bool :=
  let a := l.i.a.data
  let regions := (List.range 16).filter fun r => a.getLsbD r
  let flight (r : Nat) : Bool := l.seOf.filling && l.seOf.fillMask.getLsbD r || l.c.flights.any fun fl => match fl.cargo with
    | .result x => x.pos == l.t.pos && (x.word.map fun w => w / 128) == some r
    | .streamWord p _ w _ _ _ => p == l.t.pos && w / 128 == r
    | _ => false
  let dirty (r : Nat) : Bool := l.c.buf.any fun b => b.run == l.e.runId && match b.op with
    | .seUndo p w _ => p == l.t.pos && w / 128 == r
    | _ => false
  regions.all fun r =>
    !flight r && !l.seOf.streamIn r &&
      (if a.getLsbD 16 then !dirty r else !l.s.engineOnSe l.t.k.1 l.t.k.2 l.t.pos r)

/-- SOWN. -/
def sownOp : Op :=
  { seOp 0xB8 1 (fun l => l.sa) with
    ready := sownReady
    counter := none
    effect := fun l s => s.modCore l.t.k fun c => c.modSe l.t.pos fun b =>
      let m : BitVec 16 := l.i.a.data.extractLsb' 0 16
      { b with own := if l.i.a.data.getLsbD 16 then b.own ||| m else b.own &&& ~~~m } }
def execSown (f : Fields) (s : State) : Host.Outcome State Fault Refusal := runOp sownOp f s

/-! ### Fills and bursts (R120, R121) -/

/-- The words of an SFILL. -/
def fillWords (a : W64) : List Nat := (List.range (field a 11 11 + 1)).map fun i => (field a 0 11 + i) % 2048

/-- R121: the aligned groups of eight words that a fill touches. -/
def fillGroups (a : W64) : Nat := min 256 ((field a 0 11 % 8 + field a 11 11 + 1 + 7) / 8)

/-- The regions that a fill writes. -/
def fillMask (a : W64) : BitVec 16 :=
  BitVec.ofNat 16 ((List.range 16).map fun r => b2n ((fillWords a).any fun w => w / 128 == r) * 2 ^ r).sum

/-- SFILL. -/
def sfillOp : Op :=
  { seOp 0xB9 1 (fun l => l.sa) with
    ready := fun l => !l.seOf.filling && (fillWords l.i.a.data).all fun w => !l.seOf.owned w
    entries := fun l => ((fillWords l.i.a.data).flatMap fun w => undoWord l w).length
    effect := fun l s =>
      (seWrite l ((fillWords l.i.a.data).map fun w => (w, (l.i.b.data, l.i.b.fmt))) s).modCore l.t.k fun c =>
        c.modSe l.t.pos fun b =>
          { b with fillLeft := c.cyclesOf l.t.pos (fillGroups l.i.a.data), fillMask := fillMask l.i.a.data } }
def execSfill (f : Fields) (s : State) : Host.Outcome State Fault Refusal := runOp sfillOp f s

/-- SBEAT (R67, R120): one burst at a time (log 16). -/
def sbeatOp : Op :=
  { seOp 0xBA 2 (fun l => l.sa) with
    ready := fun l => l.seOf.burst.isNone
    counter := none
    effect := fun l s =>
      let p := l.f.dst.toNat - 24
      s.modCore l.t.k fun c =>
        (c.modSe l.t.pos fun b => { b with burst := some ⟨field l.i.a.data 3 8, 0, p⟩ }).modElem l.t.pos fun e =>
          e.setPort p { e.port p with hold := some .burst } }
def execSbeat (f : Fields) (s : State) : Host.Outcome State Fault Refusal := runOp sbeatOp f s

/-! ### Streams (R114, R120) -/

/-- The next word of stream i (0 to 3 the generators, 4 the burst), its port, and whether it is the last. -/
def SE.nextWord (b : SE) (i : Nat) : Option (Nat × Nat × Bool) :=
  if i < 4 then
    let g := b.gen i
    if g.busy ∧ g.pos < g.count then some (g.addr, g.port, g.pos + 1 == g.count) else none
  else match b.burst with
    | some x => if x.prog < 8 then some (8 * x.addr + x.prog, x.port, x.prog == 7) else none
    | none => none

/-- R120: is stream i eligible: a word left, thread-owned, and a credit on its port? -/
def CoreCtx.streamReady (c : CoreCtx) (pos i : Nat) : Bool :=
  let b := c.se pos
  match b.nextWord i with
  | some (w, p, _) => !b.owned w && ((c.elemD pos).port p).writable
  | none => false

/-- R120: the stream port reads one word for the first eligible stream from the pointer on; the credit is taken now and
the word is sent two cycles later. DESIGN CHOICE (log 110): its token has TNT 0. -/
def CoreCtx.streamRead (c : CoreCtx) (pos : Nat) : CoreCtx :=
  let b := c.se pos
  if b.filling then c
  else
    match ((List.range 5).map fun i => (b.ptr + i) % 5).find? fun i => c.streamReady pos i with
    | none => c
    | some i =>
      match b.nextWord i with
      | none => c
      | some (w, p, last) =>
        let (v, fm) := b.word w
        let c := c.modSe pos fun b =>
          let b := { b with ptr := (i + 1) % 5 }
          if i < 4 then b.setGen i { b.gen i with pos := (b.gen i).pos + 1 }
          else { b with burst := b.burst.map fun x => { x with prog := x.prog + 1 } }
        (c.holdCredit pos p).fly (c.cyclesOf pos 2) ((c.elemD pos).runId)
          (.streamWord pos p w ⟨v, fm, if last then .last else .data, false⟩ last (if i < 4 then .gen i else .burst))

/-- SE_STREAM_WORD (R114, R120): with `here.val` = 0 a word read two cycles ago is sent; otherwise the stream port of
the SE at `here.pos` reads. -/
def execSeStreamWord (s : State) : Host.Outcome State Fault Refusal :=
  s.onCore fun c =>
    if s.here.val = 0 then
      let isWord (x : Cargo) : Bool := match x with | .streamWord _ _ _ _ _ _ => true | _ => false
      match takeDue isWord c.flights with
      | some (⟨_, run, _, .streamWord pos p _ t last h⟩, rest) =>
        (s.modCore s.key fun c =>
          let c := { c with flights := rest }.send pos p run true t
          if last then c.endHold pos p run h else c).count s.key 23 1
      | _ => s
    else if c.frozen then s
    else
      let i := ((List.range 5).map fun i => ((c.se s.here.pos).ptr + i) % 5).any fun i => c.streamReady s.here.pos i
      let s' := s.modCore s.key fun _ => c.streamRead s.here.pos
      if i && !(c.se s.here.pos).filling then s'.count s.key 8 1 else s'

end Sys2Proof.Machine
end

