-- ==== Sys2Proof/Machine/Stream.lean ====
section
/-! DEFINITION. Stream and control operations of a PE and the two broadcast buses, 0x40 to 0x47 (R75 to R82). -/

namespace Sys2Proof.Machine

/-- A stream operation (R65, R76). -/
def streamOp (opc : Nat) (whole : Bool) (r : Look → Res) : Op where
  opc := opc
  unit := .int
  delay := 1
  res := r
  whole := whole
  counter := some 1

/-- SEL (R75). -/
def selOp : Op := streamOp 0x40 false fun l =>
  let x := if l.i.guard then l.i.a else l.i.b
  ⟨x.data, x.fmt, l.i.tnt, Flags.none, none⟩
def execSel (f : Fields) (s : State) : Host.Outcome State Fault Refusal := runOp selOp f s

/-- PASS (R76). -/
def passOp : Op := streamOp 0x41 true fun l => ⟨l.i.a.data, l.i.a.fmt, l.i.tnt, Flags.none, none⟩
def execPass (f : Fields) (s : State) : Host.Outcome State Fault Refusal := runOp passOp f s

/-- DROP (R67, R76). -/
def dropOp : Op := streamOp 0x42 true fun l => l.sa
def execDrop (f : Fields) (s : State) : Host.Outcome State Fault Refusal := runOp dropOp f s

/-- TAGR (R76): tag and format of the head. -/
def tagrOp : Op := streamOp 0x43 true fun l =>
  l.int (w64 (l.i.ctlA.code + 4 * l.i.a.fmt.code))
def execTagr (f : Fields) (s : State) : Host.Outcome State Fault Refusal := runOp tagrOp f s

/-- TAGW (R76). -/
def tagwOp : Op := streamOp 0x44 true fun l =>
  let b := l.i.b.data
  ⟨l.i.a.data, if b.getLsbD 2 then Fmt.ofCode (field b 3 3) else l.i.a.fmt, l.i.tnt, Flags.none,
    some (Ctl.ofCode (field b 0 2))⟩
def execTagw (f : Fields) (s : State) : Host.Outcome State Fault Refusal := runOp tagwOp f s

/-- PACK2 (R77). -/
def pack2Op : Op := streamOp 0x47 false fun l =>
  ⟨l.i.b.data.extractLsb' 0 32 ++ l.i.a.data.extractLsb' 0 32, if l.i.a.fmt = l.i.b.fmt then l.i.a.fmt else .raw, l.i.tnt,
    Flags.none, none⟩
def execPack2 (f : Fields) (s : State) : Host.Outcome State Fault Refusal := runOp pack2Op f s

/-! ### Row bus (R78, R79, R82) -/

def rowOf (label : W64) : Nat := field label 0 2
def rowQueue (label : W64) : Nat := field label 2 2
def isScl (label : W64) : Bool := label.getLsbD 16

/-- The MEs a row-bus label names. -/
def rowMes (label : W64) : List Nat :=
  ((List.range 8).filter fun c => label.getLsbD (8 + c)).map fun c => (rowOf label + 2) * 8 + c

/-- R79, R82: may the token enter the row bus now: a free queue slot in every masked ME, or free scale holders, within
eight data tokens and one SCL token of the cycle? -/
def busrReady (l : Look) : Bool :=
  let lab := l.i.b.data
  let (n, scl) := at' l.c.rowUsed (rowOf lab) (0, false)
  if isScl lab then
    !scl && (rowMes lab).all fun p =>
      let m := l.c.me p
      (at' m.holders (rowQueue lab) (0#32, 0)).2 == 0 && at' m.scalesComing (rowQueue lab) 0 == 0 &&
        !at' m.gave (rowQueue lab) false
  else decide (n < 8) && (rowMes lab).all fun p => decide (at' (l.c.me p).qUsed (rowQueue lab) 0 < 4)

/-- R79: the token is on its way to the queues or the scale holders. -/
def busrEffect (l : Look) (s : State) : State :=
  let lab := l.i.b.data
  let q := rowQueue lab
  let row := rowOf lab
  let tok : Token := ⟨l.i.a.data, l.i.a.fmt, if codeIsQueue l.f.sa.toNat then l.i.ctlA else .data, l.i.tnt⟩
  s.modCore l.t.k fun c =>
    let u := at' c.rowUsed row (0, false)
    let c := { c with
      rowUsed := upd c.rowUsed row (if isScl lab then (u.1, true) else (u.1 + 1, u.2))
      grant := upd c.grant row ((l.t.pos + 1) % 64) }
    (rowMes lab).foldl (fun c p =>
      if isScl lab then
        (c.modMe p fun m => { m with scalesComing := upd m.scalesComing q (at' m.scalesComing q 0 + 1) }).fly 2 l.e.runId
          (.busScales p q (tok.data.extractLsb' 0 32))
      else
        (c.modMe p fun m => { m with qUsed := upd m.qUsed q (at' m.qUsed q 0 + 1) }).fly 2 l.e.runId (.busToken p q tok)) c

/-- BUSR (R67, R78, R79). -/
def busrOp : Op := { streamOp 0x45 false (fun l => l.sa) with ready := busrReady, effect := busrEffect }
def execBusr (f : Fields) (s : State) : Host.Outcome State Fault Refusal := runOp busrOp f s

/-! ### Column bus (R80, R81, R82) -/

def colOf (label : W64) : Nat := field label 0 3
def colLane (label : W64) : Nat := field label 3 3
def colRmask (label : W64) : Nat := field label 8 4

def CoreCtx.staged (c : CoreCtx) (col : Nat) : Staging := at' c.staging col Staging.empty

def Staging.isEmpty (g : Staging) : Bool := (List.range 8).all (fun i => (at' g.lanes i none).isNone) && g.side.isNone
def Staging.isFull (g : Staging) : Bool := (List.range 8).all fun i => (at' g.lanes i none).isSome

/-- R80: may the write enter the staging chunk? -/
def buscReady (l : Look) : Bool :=
  let lab := l.i.b.data
  let g := l.c.staged (colOf lab)
  colRmask lab != 0 && !l.c.colTaken.contains (colOf lab) && (g.isEmpty || g.rmask == colRmask lab) &&
    (if isScl lab then g.side.isNone else (at' g.lanes (colLane lab) none).isNone)

/-- R80: a lane or the side band is written; the first write sets the row mask. DESIGN CHOICE (log 108): the one TNT of the chunk is
that of any of its writes. -/
def buscEffect (l : Look) (s : State) : State :=
  let lab := l.i.b.data
  let col := colOf lab
  s.modCore l.t.k fun c =>
    let g := c.staged col
    let g := { g with rmask := colRmask lab, tnt := (if g.isEmpty then false else g.tnt) || l.i.tnt }
    let g := if isScl lab then { g with side := some (l.i.a.data.extractLsb' 0 32) }
      else { g with lanes := upd g.lanes (colLane lab) (some l.i.a.data) }
    { c with staging := upd c.staging col g, grant := upd c.grant (4 + col) ((l.t.pos + 1) % 64) }

/-- BUSC (R67, R78, R80). -/
def buscOp : Op := { streamOp 0x46 false (fun l => l.sa) with ready := buscReady, effect := buscEffect }
def execBusc (f : Fields) (s : State) : Host.Outcome State Fault Refusal := runOp buscOp f s

end Sys2Proof.Machine
end

