-- ==== Sys2Proof/Machine/OpTable.lean ====
section
/-! DEFINITION. The element operation of each opcode (Tables 3.7 to 3.9), for selectors, traps and resumption. -/

namespace Sys2Proof.Machine

/-- Every element operation. -/
def allOps : List Op :=
  [movOp, addOp, subOp, addwOp, subwOp, mulOp, mulhOp, mulhnOp, divOp, divnOp, remOp, remnOp] ++
  [andOp, orOp, xorOp, andnOp, shlOp, shrOp, sraOp, rotrOp, minOp, maxOp, minnOp, maxnOp] ++
  [absOp, clzOp, popcOp, extOp, insOp, seqOp, sneOp, sltOp, sleOp, sltnOp, slenOp, mulaOp] ++
  [crdOp, crxOp, incOp, decOp, stepOp, selOp, passOp, dropOp, tagrOp, tagwOp, busrOp, buscOp] ++
  [pack2Op, faddOp, fsubOp, fmulOp, fmaOp, fminOp, fmaxOp, fabsOp, fnegOp, fcltOp, fceqOp, fexp2Op] ++
  [flog2Op, frcpOp, frsqOp, fsumOp, fsclOp, vaddBfOp, vsubBfOp, vmulBfOp, vfmaBfOp, vmaxBfOp, vminBfOp, vdotBfOp] ++
  [vrsumBfOp, vaddBOp, vaddsBOp, vsubBOp, vmaxBOp, vminBOp, vdotBOp, vaddWOp, vmulWOp, vshufOp, vbcastOp, vselOp] ++
  [(mmaOp 0x90), (mmaOp 0x91), (mmaOp 0x92), (mmaOp 0x93), (mmaOp 0x94), (mmaOp 0x95), (mmaOp 0x96), (mmaOp 0x97), (mmaOp 0x98), (mmaOp 0x99), (mmaOp 0x9A), (mmaOp 0x9B)] ++
  [(mmaOp 0x9C), (mmaOp 0x9D), (mmaOp 0x9E), (mmaOp 0x9F), (mmaOp 0xA0), (mmaOp 0xA1), (mmaOp 0xA2), (mmaOp 0xA3), (mmaOp 0xA4), (mmaOp 0xA5), (mmaOp 0xA6), (mmaOp 0xA7)] ++
  [accZeroOp, accDcyOp, accSclOp, accDrnOp, accRdOp, accPatchOp, accModeOp, bholdOp, sldOp, sstOp, sldgOp, sstgOp] ++
  [sgenOp, saaddOp, samaxOp, scasOp, sownOp, sfillOp, sbeatOp, cvtBfF32Op, cvtF32BfOp, cvtE4F32Op, cvtE5F32Op, cvtF32E4Op] ++
  [cvtF32E5Op, cvtBfE4Op, cvtMx4BfOp, cvtBfMx4Op, cvtI8F32Op, cvtF32I8Op, cvtF32I64Op, cvtI64F32Op, gldOp, gldcOp, gstOp, gatomOp] ++
  [gldbOp, agenOp, astrOp, xferOp, gredOp, collOp, routeOp, msndOp, tstatOp, mownOp, nopOp, haltOp] ++
  [commitOp, trapOp, waitcOp, timeOp, cycOp, idOp, fenceOp, barsOp, cwsetOp, watchOp, cfgwOp, arrvOp] ++
  [evtOp]

/-- The operation of an opcode. -/
def opOf (opc : Nat) : Option Op := allOps.find? fun o => o.opc == opc

end Sys2Proof.Machine
end

