-- ==== Sys2Proof/Machine/CoreEv.lean ====
section
/-! DEFINITION. What the elements of a core do beside their fires: arrivals (R16 to R19, R26), detours (R17, R126), the
selector (R22, R105) and the traps of chosen slots (R30), and the admission window (R159). -/

namespace Sys2Proof.Machine

/-! ### Arrivals -/

/-- LONG_RESULT_ARRIVAL (R19, R25, R26): the first result due is written to its register, or sent with the credit it
holds; it sets flags and updates its predicate. -/
def execLongResultArrival (s : State) : Host.Outcome State Fault Refusal :=
  s.onCore fun c =>
    let isResult (x : Cargo) : Bool := match x with | .result _ => true | _ => false
    match takeDue isResult c.flights with
    | some (⟨_, run, _, .result r⟩, rest) =>
      let s := s.modCore s.key fun c =>
        let c := { c with flights := rest }
        let c := if r.dst ≤ 11 then c.modElem r.pos fun e => e.setReg r.dst ⟨r.data, r.fmt, r.tnt, true, false⟩
          else if codeIsPort r.dst then c.send r.pos (r.dst - 24) run true ⟨r.data, r.fmt, r.ctl, r.tnt⟩
          else c
        c.modElem r.pos fun e => (e.landFlags r.flags).landPred r.pu r.pn r.data r.tnt
      if codeIsPort r.dst then s.count s.key 23 1 else s
    | _ => s

/-- TOKEN_ARRIVAL (R16): the first token due enters its queue. -/
def execTokenArrival (s : State) : Host.Outcome State Fault Refusal :=
  s.onCore fun c =>
    let isToken (x : Cargo) : Bool := match x with | .token _ _ _ => true | _ => false
    match takeDue isToken c.flights with
    | some (⟨_, _, _, .token pos q t⟩, rest) =>
      s.modCore s.key fun c => { c with flights := rest }.modElem pos fun e => e.setQueue q (e.queue q ++ [t])
    | _ => s

/-- CREDIT_RETURN (R18, R79): the first credit due comes back to its sender; ports numbered from 4 stand for detours,
whose room is counted at the CE (R126). -/
def execCreditReturn (s : State) : Host.Outcome State Fault Refusal :=
  s.onCore fun c =>
    let isCredit (x : Cargo) : Bool := match x with | .credit _ _ _ => true | .busCredit _ _ => true | _ => false
    match takeDue isCredit c.flights with
    | some (⟨_, _, _, .credit pos p i⟩, rest) =>
      s.modCore s.key fun c =>
        let c := { c with flights := rest }
        if 4 ≤ p then c
        else
          let c := c.modElem pos fun e =>
            e.setPort p { e.port p with recvs := modAt (fun r => { r with credits := r.credits + 1 }) (e.port p).recvs i }
          if kindAt pos = .le then c.topUp pos p else c
    | some (⟨_, _, _, .busCredit pos q⟩, rest) =>
      s.modCore s.key fun c =>
        { c with flights := rest }.modMe pos fun m => { m with qUsed := upd m.qUsed q (at' m.qUsed q 0 - 1) }
    | _ => s

/-! ### Detours (R17, R126) -/

/-- Slots of a CE queue in use as its detour sees them: tokens in it, on their way, or freed less than a route ago. -/
def CoreCtx.detourUsed (c : CoreCtx) (src ce q : Nat) : Nat :=
  ((c.elemD ce).queue q).length + (c.flights.filter fun f => match f.cargo with
    | .token p x _ => p == ce && x == q
    | .credit p x _ => p == src && x == 4 + q
    | _ => false).length

/-- DETOUR_SEND (R17): the unaccepted head of queue `here.idx` of the element at `here.pos` leaves over its detour once
the route has room. -/
def execDetourSend (s : State) : Host.Outcome State Fault Refusal :=
  s.onCore fun c =>
    let pos := s.here.pos
    let q := s.here.idx
    match c.elem? pos with
    | none => s
    | some e =>
      match e.head? q, detourCe (at' e.cfg.detour q 0) with
      | some t, some ce =>
        if e.detours q ∧ c.frozen = false ∧ c.detourUsed pos ce q < 4 then
          (s.modCore s.key fun c =>
            let c := c.dequeue pos q 1
            c.fly (routeLat pos ce) e.runId (.token ce q t)).count s.key 23 1
        else s
      | _, _ => s

/-! ### The selector (R22, R105) -/

/-- The instance that chooses a slot: 0 to 3 the slices of an ME, 4 every other (R105). -/
def instanceOf (pos : Nat) (w : W64) : Nat :=
  let opc := field w 30 8
  if kindAt pos = .me ∧ 0x90 ≤ opc ∧ opc ≤ 0xA7 then field w 20 5 - 12 else 4

/-- Whether a slot is ready or trap-ready for selection (R21); no bus write has been granted yet when it is (R82). -/
def State.slotView (s : State) (k : Key) (pos slot : Nat) (w : W64) : Status :=
  if w.getLsbD 1 = false then .wait
  else match opOf (field w 30 8) with
    | none => .wait
    | some o => slotStatus o (Fields.ofWord w) s ⟨k, pos, slot, false, 0⟩

/-- The candidates of an instance: slot, PRI and status. -/
def State.candidates (s : State) (k : Key) (pos inst : Nat) (e : Elem) : List (Nat × Nat × Status) :=
  (List.range 16).filterMap fun i =>
    let w := e.slot i
    if instanceOf pos w ≠ inst then none
    else match s.slotView k pos i w with
      | .wait => none
      | st => some (i, field w 5 2, st)

/-- An instance's pointer. -/
def CoreCtx.ptrOf (c : CoreCtx) (pos inst : Nat) (e : Elem) : Nat :=
  if inst < 4 then at' (c.me pos).slicePtrs inst 0 else e.ptr

/-- R22 `select()`: the chosen slot with its status. -/
def choose (e : Elem) (ptr : Nat) (cs : List (Nat × Nat × Status)) : Option (Nat × Status) :=
  let aged := cs.filter fun x => decide (e.cfg.age ≤ at' e.ages x.1 0)
  let top := cs.foldl (fun m x => max m x.2.1) 0
  let pool := if aged.isEmpty then cs.filter fun x => x.2.1 == top else aged
  ((List.range 16).findSome? fun d => pool.find? fun x => x.1 == (ptr + d) % 16).map fun x => (x.1, x.2.2)

/-- R22: ages and pointer of one instance after it has chosen. -/
def CoreCtx.chosen (c : CoreCtx) (pos inst : Nat) (cand : List Nat) (pick : Option Nat) : CoreCtx :=
  let c := c.modElem pos fun e =>
    { e with
      ages := (List.range 16).foldl (fun v i =>
        if instanceOf pos (e.slot i) ≠ inst then v
        else if pick = some i then upd v i 0
        else if cand.contains i then upd v i (min (at' v i 0 + 1) 63)
        else upd v i 0) e.ages
      ptr := match pick with
        | some i => if inst = 4 then (i + 1) % 16 else e.ptr
        | none => e.ptr }
  match pick with
  | some i => if inst < 4 then c.modMe pos fun m => { m with slicePtrs := upd m.slicePtrs inst ((i + 1) % 16) } else c
  | none => c

/-- The instances of an element. -/
def instances (pos : Nat) : List Nat := if kindAt pos = .me then [0, 1, 2, 3, 4] else [4]

/-- R100: a chosen row fire takes one use of a counted chunk, so that a higher slice finds the rest. -/
def State.afterSlice (s : State) (k : Key) (pos inst : Nat) (pick : Option (Nat × Status)) : State :=
  match pick with
  | some (_, .ready) =>
    if inst < 4 then s.modCore k fun c => c.modMe pos fun m => { m with cur := m.cur.map fun b => { b with hold := b.hold.map (· - 1) } }
    else s
  | _ => s

/-- What each instance chooses, in ascending order (R105): its number, its candidates and its choice. -/
def State.picks (s : State) (k : Key) (pos : Nat) (c : CoreCtx) (e : Elem) : List Nat → List (Nat × List Nat × Option (Nat × Status))
  | [] => []
  | inst :: rest =>
    let cs := s.candidates k pos inst e
    let p := choose e (c.ptrOf pos inst e) cs
    (inst, cs.map (·.1), p) :: (s.afterSlice k pos inst p).picks k pos c e rest

/-- What a selector has decided: a trap, or slots to fire, or a bus write to arbitrate. -/
inductive Choice where
  | none
  | trap (slot : Nat) (t : TrapInfo)
  | fire (slots : List Nat)
  | bus (slot : Nat)
  deriving DecidableEq, Repr

/-- R22, R146: while a WAITC holds an element nothing is chosen; a slot that R21 calls ready grows older (Table 12.2). -/
def State.ageWaiting (s : State) (k : Key) (pos : Nat) (c : CoreCtx) (e : Elem) : State :=
  let e := { e with waiting := false }
  if !awake c e then s
  else
    let s' := s.modElem k pos fun x => { x with waiting := false }
    let c := c.modElem pos fun x => { x with waiting := false }
    s.modCore k fun x => (s'.picks k pos c e (instances pos)).foldl (fun x p => x.chosen pos p.1 p.2.1 none) x

/-- One cycle of an element's selectors (R22, R82, R105): the ages and pointers, and what is to happen. -/
def State.selectElement (s : State) (k : Key) (pos : Nat) : State × Choice :=
  match s.core? k with
  | Option.none => (s, .none)
  | some c =>
    match c.elem? pos with
    | Option.none => (s, .none)
    | some e =>
      if e.waiting then (s.ageWaiting k pos c e, .none)
      else if !awake c e then (s, .none)
      else
        let picks := s.picks k pos c e (instances pos)
        match picks.findSome? fun p => match p.2.2 with
          | some (i, .trap t) => some (i, t)
          | _ => Option.none with
        | some (i, t) => (s, .trap i t)
        | Option.none =>
          let fires := picks.filterMap fun p => p.2.2.map (·.1)
          match fires with
          | [i] =>
            let opc := field (e.slot i) 30 8
            if opc = 0x45 ∨ opc = 0x46 then
              let cands := (picks.map fun p => p.2.1).flatten
              (s.modCore k fun c => { c with busChosen := c.busChosen ++ [⟨pos, i, cands⟩] }, .bus i)
            else (s.modCore k fun c => picks.foldl (fun c p => c.chosen pos p.1 p.2.1 (p.2.2.map (·.1))) c, .fire fires)
          | _ => (s.modCore k fun c => picks.foldl (fun c p => c.chosen pos p.1 p.2.1 (p.2.2.map (·.1))) c, .fire fires)

/-- The arbitration of a chosen bus write (R82): granted, its selector moves on; denied, only its slot's age rises. -/
def State.busVerdict (s : State) (k : Key) (pos slot : Nat) : State × Bool :=
  match s.core? k with
  | none => (s, false)
  | some c =>
    match c.elem? pos with
    | none => (s, false)
    | some e =>
      let w := e.slot slot
      let granted := match opOf (field w 30 8) with
        | some o => (match slotStatus o (Fields.ofWord w) s ⟨k, pos, slot, false, 0⟩ with
          | .ready => true
          | _ => false)
        | none => false
      let cands := ((c.busChosen.find? fun x => x.pos == pos && x.slot == slot).map fun x => x.cands).getD [slot]
      if granted then (s.modCore k fun c => c.chosen pos 4 cands (some slot), true)
      else (s.modElem k pos fun e => { e with ages := upd e.ages slot (min (at' e.ages slot 0 + 1) 63) }, false)

/-- Does a slot's bus write use this bus: 0 to 3 rows, 4 to 11 columns? -/
def CoreCtx.busOf (c : CoreCtx) (core pos slot : Nat) : Nat :=
  let e := c.elemD pos
  let f := Fields.ofWord (e.slot slot)
  let lab := (readSrc c e core pos f.x f.sb.toNat).data
  if field (e.slot slot) 30 8 = 0x45 then rowOf lab else 4 + colOf lab

/-- R82: the writers of each bus in grant order. -/
def CoreCtx.busOrder (c : CoreCtx) (core : Nat) : List BusWrite :=
  (List.range 12).flatMap fun b =>
    let ws := c.busChosen.filter fun x => c.busOf core x.pos x.slot == b
    let g := at' c.grant b 0
    (List.range 64).filterMap fun d => ws.find? fun x => x.pos == (g + d) % 64

/-- ELEMENT_TRAP (R30): the slot `here.idx` of the element at `here.pos`, if it is trap-ready, raises its trap. -/
def execElementTrap (s : State) : Host.Outcome State Fault Refusal :=
  s.onCore fun c =>
    match c.elem? s.here.pos with
    | none => s
    | some e =>
      match s.slotView s.key s.here.pos s.here.idx (e.slot s.here.idx) with
      | .trap t => s.elementTrap s.key s.here.pos s.here.idx t false
      | _ => s

/-! ### Admission and missing configurations (R159, R164) -/

/-- N of a context's ADMIT register: halved, down to 8, while step 3 of R371 is in force on an elastic context. -/
def State.admitNow (s : State) (k : Key) (n : Nat) : Nat :=
  if 3 ≤ s.power.step ∧ s.fixedTiming k.1 = false then max (n / 2) 8 else max n 8

/-- ADMIT_WINDOW (R159): the allowance of a window; a nonzero N below 8 acts as 8. -/
def execAdmitWindow (s : State) : Host.Outcome State Fault Refusal :=
  s.onCore fun c =>
    if c.admitLeft ≠ 0 then s
    else s.modCore s.key fun c =>
      { c with allowance := if c.admitN = 0 then 0 else s.admitNow s.key c.admitN, admitLeft := c.admitW }

/-- CFG_MISS_TIMEOUT (R164): an arrival that still waits for a missing block after CFGTO cycles raises the trap; the
arrival goes on waiting and the block's timeout restarts. -/
def execCfgMissTimeout (s : State) : Host.Outcome State Fault Refusal :=
  s.onCore fun c =>
    match s.team? s.here.ctx with
    | none => s
    | some t =>
      match c.cfgMiss.find? fun x => decide (2 ^ t.launch.cfgto ≤ x.2) with
      | none => s
      | some (block, _) =>
        let again := c.runs.find? fun r => r.reissue && r.block == block
        let node := (again.map (·.node) <|> (c.walker.pend.find? fun e => e.block == block).map (·.node)).getD 0
        (s.modCore s.key fun c => { c with cfgMiss := c.cfgMiss.map fun x => if x.1 = block then (block, 0) else x }).walkerTrapAt
          s.key node (again.map (·.id)) ⟨0x0F, w64 block, 0#64⟩

end Sys2Proof.Machine
end

