-- ==== Sys2Proof/Machine/Image.lean ====
section
/-! DEFINITION. Block images (R160, Tables 9.3 to 9.6) and the checks of a block load (R57, R157, R160, R161, R247):
each variant's element configurations, slots and routes, then the block as a whole. -/

namespace Sys2Proof.Machine

/-- An element record with its slot words (Table 9.5). -/
structure ElemRec where
  pos : Nat
  words : List W64
  cfg : ElemCfg
  consts : Vector (W64 × Fmt) 4
  slots : Vector W64 16

/-- A route record (Table 9.6): sender, port, receivers (position, queue) and the two words. -/
structure RouteRec where
  src : Nat
  port : Nat
  rcvs : List (Nat × Nat)
  w0 : W64
  w1 : W64

structure Variant where
  head : W64
  elems : List ElemRec
  routes : List RouteRec

/-- A parsed image; `flaws`: the header fields that disagree with the sections present, each with its variant (R160). -/
structure Block where
  words : List W64
  variants : List Variant
  flaws : List (SlotFail × Nat)

/-! ### Fields -/

def Block.head (b : Block) : W64 := b.words.getD 0 0#64
def Block.role (b : Block) : Nat := field b.head 14 2
def Block.commitPos (b : Block) : Nat := field b.head 16 6
def Block.nspec (b : Block) : Nat := field b.head 22 3
def Block.nvar (b : Block) : Nat := field b.head 12 2 + 1
def Block.spec (b : Block) (n : Nat) : W64 × W64 := (b.words.getD (1 + 2 * n) 0#64, b.words.getD (2 + 2 * n) 0#64)

def Variant.unroll (v : Variant) : Nat := 2 ^ field v.head 2 2
def Variant.row0 (v : Variant) : Nat := field v.head 4 3
def Variant.col0 (v : Variant) : Nat := field v.head 7 3
def Variant.rows (v : Variant) : Nat := field v.head 10 3 + 1
def Variant.cols (v : Variant) : Nat := field v.head 13 3 + 1
def Variant.div (v : Variant) (row : Nat) : Nat := field v.head (16 + 2 * row) 2 + 1

/-- Does the region hold a position? -/
def Variant.holds (v : Variant) (pos : Nat) : Bool :=
  decide (v.row0 ≤ pos / 8 ∧ pos / 8 < v.row0 + v.rows ∧ v.col0 ≤ pos % 8 ∧ pos % 8 < v.col0 + v.cols)

def Variant.positions (v : Variant) : List Nat := (List.range 64).filter v.holds

def Variant.elem? (v : Variant) (pos : Nat) : Option ElemRec := v.elems.find? fun e => e.pos == pos

/-! ### Parsing -/

/-- Table 9.5: the configuration of an element record. -/
def elemCfg (ws : List W64) : ElemCfg :=
  let w (i : Nat) : W64 := ws.getD i 0#64
  let lslot (i : Nat) : BitVec 9 := BitVec.ofNat 9 (field (w (8 + i / 7)) (9 * (i % 7)) 9)
  { regmode := BitVec.ofNat 12 (field (w 0) 0 12)
    emptytrap := BitVec.ofNat 12 (field (w 0) 12 12)
    accept := Vector.ofFn fun i : Fin 4 => BitVec.ofNat 8 (field (w 1) (8 * i) 8)
    detour := Vector.ofFn fun i : Fin 4 => field (w 0) (50 + 3 * i) 3
    age := field (w 0) 24 6
    initp := BitVec.ofNat 8 (field (w 0) 30 8)
    initf := BitVec.ofNat 12 (field (w 0) 38 12)
    kindWord := w 6
    tids := #v[field (w 6) 0 20, field (w 6) 20 20, field (w 6) 40 20, field (w 7) 16 20]
    defer := BitVec.ofNat 4 (field (w 7) 36 4)
    lslots := Vector.ofFn fun i : Fin 16 => lslot i
    word0 := w 0
    word1 := w 1 }

/-- The slot words that follow a record, by its SLOTMASK; the others hold 0 (R50). -/
def placeSlots (mask : Nat) : Nat → Nat → List W64 → Vector W64 16 → Vector W64 16
  | 0, _, _, v => v
  | n + 1, i, ws, v =>
    if mask / 2 ^ i % 2 = 1 then placeSlots mask n (i + 1) ws.tail (upd v i (ws.headD 0#64))
    else placeSlots mask n (i + 1) ws v

def bitCount (mask : Nat) (n : Nat) : Nat := (List.range n).foldl (fun k i => k + mask / 2 ^ i % 2) 0

/-- One element record from the words that remain. -/
def parseElem (ws : List W64) : Option (ElemRec × List W64) :=
  let pos := field (ws.getD 1 0#64) 44 6
  let n := if kindAt pos = .le then 11 else 8
  let mask := field (ws.getD 7 0#64) 0 16
  let k := bitCount mask 16
  if ws.length < n + k then none
  else
    let rec' := ws.take n
    let c (i : Nat) : W64 × Fmt := (rec'.getD (2 + i) 0#64, Fmt.ofCode (field (rec'.getD 1 0#64) (32 + 3 * i) 3))
    some (⟨pos, rec', elemCfg rec', #v[c 0, c 1, c 2, c 3],
      placeSlots mask 16 0 (ws.drop n) (Vector.replicate 16 0#64)⟩, ws.drop (n + k))

/-- As many of n element records as stand there, and what follows them; the last part says whether all do. -/
def parseElems : Nat → List W64 → List ElemRec × List W64 × Bool
  | 0, ws => ([], ws, true)
  | n + 1, ws =>
    match parseElem ws with
    | none => ([], [], false)
    | some (e, ws) => let x := parseElems n ws; (e :: x.1, x.2)

def routeRec (w0 w1 : W64) : RouteRec :=
  let n := field w0 8 3 + 1
  ⟨field w0 0 6, field w0 6 2, (List.range n).map fun i => (field w1 (8 * i) 6, field w1 (8 * i + 6) 2), w0, w1⟩

def parseRoutes : Nat → List W64 → List RouteRec × List W64 × Bool
  | 0, ws => ([], ws, true)
  | n + 1, w0 :: w1 :: ws => let x := parseRoutes n ws; (routeRec w0 w1 :: x.1, x.2)
  | _, _ => ([], [], false)

/-- A variant section, what follows it, and the header fields that disagree with what stands there (R160, Table 9.4): they are a
fault of the block as a whole, which the checks of the section's own items go before (R57). -/
def parseVariant (ws : List W64) : Variant × List W64 × List SlotFail :=
  let h := ws.headD 0#64
  let nelem := field h 32 7
  let nroute := field h 39 9
  let vlen := field h 48 12
  let es := parseElems nelem ws.tail
  let rs := if es.2.2 then parseRoutes nroute es.2.1 else ([], [], false)
  (⟨h, es.1, rs.1⟩, rs.2.1,
    (if nelem = 0 ∨ 64 < nelem then [⟨0x09, nelem, 32⟩] else []) ++ (if 256 < nroute then [⟨0x09, nroute, 39⟩] else []) ++
      (if rs.2.2 ∧ ws.length - rs.2.1.length = vlen then [] else [⟨0x09, vlen, 48⟩]))

/-- The variants of an image, `n` to come from variant `i` on, and what is wrong with their headers, or with the block header's
NVAR where the count of sections differs. -/
def parseVariants (nvar : Nat) : Nat → Nat → List W64 → List Variant × List (SlotFail × Nat)
  | _, 0, ws => ([], if ws.isEmpty then [] else [(⟨0x09, nvar, 12⟩, 0)])
  | i, n + 1, ws =>
    if ws.isEmpty then ([], [(⟨0x09, nvar, 12⟩, 0)])
    else
      let v := parseVariant ws
      let x := parseVariants nvar (i + 1) n v.2.1
      (v.1 :: x.1, v.2.2.map (fun f => (f, i)) ++ x.2)

def parseBlock (ws : List W64) : Block :=
  let h := ws.getD 0 0#64
  let x := parseVariants (field h 12 2) 0 (field h 12 2 + 1) (ws.drop 9)
  ⟨ws, x.1, (if field h 0 12 + 1 = ws.length then [] else [(⟨0x09, field h 0 12, 0⟩, 0)]) ++ x.2⟩

/-! ### What slots send to and name -/

/-- The FMT that an opcode fixes for its results (Table 3.10, NO_CONVERTER). -/
def fixedFmt (f : Fields) (opc : Nat) : Option Fmt :=
  if (1 ≤ opc ∧ opc ≤ 0x28) ∨ opc = 0x43 ∨ opc = 0x7D ∨ (0xB5 ≤ opc ∧ opc ≤ 0xB7) ∨ opc = 0xD3 ∨ opc = 0xDC ∨
      (0xE5 ≤ opc ∧ opc ≤ 0xE7) then some .i64
  else if opc = 0x68 ∨ opc = 0x69 ∨ opc = 0x7E ∨ opc = 0x7F ∨ opc = 0x81 then some .raw
  else if (0x60 ≤ opc ∧ opc ≤ 0x6F) ∨ opc = 0x76 ∨ opc = 0x77 then some .f32x2
  else if 0x70 ≤ opc ∧ opc ≤ 0x75 then some .bf16x4
  else if 0x78 ≤ opc ∧ opc ≤ 0x7C then some .i8x8
  else match opc with
    | 0xC0 => some .bf16x4 | 0xC1 => some .f32x2 | 0xC2 => some .e4m3x8 | 0xC3 => some .e5m2x8 | 0xC4 => some .f32x2
    | 0xC5 => some .f32x2 | 0xC6 => some .bf16x4
    | 0xC7 => if f.sb.toNat / 8 = 2 then some .raw else some .e2m1x16
    | 0xC8 => some .bf16x4 | 0xC9 => some .i8x8 | 0xCA => some .f32x2 | 0xCB => some .f32x2 | 0xCC => some .i64
    | 0xAB => if f.sb.toNat = 21 then some .bf16x4 else none
    | _ => none

/-- The ports a valid slot sends to, each with the bit position of the field that names it, DST or SA (R18, R110, R111). -/
def slotPorts (w : W64) : List (Nat × Nat) :=
  let f := Fields.ofWord w
  let opc := field w 30 8
  if w.getLsbD 1 = false then []
  else if opc = 0xAB then
    (f.sa.toNat - 24, 20) :: (if f.sb.toNat = 20 then [(f.sa.toNat - 23, 20)] else [])
  else if opc = 0xAC then [(f.sa.toNat - 24, 20)]
  else match shapeOf opc with
    | some sh => if (sh.d = .result ∨ sh.d = .port) ∧ codeIsPort f.dst.toNat then [(f.dst.toNat - 24, 25)] else []
    | none => []

/-- Does a valid slot name a queue in QA, QB, SA or SB? -/
def slotNames (w : W64) (q : Nat) : Bool :=
  let f := Fields.ofWord w
  w.getLsbD 1 &&
    ((f.ta != 0#3 && f.qa.toNat == q) || (f.tb != 0#3 && f.qb.toNat == q) ||
      (match shapeOf (field w 30 8) with
        | some sh => (sh.a == .source || sh.a == .queue) && f.sa.toNat == 12 + q || sh.b == .source && f.sb.toNat == 12 + q
        | none => false))

/-! ### Checks (R57)

An item's failures are `SlotFail`s, each with its field's value and lowest bit position in its own word; `worstFail` picks
the one that is reported. DESIGN CHOICE (log 46): which field stands for a fault that concerns several. -/

def on' {α : Type} (b : Bool) (x : α) : List α := if b then [x] else []

/-- RESERVED_NONZERO for a field of a word that is to be 0 (R9). -/
def rsvFail (w : W64) (lo n : Nat) : List SlotFail := on' (field w lo n != 0) ⟨0x0E, field w lo n, lo⟩

/-- Reserved fields of an element record (Table 9.5, R9). -/
def reservedBad (e : ElemRec) : List SlotFail :=
  let w (i : Nat) : W64 := e.words.getD i 0#64
  rsvFail (w 0) 62 2 ++ rsvFail (w 1) 50 14 ++ rsvFail (w 7) 40 24 ++
    (match kindAt e.pos with
      | .le => rsvFail (w 6) 60 4 ++ rsvFail (w 8) 63 1 ++ rsvFail (w 9) 63 1 ++ rsvFail (w 10) 18 46
      | k =>
        rsvFail (w 7) 16 20 ++ rsvFail (w 7) 36 4 ++
        (match k with
          | .se => rsvFail (w 6) 16 48
          | .ce => rsvFail (w 6) 32 32
          | .me => if e.pos / 8 = 2 then [] else rsvFail (w 6) 0 64
          | _ => rsvFail (w 6) 0 64))

/-- The rows of a column reader's descriptor (Table 6.2), if the element has one. -/
def ElemRec.rmask (e : ElemRec) : Nat := if kindAt e.pos = .me ∧ e.pos / 8 = 2 then field e.cfg.kindWord 47 4 else 0

/-- The CE queues that detours of earlier elements of a variant use. -/
def detoursOf (es : List ElemRec) : List (Nat × Nat) :=
  es.flatMap fun e => (List.range 4).filterMap fun q => (detourCe (at' e.cfg.detour q 0)).map fun ce => (ce, q)

/-- The configuration of one element, `before` the records that stand before it (Tables 1.3, 8.1, 9.5; R102, R126, R157,
R366). DESIGN CHOICE (log 46): a record whose POS lies below an earlier record's is rejected as a repeated one is. -/
def elemFail (ups : Bool) (v : Variant) (before : List ElemRec) (e : ElemRec) : Option SlotFail :=
  let det (q : Nat) : Nat := at' e.cfg.detour q 0
  let used := detoursOf before
  let rmask (r : Nat) : SlotFail := ⟨r, e.rmask, 47⟩
  worstFail <|
    on' (e.cfg.age == 0) ⟨0x09, 0, 24⟩ ++
    on' (before.any fun x => decide (e.pos ≤ x.pos)) ⟨0x09, e.pos, 44⟩ ++
    on' (!ups && e.rmask != 0) (rmask 0x09) ++
    ((List.range 4).flatMap fun q =>
      let x (r : Nat) : SlotFail := ⟨r, det q, 50 + 3 * q⟩
      on' (decide (4 < det q)) (x 0x09) ++
      (match detourCe (det q) with
        | some ce => on' (used.contains (ce, q)) (x 0x0A) ++ on' (!v.holds ce) (x 0x10)
        | none => [])) ++
    reservedBad e ++
    (if kindAt e.pos = .le then
      (List.range 16).flatMap fun i =>
        let sc := field (at' e.cfg.lslots i 0x10#9) 4 3
        on' (decide (6 ≤ sc)) ⟨0x0F, sc, 9 * (i % 7) + 4⟩
     else []) ++
    on' (!v.holds e.pos) ⟨0x10, e.pos, 44⟩ ++
    on' ((List.range 4).any fun m => e.rmask / 2 ^ m % 2 == 1 && !v.holds ((m + 2) * 8 + e.pos % 8)) (rmask 0x10)

/-- R58: the record of a failure of an element's configuration, a route or the block. -/
def itemRecord (no pos : Nat) (x : SlotFail) : W64 := validationRecord x.reason no pos 0 true x.value 0

def elemsFail (ups : Bool) (no : Nat) (v : Variant) : List ElemRec → List ElemRec → Option W64
  | _, [] => none
  | before, e :: es =>
    match elemFail ups v before e with
    | some x => some (itemRecord no e.pos x)
    | none => elemsFail ups no v (before ++ [e]) es

/-- One slot: the single-slot reasons, then a port without a route, reported by the field that names it. -/
def blockSlotFail (v : Variant) (commit : Bool) (pos : Nat) (w : W64) : Option SlotFail :=
  match slotFail (kindAt pos) commit w with
  | some x => some x
  | none =>
    ((slotPorts w).find? fun p => !(v.routes.any fun r => r.src == pos && r.port == p.1)).map fun p =>
      ⟨0x0B, field w p.2 5, p.2⟩

def slotsFail (b : Block) (no : Nat) (v : Variant) : Option W64 :=
  v.elems.findSome? fun e => (List.range 16).findSome? fun i =>
    (blockSlotFail v (e.pos == b.commitPos) e.pos (at' e.slots i 0#64)).map fun x => slotRecord no e.pos i x

/-- One route after the records `before` it (R16, R18, R78, R157). Records of one port make one route, so their receivers
count together against the eight. -/
def routeFail (v : Variant) (before : List RouteRec) (r : RouteRec) : Option SlotFail :=
  let fed := detoursOf v.elems ++ before.flatMap (·.rcvs)
  let earlier := (before.filter fun x => x.src == r.src && x.port == r.port).flatMap (·.rcvs)
  let fmts := match v.elem? r.src with
    | some e => e.slots.toList.filterMap fun w =>
        if (slotPorts w).any (fun p => p.1 == r.port) then fixedFmt (Fields.ofWord w) (field w 30 8) else none
    | none => []
  let perRecv := ((List.range r.rcvs.length).zip r.rcvs).flatMap fun (i, p, q) =>
    let x := v.elem? p
    let named := match x with | some e => e.slots.toList.any fun w => slotNames w q | none => false
    let det := match x with | some e => at' e.cfg.detour q 0 != 0 | none => false
    let acc := match x with | some e => at' e.cfg.accept q 0xFF#8 | none => 0xFF#8
    let queue (c : Nat) : SlotFail := ⟨c, q, 8 * i + 6⟩
    on' (fed.contains (p, q) || (r.rcvs.take i).contains (p, q)) (queue 0x0A) ++ on' (kindAt p == .me) (queue 0x0A) ++
    on' (!named && !det) (queue 0x0C) ++
    on' (!det && fmts.any fun f => !acc.getLsbD f.code) (queue 0x0D) ++
    on' (!v.holds p) ⟨0x10, p, 8 * i⟩
  worstFail <|
    on' (decide (8 < earlier.length + r.rcvs.length)) ⟨0x0A, field r.w0 8 3, 8⟩ ++ perRecv ++
    rsvFail r.w0 11 53 ++ rsvFail r.w1 (8 * r.rcvs.length) (64 - 8 * r.rcvs.length) ++
    on' (!v.holds r.src) ⟨0x10, r.src, 0⟩

def routesFail (no : Nat) (v : Variant) : List RouteRec → List RouteRec → Option W64
  | _, [] => none
  | before, r :: rs =>
    match routeFail v before r with
    | some x => some (itemRecord no r.src x)
    | none => routesFail no v (before ++ [r]) rs

def variantFail (ups : Bool) (b : Block) (no : Nat) (v : Variant) : Option W64 :=
  elemsFail ups no v [] v.elems <|> slotsFail b no v <|> routesFail no v [] v.routes

/-- A tolerance that R247 rejects: negative or NaN. -/
def badTol (t : Nat) : Bool := decide (2 ^ 31 ≤ t) || decide (0x7F800000 < t)

/-- The failures of one SPEC entry in use, `before` the entries before it (R247, Table 15.2). -/
def specFails (before : List (W64 × W64)) (s : W64 × W64) : List SlotFail :=
  let tol (lo : Nat) : List SlotFail := on' (badTol (field s.2 lo 32)) ⟨0x09, field s.2 lo 32, lo⟩
  tol 0 ++ tol 32 ++ rsvFail s.1 22 10 ++
    on' (before.any fun x => field x.1 0 22 == field s.1 0 22) ⟨0x09, field s.1 16 6, 16⟩

/-- The failures of one variant's header, at place `i` (Table 9.4, R160, R161). -/
def headFails (i : Nat) (v : Variant) : List SlotFail :=
  on' (field v.head 0 2 != i) ⟨0x09, field v.head 0 2, 0⟩ ++
  ((List.range 8).flatMap fun r =>
    on' (!(decide (v.row0 ≤ r ∧ r < v.row0 + v.rows)) && v.div r != 1) ⟨0x09, v.div r - 1, 16 + 2 * r⟩) ++
  rsvFail v.head 60 4 ++
  on' (decide (8 < v.row0 + v.rows)) ⟨0x10, v.rows - 1, 10⟩ ++
  on' (decide (8 < v.col0 + v.cols)) ⟨0x10, v.cols - 1, 13⟩ ++
  on' (decide (128 < (v.elems.map fun e => (e.slots.toList.filter fun w => w.getLsbD 1).length).sum)) ⟨0x10, 0, 0⟩

/-- The checks of the block as a whole, each failure with its variant (R160, R161, R247, Tables 9.3 and 9.4). DESIGN CHOICE
(log 46): a failure that belongs to no one variant has variant 0. -/
def wholeFails (b : Block) : List (SlotFail × Nat) :=
  let specs := (List.range 4).map b.spec
  let block := on' (b.role == 3) ⟨0x09, 3, 14⟩ ++ on' (decide (4 < b.nspec)) ⟨0x09, b.nspec, 22⟩ ++ rsvFail b.head 25 39 ++
    ((List.range (min b.nspec 4)).flatMap fun i => specFails (specs.take i) (specs.getD i (0#64, 0#64))) ++
    ((specs.drop b.nspec).flatMap fun s => rsvFail s.1 0 64 ++ rsvFail s.2 0 64)
  b.flaws ++ block.map (fun x => (x, 0)) ++
    ((List.range b.variants.length).zip b.variants).flatMap fun (i, v) => (headFails i v).map fun x => (x, i)

/-- The record of the checks of the block as a whole: the worst failure, with the first variant it stands in. -/
def wholeFail (b : Block) : Option W64 :=
  (worstFail ((wholeFails b).map (·.1))).map fun x =>
    itemRecord (((wholeFails b).find? fun y => y.1 == x).elim 0 (·.2)) 0 x

/-- R57: the validation record of a block image, or none where it passes. -/
def blockFail (ups : Bool) (b : Block) : Option W64 :=
  (((List.range b.variants.length).zip b.variants).findSome? fun (i, v) => variantFail ups b i v) <|> wholeFail b

end Sys2Proof.Machine
end

