-- ==== Sys2Proof/Machine/Block.lean ====
section
/-! DEFINITION. Blocks on a core (R161 to R169, R181, R182, R248 to R250): the configuration cache, issue with the
resolution of speculative inputs, completion, and the commit of groups. -/

namespace Sys2Proof.Machine

/-! ### The configuration cache (R162) -/

def cacheWords : Nat := 8192

def PhysCore.entry? (p : PhysCore) (ctx block : Nat) : Option CacheEntry :=
  p.cache.find? fun e => e.ctx == ctx && e.block == block

/-- Does a walker wait to issue a block, or has it an issued instance? -/
def CoreCtx.needs (c : CoreCtx) (block : Nat) : Bool :=
  (c.walker.pend.any fun e => e.block == block) || c.runs.any fun r => r.block == block

/-- May the image of a cache entry be replaced? Not while a resident context needs it. -/
def State.replaceable (s : State) (pc : Nat) (e : CacheEntry) : Bool :=
  !(s.cores.any fun (p : Key × CoreCtx) => p.1.1 == e.ctx && s.physCore? p.1 == some pc && p.2.resident && p.2.needs e.block)

def PhysCore.used (p : PhysCore) : Nat := (p.cache.map (·.words)).sum

/-- The least recently issued of the images that may be replaced. -/
def oldestEntry : List CacheEntry → Option CacheEntry
  | [] => none
  | e :: es => match oldestEntry es with
    | some x => if x.lastUse < e.lastUse then some x else some e
    | none => some e

/-- Replaces images until `n` words fit; none if they cannot. -/
def State.makeRoom (s : State) (pc n : Nat) : Nat → Option PhysCore
  | 0 => none
  | fuel + 1 =>
    let p := s.physOf pc
    if p.used + n ≤ cacheWords then some p
    else match oldestEntry (p.cache.filter (s.replaceable pc)) with
      | none => none
      | some e =>
        (s.modPhys pc fun p => { p with cache := p.cache.filter fun x => !(x.ctx == e.ctx && x.block == e.block) }).makeRoom
          pc n fuel

/-- Puts a block of the catalogue into the configuration cache of a core, validated; none while it does not fit (R162). DESIGN
CHOICE (log 118): an image that was never issued counts as issued when it was loaded. -/
def State.cacheBlock (s : State) (ctx core block : Nat) : Option State :=
  match s.physCore? (ctx, core), s.team? ctx with
  | some pc, some t =>
    match t.blocks.get? block with
    | none => some s
    | some ws =>
      if ((s.physOf pc).entry? ctx block).isSome then some s
      else (s.makeRoom pc ws.length ((s.physOf pc).cache.length + 1)).map fun p =>
        let e : CacheEntry := ⟨ctx, block, ws.length, blockFail t.launch.ups (parseBlock ws), p.uses⟩
        { s with phys := s.phys.put pc { p with cache := p.cache ++ [e] } }
  | _, _ => some s

/-- BLOCK_LOAD (R57, R162): block `here.idx`, which the core at `here` needs, is fetched from the catalogue and
validated; a rejected one keeps its validation record. -/
def execBlockLoad (s : State) : Host.Outcome State Fault Refusal :=
  s.onCore fun c =>
    if c.needs s.here.idx = false ∨ c.resident = false then s
    else (s.cacheBlock s.here.ctx s.here.core s.here.idx).getD s

/-! ### Speculative inputs at issue (R248 to R250) -/

/-- How one input resolves (Table 15.3), or why its issue traps or waits. -/
inductive Resolution where
  | wait
  | trap (t : TrapInfo)
  | ok (i : SpecInput) (level : Nat)
  deriving DecidableEq, Repr

/-- The claimer of a tentative shadow (R249): its run and the run's level. -/
def State.tentative (s : State) (ctx : Nat) (t : Tile) : Option (Nat × Nat × Nat) :=
  match t.claim with
  | some (.block core run g) =>
    match (s.core? (ctx, core)).bind fun c => c.run? run with
    | some r => if r.spec ∧ r.ended.contains g = true then some (core, run, r.level) else none
    | none => none
  | _ => none

/-- (V − v*) mod 2^32 < 2^31. -/
def ahead (v want : W32) : Bool := !(v - want).msb

def State.resolve (s : State) (ctx itr : Nat) (runs : Bool) (idx : Nat) (w : W64 × W64) : Resolution :=
  let mc := field w.1 0 16
  let slot := field w.1 16 6
  let want := w32 (field w.1 32 32 + itr)
  let inp (k : InputKind) (buf : Nat) : SpecInput := ⟨mc, slot, want, k, buf, k == .real⟩
  match s.mcore? (ctx, mc), s.team? ctx with
  | some m, some tm =>
    if 2 * tm.launch.quads ≤ mc then .trap ⟨0x06, w64 (0xF0000 + mc % 1024 * 64 + slot), w64 idx⟩
    else if m.resident = false ∨ m.moving then .wait
    else
      let t := m.tile slot
      if t.defd = false ∨ t.mode ≠ .store then .trap ⟨0x01, w.1, w64 idx⟩
      else if t.state = .ready ∧ ahead t.version want = true then .ok (inp .real t.cur) 0
      else if runs = false then .wait
      else match s.tentative ctx t with
        | some (core, run, level) =>
          if t.version + 1#32 = want then .ok (inp (.tentative core run) t.shadow) (max 1 (level + 1)) else .wait
        | none =>
          if t.state = .predicted ∧ t.version + 1#32 = want then
            if t.readers.length < 8 then .ok (inp .prediction t.prev) 1 else .wait
          else .wait
  | _, _ => .trap ⟨0x06, w64 (0xF0000 + mc % 1024 * 64 + slot), w64 idx⟩

/-- All inputs together: a trap first, then a wait. -/
def joinRes : List Resolution → Resolution ⊕ (List SpecInput × Nat)
  | [] => .inr ([], 0)
  | .trap t :: _ => .inl (.trap t)
  | .wait :: rs => match joinRes rs with
    | .inl (.trap t) => .inl (.trap t)
    | _ => .inl .wait
  | .ok i l :: rs => match joinRes rs with
    | .inl r => .inl r
    | .inr (is, m) => .inr (i :: is, max l m)

/-! ### The chosen variant (R161, R337, R371) -/

/-- The variant of lowest unroll below a given one, the lowest number first. -/
def narrower (b : Block) (from' : Nat) : Option Nat :=
  let un (i : Nat) : Nat := ((b.variants[i]?).map (·.unroll)).getD 0
  let below := (List.range b.variants.length).filter fun i => decide (un i < un from')
  let low := below.foldl (fun m i => min m (un i)) 8
  below.find? fun i => un i == low

/-- The variant an issue takes: the curator's, else 0 (log 23), one narrower where the power controller says so. -/
def State.variantFor (s : State) (k : Key) (b : Block) (block : Nat) : Nat :=
  let base := (((s.team? k.1).bind fun t => t.plans.get? (k.2, block)).getD 0) % max 1 b.variants.length
  match s.physCore? k with
  | some pc =>
    if !s.fixedTiming k.1 && s.power.narrowed.any fun x => x.1 == pc && (x.2.isNone || x.2 == some k.1) then
      (narrower b base).getD base
    else base
  | none => base

/-- R371: does a running instance of an affected block still hold the issues of its core? Those of a fixed-timing context are
never held (R372). -/
def State.issueHeld (s : State) (k : Key) : Bool :=
  !s.fixedTiming k.1 && s.power.holds.any fun (pc, x, core, run, g) =>
    s.physCore? k == some pc && s.physCore? (x, core) == some pc &&
      ((s.core? (x, core)).any fun c => c.resident && (c.run? run).any fun r => r.group == g && !r.complete)

/-! ### Issue (R163, R181, R182) -/

/-- What the arbiter finds for one entry. -/
inductive Eligible where
  | no
  | trap (t : TrapInfo)
  | yes (variant : Nat) (inputs : List SpecInput) (level : Nat)
  deriving DecidableEq, Repr

/-- R163: is the region free and do its rows agree on the divider? -/
def CoreCtx.regionFree (c : CoreCtx) (v : Variant) : Bool :=
  (c.elems.all fun (p, e) => !v.holds p || e.run.isNone) &&
    (List.range 8).all fun r =>
      !(decide (v.row0 ≤ r ∧ r < v.row0 + v.rows)) ||
        !(c.elems.any fun (p, e) => p / 8 == r && e.run.isSome) || at' c.divs r 1 == v.div r

def State.eligible (s : State) (k : Key) (c : CoreCtx) (idx block itr : Nat) (runs fresh : Bool) : Eligible :=
  match s.physCore? k, s.team? k.1 with
  | some pc, some t =>
    match (s.physOf pc).entry? k.1 block, t.blocks.get? block with
    | some e, some ws =>
      if fresh ∧ 16 ≤ c.runs.length then .no
      else match e.record with
      | some r => .trap ⟨0x01, r, w64 idx⟩
      | none =>
        let b := parseBlock ws
        let vn := s.variantFor k b block
        match b.variants[vn]? with
        | none => .no
        | some v =>
          if !c.regionFree v || s.issueHeld k then .no
          else match joinRes ((List.range b.nspec).map fun i => s.resolve k.1 itr runs idx (b.spec i)) with
            | .inl (.trap t) => .trap t
            | .inl _ => .no
            | .inr (is, level) => if 5 ≤ level then .trap ⟨0x0E, w64 block, w64 idx⟩ else .yes vn is level
    | _, _ => .no
  | _, _ => .no

/-- A choice of the arbiter: a reissue (run number) or a pending entry (its place in the list), and what it found. -/
structure Pick where
  reissue : Option Nat
  idx : Nat
  role : Nat
  wait : Nat
  found : Eligible
  deriving DecidableEq, Repr

def Eligible.isNo (e : Eligible) : Bool := match e with | .no => true | _ => false

def State.roleOf (s : State) (ctx block : Nat) : Nat :=
  match (s.team? ctx).bind fun t => t.blocks.get? block with
  | some ws => field (ws.getD 0 0#64) 14 2
  | none => 3

/-- R181 `issue_pick()` with the reissues of R254 ahead; an entry whose issue traps is picked like any other. -/
def State.issuePick (s : State) (k : Key) (c : CoreCtx) : Option Pick :=
  let re := (c.runs.zipIdx.filter fun (x : Run × Nat) => x.1.reissue).map fun x =>
    (⟨some x.1.id, 8 + x.2, 0, 0, s.eligible k c (8 + x.2) x.1.block x.1.itr x.1.runs false⟩ : Pick)
  let pe := c.walker.pend.zipIdx.map fun (p, i) =>
    (⟨none, i, s.roleOf k.1 p.block, p.wait, s.eligible k c i p.block p.itr p.spec true⟩ : Pick)
  let ok := pe.filter fun p => !p.found.isNo
  let aged := if c.walker.roleage = 0 then [] else ok.filter fun p => decide (c.walker.roleage ≤ p.wait)
  let low := ok.foldl (fun m p => min m p.role) 3
  (re.find? fun p => !p.found.isNo) <|> aged.head? <|> (ok.find? fun p => p.role == low)

/-- The receivers of a port at issue, with full credit (R13, R16). -/
def Variant.portOf (v : Variant) (pos port : Nat) : Port :=
  ⟨(v.routes.filter fun r => r.src == pos && r.port == port).flatMap fun r =>
    r.rcvs.map fun (p, q) => ⟨p, q, routeLat pos p, 4⟩, none⟩

/-- R13: an element of the region at issue; sticky flags stay (R42). -/
def issueElem (v : Variant) (run pos : Nat) (old : Elem) : Elem :=
  let base : Elem := { Elem.init with flags := old.flags, run := some run }
  match v.elem? pos with
  | none => base
  | some r =>
    { base with
      cfg := r.cfg
      consts := r.consts
      slots := r.slots
      regs := Vector.ofFn fun i : Fin 12 => { Reg.empty with full := r.cfg.initf.getLsbD i }
      preds := Vector.ofFn fun i : Fin 8 => ⟨r.cfg.initp.getLsbD i, false, false⟩
      ports := Vector.ofFn fun i : Fin 4 => v.portOf pos i }

/-- The state of the element's kind at issue (R102, R113, R122, R128). -/
def CoreCtx.issueKind (c : CoreCtx) (v : Variant) (run pos : Nat) : CoreCtx :=
  let w := ((v.elem? pos).map fun r => r.cfg.kindWord).getD 0#64
  match kindAt pos with
  | .me =>
    let c := c.modMe pos fun m => { m with slicePtrs := Vector.replicate 4 0, qUsed := Vector.replicate 4 0 }
    if pos / 8 ≠ 2 then c
    else if field w 47 4 = 0 then { c with readers := c.readers.del (pos % 8) }
    else { c with readers := c.readers.put (pos % 8) ⟨w, 0, 0, run⟩ }
  | .se => c.modSe pos fun x => { x with gens := Vector.replicate 4 SGen.init, burst := none, ptr := 0, fillLeft := 0 }
  | .ce =>
    let seed := w.extractLsb' 0 32
    c.modCe pos fun _ => { CE.init with lfsr := if seed = 0#32 then 1#32 else seed }
  | .le => c.modLe pos fun x => { LE.init with inbeats := x.inbeats }
  | .pe => c

/-- Tokens and credits still on their way from an earlier block do not reach the new one (R13). -/
def staleFlight (v : Variant) (f : Flight) : Bool :=
  match f.cargo with
  | .token p _ _ => v.holds p
  | .credit p _ _ => v.holds p
  | .busToken p _ _ => v.holds p
  | .busCredit p _ => v.holds p
  | .streamWord p _ _ _ _ _ => v.holds p
  | .portFree p _ _ => v.holds p
  | _ => false

/-- R163: loads a variant into its region for a block run. -/
def CoreCtx.configure (c : CoreCtx) (v : Variant) (run : Nat) : CoreCtx :=
  let c := { c with
    flights := c.flights.filter fun f => !staleFlight v f
    divs := Vector.ofFn fun i : Fin 8 =>
      if v.row0 ≤ i.val ∧ i.val < v.row0 + v.rows then v.div i.val else at' c.divs i.val 1 }
  v.positions.foldl (fun c p => (c.modElem p (issueElem v run p)).issueKind v run p) c

/-- Pins the buffers a run reads and registers it with the predictions it reads (R248, R249). -/
def State.bindInputs (s : State) (k : Key) (b : Block) (run : Nat) (is : List SpecInput) : State :=
  is.zipIdx.foldl (fun s (i, n) =>
    s.modMcore (k.1, i.mcore) fun m => m.modTile i.slot fun t =>
      let t := t.addPin i.buf
      if i.kind = .prediction then
        { t with readers := t.readers ++ [⟨k.2, run, w32 (field (b.spec n).2 0 32), w32 (field (b.spec n).2 32 32)⟩] }
      else t) s

/-- Puts an entry into execution. -/
def State.issue (s : State) (k : Key) (c : CoreCtx) (p : Pick) (vn : Nat) (is : List SpecInput) (level : Nat) : State :=
  let src : Option (Nat × Nat × Nat × Nat × Bool) := match p.reissue with
    | some id => (c.run? id).map fun r => (r.id, r.node, r.block, r.itr, r.runs)
    | none => (c.walker.pend[p.idx]?).map fun (e : Pend) => (e.id, e.node, e.block, e.itr, e.spec)
  match src, s.team? k.1, s.physCore? k with
  | some (id, node, block, itr, runs), some t, some pc =>
    let b := parseBlock ((t.blocks.get? block).getD [])
    match b.variants[vn]? with
    | none => s
    | some v =>
      let spec := is.any fun i => i.kind != .real
      let newRun : Run :=
        { id := id, node := node, block := block, itr := itr, runs := runs
          status := ⟨false, false, false, false, vn, 0⟩
          elems := v.positions, commitPos := b.commitPos, group := 0, ended := [], closing := false
          level := level, spec := spec, inputs := is, complete := false, reissue := false, fires := 0
          unroll := v.unroll, issue := (at' c.evc 15 0#64).toNat }
      let s := s.modCore k fun c =>
        let c := match p.reissue with
          | some _ => { c with runs := c.runs.map fun (x : Run) => if x.id = id then newRun else x }
          | none => { c with runs := c.runs ++ [newRun] }.modWalker fun w => { w with pend := w.pend.eraseIdx p.idx }
        c.configure v id
      let s := s.bindInputs k b id is
      let s := s.modPhys pc fun q =>
        { q with
          uses := q.uses + 1
          cache := q.cache.map fun e => if e.ctx = k.1 ∧ e.block = block then { e with lastUse := q.uses + 1 } else e }
      let s := s.count k 16 (is.filter fun i => i.kind != .real).length
      (s.count k 15 1).progressed k.1
  | _, _, _ => s

/-- BLOCK_ISSUE (R181): the arbiter picks an entry and issues it, or raises its trap (R196); the wait counts of the
entries left rise. -/
def execBlockIssue (s : State) : Host.Outcome State Fault Refusal :=
  s.onCore fun c =>
    if c.frozen ∨ c.resident = false then s
    else
      let s' := match s.issuePick s.key c with
        | none => s
        | some p =>
          match p.found with
          | .no => s
          | .trap t =>
            let node := match p.reissue with
              | some id => ((c.run? id).map fun (x : Run) => x.node).getD 0
              | none => ((c.walker.pend[p.idx]?).map fun (x : Pend) => x.node).getD 0
            s.walkerTrapAt s.key node p.reissue t
          | .yes vn is level => s.issue s.key c p vn is level
      s'.modCore s.key fun c => c.modWalker fun w =>
        { w with pend := w.pend.map fun (e : Pend) => { e with wait := min (e.wait + 1) 65535 } }

/-! ### Completion (R143, R169) -/

/-- Has a stream sent its last word in this cycle (R120)? -/
def CoreCtx.holdEnds (c : CoreCtx) (pos : Nat) (h : Hold) : Bool :=
  c.flights.any fun f => match f.cargo with
    | .portFree p _ x => p == pos && x == h
    | _ => false

/-- Has every long-latency result of a run arrived, and every LE stream sent its last token? -/
def CoreCtx.settled (c : CoreCtx) (r : Run) : Bool :=
  (c.flights.all fun f => !(f.run == r.id && (match f.cargo with | .result _ => true | .mma _ => true | _ => false))) &&
    (r.elems.all fun p => match kindAt p with
      | .me => (c.me p).drains.isEmpty
      | .le => (c.le p).reqs.isEmpty && (List.range 4).all fun g =>
          let m := (at' (c.le p).gens g LGen.init).mode
          (m != .load && m != .ending) || c.holdEnds p (.leGen g)
      | _ => true)

/-- R143: has every element that holds a valid slot halted? -/
def CoreCtx.halted (c : CoreCtx) (r : Run) : Bool :=
  r.elems.all fun p =>
    let e := c.elemD p
    e.halted || !(e.slots.toList.any fun w => w.getLsbD 1)

/-- R102, R120: the column readers and streams of a run end; words read and not yet sent are not sent. -/
def CoreCtx.endStreams (c : CoreCtx) (r : Run) : CoreCtx :=
  let word (f : Flight) : Option (Nat × Nat) := match f.cargo with
    | .streamWord p q _ _ _ _ => if f.run = r.id then some (p, q) else none
    | _ => none
  let c := { c with
    ses := c.ses.map fun (x : Nat × SE) =>
      if (c.elemD x.1).run = some r.id then (x.1, { x.2 with gens := Vector.replicate 4 SGen.init, burst := none }) else x
    readers := c.readers.filter fun x => x.2.run != r.id }
  (c.flights.filterMap word).foldl (fun c x => c.dropCredit x.1 x.2)
    { c with flights := c.flights.filter fun f => (word f).isNone }

/-- The streams of a run end, its elements leave it, and its rows fall back to divider 1 (R163). -/
def CoreCtx.release (c : CoreCtx) (r : Run) : CoreCtx :=
  let c := c.endStreams r
  let c := { c with
    elems := c.elems.map fun (x : Nat × Elem) => if x.2.run = some r.id then (x.1, { x.2 with run := none }) else x }
  { c with divs := Vector.ofFn fun i : Fin 8 =>
      if c.elems.any (fun (x : Nat × Elem) => x.1 / 8 == i.val && x.2.run.isSome) then at' c.divs i.val 1 else 1 }

/-- BLOCK_COMPLETE (R143): run `here.idx` has finished; its last group ends, its streams and readers stop, its core-scope
barriers are left (R245), and its region is free unless it may still be squashed. -/
def execBlockComplete (s : State) : Host.Outcome State Fault Refusal :=
  s.onCore fun c =>
    match c.run? s.here.idx with
    | none => s
    | some r =>
      if r.complete ∨ r.reissue ∨ c.halted r = false ∨ c.settled r = false then s
      else
        let s := s.modCore s.key fun c =>
          let c := c.modRun r.id fun r =>
            { r with complete := true, closing := false, ended := r.ended ++ [r.group], group := r.group + 1 }
          { if r.spec then c.endStreams r else c.release r with ends := true }
        s.modTeam s.here.ctx fun t => t.leaveBars s.here.core r.id

/-! ### Groups commit (R144, R165, R166) -/

/-- The pins and registrations of a run end with it (R202, R249, R252). -/
def State.dropInputs (s : State) (k : Key) (r : Run) : State :=
  r.inputs.foldl (fun s i => s.modMcore (k.1, i.mcore) fun m => m.modTile i.slot fun t =>
    { t.dropPin i.buf with readers := t.readers.filter fun x => !(x.core == k.2 && x.run == r.id) }) s

/-- A completed run whose last group has committed leaves the instance table (R182); its dirty boxes close (R207). -/
def State.finishRun (s : State) (k : Key) (r : Run) : State :=
  let s := s.dropInputs k r
  let s := { s with mcores := s.mcores.map fun (p : Key × MCoreCtx) =>
    if p.1.1 = k.1 then (p.1, p.2.close fun d => d.who == (k.2, r.id)) else p }
  s.modCore k fun c =>
    let c := c.release r
    { c with runs := c.runs.filter fun x => x.id != r.id }.modWalker fun w =>
      { w with lstat := { r.status with done := true }.word }

/-- Have a group's results arrived, so that it may perform? A team that ends takes in no more replies: those its frozen cores
hold have come (R284, R303). -/
def State.arrived (s : State) (k : Key) (c : CoreCtx) (run group : Nat) : Bool :=
  let ending := (s.team? k.1).any fun t => t.phase == .ending
  { c with frozen := c.frozen && !ending }.groupArrived run group

/-- GROUP_COMMIT (R165): the oldest ended group of run `here.idx` performs once its results have arrived, its tile writes
are accepted, no prediction holds a publish back, and the run is not speculative. -/
def execGroupCommit (s : State) : Host.Outcome State Fault Refusal :=
  s.onCore fun c =>
    match c.run? s.here.idx with
    | none => s
    | some r =>
      match r.ended with
      | [] => s
      | g :: gs =>
        let k := s.key
        let es := c.groupEntries r.id g
        if r.spec ∨ r.reissue ∨ s.arrived k c r.id g = false ∨ s.accepted k true es = false ∨
            s.mayPublish k.1 k.2 r.id g = false ∨ s.mayMessage es = false then s
        else
          let s := s.perform k r.id g es
          let s := s.modCore k fun c => (c.freeGroup r.id g).modRun r.id fun r =>
            { r with ended := gs, status := { r.status with groups := r.status.groups + 1 } }
          let s := s.progressed k.1
          if r.complete ∧ gs.isEmpty = true then
            match (s.core? k).bind fun c => c.run? r.id with
            | some r => s.finishRun k r
            | none => s
          else s

/-- R168: is a slot ready whose fire needs entries that its context cannot obtain? -/
def State.spillFor (s : State) (k : Key) (pos slot : Nat) : Bool :=
  match s.core? k, s.elem? k pos with
  | some c, some e =>
    let w := e.slot slot
    let f := Fields.ofWord w
    let t : Site := ⟨k, pos, slot, false, 0⟩
    w.getLsbD 1 && (match opOf (field w 30 8) with
      | some o => slotStatus o f s t == .ready && !s.canTake k (o.entries (lookAt o f s t c e))
      | none => false)
  | _, _ => false

/-- SPILL_COMMIT (R168): the open group of run `here.idx` performs before the fire of its slot `here.val` of the element at
`here.pos`, which is ready and needs entries that the context cannot obtain. -/
def execSpillCommit (s : State) : Host.Outcome State Fault Refusal :=
  s.onCore fun c =>
    if (c.elemD s.here.pos).run = some s.here.idx ∧ s.spillFor s.key s.here.pos s.here.val = true then
      s.spill s.key s.here.idx
    else s

end Sys2Proof.Machine
end

