-- ==== Sys2Proof/Machine/Hash.lean ====
section
/-! DEFINITION. CRC-32 of IEEE 802.3 (Table 27.1), SHA-256 (R380, R381) and the RSASSA-PSS signature of a report (R382), on lists of bytes. -/

namespace Sys2Proof.Machine

/-! ### CRC-32 -/

def crcBit (c : W32) : W32 := if c.getLsbD 0 then (c >>> 1) ^^^ 0xEDB88320#32 else c >>> 1

def crcByte (c : W32) (b : Byte) : W32 := (List.range 8).foldl (fun c _ => crcBit c) (c ^^^ b.setWidth 32)

def crc32 (bs : List Byte) : W32 := bs.foldl crcByte 0xFFFFFFFF#32 ^^^ 0xFFFFFFFF#32

/-! ### SHA-256 -/

/-- `n` further binary digits of the root of p, from its digits `r` so far; `scale` is 2^power per digit already taken. -/
def rootBits (power p : Nat) : Nat → Nat → Nat → Nat
  | 0, _, r => r
  | n + 1, scale, r =>
    let t := 2 * r + 1
    rootBits power p n (scale * 2 ^ power) (if t ^ power ≤ p * (scale * 2 ^ power) then t else 2 * r)

/-- The first 32 fractional bits of the root of a prime below 2^9. -/
def rootFrac (power p : Nat) : W32 :=
  w32 (rootBits power p 32 1 ((List.range 32).foldl (fun r k => if (k + 1) ^ power ≤ p then k + 1 else r) 0))

def shaPrimes : List Nat :=
  [2, 3, 5, 7, 11, 13, 17, 19, 23, 29, 31, 37, 41, 43, 47, 53, 59, 61, 67, 71, 73, 79, 83, 89, 97, 101, 103, 107, 109, 113,
    127, 131, 137, 139, 149, 151, 157, 163, 167, 173, 179, 181, 191, 193, 197, 199, 211, 223, 227, 229, 233, 239, 241,
    251, 257, 263, 269, 271, 277, 281, 283, 293, 307, 311]

def shaStart : List W32 := (shaPrimes.take 8).map (rootFrac 2)
def shaK : List W32 := shaPrimes.map (rootFrac 3)

def bigEnd32 (bs : List Byte) : W32 := w32 (bs.foldl (fun n b => n * 256 + b.toNat) 0)
def bigEndBytes (n k : Nat) : List Byte := (leBytes k n).reverse

/-- The message with its padding. -/
def shaPad (m : List Byte) : List Byte :=
  m ++ [0x80#8] ++ zeros ((119 - m.length % 64) % 64) ++ bigEndBytes (8 * m.length) 8

/-- The 64 schedule words, latest first, from the block's 16. -/
def shaSchedule : Nat → List W32 → List W32
  | 0, w => w
  | n + 1, w =>
    let g (i : Nat) : W32 := w.getD i 0#32
    let a := g 14
    let b := g 1
    let s0 := a.rotateRight 7 ^^^ a.rotateRight 18 ^^^ (a >>> 3)
    let s1 := b.rotateRight 17 ^^^ b.rotateRight 19 ^^^ (b >>> 10)
    shaSchedule n ((g 15 + s0 + g 6 + s1) :: w)

def shaRound (h : List W32) (kw : W32) : List W32 :=
  let g (i : Nat) : W32 := h.getD i 0#32
  let e := g 4
  let a := g 0
  let t1 := g 7 + (e.rotateRight 6 ^^^ e.rotateRight 11 ^^^ e.rotateRight 25) + ((e &&& g 5) ^^^ (~~~e &&& g 6)) + kw
  let t2 := (a.rotateRight 2 ^^^ a.rotateRight 13 ^^^ a.rotateRight 22) + ((a &&& g 1) ^^^ (a &&& g 2) ^^^ (g 1 &&& g 2))
  [t1 + t2, a, g 1, g 2, g 3 + t1, e, g 5, g 6]

def shaBlock (h : List W32) (b : List Byte) : List W32 :=
  let w0 := ((List.range 16).map fun i => bigEnd32 ((b.drop (4 * i)).take 4)).reverse
  let ws := (shaSchedule 48 w0).reverse
  let r := (shaK.zip ws).foldl (fun h (k, w) => shaRound h (k + w)) h
  (h.zip r).map fun (x, y) => x + y

def shaBlocks : Nat → List W32 → List Byte → List W32
  | 0, h, _ => h
  | n + 1, h, bs => shaBlocks n (shaBlock h (bs.take 64)) (bs.drop 64)

/-- SHA-256: 32 bytes. -/
def sha256 (m : List Byte) : List Byte :=
  let p := shaPad m
  (shaBlocks (p.length / 64) shaStart p).flatMap fun w => bigEndBytes w.toNat 4

/-! ### RSASSA-PSS (R382, log 8) -/

def xorBytes (a b : List Byte) : List Byte := (a.zip b).map fun x => x.1 ^^^ x.2

/-- The mask of MGF1 with SHA-256, of n bytes. -/
def mgf1 (seed : List Byte) (n : Nat) : List Byte :=
  ((List.range ((n + 31) / 32)).flatMap fun i => sha256 (seed ++ bigEndBytes i 4)).take n

/-- The encoded message of RSASSA-PSS with SHA-256 for a modulus of 3,072 bits and a salt of 32 bytes: 384 bytes whose top bit
is clear. -/
def pssEncode (message salt : List Byte) : List Byte :=
  let h := sha256 (zeros 8 ++ sha256 message ++ salt)
  let db := xorBytes (zeros 318 ++ [1#8] ++ salt) (mgf1 h 351)
  (db.zipIdx.map fun x => if x.2 = 0 then x.1 &&& 0x7F#8 else x.1) ++ h ++ [0xBC#8]

/-- b to the power of the exponent whose binary digits, the highest first, are given, modulo n. -/
def powMod (b n : Nat) (digits : List Bool) : Nat :=
  digits.foldl (fun r d => let q := r * r % n; if d then q * b % n else q) 1

/-- The signature of a message under the part's identity key. -/
def pssSign (message salt : List Byte) : List Byte :=
  let m := (pssEncode message salt).foldl (fun n b => n * 256 + b.toNat) 0
  bigEndBytes (powMod m (2 ^ 3071 + Config.keyModulus.toNat)
    ((List.range 3072).map fun i => Config.keyExponent.getMsbD i)) 384

end Sys2Proof.Machine
end

