-- ==== Sys2Proof/Machine/Score.lean ====
section
/-! DEFINITION. Suspicion scores of the tested resources (R345, Table 23.3). -/

namespace Sys2Proof.Machine

/-- Table 23.4: kinds of resources. -/
def ResKind.code : ResKind → Nat
  | .core => 0 | .mcore => 1 | .engine => 2 | .linkHalf => 3 | .port => 4 | .channel => 5

def ResKind.ofCode (n : Nat) : ResKind :=
  match n with
  | 0 => .core | 1 => .mcore | 2 => .engine | 3 => .linkHalf | 4 => .port | _ => .channel

/-- A resource that nothing has happened to is in service with score 0. -/
def Resource.fresh : Resource := ⟨0, 0, true, false, false, 0, 0⟩

def State.res (s : State) (k : ResKind) (n : Nat) : Resource := (s.health.res.get? (k, n)).getD Resource.fresh

def State.modRes (s : State) (k : ResKind) (n : Nat) (f : Resource → Resource) : State :=
  { s with health := { s.health with res := s.health.res.put (k, n) (f (s.res k n)) } }

/-- R345: a score rises, saturating. -/
def State.blame (s : State) (k : ResKind) (n add : Nat) : State :=
  s.modRes k n fun r => { r with score := min (r.score + add) 0xFFFF }

/-- R345, R346: what an event adds to a score: 0 corrected ECC error, 1 flit resent, 2 compare-engine anomaly. -/
def scoreOf (event : Nat) : Nat := match event with | 0 => 32 | 1 => 4 | _ => 4096

/-- Ticks that a resource has been in service; under a test lease it is not (R345, R347). -/
def State.servedTicks (s : State) (r : Resource) : Nat := r.served + if r.inService && !r.leased then s.ticks - r.since else 0

/-- A test lease is taken on a resource, and given back (R347). -/
def State.lease (s : State) (k : ResKind) (n : Nat) : State :=
  s.modRes k n fun r => { r with leased := true, served := s.servedTicks r }
def State.unlease (s : State) (r : Resource) : Resource := { r with leased := false, since := s.ticks }

/-- R349: is a resource the failed second half of a link, which cannot be retired and keeps its score? -/
def State.stuckHalf (s : State) (k : ResKind) (n : Nat) : Bool :=
  k == .linkHalf && (s.res k n).score == 0xFFFF && !(s.res k (if n % 2 = 0 then n + 1 else n - 1)).inService

/-- SCORE_DECAY (R345): a further 10⁹ ticks in service lower the score of resource `here.idx` of kind `here.pos` by 1. -/
def execScoreDecay (s : State) : Host.Outcome State Fault Refusal :=
  let k := ResKind.ofCode s.here.pos
  .next (s.modRes k s.here.idx fun r =>
    if r.inService && !r.leased && !s.stuckHalf k s.here.idx then { r with score := r.score - 1 } else r)

end Sys2Proof.Machine
end

