-- ==== Sys2Proof/Machine/Fabric.lean ====
section
/-! DEFINITION. The scale-up fabric (R383 to R397): flits, ports, credits and returns, packets and their routes, recovery,
the audit, port state, pod barriers and time. What a packet's payload says to its agent is the model's own layout
(log 60). -/

namespace Sys2Proof.Machine

/-! ### Flits (Table 27.1) -/

/-- Bits 95:0 of the header. -/
def Flit.header (f : Flit) : Nat :=
  f.vc % 8 + f.pos % 4 * 2 ^ 3 + b2n f.rty * 2 ^ 5 + f.seq % 4096 * 2 ^ 6 + f.ackseq % 4096 * 2 ^ 18 +
    f.dpkg % 2 ^ 14 * 2 ^ 30 + f.spkg % 2 ^ 14 * 2 ^ 44 + b2n f.idle * 2 ^ 58 + f.rvc % 8 * 2 ^ 64 +
    f.rcnt % 32 * 2 ^ 67 + f.rseq % 4096 * 2 ^ 72

def flitCrc (header : Nat) (payload : BitVec 512) : Nat := (crc32 (leBytes 12 header ++ leBytes 64 payload.toNat)).toNat

/-- The 640 bits on the wire. -/
def Flit.toBits (f : Flit) : BitVec 640 :=
  BitVec.ofNat 640 (f.header + flitCrc f.header f.payload * 2 ^ 96 + f.payload.toNat * 2 ^ 128)

/-- A flit of the wire, and whether its CRC and its reserved fields are good. -/
def Flit.ofBits (b : BitVec 640) : Flit × Bool :=
  let pay := b.extractLsb' 128 512
  (⟨field b 0 3, field b 3 2, b.getLsbD 5, field b 6 12, field b 18 12, field b 30 14, field b 44 14, b.getLsbD 58,
      field b 64 3, field b 67 5, field b 72 12, pay⟩,
    field b 96 32 == flitCrc (field b 0 96) pay && field b 59 5 == 0 && field b 84 12 == 0)

/-! ### Ports -/

def Fabric.port (f : Fabric) (p : Nat) : FPort := (f.ports.get? p).getD FPort.init

def State.modFabric (s : State) (g : Fabric → Fabric) : State := { s with fabric := g s.fabric }

def State.modPort (s : State) (p : Nat) (g : FPort → FPort) : State :=
  s.modFabric fun f => { f with ports := f.ports.put p (g (f.port p)) }

/-- Is there a link, and may a port carry traffic (R392)? -/
def FPort.linked (p : FPort) : Bool := p.lanes != 0
def FPort.up (p : FPort) : Bool := p.en && p.linked && !p.retired
/-- Flit times in a tick (R383, R392). -/
def FPort.rate (p : FPort) : Nat := if p.lanes = 3 then 20 else 10
def FPort.usable (p : FPort) : Bool := p.up && !p.wdrawn && !p.peerDown

/-- Flits of the receiving buffer of a VC: of packets still arriving and of packets waiting to go on. -/
def Fabric.held (f : Fabric) (p v : Nat) : Nat :=
  (at' (f.port p).rx v []).length + ((f.out.filter fun x => x.origin == some (p, v)).map fun x => x.flits.length).sum

/-- Slots of a receiving buffer leave it, to be returned (R385). -/
def State.freeSlots (s : State) (origin : Option (Nat × Nat)) (n : Nat) : State :=
  match origin with
  | some (p, v) => s.modPort p fun x => { x with owed := upd x.owed v (at' x.owed v 0 + n) }
  | none => s

/-- Numbers modulo 4,096: is `a` later than `b`? -/
def later (a b : Nat) : Bool := let d := (a + 4096 - b) % 4096; d != 0 && decide (d < 2048)

/-- Puts a data flit on the wire: it takes its number, a slot of its VC and a place in the retry buffer, and carries one
return that is owed unless it is to carry none (R385, R388). -/
def FPort.sendFlit (x : FPort) (bare : Bool) (f : Flit) : FPort :=
  let v := if bare then none else (List.range 8).find? fun v => 0 < at' x.owed v 0
  let n := match v with | some v => min 31 (at' x.owed v 0) | none => 0
  let f := { f with
    rty := x.rty, seq := x.nextSeq, ackseq := (x.expect + 4095) % 4096, rvc := v.getD 0, rcnt := n
    rseq := if n = 0 then 0 else x.rseqOut }
  { x with
    nextSeq := (x.nextSeq + 1) % 4096
    counts := upd x.counts f.vc (at' x.counts f.vc 0 - 1)
    owed := match v with | some v => upd x.owed v (at' x.owed v 0 - n) | none => x.owed
    rseqOut := if n = 0 then x.rseqOut else (x.rseqOut + 1) % 4096
    told := (x.expect + 4095) % 4096
    sent := x.sent.drop (x.sent.length - 4095) ++ [(f.seq, f.vc)]
    retry := x.retry ++ [f]
    wire := x.wire ++ [f] }

/-- An idle flit, where the port has something to tell (Table 27.1); its SPKG says whose it is (log 60). -/
def FPort.sendIdle (x : FPort) (self : Nat) : FPort :=
  let v := (List.range 8).find? fun v => 0 < at' x.owed v 0
  let n := match v with | some v => min 31 (at' x.owed v 0) | none => 0
  let ack := (x.expect + 4095) % 4096
  if n = 0 ∧ x.rty = false ∧ x.told = ack then x
  else
    { x with
      owed := match v with | some v => upd x.owed v (at' x.owed v 0 - n) | none => x.owed
      rseqOut := if n = 0 then x.rseqOut else (x.rseqOut + 1) % 4096
      told := ack
      wire := x.wire ++ [⟨0, 0, x.rty, 0, ack, 0, self, true, v.getD 0, n, if n = 0 then 0 else x.rseqOut, 0⟩] }

/-! ### Routes (R386, R387, R392) -/

/-- A class packet that leaves by a port whose DL is set moves to the odd VC of its pair (R386). -/
def datelineVc (vc : Nat) (dl : Bool) : Nat := if dl ∧ vc < 6 ∧ vc % 2 = 0 then vc + 1 else vc

def RouteEnt.escPort (e : RouteEnt) : Option Nat := if e.evalid ∧ e.esc < 96 then some e.esc else none
def RouteEnt.primary (e : RouteEnt) : Option Nat := if e.valid ∧ e.port < 96 then some e.port else none

/-- Where a packet goes next: output port and VC; none where its DPKG has no valid entry. A packet of VC6 follows escape ports
only; one that would take a port that is down takes its escape port on VC6, but for VC7. -/
def Fabric.nextHop (f : Fabric) (dpkg vc : Nat) : Option (Option Nat × Nat) :=
  match f.routes.get? dpkg with
  | none => none
  | some e =>
    if vc = 6 then (if e.primary.isNone ∧ e.escPort.isNone then none else some (e.escPort, 6))
    else match e.primary with
      | none => none
      | some p =>
        if (f.port p).usable ∨ vc = 7 then some (some p, datelineVc vc (f.port p).dl)
        else match e.escPort with
          | some q => some (some q, 6)
          | none => some (some p, datelineVc vc (f.port p).dl)

/-- A packet joins the packets that wait to leave, or is dropped where DPKG has no valid entry (R386). -/
def State.routePacket (s : State) (vc dpkg spkg : Nat) (flits : List (BitVec 512)) (origin : Option (Nat × Nat)) : State :=
  match s.fabric.nextHop dpkg vc with
  | some (p, v) => s.modFabric fun f => { f with out := f.out ++ [⟨v, p, dpkg, spkg, flits, 0, origin⟩] }
  | none =>
    let s := s.freeSlots origin flits.length
    match origin with
    | some (p, _) => s.modPort p fun x => { x with drops := min (x.drops + 1) 0xFFFF }
    | none => s

/-! ### What packets say (log 60) -/

def payloadOf (ws : List W64) : BitVec 512 := BitVec.ofNat 512 (leNat (wordsBytes ws))
def payWord (p : BitVec 512) (i : Nat) : W64 := p.extractLsb' (64 * i) 64

/-- A packet to a package: to this one at once, else over the fabric. -/
def podPayload (kind group num gen : Nat) : BitVec 512 :=
  payloadOf [w64 (2 + kind * 2 ^ 8 + group * 2 ^ 16 + num * 2 ^ 32), w64 gen]

/-- Agreement word or data of a collective (R335): group, ordinal, sender's rank, and the word or the offset. -/
def collHead (group ordinal rank : Nat) (w : W64) : BitVec 512 :=
  payloadOf [w64 (1 + group * 2 ^ 16 + ordinal * 2 ^ 32), w64 rank, w]
def collData (group ordinal rank off : Nat) : BitVec 512 :=
  payloadOf [w64 (1 + 2 ^ 8 + group * 2 ^ 16 + ordinal * 2 ^ 32), w64 rank, w64 off]

def Fabric.groupOf (f : Fabric) (g : Nat) : Option GroupEnt := (f.groups.get? g).filter (·.valid)

/-- The exchange of a collective. -/
def Fabric.coll (f : Fabric) (group ordinal : Nat) : CollWait :=
  (f.colls.find? fun c => c.group == group && c.ordinal == ordinal).getD ⟨group, ordinal, [], [], [], false⟩

def Fabric.setColl (f : Fabric) (c : CollWait) : Fabric :=
  { f with colls := c :: f.colls.filter fun x => !(x.group == c.group && x.ordinal == c.ordinal) }

def CollWait.addData (c : CollWait) (rank off : Nat) (bs : List Byte) : CollWait :=
  let old := (c.datas.get? rank).getD ([], 0)
  { c with datas := c.datas.put rank (old.1.writeN off bs, old.2 + bs.length) }

/-- A flit of the link itself on VC7, for the peer of a port, unless the same one waits already. -/
def State.linkFlit (s : State) (port : Nat) (ws : List W64) : State :=
  let k : Packet := ⟨7, some port, (s.fabric.port port).peerPkg, s.fabric.pkgid, [payloadOf ws], 0, none⟩
  if s.fabric.out.contains k then s else s.modFabric fun f => { f with out := f.out ++ [k] }

/-- Is a packet what this end of a link tells the other? -/
def Packet.ofLink (k : Packet) : Bool := k.origin.isNone && field (payWord (k.flits.headD 0) 0) 0 8 == 3

/-- Is it the lane test of a withdrawn port, which its peer sends back (R392)? -/
def Packet.laneTest (k : Packet) : Bool := k.ofLink && field (payWord (k.flits.headD 0) 0) 8 8 == 4

/-- What such a packet tells of a resynchronisation (R391): 1 the retry buffer is empty, 2 the receiving buffers too; 0 for any
other. -/
def Packet.resyncStep (k : Packet) : Nat :=
  let h := k.flits.headD 0
  if k.ofLink ∧ field (payWord h 0) 8 8 = 1 then field (payWord h 1) 32 2 else 0

/-- A packet for this package reaches its agent (R384): the collective engine, whose root passes on what the members
say; the barrier unit; or the management element with what the port's link says. -/
def State.deliverHere (s : State) (port spkg : Nat) (flits : List (BitVec 512)) : State × List (Nat × Nat × List (BitVec 512)) :=
  let h := flits.headD 0
  let w := payWord h 0
  let kind := field w 8 8
  let turn (i : Instr) : State := { s with turns := .event i ⟨0, spkg, 0, port, h.toNat⟩ :: s.turns }
  match field w 0 8 with
  | 1 =>
    let group := field w 16 16
    let ordinal := field w 32 32
    let rank := (payWord h 1).toNat
    let c := s.fabric.coll group ordinal
    let root := match s.fabric.groupOf group with | some e => e.root == s.fabric.pkgid | none => false
    if kind = 0 then
      let c := { c with heads := c.heads.put rank (payWord h 2), pkgs := c.pkgs.put rank spkg }
      (s.modFabric fun f => f.setColl c, [])
    else
      let c := c.addData rank (payWord h 2).toNat (flits.tail.flatMap fun x => leBytes 64 x.toNat)
      let on := if root then c.pkgs.filterMap fun (r, p) =>
          if r = rank ∨ p = s.fabric.pkgid then none else some (4, p, flits) else []
      (s.modFabric fun f => f.setColl c, on)
  | 2 => (if kind = 0 then turn .podBarrierArrival else turn .podBarrierRelease, [])
  | 3 => (match kind with
    | 0 => turn .auditCheck
    | 1 => turn .portStateFlit
    | 4 => s.linkFlit port [w64 (3 + 5 * 2 ^ 8), payWord h 1]
    | 5 => s.modPort port fun x => { x with tested := true }
    | _ => turn .timeSync, [])
  | _ => (s, [])

/-- A packet injected here takes the even VC of its class, or VC7 (R386); one for this package itself reaches its agent at
once. -/
def State.inject (s : State) (vc dpkg : Nat) (flits : List (BitVec 512)) : State :=
  if dpkg = s.fabric.pkgid then (s.deliverHere 0 dpkg flits).1
  else s.routePacket vc dpkg s.fabric.pkgid flits none

def State.deliverPacket (s : State) (port spkg : Nat) (flits : List (BitVec 512)) : State :=
  let x := s.deliverHere port spkg flits
  x.2.foldl (fun s p => s.inject p.1 p.2.1 p.2.2) x.1

/-! ### Receiving (R385, R389, R390) -/

/-- R390: a return, applied once; numbers skipped are noted as missing. -/
def FPort.applyReturn (x : FPort) (rvc rcnt rseq : Nat) : FPort :=
  if rcnt = 0 then x
  else if later rseq x.rseqIn then
    let skip := (rseq + 4096 - x.rseqIn) % 4096 - 1
    { x with
      counts := upd x.counts rvc (at' x.counts rvc 0 + rcnt)
      missing := x.missing ++ (List.range skip).map fun i => ((x.rseqIn + 1 + i) % 4096, 8, 0)
      rseqIn := rseq }
  else { x with missing := x.missing.map fun m => if m.1 = rseq then (rseq, rvc, rcnt) else m }

/-- The flits that an acknowledgement covers leave the retry buffer (R388). -/
def FPort.acknowledge (x : FPort) (ack : Nat) : FPort := { x with retry := x.retry.filter fun f => later f.seq ack }

/-- FLIT_RECEIVE (R389): the next flit that has come in over a port's wire. -/
def execFlitReceive (s : State) : Host.Outcome State Fault Refusal :=
  match s.fabric.wireIn with
  | [] => .next s
  | (p, bits) :: rest =>
    let s := s.modFabric fun f => { f with wireIn := rest }
    let x := s.fabric.port p
    let (f, ok) := Flit.ofBits bits
    if x.linked = false then .next s
    else if ok = false then .next (if f.idle then s else s.modPort p fun x => { x with rty := true })
    else
      let s := s.modPort p fun x => (x.acknowledge f.ackseq).applyReturn f.rvc f.rcnt f.rseq
      let s := if f.rty ∧ (s.fabric.port p).retry.isEmpty = false then
          { s with turns := .event .retryResend ⟨0, 0, 0, p, 0⟩ :: s.turns } else s
      if f.idle then .next (s.modPort p fun x => { x with peerPkg := f.spkg, peerKnown := true })
      else if f.seq ≠ x.expect then .next (s.modPort p fun x => { x with rty := true })
      else
        let s := s.modPort p fun x =>
          { x with expect := (x.expect + 1) % 4096, rty := false, rx := upd x.rx f.vc (at' x.rx f.vc [] ++ [f]) }
        if f.pos = 0 ∨ f.pos = 3 then
          let fl := (at' (s.fabric.port p).rx f.vc []).map (·.payload)
          let s := s.modPort p fun x => { x with rx := upd x.rx f.vc [] }
          if f.dpkg = s.fabric.pkgid then
            .next ((s.freeSlots (some (p, f.vc)) fl.length).deliverPacket p f.spkg fl)
          else .next (s.routePacket f.vc f.dpkg f.spkg fl (some (p, f.vc)))
        else .next s

/-- RETRY_RESEND (R388, R389): port `here.idx` sends the flits of its retry buffer again, in order. -/
def execRetryResend (s : State) : Host.Outcome State Fault Refusal :=
  let p := s.here.idx
  let x := s.fabric.port p
  if x.retry.isEmpty then .next s
  else
    let again := x.retry.map fun f => { f with ackseq := (x.expect + 4095) % 4096, rty := x.rty }
    let s := s.modPort p fun x => { x with retries := min (x.retries + 1) (2 ^ 32 - 1), wire := x.wire ++ again }
    .next { s with turns := .event .correctedError ⟨0, 0, ResKind.port.code, p, 1⟩ :: s.turns }

/-! ### Sending (R384 to R388) -/

/-- The packet at a place of the waiting list may start: it is the first of its port and VC, its port carries traffic and
is not resynchronising, and there is room for all of it. What one end of a link tells the other needs the link alone and the
peer's package, a lane test an empty retry buffer too; the words of a resynchronisation pass the rest, once the retry buffer is empty (R391). -/
def Fabric.mayStart (f : Fabric) (i : Nat) (k : Packet) (p : Nat) : Bool :=
  let x := f.port p
  let first (q : Packet → Bool) : Bool := (f.out.take i).all fun y => !(y.port == some p && y.vc == k.vc && q y)
  if k.resyncStep ≠ 0 then x.linked && x.peerKnown && x.retry.isEmpty && first fun y => y.resyncStep != 0
  else
    (if k.ofLink then x.linked && x.peerKnown else x.up) && (!x.wdrawn || !x.retry.isEmpty || k.vc == 7) && !x.resyncing &&
      (!k.laneTest || x.retry.isEmpty) && decide (k.flits.length ≤ at' x.counts k.vc 0) && decide (x.retry.length + k.flits.length ≤ 256) && first fun _ => true

/-- What a port tells about VC v: the slots free in its receiving buffer whose return has been sent (log 61). -/
def Fabric.freeTold (f : Fabric) (p v : Nat) : Nat := 32 - f.held p v - at' (f.port p).owed v 0

/-- The payload of a flit of the link as it leaves: an audit, a port's state and a TIME are what they are then. -/
def State.linkPayload (s : State) (p : Nat) (k : Packet) : BitVec 512 :=
  let h := k.flits.headD 0
  let f := s.fabric
  let x := f.port p
  if k.resyncStep ≠ 0 then h
  else
    match field (payWord h 0) 8 8 with
    | 0 => payloadOf [payWord h 0, w64 ((List.range 8).map fun v => f.freeTold p v * 2 ^ (8 * v)).sum,
        w64 ((x.expect + 4095) % 4096 + (x.rseqOut + 4095) % 4096 * 2 ^ 16)]
    | 1 => payloadOf [payWord h 0, w64 (b2n (!x.up || x.wdrawn) + p * 2 + f.pkgid * 2 ^ 9)]
    | 2 => payloadOf [payWord h 0, w64 s.time]
    | 6 => payloadOf [payWord h 0, w64 s.time]
    | _ => h

/-- R391: a resynchronisation ends: full counts, returns from 0. -/
def FPort.resynced (x : FPort) : FPort :=
  if x.resyncOut = 2 ∧ x.resyncIn = 2 then
    { x with counts := Vector.replicate 8 32, rseqOut := 0, rseqIn := 4095, missing := [], owed := Vector.replicate 8 0
             resyncing := false, resyncOut := 0, resyncIn := 0 }
  else x

/-- POS of flit i of n. -/
def flitPos (i n : Nat) : Nat := if n = 1 then 0 else if i = 0 then 1 else if i + 1 = n then 3 else 2

/-- PACKET_START (R384 to R387): packet `here.idx` of those waiting takes a new route where its port is gone, and starts
once it has room, all its flits in a row, a flit of the link with what it tells then and no return of its own; with
`here.val` = 1 port `here.idx` sends an idle flit if it has anything to tell. -/
def execPacketStart (s : State) : Host.Outcome State Fault Refusal :=
  if s.here.val = 1 then
    .next (if (s.fabric.port s.here.idx).linked then s.modPort s.here.idx fun x => x.sendIdle s.fabric.pkgid else s)
  else
    match s.fabric.out[s.here.idx]? with
    | none => .next s
    | some k =>
      let reroute := match k.port with
        | none => true
        | some p => !(s.fabric.port p).usable && k.vc != 7
      let k := if reroute then
          (match s.fabric.nextHop k.dpkg k.vc with | some (p, v) => { k with port := p, vc := v } | none => k)
        else k
      let s := s.modFabric fun f => { f with out := modAt (fun _ => k) f.out s.here.idx }
      match k.port with
      | none => .next s
      | some p =>
        if s.fabric.mayStart s.here.idx k p = false then .next s
        else
          let n := k.flits.length
          let link := k.ofLink
          let dpkg := if link then (s.fabric.port p).peerPkg else k.dpkg
          let flits := if link then [s.linkPayload p k] else k.flits
          let s := s.modPort p fun x => flits.zipIdx.foldl (fun x (d, i) =>
            x.sendFlit link ⟨k.vc, flitPos i n, false, 0, 0, dpkg, k.spkg, false, 0, 0, 0, d⟩) x
          let s := s.modPort p fun x => FPort.resynced { x with resyncOut := max x.resyncOut k.resyncStep }
          let s := s.modFabric fun f => { f with out := f.out.eraseIdx s.here.idx }
          .next (s.freeSlots k.origin n)

/-- ESCAPE_TIMEOUT (R387): class packet `here.idx` has waited ESCWAIT flit times for slots: it moves to VC6 of its escape
port, which must have room. -/
def execEscapeTimeout (s : State) : Host.Outcome State Fault Refusal :=
  match s.fabric.out[s.here.idx]? with
  | none => .next s
  | some k =>
    let short := match k.port with
      | some p => decide (at' (s.fabric.port p).counts k.vc 0 < k.flits.length)
      | none => false
    match (s.fabric.routes.get? k.dpkg).bind RouteEnt.escPort with
    | some q =>
      if k.vc < 6 ∧ Config.escWait ≤ k.waited ∧ short = true ∧ k.flits.length ≤ at' (s.fabric.port q).counts 6 0 then
        .next (s.modFabric fun f =>
          { f with out := modAt (fun k => { k with vc := 6, port := some q, waited := 0 }) f.out s.here.idx })
      else .next s
    | none => .next s

/-! ### The audit and resynchronisation (R391) -/

/-- AUDIT_SEND (R391): port `here.idx` has its audit flit to send. -/
def execAuditSend (s : State) : Host.Outcome State Fault Refusal :=
  let p := s.here.idx
  .next (if (s.fabric.port p).up then s.linkFlit p [w64 3] else s)

/-- The data flits sent after a number, as number and VC. -/
def FPort.sentAfter (x : FPort) (ack : Nat) : List (Nat × Nat) :=
  match x.sent.findIdx? fun f => f.1 == ack with
  | some i => x.sent.drop (i + 1)
  | none => x.sent

/-- R391 `audit()` for one VC. -/
def FPort.auditOk (x : FPort) (v e ack rlast : Nat) : Bool :=
  let inflight := ((x.sentAfter ack).filter fun f => f.2 == v).length
  let miss := ((x.missing.filter fun m => m.2.1 == v && !later m.1 rlast).map fun m => m.2.2).sum
  at' x.counts v 0 + inflight + miss == e

/-- The missing returns up to a number are applied. -/
def FPort.applyMissing (x : FPort) (rlast : Nat) : FPort :=
  { x with
    counts := x.missing.foldl (fun c m => if later m.1 rlast then c else upd c m.2.1 (at' c m.2.1 0 + m.2.2)) x.counts
    missing := x.missing.filter fun m => later m.1 rlast }

/-- Are a port's retry buffer and receiving buffers empty? -/
def Fabric.drained (f : Fabric) (p : Nat) : Bool :=
  (f.port p).retry.isEmpty && (List.range 8).all fun v => f.held p v == 0

/-- R391: this end of a link resynchronises. -/
def FPort.beginResync (x : FPort) : FPort :=
  if x.resyncing then x else { x with resyncing := true, resync := min (x.resync + 1) 0xFFFF }

/-- AUDIT_CHECK (R391): port `here.idx` compares the audit flit in `here.val`; a failure begins a resynchronisation. With
`here.val` = 0 a resynchronising port tells its peer how far it has come (log 75): its retry buffer is empty; then, when the
peer's is too and no more can come, its receiving buffers are. -/
def execAuditCheck (s : State) : Host.Outcome State Fault Refusal :=
  let p := s.here.idx
  let x := s.fabric.port p
  if s.here.val = 0 then
    let tell (step : Nat) : State := s.linkFlit p [w64 (3 + 2 ^ 8), w64 (step * 2 ^ 32)]
    if x.resyncing = false then .next s
    else if x.resyncOut = 0 ∧ x.retry.isEmpty = true then .next (tell 1)
    else if x.resyncOut = 1 ∧ 1 ≤ x.resyncIn ∧ s.fabric.drained p = true then .next (tell 2)
    else .next s
  else
    let pay := BitVec.ofNat 512 s.here.val
    let ack := field (payWord pay 2) 0 12
    let rlast := field (payWord pay 2) 16 12
    let ok := (List.range 8).all fun v => x.auditOk v (field (payWord pay 1) (8 * v) 8) ack rlast
    let s := s.modPort p fun x => { x.applyMissing rlast with sent := x.sentAfter ack }
    .next (if ok then s else s.modPort p FPort.beginResync)

/-! ### Lanes, port state and link-up (R392) -/

/-- Tells the peer of a port how this end is. -/
def State.tellPeer (s : State) (p : Nat) : State := s.linkFlit p [w64 (3 + 2 ^ 8)]

/-- PORT_STATE_FLIT (R392): the peer of port `here.idx` tells its state: its packets take the escape port while it is
down; a resynchronising peer tells how far it has come, and this end resynchronises with it (R391). -/
def execPortStateFlit (s : State) : Host.Outcome State Fault Refusal :=
  let w := payWord (BitVec.ofNat 512 s.here.val) 1
  let step := field w 32 2
  .next (s.modPort s.here.idx fun x =>
    if step ≠ 0 then FPort.resynced { x.beginResync with resyncIn := max x.resyncIn step }
    else { x with peerDown := w.getLsbD 0, peerPort := field w 1 7, peerPkg := field w 9 14 })

/-- LINK_UP (R385): the link of port `here.idx` comes up on the lanes of `here.val`: full counts, numbers from 0. -/
def execLinkUp (s : State) : Host.Outcome State Fault Refusal :=
  let p := s.here.idx
  let x := s.fabric.port p
  if x.retired ∨ s.here.val % 4 = 0 then .next s
  else
    .next ((s.modPort p fun x =>
      { x with
        lanes := s.here.val % 4, peerDown := false, counts := Vector.replicate 8 32, rx := Vector.replicate 8 []
        retry := [], nextSeq := 0, expect := 0, told := 4096, rty := false, rseqOut := 0, rseqIn := 4095
        missing := [], owed := Vector.replicate 8 0, sent := [], resyncing := false, resyncOut := 0, resyncIn := 0
        peerKnown := false, tested := false }).tellPeer p)

/-! ### Pod barriers (R394) -/

/-- The live teams whose pod group is g. -/
def State.podTeams (s : State) (g : Nat) : List (Nat × Team) := s.teams.filter fun (_, t) => t.launch.tag == g && t.live

/-- The pod barrier of a team. -/
def Team.podBar (t : Team) (num : Nat) : Option Barrier := t.bars.find? fun b => b.scope == 5 && b.num == num

/-- Has the package side of barrier `num` of group g completed: in every live team with this TAG? -/
def State.podSideDone (s : State) (g num : Nat) : Bool :=
  (s.podTeams g).all fun (ctx, t) => match t.podBar num with
    | some b => t.barDone (s.barEnrolled ctx b) (s.barNow ctx b)
    | none => false

/-- POD_BARRIER_ARRIVAL (R394): with `here.val` = 0, the package side of pod barrier `here.idx` of the team at `here` has
completed and its arrival goes to ROOT; else the packet in `here.val` from package `here.core` is counted here at the
root, and the last of a generation sends the releases. -/
def execPodBarrierArrival (s : State) : Host.Outcome State Fault Refusal :=
  if s.here.val = 0 then
    match s.team? s.here.ctx with
    | none => .next s
    | some t =>
      match t.bars[s.here.idx]?, s.fabric.groupOf t.launch.tag with
      | some b, some e =>
        let g := t.launch.tag
        if b.scope ≠ 5 ∨ b.sentPod ∨ s.podSideDone g b.num = false then .next s
        else
          let s := { s with teams := s.teams.map fun (x : Nat × Team) =>
            if x.2.launch.tag = g ∧ x.2.live = true then
              (x.1, x.2.modBar 5 b.unit b.num fun b => { b with sentPod := true })
            else x }
          .next (s.inject 7 e.root [podPayload 0 g b.num b.gen])
      | _, _ => .next s
  else
    let p := BitVec.ofNat 512 s.here.val
    let g := field (payWord p 0) 16 16
    let num := field (payWord p 0) 32 8
    let gen := (payWord p 1).toNat
    match s.fabric.groupOf g with
    | none => .next s
    | some e =>
      let pk := (s.fabric.podCount.get? (g, num, gen)).getD [] ++ [s.here.core]
      if pk.length < e.n then .next (s.modFabric fun f => { f with podCount := f.podCount.put (g, num, gen) pk })
      else
        let s := s.modFabric fun f => { f with podCount := f.podCount.del (g, num, gen) }
        .next (pk.foldl (fun s m => s.inject 7 m [podPayload 1 g num gen]) s)

/-- POD_BARRIER_RELEASE (R394): the release in `here.val` completes the pod barrier of every team of the group here. -/
def execPodBarrierRelease (s : State) : Host.Outcome State Fault Refusal :=
  let p := BitVec.ofNat 512 s.here.val
  let g := field (payWord p 0) 16 16
  let num := field (payWord p 0) 32 8
  .next ((s.podTeams g).foldl (fun s (ctx, t) => match t.podBar num with
    | some b => if b.sentPod then s.completeBar ctx t b else s
    | none => s) s)

/-! ### Time (R226, R396) -/

/-- TIME_SYNC (R396): with `here.val` = 0 the package sends its TIME on every port and a request along SYNCPORT, which is
answered with its own TIME; a packet in `here.val` is such a request, the answer, which gives the delay of the link to the
parent, or a TIME: the parent's, at SYNCPORT, by which a package that is not the root steers. -/
def execTimeSync (s : State) : Host.Outcome State Fault Refusal :=
  let f := s.fabric
  let p := s.here.idx
  if s.here.val = 0 then
    let s := (f.ports.filter fun x => x.2.up).foldl (fun s x => s.linkFlit x.1 [w64 (3 + 6 * 2 ^ 8)]) s
    .next (if (f.port f.syncPort).up then s.linkFlit f.syncPort [w64 (3 + 2 * 2 ^ 8)] else s)
  else
    let pay := BitVec.ofNat 512 s.here.val
    match field (payWord pay 0) 8 8 with
    | 2 => .next (s.linkFlit p [w64 (3 + 3 * 2 ^ 8), payWord pay 1])
    | 3 => .next (if p = f.syncPort then
        s.modFabric fun f => { f with delay := some ((s.time - (payWord pay 1).toNat) / 2) } else s)
    | _ =>
      match f.delay with
      | some d =>
        if f.syncRoot = true ∨ p ≠ f.syncPort ∨ (f.port p).up = false then .next s
        else .next { s with corr := ((payWord pay 1).toNat + d : Int) - s.time }
      | none => .next s

/-- R396: does the package steer its TIME now: it is not the root, and its SYNCPORT is up? -/
def Fabric.steers (f : Fabric) : Bool := !f.syncRoot && (f.port f.syncPort).up

/-- One tick of TIME (R226): a correction holds it or advances it by 2, at most once in 1,000 ticks; a package that does not steer
keeps its own time base, and drops what was left of a correction (R396). -/
def State.tickTime (s : State) : State :=
  let corr := if s.fabric.steers then s.corr else 0
  if corr = 0 ∨ s.time < s.lastCorr + 1000 then { s with time := s.time + 1, corr := corr }
  else if 0 < corr then { s with time := s.time + 2, corr := corr - 1, lastCorr := s.time + 2 }
  else { s with corr := corr + 1, lastCorr := s.time + 1 }

end Sys2Proof.Machine
end

