-- ==== Sys2Proof/Machine/Spec.lean ====
section
/-! DEFINITION. Verdicts (R252), validation (R253) and squash with its cascade (R254, R255). -/

namespace Sys2Proof.Machine

/-! ### Discarding what a run has in flight (R254) -/

/-- A result that will not arrive: its register stays empty, its predicate keeps its value, its credit returns. -/
def CoreCtx.cancelResult (c : CoreCtx) (pos dst pu pn : Nat) (held : Bool) : CoreCtx :=
  let c := if dst ≤ 11 then c.modElem pos fun e => e.setReg dst { e.reg dst with full := false, pending := false }
    else if codeIsPort dst && held then c.dropCredit pos (dst - 24)
    else c
  if pu = 0 then c else c.modElem pos fun e => e.setPred pn { e.pred pn with pending := false }

/-- An item in flight of a discarded run. -/
def CoreCtx.cancelFlight (c : CoreCtx) (f : Flight) : CoreCtx :=
  match f.cargo with
  | .result r => c.cancelResult r.pos r.dst r.pu r.pn true
  | .streamWord p q _ _ _ _ => c.dropCredit p q
  | .busToken p q _ => c.modMe p fun m => { m with qUsed := upd m.qUsed q (at' m.qUsed q 0 - 1) }
  | .busScales p q _ => c.modMe p fun m => { m with scalesComing := upd m.scalesComing q (at' m.scalesComing q 0 - 1) }
  | .chunk col rmask _ _ _ =>
    ((List.range 4).filter fun m => rmask / 2 ^ m % 2 == 1).foldl
      (fun c m => c.modMe ((m + 2) * 8 + col) fun x => { x with reserved := x.reserved - 1 }) c
  | _ => c

def CoreCtx.cancelFlights (c : CoreCtx) (run : Nat) : CoreCtx :=
  let mine := c.flights.filter fun f => f.run == run
  mine.foldl CoreCtx.cancelFlight { c with flights := c.flights.filter fun f => f.run != run }

/-- The requests of a run at one LE are discarded. -/
def CoreCtx.cancelReqs (c : CoreCtx) (pos run : Nat) : CoreCtx :=
  let mine := (c.le pos).reqs.filter fun r => r.run == run
  mine.foldl (fun c r => c.cancelResult pos r.dst r.pu r.pn r.held)
    (c.modLe pos fun x => { x with reqs := x.reqs.filter fun r => r.run != run })

/-- An undo entry gives back what it holds (R116, R251). -/
def CoreCtx.undo (c : CoreCtx) (op : BufOp) : CoreCtx :=
  match op with
  | .seUndo pos w old => c.modSe pos fun b => b.setWord w old
  | .meUndo pos n old => c.modMe pos fun m => m.setBank n old
  | _ => c

/-- A run's buffered entries leave unperformed, its undo entries applied youngest first. -/
def CoreCtx.discardEntries (c : CoreCtx) (run : Nat) : CoreCtx :=
  let mine := c.buf.filter fun b => b.run == run
  let rest := c.buf.filter fun b => b.run != run
  let c := mine.reverse.foldl (fun c b => c.undo b.op) c
  { c with buf := rest, filter := if rest.isEmpty then [] else c.filter }

/-- What a discard clears in the region: queues, held faults, and of each ME the B register, holders and PH (R251). -/
def CoreCtx.clearRegion (c : CoreCtx) (r : Run) : CoreCtx :=
  r.elems.foldl (fun c p =>
    let c := c.modElem p fun e => { e with queues := Vector.replicate 4 [], held := none, heldSlot := 0 }
    if kindAt p = .me then
      c.modMe p fun m => { m with
        cur := none, nxt := none, ph := 0, holders := Vector.replicate 4 (0#32, 0), drains := []
        qUsed := Vector.replicate 4 0 }
    else c) c

/-- Everything of a run that a discard takes from its core; the generators of its LEs are idle from then on. -/
def CoreCtx.discard (c : CoreCtx) (r : Run) : CoreCtx :=
  let c := (c.discardEntries r.id).cancelFlights r.id
  let c := (r.elems.filter fun p => kindAt p == .le).foldl (fun c p =>
    (c.cancelReqs p r.id).modLe p fun x => { x with gens := LE.init.gens }) c
  (c.clearRegion r).release r

/-- The claims of a run are discarded, and each dependent on another core is told (R254). -/
def State.dropClaims (s : State) (k : Key) (run : Nat) : State :=
  (s.claims k.1 k.2 run none).foldl (fun s (mc, slot) =>
    (s.modMcore (k.1, mc) fun m => m.modTile slot Tile.unclaim).tellDependents k.1 k.2 run mc slot false) s

/-- The runs of a core that read a tentative shadow of this run. -/
def CoreCtx.dependents (c : CoreCtx) (core run : Nat) : List Nat :=
  (c.runs.filter fun r => !r.reissue && r.inputs.any fun i => i.kind == .tentative core run).map (·.id)

/-- R254 for one run. -/
def State.squashOne (s : State) (k : Key) (r : Run) : State :=
  let s := s.dropClaims k r.id
  let s := s.dropInputs k r
  let s := match s.team? k.1 with
    | some t => s.modCore k fun c => c.dropArrivals t k.2 r.id
    | none => s
  let s := s.modTeam k.1 fun t => t.withdraw k.2 r.id
  let st := { r.status with squashed := true }
  let s := s.modCore k fun c =>
    let c := c.discard r
    let c := c.modRun r.id fun r =>
      { r with status := st, reissue := true, complete := false, closing := false, ended := [], inputs := [] }
    { c with verdicts := c.verdicts.filter fun v => v.1 != r.id }.modWalker fun w => { w with lstat := st.word }
  (s.count k 18 1).count k 19 r.fires

/-- SQUASH (R254): the run, then in the same cycle its dependents on the same core. -/
def State.squash (s : State) (k : Key) : Nat → List Nat → State
  | 0, _ => s
  | _, [] => s
  | fuel + 1, id :: ids =>
    match (s.core? k).bind fun c => c.run? id with
    | none => s.squash k fuel ids
    | some r =>
      if r.reissue ∨ r.spec = false then s.squash k fuel ids
      else
        let deps := ((s.core? k).map fun c => c.dependents k.2 id).getD []
        (s.squashOne k r).squash k fuel (ids ++ deps)

/-! ### Validation (R253) -/

/-- The traps that a validated run has held are raised now (R255); an element acts again only after the freeze. -/
def State.raiseHeld (s : State) (k : Key) (r : Run) : State :=
  r.elems.foldl (fun s p =>
    match (s.core? k).bind fun c => c.elem? p with
    | some e =>
      match e.held with
      | some t => s.elementTrap k p e.heldSlot t true
      | none => s
    | none => s) s

/-- R250: has the claimer of a tentative shadow been validated? -/
def State.claimerValid (s : State) (ctx core run : Nat) : Bool :=
  match (s.core? (ctx, core)).bind fun c => c.run? run with
  | some r => !r.spec && !r.reissue
  | none => true

/-- R250: the level of a dependent whose claimers have all been validated falls to 1, or to 0 where every input has passed; no
level rises. -/
def State.levelNow (s : State) (ctx : Nat) (r : Run) : Nat :=
  let valid := r.inputs.all fun i => match i.kind with
    | .tentative core run => i.passed || s.claimerValid ctx core run
    | _ => true
  min r.level (if r.inputs.all (·.passed) then 0 else if valid then 1 else r.level)

/-- R250: the levels of a team's speculative runs as they now stand. -/
def State.lowerLevels (s : State) (ctx : Nat) : State :=
  { s with cores := s.cores.map fun (p : Key × CoreCtx) =>
      if p.1.1 = ctx then
        (p.1, { p.2 with runs := p.2.runs.map fun (r : Run) => if r.spec then { r with level := s.levelNow ctx r } else r })
      else p }

/-- VALIDATE (R246, R251, R253, R255): the run counts as non-speculative from now on. -/
def State.validate (s : State) (k : Key) (r : Run) : State :=
  let s := s.modCore k fun c =>
    let rest := c.buf.filter fun b => !(b.run == r.id && (match b.op with | .meUndo _ _ _ => true | _ => false))
    let c := { c with buf := rest, filter := if rest.isEmpty then [] else c.filter }.modRun r.id fun r =>
      { r with spec := false, level := 0 }
    if r.complete then c.release r else c
  let s := s.modTeam k.1 fun t => t.confirm k.2 r.id
  let s := (s.count k 17 1).lowerLevels k.1
  s.raiseHeld k r

/-- The oldest verdict that has reached a core is charged and takes effect (R159, R252 to R256). -/
def State.landVerdict (s : State) (k : Key) : State :=
  match s.core? k with
  | none => s
  | some c =>
    match c.verdicts with
    | [] => s
    | (id, mc, slot, pass) :: vs =>
      let s := s.modCore k fun c => (CoreCtx.charge { c with verdicts := vs } 1)
      match c.run? id with
      | none => s
      | some r =>
        if r.spec = false ∨ r.reissue then s
        else if !pass then s.squash k 64 [id]
        else
          let is := r.inputs.map fun i => if i.mcore = mc ∧ i.slot = slot then { i with passed := true } else i
          let r := { r with inputs := is }
          let s := s.modCore k fun c => c.modRun id fun x => { x with inputs := is, level := s.levelNow k.1 r }
          if is.all (·.passed) then s.validate k r else s

/-- VERDICT_APPLY (R159, R252 to R256, R354): the oldest verdict that has reached the core, once it is admitted; one for a core
that has reached its migration point waits for the move. -/
def execVerdictApply (s : State) : Host.Outcome State Fault Refusal :=
  s.onCore fun c => if c.admits 1 = false ∨ s.atMove s.key = true then s else s.landVerdict s.key

end Sys2Proof.Machine
end

