-- ==== Sys2Proof/Machine/Walker.lean ====
section
/-! DEFINITION. The walker's nodes (R178 to R195), tasks and stealing (R189 to R191), and the bound channel (R187). -/

namespace Sys2Proof

open Machine

/-! ### Fields of a node word (R178) -/

def NodeFields.nextNode (n : NodeFields) : Nat := n.next.toNat
def NodeFields.altNode (n : NodeFields) : Nat := n.alt.toNat
def NodeFields.flag (n : NodeFields) (i : Nat) : Bool := n.flags.getLsbD i
def NodeFields.pay (n : NodeFields) (lo w : Nat) : Nat := field n.payload lo w

end Sys2Proof

namespace Sys2Proof.Machine

/-! ### Common parts -/


/-- R178: has everything the walker has put out completed as DONE, SQUASHED or DISCARDED? A squashed instance that is to be
reissued has (log 40). -/
def CoreCtx.drained (c : CoreCtx) : Bool := c.runs.all (·.reissue) && c.walker.pend.isEmpty

/-- R192: nothing of this walker is pending, runs, or is to be reissued (log 40). -/
def CoreCtx.walked (c : CoreCtx) : Bool := c.runs.isEmpty && c.walker.pend.isEmpty

/-- R179: the node at the walker's position is processed; `body` says what it does once DRAIN does not hold it. -/
def nodeStep (n : NodeFields) (s : State) (body : CoreCtx → Nat → State) : Host.Outcome State Fault Refusal :=
  s.onCore fun c =>
    match c.walker.pos with
    | none => s
    | some p =>
      if c.frozen ∨ c.resident = false then s
      else if n.flag 5 = true ∧ c.walker.mark = .none ∧ c.drained = false then s
      else body c p

/-- The node takes effect (R315): the walker changes and goes on. -/
def State.goNode (s : State) (next : Option Nat) (f : Walker → Walker) : State :=
  (s.modCore s.key fun c => c.modWalker fun w => { f w with pos := next, mark := .none }).progressed s.here.ctx

/-- The walker's mark changes and it stays at its node. -/
def State.markNode (s : State) (m : Mark) : State := s.modCore s.key fun c => c.modWalker fun w => { w with mark := m }

/-- WALK_OVERFLOW and WALK_UNDERFLOW carry the node word (Table 20.4). -/
def walkTrap (code : Nat) (kind : BitVec 6) (n : NodeFields) : TrapInfo := ⟨code, n.toWord kind, 0#64⟩

/-- R53: the index of the innermost active level. -/
def Walker.itr (w : Walker) : Nat := ((w.levels.head?).map fun l => l.index.toNat).getD 0

/-! ### Runs (R180) -/

def runNode (spec : Bool) (n : NodeFields) (s : State) : Host.Outcome State Fault Refusal :=
  nodeStep n s fun c p =>
    match c.walker.mark with
    | .appended no =>
      if (c.walker.pend.any fun e => e.id == no) ∨ (c.runs.any fun r => r.id == no) then s
      else s.goNode (some n.nextNode) id
    | _ =>
      if 8 ≤ c.walker.pend.length then s
      else
        let e : Pend := ⟨c.nextRun, p, n.pay 0 20, c.walker.itr, spec, 0⟩
        let s := s.modCore s.key fun c => { c with nextRun := c.nextRun + 1 }.modWalker fun w => { w with pend := w.pend ++ [e] }
        if n.flag 0 then (s.markNode (.appended e.id)).progressed s.here.ctx
        else s.goNode (some n.nextNode) id

/-- RUN (R180). -/
def execRun (n : NodeFields) (s : State) : Host.Outcome State Fault Refusal := runNode false n s
/-- RUNS (R180): the entry is marked speculative. -/
def execRuns (n : NodeFields) (s : State) : Host.Outcome State Fault Refusal := runNode true n s

/-! ### Loops (R183 to R186) -/

/-- The oldest entry of the bound channel for a node, and the channel without it. -/
def takeBound (p : Nat) : List (Nat × W32) → Option (W32 × List (Nat × W32))
  | [] => none
  | x :: xs => if x.1 = p then some (x.2, xs) else (takeBound p xs).map fun y => (y.1, x :: y.2)

/-- LGEN (R183). -/
def execLgen (n : NodeFields) (s : State) : Host.Outcome State Fault Refusal :=
  nodeStep n s fun c p =>
    let w := c.walker
    if 4 ≤ w.levels.length then s.walkerTrap s.key p (walkTrap 0x0A 0x03#6 n)
    else
      let start := w32 (n.pay 0 16)
      let enter (bound : W32) (bch : List (Nat × W32)) : State :=
        if bound.ule start then s.goNode (some n.altNode) fun w => { w with bch := bch }
        else s.goNode (some n.nextNode) fun w =>
          { w with bch := bch, levels := ⟨p, start, bound, field n.flags 1 4 + 1⟩ :: w.levels }
      if n.flag 0 then
        match takeBound p w.bch with
        | some (b, rest) => enter b rest
        | none => s
      else enter (w32 (n.pay 16 16)) w.bch

/-- The graph word of a node. -/
def State.nodeWord (s : State) (ctx p : Nat) : W64 := (((s.team? ctx).map fun t => t.graph.getD (p + 1) 0#64)).getD 0#64

/-- LEND (R184). -/
def execLend (n : NodeFields) (s : State) : Host.Outcome State Fault Refusal :=
  nodeStep n s fun c p =>
    match c.walker.levels with
    | [] => s.walkerTrap s.key p (walkTrap 0x0B 0x04#6 n)
    | l :: ls =>
      let hw := s.nodeWord s.here.ctx l.head
      if field hw 58 6 = 0x06 then
        s.goNode (some l.head) fun w => { w with levels := { l with index := l.index + 1#32 } :: ls }
      else
        let i := l.index.toNat + l.step
        if i < l.bound.toNat then
          s.goNode (some (field hw 48 10)) fun w => { w with levels := { l with index := w32 i } :: ls }
        else s.goNode (some n.nextNode) fun w => { w with levels := ls }

/-- R185: the test of COND and WHILE. -/
def condPass (n : NodeFields) (w : Walker) : Bool := w.cw.getLsbD (n.pay 0 6) != (n.pay 6 1 == 1)

/-- R185: CLR clears the bit at the end of the cycle, ahead of the cycle's CWSETs (R151). -/
def clearBit (n : NodeFields) (w : Walker) : Walker :=
  if n.pay 7 1 = 1 then { w with cwsets := (0#64, w64 (2 ^ n.pay 0 6)) :: w.cwsets } else w

/-- COND (R185). -/
def execCond (n : NodeFields) (s : State) : Host.Outcome State Fault Refusal :=
  nodeStep n s fun c _ =>
    s.goNode (some (if condPass n c.walker then n.nextNode else n.altNode)) (clearBit n)

/-- WHILE (R186). -/
def execWhileN (n : NodeFields) (s : State) : Host.Outcome State Fault Refusal :=
  nodeStep n s fun c p =>
    let w := c.walker
    let mine := ((w.levels.head?).map fun l => l.head == p).getD false
    if condPass n w then
      if mine then s.goNode (some n.nextNode) (clearBit n)
      else if 4 ≤ w.levels.length then s.walkerTrap s.key p (walkTrap 0x0A 0x06#6 n)
      else s.goNode (some n.nextNode) fun w =>
        clearBit n { w with levels := ⟨p, 0#32, BitVec.allOnes 32, 1⟩ :: w.levels }
    else s.goNode (some n.altNode) fun w => clearBit n { w with levels := if mine then w.levels.tail else w.levels }

/-- JMP (R185). -/
def execJmp (n : NodeFields) (s : State) : Host.Outcome State Fault Refusal :=
  nodeStep n s fun _ _ => s.goNode (some n.nextNode) id

/-! ### Calls and tasks (R188 to R191) -/

/-- CALLG (R188). -/
def execCallg (n : NodeFields) (s : State) : Host.Outcome State Fault Refusal :=
  nodeStep n s fun c p =>
    if 16 ≤ c.walker.rstack.length then s.walkerTrap s.key p (walkTrap 0x0A 0x08#6 n)
    else s.goNode (some n.altNode) fun w => { w with rstack := ⟨some n.nextNode, w.levels.length, false⟩ :: w.rstack }

/-- Pops loop levels down to a depth. -/
def Walker.popTo (w : Walker) (depth : Nat) : Walker := { w with levels := w.levels.drop (w.levels.length - depth) }

/-- RETG (R188). -/
def execRetg (n : NodeFields) (s : State) : Host.Outcome State Fault Refusal :=
  nodeStep n s fun c p =>
    match c.walker.rstack with
    | [] => s.walkerTrap s.key p (walkTrap 0x0B 0x09#6 n)
    | r :: rs =>
      if r.task then s.walkerTrap s.key p (walkTrap 0x0B 0x09#6 n)
      else s.goNode r.node fun w => { w.popTo r.depth with rstack := rs }

/-- FORK (R189). -/
def execFork (n : NodeFields) (s : State) : Host.Outcome State Fault Refusal :=
  nodeStep n s fun c p =>
    if 32 ≤ c.walker.deque.length then s.walkerTrap s.key p (walkTrap 0x0A 0x0A#6 n)
    else
      let g := field n.flags 0 3
      s.goNode (some n.nextNode) fun w =>
        { w with
          deque := ⟨n.altNode, n.payload, g, s.here.core⟩ :: w.deque
          joins := upd w.joins g ((at' w.joins g 0 + 1) % 65536) }

/-- May a walker begin a task (R189)? -/
def Walker.taskRoom (w : Walker) : Bool := decide (w.rstack.length < 16 ∧ w.levels.length < 4)

/-- R189: a task begins at the walker. -/
def CoreCtx.runTask (c : CoreCtx) (t : Task) : CoreCtx :=
  let n := (c.nextRun, (at' c.evc 15 0#64).toNat)
  c.modWalker fun w =>
    { w with
      rstack := ⟨w.pos, w.levels.length, true⟩ :: w.rstack
      levels := ⟨t.entry, t.arg, t.arg + 1#32, 1⟩ :: w.levels
      pos := some t.entry
      mark := .none
      tasks := (t, n) :: w.tasks }

/-- The walker runs the head of its own deque, or raises WALK_OVERFLOW and leaves it. -/
def State.runOwn (s : State) (c : CoreCtx) (p : Nat) : State :=
  match c.walker.deque with
  | [] => s
  | t :: ts =>
    if c.walker.taskRoom then
      (s.modCore s.key fun c => (c.modWalker fun w => { w with deque := ts }).runTask t).progressed s.here.ctx
    else s.walkerTrap s.key p ⟨0x0A, s.nodeWord s.here.ctx p, 0#64⟩

/-- Splits a return stack at its topmost task entry. -/
def splitTask : List RetEntry → Option (RetEntry × List RetEntry)
  | [] => none
  | r :: rs => if r.task then some (r, rs) else splitTask rs

/-- JOIN (R190). DESIGN CHOICE (log 119): an END JOIN decrements the group of the task that ends, whatever group its own FLAGS
name. -/
def execJoin (n : NodeFields) (s : State) : Host.Outcome State Fault Refusal :=
  nodeStep n s fun c p =>
    let w := c.walker
    let g := field n.flags 0 3
    if n.flag 3 then
      match w.tasks, splitTask w.rstack with
      | (t, id, iss) :: ts, some (r, rs) =>
        if (w.pend.any fun e => decide (id ≤ e.id)) ∨ (c.runs.any fun x => decide (iss ≤ x.issue)) then s
        else
          let s := s.goNode r.node fun w => { w.popTo r.depth with rstack := rs, tasks := ts }
          s.modCore (s.here.ctx, t.owner) fun c => c.modWalker fun w => { w with decs := w.decs ++ [t.group] }
      | _, _ => s.walkerTrap s.key p (walkTrap 0x0B 0x0B#6 n)
    else if at' w.joins g 0 = 0 then s.goNode (some n.nextNode) id
    else s.runOwn c p

/-- The group a walker waits for at a JOIN. -/
def State.joinWait (s : State) (ctx : Nat) (c : CoreCtx) : Bool :=
  match c.walker.pos with
  | none => false
  | some p =>
    let w := s.nodeWord ctx p
    field w 58 6 == 0x0B && field w 35 1 == 0 && at' c.walker.joins (field w 32 3) 0 != 0 &&
      (field w 37 1 == 0 || c.drained)

/-- TASK_RUN (R189): a walker that waits at a JOIN runs the task at the head of its own deque. -/
def execTaskRun (s : State) : Host.Outcome State Fault Refusal :=
  s.onCore fun c =>
    if c.frozen = false ∧ c.resident = true ∧ s.joinWait s.here.ctx c = true then s.runOwn c (c.walker.pos.getD 0) else s

/-- May a context move on: in the foreground of its core, not frozen, its team running, its quad neither being switched out nor
at a migration point (R171, R173, R302, R353)? -/
def State.movesOn (s : State) (k : Key) (c : CoreCtx) : Bool :=
  match s.team? k.1 with
  | some t => !c.frozen && c.resident && s.foreground k && t.live && !t.leaving.contains (k.2 / 2) && !s.atMove k
  | none => false

/-- Does the cycle of one physical core come before the next cycle of another? -/
def State.sooner (s : State) (a b : Nat) : Bool :=
  match s.turns.find? fun t => t == .cycle a || t == .cycle b with
  | some (.cycle p) => p == a
  | _ => false

/-- R191: does the walker that owns a deque pop its one entry in the cycle in which a probe from the core at `k` finds it? -/
def State.ownerPops (s : State) (k o : Key) (x : CoreCtx) : Bool :=
  x.walker.deque.length == 1 && s.movesOn o x && s.joinWait o.1 x && x.walker.taskRoom &&
    (match s.physCore? o, s.physCore? k with
      | some a, some b => s.sooner a b
      | _, _ => false)

/-- STEAL_PROBE (R191): an IDLE walker, or one that waits at a JOIN with its deque empty, looks at the next core of the
ring and takes the tail of its deque; the deque of an evicted context is seen as empty, and so is one whose owner pops its
one entry in the same cycle. DESIGN CHOICE (log 55): a new spell goes on where the last one stopped. -/
def execStealProbe (s : State) : Host.Outcome State Fault Refusal :=
  s.onCore fun c =>
    match s.team? s.here.ctx with
    | none => s
    | some t =>
      let w := c.walker
      let waits := s.joinWait s.here.ctx c && w.deque.isEmpty
      if c.frozen ∨ c.resident = false ∨ !(w.pos.isNone || waits) then s
      else
        let target := (s.here.core + 1 + w.probe) % t.cores
        let s := s.modCore s.key fun c => c.modWalker fun w => { w with probe := (w.probe + 1) % t.cores }
        let found := (s.core? (s.here.ctx, target)).bind fun x =>
          if x.resident && !s.ownerPops s.key (s.here.ctx, target) x then x.walker.deque.getLast? else none
        match found with
        | none => s
        | some k =>
          if w.taskRoom then
            let s := s.modCore (s.here.ctx, target) fun x => x.modWalker fun w => { w with deque := w.deque.dropLast }
            (s.modCore s.key fun c => c.runTask k).progressed s.here.ctx
          else s.walkerTrap s.key (w.pos.getD 0) ⟨0x0A, s.nodeWord s.here.ctx (w.pos.getD 0), 0#64⟩

/-- The oldest decrement that has arrived applies at its owner (R190). -/
def State.landDecrement (s : State) (k : Key) : State :=
  match s.core? k with
  | none => s
  | some c =>
    match c.walker.decs with
    | [] => s
    | g :: gs => s.modCore k fun c => c.modWalker fun w =>
        { w with decs := gs, joins := upd w.joins g (at' w.joins g 0 - 1) }

/-- JOIN_DECREMENT (R190): a frozen core holds it (R303). -/
def execJoinDecrement (s : State) : Host.Outcome State Fault Refusal :=
  s.onCore fun c => if c.frozen = true then s else s.landDecrement s.key

/-! ### The bound channel (R187) -/

/-- Is a node an LGEN with BCH = 1? -/
def isBchNode (w : W64) : Bool := field w 58 6 == 0x03 && field w 32 1 == 1

/-- Re-arms the innermost level of a node. -/
def rearm (p : Nat) (b : W32) : List Level → Option (List Level)
  | [] => none
  | l :: ls => if l.head = p then some ({ l with bound := b } :: ls) else (rearm p b ls).map fun r => l :: r

/-- The oldest bound token at a core is charged and re-arms its loop, or enters the channel if it has room (R159, R187). -/
def State.landBound (s : State) (k : Key) : State :=
  match s.core? k with
  | none => s
  | some c =>
    match c.walker.bounds with
    | [] => s
    | t :: ts =>
      let p := field t 32 10
      let b := w32 (field t 0 32)
      let re := if isBchNode (s.nodeWord k.1 p) then rearm p b c.walker.levels else none
      match re with
      | some ls => s.modCore k fun c => (c.charge 1).modWalker fun w => { w with bounds := ts, levels := ls }
      | none =>
        if 16 ≤ c.walker.bch.length then s
        else s.modCore k fun c => (c.charge 1).modWalker fun w => { w with bounds := ts, bch := w.bch ++ [(p, b)] }

/-- BOUND_TOKEN_APPLY (R159, R187, R354): the oldest bound token at the core, once it is admitted. -/
def execBoundTokenApply (s : State) : Host.Outcome State Fault Refusal :=
  s.onCore fun c => if c.admits 1 = false ∨ s.atMove s.key = true then s else s.landBound s.key

/-- R187, R219: can a core take one more bound token? -/
def CoreCtx.boundRoom (c : CoreCtx) : Bool := decide (c.walker.bch.length + c.walker.bounds.length < 16)

/-! ### Waits and services (R193 to R195) -/

/-- BAR (R193, R245). -/
def execBar (n : NodeFields) (s : State) : Host.Outcome State Fault Refusal :=
  nodeStep n s fun c _ =>
    match s.team? s.here.ctx with
    | none => s
    | some t =>
      let sc := n.pay 0 3
      let num := n.pay 5 6
      let unit := t.scopeUnit sc s.here.core 0
      match c.walker.mark with
      | .arrived _ =>
        let waits := ((t.bar? sc unit num).map fun b => b.full.contains (s.here.core, none)).getD false
        if waits then s else s.goNode (some n.nextNode) id
      | _ =>
        if c.drained then
          (s.modTeam s.here.ctx fun t => t.modBar sc unit num fun b =>
            b.arriveWalker s.here.core (semAcquire n.payload.toNat)).markNode
              (.arrived (((t.bar? sc unit num).map (·.gen)).getD 0))
        else s

/-- WAITT (R193). DESIGN CHOICE (log 120): the LEASE_VIOLATION of a node names the TID where it has one, and WAITT its payload in
INFO2. -/
def execWaitt (n : NodeFields) (s : State) : Host.Outcome State Fault Refusal :=
  nodeStep n s fun _ p =>
    let mc := n.pay 0 16
    if s.coreOk s.here.ctx mc = false then s.walkerTrap s.key p ⟨0x06, 0#64, n.payload.setWidth 64⟩
    else match s.mcore? (s.here.ctx, mc) with
      | some m => if field (m.tile (n.pay 16 6)).statWord 0 3 = n.pay 22 3 then s.goNode (some n.nextNode) id else s
      | none => s

/-- The record of a PLACE, where its leases cover it and the plan of M entries (R194). -/
def State.placeRecord (s : State) (ctx tid : Nat) : Option (List W64) :=
  (s.recordAt ctx tid 0).filter fun r => (s.rangeOk ctx tid 64 (8 * (field (wordAt r 0) 0 4 + 1)) .store).isSome

/-- PLACE (R194): the record goes to the curator as it is read, and the walker waits for the answer; behind an open view the
read waits (R312). -/
def execPlace (n : NodeFields) (s : State) : Host.Outcome State Fault Refusal :=
  nodeStep n s fun c p =>
    match c.walker.mark with
    | .placing _ _ => s
    | .placed => s.goNode (some n.nextNode) id
    | _ =>
      if ((s.tensor? s.here.ctx (n.pay 0 20)).map (s.tileAway s.here.ctx)).getD false then s
      else match s.placeRecord s.here.ctx (n.pay 0 20) with
        | some r =>
          let s := match s.tensor? s.here.ctx (n.pay 0 20) with
            | some t => s.countBytes s.key t 0 64
            | none => s
          s.markNode (.placing (n.pay 0 20) r)
        | none => s.walkerTrap s.key p ⟨0x06, w64 (n.pay 0 20), 0#64⟩

/-- YIELDG (R195). -/
def execYieldg (n : NodeFields) (s : State) : Host.Outcome State Fault Refusal :=
  nodeStep n s fun _ _ => s.goNode (some n.nextNode) fun w => { w with yielded := true }

/-- TRAPG (R195): it goes to NEXT with the resumption (R309). -/
def execTrapg (n : NodeFields) (s : State) : Host.Outcome State Fault Refusal :=
  nodeStep n s fun _ p => s.walkerTrap s.key p ⟨0x09, n.payload.setWidth 64, 0#64⟩

/-- HALTG (R192). -/
def execHaltg (n : NodeFields) (s : State) : Host.Outcome State Fault Refusal :=
  nodeStep n s fun c _ => if c.walked then s.goNode none id else s

/-- EVW (R193). -/
def execEvw (n : NodeFields) (s : State) : Host.Outcome State Fault Refusal :=
  nodeStep n s fun c _ =>
    if n.pay 8 24 ≤ (at' c.evc (n.pay 0 5) 0#64).toNat then s.goNode (some n.nextNode) id else s

/-- CAPQ (R194, R350): the oldest unread capacity-change record of those in the queue at the start of the cycle is written to the
tensor; CW[B] says whether there was one. -/
def execCapq (n : NodeFields) (s : State) : Host.Outcome State Fault Refusal :=
  nodeStep n s fun c p =>
    let tid := n.pay 0 20
    let bit : W64 := w64 (2 ^ n.pay 20 6)
    match s.rangeOk s.here.ctx tid 0 64 .store, s.team? s.here.ctx with
    | some t, some tm =>
      if s.tileAway s.here.ctx t then s
      else match tm.capQueue.take (tm.capQueue.length - (tm.capSeq - c.capSeen)) with
      | [] => s.goNode (some n.nextNode) fun w => { w with cwsets := (0#64, bit) :: w.cwsets }
      | r :: _ =>
        let s := (s.setTensorBytes s.here.ctx t (fun _ x => x.cur) 0 (wordsBytes r)).countBytes s.key t 0 64
        let s := s.modTeam s.here.ctx fun tm => { tm with capQueue := tm.capQueue.tail }
        s.goNode (some n.nextNode) fun w => { w with cwsets := (bit, bit) :: w.cwsets }
    | _, _ => s.walkerTrap s.key p ⟨0x06, w64 tid, 0#64⟩

end Sys2Proof.Machine
end

