-- ==== Sys2Proof/Machine/TileEv.lean ====
section
/-! DEFINITION. What happens at a memory core beside its sequencer: writes of blocks (R201), fills (R213, R214), stream
beats (R212), predictions (R215), comparisons (R216, R217) and verification (R252). -/

namespace Sys2Proof.Machine

/-! ### Rows, transposition and boxes -/

/-- R214: where byte n of the transposed matrix stands in the tile. -/
def transposeAt (t : Tile) (xp n : Nat) : Nat :=
  if xp = 0 then n
  else
    let w := if xp = 1 then 1 else 2
    let len := (t.rows + 1) * w
    (n % len) / w * t.rowBytes + n / len * w + n % w

/-- R214: rows that a transposition allows. -/
def transposeRows (t : Tile) (xp : Nat) : Bool :=
  match xp with
  | 0 => true
  | 1 => (t.rows + 1) % 64 == 0
  | _ => (t.rows + 1) % 32 == 0

/-- The window address of byte n of a buffer, or of the ring counted from its origin. -/
def Tile.byteAt (t : Tile) (buf n : Nat) : Nat :=
  if t.mode = .store then t.bufAt buf + n else t.ringAt (n / t.rowBytes) + n % t.rowBytes

/-- The box of a writer grows by bits lo to hi − 1 of one row of a tile. -/
def MCoreCtx.markBits (m : MCoreCtx) (slot kind : Nat) (who : Nat × Nat) (lo hi : Nat) : MCoreCtx :=
  let t := m.tile slot
  let w := ebits (fmtEfmt t.fmt)
  let rb := 8 * t.rowBytes
  if hi ≤ lo then m else m.mark slot kind who (lo / rb) (lo % rb / w) ((hi - 1) % rb / w)

/-- The parts of the bits lo to hi − 1 of a tile, row by row. -/
def Tile.rowRuns (t : Tile) (lo hi : Nat) : List (Nat × Nat) :=
  let rb := 8 * t.rowBytes
  ((List.range ((hi + rb - 1) / rb)).drop (lo / rb)).map fun r => (max lo (r * rb), min hi ((r + 1) * rb))

/-- R207: the boxes of the writers of runs of bits of a tile grow: the armed fill's, and that of the stream from memory core
`src`, if one writes (log 100). -/
def MCoreCtx.markFill (m : MCoreCtx) (slot kind : Nat) (src : Option Nat) (runs : List (Nat × Nat)) : MCoreCtx :=
  let whos := fillWho slot :: (match src with | some mc => [streamWho mc slot] | none => [])
  runs.foldl (fun m r => whos.foldl (fun m w => m.markBits slot kind w r.1 r.2) m) m

/-- The bits of one byte at each of some places in a tile. -/
def byteRuns (places : List Nat) : List (Nat × Nat) := places.map fun x => (8 * x, 8 * x + 8)

/-! ### Rows of a ring that a transposing fill writes (R204, R214) -/

/-- The rows that the first n bytes complete: the last column of the tile is the last to come. -/
def Tile.xpRows (t : Tile) (xp n : Nat) : Nat :=
  let w := if xp = 1 then 1 else 2
  min (t.rows + 1) ((n - (t.rowBytes / w - 1) * ((t.rows + 1) * w)) / w)

/-- Where in the ring place x of the matrix stands, once the fill has published p rows. -/
def Tile.xpRingAt (t : Tile) (p x : Nat) : Nat :=
  (t.head + t.count + (x / t.rowBytes - p)) % (t.rows + 1) * t.rowBytes + x % t.rowBytes

/-! ### Publishes of fills (R203, R213) -/

/-- An armed fill publishes, or waits for a prediction being formed (R203). -/
def MCoreCtx.publishFill (m : MCoreCtx) (slot : Nat) : MCoreCtx :=
  let t := m.tile slot
  if m.predicting slot then m.modTile slot fun t => { t with publishWaits := true }
  else
    let m := (m.publish slot).modTile slot fun t => { t with fill := none, publishWaits := false }
    let m := if t.state = .predicted then { m with verifying := m.verifying ++ [slot] } else m
    let m := match t.fill.bind (·.ctr) with
      | some c => m.bump c 1#32
      | none => m
    m.close fun d => d.who == fillWho slot

/-- R202: the fills that streams have completed in a memory core's cycle publish at its end. -/
def MCoreCtx.publishDue (m : MCoreCtx) : MCoreCtx :=
  if m.shut then m
  else (m.tiles.filter fun x => x.2.publishWaits).foldl (fun m x => m.publishFill x.1) m

/-- R204, R213: bytes of a fill into a ring; every row that they complete publishes, and with CE adds 1. The second part says
how many do. -/
def MCoreCtx.fillRing (m : MCoreCtx) (slot : Nat) (f : Fill) (bs : List Byte) : MCoreCtx × Nat :=
  let t := m.tile slot
  let done := f.total - f.left
  let (m, n) :=
    if f.xp = 0 then
      let (m, full) := m.append slot bs
      (m, b2n full)
    else
      let p := t.xpRows f.xp done
      let n := t.xpRows f.xp (done + bs.length) - p
      let m := bs.zipIdx.foldl (fun m (b, i) =>
        m.setBytes (t.base * 64 + t.xpRingAt p (transposeAt t f.xp (done + i))) [b]) m
      (if n = 0 then m
       else m.modTile slot fun t => Tile.ringState { t with count := t.count + n, version := t.version + w32 n }, n)
  if n = 0 then (m, 0)
  else
    let m := m.noteVersion slot (f.wrote slot)
    (match f.ctr with
      | some c => m.bump c (w32 n)
      | none => m, n)

/-- A write of a stream or an engine, at byte `off` of a STORE tile, as part of the armed fill (R201, R204, R213, R214);
none where it must wait. `own` is the owner bit it needs (R205), `src` the memory core whose stream writes, and `trim` the bits
of the first and the last byte that it leaves as they are. At most the bytes that end the row or the fill are taken; the number
taken comes back. An engine's last write, which stands between the cycles, publishes at once. -/
def MCoreCtx.fillWrite (m : MCoreCtx) (slot off : Nat) (bs : List Byte) (kind : Nat) (src : Option Nat) (own : Bool)
    (trim : Nat × Nat) : Option (MCoreCtx × Nat) :=
  let t := m.tile slot
  match t.fill with
  | none => none
  | some f =>
    if m.shut ∨ t.own ≠ own ∨ t.publishWaits ∨ f.left = 0 then none
    else
      let f := f.writtenBy src
      let done := f.total - f.left
      if t.mode = .store then
        if t.mayClaim .fill = false then none
        else
          let n := min bs.length f.left
          let bs := bs.take n
          let m := m.claim slot .fill
          let t := m.tile slot
          let places := (List.range n).map fun i => transposeAt t f.xp (off + i)
          let m := if f.xp = 0 then m.setBytes (t.bufAt t.shadow + off) bs
            else (bs.zip places).foldl (fun m (b, x) => m.setBytes (t.bufAt t.shadow + x) [b]) m
          let m := m.markFill slot kind src
            (if f.xp = 0 then t.rowRuns (8 * off + trim.1) (8 * (off + n) - trim.2) else byteRuns places)
          let m := m.modTile slot fun t => { t with fill := some { f with left := f.left - n } }
          some (if f.left ≠ n then m else if own then m.publishFill slot
            else m.modTile slot fun t => { t with publishWaits := true }, n)
      else if f.xp = 0 ∧ t.ringRoom = false then none
      else if f.xp ≠ 0 ∧ done = 0 ∧ t.count ≠ 0 then none
      else
        let n := min (min bs.length f.left) (if f.xp = 0 then t.rowBytes - t.partialRow else bs.length)
        let at0 := (t.head + t.count) % (t.rows + 1) * t.rowBytes + t.partialRow
        let m := m.markFill slot kind src
          (if f.xp = 0 then t.rowRuns (8 * at0) (8 * (at0 + n))
           else byteRuns ((List.range n).map fun i => t.xpRingAt (t.xpRows f.xp done) (transposeAt t f.xp (done + i))))
        let (m, k) := m.fillRing slot f (bs.take n)
        let left : Fill := { f with left := f.left - n, srcs := if k = 0 then f.srcs else [] }
        let m := m.modTile slot fun t => { t with fill := if f.left = n then none else some left }
        some (if f.left = n then m.close fun d => d.who == fillWho slot else m, n)

/-- A whole beat, which may end one row and begin the next; none where a part of it must wait. -/
def MCoreCtx.fillAll (m : MCoreCtx) (slot off : Nat) (bs : List Byte) (kind : Nat) (src : Option Nat) (own : Bool)
    (trim : Nat × Nat) : Nat → Option MCoreCtx
  | 0 => none
  | fuel + 1 =>
    if bs.isEmpty then some m
    else match m.fillWrite slot off bs kind src own trim with
      | none => none
      | some (m, n) => m.fillAll slot (off + n) (bs.drop n) kind src own trim fuel

/-! ### Writes of blocks (R201) -/

/-- Is a buffered store the oldest of its run that its tile has not accepted? -/
def CoreCtx.firstUnsent (c : CoreCtx) (s : State) (ctx : Nat) (i : Nat) (b : BufEntry) (place : Nat × Nat) : Bool :=
  (c.buf.take i).all fun x => x.run != b.run || x.sent || (match x.op with
    | .store tid _ _ _ => s.tileOf ctx tid != some place
    | _ => true)

/-- The writer kind of an LE's store: the stream port it uses, else the die network (R158, R221). -/
def Team.writerKind (t : Team) (core pos mc : Nat) : Nat :=
  match lePort pos with
  | some p => if t.faces mc p = some core then p else 4
  | none => 4

/-- TILE_WRITE_ARRIVAL (R201): entry `here.idx` of the commit buffer, a store into a tile, claims or joins the shadow;
while another writer holds it, the write waits. -/
def execTileWriteArrival (s : State) : Host.Outcome State Fault Refusal :=
  s.onCore fun c =>
    let k := s.key
    match c.buf[s.here.idx]?, s.team? k.1 with
    | some b, some tm =>
      match b.op with
      | .store tid cs n v =>
        match s.tileOf k.1 tid, s.tensor? k.1 tid with
        | some (mc, slot), some t =>
          match s.mcore? (k.1, mc) with
          | none => s
          | some m =>
            let x := m.tile slot
            let w : Claimer := .block k.2 b.run b.group
            if b.sent ∨ s.shutFor k (c.hasEnded b.run b.group) m ∨ x.own ∨ x.mayClaim w = false ∨
                c.firstUnsent s k.1 s.here.idx b (mc, slot) = false then s
            else
              let s := s.modMcore (k.1, mc) fun m => m.claim slot w
              let s := s.writeLanes k.1 t cs n (fun _ x => x.shadow) v
              let lo := cs.getLastD 0
              let s := s.modMcore (k.1, mc) fun m =>
                if n = 0 then m else m.mark slot (tm.writerKind k.2 b.pos mc) (k.2, b.run) (cs.getD 0 0) lo (lo + n - 1)
              s.modCore k fun c => { c with buf := modAt (fun b => { b with sent := true }) c.buf s.here.idx }
        | _, _ => s
      | _ => s
    | _, _ => s

/-! ### Stream beats (R212) -/

/-- Beats of a row of a stream: of the transposed matrix with XP. -/
def Strm.rowBeats (x : Strm) (t : Tile) : Nat :=
  if x.xp = 0 then t.rowBytes / 64 else (t.rows + 1) * (if x.xp = 1 then 1 else 2) / 64

/-- May the stream read its row now (R203, R204, R205)? -/
def Strm.rowReady (x : Strm) (t : Tile) : Bool :=
  !t.own &&
    (match t.mode with
      | .store => if x.beat ≠ 0 then true else if x.rel && x.buf.isSome then t.state == .draining else t.state == .ready
      | .fifo => if x.xp = 0 then decide (0 < t.count) else decide (t.rows < t.count)
      | .line => if x.xp = 0 then decide (x.row < t.count) else decide (t.rows < t.count))

/-- The 64 bytes of the next beat. -/
def MCoreCtx.beatBytes (m : MCoreCtx) (x : Strm) (t : Tile) : List Byte :=
  let base := match t.mode with
    | .fifo => 64 * x.beat
    | _ => x.row * t.rowBytes + 64 * x.beat
  if x.xp = 0 then m.bytes (t.byteAt (x.buf.getD t.cur) base) 64
  else (List.range 64).map fun i => m.byte (t.byteAt (x.buf.getD t.cur) (transposeAt t x.xp (64 * x.sent + i)))

def Strm.lastOfRow (x : Strm) (t : Tile) : Bool := decide (x.rowBeats t ≤ x.beat + 1)
def Strm.lastBeat (x : Strm) (t : Tile) : Bool := x.lastOfRow t && decide (x.left ≤ 1)

/-- The stream that a port number (4: die network) names. -/
def Strm.id (x : Strm) : Nat := if x.dn then 4 else x.port

def MCoreCtx.strm? (m : MCoreCtx) (id : Nat) : Option Strm := m.streams.find? fun x => x.id == id

/-- The start of a stream pins the current version of a STORE tile, and begins the drain with REL (R202, Table 11.2). -/
def MCoreCtx.pinStream (m : MCoreCtx) (x : Strm) : MCoreCtx :=
  let t := m.tile x.slot
  if x.buf.isSome ∨ t.mode ≠ .store then m
  else
    let m := m.modTile x.slot fun t => { t.addPin t.cur with state := if x.rel then .draining else t.state }
    { m with streams := m.streams.map fun y => if y.id = x.id then { y with buf := some t.cur } else y }

/-- What the end of a stream does to its tile. -/
def MCoreCtx.endStream (m : MCoreCtx) (x : Strm) : MCoreCtx :=
  let m := { m with streams := m.streams.filter fun y => y.id != x.id }
  m.modTile x.slot fun t =>
    let t := match x.buf with
      | some b => t.dropPin b
      | none => t
    if x.rel ∧ t.state = .draining then { t with state := .empty } else t

/-- The beat has been sent: the stream moves on; FIFO rows leave (R204, R212). -/
def MCoreCtx.beatSent (m : MCoreCtx) (id : Nat) : MCoreCtx :=
  match m.strm? id with
  | none => m
  | some x =>
    let t := m.tile x.slot
    let rowEnd := x.lastOfRow t
    let last := x.lastBeat t
    let m := if t.mode = .fifo ∧ x.xp = 0 ∧ rowEnd then m.modTile x.slot fun t => t.popRows 1
      else if t.mode = .fifo ∧ x.xp ≠ 0 ∧ last then m.modTile x.slot fun t => t.popRows (t.rows + 1)
      else m
    if last then m.endStream x
    else
      let y := if rowEnd then { x with row := x.row + 1, left := x.left - 1, beat := 0, sent := x.sent + 1 }
        else { x with beat := x.beat + 1, sent := x.sent + 1 }
      { m with streams := m.streams.map fun z => if z.id = id then y else z }

/-- The eight tokens of a beat, in lane order. -/
def beatTokens (bs : List Byte) (fmt : Fmt) (rowEnd last : Bool) : List Token :=
  (List.range 8).map fun i => ⟨bytesWord (bs.drop (8 * i)), fmt,
    if i = 7 ∧ last = true then .last else if i = 7 ∧ rowEnd = true then .sep else .data, false⟩

/-- Beats that an LE holds or that are on their way to it (R228: it holds two). -/
def CoreCtx.beatsAt (c : CoreCtx) (pos : Nat) : Nat :=
  (c.le pos).inbeats.length + (c.flights.filter fun f => match f.cargo with
    | .beat p _ _ _ _ => p == pos
    | _ => false).length

/-- R355: the cycles that a beat takes over the die network: a free value, but for the beats before it, which it does not pass. -/
def CoreCtx.beatWait (c : CoreCtx) (pos free : Nat) : Nat :=
  c.flights.foldl (fun n f => match f.cargo with
    | .beat p _ _ _ _ => if p = pos then max n f.left else n
    | _ => n) (3 + free)

/-- The memory core's half of a beat that leaves by a stream port, or over the die network where the port has lost its adjacency. -/
def State.sendPortBeat (s : State) (k : Key) (m : MCoreCtx) (tm : Team) (x : Strm) : State :=
  match tm.faces k.2 x.port with
  | none => s
  | some core =>
    let pos := portLe x.port
    match s.core? (k.1, core) with
    | none => s
    | some c =>
      if c.frozen ∨ c.resident = false ∨ 2 ≤ c.beatsAt pos then s
      else
        let m := m.pinStream x
        let x := (m.strm? x.id).getD x
        let t := m.tile x.slot
        let toks := beatTokens (m.beatBytes x t) t.fmt (x.lastOfRow t) (x.lastBeat t)
        let s := s.modMcore k fun _ => m.beatSent x.id
        let near := tm.adjacent k.2 x.port core
        let f : Flight :=
          ⟨if near then 3 else c.beatWait pos (Config.path s.free), 0, 0, .beat pos x.dest toks (.strm k.2 x.port) (x.lastBeat t)⟩
        { s with free := if near then s.free else s.free + 1 }.modCore (k.1, core) fun c => { c with flights := c.flights ++ [f] }

/-- The memory core's half of a beat over the die network (R212, R213): it joins the armed fill of its destination; a
destination that takes no stream ends it with a trap of the sequencer that names the tensor of the refused tile (log 112). -/
def State.sendNetBeat (s : State) (k : Key) (m : MCoreCtx) (x : Strm) : State :=
  match s.mcore? (k.1, x.dest) with
  | none => s
  | some d =>
    let t' := d.tile x.dslot
    if t'.defd = false ∨ (t'.mode = .store ∧ t'.ret = 0) then
      let s := s.modMcore (k.1, x.dest) fun d => d.close fun b => b.who == streamWho k.2 x.dslot
      (s.modMcore k fun m => m.endStream ((m.strm? x.id).getD x)).seqTrap k x.word
        ⟨0x06, w64 (0xF0000 + x.dest % 1024 * 64 + x.dslot), m.prog.getD x.word 0#64⟩
    else if d.resident = false then s
    else
      let m' := m.pinStream x
      let y := (m'.strm? x.id).getD x
      let bs := m'.beatBytes y (m'.tile y.slot)
      let s' := s.modMcore k fun _ => m'
      match (s'.mcore? (k.1, x.dest)).bind fun d => d.fillAll x.dslot (64 * x.sent % t'.size) bs 4 (some k.2) false (0, 0) 8 with
      | none => s
      | some d =>
        let d := if y.lastBeat (m'.tile y.slot) then d.close fun b => b.who == streamWho k.2 x.dslot else d
        (s'.modMcore (k.1, x.dest) fun _ => d).modMcore k fun m => m.beatSent x.id

/-- The endpoint's half (R212, R228, R330): a beat that has arrived is admitted and held; the oldest held beat sends its
next token. -/
def State.leBeat (s : State) (k : Key) (pos : Nat) : State :=
  match s.core? k with
  | none => s
  | some c =>
    let mine (x : Cargo) : Bool := match x with | .beat p _ _ _ _ => p == pos | _ => false
    let s := match takeDue mine c.flights with
      | some (⟨_, _, _, .beat _ port toks h final⟩, rest) =>
        if c.frozen ∨ (c.elemD pos).run.isNone ∨ c.admits 8 = false then s
        else
          let b : InBeat := ⟨port, toks, h, final⟩
          (s.modCore k fun (c : CoreCtx) =>
            (CoreCtx.charge { c with flights := rest } 8).modLe pos fun x => { x with inbeats := x.inbeats ++ [b] }).count k 11 1
      | _ => s
    match s.core? k with
    | none => s
    | some c =>
      match (c.le pos).inbeats with
      | [] => s
      | b :: bs =>
        let e := c.elemD pos
        let p := e.port b.port
        let mayHold := match p.hold with | none => true | some h => h == b.hold
        match b.toks with
        | [] => s.modCore k fun c => c.modLe pos fun x => { x with inbeats := bs }
        | t :: ts =>
          if c.frozen ∨ e.run.isNone ∨ mayHold = false ∨ p.writable = false then s
          else
            (s.modCore k fun c =>
              let c := c.send pos b.port (e.run.getD 0) false t
              let ended := ts.isEmpty && b.final
              let c := c.modElem pos fun e => e.setPort b.port { e.port b.port with hold := some b.hold }
              let c := if ended then c.endHold pos b.port (e.run.getD 0) b.hold else c
              c.modLe pos fun x => { x with inbeats := if ts.isEmpty then bs else { b with toks := ts } :: bs }).count k 23 1

/-- STRM_BEAT (R212): with `here.val` = 0 the next beat of stream `here.idx` (0 to 3 ports, 4 die network) of the memory
core at `here` leaves; with 1 the LE at `here.pos` of the compute core takes beats in and passes them on as tokens. -/
def execStrmBeat (s : State) : Host.Outcome State Fault Refusal :=
  if s.here.val = 1 then s.onCore fun _ => s.leBeat s.key s.here.pos
  else
    match s.team? s.here.ctx with
    | none => .next s
    | some tm =>
      s.onMcore fun m =>
        match m.strm? s.here.idx with
        | none => s
        | some x =>
          if m.shut ∨ m.resident = false ∨ x.rowReady (m.tile x.slot) = false then s
          else if x.dn then s.sendNetBeat s.key m x
          else s.sendPortBeat s.key m tm x

/-! ### Elements of tiles as values (R215 to R217) -/

def tileFmt (f : Fmt) : Option FFmt :=
  match f with
  | .f32x2 => some fp32 | .bf16x4 => some bf16 | .e4m3x8 => some e4m3 | .e5m2x8 => some e5m2 | _ => none

def ofInt' (n : Int) : FVal := .num (decide (n < 0)) n.natAbs 0

def tileVal (f : Fmt) (bits : Nat) : FVal :=
  match tileFmt f with
  | some x => x.decode bits
  | none => ofInt' (BitVec.ofNat (ebits (fmtEfmt f)) bits).toInt

def elemCount (t : Tile) : Nat := t.size * 8 / ebits (fmtEfmt t.fmt)

def MCoreCtx.elemBits (m : MCoreCtx) (t : Tile) (buf i : Nat) : Nat :=
  let w := ebits (fmtEfmt t.fmt)
  m.bits (t.bufAt buf) (i * w) w

/-- n/8 rounded to the nearest integer, ties to even. -/
def roundEighth (n : Int) : Int :=
  let q := n / 8
  let r := n % 8
  if 4 < r ∨ (r = 4 ∧ q % 2 = 1) then q + 1 else q

def clampInt (w : Nat) (n : Int) : Int := max (-(2 ^ (w - 1) : Int)) (min n (2 ^ (w - 1) - 1))

/-- R215 `pred_elem`: modes 0 LAST, 1 LIN, 2 DAMP; the code of the prediction. -/
def predElem (f : Fmt) (mode m : Nat) (vn vp : Nat) : Nat :=
  let w := ebits (fmtEfmt f)
  if mode = 0 then vn
  else
    let (a, b) := if mode = 1 then (16, 8) else (8 + m, m)
    match tileFmt f with
    | some x =>
      let n := x.decode vn
      let p := x.decode vp
      (fpEval x [n, p] [(FVal.num false a (-3)).mul n, (FVal.num true b (-3)).mul p]).bits
    | none =>
      let n := (BitVec.ofNat w vn).toInt
      let p := (BitVec.ofNat w vp).toInt
      toLane w (clampInt w (roundEighth ((a : Int) * n - (b : Int) * p)))

/-- Common denominator of exact comparisons: every decoded value is a multiple of 2^-300. -/
def tolScale : Int := -300

/-- R216 `tol_pass`. -/
def tolPass (real pred ea er : FVal) : Bool :=
  if real.isNan || pred.isNan || ea.isNan || er.isNan then false
  else if real.isInf || pred.isInf then real == pred
  else if ea.isInf then true
  else if er.isInf && !real.isZero then true
  else
    let sc (v : FVal) : Int := v.scaled tolScale
    let t : Int := if real.isZero then 0 else sc er * (sc real).natAbs
    decide (((sc real - sc pred).natAbs : Int) * 2 ^ 300 ≤ sc ea * 2 ^ 300 + t)

/-! ### Predictions, comparisons, verification -/

/-- R346: what the two comparators of the compare engine make of a pass stands in the input: of 64-byte group g, bit 2g says
that they disagreed and bit 2g + 1 that they disagreed again on the second evaluation (log 1). The elements of such a group
fail; `w` is the element's width in bits. -/
def groupFails (input w i : Nat) : Bool := input / 4 ^ (i * w / 512) % 4 == 3

/-- R346: the disagreements in the groups of a tile of `size` bytes, each one anomaly. -/
def anomalies (input size : Nat) : Nat := (List.range ((size + 63) / 64)).countP fun g => input / 4 ^ g % 2 == 1

/-- R346: the anomalies of a memory core's compare engine are charged to it. -/
def State.chargeAnomalies (s : State) (k : Key) (n : Nat) : State :=
  match s.team? k.1 with
  | some t => if n = 0 then s else s.blame .mcore (t.physCore k.2) (n * scoreOf 2)
  | none => s

/-- PRED_COMPLETE (R203, R215): the prediction of slot `here.idx` is written over the previous version; a publish that waits
for it comes at the end of the cycle. -/
def execPredComplete (s : State) : Host.Outcome State Fault Refusal :=
  s.onMcore fun m =>
    match m.preds.find? fun p => p.slot == s.here.idx with
    | none => s
    | some j =>
      if m.shut then s
      else s.modMcore s.key fun m =>
        let t := m.tile j.slot
        let w := ebits (fmtEfmt t.fmt)
        let vals := (List.range (elemCount t)).map fun i => predElem t.fmt j.mode j.m (m.elemBits t t.cur i) (m.elemBits t t.prev i)
        let m := vals.zipIdx.foldl (fun m (v, i) => m.setBits (t.bufAt t.prev) (i * w) w v) m
        MCoreCtx.modTile { m with preds := m.preds.filter fun p => p.slot != j.slot } j.slot fun t =>
          { (t.dropPin t.cur).dropPin t.prev with state := if t.state = .ready then .predicted else t.state }

/-- TCMP_COMPLETE (R206, R217, R346): comparison `here.idx` ends and a counter rises; `here.val` is what its comparators
disagreed on. -/
def execTcmpComplete (s : State) : Host.Outcome State Fault Refusal :=
  s.onMcore fun m =>
    match m.cmps[s.here.idx]? with
    | none => s
    | some j =>
      if m.shut then s
      else (s.chargeAnomalies s.key (anomalies s.here.val (m.tile j.a).size)).modMcore s.key fun m =>
        let a := m.tile j.a
        let b := m.tile j.b
        let pass := (List.range (elemCount a)).all fun i =>
          !groupFails s.here.val (ebits (fmtEfmt a.fmt)) i && tolPass (tileVal a.fmt (m.elemBits a j.bufA i)) (tileVal b.fmt (m.elemBits b j.bufB i))
            (bf16.decode j.eabs.toNat) (bf16.decode j.erel.toNat)
        let m := { m with cmps := m.cmps.eraseIdx s.here.idx }
        let m := (m.modTile j.a fun t => t.dropPin j.bufA).modTile j.b fun t => t.dropPin j.bufB
        match if pass then j.pass else j.fail with
        | some c => m.bump c 1#32
        | none => m

/-- A verdict to each registered reader of a tile (R252). -/
def State.sendVerdicts (s : State) (ctx mc slot : Nat) (rs : List (SpecReader × Bool)) : State :=
  rs.foldl (fun s (r, pass) => s.modCore (ctx, r.core) fun c => { c with verdicts := c.verdicts ++ [(r.run, mc, slot, pass)] }) s

/-- VERIFY_COMPLETE (R216, R252, R346): slot `here.idx` has been compared with its prediction; `here.val` is what the
comparators disagreed on. -/
def execVerifyComplete (s : State) : Host.Outcome State Fault Refusal :=
  s.onMcore fun m =>
    let slot := s.here.idx
    if m.verifying.contains slot = false ∨ m.shut then s
    else
      let t := m.tile slot
      let pass (r : SpecReader) : Bool := (List.range (elemCount t)).all fun i =>
        !groupFails s.here.val (ebits (fmtEfmt t.fmt)) i && tolPass (tileVal t.fmt (m.elemBits t t.cur i)) (tileVal t.fmt (m.elemBits t t.shadow i)) (fp32.decode r.eabs.toNat)
          (fp32.decode r.erel.toNat)
      let s := s.chargeAnomalies s.key (anomalies s.here.val t.size)
      let s := s.sendVerdicts s.here.ctx s.here.core slot (t.readers.map fun r => (r, pass r))
      s.modMcore s.key fun m =>
        { m with verifying := m.verifying.filter fun x => x != slot }.modTile slot fun t =>
          { t with readers := [], state := if t.state = TileState.verifying then .ready else t.state }

end Sys2Proof.Machine
end

