-- ==== Sys2Proof/Machine/Seq.lean ====
section
/-! DEFINITION. The sequencer's words (R208 to R222, R286). -/

namespace Sys2Proof

open Machine

/-- The operand field of a sequencer word. -/
def SeqFields.o (q : SeqFields) (lo w : Nat) : Nat := field q.opnd lo w
def SeqFields.p (q : SeqFields) (lo w : Nat) : Nat := field q.pf lo w
def SeqFields.ta (q : SeqFields) : Nat := q.a.toNat
def SeqFields.tb (q : SeqFields) : Nat := q.b.toNat

end Sys2Proof

namespace Sys2Proof.Machine

/-! ### Common parts -/

/-- The word at PC is processed (R208): not while the sequencer is stopped or frozen. -/
def seqStep (s : State) (body : MCoreCtx → State) : Host.Outcome State Fault Refusal :=
  s.onMcore fun m => if m.stopped ∨ m.frozen ∨ m.resident = false ∨ m.shut then s else body m

/-- The word takes effect: PC moves, and stops the sequencer at the program's end (R208, R315). -/
def State.seqGo (s : State) (pc : Nat) (f : MCoreCtx → MCoreCtx) : State :=
  (s.modMcore s.key fun m => let m := f m; { m with pc := pc, stopped := m.stopped || decide (m.prog.length ≤ pc) }).progressed
    s.here.ctx

def State.seqNext (s : State) (m : MCoreCtx) (f : MCoreCtx → MCoreCtx) : State := s.seqGo (m.pc + 1) f

/-- ILLEGAL_IN_MODE with the word (R210, Table 20.4). -/
def State.seqIllegal (s : State) (m : MCoreCtx) (q : SeqFields) (op : BitVec 6) : State :=
  s.seqTrap s.key m.pc ⟨0x01, q.toWord op, 0#64⟩

/-- LEASE_VIOLATION of a sequencer word. -/
def State.seqLease (s : State) (m : MCoreCtx) (q : SeqFields) (op : BitVec 6) (tid : Nat) : State :=
  s.seqTrap s.key m.pc ⟨0x06, w64 tid, q.toWord op⟩

/-- A STORE tile without a shadow: every access is a LEASE_VIOLATION (R200). -/
def Tile.noShadow (t : Tile) : Bool := t.mode == .store && t.ret == 0

/-- Verdicts of failure to every registered reader, who leave the tile (R211, R252). -/
def State.failReaders (s : State) (slot : Nat) : State :=
  match s.mcore? s.key with
  | none => s
  | some m =>
    (s.sendVerdicts s.here.ctx s.here.core slot ((m.tile slot).readers.map fun r => (r, false))).modMcore s.key fun m =>
      { m with verifying := m.verifying.filter fun x => x != slot }.modTile slot fun t => { t with readers := [] }

/-! ### Definition and control (R211) -/

/-- The `.data` contents of a slot: byte offset and bytes (R211, R289). -/
def Team.slotData (t : Team) (mc slot : Nat) : List (Nat × List Byte) :=
  (t.data.filter fun d => decide (0xF0000 ≤ d.tid) && localPlace (((t.desc? d.tid).map (·.mchi)).getD 0) d.tid == (mc, slot)).map
    fun d => (d.off, d.bytes)

/-- R203, R211: the bytes of a window range that TDEF makes undefined: those that tiles have occupied since launch. The others
keep the value they have had since then, as R272 states the results that are built on them (log 7). -/
def MCoreCtx.undefine (m : MCoreCtx) (lo hi free : Nat) : MCoreCtx :=
  let new := m.used.filterMap fun r =>
    let x := max r.1 lo
    let y := min r.2 hi
    if x < y then some (x, y, free + (x - lo)) else none
  { m with undef := undefCut m.undef lo hi ++ new, used := m.used ++ [(lo, hi)] }

/-- TDEF (R200, R211). -/
def execTdef (q : SeqFields) (s : State) : Host.Outcome State Fault Refusal :=
  seqStep s fun m =>
    let slot := q.ta
    let old := m.tile slot
    let new : Tile := { Tile.init with
      defd := true, ret := q.p 0 2, base := q.o 0 13, rows := q.o 13 12, rowb := q.o 25 12, fmt := Fmt.ofCode (q.o 37 3) }
    let overlap := m.tiles.any fun (n, t) =>
      n != slot && t.defd && decide (new.base < t.base + t.units) && decide (t.base < new.base + new.units)
    let data := match s.team? s.here.ctx with
      | some tm => if m.everDef.contains slot then [] else tm.slotData s.here.core slot
      | none => []
    let s := if old.state = .predicted ∨ old.state = .verifying then s.failReaders slot else s
    if old.system ∨ m.wsize < new.base + new.units ∨ overlap = true then s.seqIllegal m q 0x01#6
    else if data.any fun d => decide (new.size < d.1 + d.2.length) then s.seqIllegal m q 0x01#6
    else if old.claim.isSome ∨ old.pinned ∨ old.fill.isSome ∨ old.own then s
    else
      let lo := new.base * 64
      let n := new.units * 64
      let s' := { s with free := s.free + n }
      s'.seqNext m fun m =>
        let m := { m.undefine lo (lo + n) s.free with
          tiles := m.tiles.put slot new
          everDef := if m.everDef.contains slot then m.everDef else m.everDef ++ [slot] }
        if data.isEmpty then m
        else
          let m := m.setBytes lo (zeros new.size)
          let m := data.foldl (fun m d => m.setBytes (lo + d.1) d.2) m
          m.modTile slot fun t => { t with state := .ready, version := 1#32 }

/-- TSET (R203, R211). -/
def execTset (q : SeqFields) (s : State) : Host.Outcome State Fault Refusal :=
  seqStep s fun m =>
    let t := m.tile q.ta
    if t.defd = false ∨ t.system ∨ t.mode ≠ .store then s.seqIllegal m q 0x02#6
    else if q.p 0 3 = 2 then
      if t.state ≠ .predicted then s.seqIllegal m q 0x02#6
      else (s.failReaders q.ta).seqNext m fun m => m.modTile q.ta fun t => { t with state := .ready }
    else if t.state ≠ .ready ∧ t.state ≠ .empty then s.seqIllegal m q 0x02#6
    else if t.claim.isSome ∨ t.pinned then s
    else s.seqNext m fun m => m.modTile q.ta fun t => { t with state := .empty }

/-- MODE (R211). -/
def execMode (q : SeqFields) (s : State) : Host.Outcome State Fault Refusal :=
  seqStep s fun m =>
    let t := m.tile q.ta
    let mode : TileMode := match q.p 0 2 with | 0 => .store | 1 => .fifo | _ => .line
    if t.defd = false ∨ t.system ∨ t.state ≠ .empty ∨ (mode = .store ↔ t.ret = 0) then s.seqIllegal m q 0x03#6
    else s.seqNext m fun m => m.modTile q.ta fun t => { t with mode := mode, head := 0, count := 0, partialRow := 0 }

/-- The row that a stream of a LINE tile still holds: with XP all of them. -/
def Strm.heldFrom (x : Strm) : Nat := if x.xp = 0 then x.row else 0

/-- ROT (R204, R211); the rows a running stream has yet to send count from the new origin. -/
def execRot (q : SeqFields) (s : State) : Host.Outcome State Fault Refusal :=
  seqStep s fun m =>
    let t := m.tile q.ta
    let n := q.o 0 12
    if t.defd = false ∨ t.system ∨ t.mode ≠ .line then s.seqIllegal m q 0x04#6
    else if n = 0 then s.seqNext m id
    else if t.count < n ∨ (m.streams.any fun x => x.slot == q.ta && decide (x.heldFrom < n)) then s
    else s.seqNext m fun m =>
      MCoreCtx.modTile { m with streams := m.streams.map fun (x : Strm) => if x.slot = q.ta then { x with row := x.row - n } else x }
        q.ta fun t => t.popRows n

/-- OWN (R205, R211). -/
def execOwn (q : SeqFields) (s : State) : Host.Outcome State Fault Refusal :=
  seqStep s fun m =>
    let t := m.tile q.ta
    let eng := q.p 0 1 == 1
    if t.defd = false ∨ t.system then s.seqIllegal m q 0x0C#6
    else if eng && (t.claim.isSome || t.fill.isSome) then s
    else if !eng && s.engineOnTile s.here.ctx s.here.core q.ta then s
    else (s.seqNext m fun m => m.modTile q.ta fun t => { t with own := eng }).dropTeamBeats s.here.ctx

/-! ### Streams and fills (R212 to R214) -/

/-- STRM (R202, R203, R212): it waits for its port alone. It pins the current version of a STORE tile, and with REL begins the
drain, at once where the tile may be read now, else when it reads its first row (log 44). -/
def execStrm (q : SeqFields) (s : State) : Host.Outcome State Fault Refusal :=
  seqStep s fun m =>
    let t := m.tile q.ta
    let dn := q.p 2 1 == 1
    let port := q.p 0 2
    let xp := q.p 3 2
    let rel := q.p 5 1 == 1
    let row0 := q.o 0 12
    let n := q.o 12 12 + 1
    let dest := q.o 24 16
    match s.team? s.here.ctx with
    | none => s
    | some tm =>
      let toSystem := dn && dest == 0 && tm.launch.sys && tm.launch.sslot == q.tb
      if t.defd = false ∨ t.rows + 1 < row0 + n ∨ (xp ≠ 0 ∧ (row0 ≠ 0 ∨ n ≠ t.rows + 1 ∨ transposeRows t xp = false)) ∨
          (t.mode = .fifo ∧ row0 ≠ 0) ∨ (rel = true ∧ t.mode ≠ .store) ∨ toSystem = true ∨
          (dn = true ∧ dest = s.here.core ∧ (m.tile q.tb).defd = false) then s.seqIllegal m q 0x05#6
      else if t.noShadow then s.seqLease m q 0x05#6 (0xF0000 + s.here.core % 1024 * 64 + q.ta)
      else if dn && decide (tm.cores ≤ dest) || !dn && (tm.faces s.here.core port).isNone then s.seqLease m q 0x05#6 0
      else
        let x : Strm :=
          { slot := q.ta, port := port, dn := dn, xp := xp, rel := rel, row := row0, left := n, beat := 0, sent := 0
            buf := none, dest := if dn then dest else q.o 24 2, dslot := q.tb, word := m.pc }
        let x := if xp = 0 then x else { x with left := t.rowBytes / (if xp = 1 then 1 else 2) }
        if (m.strm? x.id).isSome then s
        else
          let s := s.seqNext m fun m =>
            let m := { m with streams := m.streams ++ [x] }
            if x.rowReady t then m.pinStream x else m
          match (if dn then none else tm.faces s.here.core port) with
          | none => s
          | some core => s.modElem (s.here.ctx, core) (portLe port) fun e =>
              let p := e.port x.dest
              e.setPort x.dest { p with hold := match p.hold with | none => some (.strm s.here.core port) | h => h }

/-- ACPT (R213, R214). -/
def execAcpt (q : SeqFields) (s : State) : Host.Outcome State Fault Refusal :=
  seqStep s fun m =>
    let t := m.tile q.ta
    let bytes := q.o 0 20
    let xp := q.o 38 2
    if t.defd = false ∨ t.system ∨ bytes = 0 ∨ bytes % 64 ≠ 0 ∨ t.size < bytes ∨ t.noShadow ∨
        (xp ≠ 0 ∧ (transposeRows t xp = false ∨ bytes ≠ t.size)) then s.seqIllegal m q 0x06#6
    else if t.fill.isSome then s
    else s.seqNext m fun m => m.modTile q.ta fun t =>
      { t with fill := some ⟨bytes, bytes, if q.p 0 1 = 1 then some (q.p 1 4) else none, xp, []⟩ }

/-! ### Prediction and comparison (R215, R217) -/

def predictable (f : Fmt) : Bool := f != .raw && f != .e2m1x16

/-- Are the predictor and the compare engine of the physical memory core free in both of its contexts (R198)? -/
def State.unitsFree (s : State) (k : Key) (forPred : Bool) : Bool :=
  let pm (k : Key) : Option Nat := (s.team? k.1).map fun t => t.physQuad (k.2 / 2) * 2 + k.2 % 2
  s.mcores.all fun (p : Key × MCoreCtx) =>
    pm p.1 != pm k || !p.2.resident || (p.2.cmps.isEmpty && p.2.verifying.isEmpty && (!forPred || p.2.preds.isEmpty))

/-- PRED (R215): it takes effect as the prediction starts. -/
def execPred (q : SeqFields) (s : State) : Host.Outcome State Fault Refusal :=
  seqStep s fun m =>
    let t := m.tile q.ta
    let mode := q.p 0 2
    let n := q.o 0 4
    if t.defd = false ∨ t.system ∨ t.mode ≠ .store ∨ t.ret ≠ 2 ∨ t.version.toNat < 2 ∨ predictable t.fmt = false ∨
        (if mode = 2 then n < 1 ∨ 8 < n else n ≠ 0) then s.seqIllegal m q 0x07#6
    else if t.state ≠ .ready ∨ t.own ∨ m.predicting q.ta ∨ t.pin t.prev ≠ 0 ∨ s.unitsFree s.key true = false then s
    else s.seqNext m fun m =>
      MCoreCtx.modTile { m with preds := m.preds ++ [⟨q.ta, mode, n⟩] } q.ta fun t => (t.addPin t.cur).addPin t.prev

/-- TCMP (R217): it takes effect as the comparison starts. -/
def execTcmp (q : SeqFields) (s : State) : Host.Outcome State Fault Refusal :=
  seqStep s fun m =>
    let a := m.tile q.ta
    let b := m.tile q.tb
    if a.defd = false ∨ b.defd = false ∨ a.system ∨ a.mode ≠ .store ∨ b.mode ≠ .store ∨ a.rows ≠ b.rows ∨
        a.rowb ≠ b.rowb ∨ a.fmt ≠ b.fmt ∨ predictable a.fmt = false then s.seqIllegal m q 0x08#6
    else if a.noShadow ∨ b.noShadow then s.seqLease m q 0x08#6 (0xF0000 + s.here.core % 1024 * 64 + q.ta)
    else if a.state ≠ .ready ∨ b.state ≠ .ready ∨ a.own ∨ b.own ∨ s.unitsFree s.key false = false then s
    else s.seqNext m fun m =>
      let j : CmpJob := ⟨q.ta, q.tb, a.cur, b.cur, BitVec.ofNat 16 (q.o 0 16), BitVec.ofNat 16 (q.o 16 16),
        if q.p 0 1 = 1 then some (q.p 1 4) else none, if q.o 36 1 = 1 then some (q.o 32 4) else none⟩
      (MCoreCtx.modTile { m with cmps := m.cmps ++ [j] } q.ta fun t => t.addPin a.cur).modTile q.tb fun t => t.addPin b.cur

/-! ### Counters and signals (R218 to R221) -/

/-- ARRV.SET (R206, R218). -/
def execArrvSet (q : SeqFields) (s : State) : Host.Outcome State Fault Refusal :=
  seqStep s fun m => s.seqNext m fun m => { m with ctrs := upd m.ctrs (q.p 0 4) (w32 (q.o 0 32)) }

/-- WAITA (R218). -/
def execWaita (q : SeqFields) (s : State) : Host.Outcome State Fault Refusal :=
  seqStep s fun m => if q.o 0 32 ≤ (at' m.ctrs (q.p 0 4) 0#32).toNat then s.seqNext m id else s

/-- WAITS (R203, R218): it never traps; an undefined slot reads EMPTY (log 41). -/
def execWaits (q : SeqFields) (s : State) : Host.Outcome State Fault Refusal :=
  seqStep s fun m => if field (m.tile q.ta).statWord 0 3 = q.p 0 3 then s.seqNext m id else s

/-- The record that DRNG appends (R221). -/
def drngRow (d : Option Dirty) (overflow : Bool) : List W64 := logWords d overflow ++ [0#64, 0#64, 0#64, 0#64]

/-- DRNG (R221). DESIGN CHOICE (log 115): while a fill has written part of a row, the record, which is a row of its own, waits. -/
def execDrng (q : SeqFields) (s : State) : Host.Outcome State Fault Refusal :=
  seqStep s fun m =>
    let t := m.tile q.ta
    if t.defd = false ∨ t.system ∨ t.mode ≠ .fifo ∨ t.rowb ≠ 0 then s.seqIllegal m q 0x0D#6
    else if t.ringRoom = false ∨ t.partialRow ≠ 0 then s
    else s.seqNext m fun m =>
      let m' := { m with log := m.log.tail, logOverflow := false }
      (m'.append q.ta (wordsBytes (drngRow m.log.head? m.logOverflow))).1

/-- The window address of byte n of what SIGW and XFER read: the current version of a STORE tile. -/
def Tile.readAt (t : Tile) (n : Nat) : Nat := if t.mode = .store then t.bufAt t.cur + n else t.base * 64 + n

/-- SIGW (R187, R219). -/
def execSigw (q : SeqFields) (s : State) : Host.Outcome State Fault Refusal :=
  seqStep s fun m =>
    let t := m.tile q.ta
    let byCtr := q.p 0 1 == 1
    let core := q.o 0 16
    let send (bound : Nat) : State :=
      match s.core? (s.here.ctx, core) with
      | none => s
      | some c =>
        if c.boundRoom = false then s
        else (s.seqNext m id).modCore (s.here.ctx, core) fun c => c.modWalker fun w =>
          { w with bounds := w.bounds ++ [w64 (q.o 16 10 * 2 ^ 32 + bound)] }
    if !byCtr && (!t.defd || t.system || decide (t.size ≤ 8 * q.tb)) then s.seqIllegal m q 0x0E#6
    else if s.coreOk s.here.ctx core = false ∨ (byCtr = false ∧ t.noShadow = true) then s.seqLease m q 0x0E#6 0
    else if byCtr then send (at' m.ctrs (q.p 1 4) 0#32).toNat
    else if t.state ≠ .ready then s
    else send (leNat (m.bytes (t.readAt (8 * q.tb)) 4))

/-- XFER of the sequencer (R220, R324). -/
def execSeqXfer (q : SeqFields) (s : State) : Host.Outcome State Fault Refusal :=
  seqStep s fun m =>
    let t := m.tile q.ta
    let idx := q.o 0 13
    let unit := s.engineUnit s.here.ctx s.here.core 1
    if t.defd = false ∨ t.system ∨ t.size / 64 ≤ idx then s.seqIllegal m q 0x0F#6
    else if t.noShadow then s.seqLease m q 0x0F#6 (0xF0000 + s.here.core % 1024 * 64 + q.ta)
    else if t.state ≠ .ready ∨ s.engineRoom 1 unit = false then s
    else
      let rec' := bytesWords 8 (m.bytes (t.readAt (64 * idx)) 64)
      let cmd : Cmd :=
        { id := 0, engine := 1, ctx := s.here.ctx, core := s.here.core, record := rec', tid := 0, off := 0, tag := 0
          ctr := if q.p 0 1 = 1 then some (s.here.core, q.p 1 4) else none
          fromSeq := some (s.here.core, m.pc), started := false, done := 0, flags := 0, ordinal := 0, result := none }
      (s.seqNext m id).enqueueCmd 1 unit cmd

/-! ### Control (R222) -/

/-- JMP. -/
def execSeqJmp (q : SeqFields) (s : State) : Host.Outcome State Fault Refusal :=
  seqStep s fun _ => s.seqGo (q.o 0 8) id

/-- LOOP. -/
def execLoop (q : SeqFields) (s : State) : Host.Outcome State Fault Refusal :=
  seqStep s fun m =>
    let k := q.p 0 2
    let v := at' m.loops k 0#16 + 1#16
    if v.toNat < q.o 8 16 then s.seqGo (q.o 0 8) fun m => { m with loops := upd m.loops k v }
    else s.seqNext m fun m => { m with loops := upd m.loops k 0#16 }

/-- HALT. -/
def execSeqHalt (_ : SeqFields) (s : State) : Host.Outcome State Fault Refusal :=
  seqStep s fun m => s.seqGo m.pc fun m => { m with stopped := true }

end Sys2Proof.Machine
end

