-- ==== Sys2Proof/Machine/Engines.lean ====
section
/-! DEFINITION. The engines (R320 to R335) and the curator (R336, R337): each turn of an engine works on the command at the
head of its queue, and its completion writes the status word and adds to the counter. -/

namespace Sys2Proof.Machine

/-! ### Queues, results and checks -/

def State.queueOf (s : State) (engine unit : Nat) : List Cmd := (s.engines.get? (engine, unit)).getD []

/-- Changes the command at the head of a queue. -/
def State.modCmd (s : State) (engine unit : Nat) (f : Cmd → Cmd) : State :=
  { s with engines := s.engines.adjust (engine, unit) fun
    | [] => []
    | c :: cs => f c :: cs }

/-- R320: BAD_RECORD goes before ACCESS, and the lowest offending byte is the detail. -/
def lowestOf : List (Bool × Nat) → Option Nat
  | [] => none
  | (b, off) :: xs => match b, lowestOf xs with
    | true, some y => some (min off y)
    | true, none => some off
    | false, y => y

def judge (bad acc : List (Bool × Nat)) : Option (Nat × Nat × Nat) :=
  match lowestOf bad with
  | some x => some (1, 0, x)
  | none => (lowestOf acc).map fun x => (2, 0, x)

/-- Is a field of bits [lo, lo + n) of a record nonzero? Its offset is that of its least significant bit (Table 21.1). -/
def rsvAt (r : List W64) (lo n : Nat) : Bool × Nat :=
  (leNat (wordsBytes r) / 2 ^ lo % 2 ^ n != 0, lo / 8)

/-- Coordinates of element i of a box, innermost fastest (R328). -/
def boxCoords (lo ext : List Nat) (i : Nat) : List Nat :=
  (lo.zip (ext.foldr (fun d (acc : List Nat × Nat) => ((acc.2 % d) :: acc.1, acc.2 / d)) ([], i)).1).map fun (a, b) => a + b

/-- R322: checks 2, 3 and 5 of a box. -/
def State.boxOk (s : State) (ctx : Nat) (t : Tensor) (lo ext : List Nat) (a : Access) : Bool :=
  match s.team? ctx with
  | none => false
  | some tm =>
    (!a.reads || t.r) && (!a.writes || t.w) && decide (lo.length = t.rank) &&
      (((lo.zip ext).zip t.dims).all fun ((l, n), d) => decide (l + n ≤ d)) &&
      (match t.loc with
        | .tile _ _ => true
        | _ => (List.range (ext.foldl (· * ·) 1)).all fun i => tm.leased t a (boxCoords lo ext i))

/-- The first n elements of a tensor in row-major order. -/
def State.firstOk (s : State) (ctx : Nat) (t : Tensor) (n : Nat) (a : Access) : Bool :=
  match s.team? ctx with
  | none => false
  | some tm =>
    (!a.reads || t.r) && (!a.writes || t.w) && decide (n ≤ t.elems) &&
      (List.range n).all fun i => tm.leased t a (t.coordsAt i)

/-- Committed element of a tensor in HBM or flat memory. -/
def State.element (s : State) (ctx : Nat) (t : Tensor) (cs : List Nat) : Nat :=
  match s.team? ctx with
  | some tm => s.readSpot ctx (fun _ x => x.cur) (tm.spot t cs) (ebits t.efmt)
  | none => 0

def State.setElement (s : State) (ctx : Nat) (t : Tensor) (cs : List Nat) (v : Nat) : State :=
  match s.team? ctx with
  | some tm => s.writeSpot ctx (fun _ x => x.cur) (tm.spot t cs) (ebits t.efmt) v
  | none => s

/-! ### The transfer engine (R325 to R328) -/

/-- An endpoint that names something. -/
inductive End where
  | ten (t : Tensor) (lo : List Nat)
  | se (core pos off : Nat)
  | us (core off : Nat)
  deriving DecidableEq, Repr

/-- What an endpoint names, as the destination or the source of a copy; none fails check 1 of Table 19.3. -/
def State.resolveEnd (s : State) (ctx : Nat) (e : Endpoint) (dst : Bool) : Option End :=
  match e.kind with
  | 0 => (if dst then s.fillTensor? ctx e.tid else s.tensor? ctx e.tid).map fun t => .ten t (e.lo.take t.rank)
  | 1 => if s.coreOk ctx e.core then some (.se e.core (sePos e.se) (e.lo.getD 0 0)) else none
  | 2 =>
    let ups := match s.team? ctx with | some t => t.launch.ups | none => false
    if s.coreOk ctx e.core ∧ ups = true then some (.us e.core (e.lo.getD 0 0)) else none
  | _ => none

/-- Tensor shape of an endpoint. -/
def End.tensor? : End → Option Tensor
  | .ten t _ => some t
  | _ => none

/-- Width of the copied elements, and how many: bytes' runs without a tensor are copied by bytes. -/
def copyShape (r : List W64) (a b : Option Tensor) : Nat × Nat :=
  match a <|> b with
  | some t => (ebits t.efmt, boxElems r t.rank)
  | none => (8, extent r 0)

/-- R328: the length of a copy in bits: the box of the tensor endpoint, or N0 + 1 bytes where neither is one; not known where the
tensor that gives it does not exist. -/
def copyBits (r : List W64) (a b : Endpoint) (x y : Option Tensor) : Option Nat :=
  if a.kind ≠ 0 ∧ b.kind ≠ 0 then some (8 * extent r 0)
  else match x <|> y with
    | some t => if 3 < t.rank then none else some (ebits t.efmt * boxElems r t.rank)
    | none => none

/-- The fields of one endpoint word and corner that are bad, whatever the team may access (R320, R327, R328): `t` is the tensor
of a tensor endpoint and `bits` the length of the copy, as far as they are known. -/
def endBad (r : List W64) (e : Endpoint) (at' : Nat) (t : Option Tensor) (bits : Option Nat) : List (Bool × Nat) :=
  let run (unit size : Nat) : List (Bool × Nat) :=
    let off := e.lo.getD 0 0
    [(off % unit != 0 || decide (size ≤ off) || bits.any fun b => decide (size < off + b / 8), at' + 8),
      (bits.any fun b => b % (8 * unit) != 0, 48)]
  [((e.kind == 1 || e.kind == 2) && e.tid != 0, at'), (e.kind == 3, at' + 2), (e.rsv != 0, at' + 5)] ++
    (match e.kind with
      | 0 => (match t with
        | some t => (decide (3 < t.rank), at') ::
            (List.range 3).map fun i => (decide (t.rank ≤ i) && extent r i != 1, 48 + 2 * i)
        | none => [])
      | 1 => run 8 16384
      | 2 => run 64 (2 ^ 21)
      | _ => [])

/-- Where the core of an endpoint's access is named: by its TID, or by CORE. -/
def endField (e : Endpoint) (at' : Nat) : Nat := if e.kind = 0 then at' else at' + 2

/-- Does the engine own what an endpoint names (R325)? -/
def State.endOwned (s : State) (ctx : Nat) (x : End) (len : Nat) : Bool :=
  match x with
  | .ten t _ => match t.loc with
    | .tile mc slot => match s.mcore? (ctx, mc) with
      | some m => (m.tile slot).own
      | none => false
    | _ => true
  | .se core pos off => match s.core? (ctx, core) with
    | some c => (seRegions off len).all fun g => (c.se pos).own.getLsbD g
    | none => false
  | .us _ _ => true

/-- What a transfer's start finds: its failure, or none (R320, R322, R325). -/
def State.transferCheck (s : State) (c : Cmd) : Option (Nat × Nat × Nat) :=
  let r := c.record
  let a := srcEnd r
  let b := dstEnd r
  let x := s.resolveEnd c.ctx a false
  let y := s.resolveEnd c.ctx b true
  let tx := x.bind End.tensor?
  let ty := y.bind End.tensor?
  let (w, n) := copyShape r tx ty
  let noTensor := a.kind != 0 && b.kind != 0
  let bits := copyBits r a b tx ty
  let bad := [(field (wordAt r 0) 0 8 != 1, 0), rsvAt r 8 56, rsvAt r 432 16] ++
    endBad r a 8 tx bits ++ endBad r b 28 ty bits ++
    [(match tx, ty with | some t, some u => ebits t.efmt != ebits u.efmt | _, _ => false, 28),
      (noTensor && extent r 1 != 1, 50), (noTensor && extent r 2 != 1, 52)]
  let range (e : Option End) (k : Access) : Bool := match e with
    | some (.ten t lo) => !s.boxOk c.ctx t lo ((List.range t.rank).map (extent r)) k
    | some _ => false
    | none => true
  match judge bad [(range x .load, endField a 8), (range y .store, endField b 28)] with
  | some f => some f
  | none =>
    match x, y with
    | some x, some y =>
      if s.endOwned c.ctx x (w * n / 8) = false then some (3, 0, endField a 8)
      else if s.endOwned c.ctx y (w * n / 8) = false then some (3, 0, endField b 28)
      else none
    | _, _ => none

/-- R326: can an engine reach a compute core's SE or upper store now: is it neither evicted nor on the move? -/
def State.coreThere (s : State) (k : Key) (c : CoreCtx) : Bool := c.resident && !s.atMove k

/-- Reads w bits of an endpoint with the tag an SE word takes from them; none where a tile is not READY or its core moves
(R325, R326, R328). -/
def State.endRead (s : State) (ctx : Nat) (x : End) (r : List W64) (i w : Nat) : Option (Nat × Fmt) :=
  match x with
  | .ten t lo =>
    let cs := boxCoords lo ((List.range t.rank).map (extent r)) i
    match t.loc with
    | .tile mc slot => match s.mcore? (ctx, mc) with
      | some m =>
        let u := m.tile slot
        if m.resident ∧ m.shut = false ∧ u.state = .ready then
          some (m.bits (u.bufAt u.cur) ((cs.getD 0 0 * t.inner + cs.getD 1 0) * w) w, efmtFmt t.efmt)
        else none
      | none => none
    | _ => some (s.element ctx t cs, efmtFmt t.efmt)
  | .se core pos off => match s.core? (ctx, core) with
    | some c =>
      if s.coreThere (ctx, core) c then
        let v := (c.se pos).word (off / 8 + i * w / 64)
        some (v.1.toNat / 2 ^ (i * w % 64) % 2 ^ w, v.2)
      else none
    | none => none
  | .us core off => match s.core? (ctx, core) with
    | some c => if s.coreThere (ctx, core) c then some (c.upper.bits (8 * off + i * w) w, .raw) else none
    | none => none

/-- Elements from i on that share a byte of a tile's row, so that they are written together (R213). -/
def byteGroup (r : List W64) (t : Tensor) (lo : List Nat) (i w : Nat) : Nat :=
  let exts := (List.range t.rank).map (extent r)
  let c := (boxCoords lo exts i).getLastD 0
  let stop := lo.getLastD 0 + exts.getLastD 1
  let per := 8 / w
  if 8 ≤ w then 1 else min (per - c % per) (stop - c)

/-- The bits of a byte that a write of n elements of w bits at a bit offset leaves as they are, before and after them. -/
def trimOf (w bit n : Nat) : Nat × Nat := if w < 8 then (bit % 8, 8 - bit % 8 - w * n) else (0, 0)

/-- Writes the values of elements i, i + 1, … of an endpoint; none where it must wait. -/
def State.endWrite (s : State) (ctx : Nat) (x : End) (r : List W64) (i w : Nat) (vs : List Nat) (tag : Fmt) : Option State :=
  let v := vs.headD 0
  match x with
  | .ten t lo =>
    let cs := boxCoords lo ((List.range t.rank).map (extent r)) i
    match t.loc with
    | .tile mc slot => match s.mcore? (ctx, mc) with
      | some m =>
        let bit := (cs.getD 0 0 * t.inner + cs.getD 1 0) * w
        let u := m.tile slot
        let from' := if u.mode ≠ .store then u.ringAt u.count + u.partialRow
          else (if u.claim = some .fill then u.bufAt u.shadow else u.bufAt u.cur) + bit / 8
        let old := leNat (m.bytes from' ((w + 7) / 8))
        let new := vs.zipIdx.foldl (fun o (v, j) =>
          let sh := 2 ^ (bit % 8 + j * w)
          o - o / sh % 2 ^ w * sh + v % 2 ^ w * sh) old
        if m.resident then
          (m.fillAll slot (bit / 8) (leBytes ((w + 7) / 8) new) 5 none true (trimOf w bit vs.length) 9).map fun m => s.modMcore (ctx, mc) fun _ => m
        else none
      | none => none
    | _ => some (s.setElement ctx t cs v)
  | .se core pos off => match s.core? (ctx, core) with
    | some c =>
      if s.coreThere (ctx, core) c then
        some (s.modCore (ctx, core) fun c => c.modSe pos fun b =>
          let a := off / 8 + i * w / 64
          let old := (b.word a).1.toNat
          let sh := 2 ^ (i * w % 64)
          b.setWord a (w64 (old - old / sh % 2 ^ w * sh + v % 2 ^ w * sh), tag))
      else none
    | none => none
  | .us core off => match s.core? (ctx, core) with
    | some c =>
      if s.coreThere (ctx, core) c then
        some (s.modCore (ctx, core) fun c => { c with upper := c.upper.setBits (8 * off + i * w) w v })
      else none
    | none => none

/-- Copies elements from number i on, in box order, until one must wait or the count is up (R328). -/
def State.copyRun (s : State) (ctx : Nat) (x y : End) (r : List W64) (w n : Nat) : Nat → Nat → State × Nat
  | 0, i => (s, i)
  | fuel + 1, i =>
    if n ≤ i then (s, i)
    else
      let k := match y with
        | .ten t lo => (match t.loc with | .tile _ _ => byteGroup r t lo i w | _ => 1)
        | _ => 1
      let vs := (List.range k).map fun j => s.endRead ctx x r (i + j) w
      match vs.headD none with
      | none => (s, i)
      | some (_, tag) =>
        match s.endWrite ctx y r i w (vs.map fun v => ((v.map (·.1)).getD 0)) tag with
        | none => (s, i)
        | some s => s.copyRun ctx x y r w n fuel (i + k)

/-- Counts the HBM accesses of elements i to i + n - 1 of an endpoint (R368). -/
def State.countEnd (s : State) (c : Cmd) (x : End) (i n : Nat) : State :=
  match x with
  | .ten t lo => s.countElems (c.ctx, c.core) t
      ((List.range n).map fun j => boxCoords lo ((List.range t.rank).map (extent c.record)) (i + j))
  | _ => s

/-- Runs the head command of an engine: a command that has a result is left to its completion (R323). -/
def runEngine (engine : Nat) (s : State) (body : Cmd → State) : Host.Outcome State Fault Refusal :=
  match s.queueOf engine s.here.idx with
  | [] => .next s
  | c :: _ => if c.result.isSome then .next s else .next (body c)

/-- R139: does a MOWN to the thread wait on a tile that a transfer names, so that the command may not start before the flip? -/
def State.flipHolds (s : State) (c : Cmd) : Bool :=
  [srcEnd c.record, dstEnd c.record].any fun e => (s.endTile c.ctx e).any fun p => s.flipWaits c.ctx p

/-- TRANSFER_COMMAND (R328): the transfer engine of physical quad `here.idx` starts its next copy, or copies on, up to 64
bytes in a turn: how many elements is open (free value, log 52). -/
def execTransferCommand (s : State) : Host.Outcome State Fault Refusal :=
  runEngine 1 s fun c =>
    let set (s : State) (f : Cmd → Cmd) : State := s.modCmd 1 s.here.idx f
    if c.started = false then
      if s.flipHolds c then s
      else match s.transferCheck c with
        | some f => set s fun c => { c with result := some f }
        | none => set s fun c => { c with started := true }
    else
      match s.resolveEnd c.ctx (srcEnd c.record) false, s.resolveEnd c.ctx (dstEnd c.record) true with
      | some x, some y =>
        let (w, n) := copyShape c.record x.tensor? y.tensor?
        let most := max 1 (512 / w)
        let (s, i) := { s with free := s.free + 1 }.copyRun c.ctx x y c.record w n (most - Config.path s.free % most) c.done
        let s := (s.countEnd c x c.done (i - c.done)).countEnd c y c.done (i - c.done)
        set s fun c => { c with done := i, result := if n ≤ i then some (0, 0, n) else none }
      | _, _ => s

/-! ### The gather-reduce engine (R329, R330) -/

/-- The fields of a gather-reduce record (Table 21.3). -/
structure GredRec where
  k : Nat
  dk : Bool
  side : Nat
  port : Nat
  core : Nat
  idx : Nat
  wgt : Nat
  val : Nat
  out : Nat

def gredRec (r : List W64) : GredRec :=
  let w := wordAt r 0
  let v := wordAt r 1
  ⟨field w 8 3 + 1, w.getLsbD 11, field w 12 2, field w 14 2, field w 16 16, field v 0 20, field v 20 20, field v 40 20,
    field (wordAt r 2) 0 20⟩

def gredSide (n : Nat) : Nat := match n with | 0 => 4 | 1 => 55 | 2 => 59 | _ => 8

/-- A tensor of a record of the gather-reduce, routing or collective engine: team-local ones are bad (R325). -/
def localBad (tid off : Nat) : Bool × Nat := (decide (0xF0000 ≤ tid), off)

/-- Is a shape wrong? A tensor that does not exist has none. -/
def badShape (t : Option Tensor) (off : Nat) (p : Tensor → Bool) : Bool × Nat := ((t.map fun t => !p t).getD false, off)

def Tensor.dim (t : Tensor) (i : Nat) : Nat := t.dims.getD i 0

def State.gredCheck (s : State) (c : Cmd) : Option (Nat × Nat × Nat) :=
  let r := c.record
  let g := gredRec r
  let ti := s.tensor? c.ctx g.idx
  let tw := s.tensor? c.ctx g.wgt
  let tv := s.tensor? c.ctx g.val
  let tO := if g.dk then none else s.tensor? c.ctx g.out
  let T := (ti.map fun t => t.dim 0).getD 0
  let H := tv.map fun t => t.dim 2
  let bad := [(field (wordAt r 0) 0 8 != 2, 0), (!g.dk && g.core != 0, 2), rsvAt r 32 32, rsvAt r 124 4,
    (g.dk && g.out != 0, 16), rsvAt r 148 44, rsvAt r 192 256,
    localBad g.idx 8, localBad g.wgt 10, localBad g.val 13, localBad g.out 16,
    badShape ti 8 fun t => t.efmt == 2 && t.rank == 2 && decide (g.k ≤ t.dim 1),
    badShape tw 10 fun t => t.efmt == 5 && t.rank == 2 && decide (T ≤ t.dim 0 ∧ g.k ≤ t.dim 1),
    badShape tv 13 fun t => t.rank == 3 && decide (5 ≤ t.efmt ∧ t.efmt ≤ 8),
    badShape tO 16 fun t => t.efmt == 5 && t.rank == 2 && decide (T ≤ t.dim 0) && H.all fun h => t.dim 1 == h]
  let box (t : Option Tensor) (ext : Tensor → List Nat) (a : Access) : Bool := match t with
    | some t => !s.boxOk c.ctx t (List.replicate t.rank 0) (ext t) a
    | none => true
  let acc := [(box ti (fun _ => [T, g.k]) .load, 8), (box tw (fun _ => [T, g.k]) .load, 10),
    (box tv (fun t => t.dims.take 3) .load, 13), (!g.dk && box tO (fun _ => [T, H.getD 0]) .store, 16),
    (g.dk && !s.coreOk c.ctx g.core, 2)]
  judge bad acc

/-- The contributions of row t: expert, place in its buffer, and k, or none where the pair is out of range (R330). -/
def State.gredPairs (s : State) (ctx : Nat) (ti : Tensor) (K E CAP t : Nat) : List (Option (Nat × Nat × Nat)) :=
  let e (t k : Nat) : Int := (BitVec.ofNat 16 (s.element ctx ti [t, k])).toInt
  let earlier := (List.range t).flatMap fun t' => (List.range K).map fun k => e t' k
  (List.range K).filterMap fun k =>
    let x := e t k
    if x < 0 then none
    else
      let p := (earlier ++ (List.range k).map fun k' => e t k').countP fun y => y == x
      some (if E ≤ x.toNat ∨ CAP ≤ p then none else some (x.toNat, p, k))

def valFmt (efmt : Nat) : FFmt := match efmt with | 5 => fp32 | 6 => bf16 | 7 => e4m3 | _ => e5m2

/-- FLAGS of a status word (Table 21.1). -/
def statusFlags (f : Flags) : Nat := b2n f.nv + 2 * b2n f.of + 4 * b2n f.uf + 8 * b2n f.nx

/-- Element h of row t, and its flags (R46, R330): a product of 0 and infinity is invalid whatever has been summed (R43). -/
def State.gredElem (s : State) (ctx : Nat) (tw tv : Tensor) (ps : List (Option (Nat × Nat × Nat))) (t h : Nat) : Nat × Flags :=
  ps.foldl (fun acc p => match p with
    | none => (acc.1, acc.2.or Flags.justNv)
    | some (e, p, k) =>
      let a := fp32.decode acc.1
      let w := fp32.decode (s.element ctx tw [t, k])
      let v := (valFmt tv.efmt).decode (s.element ctx tv [e, p, h])
      let r := fpEval fp32 [a, w, v] [some a, w.mul v]
      let bad := !w.isNan && !v.isNan && (w.mul v).isNone
      (r.bits, (acc.2.or r.flags).or (if bad then Flags.justNv else Flags.none))) (0, Flags.none)

/-- The tokens of beat b of a row of H elements (R330). -/
def gredTokens (row : List Nat) (b : Nat) (lastRow : Bool) : List Token :=
  let n := (row.length + 1) / 2
  ((List.range 8).filter fun i => decide (8 * b + i < n)).map fun i =>
    let j := 8 * b + i
    ⟨w64 (row.getD (2 * j) 0 + row.getD (2 * j + 1) 0 * 2 ^ 32), .f32x2,
      if j + 1 < n then .data else if lastRow then .last else .sep, false⟩

/-- Sends one beat of a row to an LE that has room for it; none where it waits (R164, R228). -/
def State.gredBeat (s : State) (c : Cmd) (g : GredRec) (toks : List Token) (final : Bool) : Option State :=
  match s.core? (c.ctx, g.core) with
  | none => none
  | some x =>
    if x.resident = false ∨ x.frozen ∨ 2 ≤ x.beatsAt (gredSide g.side) then none
    else
      let f : Flight := ⟨3, 0, 0, .beat (gredSide g.side) g.port toks (.gred c.id) final⟩
      some (s.modCore (c.ctx, g.core) fun x => { x with flights := x.flights ++ [f] })

/-- GATHER_REDUCE_COMMAND (R330): the gather-reduce engine of physical quad `here.idx` starts its next command, or emits
the next row, or the next beat of a row, of the one it runs. -/
def execGatherReduceCommand (s : State) : Host.Outcome State Fault Refusal :=
  runEngine 2 s fun c =>
    let set (s : State) (f : Cmd → Cmd) : State := s.modCmd 2 s.here.idx f
    let g := gredRec c.record
    if c.started = false then
      match s.gredCheck c with
      | some f => set s fun c => { c with result := some f }
      | none => set s fun c => { c with started := true }
    else
      match s.tensor? c.ctx g.idx, s.tensor? c.ctx g.wgt, s.tensor? c.ctx g.val with
      | some ti, some tw, some tv =>
        let T := ti.dim 0
        let H := tv.dim 2
        let nb := if g.dk then ((H + 1) / 2 + 7) / 8 else 1
        let t := c.done / nb
        let b := c.done % nb
        let ps := s.gredPairs c.ctx ti g.k (tv.dim 0) (tv.dim 1) t
        let row := (List.range H).map fun h => s.gredElem c.ctx tw tv ps t h
        let fl := c.flags ||| statusFlags (row.foldl (fun f x => f.or x.2)
          (if ps.any Option.isNone then Flags.justNv else Flags.none))
        let k := (c.ctx, c.core)
        let pairs := (List.range g.k).map fun i => [t, i]
        let read (s : State) : State := if b ≠ 0 then s
          else ((s.countElems k ti pairs).countElems k tw pairs).countElems k tv (ps.flatMap fun p => match p with
            | some (e, p, _) => (List.range H).map fun h => [e, p, h]
            | none => [])
        let next (s : State) : State := set (read s) fun c =>
          { c with done := c.done + 1, flags := fl, result := if c.done + 1 = T * nb then some (0, fl, T) else none }
        if g.dk then
          match s.gredBeat c g (gredTokens (row.map (·.1)) b (t + 1 == T)) (c.done + 1 == T * nb) with
          | some s => next s
          | none => s
        else match s.tensor? c.ctx g.out with
          | some tO => next ((row.zipIdx.foldl (fun s (x, h) => s.setElement c.ctx tO [t, h] x.1) s).countElems k tO
              ((List.range H).map fun h => [t, h]))
          | none => s
      | _, _, _ => s

/-! ### The routing engine (R331 to R333) -/

/-- The fields of a routing record (Table 21.4). -/
structure RouteCmd where
  k : Nat
  sigmoid : Bool
  capen : Bool
  cap : Nat
  score : Nat
  idx : Nat
  wgt : Nat
  hist : Nat
  stat : Nat
  T : Nat
  S : Nat
  E : Nat

def routeCmd (r : List W64) : RouteCmd :=
  let w := wordAt r 0
  let v := wordAt r 1
  ⟨field w 8 3 + 1, w.getLsbD 11, w.getLsbD 12, field w 16 16, field v 0 20, field v 20 20, field v 40 20,
    field (wordAt r 2) 0 20, field (wordAt r 2) 20 20, half r 24, half r 28, field (wordAt r 4) 0 16⟩

def State.routeCheck (s : State) (c : Cmd) : Option (Nat × Nat × Nat) :=
  let r := c.record
  let g := routeCmd r
  let t? (tid : Nat) : Option Tensor := s.tensor? c.ctx tid
  let span := (g.T - 1) * g.S + g.E
  let bad := [(field (wordAt r 0) 0 8 != 3, 0), rsvAt r 13 3, (g.capen != (g.cap != 0), 2), rsvAt r 32 32, rsvAt r 124 4,
    rsvAt r 168 24, rsvAt r 272 48, rsvAt r 320 128, (g.T == 0, 24), (decide (g.S < g.E), 28),
    (g.E == 0 || decide (32767 < g.E), 32),
    localBad g.score 8, localBad g.idx 10, localBad g.wgt 13, localBad g.hist 16, localBad g.stat 18,
    badShape (t? g.score) 8 fun t => t.efmt == 5 || t.efmt == 6,
    badShape (t? g.score) 24 fun t => decide (span ≤ t.elems),
    badShape (t? g.idx) 10 fun t => t.efmt == 2 && t.rank == 2 && decide (g.T ≤ t.dim 0) && t.dim 1 == g.k,
    badShape (t? g.wgt) 13 fun t => t.efmt == 5 && t.rank == 2 && decide (g.T ≤ t.dim 0) && t.dim 1 == g.k,
    badShape (t? g.hist) 16 fun t => t.efmt == 3 && decide (g.E ≤ t.elems),
    badShape (t? g.stat) 18 fun t => (t.efmt == 0 || t.efmt == 1) && decide (g.T ≤ t.elems)]
  let box (tid : Nat) (a : Access) : Bool := match t? tid with
    | some t => !s.boxOk c.ctx t (List.replicate t.rank 0) [g.T, g.k] a
    | none => true
  let lin (tid n : Nat) (a : Access) : Bool := match t? tid with
    | some t => !s.firstOk c.ctx t n a
    | none => true
  judge bad [(lin g.score span .load, 8), (box g.idx .store, 10), (box g.wgt .store, 13), (lin g.hist g.E .store, 16),
    (lin g.stat g.T .store, 18)]

/-- Bounds of a real number, scaled by a power of 2 that its maker is given. -/
abbrev Bounds := Nat × Nat

/-- The Taylor series of exp from its term number k + 1 on, scaled by 2^p, for y scaled alike: a lower bound of the sum of its
next terms, each floored, and an upper one, each raised; after the last the rest is at most one more such term (y ≤ 1/2). -/
def expSums (p : Nat) : Nat → Nat → Bounds → Bounds → Bounds
  | 0, _, t, _ => (0, t.2)
  | n + 1, k, t, y =>
    let t' : Bounds := (t.1 * y.1 / 2 ^ p / (k + 1), t.2 * y.2 / 2 ^ p / (k + 1) + 1)
    let r := expSums p n (k + 1) t' y
    (t'.1 + r.1, t'.2 + r.2)

/-- Repeated squaring of a number of at most 1, scaled by 2^p. -/
def squares (p : Nat) : Nat → Bounds → Bounds
  | 0, x => x
  | n + 1, x => squares p n (x.1 * x.1 / 2 ^ p, x.2 * x.2 / 2 ^ p + 1)

/-- Bounds of exp(−x / 2^149), scaled by 2^p: exp(−y) is the inverse of the series at y = x / 2^(149 + m) ≤ 1/2, raised to the
power 2^m; at x ≥ p · 2^149 it lies below 2^−p. -/
def expNeg (p x : Nat) : Bounds :=
  if x = 0 then (2 ^ p, 2 ^ p)
  else if p * 2 ^ 149 ≤ x then (0, 1)
  else
    let m := Nat.log2 (x / 2 ^ 149 + 1) + 2
    let y := x * 2 ^ p / 2 ^ (149 + m)
    let e := expSums p (p / 4 + 8) 0 (2 ^ p, 2 ^ p) (y, y + 1)
    squares p m (2 ^ (2 * p) / (2 ^ p + e.2), 2 ^ (2 * p) / (2 ^ p + e.1) + 1)

/-- A finite FP32 score as an exact multiple of 2^−149. -/
def scoreInt (bits : Nat) : Int := (fp32.decode bits).scaled (-149)

/-- Bounds of the weights' numerators over the selected scores, all scaled alike (R332): exp(x − max), or
σ(x) / exp(min(0, max)). -/
def numerators (sigmoid : Bool) (p : Nat) (xs : List Int) : List Bounds :=
  let m := xs.foldl max (xs.headD 0)
  let one := 2 ^ p
  if sigmoid then
    let z : Int := min 0 m
    xs.map fun x =>
      let (n, d) := if 0 ≤ x then ((one, one), expNeg p x.toNat) else (expNeg p (z - x).toNat, expNeg p (-x).toNat)
      (n.1 * one / (one + d.2), n.2 * one / (one + d.1) + 1)
  else xs.map fun x => expNeg p (m - x).toNat

/-- A quotient rounded once to FP32. -/
def quotBits (n d : Nat) : Nat :=
  if n = 0 ∨ d = 0 then 0
  else (roundMag fp32 .rne true 0 false ⟨n * 2 ^ workBits / d, -(workBits : Int), n * 2 ^ workBits % d != 0⟩).bits

/-- The weight of index i among numerators, rounded once: the numerators are bounded ever more closely until both ends of the
quotient round to one number (log 11). -/
def weightBits (bounds : Nat → List Bounds) (i : Nat) : Nat → Nat → Nat
  | 0, p => let b := bounds p; quotBits (b.getD i (0, 0)).1 (b.map (·.1)).sum
  | fuel + 1, p =>
    let b := bounds p
    let x := b.getD i (0, 0)
    let lo := quotBits x.1 ((b.map (·.2)).sum - x.2 + x.1)
    let hi := quotBits x.2 ((b.map (·.1)).sum - x.1 + x.2)
    if lo = hi then lo else weightBits bounds i fuel (2 * p)

/-- R332: the experts a token selects, in selection order. -/
def selectExperts (k : Nat) (xs : List Nat) : List Nat :=
  let vs := xs.map fp32.decode
  let ok := (List.range xs.length).filter fun e => match vs.getD e (.nan false) with
    | .nan _ => false
    | .inf n => !n
    | .num _ _ _ => true
  let rec pick : Nat → List Nat → List Nat
    | 0, _ => []
    | n + 1, es =>
      match es with
      | [] => []
      | e :: rest =>
        let best := rest.foldl (fun b e => if (vs.getD b (.nan false)).lt false (vs.getD e (.nan false)) then e else b) e
        best :: pick n (es.filter fun e => e != best)
  pick k ok

/-- R332: the weights of the selected experts. -/
def routeWeights (sigmoid : Bool) (xs sel : List Nat) : List Nat :=
  let inf (e : Nat) : Bool := (fp32.decode (xs.getD e 0)) == .inf false
  let p := (sel.filter inf).length
  if 0 < p then sel.map fun e => if inf e then quotBits 1 p else 0
  else
    let vs := sel.map fun e => scoreInt (xs.getD e 0)
    (List.range sel.length).map fun i => weightBits (fun p => numerators sigmoid p vs) i 32 256

/-- A routed row: its slots (expert or none, weight) and STAT so far. -/
abbrev RouteRow := List (Option Nat × Nat) × Nat

def routeToken (g : RouteCmd) (xs : List Nat) : RouteRow :=
  let sel := selectExperts g.k xs
  let ws := routeWeights g.sigmoid xs sel
  let nan := xs.any fun x => (fp32.decode x).isNan
  let inf := xs.any fun x => fp32.decode x == .inf false
  ((sel.zip ws).map (fun (e, w) => (some e, w)) ++ List.replicate (g.k - sel.length) (none, 0),
    b2n nan + 2 * b2n inf + 8 * b2n (decide (sel.length < g.k)))

/-- R333: accepts or drops the pairs of one token; HIST so far goes in and out. -/
def acceptRow (g : RouteCmd) (hist : List Nat) (row : RouteRow) : List Nat × RouteRow :=
  let (h, slots, cut, any) := row.1.foldl (fun (acc : List Nat × List (Option Nat × Nat) × Bool × Bool) x =>
    let (h, out, cut, any) := acc
    match x.1 with
    | none => (h, out ++ [x], cut, any)
    | some e =>
      if g.capen ∧ g.cap ≤ h.getD e 0 then (h, out ++ [(none, 0)], true, any)
      else (modAt (· + 1) h e, out ++ [x], cut, true)) (hist, [], false, false)
  (h, slots, row.2 + 4 * b2n cut + 16 * b2n !any)

/-- ROUTING_COMMAND (R331 to R333): the routing engine of die `here.idx` checks its next record, then selects, weighs and
accepts, and writes IDX, WGT, HIST and STAT. -/
def execRoutingCommand (s : State) : Host.Outcome State Fault Refusal :=
  runEngine 3 s fun c =>
    let set (s : State) (f : Cmd → Cmd) : State := s.modCmd 3 s.here.idx f
    let g := routeCmd c.record
    match s.routeCheck c with
    | some f => set s fun c => { c with result := some f }
    | none =>
      match s.tensor? c.ctx g.score, s.tensor? c.ctx g.idx, s.tensor? c.ctx g.wgt, s.tensor? c.ctx g.hist,
        s.tensor? c.ctx g.stat with
      | some sc, some ti, some tw, some th, some ts =>
        let score (n : Nat) : Nat :=
          let v := s.element c.ctx sc (sc.coordsAt n)
          if sc.efmt = 5 then v else v * 65536
        let rows := (List.range g.T).map fun t => routeToken g ((List.range g.E).map fun e => score (t * g.S + e))
        let (hist, done) := rows.foldl (fun (acc : List Nat × List RouteRow) row =>
          let x := acceptRow g acc.1 row
          (x.1, acc.2 ++ [x.2])) (List.replicate g.E 0, [])
        let s' := done.zipIdx.foldl (fun s (row, t) =>
          let s := row.1.zipIdx.foldl (fun s ((e, w), k) =>
            (s.setElement c.ctx ti [t, k] (e.getD 0xFFFF)).setElement c.ctx tw [t, k] w) s
          s.setElement c.ctx ts (ts.coordsAt t) row.2) s
        let s' := hist.zipIdx.foldl (fun s (n, e) => s.setElement c.ctx th (th.coordsAt e) n) s'
        let k := (c.ctx, c.core)
        let grid (n : Nat) : List (List Nat) := (List.range g.T).flatMap fun t => (List.range n).map fun i => [t, i]
        let s' := ((s'.countElems k sc ((List.range g.T).flatMap fun t => (List.range g.E).map fun e =>
          sc.coordsAt (t * g.S + e))).countElems k ti (grid g.k)).countElems k tw (grid g.k)
        let s' := (s'.countElems k th ((List.range g.E).map th.coordsAt)).countElems k ts ((List.range g.T).map ts.coordsAt)
        set s' fun c => { c with started := true, result := some (0, 0, done.countP fun row => row.2 != 0) }
      | _, _, _, _, _ => s

/-! ### The collective engine (R335) -/

structure CollCmd where
  kind : Nat
  rop : Nat
  dfmt : Nat
  group : Nat
  src : Nat
  dst : Nat
  count : Nat
  soff : Nat
  doff : Nat

def collCmd (r : List W64) : CollCmd :=
  let w := wordAt r 0
  ⟨field w 8 2, field w 10 2, field w 12 4, field w 16 16, field (wordAt r 1) 0 20, field (wordAt r 1) 20 20,
    field (wordAt r 2) 0 48, field (wordAt r 3) 0 48, field (wordAt r 4) 0 48⟩

/-- Bytes of SRC and of DST of one member in a group of n. -/
def CollCmd.srcLen (g : CollCmd) (n : Nat) : Nat := if 2 ≤ g.kind then n * g.count else g.count
def CollCmd.dstLen (g : CollCmd) (n : Nat) : Nat := if g.kind % 2 = 1 then n * g.count else g.count

/-- The word that the members must agree on. -/
def CollCmd.head (g : CollCmd) : W64 := w64 (g.kind + g.rop * 4 + g.dfmt * 16 + g.count * 2 ^ 8)

def State.collCheck (s : State) (c : Cmd) : Option (Nat × Nat × Nat) :=
  let r := c.record
  let g := collCmd r
  let n := ((s.fabric.groupOf g.group).map (·.n)).getD 0
  let off (v at' : Nat) : Bool × Nat := (v % 64 != 0, at')
  let overlap := g.src == g.dst && decide (g.soff < g.doff + g.dstLen n) && decide (g.doff < g.soff + g.srcLen n)
  let bad := [(field (wordAt r 0) 0 8 != 4, 0), (g.rop == 3, 1), (decide (3 < g.dfmt), 1),
    ((s.fabric.groupOf g.group).isNone, 2), rsvAt r 32 32, localBad g.src 8, localBad g.dst 10, rsvAt r 104 24,
    (g.count % 64 != 0 || g.count == 0, 16), rsvAt r 176 16, off g.soff 24, rsvAt r 240 16, off g.doff 32, rsvAt r 304 16,
    rsvAt r 320 128, (overlap, 32)]
  judge bad [((s.rangeOk c.ctx g.src g.soff (g.srcLen n) .load).isNone, 8),
    ((s.rangeOk c.ctx g.dst g.doff (g.dstLen n) .store).isNone, 10)]

/-- R335: two elements reduced; FP32 and BF16 are held as FP32. -/
def collStep (g : CollCmd) (acc x : Nat) : Nat × Flags :=
  if g.dfmt ≤ 1 then
    match g.rop with
    | 0 => let a := fp32.decode acc
           let b := fp32.decode x
           let r := fpEval fp32 [a, b] [some a, some b]
           (r.bits, r.flags)
    | 1 => fminmax fp32 false acc x
    | _ => fminmax fp32 true acc x
  else
    let w := if g.dfmt = 2 then 32 else 64
    let a := (BitVec.ofNat w acc).toInt
    let b := (BitVec.ofNat w x).toInt
    (toLane w (match g.rop with | 0 => a + b | 1 => max a b | _ => min a b), Flags.none)

def CollCmd.width (g : CollCmd) : Nat := match g.dfmt with | 0 => 4 | 1 => 2 | 2 => 4 | _ => 8

/-- The reduction of one element over the members in ascending rank, as bytes of DFMT. -/
def collReduce (g : CollCmd) (xs : List Nat) : List Byte × Flags :=
  let xs := if g.dfmt = 1 then xs.map (· * 65536) else xs
  let r := xs.tail.foldl (fun (acc : Nat × Flags) x => let y := collStep g acc.1 x; (y.1, acc.2.or y.2))
    (xs.headD 0, Flags.none)
  if g.dfmt = 1 then
    let v := narrow bf16 .rne true 0 (fp32.decode r.1)
    (leBytes 2 v.bits, r.2.or v.flags)
  else (leBytes g.width r.1, r.2)

/-- What a member of rank r writes to DST from what the N members gave (R335). -/
def collResult (g : CollCmd) (n r : Nat) (data : Nat → Memory) : List Byte × Flags :=
  let c := g.count
  let reduce (base : Nat) : List Byte × Flags :=
    (List.range (c / g.width)).foldl (fun (acc : List Byte × Flags) i =>
      let y := collReduce g ((List.range n).map fun m => leNat ((data m).readN (base + i * g.width) g.width))
      (acc.1 ++ y.1, acc.2.or y.2)) ([], Flags.none)
  match g.kind with
  | 0 => reduce 0
  | 1 => ((List.range n).flatMap fun m => (data m).readN 0 c, Flags.none)
  | 2 => reduce (r * c)
  | _ => ((List.range n).flatMap fun m => (data m).readN (r * c) c, Flags.none)

/-- The member packages that the root passes things on to. -/
def CollWait.others (w : CollWait) (self : Nat) : List Nat := (w.pkgs.map (·.2)).filter fun p => p != self

/-- The packets of a byte run: 15 flits of data each behind a flit that says whose they are and where they go. -/
def collPackets (group ordinal rank : Nat) (bs : List Byte) : List (List (BitVec 512)) :=
  (List.range ((bs.length + 959) / 960)).map fun i =>
    let part := (bs.drop (960 * i)).take 960
    collData group ordinal rank (960 * i) ::
      (List.range ((part.length + 63) / 64)).map fun j => BitVec.ofNat 512 (leNat ((part.drop (64 * j)).take 64))

/-- COLLECTIVE_COMMAND (R335): the collective engine of die `here.idx` starts its next collective and tells the group
what it agrees to; then it goes on as far as what the members sent allows: the data once all agree, the result once all
data is there. Members speak through ROOT (log 60). -/
def execCollectiveCommand (s : State) : Host.Outcome State Fault Refusal :=
  runEngine 4 s fun c =>
    let set (s : State) (f : Cmd → Cmd) : State := s.modCmd 4 s.here.idx f
    let g := collCmd c.record
    let me := s.fabric.pkgid
    match s.fabric.groupOf g.group with
    | none => set s fun c => { c with result := (s.collCheck c).getD (1, 0, 2) |> some }
    | some e =>
      if c.started = false then
        let o := (s.fabric.ordinals.get? g.group).getD 0
        let fail := s.collCheck c
        let s := s.modFabric fun f => { f with ordinals := f.ordinals.put g.group (o + 1) }
        let s := set s fun c => { c with started := true, ordinal := o, result := fail }
        if fail.isSome then s
        else
          let w := s.fabric.coll g.group o
          let s := s.modFabric fun f => f.setColl { w with heads := w.heads.put e.rank g.head, pkgs := w.pkgs.put e.rank me }
          if e.root = me then s else s.inject 0 e.root [collHead g.group o e.rank g.head]
      else
        let o := c.ordinal
        let w := s.fabric.coll g.group o
        let ranks := List.range e.n
        if ranks.any fun r => (w.heads.get? r).isNone then s
        else
          let s := if e.root = me ∧ w.relayed = false then
              (w.others me).foldl (fun s p =>
                w.heads.foldl (fun s (r, h) => s.inject 0 p [collHead g.group o r h]) s)
                (s.modFabric fun f => f.setColl { w with relayed := true })
            else s
          let w := s.fabric.coll g.group o
          let finish (s : State) (r : Nat × Nat × Nat) : State :=
            set (s.modFabric fun f => { f with colls := f.colls.filter fun x => !(x.group == g.group && x.ordinal == o) })
              fun c => { c with result := some r }
          if w.heads.any fun h => field h.2 0 8 != field g.head 0 8 then finish s (4, 0, 1)
          else if w.heads.any fun h => h.2 != g.head then finish s (4, 0, 16)
          else if c.done = 0 then
              match s.tensor? c.ctx g.src with
              | none => s
              | some t =>
                let bs := s.tensorBytes c.ctx t g.soff (g.srcLen e.n)
                let s := s.countBytes (c.ctx, c.core) t g.soff (g.srcLen e.n)
                let s := s.modFabric fun f => f.setColl (w.addData e.rank 0 bs)
                let tO := if e.root = me then w.others me else [e.root]
                let s := tO.foldl (fun s p => (collPackets g.group o e.rank bs).foldl (fun s k => s.inject 4 p k) s) s
                set s fun c => { c with done := 1 }
            else if ranks.any fun r => ((w.datas.get? r).map (·.2)).getD 0 < g.srcLen e.n then s
            else
              match s.tensor? c.ctx g.dst with
              | none => s
              | some t =>
                let (bs, fl) := collResult g e.n e.rank fun r => ((w.datas.get? r).map (·.1)).getD []
                finish ((s.setTensorBytes c.ctx t (fun _ x => x.cur) g.doff bs).countBytes (c.ctx, c.core) t g.doff bs.length) (0, statusFlags fl, bs.length)

/-! ### Completion (R320, R323, R324) -/

/-- Table 21.1. -/
def statusWord (c : Cmd) (r : Nat × Nat × Nat) : W64 :=
  w64 (r.1 + 2 ^ 8 + r.2.1 * 2 ^ 9 + c.engine * 2 ^ 16 + c.tag * 2 ^ 24 + r.2.2 % 2 ^ 32 * 2 ^ 32)

/-- Takes the head command off a queue. -/
def State.popCmd (s : State) (engine unit : Nat) : State :=
  { s with engines := s.engines.adjust (engine, unit) List.tail }

/-- Can a counter be added to now: its memory core is in place and its view closed (R312, R326)? -/
def State.counterFree (s : State) (ctx mc : Nat) : Bool :=
  match s.mcore? (ctx, mc) with
  | some m => m.resident && !m.shut
  | none => true

/-- R206, R323: are tokens of a gather-reduce command that streams its rows still to be enqueued: a beat on its way or held, the
hold of its port, or its last token in flight? -/
def CoreCtx.gredDue (c : CoreCtx) (pos port id : Nat) : Bool :=
  let p := (c.elemD pos).port port
  p.hold == some (.gred id) || ((c.le pos).inbeats.any fun b => b.hold == .gred id) ||
    c.flights.any fun f => match f.cargo with
      | .beat _ _ _ h _ => h == .gred id
      | .token q i t => t.ctl == .last && p.recvs.any fun r => r.pos == q && r.q == i
      | _ => false

/-- Must a finished command wait for what it has sent (R323)? -/
def State.cmdDue (s : State) (c : Cmd) (r : Nat × Nat × Nat) : Bool :=
  let g := gredRec c.record
  c.engine == 2 && r.1 == 0 && g.dk && ((s.core? (c.ctx, g.core)).map fun x => x.gredDue (gredSide g.side) g.port c.id).getD false

/-- ENGINE_COMPLETION (R323, R324): the finished head command of engine `here.pos`, unit `here.idx`, writes its status word
and adds to its counter; a sequencer's command that failed freezes the sequencer instead. -/
def execEngineCompletion (s : State) : Host.Outcome State Fault Refusal :=
  let e := s.here.pos
  match s.queueOf e s.here.idx with
  | [] => .next s
  | c :: _ =>
    match c.result with
    | none => .next s
    | some r =>
      let addsTo := if r.1 = 0 ∨ c.fromSeq.isNone = true then c.ctr else none
      if (addsTo.any fun x => !s.counterFree c.ctx x.1) ∨ s.cmdDue c r = true then .next s
      else
        let st := statusWord c r
        let s := match c.fromSeq with
          | none => match s.tensor? c.ctx c.tid with
            | some t => (s.setTensorBytes c.ctx t (fun _ x => x.cur) (c.off + 56) (wordBytes st)).countBytes (c.ctx, c.core) t
                (c.off + 56) 8
            | none => s
          | some (mc, pc) =>
            if r.1 = 0 then s
            else (s.seqTrap (c.ctx, mc) pc ⟨if r.1 = 2 then 0x06 else 0x01, st, 0#64⟩).freezeMcore (c.ctx, mc)
        let s := match addsTo with
          | some (mc, i) => s.modMcore (c.ctx, mc) fun m => m.bump i 1#32
          | none => s
        .next ((s.popCmd e s.here.idx).progressed c.ctx)

/-! ### The curator (R336, R337) -/

/-- The record of a PLACE (R336): experts' numbers, HIST, range and block. -/
structure PlaceRec where
  experts : List Int
  hist : Nat
  base : Nat
  count : Nat
  block : Nat

def placeRec (r : List W64) : PlaceRec :=
  let w := wordAt r 0
  ⟨(List.range (field w 0 4 + 1)).map fun i => ((wordAt r (1 + i / 4)).extractLsb' (16 * (i % 4)) 16).toInt,
    field w 4 20, field w 24 16, field w 40 16, field (wordAt r 5) 0 20⟩

/-- HIST[e] of an expert, none where it is out of range. -/
def State.histAt (s : State) (ctx tid : Nat) (e : Int) : Option Nat :=
  match s.tensor? ctx tid with
  | none => none
  | some t =>
    let w := ebits t.efmt
    if e < 0 ∨ t.elems ≤ e.toNat then none
    else
      let ok := match t.loc, s.team? ctx with
        | .tile _ _, _ => t.r
        | _, some tm => t.r && tm.leased t .load (t.coordsAt e.toNat)
        | _, none => false
      if ok then some ((BitVec.ofNat w (s.element ctx t (t.coordsAt e.toNat))).toInt.toNat) else none

/-- The first of greatest key, of indices in rising order. -/
def bestOf (key : Nat → Nat) : List Nat → Option Nat
  | [] => none
  | i :: is => match bestOf key is with
    | some j => if key i < key j then some j else some i
    | none => some i

/-- The first n of a list of indices by descending key, ties to lower i. -/
def topN (key : Nat → Nat) : Nat → List Nat → List Nat
  | 0, _ => []
  | n + 1, is => match bestOf key is with
    | some i => i :: topN key n (is.filter fun j => j != i)
    | none => []

/-- R337 `place()`: the cores of each expert. -/
def placeCores (n : List Nat) (C : Nat) : List Nat :=
  let cnt (i : Nat) : Nat := n.getD i 0
  let A := (List.range n.length).filter fun i => 0 < cnt i
  let A := if C < A.length then topN cnt C A else A
  let R := C - A.length
  let N := (A.map cnt).sum
  let base (i : Nat) : Nat := if A.contains i then 1 + R * cnt i / N else 0
  let given := ((List.range n.length).map base).sum
  let extra := topN (fun i => R * cnt i % N) (C - given) ((List.range n.length).filter fun i => A.contains i)
  (List.range n.length).map fun i => base i + (if extra.contains i then 1 else 0)

/-- The variant of an expert: the largest unroll not above the limit, the lowest number first. -/
def placeVariant (b : Block) (n cores : Nat) : Nat :=
  let un (i : Nat) : Nat := ((b.variants[i]?).map (·.unroll)).getD 0
  let limit := max 1 (n / (16 * cores))
  let ok := (List.range b.variants.length).filter fun i => decide (un i ≤ limit)
  if cores = 0 then 0 else (bestOf un ok).getD 0

/-- CURATOR_PLACE (R336, R337): the placement that the walker at `here` waits for is computed; once the chosen variants are
in the caches of their cores (R162) the plan is written, or the walker traps and its core freezes. While the walker stands still
the answer waits (R302), and so does what stands behind an open view (R312). -/
def execCuratorPlace (s : State) : Host.Outcome State Fault Refusal :=
  s.onCore fun c =>
    match c.walker.mark, c.walker.pos, s.team? s.here.ctx with
    | .placing tid r, some p, some tm =>
      let ctx := s.here.ctx
      let reject : State := ((s.modCore s.key fun c => c.modWalker fun w => { w with mark := .none }).walkerTrap s.key p
        ⟨0x06, w64 tid, 0#64⟩).freezeCore s.key
      let g := placeRec r
      let away (t : Tensor) : Bool := s.tileAway ctx t
      if s.movesOn s.key c = false ∨ ((s.tensor? ctx tid).any away || (s.tensor? ctx g.hist).any away) = true then s
      else match s.tensor? ctx tid with
      | some t =>
        let hs := g.experts.map (s.histAt ctx g.hist)
        if (rsvAt r 56 8).1 ∨ (rsvAt r 340 44).1 ∨ (rsvAt r 384 128).1 ∨ (hs.any Option.isNone) = true ∨
            tm.cores < g.base + g.count then reject
        else
          let n := hs.map fun h => h.getD 0
          let cores := placeCores n g.count
          let b := parseBlock ((tm.blocks.get? g.block).getD [])
          let firsts := (List.range n.length).map fun i => g.base + (cores.take i).sum
          let vars := (n.zip cores).map fun (x, k) => placeVariant b x k
          let rows := (firsts.zip cores).zip vars
          let plan := rows.map fun ((f, k), v) => w64 (f + k * 2 ^ 16 + v * 2 ^ 32)
          let places := rows.flatMap fun ((f, k), v) => (List.range k).map fun i => (f + i, v)
          match places.foldlM (fun (s : State) x => s.cacheBlock ctx x.1 g.block) s with
          | none => s
          | some s =>
            let s := s.modTeam ctx fun tm => { tm with plans := tm.plans.filter fun x => x.1.2 != g.block }
            let s := places.foldl (fun (s : State) x =>
              s.modTeam ctx fun tm => { tm with plans := tm.plans.put (x.1, g.block) x.2 }) s
            let s := (s.setTensorBytes ctx t (fun _ x => x.cur) 64 (wordsBytes plan)).countBytes s.key t 64 (8 * plan.length)
            (s.modCore s.key fun c => c.modWalker fun w => { w with mark := .placed }).progressed ctx
      | none => reject
    | _, _, _ => s

end Sys2Proof.Machine
end

