-- ==== Sys2Proof/Machine/View.lean ====
section
/-! DEFINITION. The vitrine (R310 to R312): the view of a compute core or a memory core as bytes in its place of the image
area, and the writable fields read back. Parts whose layout the spec does not give have the model's own (log 62) and are never
read back. -/

namespace Sys2Proof.Machine

/-! ### Element records (Table 20.6) -/

def Reg.meta (r : Reg) : Byte :=
  BitVec.ofNat 8 (r.fmt.code + 8 * b2n r.tnt + 16 * b2n r.full + 32 * b2n r.pending)

def predByte (e : Elem) (p : Pred → Bool) : Byte :=
  BitVec.ofNat 8 (((List.range 8).map fun i => b2n (p (e.pred i)) * 2 ^ i).sum)

def tokenBytes (t : Token) : List Byte :=
  wordBytes t.data ++ [BitVec.ofNat 8 (t.fmt.code + 8 * t.ctl.code + 32 * b2n t.tnt)]

/-- A queue's four places; places beyond its occupancy read 0. -/
def queueBytes (q : List Token) : List Byte :=
  (List.range 4).flatMap fun n => match q[n]? with
    | some t => tokenBytes t
    | none => zeros 9

/-- The credit count of a port: the least of its receivers' (log 62). -/
def Port.least (p : Port) : Nat := match p.recvs with
  | [] => 0
  | r :: rs => rs.foldl (fun m x => min m x.credits) r.credits

def byteOf (n : Nat) : Byte := BitVec.ofNat 8 n

/-- Table 20.6. -/
def Elem.view (e : Elem) : List Byte :=
  e.regs.toList.flatMap (fun r => wordBytes r.data) ++ e.regs.toList.map Reg.meta ++
  [predByte e (·.val), predByte e (·.tnt), predByte e (·.pending), byteOf e.flags.word, byteOf e.ptr] ++ zeros 15 ++
  e.ages.toList.map byteOf ++ e.slots.toList.flatMap wordBytes ++ e.consts.toList.flatMap (fun c => wordBytes c.1) ++
  (List.range 4).flatMap (fun q => queueBytes (e.queue q)) ++
  (List.range 4).map (fun q => byteOf (e.queue q).length) ++ (List.range 4).map (fun p => byteOf (e.port p).least) ++
  leBytes 8 e.waitc ++ wordBytes e.cfg.word0 ++ wordBytes e.cfg.word1 ++ zeros 32

def Memory.word (m : Memory) (a : Nat) : W64 := bytesWord (m.readN a 8)

/-- The token of a queue place as the view gives it. -/
def viewToken (m : Memory) (a : Nat) : Token :=
  let b := (m.read (a + 8)).toNat
  ⟨m.word a, Fmt.ofCode b, Ctl.ofCode (b / 8), b / 32 % 2 == 1⟩

/-- The writable fields of an element record at byte `a`, read back (R310). -/
def Elem.load (m : Memory) (a : Nat) (e : Elem) : Elem :=
  { e with
    regs := Vector.ofFn fun i : Fin 12 =>
      let b := (m.read (a + 96 + i)).toNat
      let old := e.reg i
      ⟨m.word (a + 8 * i), Fmt.ofCode b, b / 8 % 2 == 1, if old.pending then old.full else b / 16 % 2 == 1, old.pending⟩
    preds := Vector.ofFn fun i : Fin 8 =>
      ⟨(m.read (a + 108)).getLsbD i, (m.read (a + 109)).getLsbD i, (e.pred i).pending⟩
    flags := Flags.ofNat ((m.read (a + 111)).toNat % 128)
    slots := Vector.ofFn fun i : Fin 16 => m.word (a + 144 + 8 * i)
    ages := Vector.ofFn fun i : Fin 16 => if m.word (a + 144 + 8 * i) = e.slot i then at' e.ages i 0 else 0
    queues := Vector.ofFn fun q : Fin 4 =>
      (List.range (e.queue q).length).map fun n => viewToken m (a + 304 + 36 * q + 9 * n) }

/-! ### Matrix and scratchpad elements -/

/-- Fields of the given widths, each above the one before. -/
def packFields : List (Nat × Nat) → Nat
  | [] => 0
  | (v, w) :: fs => v % 2 ^ w + 2 ^ w * packFields fs

/-- n bytes: some of a list, filled up with zeros. -/
def padTo (n : Nat) (bs : List Byte) : List Byte := bs.take n ++ zeros (n - bs.length)

/-- A chunk of the B register, or zeros for an empty place. -/
def bEntryBytes : Option BEntry → List Byte
  | none => zeros 72
  | some b => leBytes 64 b.chunk.toNat ++ leBytes 4 b.side.toNat ++
      leBytes 4 (packFields [(1, 1), (b2n b.tnt, 1), (b.cm.toNat, 4), (b2n b.hold.isSome, 1), (b.hold.getD 0, 16)])

/-- Table 20.5, from byte 548 on: drain progress, slice pointers, B register, scale holders, IO and TC. DESIGN CHOICE (log 62):
their places. -/
def ME.restView (x : ME) (f : Flags) : List Byte :=
  ((List.range 8).map fun n => byteOf (((x.drains.find? fun d => d.bank == n).map (·.row)).getD 0)) ++
  x.slicePtrs.toList.map byteOf ++ bEntryBytes x.cur ++ bEntryBytes x.nxt ++
  (x.holders.toList.flatMap fun h => leBytes 4 h.1.toNat ++ leBytes 4 h.2) ++ [byteOf (b2n f.io + 2 * b2n f.tc)]

/-- Table 20.5: banks, γ, bank TNT byte, MODE byte, PH and the rest of the ME record. -/
def ME.view (x : ME) (f : Flags) : List Byte := padTo 1024 <|
  x.banks.toList.flatMap (fun b => b.c.toList.flatMap fun w => leBytes 4 w.toNat) ++
  x.banks.toList.flatMap (fun b => leBytes 4 b.gamma.toNat) ++
  [byteOf (((List.range 8).map fun i => b2n (at' x.banks i Bank.init).tnt * 2 ^ i).sum),
    byteOf (((List.range 8).map fun i => b2n (at' x.banks i Bank.init).int * 2 ^ i).sum), byteOf x.ph, byteOf (x.ph / 256)] ++
  x.restView f

def ME.load (m : Memory) (a : Nat) (x : ME) : ME :=
  { x with banks := Vector.ofFn fun n : Fin 8 =>
      { at' x.banks n Bank.init with
        c := Vector.ofFn fun i : Fin 16 => (m.word (a + 64 * n + 4 * i)).setWidth 32
        gamma := (m.word (a + 512 + 4 * n)).setWidth 32
        tnt := (m.read (a + 544)).getLsbD n } }

def seOrder : List Nat := [0, 7, 56, 63]

def SE.view (x : SE) : List Byte :=
  (List.range 2048).flatMap (fun w => wordBytes ((x.bank.get? w).getD (0#64, .raw)).1) ++
  (List.range 2048).map fun w => byteOf ((x.bank.get? w).getD (0#64, .raw)).2.code

def SE.load (m : Memory) (a : Nat) (x : SE) : SE :=
  { x with bank := (List.range 2048).filterMap fun w =>
      let v : W64 × Fmt := (m.word (a + 8 * w), Fmt.ofCode (m.read (a + 16384 + w)).toNat)
      if v = (0#64, .raw) then none else some (w, v) }

def mePositions : List Nat := (List.range 64).filter fun p => kindAt p == .me

/-! ### Views in the image area (Table 20.1) -/

/-- The place of a core's image. -/
def Team.coreAt (t : Team) (mc : Bool) (core : Nat) : Nat :=
  t.quadPlace (core / 2) + (match mc, core % 2 with
    | false, 0 => 0
    | false, _ => 0x34000
    | true, 0 => 0x68000
    | true, _ => 0xEC000)

/-! ### The read-only sections of a compute core's view

Table 20.5 names what stands in them and gives no places within them: they are the model's (DESIGN CHOICE, log 62). -/

def CE.view (x : CE) : List Byte := padTo 128 <|
  wordBytes x.pk ++ leBytes 8 (packFields [(b2n x.pkTnt, 1), (x.mb.length, 6), (b2n x.mt, 1), (x.xe.toNat, 8), (x.xs.toNat, 8),
    (x.lfsr.toNat, 32)]) ++ x.mb.flatMap fun w => leBytes 2 w.toNat

def GenMode.code : GenMode → Nat
  | .idle => 0 | .load => 1 | .ending => 2 | .store => 3

def LGen.view (g : LGen) : List Byte := padTo 64 <|
  (g.c.toList.flatMap fun w => leBytes 4 w.toNat) ++ (g.n.toList.flatMap fun n => leBytes 2 n) ++
  leBytes 8 g.group ++ wordBytes g.addr ++ leBytes 2 (packFields [(g.mode.code, 2), (g.port, 2), (g.slot, 4), (b2n g.tnt, 1)])

def ReqKind.code : ReqKind → Nat
  | .load => 0 | .burst => 1 | .atomic => 2 | .tstat => 3 | .stream _ _ => 4 | .sent => 5

/-- The reply that an entry of the outstanding-request table holds. -/
def LReq.heldTokens (r : LReq) : List Token := match r.st with
  | .served ts => ts
  | _ => []

/-- An entry of the outstanding-request table with its link-holding slot, of which the first token is shown. -/
def LReq.view (r : LReq) : List Byte :=
  let st := match r.st with | .waiting => 0 | .served _ => 1 | .faulted _ _ => 2 | .behind => 3
  leBytes 8 (packFields [(1, 1), (r.kind.code, 3), (st, 2), (r.slot, 4), (r.binding, 2), (r.tid, 20), (r.dst, 5), (b2n r.tnt, 1),
    (r.pu, 3), (r.pn, 3), (r.lanes, 5), (r.heldTokens.length, 4)]) ++ wordBytes r.addr ++
  wordBytes ((r.heldTokens.head?.map (·.data)).getD 0#64)

def Staging.view (g : Staging) : List Byte :=
  (g.lanes.toList.flatMap fun w => wordBytes (w.getD 0#64)) ++ leBytes 4 (g.side.getD 0#32).toNat ++
  leBytes 12 (packFields ((g.lanes.toList.map fun w => (b2n w.isSome, 1)) ++ [(b2n g.side.isSome, 1), (g.rmask, 4), (b2n g.tnt, 1)]))

/-- Words in a table of n places. -/
def tableBytes (n : Nat) (ws : List Nat) : List Byte := padTo (8 * n) (ws.flatMap fun w => leBytes 8 w)

/-- Table 10.1 in its order, the instance table with the status words. -/
def CoreCtx.walkerView (c : CoreCtx) : List Byte :=
  let w := c.walker
  leBytes 8 (packFields [(b2n w.pos.isSome, 1), (w.pos.getD 0, 10), (w.levels.length, 3), (w.rstack.length, 5), (w.deque.length, 6)]) ++
  tableBytes 8 (w.levels.flatMap fun l => [packFields [(l.head, 10), (l.step, 5)], packFields [(l.index.toNat, 32), (l.bound.toNat, 32)]]) ++
  wordBytes w.cw ++
  tableBytes 16 (w.rstack.map fun r => packFields [(r.node.getD 1023, 10), (r.depth, 3), (b2n r.task, 1)]) ++
  tableBytes 32 (w.deque.map fun t => packFields [(t.entry, 10), (t.arg.toNat, 32), (t.group, 3), (t.owner, 16)]) ++
  (w.joins.toList.flatMap fun n => leBytes 2 n) ++
  tableBytes 16 (w.bch.map fun b => packFields [(b.1, 10), (b.2.toNat, 32)]) ++
  tableBytes 16 (w.pend.flatMap fun e => [packFields [(e.node, 10), (e.block, 20), (b2n e.spec, 1), (e.wait, 16)], e.itr]) ++
  tableBytes 32 (c.runs.flatMap fun r => [r.node, r.status.word.toNat]) ++ wordBytes w.lstat ++ leBytes 8 w.roleage

def cePositions : List Nat := [11, 12, 51, 52]
def lePositions : List Nat := [4, 8, 55, 59]

/-- CE state, LE generators, bus staging chunks, walker state with the instance status words, and the outstanding-request tables
with the link-holding slots: 16 KiB. -/
def CoreCtx.restView (c : CoreCtx) : List Byte := padTo 0x4000 <|
  (cePositions.flatMap fun p => (c.ce p).view) ++
  (lePositions.flatMap fun p => (c.le p).gens.toList.flatMap LGen.view) ++
  padTo 0xA00 (c.staging.toList.flatMap Staging.view ++ c.walkerView) ++
  lePositions.flatMap fun p => padTo 0xC00 ((c.le p).reqs.flatMap LReq.view)

/-- A commit-buffer entry: kind, element, and what it names, then the value. -/
def BufEntry.view (b : BufEntry) : List Byte :=
  match b.op with
  | .store tid cs n v =>
    leBytes 8 (packFields [(0, 3), (b.pos, 6), (tid, 20), (n, 5), (cs.getLastD 0, 30)]) ++ wordBytes v
  | .arrv mc i v => leBytes 8 (packFields [(1, 3), (b.pos, 6), (mc, 16), (i, 4)]) ++ leBytes 8 v.toNat
  | .msnd p d => leBytes 8 (packFields [(2, 3), (b.pos, 6), (d.toNat, 9)]) ++ wordBytes p
  | .seUndo x w old => leBytes 8 (packFields [(3, 3), (b.pos, 6), (x, 6), (w, 11), (old.2.code, 3)]) ++ wordBytes old.1
  | .meUndo x n old => leBytes 8 (packFields [(4, 3), (b.pos, 6), (x, 6), (n, 3), (b2n old.int, 1), (b2n old.tnt, 1)]) ++
      leBytes 8 old.gamma.toNat

/-- The view of a compute core. -/
def State.writeCoreView (s : State) (a : Nat) (c : CoreCtx) : State :=
  let s := (List.range 64).foldl (fun s p => s.setFlat (a + 512 * p) (c.elemD p).view) s
  let s := mePositions.zipIdx.foldl (fun s (p, i) => s.setFlat (a + 0x8000 + 1024 * i) ((c.me p).view (c.elemD p).flags)) s
  let s := seOrder.zipIdx.foldl (fun s (p, i) => s.setFlat (a + 0x10000 + 18432 * i) (c.se p).view) s
  (s.setFlat (a + 0x22000) c.restView).setFlat (a + 0x26000) (padTo 0xC000 (c.buf.flatMap BufEntry.view))

/-- Every slot word that the view changed, checked as a CFGW word (R59, R310): the first failure's record. -/
def CoreCtx.viewFail (m : Memory) (a : Nat) (c : CoreCtx) : Option W64 :=
  c.elems.findSome? fun (p, e) => (List.range 16).findSome? fun i =>
    let w := m.word (a + 512 * p + 144 + 8 * i)
    if w = e.slot i then none
    else
      let r := e.run.bind c.run?
      (slotFail (kindAt p) ((r.map fun r => r.commitPos == p).getD false) w).map
        (slotRecord ((r.map fun r => r.status.variant).getD 0) p i)

/-- The writable fields of a compute core's view, read back. -/
def CoreCtx.loadView (m : Memory) (a : Nat) (c : CoreCtx) : CoreCtx :=
  let c := { c with elems := c.elems.map fun (x : Nat × Elem) => (x.1, x.2.load m (a + 512 * x.1)) }
  let c := mePositions.zipIdx.foldl (fun c (p, i) => c.modMe p (ME.load m (a + 0x8000 + 1024 * i))) c
  seOrder.zipIdx.foldl (fun c (p, i) => c.modSe p (SE.load m (a + 0x10000 + 18432 * i))) c

/-- An image is loaded as a view is; where a slot word that was changed in it fails the check of R59 the core keeps its own slots
(DESIGN CHOICE, log 62). -/
def CoreCtx.loadImage (m : Memory) (a : Nat) (c : CoreCtx) : CoreCtx :=
  let new := CoreCtx.loadView m a c
  if (CoreCtx.viewFail m a c).isNone then new
  else { new with elems := new.elems.map fun (x : Nat × Elem) =>
    (x.1, { x.2 with slots := (c.elemD x.1).slots, ages := (c.elemD x.1).ages }) }

/-- Table 11.1's state and mode codes. -/
def TileState.code : TileState → Nat
  | .empty => 0 | .filling => 1 | .ready => 2 | .draining => 3 | .predicted => 4 | .verifying => 5

def TileMode.code : TileMode → Nat
  | .store => 0 | .fifo => 1 | .line => 2

/-- A tile table entry in the view: the fields of Table 11.1 in its order, from bit 0 on (R312). DESIGN CHOICE (log 62): their
places in the 32 bytes. -/
def Tile.entryBytes (t : Tile) : List Byte :=
  leBytes 32 (packFields [(b2n t.defd, 1), (t.state.code, 3), (b2n t.own, 1), (t.ret, 2), (t.mode.code, 2), (t.base, 13),
    (t.rows, 12), (t.rowb, 12), (t.fmt.code, 3), (t.version.toNat, 32), (b2n t.claim.isSome, 1), (t.pin 0, 4), (t.pin 1, 4),
    (t.pin 2, 4), (t.head, 12), (t.count, 13)])

/-- The view of a memory core (R312). DESIGN CHOICE (log 62): the log's entries stand as in a DRNG record; PC and the loop
counters take two bytes each, and the program memory follows from the next multiple of 16 on. -/
def State.writeMcoreView (s : State) (a : Nat) (m : MCoreCtx) : State :=
  let s := s.setFlat a ((List.range 64).flatMap fun i => (m.tile i).entryBytes)
  let s := s.setFlat (a + 0x800) (m.ctrs.toList.flatMap fun w => leBytes 4 w.toNat)
  let s := s.setFlat (a + 0x840) ((List.range 16).flatMap fun i => (logWords m.log[i]? (i == 0 && m.logOverflow)).flatMap wordBytes)
  let s := s.setFlat (a + 0xA40) (leBytes 2 m.pc ++ (m.loops.toList.flatMap fun w => leBytes 2 w.toNat) ++ zeros 6 ++
    (List.range 256).flatMap fun i => wordBytes (m.prog.getD i 0#64))
  let s := s.setFlat (a + 0x1250) (zeros (0x4000 - 0x1250))
  s.setFlat (a + 0x4000) (m.bytes 0 (64 * m.wsize))

def MCoreCtx.loadView (f : Memory) (a : Nat) (m : MCoreCtx) : MCoreCtx :=
  { m.setBytes 0 (f.readN (a + 0x4000) (64 * m.wsize)) with
    ctrs := Vector.ofFn fun i : Fin 16 => (f.word (a + 0x800 + 4 * i)).setWidth 32 }

/-! ### The upper store (R304, R366) -/

def sliceAt (t : Team) (core : Nat) : Nat := t.quadPlace (core / 2) + 0x180000 + core % 2 * 0x200000

def upperBytes : Nat := 0x200000

/-- Saves a core's slice for a team with UPS = 1. -/
def State.saveUpper (s : State) (t : Team) (core : Nat) (c : CoreCtx) : State :=
  if t.launch.ups then s.setFlat (sliceAt t core) (c.upper.readN 0 upperBytes) else s

def State.loadUpper (s : State) (t : Team) (core : Nat) (c : CoreCtx) : CoreCtx :=
  if t.launch.ups then { c with upper := Memory.writeN [] 0 (s.flat.readN (sliceAt t core) upperBytes) } else c

end Sys2Proof.Machine
end

