-- ==== Sys2Proof/Machine/Launch.lean ====
section
/-! DEFINITION. Launch records and images and their checks (R279 to R281, R290, R291), leases and frames (R293, R294),
placement (R282, R283), and the start of a team. -/

namespace Sys2Proof.Machine

/-! ### Launch records (Table 18.5) -/

def launchRec (t : List W64) : LaunchRec :=
  let w (i : Nat) : W64 := t.getD i 0#64
  { tag := field (w 0) 16 16, dest := field (w 0) 32 8, dk := (w 0).getLsbD 40, image := field (w 1) 0 48
    quads := field (w 2) 0 12, pri := field (w 2) 12 7, ft := (w 2).getLsbD 19, cap := (w 2).getLsbD 20
    svc := (w 2).getLsbD 21, sch := field (w 2) 22 8, hh := (w 2).getLsbD 30, hctx := field (w 2) 31 6
    sys := (w 2).getLsbD 37, sslot := field (w 2) 38 6, sctr := field (w 2) 44 4, ups := (w 2).getLsbD 48
    admitReg := (w 3).extractLsb' 0 32, cfgto := field (w 3) 32 8, wd := field (w 3) 40 8, roleage := field (w 3) 48 16
    area := field (w 4) 0 48, wsize := field (w 5) 0 14 }

/-- Is this the CTXID of a live service team? -/
def State.liveService (s : State) (ctx : Nat) : Bool :=
  match s.team? ctx with
  | some t => t.launch.svc && t.live
  | none => false

/-- R278: does DK = 0 name the channel of a live service team? -/
def State.destOk (s : State) (l : LaunchRec) : Bool := l.dk || (s.serviceTeam l.dest).isSome

/-- R281, step 1: is the record good? -/
def State.recordGood (s : State) (t : List W64) : Bool :=
  let w (i : Nat) : W64 := t.getD i 0#64
  let l := launchRec t
  field (w 0) 8 8 == 0 && field (w 0) 41 23 == 0 && field (w 1) 48 16 == 0 && field (w 2) 49 15 == 0 &&
  field (w 4) 48 16 == 0 && field (w 5) 14 50 == 0 && w 6 == 0#64 && w 7 == 0#64 &&
  decide (1 ≤ l.quads ∧ l.quads ≤ 2560) && l.image % 4096 == 0 && l.area % 4096 == 0 &&
  (if l.svc then decide (16 ≤ l.sch) else l.sch == 0) &&
  (if l.hh then l.hctx == 0 else s.liveService l.hctx) &&
  !(l.svc && s.teams.any fun x => x.2.launch.svc && x.2.launch.sch == l.sch) && s.destOk l &&
  decide (10 ≤ l.cfgto ∧ l.cfgto ≤ 30 ∧ 16 ≤ l.wd ∧ l.wd ≤ 40) && decide (1 ≤ l.wsize ∧ l.wsize ≤ 8192) &&
  (!l.sys || decide (16 ≤ l.wsize))

/-! ### Launch images (Table 18.6) -/

/-- A word of the image that begins at byte `a`. -/
def State.imageWord (s : State) (a i : Nat) : W64 := bytesWord (s.flat.readN (a + 8 * i) 8)

def State.imageWords (s : State) (a n : Nat) : List W64 := bytesWords n (s.flat.readN a (8 * n))

/-- Table 19.1. -/
def descOf (r : List W64) : Desc :=
  let w := wordAt r 0
  let lt := half r 28
  ⟨field w 0 20, field w 20 3, field w 23 4, w.getLsbD 27, w.getLsbD 28, w.getLsbD 29, field w 32 10,
    (List.range 5).map fun i => half r (8 + 4 * i), (List.range 5).map fun i => lt / 2 ^ (5 * i) % 32,
    field (wordAt r 4) 0 48, field (wordAt r 5) 0 9⟩

def logBits (efmt : Nat) : Nat := Nat.log2 (ebits efmt)

/-- R291: is a descriptor of a tensor good? -/
def descBad (quads : Nat) (r : List W64) : Bool :=
  let d := descOf r
  let w := wordAt r 0
  let rsv := field w 30 2 != 0 || field w 42 22 != 0 || half r 28 / 2 ^ 25 != 0 || wordAt r 4 != 0#64 ||
    wordAt r 5 != 0#64 || wordAt r 6 != 0#64 || wordAt r 7 != 0#64
  if d.tid = 0 then
    let first := (wordAt r 1).toNat
    let len := (wordAt r 2).toNat
    (w &&& ~~~0x18000000#64) != 0#64 || wordAt r 3 != 0#64 || wordAt r 4 != 0#64 || wordAt r 5 != 0#64 ||
      wordAt r 6 != 0#64 || wordAt r 7 != 0#64 || first % 65536 != 0 || len % 65536 != 0 || len == 0 ||
      decide (2 ^ 48 < first + len)
  else if 0xF0000 ≤ d.tid then rsv || decide (2 * quads ≤ (localPlace d.mchi d.tid).1)
  else
    rsv || field w 32 10 != 0 || d.rank == 0 || decide (5 < d.rank) || decide (10 < d.efmt) ||
      ((List.range 5).any fun i =>
        if i < d.rank then d.dims.getD i 0 == 0 else d.dims.getD i 0 != 0 || d.lts.getD i 0 != 0) ||
      decide (19 < (d.lts.take d.rank).sum + logBits d.efmt)

/-- R294, Table 19.2: the lease of a descriptor. -/
def leaseOf (r : List W64) : List Lease :=
  let d := descOf r
  if d.tid = 0 then
    let first := (wordAt r 1).toNat
    [⟨0, [first], [first + (wordAt r 2).toNat - 1], d.r, d.w⟩]
  else if 0xF0000 ≤ d.tid then []
  else
    let dims := d.dims.take d.rank
    let hi := dims.map fun x => x - 1
    [⟨d.tid, List.replicate d.rank 0, if d.ext then 0 :: hi.tail else hi, d.r, d.w⟩]

/-- R176: the graph's validation record, if it is bad. -/
def graphFail (header : W64) (nodes : List W64) (blocks : List Nat) : Option W64 :=
  let n := field header 0 11
  if field header 32 32 ≠ 0 then some (graphRecord 0x0E 0 true)
  else if n = 0 ∨ 1024 < n ∨ n ≤ field header 11 10 ∨ n ≤ field header 21 10 then some (graphRecord 0x12 0 true)
  else nodes.zipIdx.findSome? fun (w, i) => (nodeFail n blocks w).map fun r => graphRecord r i false

/-- R209: the record of a bad sequencer program, or of the program table. -/
def programFail (quads : Nat) (ps : List (Nat × List W64)) : Option W64 :=
  if ps.any (fun p => decide (2 * quads ≤ p.1)) ∨ (ps.map (·.1)).Nodup = false then some (graphRecord 0x13 0 false)
  else ps.findSome? fun p => p.2.zipIdx.findSome? fun (w, i) => (seqFail p.2.length w).map fun r => graphRecord r i false

/-- What a launch image holds. -/
structure ImageParts where
  descs : List (List W64)
  blocks : List (Nat × List W64)
  header : W64
  graph : List W64
  programs : List (Nat × List W64)
  data : List DataInit
  ntens : Nat

/-- The `.data` table: its number of entries, and for each the identifier with the byte offset, the length in bytes, and
the bytes filled up to a word (log 63). The second part says whether all of it stands in the image. -/
def State.imageData (s : State) (stop' : Nat) : Nat → Nat → List DataInit × Bool
  | 0, _ => ([], true)
  | n + 1, a =>
    let w := s.imageWord a 0
    let len := (s.imageWord a 1).toNat
    if stop' < a + 16 + len then ([], false)
    else
      let x := s.imageData stop' n (a + 16 + (len + 7) / 8 * 8)
      (⟨field w 0 20, field w 20 44, s.flat.readN (a + 16) len⟩ :: x.1, x.2)

/-- The parts of an image, or none where BAD_LAUNCH answers it (R280, R281). -/
def State.imageParts (s : State) (at' : Nat) : Option ImageParts :=
  let w (i : Nat) : W64 := s.imageWord at' i
  let len := 64 * field (w 0) 0 32
  let stop' := at' + len
  let ntens := field (w 0) 32 16
  let nblk := field (w 0) 48 16
  let nmc := field (w 4) 0 16
  let o1 := at' + (w 1).toNat
  let o2 := at' + (w 2).toNat
  let o3 := at' + (w 3).toNat
  let o4 := at' + field (w 4) 16 48
  let o5 := at' + (w 5).toNat
  if len < 64 ∨ 2 ^ 48 < stop' ∨ stop' < o1 + 64 * ntens ∨ stop' < o2 + 8 * nblk ∨ stop' < o3 + 8 ∨ stop' < o4 + 8 * nmc ∨
      stop' < o5 + 8 ∨ w 6 ≠ 0#64 ∨ w 7 ≠ 0#64 then none
  else
    let header := s.imageWord o3 0
    let nnode := if 1024 < field header 0 11 then 0 else field header 0 11
    let btab := (List.range nblk).map fun i => s.imageWord o2 i
    let ptab := (List.range nmc).map fun i => s.imageWord o4 i
    let bad := btab.any (fun x =>
        decide (stop' < at' + field x 20 44 + 8 * (field (s.imageWord (at' + field x 20 44) 0) 0 12 + 1))) ||
      ptab.any (fun x => decide (stop' < at' + field x 24 40 + 8 * field x 16 8)) || decide (stop' < o3 + 8 * (nnode + 1)) ||
      !decide (btab.map fun x => field x 0 20).Nodup
    let data := s.imageData stop' (s.imageWord o5 0).toNat (o5 + 8)
    if bad ∨ data.2 = false then none
    else some
      { descs := (List.range (min ntens 4097)).map fun i => s.imageWords (o1 + 64 * i) 8
        blocks := btab.map fun x =>
          let a := at' + field x 20 44
          (field x 0 20, s.imageWords a (field (s.imageWord a 0) 0 12 + 1))
        header := header
        graph := s.imageWords (o3 + 8) nnode
        programs := ptab.map fun x => (field x 0 16, s.imageWords (at' + field x 24 40) (field x 16 8))
        data := data.1
        ntens := ntens }

/-- R281, step 3: the status and detail of a bad image, or the team it describes. -/
def State.imageTeam (s : State) (l : LaunchRec) : (Nat × W64) ⊕ Team :=
  match s.imageParts l.image with
  | none => .inl (0x02, 0#64)
  | some p =>
    match graphFail p.header p.graph (p.blocks.map (·.1)) with
    | some r => .inl (0x03, r)
    | none =>
      match programFail l.quads p.programs with
      | some r => .inl (0x04, r)
      | none =>
        let ids := (p.descs.map fun d => (descOf d).tid).filter fun t => t != 0
        if 4096 < p.ntens ∨ p.descs.any (descBad l.quads) = true ∨ ids.Nodup = false then .inl (0x05, 0#64)
        else .inr { Team.init with
          launch := l
          phase := .waiting
          descs := ((p.descs.map descOf).filter fun d => d.tid != 0).map fun (d : Desc) =>
            { d with
              ttbase := (Config.tileTable s.time d.tid).toNat
              nlease := (p.descs.flatMap leaseOf).countP fun l => l.tid == d.tid }
          leases := p.descs.flatMap leaseOf
          blocks := p.blocks
          graph := p.header :: p.graph
          entry0 := field p.header 11 10
          entryN := field p.header 21 10
          idleN := p.header.getLsbD 31
          programs := p.programs
          data := p.data }

/-! ### Frames (R293, R294, R367) -/

/-- The translation tiles that a box of a tensor touches. -/
def tilesOf : List Nat → List Nat → List Nat → List Nat → Nat → List Nat
  | lo :: los, hi :: his, d :: ds, l :: ls, tile =>
    let T := 2 ^ l
    let G := (d + T - 1) / T
    (List.range (hi / T - lo / T + 1)).flatMap fun i => tilesOf los his ds ls (tile * G + lo / T + i)
  | _, _, _, _, tile => [tile]

/-- The tiles of a lease that no frame holds yet. -/
def Team.missingTiles (t : Team) (l : Lease) : List (Nat × Nat) :=
  match t.desc? l.tid with
  | none => []
  | some d =>
    if l.tid = 0 ∨ 0xF0000 ≤ l.tid then []
    else ((tilesOf l.lo l.hi (d.dims.take d.rank) (d.lts.take d.rank) 0).map fun x => (l.tid, x)).filter fun k =>
      (t.frames.get? k).isNone

/-- Is an HBM channel open for new frames (Table 23.1, R349)? -/
def State.channelOpen (s : State) (ch : Nat) : Bool :=
  let r := s.res .channel ch
  r.inService && !r.leased && decide (ch < Config.hbmChannels)

/-- The next n free frames from number f on. -/
def State.freeFrames (s : State) : Nat → Nat → Nat → List Nat
  | 0, _, _ => []
  | fuel + 1, n, f =>
    if n = 0 ∨ Config.hbmChannels * Config.framesPerChannel ≤ f then []
    else if s.channelOpen (f / Config.framesPerChannel) = false then
      s.freeFrames fuel n ((f / Config.framesPerChannel + 1) * Config.framesPerChannel)
    else if s.frames.contains f then s.freeFrames fuel n (f + 1)
    else f :: s.freeFrames fuel (n - 1) (f + 1)

/-- Makes the tiles of leases resident; none where there are not frames enough. -/
def State.makeResident (s : State) (ctx : Nat) (ls : List Lease) : Option State :=
  match s.team? ctx with
  | none => none
  | some t =>
    let need := (ls.flatMap t.missingTiles).eraseDups
    let got := s.freeFrames (need.length + s.frames.length + Config.hbmChannels) need.length 0
    if got.length < need.length then none
    else
      let s := { s with frames := s.frames ++ got }
      some (s.modTeam ctx fun t => { t with frames := t.frames ++ need.zip got })

/-! ### Placement (R282, R283, R366) -/

/-- Is a physical quad in service for placement: its parts in service and under no test, and not hot (R347, R349, R352)? -/
def State.quadOpen (s : State) (p : Nat) : Bool :=
  let ok (k : ResKind) (n : Nat) : Bool := let r := s.res k n; r.inService && !r.leased
  ok .core (2 * p) && ok .core (2 * p + 1) && ok .mcore (2 * p) && ok .mcore (2 * p + 1) && ok .engine (2 * p) &&
    ok .engine (2 * p + 1) && !((s.health.heat.get? p).map (·.hot)).getD false

/-- Quads in service (R281, R349). -/
def State.quadsInService (s : State) : Nat :=
  let out := (s.health.res.filter fun (x : (ResKind × Nat) × Resource) =>
    !x.2.inService && (x.1.1 == .core || x.1.1 == .mcore || x.1.1 == .engine)).map fun x => x.1.2 / 2
  Config.quads - out.eraseDups.length

/-- WBASE for a window of `size` units beside the other resident context's, if it fits (R198, R283). -/
def wbaseFor (size : Nat) (other : List (Nat × Nat)) : Option Nat :=
  match other with
  | [] => if size ≤ 8192 then some 0 else none
  | (b, n) :: _ =>
    if size ≤ b then some 0
    else
      let x := (b + n + 7) / 8 * 8
      if x + size ≤ 8192 then some x else none

/-- The logical core that a resident context has on a physical one. -/
def State.logicalAt (s : State) (ctx phys : Nat) : Option Nat :=
  match s.team? ctx with
  | some t =>
    ((List.range t.place.length).find? fun q => t.place.getD q 0 == phys / 2 && !t.evicted.contains q).map fun q => 2 * q + phys % 2
  | none => none

/-- The windows of the contexts resident on a physical memory core. -/
def State.windowsAt (s : State) (pm : Nat) : List (Nat × Nat) :=
  (s.physMOf pm).res.filterMap fun ctx =>
    (s.logicalAt ctx pm).bind fun m => (s.mcore? (ctx, m)).map fun x => (x.wbase, x.wsize)

/-- R283: can a physical quad take a context of a team? -/
def State.canTakeQuad (s : State) (ctx : Nat) (t : Team) (p : Nat) : Bool :=
  s.quadOpen p &&
    ([2 * p, 2 * p + 1].all fun x =>
      decide ((s.physOf x).res.length < 2) && decide ((s.physMOf x).res.length < 2) &&
        !(s.physOf x).res.contains ctx && (wbaseFor t.launch.wsize (s.windowsAt x)).isSome &&
        (!t.launch.ups || !(s.physOf x).res.any fun c => ((s.team? c).map (·.launch.ups)).getD false))

/-- The first n quads from p on that can take a context. -/
def State.findQuads (s : State) (ctx : Nat) (t : Team) : Nat → Nat → Nat → List Nat
  | 0, _, _ => []
  | fuel + 1, n, p =>
    if n = 0 then []
    else if s.canTakeQuad ctx t p then p :: s.findQuads ctx t fuel (n - 1) (p + 1)
    else s.findQuads ctx t fuel n (p + 1)

/-- R199, R355: the logical cores that the ports out of each quad face, fixed when the quads are first placed. -/
def crossingsOf (place : List Nat) : Assoc (Nat × Nat) Nat :=
  place.zipIdx.flatMap fun (p, q) =>
    [(2 * q, 0, 1), (2 * q, 1, 0), (2 * q + 1, 2, 0), (2 * q + 1, 3, 1)].filterMap fun (mc, port, half) =>
      match neighbour p port with
      | none => none
      | some x => (place.findIdx? fun y => y == x).map fun r => ((mc, port), 2 * r + half)

/-- R173: the blocks of the instances that run on a core are fetched into its configuration cache, by identifier, as far as
they have room. -/
def State.fetchBlocks (s : State) (k : Key) : State :=
  (((s.core? k).map (·.runs)).getD []).foldl (fun s r => (s.cacheBlock k.1 k.2 r.block).getD s) s

/-- A context takes its place on the cores of a quad: residency and windows. -/
def State.settleQuad (s : State) (ctx lq p : Nat) : State :=
  match s.team? ctx with
  | none => s
  | some t =>
    [0, 1].foldl (fun s h =>
      let x := 2 * p + h
      let wb := (wbaseFor t.launch.wsize (s.windowsAt x)).getD 0
      let s := s.modPhys x fun c => { c with res := c.res ++ [ctx] }
      let s := s.modPhysM x fun c => { c with res := c.res ++ [ctx] }
      let s := s.modCore (ctx, 2 * lq + h) fun c => { c with resident := true }
      let s := s.modMcore (ctx, 2 * lq + h) fun m => { m with resident := true, wbase := wb, moving := false }
      s.fetchBlocks (ctx, 2 * lq + h))
      (s.modTeam ctx fun t => { t with place := t.place.set lq p })

/-! ### The start of a team (R281, steps 6 and 7) -/

/-- R286: the system channel's tile. -/
def systemTile (wsize : Nat) : Tile :=
  { Tile.init with defd := true, mode := .fifo, base := wsize - 16, rows := 15, rowb := 0, fmt := .raw, system := true }

/-- Table 10.1, R175: a walker at launch. -/
def launchWalker (t : Team) (core : Nat) : Walker :=
  { Walker.init with
    pos := if core = 0 then some t.entry0 else if t.idleN then none else some t.entryN
    roleage := t.launch.roleage }

def launchCore (t : Team) (core : Nat) : CoreCtx :=
  { CoreCtx.init with
    walker := launchWalker t core
    admitN := field t.launch.admitReg 0 16
    admitW := field t.launch.admitReg 16 16 }

def launchMcore (t : Team) (mc : Nat) : MCoreCtx :=
  let prog := (t.programs.get? mc).getD []
  let m := { MCoreCtx.init with wsize := t.launch.wsize, prog := prog, stopped := prog.isEmpty }
  if mc = 0 ∧ t.launch.sys then { m with tiles := [(t.launch.sslot, systemTile t.launch.wsize)] } else m

/-- The initial contents of HBM and flat tensors (R281, step 6). -/
def State.writeData (s : State) (ctx : Nat) (ds : List DataInit) : State :=
  ds.foldl (fun s d =>
    if 0xF0000 ≤ d.tid then s
    else match s.tensor? ctx d.tid with
      | some t => s.setTensorBytes ctx t (fun _ x => x.cur) d.off (d.bytes.take (t.bytes - d.off))
      | none => s) s

/-- The initial contents of tiles that a later lease has made resident; `old` are the frames that the team held before
(R281, R293, log 63). -/
def State.writeLateData (s : State) (ctx : Nat) (old : Assoc (Nat × Nat) Nat) : State :=
  match s.team? ctx with
  | none => s
  | some t =>
    let fresh := t.frames.filter fun x => (old.get? x.1).isNone
    ((s.modTeam ctx fun t => { t with frames := fresh }).writeData ctx (t.data.filter fun d => d.tid != 0)).modTeam ctx
      fun u => { u with frames := t.frames }

/-- The team starts on the quads `ps` with every launch value in place, and is told ACCEPTED. -/
def State.startTeam (s : State) (ctx : Nat) (t : Team) (ps : List Nat) : State :=
  let n := 2 * t.launch.quads
  let t := { t with
    phase := .running, seq := s.disp.launches, place := ps, groups := ps.map fun p => p / Config.quadsPerDie
    crossing := crossingsOf ps, progress := s.time, epochAt := s.ticks }
  let s := { s with
    teams := s.teams.put ctx t
    disp := { s.disp with launches := s.disp.launches + 1 }
    cores := s.cores ++ (List.range n).map fun k => ((ctx, k), launchCore t k)
    mcores := s.mcores ++ (List.range n).map fun k => ((ctx, k), launchMcore t k) }
  let s := ps.zipIdx.foldl (fun s (p, q) => s.settleQuad ctx q p) s
  (s.writeData ctx t.data).teamStatus ctx 0x01 0 0#64

/-! ### What a team leaves behind (R284) -/

/-- R278: the launches whose status messages went to a service channel of a team that ends report to host queue 0 from now on. -/
def LaunchRec.orphan (l : LaunchRec) (sch : Option Nat) : LaunchRec :=
  if l.dk = false ∧ sch = some l.dest then { l with dk := true, dest := 0 } else l

/-- Frees everything a team holds, once its last status message is sent. -/
def State.freeTeam (s : State) (ctx : Nat) : State :=
  let held := ((s.team? ctx).map fun t => t.frames.map (·.2)).getD []
  let sch := (s.team? ctx).bind fun t => if t.launch.svc then some t.launch.sch else none
  { s with
    cores := s.cores.filter fun x => x.1.1 != ctx
    mcores := s.mcores.filter fun x => x.1.1 != ctx
    teams := (s.teams.del ctx).map fun x => (x.1, { x.2 with launch := x.2.launch.orphan sch })
    frames := s.frames.filter fun f => !held.contains f
    engines := s.engines.map fun x => (x.1, x.2.filter fun c => c.ctx != ctx)
    phys := s.phys.map fun x => (x.1, { x.2 with
      res := x.2.res.filter fun c => c != ctx
      cache := x.2.cache.filter fun e => e.ctx != ctx
      xlat := x.2.xlat.filter fun e => e.1 != ctx
      fg := if x.2.fg = some ctx then none else x.2.fg })
    physM := s.physM.map fun x => (x.1, { x.2 with res := x.2.res.filter fun c => c != ctx })
    disp := { s.disp with
      waiting := (s.disp.waiting.filter fun w => w.ctx != some ctx).map fun w => { w with launch := w.launch.orphan sch }
      restores := s.disp.restores.filter fun r => r.1 != ctx
      bounds := s.disp.bounds.filter fun b => b.1.1 != ctx }
    mgmt := { s.mgmt with windows := s.mgmt.windows.map fun x =>
      (x.1, if x.2.ctx = ctx then { x.2 with valid := false } else x.2) }
    power := { s.power with
      narrowed := s.power.narrowed.filter fun x => x.2 != some ctx
      holds := s.power.holds.filter fun x => x.2.1 != ctx } }

end Sys2Proof.Machine
end

