-- ==== Sys2Proof/Machine/Command.lean ====
section
/-! DEFINITION. Messages and commands as the package dispatcher reads them (R277, R278, Table 18.3, Table 20.3), and the
records a team leaves in its quads' rings (R305). -/

namespace Sys2Proof.Machine

/-! ### Commands on channel 0 -/

def Msg.tok (m : Msg) (i : Nat) : W64 := m.toks.getD i 0#64
def Msg.op (m : Msg) : Nat := field (m.tok 0) 0 8
def Msg.ctx (m : Msg) : Nat := field (m.tok 0) 32 6

/-- R277, R307: is the command a known one with its number of tokens and its reserved bits zero? The record of a LAUNCH is
checked later (R281). -/
def Msg.good (m : Msg) : Bool :=
  let w := m.tok 0
  let one := m.toks.length == 1
  match m.op with
  | 0x01 => m.toks.length == 8
  | 0x02 => one && field w 8 24 == 0 && field w 38 26 == 0
  | 0x03 => one && field w 8 24 == 0 && field w 38 2 == 0 && field w 47 17 == 0
  | 0x04 => m.toks.length == 2 && field w 8 24 == 0 && field w 38 10 == 0
  | 0x10 => one && field w 25 7 == 0 && field w 38 26 == 0
  | 0x11 => one && field w 25 7 == 0 && field w 38 26 == 0
  | 0x12 => one && field w 8 24 == 0 && field w 38 26 == 0
  | 0x13 => one && field w 25 7 == 0 && field w 38 26 == 0
  | 0x14 => one && field w 25 7 == 0 && field w 38 26 == 0
  | 0x15 => one && field w 58 6 == 0
  | 0x16 => one && field w 14 18 == 0 && field w 38 26 == 0
  | _ => false

def Msg.isCmd (m : Msg) (op : Nat) : Bool := m.chan == 0 && m.good && m.op == op

/-- The oldest message, if it is of the kind asked for, leaves the inbox and takes effect. -/
def State.onMsg (s : State) (p : Msg → Bool) (f : Msg → State → State) : Host.Outcome State Fault Refusal :=
  match s.disp.inbox with
  | m :: ms => if p m then .next (f m { s with disp := { s.disp with inbox := ms } }) else .next s
  | [] => .next s

/-- The answer to a command that names a team (R278): TAG and CTXID of that team, if there is one. -/
def State.answer (s : State) (m : Msg) (status : Nat) (detail : W64) : State :=
  match s.team? m.ctx with
  | some t => s.reply m.src status 0 t.launch.tag (some m.ctx) detail
  | none => s.reply m.src status 0 0 none detail

def statusAccepted : Nat := 0x01
def badTensor : Nat := 0x05
def badChannel : Nat := 0x0A
def badCmd : Nat := 0x0B

/-- UNKNOWN_COMMAND (R277): a command that is undefined or malformed. -/
def execUnknownCommand (s : State) : Host.Outcome State Fault Refusal :=
  s.onMsg (fun m => m.chan == 0 && !m.good) fun m s =>
    if m.op = 0x01 then s.reply m.src badCmd 0 (field (m.tok 0) 16 16) none 0#64
    else if (0x02 ≤ m.op ∧ m.op ≤ 0x04) ∨ (0x10 ≤ m.op ∧ m.op ≤ 0x16) then s.answer m badCmd 0#64
    else s.reply m.src badCmd 0 0 none 0#64

/-- RESERVED_CHANNEL_MESSAGE (Table 18.2). -/
def execReservedChannelMessage (s : State) : Host.Outcome State Fault Refusal :=
  s.onMsg (fun m => decide (1 ≤ m.chan ∧ m.chan ≤ 15)) fun m s => s.reply m.src badChannel 0 0 none 0#64

/-- HOST_SEND (R277, R376): a SEND of 8 to 64 bytes in multiples of 8 becomes one message, any other is answered BAD_MSG;
before READY, or while the system channel it is bound to is full (R286), it gets a receiver-not-ready NAK. -/
def execHostSend (s : State) : Host.Outcome State Fault Refusal :=
  match s.host.reqs with
  | .send q ch bs :: rs =>
    let back (s : State) (r : HostReply) : State :=
      { s with host := { s.host with reqs := rs, replies := s.host.replies ++ [r] } }
    let full := decide (16 ≤ ch) && s.channelFull ch
    if s.mgmt.ready = false ∨ s.off ∨ full = true then .next (back s .rnr)
    else
      let n := bs.length
      if n < 8 ∨ 64 < n ∨ (n % 8 != 0) = true then .next (back (s.reply (.host q) 0x09 0 0 none 0#64) .ack)
      else .next (back (s.toDisp (.host q) (ch % 256) (bytesWords (n / 8) bs)) .ack)
  | _ => .next s

/-- SETPRI (Table 18.3). -/
def execSetpri (s : State) : Host.Outcome State Fault Refusal :=
  s.onMsg (·.isCmd 0x03) fun m s =>
    match s.team? m.ctx with
    | none => s.answer m badCmd 0#64
    | some _ =>
      let p := field (m.tok 0) 40 7
      let s := s.modTeam m.ctx fun t => { t with launch := { t.launch with pri := p } }
      let again (w : Waiting) : Waiting := if w.ctx == some m.ctx then { w with launch := { w.launch with pri := p } } else w
      let s := { s with disp := { s.disp with waiting := s.disp.waiting.map again } }
      s.answer m statusAccepted 0#64

/-- R187: the tokens of BOUND commands that wait in the dispatcher go on to their channels, in order, as those have room. -/
def State.sendBounds (s : State) : List ((Nat × Nat) × W64) → State
  | [] => s
  | b :: bs =>
    let s := match s.core? b.1 with
      | some c =>
        if c.boundRoom ∧ (s.disp.bounds.any fun x => x.1 == b.1) = false then
          s.modCore b.1 fun c => c.modWalker fun w => { w with bounds := w.bounds ++ [b.2] }
        else { s with disp := { s.disp with bounds := s.disp.bounds ++ [b] } }
      | none => { s with disp := { s.disp with bounds := s.disp.bounds ++ [b] } }
    s.sendBounds bs

/-- BOUND (R277, Table 18.3, R187): the token goes to the walker of the named core of a team that holds its CTXID, and waits in
the dispatcher while the channel is full or the team not yet placed; with `here.val` = 1 the tokens that wait go on. -/
def execBound (s : State) : Host.Outcome State Fault Refusal :=
  if s.here.val = 1 then .next ({ s with disp := { s.disp with bounds := [] } }.sendBounds s.disp.bounds)
  else s.onMsg (·.isCmd 0x04) fun m s =>
    let core := field (m.tok 0) 48 16
    match s.team? m.ctx with
    | none => s.answer m badCmd 0#64
    | some t =>
      if t.cores ≤ core then s.answer m badCmd 0#64
      else (s.sendBounds [((m.ctx, core), m.tok 1)]).answer m statusAccepted 0#64

/-! ### Open records (R305) -/

/-- The records that `p` names close: their OPEN bits clear. -/
def State.closeRecords (s : State) (ctx : Nat) (p : OpenRec → Bool) : State :=
  match s.team? ctx with
  | none => s
  | some t =>
    let s := (t.recs.filter p).foldl (fun s r =>
      let a := t.quadPlace (r.index / 512) + 0x170000 + 64 * (r.index % 512) + 1
      s.setFlat a [s.flat.read a &&& 0xFB#8]) s
    s.modTeam ctx fun t => { t with recs := t.recs.filter fun r => !p r }

/-- A record of the whole team counts for each of its cores (R315). -/
def Team.hasOpen (t : Team) (mc : Bool) (core : Nat) : Bool := t.hasRec mc core || t.recs.any fun r => r.src == 3

/-- The open record of lowest team index. -/
def Team.lowestRec (t : Team) : Option OpenRec :=
  t.recs.foldl (fun b r => match b with
    | none => some r
    | some x => if r.index < x.index then some r else some x) none

end Sys2Proof.Machine
end

