-- ==== Sys2Proof/Machine/Debug.lean ====
section
/-! DEFINITION. Debugger commands (R307 to R312, R318, R319): freezing and resuming cores, views, leases and fault
records. -/

namespace Sys2Proof.Machine

/-! ### Commands -/

/-- R307: may this source debug the team? -/
def Team.mayDebug (t : Team) (src : Source) : Bool :=
  match src with
  | .host _ => true
  | .team c => !t.launch.hh && t.launch.hctx == c

/-- Runs a debugger command: it succeeds with ACCEPTED or fails with a status and a detail. -/
def State.onDebug (s : State) (op : Nat) (f : State → Team → Msg → State ⊕ (Nat × W64)) : Host.Outcome State Fault Refusal :=
  s.onMsg (·.isCmd op) fun m s =>
    match s.team? m.ctx with
    | none => s.answer m badCmd 0#64
    | some t =>
      if t.phase = .waiting ∨ t.phase = .ending ∨ t.mayDebug m.src = false then s.answer m badCmd 0#64
      else match f s t m with
        | .inl s => s.answer m statusAccepted 0#64
        | .inr (st, d) => s.answer m st d

def refused : State ⊕ (Nat × W64) := .inr (badCmd, 0#64)

/-- The cores a command names: memory core or not, and number. -/
def Team.targets (t : Team) (m : Msg) : Option (List (Bool × Nat)) :=
  let n := field (m.tok 0) 8 16
  let mc := (m.tok 0).getLsbD 24
  if n = 0xFFFF then
    (if mc then none
     else some ((List.range t.cores).map (fun c => (false, c)) ++ (List.range t.cores).map fun c => (true, c)))
  else if n < t.cores then some [(mc, n)]
  else none

def namesAll (m : Msg) : Bool := field (m.tok 0) 8 16 == 0xFFFF

def State.isFrozen (s : State) (ctx : Nat) (x : Bool × Nat) : Bool :=
  if x.1 then ((s.mcore? (ctx, x.2)).map (·.frozen)).getD false else ((s.core? (ctx, x.2)).map (·.frozen)).getD false

/-! ### FREEZE (Table 20.3) -/

/-- Freezes a core that is not frozen, with its DEBUG_STOP record and notice. -/
def State.debugStop (s : State) (ctx : Nat) (x : Bool × Nat) : State :=
  let k : Key := (ctx, x.2)
  if s.isFrozen ctx x then s
  else if x.1 then
    match s.mcore? k with
    | some m => (s.seqTrap k m.pc ⟨0x00, 0#64, 0#64⟩).freezeMcore k
    | none => s
  else
    match s.core? k with
    | some c => (s.raiseOnCore k ⟨0x00, 0#64, 0#64⟩ ⟨1, false, x.2, 0, 0, c.walker.pos.getD 0, 0#64, c.cyc, c.epoch⟩).freezeCore k
    | none => s

/-- FREEZE. -/
def execFreeze (s : State) : Host.Outcome State Fault Refusal :=
  s.onDebug 0x11 fun s t m =>
    match t.targets m with
    | none => refused
    | some xs => .inl (xs.foldl (fun s x => s.debugStop m.ctx x) s)

/-- TEARDOWN (R318): with the code of the lowest open record. -/
def execTeardown (s : State) : Host.Outcome State Fault Refusal :=
  s.onDebug 0x12 fun s t m =>
    match t.lowestRec with
    | some r => .inl (s.beginEnding m.ctx 0x08 r.code r.index)
    | none => .inl (s.beginEnding m.ctx 0x08 0 0)

/-! ### Views (R310 to R312) -/

/-- R80: a full staging chunk that its B registers accept, and which is therefore on its way. -/
def CoreCtx.chunkDue (c : CoreCtx) (col : Nat) : Bool :=
  let g := c.staged col
  g.isFull && (List.range 4).all fun m => g.rmask / 2 ^ m % 2 == 0 || (c.me ((m + 2) * 8 + col)).accepts

/-- R302: has everything a frozen context had on its way landed? Beats wait at the facing memory core. -/
def CoreCtx.landed (c : CoreCtx) : Bool :=
  (c.flights.all fun f => match f.cargo with | .beat _ _ _ _ _ => true | _ => false) &&
    (List.range 8).all fun col => !c.chunkDue col

/-- Is a core's view open, or still to be waited for? -/
def State.viewReady (s : State) (ctx : Nat) (x : Bool × Nat) : Bool :=
  x.1 || ((s.core? (ctx, x.2)).map fun c => c.landed).getD true

/-- VOPEN: an evicted core's image already stands in its place (R304). -/
def State.openView (s : State) (t : Team) (ctx : Nat) (x : Bool × Nat) : State :=
  let k : Key := (ctx, x.2)
  if x.1 then
    match s.mcore? k with
    | some m => (if m.resident then s.writeMcoreView (t.coreAt true x.2) m else s).modMcore k fun m => { m with viewOpen := true }
    | none => s
  else
    match s.core? k with
    | some c => (if c.resident then s.writeCoreView (t.coreAt false x.2) c else s).modCore k fun c => { c with viewOpen := true }
    | none => s

/-- Does a VOPEN wait for the results of the frozen core that it may open (R302, R310)? -/
def State.vopenWaits (s : State) (m : Msg) : Bool :=
  match s.team? m.ctx with
  | none => false
  | some t =>
    m.isCmd 0x13 && t.phase != .waiting && t.phase != .ending && t.mayDebug m.src && !namesAll m &&
      (match t.targets m with
        | some [x] => t.hasOpen x.1 x.2 && !s.viewReady m.ctx x
        | _ => false)

/-- VOPEN (R310, R312): the view is written once the frozen core's results have landed. -/
def execVopen (s : State) : Host.Outcome State Fault Refusal :=
  match s.disp.inbox with
  | m :: _ =>
    if s.vopenWaits m then .next s
    else s.onDebug 0x13 fun s t m =>
      match t.targets m with
      | some [x] => if namesAll m ∨ t.hasOpen x.1 x.2 = false then refused else .inl (s.openView t m.ctx x)
      | _ => refused
  | [] => .next s

/-- Reads an open view back, or the record of the slot word that fails. -/
def State.closeView (s : State) (t : Team) (ctx : Nat) (x : Bool × Nat) : State ⊕ (Nat × W64) :=
  let k : Key := (ctx, x.2)
  let a := t.coreAt x.1 x.2
  if x.1 then
    match s.mcore? k with
    | some m => .inl (if m.viewOpen then s.modMcore k fun m => { MCoreCtx.loadView s.flat a m with viewOpen := false } else s)
    | none => .inl s
  else
    match s.core? k with
    | some c =>
      if c.viewOpen = false then .inl s
      else match c.viewFail s.flat a with
        | some r => .inr (badCmd, r)
        | none => .inl (s.modCore k fun c => { CoreCtx.loadView s.flat a c with viewOpen := false })
    | none => .inl s

/-- VCLOSE (R310, R312). -/
def execVclose (s : State) : Host.Outcome State Fault Refusal :=
  s.onDebug 0x14 fun s t m =>
    match t.targets m with
    | some [x] => if namesAll m ∨ t.hasOpen x.1 x.2 = false then refused else s.closeView t m.ctx x
    | _ => refused

/-! ### RESUME (R309) -/

/-- R303: held replies of one class of an LE land in order, and do not wait for the admission window (log 106). -/
def State.landClass (s : State) (k : Key) (pos cls : Nat) : Nat → State
  | 0 => s
  | n + 1 =>
    match s.core? k with
    | none => s
    | some c =>
      match (c.le pos).reqs.find? fun r => r.cls == cls with
      | some r => (s.deliverReply k c pos r true).landClass k pos cls n
      | none => s

/-- Tokens and results that an LE holds. -/
def LE.heldTokens (x : LE) : Nat := (x.reqs.map fun r => match r.st with | .served ts => ts.length + 1 | _ => 1).sum

/-- R303: the join decrements, bound tokens and verdicts that a frozen core has held land, the oldest first; a bound token
without room goes on waiting (R187). -/
def State.landWords (s : State) (k : Key) : State :=
  let c := (s.core? k).getD CoreCtx.init
  let s := c.walker.decs.foldl (fun s _ => s.landDecrement k) s
  let s := c.walker.bounds.foldl (fun s _ => s.landBound k) s
  c.verdicts.foldl (fun s _ => s.landVerdict k) s

/-- R303, R309: everything that a frozen core has held lands before the first fire. -/
def State.landHeld (s : State) (k : Key) : State :=
  let s := [4, 8, 55, 59].foldl (fun s pos => (List.range 6).foldl (fun s cls =>
    s.landClass k pos cls (((s.core? k).map fun c => (c.le pos).heldTokens).getD 0)) s) s
  s.landWords k

/-- The resumption action of one record (Tables 10.4 and 20.4): a TRAP's fire is applied, TRAPG goes to NEXT, an access
stopped by a watchpoint is made once without them. -/
def State.resumeAction (s : State) (k : Key) (r : OpenRec) : State :=
  match s.core? k with
  | none => s
  | some c =>
    if r.code = 0x09 ∧ r.src = 0 then
      let e := c.elemD r.pos
      let w := e.slot r.slot
      if field w 30 8 = 0xE3 ∧ w.getLsbD 1 = true then
        let f := Fields.ofWord w
        fireSlot trapOp ((shapeOf 0xE3).getD .sa) (lookAt trapOp f s ⟨k, r.pos, r.slot, true, 0⟩ c e)
      else s
    else if r.code = 0x09 ∧ r.src = 1 then
      if c.walker.pos = some r.node then
        (s.modCore k fun c => c.modWalker fun w =>
          { w with pos := some (NodeFields.ofWord (s.nodeWord k.1 r.node)).nextNode, mark := .none }).progressed k.1
      else s
    else if r.code = 0x07 ∧ r.src = 0 then s.modElem k r.pos fun e => { e with noWatch := e.noWatch ++ e.watched, watched := [] }
    else s

/-- Restarts one resident core whose view is closed (R309). -/
def State.restart (s : State) (ctx : Nat) (x : Bool × Nat) : State :=
  let k : Key := (ctx, x.2)
  if x.1 then
    (s.modMcore k fun m => { m with frozen := false }).closeRecords ctx fun r => r.core == x.2 && r.src == 2
  else
    let s := (s.modCore k fun c => { c with frozen := false }).landHeld k
    let rs := ((s.team? ctx).map fun t => t.recs.filter fun r => r.core == x.2 && r.src != 2 && r.src != 3).getD []
    (rs.foldl (fun s r => s.resumeAction k r) s).closeRecords ctx fun r => r.core == x.2 && r.src != 2 && r.src != 3

/-- Is a core of a team resident? -/
def State.onCores (s : State) (ctx : Nat) (x : Bool × Nat) : Bool :=
  if x.1 then ((s.mcore? (ctx, x.2)).map (·.resident)).getD false else ((s.core? (ctx, x.2)).map (·.resident)).getD false

/-- R230: the cores of a fixed-timing team that start together, on one reference edge, enter one new epoch; a frozen core starts
none. -/
def State.newEpoch (s : State) (ctx : Nat) (xs : List (Bool × Nat)) : State :=
  let xs := xs.filter fun x => !s.isFrozen ctx x
  match s.team? ctx with
  | none => s
  | some t =>
    if t.launch.ft = false ∨ xs.isEmpty = true then s
    else
      let n := if t.epochAt = s.ticks ∧ 1 < t.epochs then t.epochs else t.epochs + 1
      let s := xs.foldl (fun s x =>
        if x.1 then s.modMcore (ctx, x.2) fun m => { m with epoch := n } else s.modCore (ctx, x.2) fun c => { c with epoch := n }) s
      s.modTeam ctx fun t => { t with epochs := n, epochAt := s.ticks }

/-- Views that a RESUME closes first: the state with them closed, or the failure of one. -/
def State.closeViews (s : State) (t : Team) (ctx : Nat) : List (Bool × Nat) → State ⊕ (Nat × W64)
  | [] => .inl s
  | x :: xs => match s.closeView t ctx x with
    | .inl s => s.closeViews t ctx xs
    | .inr e => .inr e

/-- Restarts cores together: resident ones now, evicted ones with their restore (R319). A compute core of a team that is switched
out begins its epoch with the switch-in (R230). Records of the whole team close when none of its cores is frozen any more. -/
def State.restartAll (s : State) (ctx : Nat) (xs : List (Bool × Nat)) : State :=
  let now := xs.filter (s.onCores ctx)
  let later := xs.filter fun x => !s.onCores ctx x
  let s := now.foldl (fun s x => s.restart ctx x) s
  let s := s.modTeam ctx fun t => { t with resumes := t.resumes ++ later }
  let s := s.newEpoch ctx (now.filter fun x => x.1 || ((s.team? ctx).map (·.epochOpen)).getD true)
  let still := (s.cores.any fun (p : Key × CoreCtx) => p.1.1 == ctx && p.2.frozen) ||
    s.mcores.any fun (p : Key × MCoreCtx) => p.1.1 == ctx && p.2.frozen
  if still then s else s.closeRecords ctx fun r => r.src == 3

/-- RESUME (R309). -/
def execResume (s : State) : Host.Outcome State Fault Refusal :=
  s.onDebug 0x10 fun s t m =>
    match t.targets m with
    | none => refused
    | some xs =>
      let xs := if namesAll m then xs.filter (s.isFrozen m.ctx) else xs
      if !(xs.all fun x => t.hasOpen x.1 x.2) then refused
      else match s.closeViews t m.ctx xs with
        | .inr e => .inr e
        | .inl s => .inl (s.restartAll m.ctx xs)

/-! ### LEASE and RESOLVE (R295, R297) -/

/-- The lease of a lease record, if it may extend one of the team. -/
def Team.leaseFor (t : Team) (r : List W64) : Option Lease :=
  let w := wordAt r 0
  let tid := field w 0 20
  match t.desc? tid with
  | none => none
  | some d =>
    let corner (at' : Nat) : List Nat :=
      if d.rank = 1 then [half r at' + half r (at' + 4) * 2 ^ 32] else (List.range d.rank).map fun i => half r (at' + 4 * i)
    let lo := corner 8
    let hi := corner 28
    let inside := ((lo.zip hi).zip (d.dims.take d.rank)).all fun (p : (Nat × Nat) × Nat) =>
      decide (p.1.1 ≤ p.1.2 ∧ p.1.2 < p.2)
    if field w 20 44 = 0 ∧ wordAt r 6 = 0#64 ∧ wordAt r 7 = 0#64 ∧ d.ext = true ∧ tid < 0xF0000 ∧ inside = true ∧
        t.leases.length < 256 then some ⟨tid, lo, hi, d.r, d.w⟩
    else none

/-- The dispatcher grants one more lease (R290, R295). -/
def Team.addLease (t : Team) (l : Lease) : Team :=
  { t with
    leases := t.leases ++ [l]
    descs := t.descs.map fun (d : Desc) => if d.tid = l.tid then { d with nlease := d.nlease + 1 } else d }

/-- LEASE (R295): the record at flat byte 64 × OFF extends a lease, and its tiles become resident. -/
def execLease (s : State) : Host.Outcome State Fault Refusal :=
  s.onDebug 0x15 fun s t m =>
    let off := field (m.tok 0) 8 24 + field (m.tok 0) 38 20 * 2 ^ 24
    match t.leaseFor (s.flatWords (64 * off) 8) with
    | none => .inr (badTensor, 0#64)
    | some l =>
      match s.makeResident m.ctx [l] with
      | none => .inr (badTensor, 0#64)
      | some s => .inl ((s.writeLateData m.ctx t.frames).modTeam m.ctx fun t => t.addLease l)

/-- RESOLVE (R136, R297). -/
def execResolve (s : State) : Host.Outcome State Fault Refusal :=
  s.onDebug 0x16 fun s t m =>
    let i := field (m.tok 0) 8 6
    if (t.faults.get? i).isNone then refused
    else .inl (s.modTeam m.ctx fun t => { t with faults := t.faults.adjust i fun r => { r with resolved := true } })

end Sys2Proof.Machine
end

