-- ==== Sys2Proof/Machine/Dispatcher.lean ====
section
/-! DEFINITION. The dispatcher (R281 to R288, R350, R351): keys, launches, placement, eviction and restore, the switch of
the foreground context, service teams and the system channel, the end of a team, and frame moves (R293). -/

namespace Sys2Proof.Machine

/-! ### Keys (R177, R287) -/

/-- The greater of two path lengths. -/
def longer (a b : Option Nat) : Option Nat :=
  match a, b with
  | some x, some y => some (max x y)
  | some x, none => some x
  | none, y => y

/-- R177: for each node from number i on, the RUN and RUNS nodes of the longest forward path to a HALTG. -/
def pathLengths : Nat → List W64 → List (Option Nat)
  | _, [] => []
  | i, w :: ws =>
    let rest := pathLengths (i + 1) ws
    let go (t : BitVec 10) : Option Nat := if t.toNat ≤ i then none else rest.getD (t.toNat - i - 1) none
    let n := NodeFields.ofWord w
    let kind := field w 58 6
    let best := longer (go n.next) (go n.alt)
    (if kind = 0x11 then some 0 else best.map fun x => if kind = 0x01 ∨ kind = 0x02 then x + 1 else x) :: rest

/-- R287: RPL of a core's walker. -/
def Team.rpl (t : Team) (c : CoreCtx) : Nat :=
  match c.walker.pos with
  | some p => ((pathLengths 0 t.graph.tail).getD p none).getD 0
  | none => 0

/-- The key of a core's context, field by field; an earlier launch ranks higher. -/
def Team.key (t : Team) (c : CoreCtx) : List Nat := [t.launch.pri, t.rpl c, 2 ^ 64 - t.seq]

def lexLt : List Nat → List Nat → Bool
  | x :: xs, y :: ys => decide (x < y) || (x == y && lexLt xs ys)
  | _, _ => false

def insertBy (lt : α → α → Bool) (x : α) : List α → List α
  | [] => [x]
  | y :: ys => if lt x y then x :: y :: ys else y :: insertBy lt x ys

def sortBy (lt : α → α → Bool) : List α → List α
  | [] => []
  | x :: xs => insertBy lt x (sortBy lt xs)

/-- The key of a logical quad: that of its higher context (log 65). -/
def State.quadKey (s : State) (ctx : Nat) (t : Team) (lq : Nat) : List Nat :=
  let key (n : Nat) : List Nat := ((s.core? (ctx, n)).map t.key).getD []
  let a := key (2 * lq)
  let b := key (2 * lq + 1)
  if lexLt a b then b else a

/-- Is a context of a logical quad foreground on a core of it? -/
def State.quadFore (s : State) (ctx : Nat) (t : Team) (lq : Nat) : Bool :=
  [0, 1].any fun h => (s.physOf (t.physQuad lq * 2 + h)).fg == some ctx

/-! ### Capacity changes and the system channel (R286, R350) -/

/-- Appends a row to a team's system channel, or lets it wait while the FIFO is full or its core is away (R286). -/
def State.sysRow (s : State) (ctx : Nat) (row : List W64) : State :=
  match s.team? ctx, s.mcore? (ctx, 0) with
  | some t, some m =>
    if t.launch.sys = false then s
    else if t.sysQueue.isEmpty = false ∨ m.resident = false ∨ m.shut ∨ (m.tile t.launch.sslot).ringRoom = false then
      s.modTeam ctx fun t => { t with sysQueue := t.sysQueue ++ [row] }
    else
      let bs := wordsBytes row
      s.modMcore (ctx, 0) fun m =>
        (m.append t.launch.sslot (bs ++ zeros (64 - bs.length))).1.bump t.launch.sctr 1#32
  | _, _ => s

/-- The rows that wait go to the channel as it has room. -/
def State.drainSys (s : State) (ctx : Nat) : State :=
  match s.team? ctx with
  | some t =>
    match t.sysQueue with
    | [] => s
    | row :: rows =>
      let s1 := (s.modTeam ctx fun t => { t with sysQueue := [] }).sysRow ctx row
      if ((s1.team? ctx).map fun t => t.sysQueue.isEmpty).getD true then
        s1.modTeam ctx fun t => { t with sysQueue := rows }
      else s
  | none => s

/-- Table 23.5. -/
def capRecord (kind reason lq running quads seq time : Nat) (lost : Bool) : List W64 :=
  [w64 (0x10 + kind * 2 ^ 8 + reason * 2 ^ 12 + b2n lost * 2 ^ 16 + lq * 2 ^ 32), w64 time,
    w64 (running + quads * 2 ^ 12), w64 (seq % 2 ^ 32), 0#64, 0#64, 0#64, 0#64]

/-- R350: an elastic team is told of a capacity change. -/
def State.capacity (s : State) (ctx kind reason lq : Nat) : State :=
  match s.team? ctx with
  | none => s
  | some t =>
    if t.launch.cap = false then s
    else
      let full := decide (16 ≤ t.capQueue.length)
      let r := capRecord kind reason lq (t.launch.quads - t.evicted.length) t.launch.quads t.capSeq s.time full
      (s.modTeam ctx fun t => { t with
        capQueue := (if full then t.capQueue.tail else t.capQueue) ++ [r], capSeq := t.capSeq + 1 }).sysRow ctx r

/-! ### Room (R283, R288) -/

/-- The contexts that move together with a logical quad (R288, R351): those of a fixed-timing or fixed-capacity team all
do (log 66). -/
def Team.unitOf (t : Team) (lq : Nat) : List Nat :=
  if t.launch.ft || !t.launch.cap then List.range t.launch.quads else [lq]

/-- The package as it would stand without some logical quads' contexts. -/
def State.without (s : State) (vs : List (Nat × Nat)) : State :=
  vs.foldl (fun s (ctx, lq) =>
    match s.team? ctx with
    | none => s
    | some t => [0, 1].foldl (fun s h =>
        let x := t.physQuad lq * 2 + h
        (s.modPhys x fun p => { p with res := p.res.filter fun c => c != ctx }).modPhysM x fun p =>
          { p with res := p.res.filter fun c => c != ctx }) s) s

/-- The quads that take n logical quads of a team, if there are enough. -/
def State.placesFor (s : State) (ctx : Nat) (t : Team) (n : Nat) : Option (List Nat) :=
  let ps := s.findQuads ctx t Config.quads n 0
  if ps.length = n then some ps else none

/-- Logical quads that are already leaving. -/
def State.leavingQuads (s : State) : List (Nat × Nat) := s.teams.flatMap fun (ctx, t) => t.leaving.map fun q => (ctx, q)

/-- Logical quads that may be evicted at a priority, in the order in which they go. -/
def State.victims (s : State) (pri : Nat) : List (Nat × Nat) :=
  let all := s.teams.flatMap fun (ctx, t) =>
    if t.launch.pri < pri ∧ (t.phase = Phase.running ∨ t.phase = Phase.parked) then
      ((List.range t.launch.quads).filter fun q => !t.evicted.contains q && !t.leaving.contains q).map fun q =>
        (s.quadKey ctx t q ++ [b2n (s.quadFore ctx t q)], ctx, q)
    else []
  (sortBy (fun a b => lexLt a.1 b.1) all).map fun x => (x.2.1, x.2.2)

/-- The first victims, unit by unit, without which the team finds its quads. -/
def State.enough (s : State) (ctx : Nat) (t : Team) (n : Nat) (gone : List (Nat × Nat)) :
    List (Nat × Nat) → Option (List (Nat × Nat))
  | [] => none
  | (c, q) :: vs =>
    let unit := (((s.team? c).map fun t => t.unitOf q).getD [q]).map fun x => (c, x)
    let gone := gone ++ unit.filter fun x => !gone.contains x
    if ((s.without gone).placesFor ctx t n).isSome then some gone else s.enough ctx t n gone vs

/-- R288: makes room for n logical quads of a team by letting contexts of lower priority leave. -/
def State.makeWay (s : State) (ctx : Nat) (t : Team) (n : Nat) : State :=
  let leaving := s.leavingQuads
  if ((s.without leaving).placesFor ctx t n).isSome then s
  else match s.enough ctx t n leaving (s.victims t.launch.pri) with
    | none => s
    | some gone => gone.foldl (fun s (c, q) =>
        s.modTeam c fun t => if t.leaving.contains q then t else { t with leaving := t.leaving ++ [q] }) s

/-! ### Launch (R281) -/

/-- The lowest free CTXID. -/
def State.freeCtx (s : State) : Option Nat := (List.range 64).find? fun c => (s.team? c).isNone

def State.dropWaiting (s : State) (arrival : Nat) : State :=
  { s with disp := { s.disp with waiting := s.disp.waiting.filter fun w => w.arrival != arrival } }

/-- The bytes of a team's block images. -/
def Team.imageBytes (t : Team) : Nat := (t.blocks.map fun b => 8 * b.2.length).sum

/-- Steps 4 to 7 of R281 for the team of a launch that holds a CTXID. -/
def State.launchTeam (s : State) (ctx arrival : Nat) (t : Team) : State :=
  if 256 < t.leases.length then s
  else match s.makeResident ctx t.leases with
    | none => s
    | some s1 =>
      if s1.quadsInService < t.launch.quads ∨ Config.blockImageLimit < t.imageBytes then
        ((s1.teamStatus ctx 0x06 0 0#64).freeTeam ctx).dropWaiting arrival
      else match s1.team? ctx with
        | none => s1
        | some t1 =>
          match s1.placesFor ctx t1 t1.launch.quads with
          | some ps => (s1.startTeam ctx t1 ps).dropWaiting arrival
          | none => s1.makeWay ctx t1 t1.launch.quads

/-- A launch that waits goes as far as it can (R281, steps 2 to 7). -/
def State.tryLaunch (s : State) (w : Waiting) : State :=
  match w.ctx with
  | some ctx => match s.team? ctx with
    | some t => s.launchTeam ctx w.arrival t
    | none => s
  | none =>
    match s.freeCtx with
    | none => s
    | some ctx =>
      match s.imageTeam w.launch with
      | .inl (st, d) =>
        (s.toDest w.launch w.src (statusMsg st 0 w.launch.tag (some ctx) d s.time)).dropWaiting w.arrival
      | .inr t =>
        let keep (x : Waiting) : Waiting := if x.arrival = w.arrival then { x with ctx := some ctx } else x
        let s := { s with
          teams := s.teams.put ctx t
          disp := { s.disp with waiting := s.disp.waiting.map keep } }
        s.launchTeam ctx w.arrival t

/-! ### Eviction (R173, R288, R351) -/

/-- Is a group of a run still to perform? -/
def CoreCtx.groupOpen (c : CoreCtx) (run group : Nat) : Bool := (c.run? run).any fun r => r.group == group || r.ended.contains group

/-- What an image keeps of a request: the table stands in place of its replies, so a reply that is still to be landed is
dropped and the load made again (R173, R303, R319). An atomic keeps its result, and a burst that is part delivered its
other tokens: no load returns bytes of two versions (R133, R358). A load whose group has performed keeps its value too: made
again it could return a later store of its own group (R260 case 7, R268, log 42). -/
def LReq.saved (r : LReq) (groupOpen : Bool) : LReq :=
  match r.kind, r.st with
  | .atomic, _ => r
  | .sent, _ => r
  | _, .served _ => if r.gone = 0 ∧ groupOpen then { r with st := .waiting, left := 0 } else r
  | _, _ => r

/-- A compute core's context as its image holds it: without beat buffers, and with its requests in place of their replies
(R173, R259). -/
def CoreCtx.packed (c : CoreCtx) : CoreCtx :=
  { c with
    les := c.les.map fun (x : Nat × LE) =>
      (x.1, { x.2 with beats := [], reqs := x.2.reqs.map fun r => r.saved (c.groupOpen r.run r.group) }) }

/-- R173, R268: has everything landed, every ended group committed, and is no view open? Groups of speculative runs go
with the image (R356, log 42). -/
def CoreCtx.quiet (c : CoreCtx) : Bool :=
  c.landed && c.raised.isEmpty && !c.viewOpen && c.runs.all fun r => r.reissue || (!r.closing && (r.spec || r.ended.isEmpty))

def State.quadQuiet (s : State) (ctx lq : Nat) : Bool :=
  [0, 1].all fun h =>
    ((s.core? (ctx, 2 * lq + h)).map fun c => c.quiet).getD true &&
    ((s.mcore? (ctx, 2 * lq + h)).map fun m => m.raised.isEmpty && !m.viewOpen).getD true

/-- A context leaves its physical cores. -/
def State.vacate (s : State) (ctx : Nat) (t : Team) (lq : Nat) : State :=
  [0, 1].foldl (fun s h =>
    let x := t.physQuad lq * 2 + h
    let s := s.modPhys x fun p => { p with
      res := p.res.filter fun c => c != ctx
      fg := if p.fg = some ctx then none else p.fg
      xlat := p.xlat.filter fun e => e.1 != ctx }
    s.modPhysM x fun p => { p with res := p.res.filter fun c => c != ctx }) s

/-- The images of a logical quad are saved in its place (R173, R304). -/
def State.saveQuad (s : State) (ctx : Nat) (t : Team) (lq : Nat) : State :=
  [2 * lq, 2 * lq + 1].foldl (fun s n =>
    let s := match s.core? (ctx, n) with
      | some c => ((s.writeCoreView (t.coreAt false n) c).saveUpper t n c).modCore (ctx, n) fun c =>
          { c.packed with resident := false }
      | none => s
    match s.mcore? (ctx, n) with
    | some m => (s.writeMcoreView (t.coreAt true n) m).modMcore (ctx, n) fun m => { m with resident := false }
    | none => s) s

/-- The reason of a capacity record: that of a migration asked for the quad, else the dispatch. -/
def Team.reasonOf (t : Team) (lq : Nat) : Nat := ((t.migrations.find? fun m => m.lquad == lq).map (·.reason)).getD 3

/-- Evicts one logical quad. -/
def State.evictQuad (s : State) (ctx lq : Nat) : State :=
  match s.team? ctx with
  | none => s
  | some t =>
    let reason := t.reasonOf lq
    let s := (s.saveQuad ctx t lq).vacate ctx t lq
    let s := s.modTeam ctx fun t => { t with
      evicted := t.evicted ++ [lq]
      leaving := t.leaving.filter fun q => q != lq
      migrations := t.migrations.filter fun m => m.lquad != lq
      epochOpen := false }
    let s := { s with disp := { s.disp with restores := s.disp.restores ++ [(ctx, lq)] } }
    s.capacity ctx 1 reason lq

/-- EVICTION (R173, R288): logical quad `here.idx` of team `here.ctx`, with all that moves with it, is switched out, and
once its results have landed and its ended groups have committed its images are saved. -/
def execEviction (s : State) : Host.Outcome State Fault Refusal :=
  match s.team? s.here.ctx with
  | none => .next s
  | some t =>
    let unit := (t.unitOf s.here.idx).filter fun q => decide (q < t.launch.quads) && !t.evicted.contains q
    if t.phase = .waiting ∨ t.phase = .ending then .next s
    else if !(unit.all fun q => t.leaving.contains q) then
      .next (s.modTeam s.here.ctx fun t => { t with leaving := t.leaving ++ unit.filter fun q => !t.leaving.contains q })
    else if unit.all (s.quadQuiet s.here.ctx) then .next (unit.foldl (fun s q => s.evictQuad s.here.ctx q) s)
    else .next s

/-! ### Restore (R173, R288, R319) -/

/-- Loads the images of a logical quad at its place. -/
def State.loadQuad (s : State) (ctx : Nat) (t : Team) (lq : Nat) : State :=
  [2 * lq, 2 * lq + 1].foldl (fun s n =>
    let s := match s.core? (ctx, n) with
      | some c => { s with cores := s.cores.put (ctx, n) (s.loadUpper t n (CoreCtx.loadImage s.flat (t.coreAt false n) c)) }
      | none => s
    match s.mcore? (ctx, n) with
    | some m => { s with mcores := s.mcores.put (ctx, n) (MCoreCtx.loadView s.flat (t.coreAt true n) m) }
    | none => s) s

/-- Every core of a team. -/
def Team.everyCore (t : Team) : List (Bool × Nat) :=
  (List.range t.cores).map (fun c => (false, c)) ++ (List.range t.cores).map fun c => (true, c)

/-- Restores logical quads of a team on physical ones; RESUMEs that wait for them take effect (R319). -/
def State.restoreQuads (s : State) (ctx : Nat) (lqs ps : List Nat) : State :=
  match s.team? ctx with
  | none => s
  | some t =>
    let s := (lqs.zip ps).foldl (fun s (lq, p) => ((s.loadQuad ctx t lq).settleQuad ctx lq p)) s
    let s := s.modTeam ctx fun t => { t with evicted := t.evicted.filter fun q => !lqs.contains q }
    let s := { s with disp := { s.disp with restores := s.disp.restores.filter fun r => !(r.1 == ctx && lqs.contains r.2) } }
    let ready := t.resumes.filter fun x => lqs.contains (x.2 / 2)
    let s := s.modTeam ctx fun t => { t with resumes := t.resumes.filter fun x => !lqs.contains (x.2 / 2) }
    let s := if ready.isEmpty then s else s.restartAll ctx ready
    let s := s.newEpoch ctx (t.everyCore.filter fun x => x.1)
    lqs.foldl (fun s q => s.capacity ctx 2 3 q) s

/-- Restores the unit of an evicted quad if quads can take it, or makes way for it. -/
def State.tryRestore (s : State) (ctx lq : Nat) : State :=
  match s.team? ctx with
  | none => s
  | some t =>
    if t.powerOut ∨ t.evicted.contains lq = false then s
    else
      let unit := (t.unitOf lq).filter fun q => t.evicted.contains q
      match s.placesFor ctx t unit.length with
      | some ps => s.restoreQuads ctx unit ps
      | none => s.makeWay ctx t unit.length

/-- RESTORE (R173): the evicted logical quad `here.idx` of team `here.ctx`. -/
def execRestore (s : State) : Host.Outcome State Fault Refusal :=
  match s.team? s.here.ctx with
  | none => .next s
  | some _ => .next (s.tryRestore s.here.ctx s.here.idx)

/-! ### The queue (R281, R351) -/

inductive Item where
  | restore (ctx lq : Nat)
  | launch (w : Waiting)
  deriving DecidableEq, Repr

/-- The items of the queue with their places in its order: priority, suspended quads of elastic teams (R351) before evicted teams
before launches, restores by key, launches by arrival; lower first. -/
def State.queueItems (s : State) : List (List Nat × Item) :=
  let rs := s.disp.restores.filterMap fun (ctx, lq) => (s.team? ctx).map fun t =>
    let whole := t.launch.ft || !t.launch.cap
    ([127 - t.launch.pri, b2n whole] ++ (s.quadKey ctx t lq).map (fun x => 2 ^ 65 - x) ++ [lq], Item.restore ctx lq)
  let ls := s.disp.waiting.map fun w => ([127 - w.launch.pri, 2, w.arrival], Item.launch w)
  rs ++ ls

def State.tryItem (s : State) (i : Item) : State :=
  match i with
  | .restore ctx lq => s.tryRestore ctx lq
  | .launch w => s.tryLaunch w

/-- Places every item of the queue that can be placed, in the order of the queue (R281). -/
def State.serveQueue (s : State) : State := ((sortBy (fun a b => lexLt a.1 b.1) s.queueItems).map (·.2)).foldl State.tryItem s

/-- QUEUE_PLACEMENT (R281). -/
def execQueuePlacement (s : State) : Host.Outcome State Fault Refusal := .next s.serveQueue

/-- LAUNCH (R281): the record is checked; a good one joins the queue, whose items are then placed in its order as far as they
can be. -/
def execLaunch (s : State) : Host.Outcome State Fault Refusal :=
  s.onMsg (·.isCmd 0x01) fun m s =>
    let l := launchRec m.toks
    if s.recordGood m.toks = false then
      if s.destOk l then s.toDest l m.src (statusMsg 0x02 0 l.tag none 0#64 s.time)
      else s.reply m.src 0x02 0 l.tag none 0#64
    else
      let w : Waiting := ⟨l, none, m.src, s.disp.arrivals⟩
      State.serveQueue { s with disp := { s.disp with waiting := s.disp.waiting ++ [w], arrivals := s.disp.arrivals + 1 } }

/-! ### The foreground context (R239, R287) -/

/-- R191: does a walker steal: is it IDLE, or at a JOIN with its own deque empty? -/
def Walker.steals (w : Walker) : Bool := w.pos.isNone || w.deque.isEmpty

/-- R287: is a context runnable on its core: its walker not IDLE, an entry pending or an instance issued, or stealing, as an IDLE
walker does (log 67)? A frozen one is not (R302). -/
def State.runnable (s : State) (k : Key) : Bool :=
  match s.core? k, s.team? k.1 with
  | some c, some t =>
    c.resident && !c.frozen && t.live && !t.leaving.contains (k.2 / 2) &&
      (c.walker.pos.isSome || !c.walker.pend.isEmpty || !c.runs.isEmpty || c.walker.steals)
  | _, _ => false

/-- R372: a runnable context may take its core unless the power controller holds its team out. -/
def State.placeable (s : State) (k : Key) : Bool := s.runnable k && !((s.team? k.1).map (·.powerOut)).getD false

/-- The key of a context on a physical core where it is resident. -/
def State.keyOn (s : State) (ctx pc : Nat) : Key := (ctx, (s.logicalAt ctx pc).getD 0)

def State.priOf (s : State) (ctx : Nat) : Nat := ((s.team? ctx).map (·.launch.pri)).getD 0

/-- The context of highest key among some. -/
def State.topCtx (s : State) (pc : Nat) : List Nat → Option Nat
  | [] => none
  | x :: xs =>
    let key (c : Nat) : List Nat := ((s.team? c).bind fun t => (s.core? (s.keyOn c pc)).map t.key).getD []
    match s.topCtx pc xs with
    | some y => if lexLt (key x) (key y) then some y else some x
    | none => some x

/-- R287: the context that should be foreground on a physical core from the next boundary on. -/
def State.nextFore (s : State) (pc : Nat) : Option Nat :=
  let p := s.physOf pc
  let able := p.res.filter fun c => s.runnable (s.keyOn c pc)
  let may := able.filter fun c => s.placeable (s.keyOn c pc)
  match p.fg with
  | none => s.topCtx pc may
  | some f =>
    match may.find? fun c => c != f with
    | none => some f
    | some o =>
      let yielded := ((s.core? (s.keyOn f pc)).map (·.walker.yielded)).getD false
      if s.priOf f < s.priOf o ∨ yielded ∨ able.contains f = false ∨
          (s.priOf f = s.priOf o ∧ 2 ^ 20 ≤ p.fgCycles) then some o
      else some f

/-- Sets the foreground context of a core: the old one is switched out, its beat buffers dropped (R259). -/
def State.setFore (s : State) (pc : Nat) (to' : Option Nat) : State :=
  let old := (s.physOf pc).fg
  if old = to' then s
  else
    let s := match old with
      | some f => s.modCore (s.keyOn f pc) fun c =>
          { c with les := c.les.map fun (x : Nat × LE) => (x.1, { x.2 with beats := [] }) }.modWalker fun w =>
            { w with yielded := false }
      | none => s
    s.modPhys pc fun p => { p with fg := to', fgCycles := 0 }

/-- The physical compute cores where a team is resident. -/
def State.coresOf (s : State) (ctx : Nat) : List Nat := ((s.phys.filter fun p => p.2.res.contains ctx).map (·.1))

/-- R230, R287: a fixed-timing team leaves all its cores together, and its epoch ends. -/
def State.foreOut (s : State) (ctx : Nat) : State :=
  let pcs := (s.coresOf ctx).filter fun x => (s.physOf x).fg == some ctx
  let s := pcs.foldl (fun s x =>
    s.setFore x (s.topCtx x ((s.physOf x).res.filter fun c =>
      c != ctx && !s.fixedTiming c && s.runnable (s.keyOn c x)))) s
  s.modTeam ctx fun t => { t with epochOpen := false }

/-- A fixed-timing team comes to the foreground on all its cores, if no core holds it back; interrupted, it starts a new
epoch (R230). A frozen context of it, which is not runnable (R302), takes its core only from nobody. -/
def State.foreIn (s : State) (ctx : Nat) : State :=
  match s.team? ctx with
  | none => s
  | some t =>
    let pcs := s.coresOf ctx
    let free := pcs.all fun x =>
      let f := (s.physOf x).fg
      let frozen := ((s.core? (s.keyOn ctx x)).map (·.frozen)).getD false
      if frozen then !((s.physOf x).res.any fun c => c != ctx && s.runnable (s.keyOn c x))
      else f == none || f == some ctx || s.nextFore x == some ctx || (f.map fun c => decide (s.priOf c < t.launch.pri)).getD true
    if !free || decide (pcs.length < t.cores) then s
    else
      let others := (pcs.filterMap fun x => (s.physOf x).fg).filter fun c => c != ctx && s.fixedTiming c
      let s := others.foldl (fun s c => s.foreOut c) s
      let s := pcs.foldl (fun s x => s.setFore x (some ctx)) s
      if t.epochOpen then s
      else (s.newEpoch ctx ((List.range t.cores).map fun c => (false, c))).modTeam ctx fun t => { t with epochOpen := true }

/-- CONTEXT_SWITCH (R171, R287): physical core `here.idx` gets the foreground context that the rules name. A switch of a
fixed-timing team waits for the reference edge, which `here.val` = 0 says this boundary is. -/
def execContextSwitch (s : State) : Host.Outcome State Fault Refusal :=
  let pc := s.here.idx
  let old := (s.physOf pc).fg
  let new := s.nextFore pc
  if old = new then
    .next (match old with
      | some f => s.modCore (s.keyOn f pc) fun c => c.modWalker fun w => { w with yielded := false }
      | none => s)
  else
    let fixed (c : Option Nat) : Bool := c.any s.fixedTiming
    .next (if s.here.val ≠ 0 ∧ (fixed old || fixed new) = true then s else match new with
      | none => s.setFore pc none
      | some n =>
        if s.fixedTiming n then s.foreIn n
        else
          let s := match old with
            | some f => if s.fixedTiming f then s.foreOut f else s
            | none => s
          s.setFore pc (some n))

/-! ### Service teams (R285, R286) -/

/-- R285: is a core's walker IDLE with an empty deque and join counters of 0? -/
def CoreCtx.atRest (c : CoreCtx) : Bool :=
  c.walker.pos.isNone && c.walker.deque.isEmpty && c.walker.joins.toList.all fun n => n == 0

/-- Are all walkers of a team at rest? -/
def State.allAtRest (s : State) (ctx : Nat) : Bool := (s.cores.filter fun p => p.1.1 == ctx).all fun p => p.2.atRest

/-- A parked service team starts again at ENTRY0; one whose last walker has just gone IDLE counts as parked. -/
def State.unpark (s : State) (ctx : Nat) : State :=
  match s.team? ctx with
  | none => s
  | some t =>
    if t.phase = .parked ∨ (t.phase = .running ∧ t.launch.svc ∧ s.allAtRest ctx) then
      (s.modTeam ctx fun t => { t with phase := .running, progress := s.time, watchdog := 0 }).modCore (ctx, 0) fun c =>
        c.modWalker fun w => { w with pos := some t.entry0, mark := .none }
    else s

/-- SERVICE_MESSAGE (R285, R286): a message on a service channel becomes a row of its team's system channel and restarts a
parked team; with `here.val` = 1 a waiting row of team `here.ctx` goes to the channel. -/
def execServiceMessage (s : State) : Host.Outcome State Fault Refusal :=
  if s.here.val = 1 then .next (s.drainSys s.here.ctx)
  else s.onMsg (fun m => decide (16 ≤ m.chan)) fun m s =>
    match s.serviceTeam m.chan with
    | none => s.reply m.src badChannel 0 0 none 0#64
    | some ctx => (s.sysRow ctx m.toks).unpark ctx

/-! ### The end of a team (R192, R284, R318) -/

/-- R192: is a core's walker at rest with nothing issued, queued, joined or running, and every group performed? -/
def CoreCtx.idle (c : CoreCtx) : Bool :=
  let w := c.walker
  w.pos.isNone && w.deque.isEmpty && (w.joins.toList.all fun n => n == 0) && w.tasks.isEmpty && w.pend.isEmpty &&
    w.decs.isEmpty && c.runs.isEmpty && c.buf.isEmpty

/-- Every MSND of a team has been delivered. -/
def State.allDelivered (s : State) (ctx : Nat) : Bool :=
  (s.disp.inbox.all fun m => m.src != .team ctx) && s.host.out.all fun x => x.2.1 != some ctx

/-- Does a run of an ending team keep this group: one that has ended, of a run that is not speculative (R284, R318)? -/
def Run.keeps (r : Run) (g : Nat) : Bool := !r.spec && !r.reissue && r.ended.contains g

/-- Discards groups of a run that `keep` does not name: their claims, and their entries with the undo records applied, youngest
first (R116, R201). -/
def State.dropGroups (s : State) (k : Key) (r : Run) (keep : Nat → Bool) : State :=
  let s := { s with mcores := s.mcores.map fun (p : Key × MCoreCtx) =>
    if p.1.1 = k.1 then
      (p.1, { p.2 with tiles := p.2.tiles.map fun (x : Nat × Tile) =>
        (x.1, match x.2.claim with
          | some (.block co ru g) => if co = k.2 ∧ ru = r.id ∧ keep g = false then x.2.unclaim else x.2
          | _ => x.2) })
    else p }
  let gone (b : BufEntry) : Bool := b.run == r.id && !keep b.group
  s.modCore k fun c =>
    { (c.buf.filter gone).reverse.foldl (fun c b => c.undo b.op) c with buf := c.buf.filter fun b => !gone b }

/-- The open groups of an ending team are discarded, and speculative runs with all that they hold (R284, R318). -/
def State.dropOpen (s : State) (ctx : Nat) : State :=
  (s.cores.filter fun p => p.1.1 == ctx).foldl (fun s (k, c) =>
    c.runs.foldl (fun s r =>
      let s := s.dropGroups k r r.keeps
      if r.spec ∨ r.reissue then
        (s.dropInputs k r).modCore k fun c => c.modRun r.id fun r => { r with ended := [], inputs := [] }
      else s) s) s

/-- May a stream over the die network of a frozen team still send: its row is there, and the fill it feeds is armed (R213, R302)? -/
def State.streamGoes (s : State) (ctx : Nat) (m : MCoreCtx) (x : Strm) : Bool :=
  x.dn && (x.buf.isSome || x.rowReady (m.tile x.slot)) && ((s.mcore? (ctx, x.dest)).any fun d => (d.tile x.dslot).fill.isSome)

/-- May an armed fill of a frozen team still be completed, by an engine operation or a stream (R302)? -/
def State.fillGoes (s : State) (ctx mc slot : Nat) : Bool :=
  (s.engines.any fun x => x.2.any fun c => c.ctx == ctx) ||
    s.mcores.any fun p => p.1.1 == ctx && p.2.streams.any fun x => x.dest == mc && x.dslot == slot && s.streamGoes ctx p.2 x

/-- Does nothing of a frozen team free a tile for the store of a block any more: an engine owns it, a fill that nothing feeds claims
it, or a stream into a frozen core pins its shadow? -/
def State.tileDead (s : State) (ctx mc slot : Nat) : Bool :=
  (s.mcore? (ctx, mc)).any fun m =>
    let t := m.tile slot
    let jobs := m.predicting slot || (m.cmps.any fun j => j.a == slot || j.b == slot) ||
      m.streams.any fun x => x.slot == slot && s.streamGoes ctx m x
    t.own || (t.claim == some .fill && !s.fillGoes ctx mc slot) || (t.pin t.shadow != 0 && !jobs)

/-- Can a load of a frozen team not perform any more: it waits for its LE to make it again (R136), or for a tile that nothing
publishes? -/
def State.loadDead (s : State) (ctx : Nat) (r : LReq) : Bool :=
  match r.st with
  | .served _ => false
  | .waiting => (s.tileOf ctx r.tid).any fun (mc, slot) => (s.mcore? (ctx, mc)).any fun m =>
      let t := m.tile slot
      t.own || (t.state != .ready && (t.claim.isNone || (t.claim == some .fill && !s.fillGoes ctx mc slot)))
  | _ => true

/-- Can the oldest ended group of a run of an ending team not perform any more, since no core of the team goes on? -/
def State.groupStuck (s : State) (k : Key) (c : CoreCtx) (r : Run) : Bool :=
  match r.ended with
  | [] => true
  | g :: _ =>
    (c.les.any fun x => x.2.reqs.any fun q => q.run == r.id && decide (q.group ≤ g) && s.loadDead k.1 q) ||
      (c.groupEntries r.id g).any fun b => match b.op with
        | .store tid _ _ _ => (s.tileOf k.1 tid).any fun p =>
            if b.sent then ((s.mcore? (k.1, p.1)).any fun m => (m.tile p.2).own) else s.tileDead k.1 p.1 p.2
        | _ => false

/-- R284: an ending team lets every ended group perform. Those that are left when none of them can any more, since what they wait
for is frozen with the team, go with it (log 68). -/
def State.dropStuck (s : State) (ctx : Nat) : State :=
  let mine := s.cores.filter fun p => p.1.1 == ctx
  if mine.all fun (p : Key × CoreCtx) => p.2.runs.all fun r => s.groupStuck p.1 p.2 r then
    mine.foldl (fun s (k, c) =>
      c.runs.foldl (fun s r =>
        (s.dropGroups k r fun _ => false).modCore k fun c => c.modRun r.id fun r => { r with ended := [] }) s) s
  else s

/-- The last status message of an ending team: status, trap code and detail. -/
def Team.lastWord (t : Team) : Nat × Nat × W64 :=
  match t.ending with
  | some n => (n % 256, n / 256 % 256, w64 (n / 65536))
  | none => (0x08, 0, 0#64)

/-- TEAM_COMPLETE (R192, R284, R285): a team at rest is reported COMPLETED and freed, or parked if it is a service team;
an ending team gets its last message once its committed groups have performed. -/
def execTeamComplete (s : State) : Host.Outcome State Fault Refusal :=
  match s.team? s.here.ctx with
  | none => .next s
  | some t =>
    let ctx := s.here.ctx
    let mine := s.cores.filter fun p => p.1.1 == ctx
    match t.phase with
    | .running =>
      if t.launch.svc then
        .next (if s.allAtRest ctx then s.modTeam ctx fun t => { t with phase := .parked } else s)
      else if t.evicted.isEmpty && (mine.all fun p => p.2.idle) && s.allDelivered ctx then
        .next ((s.teamStatus ctx 0x00 0 0#64).freeTeam ctx)
      else .next s
    | .ending =>
      let s := (s.dropOpen ctx).dropStuck ctx
      if (s.cores.filter fun p => p.1.1 == ctx).any fun (p : Key × CoreCtx) => p.2.runs.any fun r => !r.ended.isEmpty then .next s
      else
        let (st, code, d) := t.lastWord
        .next ((s.teamStatus ctx st code d).freeTeam ctx)
    | _ => .next s

/-- CANCEL (R278, R284): the command is reported ACCEPTED to its source, the team freezes, its open groups are discarded, and
CANCELLED follows to the team's destination (log 101); a team that is ending already goes on doing so, since only a CTXID that
is not in use gets BAD_CMD (R277). -/
def execCancel (s : State) : Host.Outcome State Fault Refusal :=
  s.onMsg (·.isCmd 0x02) fun m s =>
    match s.team? m.ctx with
    | none => s.answer m badCmd 0#64
    | some t =>
      match t.phase with
      | .waiting => ((s.answer m statusAccepted 0#64).teamStatus m.ctx 0x07 0 0#64).freeTeam m.ctx
      | .ending => s.answer m statusAccepted 0#64
      | _ => (s.answer m statusAccepted 0#64).beginEnding m.ctx 0x07 0 0

/-! ### Frames (R293) -/

/-- Copies the cells of one frame of memory to another. -/
def Memory.copyFrame (m : Memory) (src dst n : Nat) : Memory :=
  (m.filter fun c => decide (src ≤ c.1 ∧ c.1 < src + n)).foldl (fun m c => m.write (c.1 - src + dst) c.2) (m.clear dst (dst + n))

/-- FRAME_MOVE (R293, R347): frame `here.idx` is copied to a free frame, its tile-table entry rewritten, and every cached
translation of it dropped, before any access to the tile goes on. -/
def execFrameMove (s : State) : Host.Outcome State Fault Refusal :=
  let f := s.here.idx
  match s.teams.findSome? fun (ctx, t) => (t.frames.find? fun x => x.2 == f).map fun x => (ctx, x.1) with
  | none => .next s
  | some (ctx, tid, tile) =>
    match s.freeFrames (s.frames.length + Config.hbmChannels + 2) 1 0 with
    | [g] =>
      let s := { s with
        hbm := s.hbm.copyFrame (f * Config.frameBytes) (g * Config.frameBytes) Config.frameBytes
        frames := (s.frames.filter fun x => x != f) ++ [g]
        phys := s.phys.map fun (p : Nat × PhysCore) =>
          (p.1, { p.2 with xlat := p.2.xlat.filter fun x => x != (ctx, tid, tile) }) }
      .next ((s.dropTeamBeats ctx).modTeam ctx fun t => { t with frames := t.frames.put (tid, tile) g })
    | _ => .next s

end Sys2Proof.Machine
end

