-- ==== Sys2Proof/Machine/Hang.lean ====
section
/-! DEFINITION. Deadlocks and their probes (R313, R314), the hang watchdog and the stall inventory (R315, R316). -/

namespace Sys2Proof.Machine

/-! ### Awaited edges (R313) -/

/-- The awaited edge of a port-blocked element: its slot, the element it leads to, and the queue or output port. -/
structure Edge where
  slot : Nat
  target : Nat
  isPort : Bool
  qp : Nat
  deriving DecidableEq, Repr

def Edge.code (e : Edge) : Nat := 1 + e.target + 64 * (e.qp + 4 * b2n e.isPort)

/-- The slot that R313 looks at: the lowest-numbered valid one whose predicate match holds. -/
def Elem.stuckSlot (e : Elem) : Option Nat :=
  (List.range 16).find? fun i => (e.slot i).getLsbD 1 && predMatch e (Fields.ofWord (e.slot i))

/-- The queue that a slot waits for: the first queue test that fails, else the first empty operand; with whether it is
empty. -/
def Elem.queueLack (e : Elem) (opc : Nat) (sh : Shape) (f : Fields) : Option (Nat × Bool) :=
  match [(f.qa.toNat, f.ta.toNat), (f.qb.toNat, f.tb.toNat)].find? fun x => !qtest e x.1 x.2 with
  | some (q, _) => some (q, (e.queue q).isEmpty)
  | none =>
    let take := ((opOf opc).map (·.take)).getD 1
    ((queueSources sh f).find? fun q => decide ((e.queue q).length < take)).map fun q => (q, (e.queue q).isEmpty)

/-- Is a slot's destination an output port (R18, R21)? -/
def Shape.portOf (sh : Shape) (f : Fields) : Bool := (sh.d == .result || sh.d == .port) && codeIsPort f.dst.toNat

/-- The receivers of a port without a free slot, lowest position first. -/
def Port.fullAt (p : Port) : Option Recv :=
  (p.recvs.filter fun r => r.credits == 0).foldl (fun (b : Option Recv) r => match b with
    | Option.none => some r
    | some x => if r.pos < x.pos then some r else some x) Option.none

/-- R313: the element that produces a queue's tokens: over a route, or at a CE over a detour (R126, R156). -/
def CoreCtx.feeder (c : CoreCtx) (pos q : Nat) : Option Nat :=
  ((c.producers pos q).head?).map (·.1) <|> if kindAt pos = .ce then c.detourSource pos q else none

/-- R313: the awaited edge of an element, if it is port-blocked. -/
def State.awaited (s : State) (k : Key) (pos : Nat) : Option Edge :=
  match (s.core? k).bind fun c => (c.elem? pos).map fun e => (c, e) with
  | none => none
  | some (c, e) =>
    let busy := (List.range 16).any fun i => match s.slotView k pos i (e.slot i) with
      | .wait => false
      | _ => true
    if s.foreground k = false ∨ c.frozen ∨ e.halted ∨ e.run = none ∨ busy = true then none
    else match e.stuckSlot with
      | none => none
      | some i =>
        let f := Fields.ofWord (e.slot i)
        let opc := field (e.slot i) 30 8
        match shapeOf opc with
        | none => none
        | some sh =>
          match e.queueLack opc sh f with
          | some (q, true) => (c.feeder pos q).map fun x => ⟨i, x, false, q⟩
          | some (_, false) => none
          | none =>
            if sh.portOf f then
              let p := e.port (f.dst.toNat - 24)
              if p.hold.isSome then none
              else p.fullAt.map fun r => ⟨i, r.pos, true, f.dst.toNat - 24⟩
            else none

/-! ### Probes (R314) -/

def probeTurn (k : Key) (to' sender hops : Nat) : Turn := .event .probeArrival ⟨k.1, k.2, to', sender, hops⟩

/-- R314: has an element that is port-blocked in this cycle been so for the 4,096 cycles before it, or for a multiple of them? -/
def Elem.probes (e : Elem) : Bool := decide (4096 < e.blocked) && e.blocked % 4096 == 1

/-- DEADLOCK_PROBE (R314): the element at `here.pos`, port-blocked on one edge for a multiple of 4,096 cycles, sends a
probe along it. -/
def execDeadlockProbe (s : State) : Host.Outcome State Fault Refusal :=
  s.onCore fun c =>
    let e := c.elemD s.here.pos
    match s.awaited s.key s.here.pos with
    | none => s
    | some g =>
      if e.probes = false ∨ e.edge ≠ g.code then s
      else { s with turns := s.turns ++ [probeTurn s.key g.target s.here.pos 1] }

/-- The elements of a proven cycle, from one of them on. -/
def State.cycleFrom (s : State) (k : Key) (start : Nat) : Nat → Nat → List Nat
  | 0, _ => []
  | fuel + 1, p =>
    match s.awaited k p with
    | none => [p]
    | some g => if g.target = start then [p] else p :: s.cycleFrom k start fuel g.target

/-- PROBE_ARRIVAL (R314): a probe of the element `here.idx` reaches the element at `here.pos`; at a port-blocked one it goes
on, and back at its sender it proves a cycle, whose highest element is the victim. DESIGN CHOICE (log 114): a probe that has
passed 64 elements, and so runs round a cycle without its sender, is dropped. -/
def execProbeArrival (s : State) : Host.Outcome State Fault Refusal :=
  s.onCore fun c =>
    let k := s.key
    match s.awaited k s.here.pos with
    | none => s
    | some g =>
      if s.here.pos ≠ s.here.idx then
        (if s.here.val < 64 then { s with turns := s.turns ++ [probeTurn k g.target s.here.idx (s.here.val + 1)] } else s)
      else
        let cyc := s.cycleFrom k s.here.pos 64 s.here.pos
        let v := cyc.foldl max 0
        let told := ((s.team? k.1).map fun t => t.recs.any fun r => r.code == 0x08 && r.core == k.2 && cyc.contains r.pos).getD true
        match s.awaited k v with
        | some x =>
          if told ∨ c.frozen then s
          else (s.elementTrap k v x.slot ⟨0x08, w64 cyc.length, w64 (x.qp + 4 * b2n x.isPort)⟩ false).freezeCore k
        | none => s

/-! ### The stall inventory (R316) -/

/-- An entry: memory core or not, core, position, slot, WAIT and DETAIL, and the awaited party's core, position and queue
or port. -/
structure Stall where
  mc : Bool
  core : Nat
  pos : Nat
  slot : Nat
  wait : Nat
  detail : Nat
  party : Nat × Nat × Nat
  deriving DecidableEq, Repr

def Stall.words (x : Stall) : List W64 :=
  [w64 (x.core % 2 ^ 16 + b2n x.mc * 2 ^ 16 + x.pos % 64 * 2 ^ 17 + x.slot % 16 * 2 ^ 23 + x.wait % 32 * 2 ^ 27 +
      x.detail % 2 ^ 32 * 2 ^ 32),
    w64 (x.party.1 % 2 ^ 16 + x.party.2.1 % 64 * 2 ^ 16 + x.party.2.2 % 4 * 2 ^ 22)]

/-- R114, R119, R121: the scratchpad words that a slot accesses. -/
def Look.seWords (l : Look) (opc : Nat) : List Nat :=
  match opc with
  | 0xB0 | 0xB1 | 0xB5 | 0xB6 | 0xB7 => [seAddr l.i.a.data]
  | 0xB2 | 0xB3 => [(l.seOf.gen (genOf l)).addr]
  | 0xB9 => fillWords l.i.a.data
  | _ => []

/-- The WAIT of an element that waits for what the table does not list: a free value of its own among the codes (log 69). -/
def State.unlistedWait (s : State) (k : Key) (pos : Nat) : Nat := (Config.freeWord (s.free + 64 * k.2 + pos)).toNat % 12

/-- What the slot of a stalled element waits for: WAIT, DETAIL and the awaited party; a detour's party is its element and
queue. -/
def State.stallOf (s : State) (k : Key) (c : CoreCtx) (pos : Nat) (e : Elem) (i : Nat) : Nat × Nat × (Nat × Nat × Nat) :=
  let f := Fields.ofWord (e.slot i)
  let opc := field (e.slot i) 30 8
  let none' : Nat × Nat × Nat := (0, 0, 0)
  match shapeOf opc, opOf opc with
  | some sh, some o =>
    let l := lookAt o f s ⟨k, pos, i, false, 0⟩ c e
    let d := f.dst.toNat
    let port := sh.portOf f
    match e.queueLack opc sh f with
    | some (q, true) =>
      (1, q, match (c.producers pos q).head?, c.feeder pos q with
        | some x, _ => (k.2, x.1, x.2.1)
        | none, some p => (k.2, p, q)
        | none, none => none')
    | some (_, false) => (s.unlistedWait k pos, 0, none')
    | none =>
      let full := if port then (e.port (d - 24)).fullAt else none
      match full with
      | some r => (2, d - 24, (k.2, r.pos, r.q))
      | none =>
        let regs := regSources sh f ++ (if sh.d == .result && decide (d ≤ 11) then [d] else [])
        match regs.find? fun r => (e.reg r).pending with
        | some r => (4, r, none')
        | none =>
          if (updatesPred sh f || (sh.guarded && f.pu != 0#3)) && (e.pred f.pn.toNat).pending then (4, f.pn.toNat, none')
          else match (regSources sh f).find? fun r => !(e.reg r).full with
            | some r => (3, r, none')
            | none =>
              if opc = 0x45 ∨ opc = 0x46 then (5, c.busOf k.2 pos i, none')
              else if entriesReady o l = false then (6, 0, none')
              else
                let tid := at' e.cfg.tids (field (at' e.cfg.lslots i 0x10#9) 0 2) 0
                if kindAt pos = .le ∧ o.delay = 0 ∧ s.reqRoom k pos = false then (7, 0, none')
                else match (if kindAt pos = .le then s.tileOf k.1 tid else none) with
                  | some (mc, slot) =>
                    if ((s.mcore? (k.1, mc)).map fun m => (m.tile slot).own).getD false then (11, slot, none')
                    else (s.unlistedWait k pos, 0, none')
                  | none => match (l.seWords opc).find? (c.se pos).owned with
                    | some w => (11, w / 128, none')
                    | none => (s.unlistedWait k pos, 0, none')
  | _, _ => (0, 0, none')

/-- The entries of one logical core: its elements, its walker, and the sequencer of the memory core of that number. -/
def State.stallsOf (s : State) (k : Key) : List Stall :=
  match s.core? k, s.mcore? k with
  | some c, some m =>
    let elems := (List.range 64).filterMap fun pos =>
      match c.elem? pos with
      | none => none
      | some e =>
        let valid := (List.range 16).filter fun i => (e.slot i).getLsbD 1
        let ready := (List.range 16).any fun i => match s.slotView k pos i (e.slot i) with
          | .ready => true
          | _ => false
        if e.halted ∨ e.run = none ∨ valid.isEmpty = true ∨ ready = true then none
        else match e.stuckSlot with
          | none => some ⟨false, k.2, pos, valid.headD 0, 0, 0, (0, 0, 0)⟩
          | some i =>
            let (w, d, party) := s.stallOf k c pos e i
            some ⟨false, k.2, pos, i, w, d, party⟩
    let walker : List Stall := match c.walker.pos, c.cfgMiss.head? with
      | none, _ => []
      | some _, some (b, _) => [⟨false, k.2, 0, 0, 10, b, (0, 0, 0)⟩]
      | some p, none => [⟨false, k.2, 0, 0, 8, p, (0, 0, 0)⟩]
    let seq : List Stall := if m.stopped then [] else [⟨true, k.2, 0, 0, 9, m.pc, (0, 0, 0)⟩]
    elems ++ walker ++ seq
  | _, _ => []

/-- Writes the inventories of a team's quads; the second part is the number of entries. -/
def State.inventory (s : State) (ctx : Nat) (t : Team) : State × Nat :=
  (List.range t.launch.quads).foldl (fun (x : State × Nat) q =>
    let es := (s.stallsOf (ctx, 2 * q) ++ s.stallsOf (ctx, 2 * q + 1)).take 2048
    (x.1.setFlat (t.quadPlace q + 0x178000) (wordsBytes (es.flatMap Stall.words)), x.2 + es.length)) (s, 0)

/-! ### The watchdog (R315) -/

/-- Does the watchdog hold its count? -/
def State.watchHolds (s : State) (ctx : Nat) (t : Team) : Bool :=
  !t.recs.isEmpty || (List.range t.cores).any fun n => !s.foreground (ctx, n)

/-- HANG_FREEZE (R315): the watchdog of team `here.ctx` has reached 2^LGWD: the team freezes, the inventory and one record
are written, and one notice is sent; the count starts again (log 70). -/
def execHangFreeze (s : State) : Host.Outcome State Fault Refusal :=
  match s.team? s.here.ctx with
  | none => .next s
  | some t =>
    let ctx := s.here.ctx
    if (t.phase != .running && t.phase != .parked) ∨ t.watchdog < 2 ^ t.launch.wd ∨ s.watchHolds ctx t = true then .next s
    else
      let (s, n) := s.inventory ctx t
      let s := { s with
        free := s.free + 64 * t.cores + 1
        cores := s.cores.map fun (p : Key × CoreCtx) => (p.1, if p.1.1 = ctx then { p.2 with frozen := true } else p.2)
        mcores := s.mcores.map fun (p : Key × MCoreCtx) => (p.1, if p.1.1 = ctx then { p.2 with frozen := true } else p.2) }
      let s := s.modTeam ctx fun t => { t with watchdog := 0 }
      let site : RecordSite := ⟨3, false, (Config.freeWord (s.free - 1)).toNat % 2 ^ 16, 0, 0, 0, 0#64, 0#64, 0⟩
      match s.writeRecord ctx 0 ⟨0x0D, w64 n, w64 t.progress⟩ site with
      | (s, some i) => .next (s.notice ctx 0x0D i 1)
      | (s, none) => .next (s.endFull ctx true)

end Sys2Proof.Machine
end

