-- ==== Sys2Proof/Machine/Health.lean ====
section
/-! DEFINITION. The conservator (R343 to R349), uncorrectable errors (R317), thermal limits (R352), migration (R353 to R356) and the shutdown of the
package (R374). -/

namespace Sys2Proof.Machine

/-! ### Resources (Table 23.1) -/

/-- The number of resources of a kind on one die, and the die of a resource; link halves are numbered 0 to 8,191 on each die
and a port belongs to the die of its quarter of the 96 (log 71). -/
def perDie (k : ResKind) : Nat :=
  match k with
  | .core => 2 * Config.quadsPerDie
  | .mcore => 2 * Config.quadsPerDie
  | .engine => 2 * Config.quadsPerDie
  | .linkHalf => 8192
  | .port => 24
  | .channel => 96

def dieOf (k : ResKind) (n : Nat) : Nat := n / perDie k

def onQuad (k : ResKind) : Bool := k == .core || k == .mcore || k == .engine

/-! ### Asking a quad to be cleared (R347, R353) -/

/-- Asks for the migration of a logical quad, and of the whole team if it is a fixed-timing one. -/
def State.askMigration (s : State) (ctx lq reason : Nat) (forced : Bool) : State :=
  s.modTeam ctx fun t =>
    let unit := (if t.launch.ft then List.range t.launch.quads else [lq]).filter fun q => !t.evicted.contains q
    { t with migrations :=
        (t.migrations.map fun m => if unit.contains m.lquad then { m with forced := m.forced || forced } else m) ++
        ((unit.filter fun q => !t.migrations.any fun m => m.lquad == q).map fun q => ⟨q, reason, forced, [], 0⟩) }

/-- The logical quads that stand on a physical one. -/
def State.onPhysQuad (s : State) (p : Nat) : List (Nat × Nat) :=
  (s.physOf (2 * p)).res.filterMap fun ctx => (s.logicalAt ctx (2 * p)).map fun n => (ctx, n / 2)

def State.clearQuad (s : State) (p reason : Nat) (forced : Bool) : State :=
  (s.onPhysQuad p).foldl (fun s (ctx, q) => s.askMigration ctx q reason forced) s

/-! ### Withdrawal (R344, R347) -/

/-- The rank of a resource in the order of R344; lower first. -/
def State.testRank (s : State) (k : ResKind) (n : Nat) : List Nat :=
  let r := s.res k n
  let cls := if Config.testNow ≤ r.score then 0 else if r.lastTest + Config.tPeriod < s.time then 1 else 2
  [cls, 0xFFFF - r.score, r.lastTest, n % perDie k, k.code]

def allKinds : List ResKind := [.core, .mcore, .engine, .linkHalf, .port, .channel]

/-- The resource of a die that is next in line; a link's half that has failed and cannot be retired is not (log 71). -/
def State.nextTest (s : State) (die : Nat) : Option (ResKind × Nat) :=
  let all := allKinds.flatMap fun k => (List.range (perDie k)).map fun i => (k, die * perDie k + i)
  (all.foldl (fun (best : Option (List Nat × ResKind × Nat)) (x : ResKind × Nat) =>
    if (s.res x.1 x.2).inService = false ∨ s.stuckHalf x.1 x.2 = true then best
    else
      let r := s.testRank x.1 x.2
      match best with
      | none => some (r, x)
      | some b => if lexLt r b.1 then some (r, x) else best) none).map (·.2)

/-- CONSERVATOR_WITHDRAW (R344, R347): on die `here.idx`, under no test yet, the next resource gets a test lease and is
cleared: contexts migrate, frames move in the ticks to come (`State.moveTurns`), a port tells its peer and has its lane test
sent back by it (R392). -/
def execConservatorWithdraw (s : State) : Host.Outcome State Fault Refusal :=
  let die := s.here.idx
  if s.health.res.any fun x => x.2.leased && dieOf x.1.1 x.1.2 == die then .next s
  else match s.nextTest die with
    | none => .next s
    | some (k, n) =>
      let reason := if Config.retire ≤ (s.res k n).score then 1 else 0
      let s := s.lease k n
      .next (match k with
        | .port =>
          ((s.modPort n fun x => { x with wdrawn := true, tested := false }).tellPeer n).linkFlit n [w64 (3 + 4 * 2 ^ 8), w64 s.time]
        | .channel => s
        | .linkHalf => s
        | _ => s.clearQuad (n / 2) reason false)

/-- Is no work placed on a resource: is it under a test lease, or retired (R347, R349)? -/
def State.withheld (s : State) (k : ResKind) (n : Nat) : Bool := let r := s.res k n; r.leased || !r.inService

/-- R347: the frames that are still on channels that take none, to be moved as others come free. -/
def State.moveTurns (s : State) : List Turn :=
  (s.frames.filter fun f => s.withheld .channel (f / Config.framesPerChannel)).map fun f =>
    .event .frameMove { Here.zero with idx := f }

/-- Has everything left a withdrawn resource? -/
def State.cleared (s : State) (k : ResKind) (n : Nat) : Bool :=
  match k with
  | .channel => s.frames.all fun f => f / Config.framesPerChannel != n
  | .port => let x := s.fabric.port n; x.retry.isEmpty && (x.tested || !x.linked || !x.peerKnown)
  | .linkHalf => true
  | _ =>
    let p := n / 2
    ([2 * p, 2 * p + 1].all fun x => (s.physOf x).res.isEmpty && (s.physMOf x).res.isEmpty) &&
      [1, 2].all fun e => ((s.engines.get? (e, p)).getD []).isEmpty

/-! ### Results and retirement (R348, R349) -/

/-- Table 23.4. -/
def deaccession (k : ResKind) (n reason time score pattern serial : Nat) : List W64 :=
  [w64 (k.code + dieOf k n * 2 ^ 8 + n % perDie k * 2 ^ 10 + reason * 2 ^ 32), w64 time,
    w64 (score + pattern % 2 ^ 32 * 2 ^ 16), w64 serial, 0#64, 0#64, 0#64, 0#64]

/-- R350: every elastic team with a quad on a die is told that its quads in service have changed. -/
def State.tellService (s : State) (die : Nat) : State :=
  (s.teams.filter fun (_, t) => t.launch.cap && t.place.any fun p => p / Config.quadsPerDie == die).foldl
    (fun s x => s.capacity x.1 4 1 0xFFF) s

/-- R349: a resource leaves service for good. A link's second half stays, with its score at the top. -/
def State.retireRes (s : State) (k : ResKind) (n reason pattern : Nat) : State :=
  let r := s.res k n
  if k = .linkHalf ∧ (s.res .linkHalf (if n % 2 = 0 then n + 1 else n - 1)).inService = false then
    s.modRes k n fun r => { s.unlease r with score := 0xFFFF }
  else
    let before := s.quadsInService
    let serial := match s.mgmt.deaccessions.getLast? with
      | some d => (wordAt d 3).toNat + 1
      | none => 0
    let held := s.mgmt.deaccessions ++ [deaccession k n reason s.time r.score pattern serial]
    let s := { s with mgmt := { s.mgmt with deaccessions := held.drop (held.length - 1024) } }
    let s := s.modRes k n fun r => { r with inService := false, leased := false }
    match k with
    | .port => (s.modPort n fun x => { x with retired := true, wdrawn := false }).tellPeer n
    | .channel => s
    | .linkHalf => s
    | _ => if s.quadsInService = before then s else s.tellService (dieOf k n)

/-- TEST_COMPLETE (R348, R349): the run on the withdrawn and cleared resource `here.idx` of kind `here.pos` ends; `here.val`
mod 4 is its result (0 pass, 1 marginal, 2 fail), the rest the index of the first failing pattern. -/
def execTestComplete (s : State) : Host.Outcome State Fault Refusal :=
  let k := ResKind.ofCode s.here.pos
  let n := s.here.idx
  let r := s.res k n
  if r.leased = false ∨ s.cleared k n = false then .next s
  else if Config.retire ≤ r.score then .next (s.retireRes k n (if r.uncorrected then 2 else 1) 0)
  else if s.here.val % 4 = 2 then .next (s.retireRes k n 0 (s.here.val / 4))
  else
    let s := s.modRes k n fun r => { r with
      score := if s.here.val % 4 = 1 then min (r.score + 1024) 0xFFFF else r.score / 2
      lastTest := s.time }
    if Config.retire ≤ (s.res k n).score then .next (s.retireRes k n (if r.uncorrected then 2 else 1) 0)
    else
      let s := s.modRes k n s.unlease
      .next (if k = .port then (s.modPort n fun x => { x with wdrawn := false }).tellPeer n else s)

/-! ### Charges (R345, R348) -/

/-- R348: a port, channel or link half whose score has reached RETIRE is retired at once, without a test; a quad is withdrawn
first. -/
def State.retireDue (s : State) (k : ResKind) (n : Nat) : State :=
  let r := s.res k n
  if onQuad k ∨ r.inService = false ∨ r.score < Config.retire then s
  else s.retireRes k n (if r.uncorrected then 2 else 1) 0

/-- CORRECTED_ERROR (R345): the error is corrected; resource `here.idx` of kind `here.pos` is charged for event
`here.val`. -/
def execCorrectedError (s : State) : Host.Outcome State Fault Refusal :=
  let k := ResKind.ofCode s.here.pos
  .next ((s.blame k s.here.idx (scoreOf s.here.val)).retireDue k s.here.idx)

/-- LANE_FAILURE (R392): lane `here.val` of port `here.idx` fails; the other carries on at half rate. -/
def execLaneFailure (s : State) : Host.Outcome State Fault Refusal :=
  let p := s.here.idx
  let s := s.modPort p fun x =>
    { x with lanes := if x.lanes / 2 ^ (s.here.val % 2) % 2 = 1 then x.lanes - 2 ^ (s.here.val % 2) else x.lanes }
  .next (((s.blame .port p 32).tellPeer p).retireDue .port p)

/-! ### Uncorrectable errors (R317) -/

/-- The tested resource in which structure `here.pos` stands (Table 23.1). -/
def errorResource (structure' phys idx : Nat) : ResKind × Nat :=
  match structure' with
  | 5 => (.mcore, phys)
  | 6 => (.channel, idx)
  | 8 => (.linkHalf, idx)
  | _ => (.core, phys)

/-- R255: an error in an element, a bank, an SE or a commit-buffer entry of a speculative instance squashes that instance. -/
def State.dropErring (s : State) (ctx : Nat) : State :=
  let k : Key := (ctx, s.here.core)
  match s.core? k with
  | none => s
  | some c =>
    let run := if s.here.pos ≤ 2 then (c.elemD s.here.idx).run
      else if s.here.pos = 3 then (c.buf[s.here.idx]?).map (·.run) else none
    match run with
    | some r => s.squash k 64 [r]
    | none => s

/-- UNCORRECTABLE_ERROR (R317, R345): an error in structure `here.pos` of logical core `here.core` that team `here.ctx`
uses, a memory core's with `here.val` = 1; for HBM and links `here.idx` names the channel or the link half, else the element
or the commit-buffer entry. A speculative instance in which it lies is discarded first (R255). -/
def execUncorrectableError (s : State) : Host.Outcome State Fault Refusal :=
  match s.team? s.here.ctx with
  | none => .next s
  | some t =>
    let ctx := s.here.ctx
    let apart := s.here.pos == 6 || s.here.pos == 8
    let core := if apart then 0xFFFF else s.here.core
    let (kind, n) := errorResource s.here.pos (t.physCore s.here.core) s.here.idx
    let s := ((s.blame kind n 0x8000).modRes kind n fun r => { r with uncorrected := true }).retireDue kind n
    let mc := !apart && s.here.val == 1
    let info : TrapInfo := ⟨0x0C, w64 s.here.pos, w64 (core + b2n mc * 2 ^ 16)⟩
    if t.phase = .ending ∨ t.phase = .waiting then .next s
    else match (s.dropErring ctx).writeRecord ctx (if apart then 0 else quadOf core) info ⟨3, false, core, 0, 0, 0, 0#64, 0#64, 0⟩ with
      | (s, some i) => .next ((s.notice ctx 0x0C i 1).beginEnding ctx 0x08 0x0C i)
      | (s, none) => .next (s.endFull ctx true)

/-! ### Shutdown (R374) -/

/-- A 32-byte notice of which the spec gives only the code (free values, log 7). -/
def State.freeNotice (s : State) (queue code : Nat) : State :=
  let w (i : Nat) : W64 := Config.freeWord (s.free + i)
  { s.toHost queue [(w 0 &&& ~~~0xFF#64) ||| w64 code, w 1, w 2, w 3] with free := s.free + 4 }

/-- PACKAGE_SHUTDOWN (R374): every team is torn down, the cause (1 TSTOP, 2 loss of the reference) and TIME are recorded,
the notice is sent, and the compute dies and the HBM lose their power with all that they hold. Since the service teams end with
the others, every TORN_DOWN goes to a host queue (R278). -/
def State.shutDown (s : State) (cause : Nat) : State :=
  let s := { s with teams := s.teams.map fun (x : Nat × Team) => (x.1, { x.2 with phase := .ending }) }
  let s := s.teams.foldl (fun s x => s.teamStatus x.1 0x08 0 0#64) s
  let s := s.freeNotice 0 0x41
  { s with
    turns := [], off := true, cores := [], mcores := [], teams := [], phys := [], physM := [], engines := []
    disp := { s.disp with inbox := [], waiting := [], restores := [], bounds := [] }, flat := [], hbm := [], frames := []
    power := { s.power with narrowed := [], holds := [] }
    mgmt := { s.mgmt with
      shutdown := some (cause, s.time), ready := false
      windows := s.mgmt.windows.map fun (x : Nat × Window) => (x.1, { x.2 with valid := false }) } }

/-- REFERENCE_LOSS (R364). -/
def execReferenceLoss (s : State) : Host.Outcome State Fault Refusal := .next (if s.off then s else s.shutDown 2)

/-- THERMAL_SAMPLE (R352, R374): physical quad `here.idx` reads `here.val` degrees; a package that is off has no sensors. -/
def execThermalSample (s : State) : Host.Outcome State Fault Refusal :=
  let p := s.here.idx
  let t := s.here.val
  let hot := ((s.health.heat.get? p).map (·.hot)).getD false
  if s.off then .next s
  else if Config.tStop ≤ t then .next (s.shutDown 1)
  else
    let q : QuadHeat := ⟨t, decide (Config.tMig ≤ t) || (hot && decide (Config.tClear ≤ t))⟩
    let s := { s with health := { s.health with heat := s.health.heat.put p q } }
    .next (if Config.tMig ≤ t then s.clearQuad p 2 (decide (Config.tForce ≤ t)) else s)

/-! ### Migration (R353 to R356) -/

/-- MIGWAIT_EXPIRY (R353): logical quad `here.idx` has waited MIGWAIT cycles; its next fire boundary is the point. -/
def execMigwaitExpiry (s : State) : Host.Outcome State Fault Refusal :=
  match s.team? s.here.ctx with
  | none => .next s
  | some _ => .next (s.modTeam s.here.ctx fun t => { t with migrations := t.migrations.map fun m =>
      if m.lquad = s.here.idx ∧ Config.migWait ≤ m.waited then { m with forced := true } else m })

/-- Has a core reached its migration point, as it stands at the end of a cycle (R353)? -/
def State.atPoint (s : State) (k : Key) (c : CoreCtx) (m : Migration) : Bool :=
  if c.viewOpen then false
  else if c.frozen || !s.foreground k || m.forced then true
  else c.ends || (c.runs.any fun r => r.closing) ||
    (c.walker.pos.isNone && c.runs.isEmpty && c.walker.pend.isEmpty)

/-- Column and row of a quad in the package's mesh of 64 × 40 (R363). -/
def meshAt (p : Nat) : Nat × Nat :=
  let d := p / Config.quadsPerDie
  let q := p % Config.quadsPerDie
  (d % 2 * Config.quadCols + q % Config.quadCols, d / 2 * Config.quadRows + q / Config.quadCols)

def quadAtMesh (col row : Nat) : Nat :=
  (row / Config.quadRows * 2 + col / Config.quadCols) * Config.quadsPerDie + row % Config.quadRows * Config.quadCols +
    col % Config.quadCols

/-- The placement of the same shape with its first quad moved to (col, row), if it lies on the mesh. -/
def sameShape (place : List Nat) (col row : Nat) : Option (List Nat) :=
  let (c0, r0) := meshAt (place.headD 0)
  let moved := place.map fun p =>
    let (c, r) := meshAt p
    ((c + col, c0), (r + row, r0))
  if moved.all fun x => decide (x.1.2 ≤ x.1.1 ∧ x.1.1 - x.1.2 < 2 * Config.quadCols ∧ x.2.2 ≤ x.2.1 ∧
      x.2.1 - x.2.2 < 2 * Config.quadRows) then
    some (moved.map fun x => quadAtMesh (x.1.1 - x.1.2) (x.2.1 - x.2.2))
  else none

/-- Where a unit of a team can move to (R351, R354): a fixed-timing team only where all its ports keep their adjacency (R355). -/
def State.movePlaces (s : State) (ctx : Nat) (t : Team) (unit : List Nat) : Option (List Nat) :=
  if t.launch.ft then
    (List.range (Config.dies * Config.quadsPerDie)).findSome? fun i =>
      match sameShape t.place (i % (2 * Config.quadCols)) (i / (2 * Config.quadCols)) with
      | some ps => if ps.all (s.canTakeQuad ctx t) && crossingsOf ps == crossingsOf t.place then some ps else none
      | none => none
  else s.placesFor ctx t unit.length

/-- R373: on its new core a context's next issues are narrowed if issues are narrowed on that die. -/
def Power.carry (p : Power) (ctx : Nat) (pcs : List Nat) : Power :=
  let die (pc : Nat) : Nat := pc / (2 * Config.quadsPerDie)
  let new := (pcs.filter fun pc => p.narrowed.any fun x => die x.1 == die pc).map fun pc => (pc, some ctx)
  { p with narrowed := (p.narrowed ++ new).eraseDups }

/-- Moves logical quads to new physical ones: replies still to come are made again, beat buffers are dropped (R354). -/
def State.moveQuads (s : State) (ctx : Nat) (t : Team) (unit ps : List Nat) : State :=
  let s := unit.foldl (fun s q => s.vacate ctx t q) s
  let s := unit.foldl (fun s q => [2 * q, 2 * q + 1].foldl (fun s n => s.modCore (ctx, n) CoreCtx.packed) s) s
  let s := (unit.zip ps).foldl (fun s (q, p) => s.settleQuad ctx q p) s
  let s := { s with power := s.power.carry ctx (ps.flatMap fun p => [2 * p, 2 * p + 1]) }
  let s := (s.newEpoch ctx t.everyCore).modTeam ctx fun t => { t with epochOpen := true }
  let s := unit.foldl (fun s q => s.capacity ctx 3 (t.reasonOf q) q) s
  s.modTeam ctx fun t => { t with migrations := t.migrations.filter fun m => !unit.contains m.lquad }

/-- MIGRATION (R353 to R356): logical quad `here.idx` of team `here.ctx`, once its cores have reached their points and all is
landed and committed, moves to another quad; a fixed-timing team moves whole. Without a place an elastic team's quad is
suspended, and a fixed-capacity team is evicted (R351). -/
def execMigration (s : State) : Host.Outcome State Fault Refusal :=
  match s.team? s.here.ctx with
  | none => .next s
  | some t =>
    let ctx := s.here.ctx
    let unit := if t.launch.ft then List.range t.launch.quads else [s.here.idx]
    let ready := unit.all fun q => (t.migrations.any fun m =>
      m.lquad == q && m.reached.contains (2 * q) && m.reached.contains (2 * q + 1)) && s.quadQuiet ctx q
    if t.phase = .waiting ∨ t.phase = .ending ∨ ready = false then .next s
    else match s.movePlaces ctx t unit with
      | some ps => .next (s.moveQuads ctx t unit ps)
      | none => .next (s.modTeam ctx fun t =>
          { t with leaving := t.leaving ++ (unit.flatMap t.unitOf).eraseDups.filter fun q =>
              !t.leaving.contains q && !t.evicted.contains q })

end Sys2Proof.Machine
end

