-- ==== Sys2Proof/Machine/Power.lean ====
section
/-! DEFINITION. The power controller (R369 to R373, R375): estimates, the steps of the budget, and the refit of the
power model. Energies are in picojoules and exact (log 9). -/

namespace Sys2Proof.Machine

/-! ### Estimates (R369) -/

/-- The energy that counted events stand for. -/
def energyOf (ws : List Rat) (cs : List Nat) : Rat := ((ws.zip cs).map fun (x : Rat × Nat) => x.1 * (x.2 : Rat)).foldl (· + ·) 0

/-- The change of a core's physical totals in the interval. -/
def State.deltas (s : State) (pc : Nat) : List Nat :=
  let last := (s.power.lastTotals.get? pc).getD (List.replicate 24 0)
  ((s.physOf pc).totals.toList.zip last).map fun x => x.1 - x.2

def State.coreEnergy (s : State) (pc : Nat) : Rat := energyOf s.power.weights (s.deltas pc)

/-- The package estimate in watts: the sum of the dies' estimates. -/
def State.estimate (s : State) : Rat :=
  (s.phys.map fun x => s.coreEnergy x.1).foldl (· + ·) 0 / 100000000 + s.power.static / 1000000000000

/-! ### Steps (R371, R372) -/

/-- The cores whose estimate is the highest among those with an elastic context (log 73). -/
def State.hottest (s : State) : List Nat :=
  let able := (s.phys.filter fun x => x.2.res.any fun c => !s.fixedTiming c).map fun x => (x.1, s.coreEnergy x.1)
  let top := able.foldl (fun m x => if m < x.2 then x.2 else m) 0
  (able.filter fun x => x.2 == top).map (·.1)

/-- The blocks of a team that have a narrower variant. -/
def Team.wideBlocks (t : Team) : List Nat :=
  (t.blocks.filter fun b => decide (1 < (parseBlock b.2).variants.length)).map (·.1)

/-- Step 1: issues are narrowed on the hottest cores, where new ones wait for the open groups of the running instances of blocks
that have a narrower variant. -/
def State.narrow (s : State) : State :=
  let cores := s.hottest
  let holds := cores.flatMap fun pc => ((s.physOf pc).res.filter fun c => !s.fixedTiming c).flatMap fun ctx =>
    let k := s.keyOn ctx pc
    let wide := ((s.team? ctx).map Team.wideBlocks).getD []
    (((s.core? k).map (·.runs)).getD []).filterMap fun r =>
      if wide.contains r.block ∧ r.complete = false then some (pc, k.1, k.2, r.id, r.group) else none
  { s with power := { s.power with narrowed := cores.map fun pc => (pc, none), holds := holds } }

/-- The running fixed-timing team of lowest priority, the latest launch among equals. -/
def State.lowestFixed (s : State) : Option Nat :=
  let ts := s.teams.filter fun (_, t) => t.launch.ft && t.live && !t.powerOut
  ((sortBy (fun (a b : List Nat × Nat) => lexLt a.1 b.1)
    (ts.map fun (c, t) => ([t.launch.pri, 2 ^ 64 - t.seq], c))).head?).map (·.2)

/-- One interval over the budget. -/
def State.powerUp (s : State) : State :=
  let p := s.power
  match p.step with
  | 0 => { s.narrow with power := { s.narrow.power with step := 1, unders := 0, overs := 0 } }
  | 1 => { s with power := { p with step := 2, smin := 4, unders := 0, overs := 0 } }
  | 2 => { s with power := { p with step := 3, unders := 0, overs := 0 } }
  | _ =>
    let s := { s with power := { p with unders := 0, overs := p.overs + 1 } }
    if p.overs + 1 < 10 ∨ p.ftout then s
    else match s.lowestFixed with
      | none => s
      | some ctx =>
        let s := { s.foreOut ctx with power := { s.power with ftout := true, overs := 0 } }
        s.modTeam ctx fun t => { t with powerOut := true }

/-- Ten intervals below 0.9 of the budget undo the last thing done. -/
def State.powerDown (s : State) : State :=
  let p := s.power
  if p.unders + 1 < 10 then { s with power := { p with overs := 0, unders := p.unders + 1 } }
  else if p.ftout then
    { s with
      power := { p with ftout := false, overs := 0, unders := 0 }
      teams := s.teams.map fun (x : Nat × Team) => (x.1, { x.2 with powerOut := false }) }
  else
    let p := { p with overs := 0, unders := 0 }
    match p.step with
    | 3 => { s with power := { p with step := 2 } }
    | 2 => { s with power := { p with step := 1, smin := 0 } }
    | 1 => { s with power := { p with step := 0, narrowed := [], holds := [] } }
    | _ => { s with power := p }

/-- POWER_INTERVAL (R369, R371, R372): a new budget takes effect, the estimate is formed, and a step is taken or undone. -/
def execPowerInterval (s : State) : Host.Outcome State Fault Refusal :=
  let s := { s with power := { s.power with budget := s.power.pending.getD s.power.budget, pending := none } }
  let est := s.estimate
  let b : Rat := s.power.budget
  let s' := if b < est then s.powerUp
    else if est < b * 9 / 10 then s.powerDown
    else { s with power := { s.power with overs := 0, unders := 0 } }
  .next { s' with power := { s'.power with
    pest := min est.floor.toNat 8191
    lastTotals := s.phys.map fun x => (x.1, x.2.totals.toList) } }

/-! ### The weight registers (R375) -/

/-- An exact value in the FP32 format (R38), to nearest with ties to even (log 9). -/
def fp32Of (q : Rat) : W32 :=
  let n := q.num.natAbs
  let d := q.den
  let up (e : Int) : Nat := 2 ^ e.toNat
  let e0 : Int := (n.log2 : Int) - (d.log2 : Int)
  let e : Int := max (-126) (if d * up e0 ≤ n * up (-e0) then e0 else e0 - 1)
  let den := d * up (e - 23)
  let m := n * up (23 - e) / den
  let r := n * up (23 - e) % den
  let m := if den < 2 * r ∨ (2 * r = den ∧ m % 2 = 1) then m + 1 else m
  if q = 0 then 0#32 else w32 (min ((e + 126).toNat * 2 ^ 23 + m) 0x7F800000 + if q < 0 then 2 ^ 31 else 0)

/-! ### The refit (R370) -/

def dot (a b : List Rat) : Rat := ((a.zip b).map fun x => x.1 * x.2).foldl (· + ·) 0

def lambda : Rat := 998 / 1000

/-- 10⁶ · I, of 25 rows. -/
def rlsStart : List (List Rat) :=
  (List.range 25).map fun i => (List.range 25).map fun j => if i = j then 1000000 else 0

def clampWeight (i : Nat) (w : Rat) : Rat := max (Config.weightMin i) (min w (Config.weightMax i))

/-- `rls_update` of R370: the new weights and the new P. -/
def rlsUpdate (w : List Rat) (P : List (List Rat)) (phi : List Rat) (y : Rat) : List Rat × List (List Rat) :=
  let e := y - dot w phi
  let Pphi := P.map fun row => dot row phi
  let den := lambda + dot phi Pphi
  let g := Pphi.map fun x => x / den
  let phiP := (List.range 25).map fun j => dot phi (P.map fun row => row.getD j 0)
  (((w.zip g).zipIdx.map fun (x : (Rat × Rat) × Nat) => clampWeight x.2 (x.1.1 + x.1.2 * e)),
    (P.zip g).map fun (x : List Rat × Rat) => (x.1.zip phiP).map fun (z : Rat × Rat) => (z.1 - x.2 * z.2) / lambda)

/-- The package's physical totals. -/
def State.packageTotals (s : State) : List Nat :=
  (List.range 24).map fun i => (s.phys.map fun x => at' x.2.totals i 0).sum

/-- RLS_UPDATE (R370): a second ends with the shunt energy `here.val` in picojoules, if `here.idx` = 1 says that the
reading is there and in range. -/
def execRlsUpdate (s : State) : Host.Outcome State Fault Refusal :=
  let now := s.packageTotals
  let phi : List Rat := ((now.zip s.power.secondTotals).map fun x => ((x.1 - x.2 : Nat) : Rat)) ++ [1]
  let p := { s.power with secondTotals := now }
  if s.here.idx ≠ 1 then .next { s with power := p }
  else
    let (w, P) := rlsUpdate (p.weights ++ [p.static]) p.p phi s.here.val
    .next { s with power := { p with
      weights := w.take 24, static := w.getD 24 0, p := P, pmeas := min (s.here.val / 1000000000000) 8191 } }

/-- PBUDGET_WRITE (R375): the host writes PBUDGET, clamped to 1,000 to 4,800; it takes effect at the next interval. -/
def execPbudgetWrite (s : State) : Host.Outcome State Fault Refusal :=
  match s.host.reqs with
  | .write 1 0 bs :: rs =>
    if bs.length ≠ 8 ∨ s.mgmt.stage = 0 then .next s
    else .next { s with
      power := { s.power with pending := some (max 1000 (min 4800 (field (bytesWord bs) 0 13))) }
      host := { s.host with reqs := rs, replies := s.host.replies ++ [.ack] } }
  | _ => .next s

end Sys2Proof.Machine
end

