-- ==== Sys2Proof/Machine/HostLink.lean ====
section
/-! DEFINITION. The host link (R376 to R382): tensor windows, the register window, host message queues, boot and
attestation. -/

namespace Sys2Proof.Machine

/-- The oldest request is answered. -/
def State.answerHost (s : State) (r : HostReply) : State :=
  { s with host := { s.host with reqs := s.host.reqs.tail, replies := s.host.replies ++ [r] } }

/-! ### Tensor windows (R377) -/

def Mgmt.window (m : Mgmt) (n : Nat) : Window := (m.windows.get? n).getD ⟨false, false, 0, 0, 0, 0⟩

/-- R281, R294: does a team hold its leases: has a launch that waits passed step 4? -/
def Team.leasesHeld (t : Team) : Bool := decide (t.leases.length ≤ 256) && t.leases.all fun l => (t.missingTiles l).isEmpty

/-- The tensor bytes that an access to a window names: context, tensor and first byte, if it passes the checks. -/
def State.windowRange (s : State) (n off len : Nat) (write : Bool) : Option (Nat × Tensor × Nat) :=
  let w := s.mgmt.window n
  if w.valid = false ∨ (write && !w.w) = true ∨ w.len < off + len then none
  else match s.team? w.ctx with
    | none => none
    | some t =>
      if t.phase = .waiting ∧ t.leasesHeld = false then none
      else (s.rangeOk w.ctx w.tid (w.base + off) len (if write then .store else .load)).map fun x => (w.ctx, x, w.base + off)

/-- The beat buffers of every context are dropped, as an LE may at any time (R259, log 98). -/
def State.dropAllBeats (s : State) : State := s.teams.foldl (fun s x => s.dropTeamBeats x.1) s

/-- RDMA_WRITE (R376, R377): to a tensor window; a bad key or range is NAKed. Loads that perform after the acknowledgement see the
write (R263). A launch image goes to flat memory (log 72). Before READY nothing is answered. -/
def execRdmaWrite (s : State) : Host.Outcome State Fault Refusal :=
  match s.host.reqs with
  | .image off bs :: _ =>
    if s.mgmt.ready = false then .next { s with host := { s.host with reqs := s.host.reqs.tail } }
    else .next ((if off + bs.length ≤ 2 ^ 48 then s.setFlat off bs else s).answerHost .ack)
  | .write rkey off bs :: _ =>
    if rkey = 1 then .next s
    else if s.mgmt.ready = false then .next { s with host := { s.host with reqs := s.host.reqs.tail } }
    else if rkey < 16 ∨ 79 < rkey then .next (s.answerHost (.nak .other))
    else match s.windowRange (rkey - 16) off bs.length true with
      | none => .next (s.answerHost (.nak .access))
      | some (ctx, t, a) => .next (((s.setTensorBytes ctx t (fun _ x => x.cur) a bs).dropAllBeats).answerHost .ack)
  | _ => .next s

/-! ### Registers (Tables 25.3, 26.1, 27.3) -/

/-- A word of a list of bytes that stands at `base`. -/
def bytesAt (bs : List Byte) (i : Nat) : W64 := bytesWord ((bs.drop (8 * i)).take 8)

/-- TQMAX and TQAVG of a die (Table 25.3). -/
def State.dieHeat (s : State) (d : Nat) : W64 :=
  let xs := (s.health.heat.filter fun x => x.1 / Config.quadsPerDie == d).map fun x => x.2.celsius
  w64 (xs.foldl max 0 % 256 + xs.sum / max 1 xs.length % 256 * 2 ^ 8)

def FPort.statusReg (x : FPort) : W64 :=
  w64 (b2n x.en + b2n x.dl * 2 + (if x.retired then 0 else x.lanes % 4) * 4 + b2n x.wdrawn * 16 + b2n x.retired * 32 + x.peerPort % 128 * 2 ^ 6 +
    x.peerPkg % 2 ^ 14 * 2 ^ 13)

def FPort.countReg (x : FPort) : W64 :=
  w64 (min x.retries (2 ^ 32 - 1) + min x.resync 0xFFFF * 2 ^ 32 + min x.drops 0xFFFF * 2 ^ 48)

/-- The CERT register's bytes. -/
def certBytes : List Byte := (List.range 4096).map Config.certByte

/-- The value of a register by its offset; an offset of no register reads 0 (R9), and a write-only one a free value
(log 74). -/
def State.readReg (s : State) (a : Nat) : W64 :=
  let m := s.mgmt
  let p := s.power
  let f := s.fabric
  if a = 0x000 then w64 (p.pending.getD p.budget)
  else if a = 0x008 then w64 (p.pest + p.pmeas * 2 ^ 13)
  else if a = 0x010 then w64 (p.step + p.smin * 4 + b2n p.ftout * 32)
  else if 0x018 ≤ a ∧ a < 0x038 then s.dieHeat ((a - 0x018) / 8)
  else if 0x040 ≤ a ∧ a < 0x100 then (fp32Of (p.weights.getD ((a - 0x040) / 8) 0)).setWidth 64
  else if a = 0x100 then (fp32Of (p.static / 1000000000000)).setWidth 64
  else if a = 0x800 then w64 (m.stage + b2n m.ready * 8 + m.fail * 16)
  else if a = 0x808 then Config.serial
  else if 0x1000 ≤ a ∧ a < 0x1800 then
    let w := m.window ((a - 0x1000) / 32)
    match (a - 0x1000) % 32 with
    | 0 => w64 (b2n w.valid + b2n w.w * 2 + w.ctx * 4 + w.tid * 2 ^ 8)
    | 8 => w64 w.base
    | 16 => w64 w.len
    | _ => 0#64
  else if 0x2008 ≤ a ∧ a < 0x2800 then (m.hqmap.get? ((a - 0x2000) / 8)).getD 0#64
  else if 0x2800 ≤ a ∧ a < 0x2820 then at' m.hq0 ((a - 0x2800) / 8) 0#64
  else if a = 0x2820 then m.hqdrop.setWidth 64
  else if 0x3000 ≤ a ∧ a < 0x3100 then bytesAt (at' m.mr ((a - 0x3000) / 32) []) ((a - 0x3000) % 32 / 8)
  else if (0x3100 ≤ a ∧ a < 0x3120) ∨ a = 0x3120 ∨ a = 0x3220 then Config.freeWord s.free
  else if 0x3200 ≤ a ∧ a < 0x3220 then bytesAt m.nonce ((a - 0x3200) / 8)
  else if a = 0x3228 then w64 (b2n m.busy + b2n m.done * 2 + b2n m.dropped * 4)
  else if 0x3400 ≤ a ∧ a < 0x3700 then bytesAt m.report ((a - 0x3400) / 8)
  else if a = 0x4000 then w64 Config.certLen.val
  else if 0x4008 ≤ a ∧ a < 0x5008 then bytesAt certBytes ((a - 0x4008) / 8)
  else if a = 0x6000 then w64 m.deaccessions.length
  else if 0x8000 ≤ a ∧ a < 0x18000 then wordAt (m.deaccessions.getD ((a - 0x8000) / 64) []) ((a - 0x8000) % 64 / 8)
  else if a = 0x18000 then w64 f.pkgid
  else if a = 0x18008 then w64 (b2n f.syncRoot + f.syncPort * 2)
  else if 0x18100 ≤ a ∧ a < 0x18400 then (f.port ((a - 0x18100) / 8)).statusReg
  else if 0x18400 ≤ a ∧ a < 0x18700 then (f.port ((a - 0x18400) / 8)).countReg
  else if 0x20000 ≤ a ∧ a < 0x40000 then
    match f.routes.get? ((a - 0x20000) / 8) with
    | some r => w64 (r.port + b2n r.valid * 2 ^ 7 + r.esc * 2 ^ 8 + b2n r.evalid * 2 ^ 15)
    | none => 0#64
  else if 0x40000 ≤ a ∧ a < 0xC0000 then
    match f.groups.get? ((a - 0x40000) / 8) with
    | some g => w64 (b2n g.valid + g.n * 2 ^ 16 + g.rank * 2 ^ 32 + g.root * 2 ^ 48)
    | none => 0#64
  else 0#64

/-- RDMA_READ (R377, R379): of a register, or of committed data through a tensor window. -/
def execRdmaRead (s : State) : Host.Outcome State Fault Refusal :=
  match s.host.reqs with
  | .read rkey off len :: _ =>
    let none' : State := { s with host := { s.host with reqs := s.host.reqs.tail } }
    if rkey = 1 then
      (if s.mgmt.stage = 0 then .next none'
       else if len ≠ 8 ∨ (off % 8 != 0) = true then .next (s.answerHost (.nak .other))
       else .next { s.answerHost (.data (wordBytes (s.readReg off))) with free := s.free + 1 })
    else if s.mgmt.ready = false then .next none'
    else if rkey < 16 ∨ 79 < rkey then .next (s.answerHost (.nak .other))
    else match s.windowRange (rkey - 16) off len false with
      | none => .next (s.answerHost (.nak .access))
      | some (ctx, t, a) => .next (s.answerHost (.data (s.tensorBytes ctx t a len)))
  | _ => .next s

/-- REFUSED_REQUEST (R376): a RoCEv2 atomic or an unreliable transport is NAKed. -/
def execRefusedRequest (s : State) : Host.Outcome State Fault Refusal :=
  match s.host.reqs with
  | .refused :: _ => .next (s.answerHost (.nak .invalid))
  | _ => .next s

/-- What a register write is for: the offsets with a step of their own, or the rest (R379). -/
inductive RegKind where
  | budget | window | extend | nonce | attreq | plain
  deriving DecidableEq, Repr

def regKind (a : Nat) : RegKind :=
  if a = 0x000 then .budget
  else if 0x1000 ≤ a ∧ a < 0x1800 then .window
  else if a = 0x3120 then .extend
  else if 0x3200 ≤ a ∧ a < 0x3220 then .nonce
  else if a = 0x3220 then .attreq
  else .plain

/-- A write to the register window of one kind: an aligned word, once stage 1 has opened the window. -/
def State.onReg (s : State) (k : RegKind) (f : State → Nat → W64 → State) : Host.Outcome State Fault Refusal :=
  match s.host.reqs with
  | .write 1 off bs :: _ =>
    if regKind off ≠ k ∨ bs.length ≠ 8 ∨ (off % 8 != 0) = true ∨ s.mgmt.stage = 0 then .next s
    else .next ((f s off (bytesWord bs)).answerHost .ack)
  | _ => .next s

/-- WINDOW_DESCRIPTOR_WRITE (R377): a team-local TID clears VALID. -/
def execWindowDescriptorWrite (s : State) : Host.Outcome State Fault Refusal :=
  s.onReg .window fun s off v =>
    let n := (off - 0x1000) / 32
    let w := s.mgmt.window n
    let new : Window := match (off - 0x1000) % 32 with
      | 0 =>
        let tid := field v 8 20
        { w with valid := v.getLsbD 0 && decide (tid < 0xF0000), w := v.getLsbD 1, ctx := field v 2 6, tid := tid }
      | 8 => { w with base := field v 0 48 }
      | 16 => { w with len := field v 0 48 }
      | _ => w
    { s with mgmt := { s.mgmt with windows := s.mgmt.windows.put n new } }

/-- Replaces one word of a list of bytes. -/
def setWord (bs : List Byte) (i : Nat) (v : W64) : List Byte := bs.take (8 * i) ++ wordBytes v ++ bs.drop (8 * i + 8)

/-- A write to a register without behaviour of its own (Tables 26.1, 27.3). -/
def State.writeReg (s : State) (a : Nat) (v : W64) : State :=
  let m := s.mgmt
  if 0x2008 ≤ a ∧ a < 0x2800 then
    { s with mgmt := { m with hqmap := m.hqmap.put ((a - 0x2000) / 8) (v &&& 0x7FFFFFF#64) } }
  else if 0x2800 ≤ a ∧ a < 0x2820 then
    { s with mgmt := { m with hq0 := upd m.hq0 ((a - 0x2800) / 8) (v &&& 0x1FFFFFF#64) } }
  else if 0x3100 ≤ a ∧ a < 0x3120 then { s with mgmt := { m with extdata := setWord m.extdata ((a - 0x3100) / 8) v } }
  else if a = 0x18000 then s.modFabric fun f =>
    { f with pkgid := field v 0 14, ports := f.ports.map fun x => (x.1, { x.2 with told := 4096 }) }
  else if a = 0x18008 then s.modFabric fun f => { f with syncRoot := v.getLsbD 0, syncPort := field v 1 7, delay := none }
  else if 0x18100 ≤ a ∧ a < 0x18400 then
    let p := (a - 0x18100) / 8
    let was := (s.fabric.port p).en
    let s := s.modPort p fun x => { x with en := v.getLsbD 0, dl := v.getLsbD 1 }
    if (s.fabric.port p).linked ∧ was ≠ v.getLsbD 0 then s.tellPeer p else s
  else if 0x20000 ≤ a ∧ a < 0x40000 then
    let r : RouteEnt := ⟨field v 0 7, v.getLsbD 7, field v 8 7, v.getLsbD 15⟩
    s.modFabric fun f => { f with routes := f.routes.put ((a - 0x20000) / 8) r }
  else if 0x40000 ≤ a ∧ a < 0xC0000 then
    let g : GroupEnt := ⟨v.getLsbD 0, field v 16 16, field v 32 16, field v 48 14⟩
    s.modFabric fun f => { f with groups := f.groups.put ((a - 0x40000) / 8) g }
  else s

/-- REGISTER_WRITE (R379): any access to the register window but an aligned word is NAKed; read-only fields ignore it. -/
def execRegisterWrite (s : State) : Host.Outcome State Fault Refusal :=
  match s.host.reqs with
  | .write 1 off bs :: _ =>
    if s.mgmt.stage = 0 then .next { s with host := { s.host with reqs := s.host.reqs.tail } }
    else if bs.length ≠ 8 ∨ (off % 8 != 0) = true then .next (s.answerHost (.nak .other))
    else s.onReg .plain fun s a v => s.writeReg a v
  | _ => .next s

/-! ### Measurement and attestation (R381, R382) -/

def Mgmt.extendMr (m : Mgmt) (i : Nat) (bs : List Byte) : Mgmt :=
  { m with mr := upd m.mr i (sha256 (at' m.mr i (zeros 32) ++ bs)) }

/-- EXTEND (R381): an index outside 5 to 7 is ignored. -/
def execExtend (s : State) : Host.Outcome State Fault Refusal :=
  s.onReg .extend fun s _ v =>
    let i := field v 0 3
    if 5 ≤ i then { s with mgmt := s.mgmt.extendMr i s.mgmt.extdata } else s

/-- NONCE_WRITE (R382). -/
def execNonceWrite (s : State) : Host.Outcome State Fault Refusal :=
  s.onReg .nonce fun s off v =>
    if s.mgmt.busy then { s with mgmt := { s.mgmt with dropped := true } }
    else { s with mgmt := { s.mgmt with nonce := setWord s.mgmt.nonce ((off - 0x3200) / 8) v } }

/-- Table 26.3, bytes 0 to 383. -/
def State.reportBody (s : State) : List Byte :=
  wordBytes (w64 (1 + 8 * 2 ^ 8)) ++ s.mgmt.nonce ++ s.mgmt.mr.toList.flatten ++ wordBytes Config.serial ++
    wordBytes (w64 s.time) ++ wordBytes (w64 s.mgmt.deaccessions.length) ++ zeros 64

/-- ATTREQ (R382). -/
def execAttreq (s : State) : Host.Outcome State Fault Refusal :=
  s.onReg .attreq fun s _ _ =>
    if s.mgmt.busy then { s with mgmt := { s.mgmt with dropped := true } }
    else { s with mgmt := { s.mgmt with busy := true, done := false, dropped := false, snapshot := s.reportBody } }

/-- REPORT_COMPLETE (R382): the report, signed with a fresh salt (free values, log 8), stands, DONE is set, and notice 0x42 goes to host queue 0. -/
def execReportComplete (s : State) : Host.Outcome State Fault Refusal :=
  let m := s.mgmt
  if m.busy = false then .next s
  else
    let salt := (List.range 32).map fun i => Config.freeByte (s.free + i)
    .next ({ s with
      free := s.free + 32
      mgmt := { m with report := m.snapshot ++ pssSign m.snapshot salt, busy := false, done := true } }.freeNotice 0 0x42)

/-! ### Host message queues (R378) -/

/-- Bound ports of queue 0. -/
def Mgmt.boundPorts (m : Mgmt) : List Nat := (List.range 4).filter fun p => (at' m.hq0 p 0#64).getLsbD 0

/-- The ports to which a message goes, with the queue pair of each (Table 26.1). -/
def Mgmt.portsFor (m : Mgmt) (queue : Nat) (ctx : Option Nat) (ws : List W64) : List (Nat × Nat) :=
  if queue = 0 then
    (if ctx.isNone && ws.length == 4 && field (ws.headD 0#64) 0 8 == 0x41 then m.boundPorts else m.boundPorts.take 1).map
      fun p => (p, field (at' m.hq0 p 0#64) 1 24)
  else
    let w := (m.hqmap.get? queue).getD 0#64
    if w.getLsbD 2 then [(field w 0 2, field w 3 24)] else []

/-- HOST_MESSAGE_SEND (R378): message `here.idx` of those that wait, the oldest of its queue, goes to its queue pair, whose
receive queue is ready, else it waits; an unbound queue drops it. -/
def execHostMessageSend (s : State) : Host.Outcome State Fault Refusal :=
  match s.host.out[s.here.idx]? with
  | none => .next s
  | some (q, ctx, ws) =>
    let ps := s.mgmt.portsFor q ctx ws
    if ((s.host.out.take s.here.idx).any fun x => x.1 == q) = true ∨ (!ps.isEmpty && s.host.closed.contains q) = true then .next s
    else
      let s := { s with host := { s.host with
        out := s.host.out.eraseIdx s.here.idx, sent := s.host.sent ++ ps.map fun p => (q, p.1, p.2, ws) } }
      .next (if ps.isEmpty then
          { s with mgmt := { s.mgmt with hqdrop := if s.mgmt.hqdrop = BitVec.allOnes 32 then s.mgmt.hqdrop else s.mgmt.hqdrop + 1#32 } }
        else s)

/-! ### Boot (R380) -/

/-- Table 26.2: limits in bytes. -/
def stageLimit (i : Nat) : Nat :=
  match i with
  | 1 => 2 ^ 20 | 2 => 2 ^ 21 | 3 => 2 ^ 20 | 4 => 2 ^ 26 | _ => 2 ^ 16

/-- Loads and measures stages from number i on; a bad one stops the boot with its cause. -/
def Mgmt.boot (m : Mgmt) (i : Nat) : List (Bool × Bool × List Byte) → Mgmt
  | [] => { m with ready := true }
  | (readable, header, image) :: rest =>
    if readable = false then { m with fail := 1 }
    else if header = false then { m with fail := 2 }
    else if stageLimit i < image.length then { m with fail := 3 }
    else Mgmt.boot { m.extendMr (i - 1) (sha256 image) with stage := i } (i + 1) rest

/-- POWER_ON (R380): the package starts afresh but for its flash, its scores and what is retired, and boots. -/
def execPowerOn (s : State) : Host.Outcome State Fault Refusal :=
  let m := { Mgmt.reset with flash := s.mgmt.flash, deaccessions := s.mgmt.deaccessions, shutdown := s.mgmt.shutdown }
  let retired : Assoc Nat FPort := (s.fabric.ports.filter fun x => x.2.retired).map fun x => (x.1, { FPort.init with retired := true })
  .next { State.reset with
    here := s.here
    free := s.free
    mgmt := m.boot 1 (m.flash.take 5)
    health := ⟨s.health.res.map fun x => (x.1, { x.2 with
      leased := false, served := s.servedTicks x.2, since := 0, lastTest := 0 }), []⟩
    power := { Power.reset with
      weights := (List.range 24).map Config.weightInit, static := Config.weightInit 24, p := rlsStart }
    fabric := { Fabric.reset with ports := retired } }

end Sys2Proof.Machine
end

