-- ==== Sys2Proof/Machine/Cycle.lean ====
section
/-! DEFINITION. The order in which the machine's agents move (log 1): what a cycle of a compute core, a cycle of a memory
core and a tick of the reference put before the machine as turns, and what they change themselves. -/

namespace Sys2Proof.Machine

/-- A step of the table as a turn. -/
def evt (i : Instr) (k : Key) (pos idx val : Nat) : Turn := .event i ⟨k.1, k.2, pos, idx, val⟩

/-- A step of the table that belongs to no context, with its unit. -/
def evt' (i : Instr) (idx val : Nat) : Turn := .event i ⟨0, 0, 0, idx, val⟩

def State.first (s : State) (ts : List Turn) : State := { s with turns := ts ++ s.turns }

/-! ### Clocks (R223, R224, R371) -/

/-- Does a compute core run pinned (R223)? -/
def State.pinned (s : State) (pc : Nat) : Bool :=
  match (s.physOf pc).fg with
  | some c => s.fixedTiming c
  | none => false

def State.pinnedM (s : State) (pm : Nat) : Bool := (s.physMOf pm).res.any s.fixedTiming

/-- R224, R371: the stretch of a cycle of an elastic core, in eighths of the nominal period: what the detectors choose, and at
least SMIN (log 21). -/
def State.stretch (s : State) (unit n : Nat) : Nat := max s.power.smin (Config.droop unit n % 5)

/-- The cycles that begin before the end of a tick, of 64 eighths of a nominal period, from a time in it and a number on; and
how far into the next tick the following one begins. -/
def cyclesFrom (stretch : Nat → Nat) : Nat → Nat → Nat → Nat × Nat
  | 0, at', _ => (0, at' - 64)
  | fuel + 1, at', n =>
    if at' < 64 then
      let (k, left) := cyclesFrom stretch fuel (at' + 8 + stretch n) (n + 1)
      (k + 1, left)
    else (0, at' - 64)

/-- R224: the cycles of a core that begin in this tick, and its clock after them. Pinned cores begin 7.2 in a tick, all of them
at the same instants; the numbers of a tick's cycles are counted as they begin. -/
def State.cyclesNow (s : State) (pinned : Bool) (unit : Nat) (c : Clock) : Nat × Clock :=
  if pinned then ((s.ticks + 1) * 36 / 5 - s.ticks * 36 / 5, c)
  else
    let (n, left) := cyclesFrom (s.stretch unit) 8 c.offset c.begun
    (n, { c with offset := left })

/-! ### A cycle of a compute core begins -/

/-- Does an element cycle of the row of a position begin in this cycle (R227)? -/
def CoreCtx.rowTurn (c : CoreCtx) (pos : Nat) : Bool := c.cyc.toNat % at' c.divs (pos / 8) 1 == 0

/-- R173: are the block images of a context's issued instances in its core's configuration cache? -/
def State.imagesHere (s : State) (k : Key) (c : CoreCtx) : Bool :=
  match s.physCore? k with
  | some pc => c.runs.all fun r => r.reissue || ((s.physOf pc).entry? k.1 r.block).isSome
  | none => false

/-- May the context fire in this cycle: it moves on, and its block images are in place (R171, R173)? -/
def State.active (s : State) (k : Key) (c : CoreCtx) : Bool := s.movesOn k c && s.imagesHere k c

/-- CYC counts the cycle (R225), and every count of cycles runs down by one. -/
def CoreCtx.countDown (c : CoreCtx) (act : Bool) : CoreCtx :=
  let cyc := if c.frozen || !c.begun then c.cyc else c.cyc + 1#64
  let c := { c with
    cyc := cyc
    begun := c.begun || !c.frozen
    flights := c.flights.map fun (f : Flight) => { f with left := f.left - 1 }
    rowUsed := Vector.replicate 4 (0, false)
    colTaken := []
    busChosen := []
    admitLeft := c.admitLeft - 1 }
  { c with
    elems := c.elems.map fun (x : Nat × Elem) =>
      (x.1, if act && c.rowTurn x.1 then
          { x.2 with landed := Flags.none, waiting := decide (0 < x.2.waitc), waitc := x.2.waitc - 1 }
        else { x.2 with landed := Flags.none })
    mes := c.mes.map fun (x : Nat × ME) =>
      (x.1, { x.2 with
        busy := x.2.busy.map fun n => n - 1
        gave := Vector.replicate 4 false
        cur := if x.2.cur.isNone then x.2.nxt else x.2.cur
        nxt := if x.2.cur.isNone then none else x.2.nxt })
    ses := c.ses.map fun (x : Nat × SE) => (x.1, { x.2 with fillLeft := x.2.fillLeft - 1 })
    les := c.les.map fun (x : Nat × LE) =>
      (x.1, { x.2 with reqs := x.2.reqs.map fun (r : LReq) => { r with left := r.left - 1 } }) }

/-- The 512 bits of a full staging chunk. -/
def Staging.bits (g : Staging) : BitVec 512 :=
  BitVec.ofNat 512 ((List.range 8).map fun i => ((at' g.lanes i none).getD 0#64).toNat * 2 ^ (64 * i)).sum

/-- R80, R81: a full staging chunk goes to its B registers at the start of the second cycle after its last lane, or of the
first later one in which all of them accept it. It stays in staging until then, and its valid bits and row mask clear with
its arrival (log 95). -/
def CoreCtx.sendStaged (c : CoreCtx) (col : Nat) : CoreCtx :=
  let g := at' c.staging col Staging.empty
  if (List.range 8).any fun i => (at' g.lanes i none).isNone then c
  else
    let rows := (List.range 4).filter fun m => decide (g.rmask / 2 ^ m % 2 = 1)
    if 0 < g.age ∧ (rows.all fun m => (c.me ((m + 2) * 8 + col)).accepts) = true then
      let run := (c.elemD ((rows.headD 0 + 2) * 8 + col)).runId
      let c := c.sendChunk col g.rmask 0 run g.bits (g.side.getD 0x7F7F7F7F#32) g.tnt
      { c with staging := upd c.staging col Staging.empty }
    else { c with staging := upd c.staging col { g with age := g.age + 1 } }

/-- The elements at which a beat waits for a block instance. -/
def CoreCtx.beatWaits (c : CoreCtx) : List Nat :=
  (c.flights.filterMap (fun f => match f.cargo with
    | .beat p _ _ _ _ => if f.left = 0 then some p else none
    | _ => none) ++ (c.les.filter fun x => !x.2.inbeats.isEmpty).map (·.1)).filter fun p => (c.elemD p).run.isNone

/-- The block that will take an element next: the first, of the squashed runs to be reissued and then of the pending list,
with a variant whose region holds it (log 99). -/
def State.nextBlock (s : State) (ctx : Nat) (c : CoreCtx) (pos : Nat) : Option Nat :=
  ((c.runs.filter (·.reissue)).map (·.block) ++ c.walker.pend.map (·.block)).find? fun b =>
    match (s.team? ctx).bind fun t => t.blocks.get? b with
    | some ws => (parseBlock ws).variants.any fun v => v.holds pos
    | none => false

/-- R164: the blocks that arrivals at the core wait for and that are not in the configuration cache. -/
def State.missing (s : State) (k : Key) (c : CoreCtx) : List Nat :=
  match s.physCore? k with
  | some pc => ((c.beatWaits.filterMap (s.nextBlock k.1 c)).filter fun b => ((s.physOf pc).entry? k.1 b).isNone).eraseDups
  | none => []

/-- R164: for each missing block, the cycles waited with this one. -/
def State.missNow (s : State) (k : Key) (c : CoreCtx) : List (Nat × Nat) :=
  (s.missing k c).map fun b => (b, ((c.cfgMiss.find? fun x => x.1 == b).map (·.2)).getD 0 + 1)

/-- The step that lands an item in flight; slot rewrites end with the cycle and beats are admitted by their LE. -/
def Cargo.landing (x : Cargo) : Option Instr :=
  match x with
  | .token _ _ _ => some .tokenArrival
  | .credit _ _ _ => some .creditReturn
  | .result _ => some .longResultArrival
  | .busToken _ _ _ => some .rowBusDelivery
  | .busScales _ _ _ => some .rowBusDelivery
  | .busCredit _ _ => some .creditReturn
  | .chunk _ _ _ _ _ => some .columnChunkDelivery
  | .mma _ => some .mmaRowLanding
  | .streamWord _ _ _ _ _ _ => some .seStreamWord
  | .cfgw _ _ _ => none
  | .portFree _ _ _ => none
  | .beat _ _ _ _ _ => none

/-- What is due in this cycle lands, in the order in which it set out. -/
def CoreCtx.landings (c : CoreCtx) (k : Key) : List Turn :=
  (c.flights.filter fun f => f.left == 0).filterMap fun f => f.cargo.landing.map fun i => evt i k 0 0 0

/-- Cycles that a migration of this core's quad has waited (R353). -/
def Team.waitOne (t : Team) (core : Nat) : Team :=
  if core % 2 = 1 then t
  else { t with migrations := t.migrations.map fun (m : Migration) =>
    if m.lquad = core / 2 then { m with waited := m.waited + 1 } else m }

/-- Is the cycle that begins now on a context's core stretched (Table 25.1, counter 20)? -/
def State.stretchedNow (s : State) (k : Key) : Bool :=
  match s.physCore? k with
  | some pc => !s.pinned pc && decide (0 < s.stretch (2 * pc) (s.physOf pc).clock.begun)
  | none => false

/-- One context at the start of a cycle. -/
def State.beginCtx (s : State) (k : Key) : State :=
  match s.core? k with
  | none => s
  | some c =>
    let c := c.countDown (s.active k c)
    let c := (List.range 8).foldl CoreCtx.sendStaged c
    let c := if c.frozen then c else { c with cfgMiss := s.missNow k c }
    let c := { c with capSeen := ((s.team? k.1).map (·.capSeq)).getD 0 }
    let s := { s with cores := s.cores.put k c }
    let s := s.modTeam k.1 fun t => t.waitOne k.2
    if c.frozen then s
    else
      let s := s.count k 21 1
      if s.stretchedNow k then s.count k 20 1 else s

/-- The contexts on a physical compute core. -/
def State.onCoreNow (s : State) (pc : Nat) : List Key := (s.physOf pc).res.map fun ctx => s.keyOn ctx pc

/-- The start of a cycle: every context's counts, then its landings. The foreground's cycles are counted while another
resident context is runnable (R287). -/
def State.beginCycle (s : State) (pc : Nat) : State :=
  let ks := s.onCoreNow pc
  let s := ks.foldl State.beginCtx s
  let rival := ks.any fun k => (s.physOf pc).fg != some k.1 && s.runnable k
  let s := s.modPhys pc fun p => { p with
    fgCycles := if p.fg.isSome && rival then p.fgCycles + 1 else 0
    clock := { p.clock with begun := p.clock.begun + 1 } }
  s.first ((ks.flatMap fun k => ((s.core? k).map fun c => c.landings k).getD []) ++ [.work pc])

/-! ### What the units of a core do in a cycle -/

/-- R293: the translations that the slots and streams of an LE wait for. -/
def State.wanted (s : State) (k : Key) (c : CoreCtx) (pos : Nat) (e : Elem) : List (Nat × Nat) :=
  let of' (v : Verdict) : List (Nat × Nat) := match v with
    | .ok t cs n => (xlatNeeds t cs n).map fun x => (t.tid, x)
    | _ => []
  let slots := (List.range 16).flatMap fun i =>
    let w := e.slot i
    let opc := field w 30 8
    let f := Fields.ofWord w
    if w.getLsbD 1 = false ∨ predMatch e f = false ∨ opc < 0xD0 ∨ 0xD6 < opc then []
    else match opOf opc with
      | none => []
      | some o =>
        let l := lookAt o f s ⟨k, pos, i, false, 0⟩ c e
        match opc with
        | 0xD0 => of' (l.verdict .load oneToken)
        | 0xD1 => of' (l.verdict .load oneToken)
        | 0xD2 => of' (l.verdict .store oneToken)
        | 0xD3 => of' (l.verdict .atomic oneToken)
        | 0xD4 => of' (l.verdict .load eightTokens)
        | 0xD6 => of' l.astrVerdict
        | _ => []
  let gens := (List.range 4).flatMap fun i =>
    let g := (c.le pos).gen i
    if g.mode = .load then
      of' (s.genVerdict k g (at' e.cfg.tids (field (at' e.cfg.lslots g.slot 0x10#9) 0 2) 0) .load (e.watches (.gen i)))
    else []
  let behind := (c.le pos).reqs.flatMap fun r =>
    if r.st = .behind then of' (s.check k.1 r.tid .load (fun _ => r.coords) (fun _ => r.lanes) (e.watches (.req r.id))) else []
  (slots ++ gens ++ behind).eraseDups

/-- Translations of resident tiles that are wanted and not in the layout unit. -/
def State.fillTurns (s : State) (k : Key) (c : CoreCtx) : List Turn :=
  match s.physCore? k, s.team? k.1 with
  | some pc, some t =>
    (c.elems.filter fun x => kindAt x.1 == .le && x.2.run.isSome).flatMap fun x =>
      ((s.wanted k c x.1 x.2).filter fun y =>
        (t.frames.get? y).isSome && !(s.physOf pc).xlat.contains (k.1, y.1, y.2)).map fun y => evt .translationFill k x.1 y.1 y.2
  | _, _ => []

/-- Writes of the commit buffer that their tiles have not accepted. -/
def CoreCtx.writeTurns (c : CoreCtx) (k : Key) : List Turn :=
  c.buf.zipIdx.filterMap fun x => match x.1.op with
    | .store _ _ _ _ => if x.1.sent then none else some (evt .tileWriteArrival k 0 x.2 0)
    | _ => none

/-- The loads that wait for their memory; what no rule fixes of each in this cycle is a free value (R229, log 1). -/
def CoreCtx.requestTurns (c : CoreCtx) (k : Key) (free : Nat) : List Turn :=
  (c.les.flatMap fun x => (x.2.reqs.filter fun r => r.st == .waiting).map fun r => (x.1, r.id)).zipIdx.map fun x =>
    evt .loadRequest k x.1.1 x.1.2 (Config.path (free + x.2))

def CoreCtx.replyTurns (c : CoreCtx) (k : Key) : List Turn :=
  c.les.flatMap fun x => (x.2.reqs.map LReq.cls).eraseDups.map fun i => evt .leReply k x.1 i 0

def CoreCtx.beatTurns (c : CoreCtx) (k : Key) : List Turn :=
  let held := (c.les.filter fun x => !x.2.inbeats.isEmpty).map (·.1)
  let due := c.flights.filterMap fun f => match f.cargo with
    | .beat p _ _ _ _ => if f.left = 0 then some p else none
    | _ => none
  (held ++ due).eraseDups.map fun p => evt .strmBeat k p 0 1

def CoreCtx.detourTurns (c : CoreCtx) (k : Key) : List Turn :=
  c.elems.flatMap fun x => ((List.range 4).filter x.2.detours).map fun q => evt .detourSend k x.1 q 0

/-- R121: has an SE chosen an SFILL, whose first cycle this is? -/
def State.fillsNow (s : State) (k : Key) (pos : Nat) : Bool :=
  match s.selectElement k pos with
  | (_, .fire is) => is.any fun i => field (((s.elem? k pos).map fun e => e.slot i).getD 0#64) 30 8 == 0xB9
  | _ => false

/-- R110, R172, R231: the rows that fired ACC.DRNs send go on while the context is dormant, and stand still while it is
frozen. DESIGN CHOICE (log 31): they take their credits before the elements choose. -/
def CoreCtx.drainTurns (c : CoreCtx) (k : Key) : List Turn :=
  c.mes.flatMap fun x => if c.rowTurn x.1 then x.2.drains.map fun d => evt .accDrnRowSend k x.1 d.bank 0 else []

/-- R136, R172: the loads of fired slots that a deferred fault held are made again, also while the context is dormant. -/
def CoreCtx.reissueTurns (c : CoreCtx) (k : Key) : List Turn :=
  c.les.flatMap fun x => ((x.2.reqs.filter fun r => match r.st with
      | .faulted _ true => true
      | .behind => true
      | _ => false).map fun r => r.dst - 24).eraseDups.map fun p => evt .faultReissue k x.1 p 0

/-- What only an active context does: column readers, streams, selectors, buses, walker and arbiter. The arbiter runs in every
cycle, also for an entry that the walker appends in it (R181). -/
def State.activeTurns (s : State) (k : Key) (c : CoreCtx) : List Turn :=
  let readers := c.readers.map fun x => evt .columnReaderChunk k 0 x.1 0
  let words := (c.ses.filter fun x => c.rowTurn x.1 && ((List.range 5).any fun i => (x.2.nextWord i).isSome) &&
    !s.fillsNow k x.1).map fun x => evt .seStreamWord k x.1 0 1
  let streams := c.les.flatMap fun x => ((List.range 4).filter fun g => (x.2.gen g).mode == .load).map fun g =>
    evt .leStreamToken k x.1 g 0
  let elems := (((List.range 64).filter fun p =>
      c.rowTurn p && ((c.elem? p).map fun e => e.run.isSome && !e.halted).getD false).map fun p => Turn.element k.1 k.2 p)
  let walker : List Turn :=
    if c.walker.pos.isSome && !s.joinWait k.1 c then [.walker k.1 k.2]
    else if c.walker.pos.isSome && !c.walker.deque.isEmpty then [evt .taskRun k 0 0 0]
    else [evt .stealProbe k 0 0 0]
  readers ++ words ++ streams ++ elems ++ [.arbitrate k.1 k.2] ++ walker ++ [evt .blockIssue k 0 0 0]

/-- Blocks that a context waits for and that are not in the configuration cache (R162), among them those of issued instances
that a restore has yet to fetch (R173). -/
def State.blockTurns (s : State) (k : Key) (c : CoreCtx) : List Turn :=
  match s.physCore? k with
  | some pc => ((c.runs.map (·.block) ++ c.walker.pend.map (·.block)).eraseDups.filter fun b =>
      ((s.physOf pc).entry? k.1 b).isNone).map fun b => evt .blockLoad k 0 b 0
  | none => []

/-- Everything that one context puts forward in a cycle. -/
def State.ctxTurns (s : State) (k : Key) (c : CoreCtx) : List Turn :=
  let live := !c.frozen && c.resident
  let on (b : Bool) (l : List Turn) : List Turn := if b then l else []
  let late : List (Nat × Nat) := match s.team? k.1 with
    | some t => c.cfgMiss.filter fun x => decide (2 ^ t.launch.cfgto ≤ x.2)
    | none => []
  on (live && c.admitLeft == 0 && c.admitW != 0) [evt .admitWindow k 0 0 0] ++
  on live (c.verdicts.map fun _ => evt .verdictApply k 0 0 0) ++
  on live (c.walker.bounds.map fun _ => evt .boundTokenApply k 0 0 0) ++
  on live (c.walker.decs.map fun _ => evt .joinDecrement k 0 0 0) ++
  on live (late.map fun _ => evt .cfgMissTimeout k 0 0 0) ++
  on c.resident (c.writeTurns k) ++
  on c.resident (c.requestTurns k s.free) ++
  on live (c.replyTurns k) ++
  on live (c.beatTurns k) ++
  on live (s.fillTurns k c) ++
  on live (c.drainTurns k) ++
  on live (c.reissueTurns k) ++
  on (s.active k c) (s.activeTurns k c) ++
  on live (c.detourTurns k) ++
  on live (s.blockTurns k c)

/-- R314: for how many cycles in a row, with this one, each element has been port-blocked on one edge. -/
def State.countBlocked (s : State) (k : Key) (c : CoreCtx) : CoreCtx :=
  let act := s.active k c
  { c with elems := c.elems.map fun (x : Nat × Elem) =>
    (x.1, match (if act && x.2.run.isSome then s.awaited k x.1 else none) with
      | some g => if x.2.edge = g.code then { x.2 with blocked := x.2.blocked + 1 } else { x.2 with blocked := 1, edge := g.code }
      | none => { x.2 with blocked := 0, edge := 0 }) }

/-- R314: the elements whose last 4,096 cycles before this one were blocked send a probe. -/
def CoreCtx.probeTurns (c : CoreCtx) (k : Key) : List Turn :=
  (c.elems.filter fun x => x.2.probes).map fun x => evt .deadlockProbe k x.1 0 0

/-! ### Shared units of a memory core (R198) -/

/-- The shared units of a memory core: stream ports 0 to 3 and the die-network port 4 are numbered as `Strm.id`. -/
def predUnit : Nat := 5
def cmpUnit : Nat := 6
def xpUnit : Nat := 7

/-- The physical memory core of a logical one. -/
def State.physMcore? (s : State) (k : Key) : Option Nat :=
  (s.team? k.1).map fun t => t.physQuad (k.2 / 2) * 2 + k.2 % 2

/-- R198: a context asks for units of its memory core in this cycle: it takes them all, or, where the other context has one of
them, asks again in the next cycle. -/
def State.askUnits (s : State) (k : Key) (us : List Nat) : State × Bool :=
  match s.physMcore? k with
  | none => (s, true)
  | some pm =>
    let p := s.physMOf pm
    let mine := us.map fun u => (u, k.1)
    if p.res.length < 2 then (s, true)
    else if p.taken.any fun x => us.contains x.1 && x.2 != k.1 then
      (s.modPhysM pm fun p => { p with wants := (p.wants ++ mine).eraseDups }, false)
    else (s.modPhysM pm fun p => { p with taken := (p.taken ++ mine).eraseDups }, true)

/-- The memory core and the port through which a request or a buffered store of a core goes to a tile (R158, R199). -/
def State.portOfTurn (s : State) (k : Key) (c : CoreCtx) (t : Turn) : Option (Nat × Nat) :=
  match s.team? k.1, t with
  | some tm, .event .loadRequest h =>
    match (c.le h.pos).reqs.find? fun r => r.id == h.idx with
    | some r =>
      if r.kind = .tstat then some (r.coords.getD 0 0, tm.writerKind k.2 h.pos (r.coords.getD 0 0))
      else (s.tileOf k.1 r.tid).map fun x => (x.1, tm.writerKind k.2 h.pos x.1)
    | none => none
  | some tm, .event .tileWriteArrival h =>
    match c.buf[h.idx]? with
    | some ⟨_, _, pos, .store tid _ _ _, _⟩ => (s.tileOf k.1 tid).map fun x => (x.1, tm.writerKind k.2 pos x.1)
    | _ => none
  | _, _ => none

/-- R198: the turns of a context whose accesses to memory cores get their ports. -/
def State.grantPorts (s : State) (k : Key) (c : CoreCtx) (ts : List Turn) : State × List Turn :=
  ts.foldl (fun x t => match x.1.portOfTurn k c t with
    | none => (x.1, x.2 ++ [t])
    | some (mc, u) =>
      let (s, ok) := x.1.askUnits (k.1, mc) [u]
      (s, if ok then x.2 ++ [t] else x.2)) (s, [])

/-- The rest of a cycle, once everything has landed. -/
def State.workCycle (s : State) (pc : Nat) : State :=
  let ks := s.onCoreNow pc
  let s := ks.foldl (fun (s : State) k => match s.core? k with
    | some c => State.holdEngines { s with cores := s.cores.put k (s.countBlocked k c) } k
    | none => s) s
  let (s, turns) := ks.foldl (fun (x : State × List Turn) k => match x.1.core? k with
    | some c =>
      let (s, ts) := x.1.grantPorts k c (c.probeTurns k ++ x.1.ctxTurns k c)
      ({ s with free := s.free + (c.requestTurns k 0).length }, x.2 ++ ts)
    | none => x) (s, [])
  s.first (turns ++ [.finish pc])

/-- R82: the writers chosen in this cycle, in the order of each bus. -/
def State.busTurns (s : State) (ctx core : Nat) : State :=
  match s.core? (ctx, core) with
  | some c => s.first ((c.busOrder core).map fun x => .bus ctx core x.pos x.slot)
  | none => s

/-- R105: the fires of one ME in a cycle, in the order of its instances. All of them were chosen on the state at the start
of the cycle, so a control slot that reads a queue whose head a row fire takes reads before that fire and leaves the head's
removal to it. Of two that update one predicate the later one in this order wins (log 94). -/
def meFires (ctx core pos : Nat) (e : Elem) (slots : List Nat) : List Turn :=
  let taken (i : Nat) : Nat :=
    let w := e.slot i
    if instanceOf pos w < 4 ∧ (Fields.ofWord w).dqa = true then 2 ^ instanceOf pos w else 0
  let rows := slots.filter fun i => decide (instanceOf pos (e.slot i) < 4)
  let control := slots.filter fun i => decide (4 ≤ instanceOf pos (e.slot i))
  let read (i : Nat) : List Nat :=
    let w := e.slot i
    ((shapeOf (field w 30 8)).map fun sh => queueSources sh (Fields.ofWord w)).getD []
  let both := (rows.filter fun i => taken i != 0 && (control.flatMap read).contains (instanceOf pos (e.slot i)))
  let mask := (both.map taken).sum
  ((rows.filter fun i => !both.contains i).map fun i => .fire ctx core pos i 1) ++
    (control.map fun i => .fire ctx core pos i (1 + 2 * mask)) ++ both.map fun i => .fire ctx core pos i 1

/-- What an element's selectors have chosen (R22, R30, R105). -/
def State.elementTurns (s : State) (ctx core pos : Nat) : State :=
  match s.selectElement (ctx, core) pos with
  | (s, .none) => s
  | (s, .trap i _) => s.first [evt .elementTrap (ctx, core) pos i 0]
  | (s, .fire is) => s.first (match s.elem? (ctx, core) pos with
      | some e =>
        if kindAt pos = .me then meFires ctx core pos e is
        else is.flatMap fun i =>
          (if s.spillFor (ctx, core) pos i then [evt .spillCommit (ctx, core) pos e.runId i] else []) ++
            [.fire ctx core pos i 0]
      | none => [])
  | (s, .bus _) => s

/-- The barriers that a core tests at the end of its cycle: its own of core scope, whose timing is fixed, and those of the wider
scopes, whose is not (Table 15.1). -/
def State.barTurns (s : State) (k : Key) : List Turn :=
  match s.team? k.1 with
  | some t => t.bars.zipIdx.filterMap fun x =>
      if x.1.scope != 1 || x.1.unit.1 == k.2 then some (evt .barrierComplete k 0 x.2 0) else none
  | none => []

/-- At the end of a cycle: the team's barriers, completions, commits. -/
def State.finishCycle (s : State) (pc : Nat) : State :=
  s.first ((s.onCoreNow pc).flatMap (fun k => match s.core? k with
    | some c =>
      s.barTurns k ++
      ((c.runs.filter fun r => !r.complete && !r.reissue).map fun r => evt .blockComplete k 0 r.id 0) ++
      ((c.runs.filter fun r => !r.ended.isEmpty).map fun r => evt .groupCommit k 0 r.id 0)
    | none => []) ++ [.endCycle pc])

/-! ### A cycle of a compute core ends -/

/-- R59, R153: rewritten slots take their words; of two writers the one of higher eid counts, and the slot's age is 0. -/
def CoreCtx.rewriteSlots (c : CoreCtx) : CoreCtx :=
  let ws := c.flights.filterMap fun f => match f.cargo with
    | .cfgw p i w => some (p, i, w)
    | _ => none
  ws.foldl (fun c x => c.modElem x.1 fun e => { e with slots := upd e.slots x.2.1 x.2.2, ages := upd e.ages x.2.1 0 })
    { c with flights := c.flights.filter fun f => match f.cargo with
      | .cfgw _ _ _ => false
      | _ => true }

/-- The stream of a hold ends: its port is free and it is idle. -/
def CoreCtx.streamEnd (c : CoreCtx) (pos port : Nat) (h : Hold) : CoreCtx :=
  let c := c.modElem pos fun e => e.setPort port { e.port port with hold := none }
  match h with
  | .gen i => c.modSe pos fun b => b.setGen i { b.gen i with busy := false, pos := 0 }
  | .burst => if kindAt pos = .se then c.modSe pos fun b => { b with burst := none } else c
  | .leGen g => c.modLe pos fun x => x.setGen g { x.gen g with mode := .idle, group := 0 }
  | _ => c

/-- The holds that end with the cycle. -/
def CoreCtx.freeHolds (c : CoreCtx) : CoreCtx :=
  (c.flights.filterMap fun f => match f.cargo with
    | .portFree p q h => some (p, q, h)
    | _ => none).foldl (fun c x => c.streamEnd x.1 x.2.1 x.2.2)
    { c with flights := c.flights.filter fun f => match f.cargo with
      | .portFree _ _ _ => false
      | _ => true }

/-- R151: the condition word after the CWSETs of the cycle. -/
def Walker.applyCwsets (w : Walker) : Walker :=
  { w with cw := w.cwsets.foldl (fun x y => (x &&& ~~~y.2) ||| (y.1 &&& y.2)) w.cw, cwsets := [] }

/-- One context at the end of a cycle. -/
def CoreCtx.endCycle (c : CoreCtx) : CoreCtx :=
  let c := { c with
    runs := c.runs.map fun (r : Run) =>
      if r.closing then { r with ended := r.ended ++ [r.group], group := r.group + 1, closing := false } else r
    ends := false
    mes := c.mes.map fun (x : Nat × ME) => (x.1, x.2.freeSpent) }
  c.freeHolds.rewriteSlots.modWalker Walker.applyCwsets

/-- R353, R354: cores of quads to be migrated that are at their migration points; with the second of them the quad's memory
cores are switched out. -/
def State.notePoint (s : State) (k : Key) (c : CoreCtx) : State :=
  let q := k.2 / 2
  let point (m : Migration) : Migration :=
    if m.lquad = q ∧ m.reached.contains k.2 = false ∧ s.atPoint k c m = true then { m with reached := m.reached ++ [k.2] } else m
  let s := s.modTeam k.1 fun t => { t with migrations := t.migrations.map point }
  if (s.atMove (k.1, 2 * q) && s.atMove (k.1, 2 * q + 1)) = true then
    [2 * q, 2 * q + 1].foldl (fun s n => s.modMcore (k.1, n) fun m => { m with moving := true }) s
  else s

def State.endCycle (s : State) (pc : Nat) : State :=
  (s.onCoreNow pc).foldl (fun (s : State) k => match s.core? k with
    | some c => ((s.notePoint k c).modCore k CoreCtx.endCycle).freezeCore k
    | none => s) s

/-! ### A cycle of a memory core (R198, R208) -/

def State.onMcoreNow (s : State) (pm : Nat) : List Key := (s.physMOf pm).res.map fun ctx => s.keyOn ctx pm

/-- A context's turn with the shared units that it asks for, the transpose unit first, since a beat that does not get it asks
for no port; without a turn, units that an access found taken in the last cycle. -/
abbrev Asking := Key × List Nat × Option Turn

/-- The sequencer's turn; PRED and TCMP ask for the predictor and the compare engine where they could start. -/
def State.seqAsks (s : State) (k : Key) (m : MCoreCtx) : List Asking :=
  if m.stopped || m.frozen || m.shut then []
  else
    let w := m.prog.getD m.pc 0#64
    let ready (slot : Nat) : Bool := (m.tile slot).state == .ready && !(m.tile slot).own
    let units :=
      if field w 58 6 = 0x07 ∧ ready (field w 52 6) = true ∧ s.unitsFree k true = true then [predUnit, cmpUnit]
      else if field w 58 6 = 0x08 ∧ ready (field w 52 6) = true ∧ ready (field w 46 6) = true ∧ s.unitsFree k false = true then
        [cmpUnit]
      else []
    [(k, units, some (Turn.sequencer k.1 k.2))]

/-- The turns of a context's streams and of its jobs in the predictor and the compare engine. -/
def MCoreCtx.unitAsks (m : MCoreCtx) (k : Key) : List Asking :=
  (m.streams.map fun x => (k, (if m.shut || !m.resident || !x.rowReady (m.tile x.slot) then []
    else (if x.xp = 0 then [] else [xpUnit]) ++ [x.id]), some (evt .strmBeat k 0 x.id 0))) ++
  (m.preds.map fun p => (k, [predUnit], some (evt .predComplete k 0 p.slot 0))) ++
  (m.cmps.map fun _ => (k, [cmpUnit], some (evt .tcmpComplete k 0 0 0))) ++
  (m.verifying.map fun i => (k, [cmpUnit], some (evt .verifyComplete k 0 i 0)))

/-- R198: one unit's grants of a cycle. Where both contexts ask for it, one of them gets it and the next contested grant is
the other's. -/
def grantUnit (ctxs : List Key) (x : Vector Bool 8 × List Asking) (u : Nat) : Vector Bool 8 × List Asking :=
  let asks (k : Key) : Bool := x.2.any fun a => a.1 == k && a.2.1.contains u
  match ctxs.filter asks with
  | [a, b] =>
    let loser := if at' x.1 u false then a else b
    (upd x.1 u (!at' x.1 u false), x.2.filter fun y => !(y.1 == loser && y.2.1.contains u))
  | _ => x

/-- The memory core in which a stream's beats land, with the units that they take there: its die-network port, and for a fill
with XP the transpose unit (R198, R213). -/
def State.landsAt (s : State) (k : Key) (t : Turn) : Option (Key × List Nat) :=
  match t with
  | .event .strmBeat h =>
    match (s.mcore? k).bind fun m => m.strm? h.idx with
    | some x =>
      if x.dn then
        let xp := (((s.mcore? (k.1, x.dest)).map fun d => (d.tile x.dslot).fill.any fun f => f.xp != 0)).getD false
        some ((k.1, x.dest), if xp then [xpUnit, 4] else [4])
      else none
    | none => none
  | _ => none

/-- The turns among a memory core's whose beats get their units where they land. -/
def State.grantLandings (s : State) (as : List Asking) : State × List Turn :=
  as.foldl (fun x a => match a.2.2 with
    | none => x
    | some t => match x.1.landsAt a.1 t with
      | none => (x.1, x.2 ++ [t])
      | some (d, us) =>
        let (s, ok) := x.1.askUnits d us
        (s, if ok then x.2 ++ [t] else x.2)) (s, [])

def State.beginMcycle (s : State) (pm : Nat) : State :=
  let ks := s.onMcoreNow pm
  let p := s.physMOf pm
  let asks : List Asking := (p.wants.map fun x => (s.keyOn x.2 pm, [x.1], none)) ++ ks.flatMap fun k => match s.mcore? k with
    | some m => s.seqAsks k m ++ m.unitAsks k
    | none => []
  let (turns, granted) := [xpUnit, predUnit, cmpUnit, 0, 1, 2, 3, 4].foldl (grantUnit ks) (p.turns, asks)
  let taken := granted.flatMap fun a => a.2.1.map fun u => (u, a.1.1)
  let (s, ts) := (s.modPhysM pm fun p => { p with turns := turns, taken := taken.eraseDups, wants := [] }).grantLandings granted
  s.first (ts ++ [.endMcycle pm])

/-- A memory core's cycle ends: completed fills publish (R202), and traps freeze their sequencer. -/
def State.endMcycle (s : State) (pm : Nat) : State :=
  (s.onMcoreNow pm).foldl (fun s k => (s.modMcore k MCoreCtx.publishDue).freezeMcore k) s

/-! ### A tick of the reference -/

/-- The step for the oldest message at the dispatcher (R277, R307). -/
def Msg.instr (m : Msg) : Instr :=
  if m.chan = 0 then
    (if !m.good then .unknownCommand
     else match m.op with
      | 0x01 => .launch | 0x02 => .cancel | 0x03 => .setpri | 0x04 => .bound
      | 0x10 => .resume | 0x11 => .freeze | 0x12 => .teardown | 0x13 => .vopen | 0x14 => .vclose | 0x15 => .lease
      | 0x16 => .resolve
      | _ => .unknownCommand)
  else if m.chan ≤ 15 then .reservedChannelMessage
  else .serviceMessage

/-- The step for the host's oldest request (R376, R377, R379). -/
def HostReq.instr (m : Mgmt) (r : HostReq) : Instr :=
  match r with
  | .send _ _ _ => .hostSend
  | .image _ _ => .rdmaWrite
  | .read _ _ _ => .rdmaRead
  | .refused => .refusedRequest
  | .write rkey off bs =>
    if rkey ≠ 1 then .rdmaWrite
    else if bs.length ≠ 8 ∨ (off % 8 != 0) = true ∨ m.stage = 0 then .registerWrite
    else match regKind off with
      | .budget => .pbudgetWrite
      | .window => .windowDescriptorWrite
      | .extend => .extend
      | .nonce => .nonceWrite
      | .attreq => .attreq
      | .plain => .registerWrite

/-- What the outside does, as far as it waits: host requests and messages. -/
def State.hostTurns (s : State) : List Turn :=
  (match s.host.reqs.head? with
    | some r => [evt' (r.instr s.mgmt) 0 0]
    | none => []) ++
  (match s.disp.inbox.head? with
    | some m => [evt' m.instr 0 0]
    | none => []) ++
  (s.host.out.map fun _ => evt' .hostMessageSend 0 0) ++
  (if s.disp.bounds.isEmpty then [] else [evt' .bound 0 1]) ++
  (if s.mgmt.busy then [evt' .reportComplete 0 0] else [])

/-- Launches, evictions, migrations and ends of teams. -/
def State.teamTurns (s : State) : List Turn :=
  (if s.disp.waiting.isEmpty && s.disp.restores.isEmpty then [] else [evt' .queuePlacement 0 0]) ++
  s.teams.flatMap fun (ctx, t) =>
    let k : Key := (ctx, 0)
    (t.leaving.map fun q => evt .eviction k 0 q 0) ++
    ((t.migrations.filter fun m => !m.forced && decide (Config.migWait ≤ m.waited)).map fun m => evt .migwaitExpiry k 0 m.lquad 0) ++
    ((t.migrations.filter fun m => decide (2 ≤ m.reached.length)).map fun m => evt .migration k 0 m.lquad 0) ++
    (if t.sysQueue.isEmpty then [] else [evt .serviceMessage k 0 0 1]) ++
    (if 2 ^ t.launch.wd ≤ t.watchdog then [evt .hangFreeze k 0 0 0] else []) ++
    (if t.phase = Phase.running ∨ t.phase = Phase.ending then [evt .teamComplete k 0 0 0] else []) ++
    (t.bars.zipIdx.filterMap fun x =>
      if x.1.scope = 5 ∧ x.1.sentPod = false ∧ s.podSideDone t.launch.tag x.1.num = true then
        some (evt .podBarrierArrival k 0 x.2 0)
      else none)

/-- The engines, and the curator where a walker waits for it. -/
def State.engineTurns (s : State) : List Turn :=
  (s.engines.filter fun x => !x.2.isEmpty).flatMap (fun x =>
    let i : Instr := match x.1.1 with
      | 1 => .transferCommand | 2 => .gatherReduceCommand | 3 => .routingCommand | _ => .collectiveCommand
    [evt' i x.1.2 0, .event .engineCompletion ⟨0, 0, x.1.1, x.1.2, 0⟩]) ++
  (s.cores.filter fun x => match x.2.walker.mark with | .placing _ _ => true | _ => false).map fun x => evt .curatorPlace x.1 0 0 0

/-- Has a multiple of n been passed since TIME was `old`? -/
def State.passed (s : State) (old n : Nat) : Bool := decide (old / n < s.time / n)

/-- The fabric's ports and packets. -/
def State.fabricTurns (s : State) (old : Nat) : List Turn :=
  let f := s.fabric
  let up := (f.ports.filter fun x => x.2.up).map (·.1)
  let linked := (f.ports.filter fun x => x.2.linked).map (·.1)
  (f.wireIn.map fun _ => evt' .flitReceive 0 0) ++
  (f.out.zipIdx.filterMap fun x =>
    if x.1.vc < 6 ∧ Config.escWait ≤ x.1.waited then some (evt' .escapeTimeout x.2 0) else none) ++
  (List.range f.out.length).map (fun i => evt' .packetStart i 0) ++
  (linked.map fun p => evt' .packetStart p 1) ++
  (up.filter fun p => let r := (f.port p).rate; decide (old * r / 4096 < s.time * r / 4096)).map (fun p => evt' .auditSend p 0) ++
  ((f.ports.filter fun x => x.2.resyncing).map fun x => evt' .auditCheck x.1 0) ++
  (if s.passed old 10000 then [evt' .timeSync 0 0] else [])

/-- What comes at fixed intervals (R345, R369, R370), and the conservator's next test (R344). -/
def State.healthTurns (s : State) (old : Nat) : List Turn :=
  (if s.passed old 10000 then [evt' .powerInterval 0 0] else []) ++
  (if s.passed old 100000000 then [evt' .rlsUpdate 0 0] else []) ++
  ((s.health.res.filter fun x => x.2.inService && !x.2.leased && s.servedTicks x.2 % 1000000000 == 0).map fun x =>
    .event .scoreDecay ⟨0, 0, x.1.1.code, x.1.2, 0⟩) ++
  s.moveTurns ++
  ((s.health.res.filter fun x => x.2.leased && decide (Config.retire ≤ x.2.score) && s.cleared x.1.1 x.1.2).map fun x =>
    .event .testComplete ⟨0, 0, x.1.1.code, x.1.2, 0⟩) ++
  (if s.mgmt.ready then
    ((List.range Config.dies).filter fun d => !(s.health.res.any fun x => x.2.leased && dieOf x.1.1 x.1.2 == d)).map fun d =>
      evt' .conservatorWithdraw d 0
   else [])

/-- R315, R387: what counts time in ticks; a packet waits for slots while its VC has too few. -/
def State.countTick (s : State) : State :=
  let s := { s.tickTime with ticks := s.ticks + 1 }
  let wd (x : Nat × Team) : Nat × Team :=
    if (x.2.phase == .running || x.2.phase == .parked) && !s.watchHolds x.1 x.2 then (x.1, { x.2 with watchdog := x.2.watchdog + 8 }) else x
  let s := { s with teams := s.teams.map wd }
  s.modFabric fun f => { f with out := f.out.map fun (k : Packet) =>
    { k with waited := match k.port with
      | some p => if at' (f.port p).counts k.vc 0 < k.flits.length then k.waited + (f.port p).rate else 0
      | none => 0 } }

/-- A tick: TIME advances, and everything outside the cores' own cycles gets its turn. -/
def State.tickNow (s : State) : State :=
  let old := s.time
  let s := s.countTick
  if s.off then s.first s.hostTurns
  else s.first (s.hostTurns ++ s.teamTurns ++ s.engineTurns ++ s.fabricTurns old ++ s.healthTurns old)

/-! ### The round -/

/-- The physical cores with a resident context. -/
def State.busyPhys (s : State) : List Nat := (s.phys.filter fun x => !x.2.res.isEmpty).map (·.1)
def State.busyPhysM (s : State) : List Nat := (s.physM.filter fun x => !x.2.res.isEmpty).map (·.1)

/-- The cycles that begin in a tick, side by side, in the clock modes that the reference edge has left (R223, R224). Before
every later cycle of a core its foreground may change. -/
def State.beginCycles (s : State) : State :=
  let pcs := s.busyPhys.map fun p => (p, s.cyclesNow (s.pinned p) (2 * p) (s.physOf p).clock)
  let pms := s.busyPhysM.map fun p => (p, s.cyclesNow (s.pinnedM p) (2 * p + 1) (s.physMOf p).clock)
  let s := pcs.foldl (fun s x => s.modPhys x.1 fun p => { p with clock := x.2.2 }) s
  let s := pms.foldl (fun s x => s.modPhysM x.1 fun p =>
    { p with clock := { x.2.2 with begun := x.2.2.begun + x.2.1 } }) s
  s.first ((List.range 8).flatMap fun j =>
    ((pcs.filter fun x => decide (j < x.2.1)).flatMap fun x =>
      (if j = 0 then [] else [evt' .contextSwitch x.1 1]) ++ [.cycle x.1]) ++
    ((pms.filter fun x => decide (j < x.2.1)).map fun x => .mcycle x.1))

/-- The turns of one tick: the context switches of its reference edge, the cores' cycles that begin in it, and the tick
itself. -/
def State.round (s : State) : List Turn :=
  (s.busyPhys.map fun p => evt' .contextSwitch p 0) ++ [.cycles, .tick]

end Sys2Proof.Machine
end

