-- ==== Sys2Proof/Machine/Dispatch.lean ====
section
/-! DEFINITION. One arm per step of the table: each calls its meaning, or is rejected by name. -/

namespace Sys2Proof.Machine

/-- A step of the table where the machine stands. -/
def exec (i : Instr) (s : State) : Host.Outcome State Fault Refusal :=
  match i with
  | .mov f => Sys2Proof.Machine.execMov f s
  | .add f => Sys2Proof.Machine.execAdd f s
  | .sub f => Sys2Proof.Machine.execSub f s
  | .addw f => Sys2Proof.Machine.execAddw f s
  | .subw f => Sys2Proof.Machine.execSubw f s
  | .mul f => Sys2Proof.Machine.execMul f s
  | .mulh f => Sys2Proof.Machine.execMulh f s
  | .mulhn f => Sys2Proof.Machine.execMulhn f s
  | .div f => Sys2Proof.Machine.execDiv f s
  | .divn f => Sys2Proof.Machine.execDivn f s
  | .rem f => Sys2Proof.Machine.execRem f s
  | .remn f => Sys2Proof.Machine.execRemn f s
  | .and f => Sys2Proof.Machine.execAnd f s
  | .or f => Sys2Proof.Machine.execOr f s
  | .xor f => Sys2Proof.Machine.execXor f s
  | .andn f => Sys2Proof.Machine.execAndn f s
  | .shl f => Sys2Proof.Machine.execShl f s
  | .shr f => Sys2Proof.Machine.execShr f s
  | .sra f => Sys2Proof.Machine.execSra f s
  | .rotr f => Sys2Proof.Machine.execRotr f s
  | .min f => Sys2Proof.Machine.execMin f s
  | .max f => Sys2Proof.Machine.execMax f s
  | .minn f => Sys2Proof.Machine.execMinn f s
  | .maxn f => Sys2Proof.Machine.execMaxn f s
  | .abs f => Sys2Proof.Machine.execAbs f s
  | .clz f => Sys2Proof.Machine.execClz f s
  | .popc f => Sys2Proof.Machine.execPopc f s
  | .ext f => Sys2Proof.Machine.execExt f s
  | .ins f => Sys2Proof.Machine.execIns f s
  | .seq f => Sys2Proof.Machine.execSeq f s
  | .sne f => Sys2Proof.Machine.execSne f s
  | .slt f => Sys2Proof.Machine.execSlt f s
  | .sle f => Sys2Proof.Machine.execSle f s
  | .sltn f => Sys2Proof.Machine.execSltn f s
  | .slen f => Sys2Proof.Machine.execSlen f s
  | .mula f => Sys2Proof.Machine.execMula f s
  | .crd f => Sys2Proof.Machine.execCrd f s
  | .crx f => Sys2Proof.Machine.execCrx f s
  | .inc f => Sys2Proof.Machine.execInc f s
  | .dec f => Sys2Proof.Machine.execDec f s
  | .step f => Sys2Proof.Machine.execStep f s
  | .sel f => Sys2Proof.Machine.execSel f s
  | .pass f => Sys2Proof.Machine.execPass f s
  | .drop f => Sys2Proof.Machine.execDrop f s
  | .tagr f => Sys2Proof.Machine.execTagr f s
  | .tagw f => Sys2Proof.Machine.execTagw f s
  | .busr f => Sys2Proof.Machine.execBusr f s
  | .busc f => Sys2Proof.Machine.execBusc f s
  | .pack2 f => Sys2Proof.Machine.execPack2 f s
  | .fadd f => Sys2Proof.Machine.execFadd f s
  | .fsub f => Sys2Proof.Machine.execFsub f s
  | .fmul f => Sys2Proof.Machine.execFmul f s
  | .fma f => Sys2Proof.Machine.execFma f s
  | .fmin f => Sys2Proof.Machine.execFmin f s
  | .fmax f => Sys2Proof.Machine.execFmax f s
  | .fabs f => Sys2Proof.Machine.execFabs f s
  | .fneg f => Sys2Proof.Machine.execFneg f s
  | .fclt f => Sys2Proof.Machine.execFclt f s
  | .fceq f => Sys2Proof.Machine.execFceq f s
  | .fexp2 f => Sys2Proof.Machine.execFexp2 f s
  | .flog2 f => Sys2Proof.Machine.execFlog2 f s
  | .frcp f => Sys2Proof.Machine.execFrcp f s
  | .frsq f => Sys2Proof.Machine.execFrsq f s
  | .fsum f => Sys2Proof.Machine.execFsum f s
  | .fscl f => Sys2Proof.Machine.execFscl f s
  | .vaddBf f => Sys2Proof.Machine.execVaddBf f s
  | .vsubBf f => Sys2Proof.Machine.execVsubBf f s
  | .vmulBf f => Sys2Proof.Machine.execVmulBf f s
  | .vfmaBf f => Sys2Proof.Machine.execVfmaBf f s
  | .vmaxBf f => Sys2Proof.Machine.execVmaxBf f s
  | .vminBf f => Sys2Proof.Machine.execVminBf f s
  | .vdotBf f => Sys2Proof.Machine.execVdotBf f s
  | .vrsumBf f => Sys2Proof.Machine.execVrsumBf f s
  | .vaddB f => Sys2Proof.Machine.execVaddB f s
  | .vaddsB f => Sys2Proof.Machine.execVaddsB f s
  | .vsubB f => Sys2Proof.Machine.execVsubB f s
  | .vmaxB f => Sys2Proof.Machine.execVmaxB f s
  | .vminB f => Sys2Proof.Machine.execVminB f s
  | .vdotB f => Sys2Proof.Machine.execVdotB f s
  | .vaddW f => Sys2Proof.Machine.execVaddW f s
  | .vmulW f => Sys2Proof.Machine.execVmulW f s
  | .vshuf f => Sys2Proof.Machine.execVshuf f s
  | .vbcast f => Sys2Proof.Machine.execVbcast f s
  | .vsel f => Sys2Proof.Machine.execVsel f s
  | .mmaBf16 f => Sys2Proof.Machine.execMmaBf16 f s
  | .mmaBf16D f => Sys2Proof.Machine.execMmaBf16D f s
  | .mmaBf16Z f => Sys2Proof.Machine.execMmaBf16Z f s
  | .mmaBf16Zd f => Sys2Proof.Machine.execMmaBf16Zd f s
  | .mmaE4m3 f => Sys2Proof.Machine.execMmaE4m3 f s
  | .mmaE4m3D f => Sys2Proof.Machine.execMmaE4m3D f s
  | .mmaE4m3Z f => Sys2Proof.Machine.execMmaE4m3Z f s
  | .mmaE4m3Zd f => Sys2Proof.Machine.execMmaE4m3Zd f s
  | .mmaE5m2 f => Sys2Proof.Machine.execMmaE5m2 f s
  | .mmaE5m2D f => Sys2Proof.Machine.execMmaE5m2D f s
  | .mmaE5m2Z f => Sys2Proof.Machine.execMmaE5m2Z f s
  | .mmaE5m2Zd f => Sys2Proof.Machine.execMmaE5m2Zd f s
  | .mmaMx4 f => Sys2Proof.Machine.execMmaMx4 f s
  | .mmaMx4D f => Sys2Proof.Machine.execMmaMx4D f s
  | .mmaMx4Z f => Sys2Proof.Machine.execMmaMx4Z f s
  | .mmaMx4Zd f => Sys2Proof.Machine.execMmaMx4Zd f s
  | .mmaI8 f => Sys2Proof.Machine.execMmaI8 f s
  | .mmaI8D f => Sys2Proof.Machine.execMmaI8D f s
  | .mmaI8Z f => Sys2Proof.Machine.execMmaI8Z f s
  | .mmaI8Zd f => Sys2Proof.Machine.execMmaI8Zd f s
  | .mmaT2 f => Sys2Proof.Machine.execMmaT2 f s
  | .mmaT2D f => Sys2Proof.Machine.execMmaT2D f s
  | .mmaT2Z f => Sys2Proof.Machine.execMmaT2Z f s
  | .mmaT2Zd f => Sys2Proof.Machine.execMmaT2Zd f s
  | .mmaRowLanding => Sys2Proof.Machine.execMmaRowLanding s
  | .accZero f => Sys2Proof.Machine.execAccZero f s
  | .accDcy f => Sys2Proof.Machine.execAccDcy f s
  | .accScl f => Sys2Proof.Machine.execAccScl f s
  | .accDrn f => Sys2Proof.Machine.execAccDrn f s
  | .accDrnRowSend => Sys2Proof.Machine.execAccDrnRowSend s
  | .accRd f => Sys2Proof.Machine.execAccRd f s
  | .accPatch f => Sys2Proof.Machine.execAccPatch f s
  | .accMode f => Sys2Proof.Machine.execAccMode f s
  | .bhold f => Sys2Proof.Machine.execBhold f s
  | .sld f => Sys2Proof.Machine.execSld f s
  | .sst f => Sys2Proof.Machine.execSst f s
  | .sldg f => Sys2Proof.Machine.execSldg f s
  | .sstg f => Sys2Proof.Machine.execSstg f s
  | .sgen f => Sys2Proof.Machine.execSgen f s
  | .saadd f => Sys2Proof.Machine.execSaadd f s
  | .samax f => Sys2Proof.Machine.execSamax f s
  | .scas f => Sys2Proof.Machine.execScas f s
  | .sown f => Sys2Proof.Machine.execSown f s
  | .sfill f => Sys2Proof.Machine.execSfill f s
  | .sbeat f => Sys2Proof.Machine.execSbeat f s
  | .seStreamWord => Sys2Proof.Machine.execSeStreamWord s
  | .cvtBfF32 f => Sys2Proof.Machine.execCvtBfF32 f s
  | .cvtF32Bf f => Sys2Proof.Machine.execCvtF32Bf f s
  | .cvtE4F32 f => Sys2Proof.Machine.execCvtE4F32 f s
  | .cvtE5F32 f => Sys2Proof.Machine.execCvtE5F32 f s
  | .cvtF32E4 f => Sys2Proof.Machine.execCvtF32E4 f s
  | .cvtF32E5 f => Sys2Proof.Machine.execCvtF32E5 f s
  | .cvtBfE4 f => Sys2Proof.Machine.execCvtBfE4 f s
  | .cvtMx4Bf f => Sys2Proof.Machine.execCvtMx4Bf f s
  | .cvtBfMx4 f => Sys2Proof.Machine.execCvtBfMx4 f s
  | .cvtI8F32 f => Sys2Proof.Machine.execCvtI8F32 f s
  | .cvtF32I8 f => Sys2Proof.Machine.execCvtF32I8 f s
  | .cvtF32I64 f => Sys2Proof.Machine.execCvtF32I64 f s
  | .cvtI64F32 f => Sys2Proof.Machine.execCvtI64F32 f s
  | .gld f => Sys2Proof.Machine.execGld f s
  | .gldc f => Sys2Proof.Machine.execGldc f s
  | .gst f => Sys2Proof.Machine.execGst f s
  | .gatom f => Sys2Proof.Machine.execGatom f s
  | .gldb f => Sys2Proof.Machine.execGldb f s
  | .agen f => Sys2Proof.Machine.execAgen f s
  | .astr f => Sys2Proof.Machine.execAstr f s
  | .xfer f => Sys2Proof.Machine.execXfer f s
  | .gred f => Sys2Proof.Machine.execGred f s
  | .coll f => Sys2Proof.Machine.execColl f s
  | .route f => Sys2Proof.Machine.execRoute f s
  | .msnd f => Sys2Proof.Machine.execMsnd f s
  | .tstat f => Sys2Proof.Machine.execTstat f s
  | .mown f => Sys2Proof.Machine.execMown f s
  | .leReply => Sys2Proof.Machine.execLeReply s
  | .leStreamToken => Sys2Proof.Machine.execLeStreamToken s
  | .faultReissue => Sys2Proof.Machine.execFaultReissue s
  | .nop f => Sys2Proof.Machine.execNop f s
  | .halt f => Sys2Proof.Machine.execHalt f s
  | .commit f => Sys2Proof.Machine.execCommit f s
  | .trap f => Sys2Proof.Machine.execTrap f s
  | .waitc f => Sys2Proof.Machine.execWaitc f s
  | .time f => Sys2Proof.Machine.execTime f s
  | .cyc f => Sys2Proof.Machine.execCyc f s
  | .id f => Sys2Proof.Machine.execId f s
  | .fence f => Sys2Proof.Machine.execFence f s
  | .bars f => Sys2Proof.Machine.execBars f s
  | .cwset f => Sys2Proof.Machine.execCwset f s
  | .watch f => Sys2Proof.Machine.execWatch f s
  | .cfgw f => Sys2Proof.Machine.execCfgw f s
  | .arrv f => Sys2Proof.Machine.execArrv f s
  | .evt f => Sys2Proof.Machine.execEvt f s
  | .elementTrap => Sys2Proof.Machine.execElementTrap s
  | .longResultArrival => Sys2Proof.Machine.execLongResultArrival s
  | .tokenArrival => Sys2Proof.Machine.execTokenArrival s
  | .detourSend => Sys2Proof.Machine.execDetourSend s
  | .creditReturn => Sys2Proof.Machine.execCreditReturn s
  | .rowBusDelivery => Sys2Proof.Machine.execRowBusDelivery s
  | .columnChunkDelivery => Sys2Proof.Machine.execColumnChunkDelivery s
  | .columnReaderChunk => Sys2Proof.Machine.execColumnReaderChunk s
  | .blockLoad => Sys2Proof.Machine.execBlockLoad s
  | .blockIssue => Sys2Proof.Machine.execBlockIssue s
  | .blockComplete => Sys2Proof.Machine.execBlockComplete s
  | .groupCommit => Sys2Proof.Machine.execGroupCommit s
  | .spillCommit => Sys2Proof.Machine.execSpillCommit s
  | .cfgMissTimeout => Sys2Proof.Machine.execCfgMissTimeout s
  | .admitWindow => Sys2Proof.Machine.execAdmitWindow s
  | .contextSwitch => Sys2Proof.Machine.execContextSwitch s
  | .eviction => Sys2Proof.Machine.execEviction s
  | .restore => Sys2Proof.Machine.execRestore s
  | .run n => Sys2Proof.Machine.execRun n s
  | .runs n => Sys2Proof.Machine.execRuns n s
  | .lgen n => Sys2Proof.Machine.execLgen n s
  | .lend n => Sys2Proof.Machine.execLend n s
  | .cond n => Sys2Proof.Machine.execCond n s
  | .whileN n => Sys2Proof.Machine.execWhileN n s
  | .jmp n => Sys2Proof.Machine.execJmp n s
  | .callg n => Sys2Proof.Machine.execCallg n s
  | .retg n => Sys2Proof.Machine.execRetg n s
  | .fork n => Sys2Proof.Machine.execFork n s
  | .join n => Sys2Proof.Machine.execJoin n s
  | .bar n => Sys2Proof.Machine.execBar n s
  | .waitt n => Sys2Proof.Machine.execWaitt n s
  | .place n => Sys2Proof.Machine.execPlace n s
  | .yieldg n => Sys2Proof.Machine.execYieldg n s
  | .trapg n => Sys2Proof.Machine.execTrapg n s
  | .haltg n => Sys2Proof.Machine.execHaltg n s
  | .evw n => Sys2Proof.Machine.execEvw n s
  | .capq n => Sys2Proof.Machine.execCapq n s
  | .taskRun => Sys2Proof.Machine.execTaskRun s
  | .stealProbe => Sys2Proof.Machine.execStealProbe s
  | .joinDecrement => Sys2Proof.Machine.execJoinDecrement s
  | .boundTokenApply => Sys2Proof.Machine.execBoundTokenApply s
  | .tdef q => Sys2Proof.Machine.execTdef q s
  | .tset q => Sys2Proof.Machine.execTset q s
  | .mode q => Sys2Proof.Machine.execMode q s
  | .rot q => Sys2Proof.Machine.execRot q s
  | .strm q => Sys2Proof.Machine.execStrm q s
  | .acpt q => Sys2Proof.Machine.execAcpt q s
  | .pred q => Sys2Proof.Machine.execPred q s
  | .tcmp q => Sys2Proof.Machine.execTcmp q s
  | .arrvSet q => Sys2Proof.Machine.execArrvSet q s
  | .waita q => Sys2Proof.Machine.execWaita q s
  | .waits q => Sys2Proof.Machine.execWaits q s
  | .own q => Sys2Proof.Machine.execOwn q s
  | .drng q => Sys2Proof.Machine.execDrng q s
  | .sigw q => Sys2Proof.Machine.execSigw q s
  | .seqXfer q => Sys2Proof.Machine.execSeqXfer q s
  | .seqJmp q => Sys2Proof.Machine.execSeqJmp q s
  | .loop q => Sys2Proof.Machine.execLoop q s
  | .seqHalt q => Sys2Proof.Machine.execSeqHalt q s
  | .strmBeat => Sys2Proof.Machine.execStrmBeat s
  | .tileWriteArrival => Sys2Proof.Machine.execTileWriteArrival s
  | .predComplete => Sys2Proof.Machine.execPredComplete s
  | .tcmpComplete => Sys2Proof.Machine.execTcmpComplete s
  | .verifyComplete => Sys2Proof.Machine.execVerifyComplete s
  | .verdictApply => Sys2Proof.Machine.execVerdictApply s
  | .barrierComplete => Sys2Proof.Machine.execBarrierComplete s
  | .transferCommand => Sys2Proof.Machine.execTransferCommand s
  | .gatherReduceCommand => Sys2Proof.Machine.execGatherReduceCommand s
  | .routingCommand => Sys2Proof.Machine.execRoutingCommand s
  | .collectiveCommand => Sys2Proof.Machine.execCollectiveCommand s
  | .engineCompletion => Sys2Proof.Machine.execEngineCompletion s
  | .curatorPlace => Sys2Proof.Machine.execCuratorPlace s
  | .translationFill => Sys2Proof.Machine.execTranslationFill s
  | .frameMove => Sys2Proof.Machine.execFrameMove s
  | .hostSend => Sys2Proof.Machine.execHostSend s
  | .launch => Sys2Proof.Machine.execLaunch s
  | .cancel => Sys2Proof.Machine.execCancel s
  | .setpri => Sys2Proof.Machine.execSetpri s
  | .bound => Sys2Proof.Machine.execBound s
  | .unknownCommand => Sys2Proof.Machine.execUnknownCommand s
  | .reservedChannelMessage => Sys2Proof.Machine.execReservedChannelMessage s
  | .serviceMessage => Sys2Proof.Machine.execServiceMessage s
  | .queuePlacement => Sys2Proof.Machine.execQueuePlacement s
  | .teamComplete => Sys2Proof.Machine.execTeamComplete s
  | .resume => Sys2Proof.Machine.execResume s
  | .freeze => Sys2Proof.Machine.execFreeze s
  | .teardown => Sys2Proof.Machine.execTeardown s
  | .vopen => Sys2Proof.Machine.execVopen s
  | .vclose => Sys2Proof.Machine.execVclose s
  | .lease => Sys2Proof.Machine.execLease s
  | .resolve => Sys2Proof.Machine.execResolve s
  | .deadlockProbe => Sys2Proof.Machine.execDeadlockProbe s
  | .probeArrival => Sys2Proof.Machine.execProbeArrival s
  | .hangFreeze => Sys2Proof.Machine.execHangFreeze s
  | .uncorrectableError => Sys2Proof.Machine.execUncorrectableError s
  | .correctedError => Sys2Proof.Machine.execCorrectedError s
  | .scoreDecay => Sys2Proof.Machine.execScoreDecay s
  | .conservatorWithdraw => Sys2Proof.Machine.execConservatorWithdraw s
  | .testComplete => Sys2Proof.Machine.execTestComplete s
  | .thermalSample => Sys2Proof.Machine.execThermalSample s
  | .referenceLoss => Sys2Proof.Machine.execReferenceLoss s
  | .migwaitExpiry => Sys2Proof.Machine.execMigwaitExpiry s
  | .migration => Sys2Proof.Machine.execMigration s
  | .powerInterval => Sys2Proof.Machine.execPowerInterval s
  | .rlsUpdate => Sys2Proof.Machine.execRlsUpdate s
  | .pbudgetWrite => Sys2Proof.Machine.execPbudgetWrite s
  | .powerOn => Sys2Proof.Machine.execPowerOn s
  | .rdmaWrite => Sys2Proof.Machine.execRdmaWrite s
  | .rdmaRead => Sys2Proof.Machine.execRdmaRead s
  | .refusedRequest => Sys2Proof.Machine.execRefusedRequest s
  | .windowDescriptorWrite => Sys2Proof.Machine.execWindowDescriptorWrite s
  | .registerWrite => Sys2Proof.Machine.execRegisterWrite s
  | .extend => Sys2Proof.Machine.execExtend s
  | .nonceWrite => Sys2Proof.Machine.execNonceWrite s
  | .attreq => Sys2Proof.Machine.execAttreq s
  | .reportComplete => Sys2Proof.Machine.execReportComplete s
  | .hostMessageSend => Sys2Proof.Machine.execHostMessageSend s
  | .flitReceive => Sys2Proof.Machine.execFlitReceive s
  | .retryResend => Sys2Proof.Machine.execRetryResend s
  | .packetStart => Sys2Proof.Machine.execPacketStart s
  | .escapeTimeout => Sys2Proof.Machine.execEscapeTimeout s
  | .auditSend => Sys2Proof.Machine.execAuditSend s
  | .auditCheck => Sys2Proof.Machine.execAuditCheck s
  | .laneFailure => Sys2Proof.Machine.execLaneFailure s
  | .portStateFlit => Sys2Proof.Machine.execPortStateFlit s
  | .podBarrierArrival => Sys2Proof.Machine.execPodBarrierArrival s
  | .podBarrierRelease => Sys2Proof.Machine.execPodBarrierRelease s
  | .timeSync => Sys2Proof.Machine.execTimeSync s
  | .loadRequest => Sys2Proof.Machine.execLoadRequest s
  | .linkUp => Sys2Proof.Machine.execLinkUp s

end Sys2Proof.Machine
end

