-- ==== Sys2Proof/Machine/Fetch.lean ====
section
/-! DEFINITION. Where the words of a program stand when they are fetched, and what each turn does (log 1, log 5). -/

namespace Sys2Proof.Machine

/-! ### Fetching -/

/-- The word of a slot. -/
def State.slotWord (s : State) (ctx core pos slot : Nat) : W64 :=
  (((s.core? (ctx, core)).bind fun c => c.elem? pos).map fun e => e.slot slot).getD 0#64

/-- The node word at a walker's position. -/
def State.walkerWord (s : State) (ctx core : Nat) : Option W64 :=
  ((s.core? (ctx, core)).bind fun c => c.walker.pos).map fun p => s.nodeWord ctx p

/-- The word at a sequencer's PC (R208). -/
def State.sequencerWord (s : State) (ctx core : Nat) : Option W64 :=
  (s.mcore? (ctx, core)).bind fun m => if m.stopped then none else m.prog[m.pc]?

/-- Runs a decoded step where it stands; a word the load checks reject is never loaded. -/
def runDecoded (r : Except DecodeError Instr) (h : Here) (s : State) : Host.Outcome State Fault Refusal :=
  match r with
  | .ok i => exec i { s with here := h }
  | .error .emptySlot => .next s
  | .error _ => .refused .illegalWord

/-! ### Turns -/

/-- One turn, taken from the front of the list. -/
def runTurn (t : Turn) (s : State) : Host.Outcome State Fault Refusal :=
  match t with
  | .event i h => exec i { s with here := h }
  | .fire ctx core pos slot sel => runDecoded (decodeSlot (s.slotWord ctx core pos slot)) ⟨ctx, core, pos, slot, sel⟩ s
  | .walker ctx core => match s.walkerWord ctx core with
    | some w => runDecoded (decodeNode w) ⟨ctx, core, 0, 0, 0⟩ s
    | none => .next s
  | .sequencer ctx core => match s.sequencerWord ctx core with
    | some w => runDecoded (decodeSeq w) ⟨ctx, core, 0, 0, 0⟩ s
    | none => .next s
  | .bus ctx core pos slot => match s.busVerdict (ctx, core) pos slot with
    | (s, true) => runDecoded (decodeSlot (s.slotWord ctx core pos slot)) ⟨ctx, core, pos, slot, 0⟩ s
    | (s, false) => .next s
  | .element ctx core pos => .next (s.elementTurns ctx core pos)
  | .arbitrate ctx core => .next (s.busTurns ctx core)
  | .cycle pc => .next (s.beginCycle pc)
  | .work pc => .next (s.workCycle pc)
  | .finish pc => .next (s.finishCycle pc)
  | .endCycle pc => .next (s.endCycle pc)
  | .mcycle pm => .next (s.beginMcycle pm)
  | .endMcycle pm => .next (s.endMcycle pm)
  | .cycles => .next s.beginCycles
  | .tick => .next s.tickNow

/-- The front of the list of turns; when it is used up the next round begins. -/
def State.nextTurn (s : State) : Turn × List Turn :=
  match s.turns with
  | t :: ts => (t, ts)
  | [] => match s.round with
    | t :: ts => (t, ts)
    | [] => (.tick, [])

/-! ### Placing one word (log 5) -/

/-- A team of one quad that runs in the foreground of quad 0. -/
def State.withTeam (s : State) : State :=
  if (s.team? 0).isSome then s
  else { s with
    teams := s.teams.put 0 { Team.init with place := [0], groups := [0] }
    cores := s.cores.put (0, 0) CoreCtx.init
    mcores := s.mcores.put (0, 0) MCoreCtx.init
    phys := s.phys.put 0 { PhysCore.init with res := [0], fg := some 0 }
    physM := s.physM.put 0 { PhysMCore.init with res := [0] } }

/-- A position of a kind on which a word may stand. -/
def posFor (w : W64) : Nat :=
  match [Kind.pe, .me, .se, .ce, .le].find? fun k => (slotFail k true w).isNone with
  | some .pe => 9
  | some .me => 16
  | some .se => 0
  | some .ce => 11
  | some .le => 4
  | none => 9

/-- A tag that a test passes (Table 3.2). -/
def ctlFor (t : Nat) : Ctl :=
  match t with
  | 3 => .last | 4 => .sep | 5 => .null | 7 => .last | _ => .data

/-- An issued element whose slot 0 is the word and that can fire it: registers full, two tokens in each queue, ports routed,
predicates as the match asks. -/
def elemFor (w : W64) : Elem :=
  let f := Fields.ofWord w
  let ctl (q : Nat) : Ctl := if f.ta ≠ 0#3 ∧ f.qa.toNat = q then ctlFor f.ta.toNat
    else if f.tb ≠ 0#3 ∧ f.qb.toNat = q then ctlFor f.tb.toNat else .data
  { Elem.init with
    run := some 0
    regs := Vector.replicate 12 ⟨0#64, .i64, false, true, false⟩
    preds := Vector.ofFn fun i : Fin 8 => ⟨f.pv.getLsbD i, false, false⟩
    queues := Vector.ofFn fun i : Fin 4 => List.replicate 2 ⟨0#64, .raw, ctl i, false⟩
    ports := Vector.replicate 4 ⟨[⟨1, 0, 1, 4⟩], none⟩
    slots := upd (Vector.replicate 16 0#64) 0 w }

/-- A block run that owns one element. -/
def runFor (pos : Nat) : Run where
  id := 0
  node := 0
  block := 0
  itr := 0
  runs := false
  status := ⟨false, false, false, false, 0, 0⟩
  elems := [pos]
  commitPos := pos
  group := 0
  ended := []
  closing := false
  level := 0
  spec := false
  inputs := []
  complete := false
  reissue := false
  fires := 0
  unroll := 1
  issue := 0

/-- The word in a slot, as the next turn. -/
def State.placeSlot (s : State) (w : W64) : State :=
  let p := posFor w
  let s := s.withTeam.modCore (0, 0) fun c =>
    { c with elems := c.elems.put p (elemFor w), runs := runFor p :: c.runs.filter fun r => r.id != 0 }
  { s with turns := .fire 0 0 p 0 (if kindAt p = .me then 1 else 0) :: s.turns }

/-- The word in a graph, as the next turn. -/
def State.placeNode (s : State) (w : W64) : State :=
  let s := s.withTeam.modTeam 0 fun t => { t with graph := [0#64, w] }
  let s := s.modCore (0, 0) fun c => c.modWalker fun k => { k with pos := some 0, mark := .none }
  { s with turns := .walker 0 0 :: s.turns }

/-- The word in a sequencer's program, as the next turn. -/
def State.placeSeq (s : State) (w : W64) : State :=
  let s := s.withTeam.modMcore (0, 0) fun m => { m with prog := [w], pc := 0, stopped := false }
  { s with turns := .sequencer 0 0 :: s.turns }

/-- A machine step, as the next turn. -/
def State.placeEvent (s : State) (w : BitVec 72) : State :=
  match decode w with
  | .ok i => { s.withTeam with turns := .event i Here.zero :: s.withTeam.turns }
  | .error _ => s

/-- A step word of any class, as the next turn. -/
def State.placeWord (s : State) (w : BitVec 72) : State :=
  match field w 64 8 with
  | 0 => s.placeSlot (w.extractLsb' 0 64)
  | 1 => s.placeNode (w.extractLsb' 0 64)
  | 2 => s.placeSeq (w.extractLsb' 0 64)
  | _ => s.placeEvent w

end Sys2Proof.Machine
end

