-- ==== Sys2Proof/Machine/Step.lean ====
section
/-! DEFINITION. One step of the machine: the turn that stands first runs (log 1). -/

namespace Sys2Proof.Machine

/-- One step. -/
def step (s : State) : Host.Outcome State Fault Refusal :=
  let x := s.nextTurn
  runTurn x.1 { s with turns := x.2 }

/-- The state with one word placed where `step` takes the next one (log 5). -/
def State.withFetchWord (s : State) (nbits w : Nat) : State := s.placeWord (BitVec.ofNat 72 (w % 2 ^ nbits))

end Sys2Proof.Machine
end

