-- ==== Sys2Proof/Safety.lean ====
section
/-! DEFINITION. What counts as a safe run. -/

namespace Sys2Proof

/-- A step that goes on: neither a fault nor a refusal. -/
def Goes (s t : Machine.State) : Prop := Machine.step s = .next t

/-- A step that does not stop. -/
def Safe (s : Machine.State) : Prop := ∃ t, Goes s t

end Sys2Proof
end

