-- ==== Sys2Proof/WellFormed.lean ====
section
/-! DEFINITION. Well-formed steps: those whose word the device loads (R49, R57, R176, R209). -/

namespace Sys2Proof

open Machine

/-- The kinds an opcode may stand on, in the order of Table 1.1's legend. -/
def allKinds : List Kind := [.pe, .me, .se, .ce, .le]

/-- An element word passes the single-slot checks on some kind of element (reasons 0x01 to 0x07, R59). -/
def slotWf (w : W64) : Bool := allKinds.any fun k => (slotFail k true w).isNone

/-- Is the step's word one the device accepts? A node is checked without the bounds of its graph and a sequencer word
against the longest program (256 words, R208); a machine step has no word in the spec. -/
def Instr.wf (i : Instr) : Bool :=
  let w := encode i
  let cls := field w 64 8
  let w64 := w.extractLsb' 0 64
  if cls = 0 then slotWf w64
  else if cls = 1 then (nodeFail 1024 [field w64 0 20] w64).isNone
  else if cls = 2 then (seqFail 256 w64).isNone
  else true

end Sys2Proof
end

