-- ==== Sys2Proof/Certificates/Slice0/Obligations.lean ====
section
/-! DEFINITION. The statements about this machine, one `Obligations.<Name>` each, over the predicates of the namespace
Claims, which say in the spec's words where a step stands and what it leaves. -/

open Sys2Proof Sys2Proof.Machine

/-! ### Where an element operation stands and what its fire leaves (R21 to R28) -/

/-- The step runs at element `e` of core `c`. -/
structure Sys2Proof.Claims.At (s : State) (c : CoreCtx) (e : Elem) : Prop where
  core : s.core? s.key = some c
  elem : c.elem? s.here.pos = some e

namespace Sys2Proof.Claims

/-- The operands that a slot with this opcode reads (R24 steps 1 and 2, R29). -/
def operands (opc : Nat) (f : Fields) (s : State) (c : CoreCtx) (e : Elem) : Ins :=
  readIns c e s.here.core s.here.pos ((shapeOf opc).getD .sa) f

/-- R28: the OR of the taints of every source and of the guard. -/
def taint (i : Ins) : Bool := i.a.tnt || i.b.tnt || i.d.tnt || i.guardTnt

/-- Only credits on their way back to senders (R18, R79). -/
def OnlyCredits (l : List Flight) : Prop :=
  ∀ x ∈ l, (∃ pos port rcv, x.cargo = .credit pos port rcv) ∨ ∃ pos q, x.cargo = .busCredit pos q

/-- The tokens that one send puts on its way, one to each receiver (R16, R156). -/
def sent (run group : Nat) (rs : List Recv) (t : Token) : List Flight :=
  rs.map fun x => ⟨x.lat, run, group, .token x.pos x.q t⟩

/-- One credit fewer for each receiver (R18). -/
def oneLess (rs : List Recv) : List Recv := rs.map fun x => { x with credits := x.credits - 1 }

/-- A result given at the fire (R19, R24 steps 5 and 7, R25, R42): the register is full with it, or a token with the CTL
that TOUT chooses is on its way to each receiver. -/
def LandsNow (f : Fields) (pos : Nat) (c : CoreCtx) (e : Elem) (i : Ins) (r : Res) (c' : CoreCtx) : Prop :=
  let d := f.dst.toNat
  let e' := c'.elemD pos
  e'.flags = e.flags.or r.flags ∧
  (d ≤ 11 → e'.reg d = ⟨r.data, r.fmt, r.tnt, true, false⟩) ∧
  (24 ≤ d ∧ d ≤ 27 →
    (e'.port (d - 24)).recvs = oneLess (e.port (d - 24)).recvs ∧
    ∃ back, OnlyCredits back ∧ c'.flights = c.flights ++ back ++
      sent e.runId (c.groupOf e.runId) (e.port (d - 24)).recvs ⟨r.data, r.fmt, r.ctl.getD (toutCtl f i), r.tnt⟩)

/-- A result given `lat` cycles of the row clock later (R19, R25, R65, R84, R227): the register is pending, or the port's
credit is taken, and the result is on its way. -/
def LandsLater (lat : Nat) (f : Fields) (pos : Nat) (c : CoreCtx) (e : Elem) (i : Ins) (r : Res) (c' : CoreCtx) : Prop :=
  let d := f.dst.toNat
  let e' := c'.elemD pos
  e'.flags = e.flags ∧
  (d ≤ 11 → (e'.reg d).pending = true ∧ (e'.reg d).full = false) ∧
  (24 ≤ d ∧ d ≤ 27 → (e'.port (d - 24)).recvs = oneLess (e.port (d - 24)).recvs) ∧
  ∃ back x, OnlyCredits back ∧
    c'.flights = c.flights ++ back ++ [⟨lat * at' c.divs (pos / 8) 1, e.runId, c.groupOf e.runId, .result x⟩] ∧
    x.pos = pos ∧ x.dst = d ∧ x.data = r.data ∧ x.fmt = r.fmt ∧ x.tnt = r.tnt ∧ x.flags = r.flags ∧
    x.ctl = r.ctl.getD (toutCtl f i)

/-- Every ready slot of this operation fires and gives `v` of its operands at once. -/
def GivesNow (k : Kind) (mk : Fields → Instr) (o : Op) (v : Fields → Elem → Ins → Res) : Prop :=
  ∀ f s c e, At s c e → kindAt s.here.pos = k → slotStatus o f s s.site = .ready →
    ∃ t c', exec (mk f) s = .next t ∧ t.core? s.key = some c' ∧
      LandsNow f s.here.pos c e (operands o.opc f s c e) (v f e (operands o.opc f s c e)) c'

/-- Every ready slot of this operation fires and gives `v` of its operands after its latency. -/
def GivesLater (k : Kind) (lat : Nat) (mk : Fields → Instr) (o : Op) (v : Fields → Elem → Ins → Res) : Prop :=
  ∀ f s c e, At s c e → kindAt s.here.pos = k → slotStatus o f s s.site = .ready →
    ∃ t c', exec (mk f) s = .next t ∧ t.core? s.key = some c' ∧
      LandsLater lat f s.here.pos c e (operands o.opc f s c e) (v f e (operands o.opc f s c e)) c'

/-- An integer result: format I64, no flag (R64). -/
def int (w : W64 → W64 → W64 → W64) (_ : Fields) (_ : Elem) (i : Ins) : Res :=
  ⟨w i.d.data i.a.data i.b.data, .i64, taint i, Flags.none, none⟩

/-- A result of lanes with the flags that its lanes raise (R83, R42). -/
def flagged (fmt : Fmt) (w : W64 → W64 → W64 → W64 × Flags) (_ : Fields) (_ : Elem) (i : Ins) : Res :=
  let x := w i.d.data i.a.data i.b.data
  ⟨x.1, fmt, taint i, x.2, none⟩

/-- 1 where a condition holds, else 0 (R71). -/
def truth (b : Bool) : W64 := if b then 1#64 else 0#64

/-- Table 4.2, the rows of latency 1 (R65, R68). -/
def arithmetic : List ((Fields → Instr) × Op × (Fields → Elem → Ins → Res)) :=
  [(.mov, movOp, fun _ _ i => ⟨i.a.data, i.a.fmt, i.a.tnt, Flags.none, none⟩),
   (.add, addOp, int fun _ a b => a + b),
   (.sub, subOp, int fun _ a b => a - b),
   (.addw, addwOp, int fun _ a b => (BitVec.ofNat 32 (a.toNat % 2 ^ 32 + b.toNat % 2 ^ 32)).signExtend 64),
   (.subw, subwOp, int fun _ a b => (BitVec.ofInt 32 ((a.toNat % 2 ^ 32 : Nat) - (b.toNat % 2 ^ 32 : Nat))).signExtend 64),
   (.and, andOp, int fun _ a b => a &&& b),
   (.or, orOp, int fun _ a b => a ||| b),
   (.xor, xorOp, int fun _ a b => a ^^^ b),
   (.andn, andnOp, int fun _ a b => a &&& ~~~b),
   (.shl, shlOp, int fun _ a b => a <<< (b.toNat % 64)),
   (.shr, shrOp, int fun _ a b => a >>> (b.toNat % 64)),
   (.sra, sraOp, int fun _ a b => BitVec.ofInt 64 (a.toInt / 2 ^ (b.toNat % 64))),
   (.rotr, rotrOp, int fun _ a b => if b.toNat % 64 = 0 then a else a >>> (b.toNat % 64) ||| a <<< (64 - b.toNat % 64)),
   (.min, minOp, int fun _ a b => if a.toInt ≤ b.toInt then a else b),
   (.max, maxOp, int fun _ a b => if a.toInt ≥ b.toInt then a else b),
   (.minn, minnOp, int fun _ a b => if a.toNat ≤ b.toNat then a else b),
   (.maxn, maxnOp, int fun _ a b => if a.toNat ≥ b.toNat then a else b)]

/-- R70: a field's length, cut at bit 63. -/
def fieldLength (b : W64) : Nat :=
  if b.toNat % 64 + (b.toNat / 256 % 64 + 1) > 64 then 64 - b.toNat % 64 else b.toNat / 256 % 64 + 1

/-- R70. -/
def extract (a b : W64) : W64 :=
  let x := a.toNat / 2 ^ (b.toNat % 64) % 2 ^ fieldLength b
  if b.getLsbD 16 && x.testBit (fieldLength b - 1) then BitVec.ofNat 64 (x + (2 ^ 64 - 2 ^ fieldLength b)) else BitVec.ofNat 64 x

/-- R70. -/
def insert (d a b : W64) : W64 :=
  let mask := BitVec.ofNat 64 (2 ^ fieldLength b - 1)
  (d &&& ~~~(mask <<< (b.toNat % 64))) ||| ((a &&& mask) <<< (b.toNat % 64))

/-- R69: the zero bits above the highest one bit. -/
def leadingZeros (a : W64) : Nat := ((List.range 64).takeWhile fun i => !a.getLsbD (63 - i)).length

/-- R69, R70, R71, R73, R74: fields, counts, compares, coordinates and counters. -/
def fieldsAndCompares : List ((Fields → Instr) × Op × (Fields → Elem → Ins → Res)) :=
  [(.abs, absOp, int fun _ a _ => if a.toInt ≥ 0 then a else -a),
   (.clz, clzOp, int fun _ a _ => BitVec.ofNat 64 (leadingZeros a)),
   (.popc, popcOp, int fun _ a _ => BitVec.ofNat 64 ((List.range 64).filter fun i => a.getLsbD i).length),
   (.ext, extOp, int fun _ a b => extract a b),
   (.ins, insOp, int fun d a b => insert d a b),
   (.seq, seqOp, int fun _ a b => truth (a == b)),
   (.sne, sneOp, int fun _ a b => truth (a != b)),
   (.slt, sltOp, int fun _ a b => truth (decide (a.toInt < b.toInt))),
   (.sle, sleOp, int fun _ a b => truth (decide (a.toInt ≤ b.toInt))),
   (.sltn, sltnOp, int fun _ a b => truth (decide (a.toNat < b.toNat))),
   (.slen, slenOp, int fun _ a b => truth (decide (a.toNat ≤ b.toNat))),
   (.crd, crdOp, int fun _ a b => a.extractLsb' 0 32 ++ b.extractLsb' 0 32),
   (.crx, crxOp, int fun _ a b => (a.extractLsb' 32 32 + b.extractLsb' 32 32) ++ (a.extractLsb' 0 32 + b.extractLsb' 0 32)),
   (.inc, incOp, int fun _ a _ => a + 1#64),
   (.dec, decOp, int fun _ a _ => a - 1#64),
   (.step, stepOp, int fun _ a b =>
     let n := a + (b.extractLsb' 32 32).signExtend 64
     if n.toNat ≥ b.toNat % 2 ^ 32 then 0#64 else n)]

/-- R47. -/
def signedQuotient (a b : W64) : W64 :=
  if b = 0#64 then BitVec.allOnes 64
  else if a.toInt = -2 ^ 63 ∧ b.toInt = -1 then BitVec.ofInt 64 (-2 ^ 63)
  else BitVec.ofInt 64 (a.toInt.tdiv b.toInt)
def signedRest (a b : W64) : W64 :=
  if b = 0#64 then a
  else if a.toInt = -2 ^ 63 ∧ b.toInt = -1 then 0#64
  else BitVec.ofInt 64 (a.toInt - a.toInt.tdiv b.toInt * b.toInt)

/-- R65, R68, R72, R95 (VDOT.B and VMUL.W use the multiplier, R84): products and quotients with their latencies. -/
def productsAndQuotients : List (Nat × (Fields → Instr) × Op × (Fields → Elem → Ins → Res)) :=
  [(3, .mul, mulOp, int fun _ a b => BitVec.ofNat 64 (a.toNat * b.toNat)),
   (3, .mulh, mulhOp, int fun _ a b => BitVec.ofInt 64 (a.toInt * b.toInt / 2 ^ 64)),
   (3, .mulhn, mulhnOp, int fun _ a b => BitVec.ofNat 64 (a.toNat * b.toNat / 2 ^ 64)),
   (3, .mula, mulaOp, int fun d a b => BitVec.ofNat 64 (d.toNat + a.toNat * b.toNat)),
   (18, .div, divOp, int fun _ a b => signedQuotient a b),
   (18, .divn, divnOp, int fun _ a b => if b = 0#64 then BitVec.allOnes 64 else BitVec.ofNat 64 (a.toNat / b.toNat)),
   (18, .rem, remOp, int fun _ a b => signedRest a b),
   (18, .remn, remnOp, int fun _ a b => if b = 0#64 then a else BitVec.ofNat 64 (a.toNat - a.toNat / b.toNat * b.toNat))]

/-- R75, R76, R77. -/
def streams : List ((Fields → Instr) × Op × (Fields → Elem → Ins → Res)) :=
  [(.sel, selOp, fun _ _ i => ⟨if i.guard then i.a.data else i.b.data, if i.guard then i.a.fmt else i.b.fmt, taint i, Flags.none, none⟩),
   (.pass, passOp, fun _ _ i => ⟨i.a.data, i.a.fmt, i.a.tnt, Flags.none, none⟩),
   (.tagr, tagrOp, fun _ _ i => ⟨BitVec.ofNat 64 (i.ctlA.code + 4 * i.a.fmt.code), .i64, i.a.tnt, Flags.none, none⟩),
   (.tagw, tagwOp, fun _ _ i => ⟨i.a.data,
     if i.b.data.getLsbD 2 then Fmt.ofCode (i.b.data.toNat / 8 % 8) else i.a.fmt, i.a.tnt || i.b.tnt, Flags.none,
     some (Ctl.ofCode (i.b.data.toNat % 4))⟩),
   (.pack2, pack2Op, fun _ _ i => ⟨i.b.data.extractLsb' 0 32 ++ i.a.data.extractLsb' 0 32,
     if i.a.fmt = i.b.fmt then i.a.fmt else .raw, taint i, Flags.none, none⟩)]

/-- The lanes of FP32 and BF16 operands as values. -/
def s32 (i : Nat) (x : W64) : FVal := fp32.decode (x.toNat / 2 ^ (32 * i) % 2 ^ 32)
def s16 (i : Nat) (x : W64) : FVal := bf16.decode (x.toNat / 2 ^ (16 * i) % 2 ^ 16)

/-- A sum of addends rounded once (R87), and an operation on each lane by itself (R83). -/
def sum32 (reads : List FVal) (terms : List (Option FVal)) : Rounded := fpEval fp32 reads terms
def sum16 (reads : List FVal) (terms : List (Option FVal)) : Rounded := fpEval bf16 reads terms
def both (v : Nat → Rounded) : W64 × Flags :=
  (BitVec.ofNat 32 (v 1).bits ++ BitVec.ofNat 32 (v 0).bits, (v 0).flags.or (v 1).flags)
def all4 (v : Nat → Rounded) : W64 × Flags :=
  (BitVec.ofNat 16 (v 3).bits ++ BitVec.ofNat 16 (v 2).bits ++ BitVec.ofNat 16 (v 1).bits ++ BitVec.ofNat 16 (v 0).bits,
    (((v 0).flags.or (v 1).flags).or (v 2).flags).or (v 3).flags)
def lane0 (r : Rounded) (hi : BitVec 32) : W64 × Flags := (hi ++ BitVec.ofNat 32 r.bits, r.flags)
def coded (x : Nat × Flags) : Rounded := ⟨x.1, x.2, false⟩

/-- R90: a sign changed, a NaN made canonical. -/
def sign (g : Nat → Nat) (x : Nat) : Rounded :=
  if (fp32.decode x).isNan then ⟨0x7FC00000, { Flags.none with nv := (fp32.decode x).isSnan }, false⟩ else ⟨g x, Flags.none, false⟩

/-- R91: a lane of all ones where the condition holds and no NaN is read. -/
def mask (nv cond : Bool) (x y : FVal) : Rounded :=
  ⟨if cond && !x.isNan && !y.isNan then 0xFFFFFFFF else 0, { Flags.none with nv := nv }, false⟩

/-- R88, R89, R90, R91, R92 with the latencies of R84. -/
def floats : List (Nat × (Fields → Instr) × Op × (Fields → Elem → Ins → Res)) :=
  let lo (x : W64) (i : Nat) : Nat := x.toNat / 2 ^ (32 * i) % 2 ^ 32
  [(4, .fadd, faddOp, flagged .f32x2 fun _ a b => both fun i => sum32 [s32 i a, s32 i b] [some (s32 i a), some (s32 i b)]),
   (4, .fsub, fsubOp, flagged .f32x2 fun _ a b => both fun i => sum32 [s32 i a, s32 i b] [some (s32 i a), some (s32 i b).negate]),
   (4, .fmul, fmulOp, flagged .f32x2 fun _ a b => both fun i => sum32 [s32 i a, s32 i b] [(s32 i a).mul (s32 i b)]),
   (4, .fma, fmaOp, flagged .f32x2 fun d a b => both fun i =>
     sum32 [s32 i d, s32 i a, s32 i b] [some (s32 i d), (s32 i a).mul (s32 i b)]),
   (4, .fmin, fminOp, flagged .f32x2 fun _ a b => both fun i => coded (fminmax fp32 true (lo a i) (lo b i))),
   (4, .fmax, fmaxOp, flagged .f32x2 fun _ a b => both fun i => coded (fminmax fp32 false (lo a i) (lo b i))),
   (4, .fabs, fabsOp, flagged .f32x2 fun _ a _ => both fun i => sign (fun x => x % 2 ^ 31) (lo a i)),
   (4, .fneg, fnegOp, flagged .f32x2 fun _ a _ => both fun i => sign (fun x => (x + 2 ^ 31) % 2 ^ 32) (lo a i)),
   (4, .fclt, fcltOp, flagged .raw fun _ a b => both fun i =>
     mask ((s32 i a).isNan || (s32 i b).isNan) (FVal.lt false (s32 i a) (s32 i b)) (s32 i a) (s32 i b)),
   (4, .fceq, fceqOp, flagged .raw fun _ a b => both fun i =>
     mask ((s32 i a).isSnan || (s32 i b).isSnan) ((s32 i a).veq (s32 i b)) (s32 i a) (s32 i b)),
   (8, .fexp2, fexp2Op, flagged .f32x2 fun _ a _ => both fun i => coded (fexp2 (lo a i))),
   (8, .flog2, flog2Op, flagged .f32x2 fun _ a _ => both fun i => coded (flog2 (lo a i))),
   (8, .frcp, frcpOp, flagged .f32x2 fun _ a _ => both fun i => coded (frcp (lo a i))),
   (8, .frsq, frsqOp, flagged .f32x2 fun _ a _ => both fun i => coded (frsq (lo a i))),
   (4, .fsum, fsumOp, flagged .f32x2 fun _ a _ => lane0 (sum32 [s32 0 a, s32 1 a] [some (s32 0 a), some (s32 1 a)]) 0#32),
   (4, .fscl, fsclOp, flagged .f32x2 fun _ a b => both fun i =>
     sum32 [s32 i a] [some (scaleVal (s32 i a) (b.extractLsb' 0 32).toInt)])]

/-- R93, R94 and the multiplier's rows of R95, with the latencies of R84. -/
def vectorsLater : List (Nat × (Fields → Instr) × Op × (Fields → Elem → Ins → Res)) :=
  let lo (x : W64) (i : Nat) : Nat := x.toNat / 2 ^ (16 * i) % 2 ^ 16
  [(3, .vaddBf, vaddBfOp, flagged .bf16x4 fun _ a b => all4 fun i => sum16 [s16 i a, s16 i b] [some (s16 i a), some (s16 i b)]),
   (3, .vsubBf, vsubBfOp, flagged .bf16x4 fun _ a b => all4 fun i =>
     sum16 [s16 i a, s16 i b] [some (s16 i a), some (s16 i b).negate]),
   (3, .vmulBf, vmulBfOp, flagged .bf16x4 fun _ a b => all4 fun i => sum16 [s16 i a, s16 i b] [(s16 i a).mul (s16 i b)]),
   (3, .vfmaBf, vfmaBfOp, flagged .bf16x4 fun d a b => all4 fun i =>
     sum16 [s16 i d, s16 i a, s16 i b] [some (s16 i d), (s16 i a).mul (s16 i b)]),
   (3, .vmaxBf, vmaxBfOp, flagged .bf16x4 fun _ a b => all4 fun i => coded (fminmax bf16 false (lo a i) (lo b i))),
   (3, .vminBf, vminBfOp, flagged .bf16x4 fun _ a b => all4 fun i => coded (fminmax bf16 true (lo a i) (lo b i))),
   (3, .vdotBf, vdotBfOp, flagged .f32x2 fun d a b => lane0 (sum32
     [s32 0 d, s16 0 a, s16 1 a, s16 2 a, s16 3 a, s16 0 b, s16 1 b, s16 2 b, s16 3 b]
     [some (s32 0 d), (s16 0 a).mul (s16 0 b), (s16 1 a).mul (s16 1 b), (s16 2 a).mul (s16 2 b), (s16 3 a).mul (s16 3 b)])
     (d.extractLsb' 32 32)),
   (3, .vrsumBf, vrsumBfOp, flagged .f32x2 fun _ a _ => lane0 (sum32 [s16 0 a, s16 1 a, s16 2 a, s16 3 a]
     [some (s16 0 a), some (s16 1 a), some (s16 2 a), some (s16 3 a)]) 0#32),
   (3, .vdotB, vdotBOp, int fun d a b => BitVec.ofInt 64 (d.toInt +
     ((List.range 8).map fun i => (a.extractLsb' (8 * i) 8).toInt * (b.extractLsb' (8 * i) 8).toInt).sum)),
   (3, .vmulW, vmulWOp, flagged .raw fun _ a b =>
     ((a.extractLsb' 32 32 * b.extractLsb' 32 32) ++ (a.extractLsb' 0 32 * b.extractLsb' 0 32), Flags.none))]

/-- Eight lanes of 8 bits, lane by lane. -/
def bytes (v : Nat → BitVec 8) : W64 := v 7 ++ v 6 ++ v 5 ++ v 4 ++ v 3 ++ v 2 ++ v 1 ++ v 0

/-- The rows of R95 and R96 of latency 1 (R84). -/
def vectorsNow : List ((Fields → Instr) × Op × (Fields → Elem → Ins → Res)) :=
  let at8 (x : W64) (i : Nat) : BitVec 8 := x.extractLsb' (8 * i) 8
  let plain (w : W64 → W64 → W64) : W64 → W64 → W64 → W64 × Flags := fun _ a b => (w a b, Flags.none)
  [(.vaddB, vaddBOp, flagged .i8x8 (plain fun a b => bytes fun i => at8 a i + at8 b i)),
   (.vaddsB, vaddsBOp, flagged .i8x8 (plain fun a b => bytes fun i =>
     BitVec.ofInt 8 (max (-128) (min 127 ((at8 a i).toInt + (at8 b i).toInt))))),
   (.vsubB, vsubBOp, flagged .i8x8 (plain fun a b => bytes fun i => at8 a i - at8 b i)),
   (.vmaxB, vmaxBOp, flagged .i8x8 (plain fun a b => bytes fun i => if (at8 a i).toInt ≥ (at8 b i).toInt then at8 a i else at8 b i)),
   (.vminB, vminBOp, flagged .i8x8 (plain fun a b => bytes fun i => if (at8 a i).toInt ≤ (at8 b i).toInt then at8 a i else at8 b i)),
   (.vaddW, vaddWOp, flagged .raw (plain fun a b =>
     (a.extractLsb' 32 32 + b.extractLsb' 32 32) ++ (a.extractLsb' 0 32 + b.extractLsb' 0 32))),
   (.vshuf, vshufOp, fun _ _ i => ⟨bytes fun j =>
     let c := i.b.data.toNat / 2 ^ (4 * j) % 16
     if c ≤ 7 then at8 i.a.data c else 0#8, i.a.fmt, taint i, Flags.none, none⟩),
   (.vbcast, vbcastOp, flagged .raw (plain fun a b =>
     let w := 4 * 2 ^ (b.toNat / 16 % 4)
     let x := a.toNat / 2 ^ (w * (b.toNat % 16 % (64 / w))) % 2 ^ w
     BitVec.ofNat 64 ((List.range (64 / w)).map fun i => x * 2 ^ (w * i)).sum)),
   (.vsel, vselOp, fun _ e i => ⟨bytes fun j => if (e.pred j).val then at8 i.a.data j else at8 i.b.data j,
     if i.a.fmt = i.b.fmt then i.a.fmt else .raw, taint i || (List.range 8).any (fun j => (e.pred j).tnt), Flags.none, none⟩)]

end Sys2Proof.Claims

/-- R68 (Table 4.2): a ready slot of each one-cycle row fires and gives the row's result. -/
def Sys2Proof.Claims.ArithmeticGivesTable42 : Prop := ∀ x ∈ Claims.arithmetic, Claims.GivesNow .pe x.1 x.2.1 x.2.2

/-- R69, R70, R71, R73, R74: fields, counts, compares, coordinates and counters give what their rules say. -/
def Sys2Proof.Claims.FieldsAndComparesGive : Prop := ∀ x ∈ Claims.fieldsAndCompares, Claims.GivesNow .pe x.1 x.2.1 x.2.2

/-- R68, R72, R47: products after 3 cycles, quotients and remainders after 18 (Table 4.1). -/
def Obligations.ProductsAndQuotientsGive : Prop :=
  ∀ x ∈ Claims.productsAndQuotients, Claims.GivesLater .pe x.1 x.2.1 x.2.2.1 x.2.2.2

/-- R75, R76, R77. -/
def Sys2Proof.Claims.StreamOpsGive : Prop := ∀ x ∈ Claims.streams, Claims.GivesNow .pe x.1 x.2.1 x.2.2

/-! ### Numbers (R32 to R44, R87, R92), said of exact fractions -/

namespace Sys2Proof.Claims

/-- The number that a decoded value stands for, and its sign. -/
def Stands (v : FVal) (neg : Bool) (x : ℚ) : Prop :=
  ∃ m e, v = .num neg m e ∧ x = (if neg then -1 else 1) * (m : ℚ) * (2 : ℚ) ^ (e : ℤ)

/-- R38: the magnitudes of a format in rising order, its exponent unbounded above (Tables 2.1 and 2.2). -/
def grid (f : FFmt) (k : ℕ) : ℚ :=
  if k < 2 ^ f.mb then (k : ℚ) * (2 : ℚ) ^ (1 - (f.bias : ℤ) - f.mb)
  else ((2 ^ f.mb + k % 2 ^ f.mb : ℕ) : ℚ) * (2 : ℚ) ^ ((k / 2 ^ f.mb : ℕ) - (f.bias : ℤ) - f.mb)

/-- Table 2.1: the code of the largest finite magnitude. -/
def largest (f : FFmt) : ℕ :=
  if f = fp32 then 0x7F7FFFFF else if f = bf16 then 0x7F7F else if f = e4m3 then 0x7E else 0x7B

/-- Table 2.5: what a finite overflow gives. -/
def overflowed (f : FFmt) (mode : RMode) (sat : Bool) : ℕ :=
  if f = e4m3 then (if sat then 0x7E else 0x7F)
  else if f = e5m2 then (if sat then 0x7B else 0x7C)
  else if mode = .rtz then largest f else largest f + 1

/-- The magnitude of which `below` and `above` hold of what is less and more than it rounds to code `k` under RNE (R38). -/
def Nearest (f : FFmt) (below above : ℚ → Prop) (k : ℕ) : Prop :=
  let mid := fun j => (grid f j + grid f (j + 1)) / 2
  (∀ j, k = j + 1 → below (mid j) ∨ (¬ above (mid j) ∧ k % 2 = 0)) ∧
    (above (mid k) ∨ (¬ below (mid k) ∧ k % 2 = 0))

/-- R38, R40: the code and the flags of a magnitude that rounds to grid code `k`, `tiny` saying that it is so after rounding. -/
def Coded (f : FFmt) (mode : RMode) (sat neg : Bool) (k : ℕ) (inexact tiny : Prop) (bits : ℕ) (fl : Flags) : Prop :=
  let sign := if neg then 2 ^ (f.eb + f.mb) else 0
  if largest f < k then bits = sign + overflowed f mode sat ∧ fl = { Flags.none with of := true, nx := true }
  else bits = sign + k ∧ (fl.nx = true ↔ inexact) ∧ (fl.uf = true ↔ inexact ∧ tiny) ∧
    fl = { Flags.none with nx := fl.nx, uf := fl.uf }

/-- R38: the least normal magnitude. -/
def minNormal (f : FFmt) : ℚ := (2 : ℚ) ^ (1 - (f.bias : ℤ))

/-- R38 under RNE, of a magnitude known by what lies below and above it. -/
def RoundsNearest (f : FFmt) (sat neg : Bool) (below above : ℚ → Prop) (bits : ℕ) (fl : Flags) : Prop :=
  ∃ k, Nearest f below above k ∧
    Coded f .rne sat neg k (below (grid f k) ∨ above (grid f k)) (above (minNormal f * (1 - 1 / 2 ^ (f.mb + 2)))) bits fl

/-- R38, R39: `round_to` of a magnitude. -/
def Rounds (f : FFmt) (mode : RMode) (sat : Bool) (draw : ℕ) (neg : Bool) (x : ℚ) (bits : ℕ) (fl : Flags) : Prop :=
  match mode with
  | .rne => RoundsNearest f sat neg (· < x) (x < ·) bits fl
  | .rtz => ∃ k, grid f k ≤ x ∧ x < grid f (k + 1) ∧
      Coded f .rtz sat neg k (grid f k < x) (x < minNormal f) bits fl
  | .sr => ∃ a k, grid f a ≤ x ∧ x < grid f (a + 1) ∧
      (k = if grid f a < x ∧ 65536 ≤ ⌊(x - grid f a) / (grid f (a + 1) - grid f a) * 65536⌋ + (draw : ℤ) then a + 1 else a) ∧
      Coded f .sr sat neg k (grid f a < x)
        (x < minNormal f ∧ ¬ (k = a + 1 ∧ minNormal f * (1 - 1 / 2 ^ (f.mb + 1)) < x)) bits fl

/-- A number as sign, magnitude and exponent, and its value. -/
abbrev Term := Bool × ℕ × ℤ
def Term.val (t : Term) : FVal := .num t.1 t.2.1 t.2.2
def Term.real (t : Term) : ℚ := (if t.1 then -1 else 1) * (t.2.1 : ℚ) * (2 : ℚ) ^ t.2.2

def arithmeticFormats : List FFmt := [fp32, bf16, e4m3, e5m2]

/-- R32, R33, R35: a code is read by its fields. -/
def NumbersDecode : Prop :=
  (∀ f ∈ arithmeticFormats ++ [e2m1], ∀ b < 2 ^ (1 + f.eb + f.mb),
    let neg := decide (2 ^ (f.eb + f.mb) ≤ b)
    let ex : ℕ := b / 2 ^ f.mb % 2 ^ f.eb
    let man : ℕ := b % 2 ^ f.mb
    if f ∈ [fp32, bf16, e5m2] ∧ ex = 2 ^ f.eb - 1 then
      f.decode b = if man = 0 then .inf neg else .nan (decide (f ≠ e5m2 ∧ man < 2 ^ (f.mb - 1)))
    else if f = e4m3 ∧ b % 128 = 127 then f.decode b = .nan false
    else Stands (f.decode b) neg ((if neg then -1 else 1) *
      (if ex = 0 then (man : ℚ) / 2 ^ f.mb * (2 : ℚ) ^ (1 - (f.bias : ℤ))
        else (1 + (man : ℚ) / 2 ^ f.mb) * (2 : ℚ) ^ ((ex : ℤ) - f.bias)))) ∧
  (∀ code < 16, decodeMx code 0xFF = .nan false ∧
    ∀ e < 255, ∀ neg x, Stands (e2m1.decode code) neg x → Stands (decodeMx code e) neg (x * (2 : ℚ) ^ ((e : ℤ) - 127)))

/-- R33, R38 to R41: a number is rounded once to its format, or to an integer; infinities and NaNs follow Table 2.5 and R33. -/
def NumbersNarrow : Prop :=
  (∀ f ∈ arithmeticFormats, ∀ mode sat draw n m e, m ≠ 0 → draw < 65536 →
    let r := narrow f mode sat draw (.num n m e)
    Rounds f mode sat draw n ((m : ℚ) * (2 : ℚ) ^ (e : ℤ)) r.bits r.flags) ∧
  (∀ f ∈ arithmeticFormats, ∀ mode sat draw (n : Bool),
    let r := narrow f mode sat draw (.inf n)
    r.bits = (if n then 2 ^ (f.eb + f.mb) else 0) +
        (if f = e4m3 then (if sat then 0x7E else 0x7F) else largest f + 1) ∧
      r.flags = { Flags.none with of := decide (f = e4m3) && sat, nv := decide (f = e4m3) && !sat }) ∧
  (∀ mode sat draw s, ∀ x ∈ [(fp32, 0x7FC00000), (bf16, 0x7FC0), (e4m3, 0x7F), (e5m2, 0x7E)],
    let r := narrow x.1 mode sat draw (.nan s)
    r.bits = x.2 ∧ r.flags = { Flags.none with nv := s }) ∧
  (∀ w ∈ [8, 16, 32, 64], ∀ mode ∈ [RMode.rne, RMode.rtz], ∀ (t : Term),
    let r := toInt w mode 0 t.val
    ∃ k : ℤ, (mode = .rne → |(k : ℚ) - t.real| ≤ 1 / 2 ∧ (|(k : ℚ) - t.real| = 1 / 2 → k % 2 = 0)) ∧
      (mode = .rtz → |(k : ℚ)| ≤ |t.real| ∧ |(k : ℚ) - t.real| < 1) ∧
      (2 ^ (w - 1) ≤ k → r.1 = 2 ^ (w - 1) - 1 ∧ r.2.1 = { Flags.none with nv := true }) ∧
      (k < -2 ^ (w - 1) → r.1 = -2 ^ (w - 1) ∧ r.2.1 = { Flags.none with nv := true }) ∧
      (-2 ^ (w - 1) ≤ k ∧ k < 2 ^ (w - 1) → r.1 = k ∧ r.2.1 = { Flags.none with nx := decide ((k : ℚ) ≠ t.real) }))

/-- R33, R34, R87: products are exact, and a sum of them is rounded once. -/
def SumsRoundOnce : Prop :=
  (∀ a b : Term, ∃ p : Term, a.val.mul b.val = some p.val ∧ p.real = a.real * b.real ∧ p.1 = (a.1 != b.1)) ∧
  (∀ (n : Bool) (t : Term), (FVal.inf n).mul t.val = (if t.2.1 = 0 then none else some (.inf (n != t.1)))) ∧
  (∀ f ∈ [fp32, bf16], ∀ (ops : List FVal) (ts : List Term), (∀ o ∈ ops, ∀ s, o ≠ .nan s) →
    let x := (ts.map Term.real).sum
    let r := fpEval f ops (ts.map fun t => some t.val)
    (x ≠ 0 → Rounds f .rne true 0 (decide (x < 0)) |x| r.bits r.flags) ∧
    (x = 0 → r.flags = Flags.none ∧
      r.bits = if ts ≠ [] ∧ ∀ t ∈ ts, t.1 = true ∧ t.2.1 = 0 then 2 ^ (f.eb + f.mb) else 0)) ∧
  (∀ f ∈ [fp32, bf16], ∀ (ops : List FVal) (ts : List (Option FVal)), (∃ s, FVal.nan s ∈ ops) →
    let r := fpEval f ops ts
    f.decode r.bits = .nan false ∧ r.bits < 2 ^ (f.eb + f.mb) ∧ (r.flags.nv = true ↔ FVal.nan true ∈ ops)) ∧
  (∀ f ∈ [fp32, bf16], ∀ (ops : List FVal) (ts : List (Option FVal)), (∀ s, FVal.nan s ∉ ops) →
    none ∈ ts ∨ (some (.inf true) ∈ ts ∧ some (.inf false) ∈ ts) →
    let r := fpEval f ops ts
    f.decode r.bits = .nan false ∧ r.flags = { Flags.none with nv := true })

/-- R43, R44: one element of a row fire is its base and the sum of its products, rounded once, or added modulo 2^32. -/
def RowElementsRoundOnce : Prop :=
  (∀ (c γ : Term) z d (ps : List (Term × Term)),
    let base := if z then 0 else if d then γ.real * c.real else c.real
    let x := base + (ps.map fun p => p.1.real * p.2.real).sum
    let r := mmaElem c.val γ.val z d (ps.map fun p => p.1.val) (ps.map fun p => p.2.val)
    (x ≠ 0 → Rounds fp32 .rne true 0 (decide (x < 0)) |x| r.bits r.flags) ∧
    (x = 0 → z = true ∨ base ≠ 0 → r.bits = 0 ∧ r.flags = Flags.none)) ∧
  (∀ c γ z d as bs, (∃ s, FVal.nan s ∈ as ++ bs) → (mmaElem c γ z d as bs).bits = 0x7FC00000) ∧
  (∀ (c : W32) γ (z d : Bool) (sum : ℤ), z = true ∨ d = false →
    let x := (if z then 0 else c.toInt) + sum
    mmaIntElem c γ z d sum = (BitVec.ofInt 32 x, { Flags.none with io := decide (x < -2 ^ 31 ∨ 2 ^ 31 ≤ x) }))

/-- R92, Table 5.3: the reciprocal and the reciprocal root are rounded once; powers of two and their logarithms are exact. -/
def SpecialFunctionsRoundOnce : Prop :=
  (∀ b neg x, b < 2 ^ 32 → Stands (fp32.decode b) neg x → x ≠ 0 →
    RoundsNearest fp32 true neg (fun q => q * |x| < 1) (fun q => 1 < q * |x|) (frcp b).1 (frcp b).2) ∧
  (∀ b x, b < 2 ^ 32 → Stands (fp32.decode b) false x → x ≠ 0 →
    RoundsNearest fp32 true false (fun q => q * q * x < 1) (fun q => 1 < q * q * x) (frsq b).1 (frsq b).2) ∧
  (∀ b neg (k : ℤ), b < 2 ^ 32 → Stands (fp32.decode b) neg k → -149 ≤ k → k ≤ 127 →
    Stands (fp32.decode (fexp2 b).1) false ((2 : ℚ) ^ k) ∧ (fexp2 b).2 = Flags.none) ∧
  (∀ b (k : ℤ), b < 2 ^ 32 → Stands (fp32.decode b) false ((2 : ℚ) ^ k) →
    Stands (fp32.decode (flog2 b).1) (decide (k < 0)) k ∧ (flog2 b).2 = Flags.none)

end Sys2Proof.Claims

/-- R32 to R44, R87, R92: numbers are read by their fields and rounded once. -/
def Obligations.NumbersRoundOnce : Prop :=
  Claims.NumbersDecode ∧
    Claims.NumbersNarrow ∧
    Claims.SumsRoundOnce ∧
    Claims.RowElementsRoundOnce ∧
    Claims.SpecialFunctionsRoundOnce

/-- R88 to R92 with the latencies of R84. -/
def Sys2Proof.Claims.FloatOpsGive : Prop := ∀ x ∈ Claims.floats, Claims.GivesLater .pe x.1 x.2.1 x.2.2.1 x.2.2.2

/-- R93, R94, R95: vector operations of latency 3. -/
def Sys2Proof.Claims.VectorSumsGive : Prop := ∀ x ∈ Claims.vectorsLater, Claims.GivesLater .pe x.1 x.2.1 x.2.2.1 x.2.2.2

/-- R95, R96: vector operations of latency 1. -/
def Sys2Proof.Claims.VectorLanesGive : Prop := ∀ x ∈ Claims.vectorsNow, Claims.GivesNow .pe x.1 x.2.1 x.2.2

namespace Sys2Proof.Claims

/-- Does a slot read this source code (R21, R54)? -/
def Reads (sh : Shape) (f : Fields) (code : Nat) : Prop :=
  (sh.srcA = true ∧ f.sa.toNat = code) ∨ (sh.srcB = true ∧ f.sb.toNat = code)

/-- Does a DQ bit of the slot take this source (R24)? -/
def Takes (sh : Shape) (f : Fields) (code : Nat) : Prop :=
  (sh.srcA = true ∧ f.dqa = true ∧ f.sa.toNat = code) ∨ (sh.srcB = true ∧ f.dqb = true ∧ f.sb.toNat = code)

/-- R21, R29: the predicate match of a trigger. -/
def Matches (e : Elem) (f : Fields) : Prop :=
  if f.x = true then
    ∃ h, e.head? f.qa.toNat = some h ∧ h.fmt = .raw ∧ h.data.extractLsb' 56 8 &&& f.pm = f.pv &&& f.pm
  else ∀ i < 8, f.pm.getLsbD i = true → (e.pred i).val = f.pv.getLsbD i ∧ (e.pred i).pending = false

/-- R21: `qtest`. -/
def Tagged (e : Elem) (q t : Nat) : Prop :=
  t = 0 ∨ ∃ h, e.head? q = some h ∧
    (t = 1 ∨ (t = 2 ∧ h.ctl = .data) ∨ (t = 3 ∧ h.ctl = .last) ∨ (t = 4 ∧ h.ctl = .sep) ∨ (t = 5 ∧ h.ctl = .null) ∨
      (t = 6 ∧ h.ctl ≠ .null) ∨ (t = 7 ∧ h.ctl ≠ .data))

/-- R17: the queue's ACCEPT mask does not name the head's format. -/
def Refused (e : Elem) (q : Nat) : Prop :=
  ∃ h, e.head? q = some h ∧ (at' e.cfg.accept q 0xFF#8).getLsbD h.fmt.code = false

/-- R31: a NULL head that the slot reads as an operand, unless its trigger tests that queue with .n or .!d. -/
def NullFault (whole : Bool) (sh : Shape) (f : Fields) (e : Elem) (q : Nat) : Prop :=
  whole = false ∧ Reads sh f (12 + q) ∧ (∃ h, e.head? q = some h ∧ h.ctl = .null) ∧
    ¬ (f.qa.toNat = q ∧ (f.ta.toNat = 5 ∨ f.ta.toNat = 7)) ∧ ¬ (f.qb.toNat = q ∧ (f.tb.toNat = 5 ∨ f.tb.toNat = 7))

/-- R18, R19, R66, R85: the destination of a slot that gives a result after `cycles` cycles. -/
def Writable (sh : Shape) (f : Fields) (c : CoreCtx) (e : Elem) (pos cycles : Nat) : Prop :=
  let d := f.dst.toNat
  if sh.d = .accum then (e.reg d).pending = false
  else
    (d ≤ 11 → (e.reg d).pending = false ∧
      (e.cfg.regmode.getLsbD d = true ∨ (e.reg d).full = false ∨ Takes sh f d)) ∧
    (24 ≤ d ∧ d ≤ 27 →
      (e.port (d - 24)).recvs ≠ [] ∧ (∀ x ∈ (e.port (d - 24)).recvs, 0 < x.credits) ∧ (e.port (d - 24)).hold = none ∧
      ∀ fl ∈ c.flights, ∀ x, fl.cargo = .result x → x.pos = pos → x.dst = d → fl.left < cycles)

/-- R21 with the rules it names: a slot of a PE operation without conditions of its own is ready. -/
def Ready (o : Op) (sh : Shape) (f : Fields) (c : CoreCtx) (e : Elem) (pos : Nat) : Prop :=
  -- the element runs (R143, R146, R173, R255, R302)
  (c.frozen = false ∧ c.resident = true ∧ e.run ≠ none ∧ e.halted = false ∧ e.waiting = false ∧ e.held = none) ∧
  -- match and tag tests
  Matches e f ∧ Tagged e f.qa.toNat f.ta.toNat ∧ Tagged e f.qb.toNat f.tb.toNat ∧
  -- no head that its detour takes away (R17)
  (∀ q < 4, Reads sh f (12 + q) ∨ (f.qa.toNat = q ∧ f.ta.toNat ≠ 0) ∨ (f.qb.toNat = q ∧ f.tb.toNat ≠ 0) →
    Refused e q → at' e.cfg.detour q 0 = 0) ∧
  -- operands
  (∀ q < 4, Reads sh f (12 + q) → e.queue q ≠ [] ∧ ¬ Refused e q ∧ ¬ NullFault o.whole sh f e q) ∧
  (∀ r, (r ≤ 11 ∧ Reads sh f r) ∨ (sh.d = .accum ∧ f.dst.toNat = r) → (e.reg r).full = true ∧ (e.reg r).pending = false) ∧
  -- destination and predicates
  Writable sh f c e pos (o.delay * at' c.divs (pos / 8) 1) ∧
  (f.pu ≠ 0#3 → (e.pred f.pn.toNat).pending = false)

/-- The PE operations of Tables 4.1 and 5.1 whose readiness is R21 alone (TAGW's second operand and the divider of R65, the
buses of R78 and the predicates that VSEL reads are further conditions). -/
def plainOps : List ((Fields → Instr) × Op) :=
  (arithmetic ++ fieldsAndCompares ++ streams.filter (fun x => x.2.1.opc != 0x44) ++
      vectorsNow.filter (fun x => x.2.1.opc != 0x82)).map (fun x => (x.1, x.2.1)) ++
    (productsAndQuotients.filter (fun x => x.1 == 3) ++ floats ++ vectorsLater).map (fun x => (x.2.1, x.2.2.1))

end Sys2Proof.Claims

/-- R21: a slot is ready exactly when its trigger, operands, destination and predicates say so. -/
def Obligations.ReadyExactlyWhenR21 : Prop :=
  ∀ x ∈ Claims.plainOps, ∀ (sh : Shape), shapeOf x.2.opc = some sh → ∀ f s c e, Claims.At s c e →
    kindAt s.here.pos = .pe → f.dst.toNat ≤ 11 ∨ 24 ≤ f.dst.toNat →
      (slotStatus x.2 f s s.site = .ready ↔ Claims.Ready x.2 sh f c e s.here.pos)

namespace Sys2Proof.Claims

/-- What a fire that only reads operands and gives a result leaves alone (R24, R28, R30): every register but the destination
and those it empties, every queue but those it dequeues, every port and predicate but its own, every other element and
core, and all memory; the counters of R256, R315 and R368 go on. -/
structure Leaves (sh : Shape) (f : Fields) (s : State) (c : CoreCtx) (e : Elem) (t : State) (c' : CoreCtx) : Prop where
  emptied : ∀ n ≤ 11, f.dst.toNat ≠ n ∨ sh.d = .none → Takes sh f n → (c'.elemD s.here.pos).reg n = { e.reg n with full := false }
  regs : ∀ n ≤ 11, f.dst.toNat ≠ n ∨ sh.d = .none → ¬ Takes sh f n → (c'.elemD s.here.pos).reg n = e.reg n
  dequeued : ∀ q < 4, Takes sh f (12 + q) → (c'.elemD s.here.pos).queue q = (e.queue q).drop 1
  queues : ∀ q < 4, ¬ Takes sh f (12 + q) → (c'.elemD s.here.pos).queue q = e.queue q
  ports : ∀ p < 4, f.dst.toNat ≠ 24 + p ∨ sh.d = .none → (c'.elemD s.here.pos).port p = e.port p
  preds : ∀ n < 8, f.pn.toNat ≠ n ∨ f.pu = 0#3 ∨ sh.guarded = true → (c'.elemD s.here.pos).pred n = e.pred n
  elem : c'.elemD s.here.pos = { e with
    regs := (c'.elemD s.here.pos).regs, preds := (c'.elemD s.here.pos).preds, queues := (c'.elemD s.here.pos).queues
    ports := (c'.elemD s.here.pos).ports, flags := (c'.elemD s.here.pos).flags }
  others : ∀ p, p ≠ s.here.pos → c'.elem? p = c.elem? p
  core : c' = { c with elems := c'.elems, flights := c'.flights, evc := c'.evc, runs := c'.runs }
  fires : c'.runs = c.runs.map fun r => if r.id = e.runId then { r with fires := r.fires + 1 } else r
  cores : ∀ k, k ≠ s.key → t.core? k = s.core? k
  machine : t = { s with cores := t.cores, phys := t.phys, teams := t.teams }
  teams : t.teams = s.teams.adjust s.here.ctx fun m => { m with watchdog := 0, progress := s.time }
  phys : ∀ pc, t.physOf pc = { s.physOf pc with totals := (t.physOf pc).totals }

/-- Every operation of a PE that only gives a result, and DROP. -/
def pureOps : List ((Fields → Instr) × Op) :=
  (arithmetic ++ fieldsAndCompares ++ streams ++ vectorsNow).map (fun x => (x.1, x.2.1)) ++
    (productsAndQuotients ++ floats ++ vectorsLater).map (fun x => (x.2.1, x.2.2.1)) ++ [(.drop, dropOp)]

/-- R26, R28: the predicate that an update writes. -/
def predAfter (later : Bool) (f : Fields) (i : Ins) (headTnt : Bool) (r : Res) (p : Pred) : Pred :=
  if f.pu = 1#3 then { p with val := true, tnt := false }
  else if f.pu = 2#3 then { p with val := false, tnt := false }
  else if f.pu = 6#3 then { p with val := decide (i.ctlA = .last), tnt := headTnt }
  else if f.pu = 7#3 then { p with val := !p.val }
  else if f.pu = 0#3 then p
  else if later then { p with pending := true }
  else { p with
    val := if f.pu = 3#3 then r.data.getLsbD 0 else if f.pu = 4#3 then decide (r.data = 0#64) else r.data.getLsbD 63
    tnt := r.tnt }

/-- A fire of this operation updates its predicate by R26. -/
def Updates (later : Bool) (mk : Fields → Instr) (o : Op) (v : Fields → Elem → Ins → Res) : Prop :=
  ∀ f s c e, At s c e → kindAt s.here.pos = .pe → slotStatus o f s s.site = .ready →
    ∃ t c', exec (mk f) s = .next t ∧ t.core? s.key = some c' ∧
      (c'.elemD s.here.pos).pred f.pn.toNat =
        predAfter later f (operands o.opc f s c e) (((e.headOf f.sa.toNat).map (·.tnt)).getD false)
          (v f e (operands o.opc f s c e)) (e.pred f.pn.toNat)

/-- R67: DROP tests the value of its source. -/
def dropped (_ : Fields) (_ : Elem) (i : Ins) : Res := ⟨i.a.data, .i64, i.a.tnt, Flags.none, none⟩

/-- Every element operation of Tables 3.7 to 3.9. -/
def slots : List ((Fields → Instr) × Op) :=
  List.flatten [
    [(.mov, movOp), (.add, addOp), (.sub, subOp), (.addw, addwOp), (.subw, subwOp), (.mul, mulOp), (.mulh, mulhOp), (.mulhn, mulhnOp), (.div, divOp), (.divn, divnOp), (.rem, remOp), (.remn, remnOp)],
    [(.and, andOp), (.or, orOp), (.xor, xorOp), (.andn, andnOp), (.shl, shlOp), (.shr, shrOp), (.sra, sraOp), (.rotr, rotrOp), (.min, minOp), (.max, maxOp), (.minn, minnOp), (.maxn, maxnOp)],
    [(.abs, absOp), (.clz, clzOp), (.popc, popcOp), (.ext, extOp), (.ins, insOp), (.seq, seqOp), (.sne, sneOp), (.slt, sltOp), (.sle, sleOp), (.sltn, sltnOp), (.slen, slenOp), (.mula, mulaOp)],
    [(.crd, crdOp), (.crx, crxOp), (.inc, incOp), (.dec, decOp), (.step, stepOp), (.sel, selOp), (.pass, passOp), (.drop, dropOp), (.tagr, tagrOp), (.tagw, tagwOp), (.busr, busrOp), (.busc, buscOp)],
    [(.pack2, pack2Op), (.fadd, faddOp), (.fsub, fsubOp), (.fmul, fmulOp), (.fma, fmaOp), (.fmin, fminOp), (.fmax, fmaxOp), (.fabs, fabsOp), (.fneg, fnegOp), (.fclt, fcltOp), (.fceq, fceqOp), (.fexp2, fexp2Op)],
    [(.flog2, flog2Op), (.frcp, frcpOp), (.frsq, frsqOp), (.fsum, fsumOp), (.fscl, fsclOp), (.vaddBf, vaddBfOp), (.vsubBf, vsubBfOp), (.vmulBf, vmulBfOp), (.vfmaBf, vfmaBfOp), (.vmaxBf, vmaxBfOp), (.vminBf, vminBfOp), (.vdotBf, vdotBfOp)],
    [(.vrsumBf, vrsumBfOp), (.vaddB, vaddBOp), (.vaddsB, vaddsBOp), (.vsubB, vsubBOp), (.vmaxB, vmaxBOp), (.vminB, vminBOp), (.vdotB, vdotBOp), (.vaddW, vaddWOp), (.vmulW, vmulWOp), (.vshuf, vshufOp), (.vbcast, vbcastOp), (.vsel, vselOp)],
    [(.mmaBf16, (mmaOp 0x90)), (.mmaBf16D, (mmaOp 0x91)), (.mmaBf16Z, (mmaOp 0x92)), (.mmaBf16Zd, (mmaOp 0x93)), (.mmaE4m3, (mmaOp 0x94)), (.mmaE4m3D, (mmaOp 0x95)), (.mmaE4m3Z, (mmaOp 0x96)), (.mmaE4m3Zd, (mmaOp 0x97)), (.mmaE5m2, (mmaOp 0x98)), (.mmaE5m2D, (mmaOp 0x99)), (.mmaE5m2Z, (mmaOp 0x9A)), (.mmaE5m2Zd, (mmaOp 0x9B))],
    [(.mmaMx4, (mmaOp 0x9C)), (.mmaMx4D, (mmaOp 0x9D)), (.mmaMx4Z, (mmaOp 0x9E)), (.mmaMx4Zd, (mmaOp 0x9F)), (.mmaI8, (mmaOp 0xA0)), (.mmaI8D, (mmaOp 0xA1)), (.mmaI8Z, (mmaOp 0xA2)), (.mmaI8Zd, (mmaOp 0xA3)), (.mmaT2, (mmaOp 0xA4)), (.mmaT2D, (mmaOp 0xA5)), (.mmaT2Z, (mmaOp 0xA6)), (.mmaT2Zd, (mmaOp 0xA7))],
    [(.accZero, accZeroOp), (.accDcy, accDcyOp), (.accScl, accSclOp), (.accDrn, accDrnOp), (.accRd, accRdOp), (.accPatch, accPatchOp), (.accMode, accModeOp), (.bhold, bholdOp), (.sld, sldOp), (.sst, sstOp), (.sldg, sldgOp), (.sstg, sstgOp)],
    [(.sgen, sgenOp), (.saadd, saaddOp), (.samax, samaxOp), (.scas, scasOp), (.sown, sownOp), (.sfill, sfillOp), (.sbeat, sbeatOp), (.cvtBfF32, cvtBfF32Op), (.cvtF32Bf, cvtF32BfOp), (.cvtE4F32, cvtE4F32Op), (.cvtE5F32, cvtE5F32Op), (.cvtF32E4, cvtF32E4Op)],
    [(.cvtF32E5, cvtF32E5Op), (.cvtBfE4, cvtBfE4Op), (.cvtMx4Bf, cvtMx4BfOp), (.cvtBfMx4, cvtBfMx4Op), (.cvtI8F32, cvtI8F32Op), (.cvtF32I8, cvtF32I8Op), (.cvtF32I64, cvtF32I64Op), (.cvtI64F32, cvtI64F32Op), (.gld, gldOp), (.gldc, gldcOp), (.gst, gstOp), (.gatom, gatomOp)],
    [(.gldb, gldbOp), (.agen, agenOp), (.astr, astrOp), (.xfer, xferOp), (.gred, gredOp), (.coll, collOp), (.route, routeOp), (.msnd, msndOp), (.tstat, tstatOp), (.mown, mownOp), (.nop, nopOp), (.halt, haltOp)],
    [(.commit, commitOp), (.trap, trapOp), (.waitc, waitcOp), (.time, timeOp), (.cyc, cycOp), (.id, idOp), (.fence, fenceOp), (.bars, barsOp), (.cwset, cwsetOp), (.watch, watchOp), (.cfgw, cfgwOp), (.arrv, arrvOp)],
    [(.evt, evtOp)]]

/-- The words of a trap record of an element (Table 20.2). -/
def elementRecord (s : State) (c : CoreCtx) (e : Elem) (tm : Team) (x : TrapInfo) : List W64 :=
  [BitVec.ofNat 64 (x.code + 2 ^ 10 + s.here.core % 2 ^ 16 * 2 ^ 16 + s.here.ctx * 2 ^ 32 + s.here.pos * 2 ^ 38 + s.here.idx * 2 ^ 44),
    x.info, x.info2, c.runStatus e.run, BitVec.ofNat 64 s.time, c.cyc,
    BitVec.ofNat 64 (c.epoch % 2 ^ 32 + tm.recSeq * 2 ^ 32), 0#64]

/-- The byte of flat memory where record `p` of the ring of a core's quad begins (R304, R305). -/
def recordAddr (s : State) (tm : Team) (p : Nat) : Nat := tm.quadPlace (s.here.core / 2) + 0x170000 + 64 * p

/-- R301: a WATCH_HIT notes the access that it stopped. -/
def watchedAfter (s : State) (e : Elem) (x : TrapInfo) : List LateAccess :=
  if x.code = 7 then e.watched ++ [.slot s.here.idx] else e.watched

/-- A trap at an element has been taken (R30, R302, R305): its record is in the next free position of its quad's ring, the
core notes it for the end of the cycle, and its elements are as they were, but that this one notes the access of a
WATCH_HIT. -/
def Trapped (s : State) (c : CoreCtx) (e : Elem) (tm : Team) (p : Nat) (x : TrapInfo) (t : State) : Prop :=
  (∃ c', t.core? s.key = some c' ∧ c' = { c with raised := c.raised ++ [s.here.core / 2 * 512 + p], elems := c'.elems } ∧
    c'.elem? s.here.pos = some { e with watched := watchedAfter s e x } ∧
    ∀ n, n ≠ s.here.pos → c'.elem? n = c.elem? n) ∧
  (∀ k, k ≠ s.key → t.core? k = s.core? k) ∧
  t.flat.readN (recordAddr s tm p) 64 = wordsBytes (elementRecord s c e tm x) ∧
  (∀ a, a < recordAddr s tm p ∨ recordAddr s tm p + 64 ≤ a → t.flat.read a = s.flat.read a) ∧
  t.hbm = s.hbm ∧ t.mcores = s.mcores ∧ t.time = s.time

end Sys2Proof.Claims

/-- R24: a fire that only gives a result changes nothing but its operands, destination and predicate. -/
def Obligations.PureFireChangesNothingElse : Prop :=
  ∀ x ∈ Claims.pureOps, ∀ sh, shapeOf x.2.opc = some sh → ∀ f s c e, Claims.At s c e → kindAt s.here.pos = .pe →
    slotStatus x.2 f s s.site = .ready →
      ∃ t c', exec (x.1 f) s = .next t ∧ t.core? s.key = some c' ∧ Claims.Leaves sh f s c e t c'

/-- R26, R27, R67: what a fire writes into its predicate; SEL is guarded and writes none. -/
def Sys2Proof.Claims.PredicatesFollowR26 : Prop :=
  (∀ x ∈ Claims.arithmetic ++ Claims.fieldsAndCompares ++ Claims.streams.drop 1 ++ Claims.vectorsNow ++
    [(.drop, dropOp, Claims.dropped)], Claims.Updates false x.1 x.2.1 x.2.2) ∧
  (∀ x ∈ Claims.productsAndQuotients ++ Claims.floats ++ Claims.vectorsLater, Claims.Updates true x.2.1 x.2.2.1 x.2.2.2)

/-- R21, R30: a slot that is neither ready nor trap-ready leaves the machine as it is; a trap-ready slot of a run that is not
speculative takes its trap in place of firing. -/
def Sys2Proof.Claims.SlotsWaitOrTrap : Prop :=
  ∀ x ∈ Claims.slots, ∀ f s c e, Claims.At s c e →
    (slotStatus x.2 f s s.site = .wait → exec (x.1 f) s = .next s) ∧
    (∀ y tm p, slotStatus x.2 f s s.site = .trap y → c.specRun e.run = false → s.team? s.here.ctx = some tm →
      tm.freePos (s.here.core / 2) = some p → s.flat.wf = true → ∃ t, exec (x.1 f) s = .next t ∧ Claims.Trapped s c e tm p y t)

/-- R145: TRAP raises TRAP_INSN with its operand as INFO. -/
def Sys2Proof.Claims.TrapRaisesTrapInsn : Prop :=
  ∀ f s c e y tm p, Claims.At s c e → slotStatus trapOp f s s.site = .trap y → y.code = 0x09 →
    c.specRun e.run = false → s.team? s.here.ctx = some tm → tm.freePos (s.here.core / 2) = some p →
      s.flat.wf = true → ∃ t, exec (.trap f) s = .next t ∧
        Claims.Trapped s c e tm p ⟨0x09, (Claims.operands 0xE3 f s c e).a.data, 0#64⟩ t

/-- R255: a trap of a speculative run with a code that R255 names is held in its element and writes no record. -/
def Sys2Proof.Claims.SpeculativeTrapsAreHeld : Prop :=
  ∀ x ∈ Claims.slots, ∀ f s c e y, Claims.At s c e → slotStatus x.2 f s s.site = .trap y → c.specRun e.run = true →
    (1 ≤ y.code ∧ y.code ≤ 7) ∨ y.code = 9 →
      ∃ t, exec (x.1 f) s = .next t ∧
        t.elem? s.key s.here.pos = some { e with held := some y, heldSlot := s.here.idx, watched := Claims.watchedAfter s e y } ∧
        t.flat = s.flat ∧ t.teams = s.teams ∧ t.hbm = s.hbm ∧ t.mcores = s.mcores

namespace Sys2Proof.Claims

/-- R79: the MEs that a row-bus label names. -/
def labelled (b : W64) : List Nat := ((List.range 8).filter fun n => b.getLsbD (8 + n)).map fun n => (b.toNat % 4 + 2) * 8 + n

end Sys2Proof.Claims

/-- R78, R79: BUSR puts its token on the way to the queue of every ME its label names, or its scales to their holders, two
cycles away. -/
def Sys2Proof.Claims.RowBusWrites : Prop :=
  ∀ f s c e, Claims.At s c e → kindAt s.here.pos = .pe → slotStatus busrOp f s s.site = .ready →
    let i := Claims.operands 0x45 f s c e
    let q := i.b.data.toNat / 4 % 4
    let scl := i.b.data.getLsbD 16
    let tok : Token := ⟨i.a.data, i.a.fmt, if 12 ≤ f.sa.toNat ∧ f.sa.toNat ≤ 15 then i.ctlA else .data, i.a.tnt || i.b.tnt⟩
    ∃ t c' back, exec (.busr f) s = .next t ∧ t.core? s.key = some c' ∧ Claims.OnlyCredits back ∧
      c'.flights = c.flights ++ back ++ (Claims.labelled i.b.data).map (fun p =>
        ⟨2, e.runId, c.groupOf e.runId, if scl then .busScales p q (i.a.data.extractLsb' 0 32) else .busToken p q tok⟩) ∧
      (∀ p ∈ Claims.labelled i.b.data,
        if scl then at' (c'.me p).scalesComing q 0 = at' (c.me p).scalesComing q 0 + 1
        else at' (c'.me p).qUsed q 0 = at' (c.me p).qUsed q 0 + 1) ∧
      (∀ p, p ∉ Claims.labelled i.b.data → c'.me p = c.me p)

/-- R80: BUSC writes the named lane of its column's staging chunk, or the side band, and the row mask. -/
def Sys2Proof.Claims.ColumnBusWrites : Prop :=
  ∀ f s c e, Claims.At s c e → kindAt s.here.pos = .pe → slotStatus buscOp f s s.site = .ready →
    let i := Claims.operands 0x46 f s c e
    let col := i.b.data.toNat % 8
    let lane := i.b.data.toNat / 8 % 8
    ∃ t c', exec (.busc f) s = .next t ∧ t.core? s.key = some c' ∧
      (at' c'.staging col Staging.empty).rmask = i.b.data.toNat / 256 % 16 ∧
      (i.b.data.getLsbD 16 = true →
        (at' c'.staging col Staging.empty).side = some (i.a.data.extractLsb' 0 32) ∧
        (at' c'.staging col Staging.empty).lanes = (at' c.staging col Staging.empty).lanes) ∧
      (i.b.data.getLsbD 16 = false →
        at' (at' c'.staging col Staging.empty).lanes lane none = some i.a.data ∧
        (∀ n < 8, n ≠ lane → at' (at' c'.staging col Staging.empty).lanes n none = at' (at' c.staging col Staging.empty).lanes n none) ∧
        (at' c'.staging col Staging.empty).side = (at' c.staging col Staging.empty).side) ∧
      (∀ n < 8, n ≠ col → at' c'.staging n Staging.empty = at' c.staging n Staging.empty)

/-! ### The matrix element (R98 to R112) -/

namespace Sys2Proof.Claims

/-- R55: the twenty-four MMAs with their opcodes. -/
def rowFires : List ((Fields → Instr) × Nat) :=
  [(.mmaBf16, 0x90), (.mmaBf16D, 0x91), (.mmaBf16Z, 0x92), (.mmaBf16Zd, 0x93), (.mmaE4m3, 0x94), (.mmaE4m3D, 0x95),
   (.mmaE4m3Z, 0x96), (.mmaE4m3Zd, 0x97), (.mmaE5m2, 0x98), (.mmaE5m2D, 0x99), (.mmaE5m2Z, 0x9A), (.mmaE5m2Zd, 0x9B),
   (.mmaMx4, 0x9C), (.mmaMx4D, 0x9D), (.mmaMx4Z, 0x9E), (.mmaMx4Zd, 0x9F), (.mmaI8, 0xA0), (.mmaI8D, 0xA1),
   (.mmaI8Z, 0xA2), (.mmaI8Zd, 0xA3), (.mmaT2, 0xA4), (.mmaT2D, 0xA5), (.mmaT2Z, 0xA6), (.mmaT2Zd, 0xA7)]

/-- R100: what one use by slice q leaves of the current B entry. -/
def used (b : BEntry) (q : Nat) : BEntry :=
  match b.hold with
  | some h => { b with hold := some (h - 1) }
  | none => { b with cm := b.cm &&& ~~~(1#4 <<< q) }

/-- A slot that takes no entry of the commit buffer, or finds room there (R167), so that no spill commit comes first. -/
def HasRoom (o : Op) (f : Fields) (s : State) (c : CoreCtx) (e : Elem) : Prop :=
  o.entries (lookAt o f s s.site c e) = 0 ∨ s.canTake s.key (o.entries (lookAt o f s s.site c e)) = true

/-- A bank operation makes `g` of its bank, keeps it busy for its cycles (Table 6.5) and leaves every other bank; it sets its
flags when its result is visible (R42). -/
def BankBecomes (cycles : Nat) (mk : Fields → Instr) (o : Op) (g : Ins → Bank → Bank × Flags) : Prop :=
  ∀ f s c e, At s c e → kindAt s.here.pos = .me → f.dst.toNat < 8 → HasRoom o f s c e → slotStatus o f s s.site = .ready →
    let n := f.dst.toNat
    let r := g (operands o.opc f s c e) ((c.me s.here.pos).bank n)
    ∃ t c', exec (mk f) s = .next t ∧ t.core? s.key = some c' ∧
      (c'.me s.here.pos).bank n = r.1 ∧
      (if cycles = 1 then (c'.elemD s.here.pos).flags = e.flags.or r.2
        else (c'.elemD s.here.pos).flags = e.flags ∧ ∃ fl ∈ c'.flights, ∃ x, fl.left = cycles * at' c.divs (s.here.pos / 8) 1 ∧
          fl.run = e.runId ∧ fl.cargo = .result x ∧ x.pos = s.here.pos ∧ x.dst = 28 ∧ x.flags = r.2) ∧
      at' (c'.me s.here.pos).busy n 0 = cycles * at' c.divs (s.here.pos / 8) 1 ∧
      (∀ m < 8, m ≠ n → (c'.me s.here.pos).bank m = (c.me s.here.pos).bank m) ∧
      (∀ p, p ≠ s.here.pos → c'.me p = c.me p)

/-- R109: the product of an accumulator element with the scale. -/
def scaled (int : Bool) (x y : W32) : W32 × Flags :=
  if int then
    (x * y, { Flags.none with io := decide (x.toInt * y.toInt < -2 ^ 31) || decide (2 ^ 31 - 1 < x.toInt * y.toInt) })
  else
    let r := fpEval fp32 [fp32.decode x.toNat, fp32.decode y.toNat] [(fp32.decode x.toNat).mul (fp32.decode y.toNat)]
    (BitVec.ofNat 32 r.bits, r.flags)

/-- R112: an element replaced, or added to. -/
def patched (add int : Bool) (x y : W32) : W32 × Flags :=
  if add = false then (y, Flags.none)
  else if int then
    (x + y, { Flags.none with io := decide (x.toInt + y.toInt < -2 ^ 31) || decide (2 ^ 31 - 1 < x.toInt + y.toInt) })
  else
    let r := fpEval fp32 [fp32.decode x.toNat, fp32.decode y.toNat] [some (fp32.decode x.toNat), some (fp32.decode y.toNat)]
    (BitVec.ofNat 32 r.bits, r.flags)

/-- Element (i, j) of a bank is entry 4 i + j (R98). -/
def entry (b : Bank) (i j : Nat) : W32 := at' b.c (4 * i + j) 0#32

/-- The tokens of row `d.row` of a drain with their ports (R110). -/
def rowTokens (d : Drain) (b : Bank) : List (Nat × Token) :=
  let ctl : Ctl := if d.row = 3 then .last else .data
  let half (i : Nat) : BitVec 16 :=
    BitVec.ofNat 16 (narrow bf16 .rne true 0 (fp32.decode (entry b d.row i).toNat)).bits
  if d.bf16 then [(d.port, ⟨half 3 ++ half 2 ++ half 1 ++ half 0, .bf16x4, ctl, b.tnt⟩)]
  else
    let fmt : Fmt := if b.int then .raw else .f32x2
    [(d.port, ⟨entry b d.row 1 ++ entry b d.row 0, fmt, ctl, b.tnt⟩),
      (d.port + 1, ⟨entry b d.row 3 ++ entry b d.row 2, fmt, ctl, b.tnt⟩)]

/-- The ports that a row of a drain needs are routed and have a free slot at every receiver (R18). -/
def PortsFree (e : Elem) (ts : List (Nat × Token)) : Prop :=
  ∀ x ∈ ts, (e.port x.1).recvs ≠ [] ∧ ∀ y ∈ (e.port x.1).recvs, 0 < y.credits

/-- The row's tokens are on their way to every receiver, in order. -/
def rowSent (run group : Nat) (e : Elem) (ts : List (Nat × Token)) : List Flight :=
  ts.flatMap fun x => sent run group (e.port x.1).recvs x.2

end Sys2Proof.Claims

/-- R106, R107: an MMA takes the two tokens of its row and one use of the current chunk; the row is on its way to the
accumulator for four cycles, and no bank has changed. (On an ME bit 0 of the turn's value says that a selector chose the slot,
and the bits above it are heads that row fires of the cycle take; no row fire has such a bit, log 94.) -/
def Sys2Proof.Claims.RowFiresLeave : Prop :=
  ∀ x ∈ Claims.rowFires, ∀ f s c e, Claims.At s c e → kindAt s.here.pos = .me → 12 ≤ f.sa.toNat ∧ f.sa.toNat ≤ 15 →
    f.dqa = true → s.here.val < 2 → Claims.HasRoom (mmaOp x.2) f s c e → slotStatus (mmaOp x.2) f s s.site = .ready →
    let q := f.sa.toNat - 12
    ∀ t0 t1 rest b, e.queue q = t0 :: t1 :: rest → (c.me s.here.pos).cur = some b →
      ∃ t c', exec (x.1 f) s = .next t ∧ t.core? s.key = some c' ∧ (c'.elemD s.here.pos).queue q = rest ∧
        (c'.me s.here.pos).cur = some (Claims.used b q) ∧ (c'.me s.here.pos).banks = (c.me s.here.pos).banks ∧
        ∃ fl ∈ c'.flights, ∃ m, fl.left = 4 * at' c.divs (s.here.pos / 8) 1 ∧ fl.run = e.runId ∧ fl.cargo = .mma m ∧
          m.pos = s.here.pos ∧ m.slice = q ∧ m.bank = f.dst.toNat ∧ m.opc = x.2 ∧ m.row = k1Data f.x t1.data ++ k1Data f.x t0.data ∧
          m.chunk = b.chunk ∧ m.side = b.side ∧ m.tnt = (t0.tnt || t1.tnt || b.tnt)

/-- R43, R44, R107: a landing forms the four elements of its row from the row, the chunk, the old elements and the decay, and
leaves the other rows and banks. -/
def Sys2Proof.Claims.RowFiresLand : Prop :=
  ∀ (s : State) (c : CoreCtx) (m : MmaLand) (r g : Nat) (pre post : List Flight), s.core? s.key = some c →
    c.flights = pre ++ ⟨0, r, g, .mma m⟩ :: post → (∀ x ∈ pre, x.left = 0 → ∀ y, x.cargo ≠ .mma y) →
    m.slice < 4 → m.bank < 8 → 0x90 ≤ m.opc ∧ m.opc ≤ 0xA7 →
    let old := (c.me m.pos).bank m.bank
    let z := m.opc / 2 % 2 == 1
    let d := m.opc % 2 == 1
    let γ := fp32.decode old.gamma.toNat
    ∃ t c', exec .mmaRowLanding s = .next t ∧ t.core? s.key = some c' ∧ c'.flights = pre ++ post ∧
      (∀ j < 4, Claims.entry ((c'.me m.pos).bank m.bank) m.slice j =
        if 0xA0 ≤ m.opc then (mmaIntElem (Claims.entry old m.slice j) γ z d (m.intSum j)).1
        else BitVec.ofNat 32 (mmaElem (fp32.decode (Claims.entry old m.slice j).toNat) γ z d
          ((List.range m.depth).map m.aVal) ((List.range m.depth).map fun k => m.bVal k j)).bits) ∧
      (∀ i < 4, ∀ j < 4, i ≠ m.slice → Claims.entry ((c'.me m.pos).bank m.bank) i j = Claims.entry old i j) ∧
      ((c'.me m.pos).bank m.bank).tnt = (old.tnt || m.tnt) ∧
      (∀ n < 8, n ≠ m.bank → (c'.me m.pos).bank n = (c.me m.pos).bank n) ∧
      (∀ p, p ≠ m.pos → c'.me p = c.me p)

/-- R109, R111, R112 (Table 6.5): what ACC.ZERO, ACC.DCY, ACC.MODE, ACC.PATCH and ACC.SCL make of their bank; ACC.SCL rewrites its
bank at its fire (log 37). -/
def Sys2Proof.Claims.BankOperations : Prop :=
  Claims.BankBecomes 1 .accZero accZeroOp (fun _ b => ({ b with c := Vector.replicate 16 0#32, tnt := false }, Flags.none)) ∧
  Claims.BankBecomes 1 .accDcy accDcyOp
    (fun i b => ({ b with gamma := i.a.data.extractLsb' 0 32, tnt := b.tnt || Claims.taint i }, Flags.none)) ∧
  Claims.BankBecomes 1 .accMode accModeOp (fun i b =>
    ({ b with int := i.a.data.getLsbD 0, c := Vector.replicate 16 0#32, tnt := false }, Flags.none)) ∧
  Claims.BankBecomes 1 .accPatch accPatchOp (fun i b =>
    let n := i.b.data.toNat % 16
    let r := Claims.patched (i.b.data.getLsbD 4) b.int (at' b.c n 0#32) (i.a.data.extractLsb' 0 32)
    ({ b with c := upd b.c n r.1, tnt := b.tnt || Claims.taint i }, r.2)) ∧
  Claims.BankBecomes 4 .accScl accSclOp (fun i b =>
    let r (n : Nat) := Claims.scaled b.int (at' b.c n 0#32) (i.a.data.extractLsb' 0 32)
    ({ b with c := Vector.ofFn fun n : Fin 16 => (r n).1, tnt := b.tnt || Claims.taint i },
      ((List.range 16).map fun n => (r n).2).foldl Flags.or Flags.none))

/-- R110: ACC.DRN sends row 0 at its fire if its ports are free, else the drain waits at row 0; ACC_DRN_ROW_SEND sends the
next row, and after row 3 the drain ends. -/
def Sys2Proof.Claims.DrainsSendTheirRows : Prop :=
  (∀ f s c e, Claims.At s c e → kindAt s.here.pos = .me → f.dst.toNat < 8 →
    (f.sa.toNat = 24 ∨ f.sa.toNat = 26) ∨ (f.sb.toNat = 21 ∧ (f.sa.toNat = 25 ∨ f.sa.toNat = 27)) →
    slotStatus accDrnOp f s s.site = .ready →
    let d : Drain := ⟨f.dst.toNat, 0, f.sa.toNat - 24, f.sb.toNat == 21⟩
    let ts := Claims.rowTokens d ((c.me s.here.pos).bank d.bank)
    ∃ t c', exec (.accDrn f) s = .next t ∧ t.core? s.key = some c' ∧
      (Claims.PortsFree e ts →
        c'.flights = c.flights ++ Claims.rowSent e.runId (c.groupOf e.runId) e ts ∧
        (c'.me s.here.pos).drains = (c.me s.here.pos).drains ++ [{ d with row := 1 }]) ∧
      (¬ Claims.PortsFree e ts → c'.flights = c.flights ∧ (c'.me s.here.pos).drains = (c.me s.here.pos).drains ++ [d])) ∧
  (∀ s c e d, Claims.At s c e → (c.me s.here.pos).drains.find? (fun x => x.bank == s.here.idx) = some d →
    d.port < 3 ∨ (d.bf16 = true ∧ d.port = 3) →
    let ts := Claims.rowTokens d ((c.me s.here.pos).bank d.bank)
    Claims.PortsFree e ts →
    ∃ t c', exec .accDrnRowSend s = .next t ∧ t.core? s.key = some c' ∧
      c'.flights = c.flights ++ Claims.rowSent e.runId (c.groupOf e.runId) e ts ∧
      (d.row = 3 → ∀ x ∈ (c'.me s.here.pos).drains, x.bank ≠ d.bank) ∧
      (d.row ≠ 3 → { d with row := d.row + 1 } ∈ (c'.me s.here.pos).drains) ∧
      (c'.me s.here.pos).banks = (c.me s.here.pos).banks)

/-- R101, R111: ACC.RD sends the named element of its bank; BHOLD sets the next chunk's number of uses. -/
def Sys2Proof.Claims.BankReadAndHold : Prop :=
  (∀ f s c e, Claims.At s c e → kindAt s.here.pos = .me → f.dst.toNat < 8 → 24 ≤ f.sa.toNat ∧ f.sa.toNat ≤ 27 →
    slotStatus accRdOp f s s.site = .ready →
    let i := Claims.operands 0xAC f s c e
    let b := (c.me s.here.pos).bank f.dst.toNat
    let x := at' b.c (i.b.data.toNat % 16) 0#32
    let tok : Token := ⟨if b.int then x.signExtend 64 else x.zeroExtend 64, if b.int then .i64 else .f32x2, .data,
      b.tnt || Claims.taint i⟩
    ∃ t c' back, exec (.accRd f) s = .next t ∧ t.core? s.key = some c' ∧ Claims.OnlyCredits back ∧
      c'.flights = c.flights ++ back ++ Claims.sent e.runId (c.groupOf e.runId) (e.port (f.sa.toNat - 24)).recvs tok ∧
      (c'.me s.here.pos).banks = (c.me s.here.pos).banks) ∧
  (∀ f s c e, Claims.At s c e → kindAt s.here.pos = .me → slotStatus bholdOp f s s.site = .ready →
    ∃ t c', exec (.bhold f) s = .next t ∧ t.core? s.key = some c' ∧
      c'.me s.here.pos = { c.me s.here.pos with ph := (Claims.operands 0xAF f s c e).a.data.toNat % 65536 } ∧
      ∀ p, p ≠ s.here.pos → c'.me p = c.me p)

/-! ### The scratchpad and converter elements (R113 to R126) -/

namespace Sys2Proof.Claims

/-- A ready slot of an SE fires with `P` of its operands, its core and the core after. -/
def Scratch (mk : Fields → Instr) (o : Op) (P : Fields → Nat → CoreCtx → Elem → Ins → CoreCtx → Prop) : Prop :=
  ∀ f s c e, At s c e → kindAt s.here.pos = .se → HasRoom o f s c e → slotStatus o f s s.site = .ready →
    ∃ t c', exec (mk f) s = .next t ∧ t.core? s.key = some c' ∧ P f s.here.pos c e (operands o.opc f s c e) c'

/-- R114: a scratchpad address. -/
def addr (a : W64) : Nat := a.toNat % 2048

/-- The words of an SE's bank that changed, and what they hold now; every other word is as it was. -/
def WordsBecome (pos : Nat) (changed : Nat → Bool) (v : Nat → W64 × Fmt) (c c' : CoreCtx) : Prop :=
  ∀ w < 2048, (c'.se pos).word w = if changed w then v w else (c.se pos).word w

/-- R27, R29, R117: SST stores unless its guard is 0 or, in a K1 slot, its data is NULL. -/
def Stores (f : Fields) (i : Ins) : Bool :=
  i.guard && !(f.x && decide (12 ≤ f.sb.toNat ∧ f.sb.toNat ≤ 15) && decide (i.ctlB = .null))

/-- R119: the word that a generator names, and its next position. -/
def genWord (g : SGen) : Nat := (((g.base : Int) + (g.pos : Int) * g.stride.toInt) % 2048).toNat
def genNext (g : SGen) : Nat := if g.pos + 1 = g.count then 0 else g.pos + 1

/-- R117: an atomic returns the old word and writes `g` of it and b; with a guard of 0 it returns 0. -/
def Atomic (mk : Fields → Instr) (o : Op) (g : W64 → W64 → W64) : Prop :=
  Scratch mk o fun f pos c e i c' =>
    let w := addr i.a.data
    let old := (c.se pos).word w
    LandsLater 2 f pos c e i ⟨if i.guard then old.1 else 0#64, .i64, taint i, Flags.none, none⟩ c' ∧
    WordsBecome pos (fun n => i.guard && n == w) (fun _ => (g old.1 i.b.data, old.2)) c c'

/-- R121: the words of a fill, and the aligned groups of eight that it touches. -/
def filled (a : W64) (w : Nat) : Bool := decide ((w + 2048 - a.toNat % 2048) % 2048 < a.toNat / 2048 % 2048 + 1)
def touched (a : W64) : Nat := ((List.range 256).filter fun g => (List.range 8).any fun j => filled a (8 * g + j)).length

/-- Lane `k` of width `w` of a word, and a word from its lanes. -/
def laneOf (w k : Nat) (x : W64) : Nat := x.toNat / 2 ^ (w * k) % 2 ^ w
def fromLanes (w : Nat) (v : Nat → Nat) : W64 := BitVec.ofNat 64 ((List.range (64 / w)).map fun k => v k % 2 ^ w * 2 ^ (w * k)).sum

/-- The converter's PART field (R122). -/
def part (f : Fields) : Nat := f.sb.toNat / 8

/-- R123: a narrowing form puts its lanes into PK; with a destination PK goes out and is cleared. -/
def Narrows (mk : Fields → Instr) (o : Op) (fmt : Fmt) (w : Nat) (vals : W64 → List FVal)
    (conv : Fields → W32 → FVal → Nat × Flags × W32) : Prop :=
  ∀ f s c e, At s c e → kindAt s.here.pos = .ce → slotStatus o f s s.site = .ready →
    let i := operands o.opc f s c e
    let ce := c.ce s.here.pos
    let n := (vals i.a.data).length
    let (xs, flags, lfsr) := drawLanes (conv f) (vals i.a.data) ce.lfsr
    let pk := fromLanes w fun k => if n * part f ≤ k ∧ k < n * part f + n then xs.getD (k - n * part f) 0 else laneOf w k ce.pk
    ∃ t c', exec (mk f) s = .next t ∧ t.core? s.key = some c' ∧
      LandsLater 2 f s.here.pos c e i ⟨pk, fmt, ce.pkTnt || taint i, flags, none⟩ c' ∧
      c'.ce s.here.pos = if f.dst = 28#5 then { ce with pk := pk, pkTnt := ce.pkTnt || taint i, lfsr := lfsr }
        else { ce with pk := 0#64, pkTnt := false, lfsr := lfsr }

/-- R123: a widening form converts the lanes that its PART names. -/
def Widens (mk : Fields → Instr) (o : Op) (fmt : Fmt) (w v n : Nat) (dec : Nat → FVal)
    (conv : Fields → W32 → FVal → Nat × Flags × W32) : Prop :=
  ∀ f s c e, At s c e → kindAt s.here.pos = .ce → slotStatus o f s s.site = .ready →
    let i := operands o.opc f s c e
    let ce := c.ce s.here.pos
    let (xs, flags, lfsr) := drawLanes (conv f) ((List.range n).map fun k => dec (laneOf w (n * part f + k) i.a.data)) ce.lfsr
    ∃ t c', exec (mk f) s = .next t ∧ t.core? s.key = some c' ∧
      LandsLater 2 f s.here.pos c e i ⟨fromLanes v fun k => xs.getD k 0, fmt, taint i, flags, none⟩ c' ∧
      c'.ce s.here.pos = { ce with lfsr := lfsr }

/-- The two FP32 lanes of a word, and a signed integer as a value. -/
def pairOf (a : W64) : List FVal := [s32 0 a, s32 1 a]
def valueOf (n : Int) : FVal := .num (decide (n < 0)) n.natAbs 0

end Sys2Proof.Claims

/-- R114, R117, R119: loads of the scratchpad give the word they name, two cycles later, and change no word; SLDG steps its
generator and by default tags the last position LAST. -/
def Sys2Proof.Claims.ScratchpadLoads : Prop :=
  Claims.Scratch .sld sldOp (fun f pos c e i c' =>
    let w := (c.se pos).word (Claims.addr i.a.data)
    Claims.LandsLater 2 f pos c e i ⟨w.1, w.2, Claims.taint i, Flags.none, none⟩ c' ∧ c'.se pos = c.se pos) ∧
  Claims.Scratch .sldg sldgOp (fun f pos c e i c' =>
    let g := (c.se pos).gen (i.a.data.toNat % 4)
    let w := (c.se pos).word (Claims.genWord g)
    Claims.LandsLater 2 f pos c e i ⟨w.1, w.2, Claims.taint i, Flags.none,
      if f.tout = 0#3 then some (if g.pos + 1 = g.count then .last else .data) else none⟩ c' ∧
    (c'.se pos).gen (i.a.data.toNat % 4) = { g with pos := Claims.genNext g } ∧ (c'.se pos).bank = (c.se pos).bank)

/-- R116, R117, R119, R121: what stores, atomics and fills leave in the scratchpad. -/
def Obligations.ScratchpadStores : Prop :=
  Claims.Scratch .sst sstOp (fun f pos c _ i c' =>
    Claims.WordsBecome pos (fun w => Claims.Stores f i && w == Claims.addr i.a.data) (fun _ => (i.b.data, i.b.fmt)) c c') ∧
  Claims.Scratch .sstg sstgOp (fun _ pos c _ i c' =>
    let g := (c.se pos).gen (i.a.data.toNat % 4)
    Claims.WordsBecome pos (fun w => w == Claims.genWord g) (fun _ => (i.b.data, i.b.fmt)) c c' ∧
    (c'.se pos).gen (i.a.data.toNat % 4) = { g with pos := Claims.genNext g }) ∧
  Claims.Atomic .saadd saaddOp (fun old b => old + b) ∧
  Claims.Atomic .samax samaxOp (fun old b => if b.toInt > old.toInt then b else old) ∧
  Claims.Atomic .scas scasOp (fun old b =>
    if old.extractLsb' 0 32 = b.extractLsb' 32 32 then old.extractLsb' 32 32 ++ b.extractLsb' 0 32 else old) ∧
  Claims.Scratch .sfill sfillOp (fun _ pos c _ i c' =>
    Claims.WordsBecome pos (Claims.filled i.a.data) (fun _ => (i.b.data, i.b.fmt)) c c' ∧
    (c'.se pos).fillLeft = Claims.touched i.a.data * at' c.divs (pos / 8) 1 ∧
    ∀ r < 16, (c'.se pos).fillMask.getLsbD r = (List.range 128).any fun n => Claims.filled i.a.data (128 * r + n))

/-- R115, R119, R120: SGEN loads a generator and may start a stream that holds its port, SBEAT starts a burst, SOWN sets
owner bits. -/
def Sys2Proof.Claims.ScratchpadControl : Prop :=
  Claims.Scratch .sgen sgenOp (fun _ pos c e i c' =>
    let a := i.a.data
    let b := i.b.data
    let port := b.toNat / 8 % 4
    let runs := b.getLsbD 2 && !(e.port port).recvs.isEmpty
    (c'.se pos).gen (b.toNat % 4) =
      ⟨a.toNat % 2048, a.extractLsb' 11 12, a.toNat / 2 ^ 23 % 4096 + 1, 0, b.getLsbD 2, port, runs, true⟩ ∧
    (runs = true → ((c'.elemD pos).port port).hold = some (.gen (b.toNat % 4))) ∧ (c'.se pos).bank = (c.se pos).bank) ∧
  Claims.Scratch .sbeat sbeatOp (fun f pos c _ i c' =>
    (24 ≤ f.dst.toNat ∧ f.dst.toNat ≤ 27 → ((c'.elemD pos).port (f.dst.toNat - 24)).hold = some .burst) ∧
    c'.se pos = { c.se pos with burst := some ⟨i.a.data.toNat / 8 % 256, 0, f.dst.toNat - 24⟩ }) ∧
  Claims.Scratch .sown sownOp (fun _ pos c _ i c' =>
    let m : BitVec 16 := i.a.data.extractLsb' 0 16
    let own := if i.a.data.getLsbD 16 = true then (c.se pos).own ||| m else (c.se pos).own &&& ~~~m
    c'.se pos = { c.se pos with own := own })

/-- R114, R120: the stream port reads the next word of the first eligible stream, takes a credit and moves its pointer; two cycles
later the word is sent, and with the end of the cycle of the last one the port is free (log 45). -/
def Sys2Proof.Claims.ScratchpadStreams : Prop :=
  (∀ s c e i w p last, Claims.At s c e → s.here.val ≠ 0 → c.frozen = false → (c.se s.here.pos).fillLeft = 0 →
    ((List.range 5).map fun n => ((c.se s.here.pos).ptr + n) % 5).find? (fun n => c.streamReady s.here.pos n) = some i →
    (c.se s.here.pos).nextWord i = some (w, p, last) → p < 4 →
    ∃ t c', exec .seStreamWord s = .next t ∧ t.core? s.key = some c' ∧ (c'.se s.here.pos).ptr = (i + 1) % 5 ∧
      ((c'.elemD s.here.pos).port p).recvs = Claims.oneLess (e.port p).recvs ∧
      c'.flights = c.flights ++ [⟨2 * at' c.divs (s.here.pos / 8) 1, e.runId, c.groupOf e.runId,
        .streamWord s.here.pos p w ⟨((c.se s.here.pos).word w).1, ((c.se s.here.pos).word w).2, if last then .last else .data, false⟩
          last (if i < 4 then .gen i else .burst)⟩]) ∧
  (∀ (s : State) (c : CoreCtx) (r g pos p w : Nat) (tok : Token) (last : Bool) (h : Hold) (pre post : List Flight),
    s.core? s.key = some c → s.here.val = 0 → c.flights = pre ++ ⟨0, r, g, .streamWord pos p w tok last h⟩ :: post →
    (∀ x ∈ pre, x.left = 0 → ∀ a b u v y z, x.cargo ≠ .streamWord a b u v y z) → p < 4 →
    ∃ t c', exec .seStreamWord s = .next t ∧ t.core? s.key = some c' ∧
      c'.flights = pre ++ post ++ Claims.sent r (c.groupOf r) ((c.elemD pos).port p).recvs tok ++
        (if last then [⟨0, r, c.groupOf r, .portFree pos p h⟩] else []) ∧
      ((c'.elemD pos).port p).hold = ((c.elemD pos).port p).hold) ∧
  (∀ (c : CoreCtx) (e : Elem) (left r g pos p : Nat) (h : Hold), c.elem? pos = some e → p < 4 →
    c.flights = [⟨left, r, g, .portFree pos p h⟩] → ((c.endCycle.elemD pos).port p).hold = none ∧ c.endCycle.flights = [])

/-- R122, R123 (Table 7.3): narrowing and widening conversions. -/
def Sys2Proof.Claims.ConversionsNarrowAndWiden : Prop :=
  Claims.Narrows .cvtBfF32 cvtBfF32Op .bf16x4 16 Claims.pairOf (fun f => roundLane bf16 (cvtRnd f) (cvtSat f)) ∧
  Claims.Narrows .cvtE4F32 cvtE4F32Op .e4m3x8 8 Claims.pairOf (fun f => roundLane e4m3 (cvtRnd f) (cvtSat f)) ∧
  Claims.Narrows .cvtE5F32 cvtE5F32Op .e5m2x8 8 Claims.pairOf (fun f => roundLane e5m2 (cvtRnd f) (cvtSat f)) ∧
  Claims.Narrows .cvtI8F32 cvtI8F32Op .i8x8 8 Claims.pairOf (fun f => intLane 8 (cvtRnd f)) ∧
  Claims.Narrows .cvtF32I64 cvtF32I64Op .f32x2 32 (fun a => [Claims.valueOf a.toInt]) (fun f => roundLane fp32 (cvtRnd f) (cvtSat f)) ∧
  Claims.Widens .cvtF32Bf cvtF32BfOp .f32x2 16 32 2 bf16.decode (fun f => roundLane fp32 (cvtRnd f) (cvtSat f)) ∧
  Claims.Widens .cvtF32E4 cvtF32E4Op .f32x2 8 32 2 e4m3.decode (fun f => roundLane fp32 (cvtRnd f) (cvtSat f)) ∧
  Claims.Widens .cvtF32E5 cvtF32E5Op .f32x2 8 32 2 e5m2.decode (fun f => roundLane fp32 (cvtRnd f) (cvtSat f)) ∧
  Claims.Widens .cvtBfE4 cvtBfE4Op .bf16x4 8 16 4 e4m3.decode (fun f => roundLane bf16 (cvtRnd f) (cvtSat f)) ∧
  Claims.Widens .cvtF32I8 cvtF32I8Op .f32x2 8 32 2 (fun x => Claims.valueOf (BitVec.ofNat 8 x).toInt)
    (fun f => roundLane fp32 (cvtRnd f) (cvtSat f)) ∧
  Claims.Widens .cvtI64F32 cvtI64F32Op .i64 32 64 1 fp32.decode (fun f => intLane 64 (cvtRnd f))

/-- R124, R125: CVT.MX4.BF gathers four lanes, finds the scale of a full block, and emits elements or the scale; CVT.BF.MX4
takes a scale, or gives four lanes under it. -/
def Sys2Proof.Claims.Microscaling : Prop :=
  (∀ f s c e, Claims.At s c e → kindAt s.here.pos = .ce → slotStatus cvtMx4BfOp f s s.site = .ready →
    let i := Claims.operands 0xC7 f s c e
    let ce := c.ce s.here.pos
    let vs := ((ce.mb.drop (16 * Claims.part f)).take 16).map fun x => bf16.decode x.toNat
    let (xs, flags, lfsr) := drawLanes (mxElem (cvtRnd f) ce.xe.toNat) vs ce.lfsr
    ∃ t c', exec (.cvtMx4Bf f) s = .next t ∧ t.core? s.key = some c' ∧
      (f.dst = 28#5 →
        let mb := ce.mb ++ (List.range 4).map fun k => BitVec.ofNat 16 (Claims.laneOf 16 k i.a.data)
        (c'.ce s.here.pos).mb = mb ∧ (c'.ce s.here.pos).mt = (ce.mt || Claims.taint i) ∧
        (mb.length = 32 → (c'.ce s.here.pos).xe = BitVec.ofNat 8 (mxExponent mb).1)) ∧
      (f.dst ≠ 28#5 ∧ Claims.part f ≠ 2 →
        Claims.LandsLater 2 f s.here.pos c e i
          ⟨Claims.fromLanes 4 fun k => xs.getD k 0, .e2m1x16, ce.mt || Claims.taint i, flags, none⟩ c' ∧
        c'.ce s.here.pos = { ce with lfsr := lfsr }) ∧
      (f.dst ≠ 28#5 ∧ Claims.part f = 2 →
        Claims.LandsLater 2 f s.here.pos c e i ⟨ce.xe.zeroExtend 64, .raw, ce.mt || Claims.taint i, Flags.none, none⟩ c' ∧
        c'.ce s.here.pos = { ce with mb := [], mt := false })) ∧
  (∀ f s c e, Claims.At s c e → kindAt s.here.pos = .ce → slotStatus cvtBfMx4Op f s s.site = .ready →
    let i := Claims.operands 0xC8 f s c e
    let ce := c.ce s.here.pos
    let vs := (List.range 4).map fun k => decodeMx (Claims.laneOf 4 (4 * Claims.part f + k) i.a.data) ce.xs.toNat
    let (xs, flags, lfsr) := drawLanes (roundLane bf16 (cvtRnd f) (cvtSat f)) vs ce.lfsr
    ∃ t c', exec (.cvtBfMx4 f) s = .next t ∧ t.core? s.key = some c' ∧
      (f.dst = 28#5 → c'.ce s.here.pos = { ce with xs := i.a.data.extractLsb' 0 8 }) ∧
      (f.dst ≠ 28#5 →
        Claims.LandsLater 2 f s.here.pos c e i ⟨Claims.fromLanes 16 fun k => xs.getD k 0, .bf16x4, Claims.taint i, flags, none⟩ c' ∧
        c'.ce s.here.pos = { ce with lfsr := lfsr }))

/-! ### The endpoint element (R127 to R141) -/

namespace Sys2Proof.Claims

/-- Does the slot of this turn take the head of queue `q` (R24)? On an ME a head that a row fire of the same cycle takes is left
to that fire (R105, log 94). -/
def TakesHead (sh : Shape) (f : Fields) (s : State) (q : Nat) : Prop :=
  Takes sh f (12 + q) ∧ ¬ (kindAt s.here.pos = .me ∧ (s.here.val / 2).testBit q = true)

/-- What a fire of any element leaves alone on its core (R24): registers, queues, ports and predicates that the slot does not
name, and the other elements. -/
structure KeptHere (sh : Shape) (f : Fields) (s : State) (c : CoreCtx) (e : Elem) (c' : CoreCtx) : Prop where
  emptied : ∀ n ≤ 11, f.dst.toNat ≠ n ∨ sh.d = .none → Takes sh f n → (c'.elemD s.here.pos).reg n = { e.reg n with full := false }
  regs : ∀ n ≤ 11, f.dst.toNat ≠ n ∨ sh.d = .none → ¬ Takes sh f n → (c'.elemD s.here.pos).reg n = e.reg n
  dequeued : ∀ q < 4, TakesHead sh f s q → (c'.elemD s.here.pos).queue q = (e.queue q).drop 1
  queues : ∀ q < 4, ¬ TakesHead sh f s q → (c'.elemD s.here.pos).queue q = e.queue q
  ports : ∀ p < 4, f.dst.toNat ≠ 24 + p ∨ sh.d = .none → (c'.elemD s.here.pos).port p = e.port p
  preds : ∀ n < 8, f.pn.toNat ≠ n ∨ f.pu = 0#3 ∨ sh.guarded = true → (c'.elemD s.here.pos).pred n = e.pred n
  others : ∀ p, p ≠ s.here.pos → c'.elem? p = c.elem? p

/-- What a fire of any element leaves alone (R24): registers, queues, ports and predicates that the slot does not name, the
other elements, and the other cores. -/
structure Kept (sh : Shape) (f : Fields) (s : State) (c : CoreCtx) (e : Elem) (t : State) (c' : CoreCtx) : Prop extends
    KeptHere sh f s c e c' where
  cores : ∀ k, k ≠ s.key → t.core? k = s.core? k

/-- Neither memory nor tiles, engines, messages or the host changed. -/
def Quiet (s t : State) : Prop :=
  t.flat = s.flat ∧ t.hbm = s.hbm ∧ t.mcores = s.mcores ∧ t.engines = s.engines ∧ t.disp = s.disp ∧ t.host = s.host

/-- Every ready slot of an operation that finds room in the commit buffer fires, with `P` of the machine before and after. -/
def Fires (ok : Kind → Prop) (mk : Fields → Instr) (o : Op)
    (P : Fields → State → CoreCtx → Elem → Ins → State → CoreCtx → Prop) : Prop :=
  ∀ f s c e sh, At s c e → ok (kindAt s.here.pos) → shapeOf o.opc = some sh → HasRoom o f s c e →
    slotStatus o f s s.site = .ready →
      ∃ t c', exec (mk f) s = .next t ∧ t.core? s.key = some c' ∧ Kept sh f s c e t c' ∧
        P f s c e (operands o.opc f s c e) t c'

/-- An operation of an LE. -/
def Endpoint : (Fields → Instr) → Op → (Fields → State → CoreCtx → Elem → Ins → State → CoreCtx → Prop) → Prop := Fires (· = .le)

/-- The check of a slot's access (R129, R296). -/
def access (o : Op) (f : Fields) (s : State) (c : CoreCtx) (e : Elem) (k : Access) (lanes : Tensor → Nat) : Verdict :=
  (lookAt o f s s.site c e).verdict k lanes

/-- Is the slot's destination an output port, and has a deferred fault stopped it (R136)? -/
def onPort (f : Fields) : Prop := 24 ≤ f.dst.toNat ∧ f.dst.toNat ≤ 27
def stopped (f : Fields) (c : CoreCtx) (pos : Nat) : Prop := onPort f ∧ (c.le pos).stopped f.dst.toNat = true

/-- The request table has one more entry, the youngest (R128). -/
def Requests (f : Fields) (s : State) (c : CoreCtx) (e : Elem) (c' : CoreCtx) (P : LReq → Prop) : Prop :=
  ∃ r, (c'.le s.here.pos).reqs = (c.le s.here.pos).reqs ++ [r] ∧ c'.nextReq = c.nextReq + 1 ∧ r.id = c.nextReq ∧
    r.dst = f.dst.toNat ∧ r.run = e.runId ∧ r.group = c.groupOf e.runId ∧ P r

/-- The destination waits for the reply (R19, R25, R130). -/
def Awaits (f : Fields) (pos : Nat) (e : Elem) (c' : CoreCtx) : Prop :=
  (f.dst.toNat ≤ 11 → ((c'.elemD pos).reg f.dst.toNat).pending = true) ∧
  (onPort f → ((c'.elemD pos).port (f.dst.toNat - 24)).recvs = oneLess (e.port (f.dst.toNat - 24)).recvs)

/-- R130, R136: what a fired load leaves: a request for its lanes; a fault record whose NULL token stands for it; or a
request behind a standing fault. -/
def Loads (mk : Fields → Instr) (o : Op) (lanes : Tensor → Nat) (kind : ReqKind) (tnt : Ins → Bool) : Prop :=
  Endpoint mk o fun f s c e i t c' =>
    let v := access o f s c e .load lanes
    let b := (lookAt o f s s.site c e).binding
    Quiet s t ∧
    (∀ tn cs n, v = .ok tn cs n →
      Requests f s c e c' fun r => r.kind = kind ∧ r.tid = at' e.cfg.tids b 0 ∧ r.coords = cs ∧ r.lanes = n ∧
        r.tnt = tnt i ∧ r.ctl = toutCtl f i ∧ r.fwd = c.forward e.runId tn cs n ∧
        (stopped f c s.here.pos → r.st = .behind) ∧ (¬ stopped f c s.here.pos → r.st = .waiting)) ∧
    (∀ tn cs, v = .miss tn cs → ¬ stopped f c s.here.pos →
      ∃ j tm, s.freeFault s.here.ctx = some j ∧ t.team? s.here.ctx = some tm ∧
        tm.faults.get? j = some ⟨0x05, b, false, at' e.cfg.tids b 0, s.here.core * 64 + s.here.pos, cs, s.here.core,
          s.here.pos, f.dst.toNat - 24⟩ ∧
        Requests f s c e c' fun r => r.st = .faulted j false) ∧
    (∀ tn cs, v = .miss tn cs → stopped f c s.here.pos → Requests f s c e c' fun r => r.st = .behind)

/-- The tokens of a performed load: L lanes, or eight times L lanes with LAST on the last token (Table 8.2, R130, R133). -/
def loaded (r : LReq) (tn : Tensor) (vals : List Nat) : List Token :=
  let w := ebits tn.efmt
  let tok (j : Nat) (c : Ctl) : Token := ⟨fromLanes w fun k => vals.getD (64 / w * j + k) 0, efmtFmt tn.efmt, c, r.tnt⟩
  if r.kind = .burst then (List.range 8).map fun j => tok j (if j = 7 then .last else .data) else [tok 0 r.ctl]

/-- Request `r` of the LE of this turn waits, and no earlier request for the same location does (R260). -/
def Servable (s : State) (c : CoreCtx) (r : LReq) : Prop :=
  s.core? s.key = some c ∧ ((c.le s.here.pos).reqs.find? fun q => q.id == s.here.idx) = some r ∧ r.st = .waiting ∧
  ∀ q ∈ (c.le s.here.pos).reqs.takeWhile (fun q => q.id != r.id),
    (∃ toks, q.st = .served toks) ∨ s.sameLocation s.here.ctx r q = false

/-- Every entry of this number is served with these tokens, but for those it has sent before a restore; `own`: the core's own
stores give all of it, so that nothing arrives for it (R159, R170). -/
def Served (s : State) (c : CoreCtx) (r : LReq) (own : Bool) (toks : List Token) (c' : CoreCtx) : Prop :=
  (c'.le s.here.pos).reqs = (c.le s.here.pos).reqs.map fun q =>
    if q.id = r.id then { q with st := .served (toks.drop q.gone), own := own } else q

/-- R170: does the own block's buffer give all of a request's lanes? -/
def allForwarded (r : LReq) : Bool := decide (r.fwd.length = r.lanes) && r.fwd.all Option.isSome

/-- R132: the new word. -/
def modified (op : Nat) (old b : W64) : W64 :=
  if op = 0 then old + b
  else if op = 1 then (if b.toInt > old.toInt then b else old)
  else if op = 2 then (if old.extractLsb' 0 32 = b.extractLsb' 32 32 then old.extractLsb' 32 32 ++ b.extractLsb' 0 32 else old)
  else b

/-- The word that eight bytes hold, least significant first (R6). -/
def wordOf (bs : List Byte) : W64 := BitVec.ofNat 64 (leNat bs)

/-- The buffer holds one more entry of the open group (R167). -/
def Buffers (c : CoreCtx) (e : Elem) (pos : Nat) (op : BufOp) (c' : CoreCtx) : Prop :=
  c'.buf = c.buf ++ [⟨e.runId, c.groupOf e.runId, pos, op, false⟩]

/-- R134: the generator after a setting operation. -/
def setBy (g : LGen) (op : Nat) (a : W64) : LGen :=
  let hi : W32 := a.extractLsb' 32 32
  let lo : W32 := a.extractLsb' 0 32
  let h (i : Nat) : Nat := a.toNat / 2 ^ (16 * i) % 2 ^ 16
  if op = 0 then { g with c := upd (upd g.c 0 hi) 1 lo }
  else if op = 1 then { g with c := upd (upd g.c 2 hi) 3 lo }
  else if op = 2 then { g with c := upd g.c 4 lo }
  else if op = 3 then { g with n := upd (upd (upd (upd g.n 0 (h 0)) 1 (h 1)) 2 (h 2)) 3 (h 3) }
  else { g with n := upd g.n 4 (h 0) }

/-- R140: an engine command as its issue puts it into the queue. -/
def Issues (engine : Nat) (mk : Fields → Instr) (o : Op) : Prop :=
  Endpoint mk o fun _ s c _ i t c' =>
    let a := i.a.data
    let b := i.b.data
    let unit := s.engineUnit s.here.ctx s.here.core engine
    let old := (s.engines.get? (engine, unit)).getD []
    ∃ x, t.engines.get? (engine, unit) = some (old ++ [x]) ∧ (∀ k, k ≠ (engine, unit) → t.engines.get? k = s.engines.get? k) ∧
      x.engine = engine ∧ x.ctx = s.here.ctx ∧ x.core = s.here.core ∧ x.tid = a.toNat / 2 ^ 32 % 2 ^ 20 ∧ x.off = a.toNat % 2 ^ 32 ∧
      s.recordAt s.here.ctx x.tid x.off = some x.record ∧ x.tag = b.toNat / 2 ^ 24 % 256 ∧
      x.ctr = (if b.getLsbD 20 then some (b.toNat % 2 ^ 16, b.toNat / 2 ^ 16 % 16) else none) ∧ x.result = none ∧
      t.nextCmd = s.nextCmd + 1 ∧ t.flat = s.flat ∧ t.hbm = s.hbm ∧ t.mcores = s.mcores ∧ c'.buf = c.buf

end Sys2Proof.Claims

/-- R128, R130, R133, R136, R138: a fired GLD, GLDC, GLDB or TSTAT leaves a request, and its destination waits for it; a burst holds
its port (log 17). -/
def Sys2Proof.Claims.LoadsBecomeRequests : Prop :=
  Claims.Loads .gld gldOp (fun t => 64 / ebits t.efmt) .load Claims.taint ∧
  Claims.Loads .gldc gldcOp (fun t => 64 / ebits t.efmt) .load (fun _ => true) ∧
  Claims.Loads .gldb gldbOp (fun t => 8 * (64 / ebits t.efmt)) .burst Claims.taint ∧
  Claims.Endpoint .gld gldOp (fun f s _ e _ _ c' => Claims.Awaits f s.here.pos e c') ∧
  Claims.Endpoint .gldc gldcOp (fun f s _ e _ _ c' => Claims.Awaits f s.here.pos e c') ∧
  Claims.Endpoint .gldb gldbOp (fun f s _ _ _ _ c' =>
    Claims.onPort f → ((c'.elemD s.here.pos).port (f.dst.toNat - 24)).hold = some .burst) ∧
  Claims.Endpoint .tstat tstatOp (fun f s c e i t c' =>
    Claims.Quiet s t ∧ Claims.Awaits f s.here.pos e c' ∧
    Claims.Requests f s c e c' fun r => r.kind = .tstat ∧
      r.coords = [i.a.data.toNat % 2 ^ 16, i.a.data.toNat / 2 ^ 16 % 64] ∧ r.tnt = Claims.taint i ∧
      (¬ Claims.stopped f c s.here.pos → r.st = .waiting))

/-- R130, R133, R138, R258: a request performs at its memory: its tokens hold the lanes read there, or those that its own
block had stored (R170); a TSTAT gets the tile's entry. -/
def Sys2Proof.Claims.RequestsPerformAtMemory : Prop :=
  (∀ s c r tn tm, Claims.Servable s c r → r.kind ≠ .tstat → s.here.val = 0 → s.tensor? s.here.ctx r.tid = some tn →
    s.team? s.here.ctx = some tm → (∀ mc slot, tn.loc ≠ .tile mc slot) →
    ∃ t c', exec .loadRequest s = .next t ∧ t.core? s.key = some c' ∧ Claims.Quiet s t ∧
      Claims.Served s c r (Claims.allForwarded r) (Claims.loaded r tn (s.readLanes s.here.ctx tn r.coords r.lanes (fun _ _ => 0) r.fwd)) c') ∧
  (∀ s c r tn tm mc slot b cur, Claims.Servable s c r → r.kind ≠ .tstat → s.here.val = 0 → s.tensor? s.here.ctx r.tid = some tn →
    s.team? s.here.ctx = some tm → tn.loc = .tile mc slot → s.loadBuf s.key c r mc slot = some (b, cur) →
    ∃ t c', exec .loadRequest s = .next t ∧ t.core? s.key = some c' ∧ Claims.Quiet s t ∧
      Claims.Served s c r (Claims.allForwarded r) (Claims.loaded r tn (s.readLanes s.here.ctx tn r.coords r.lanes (fun _ _ => b) r.fwd)) c') ∧
  (∀ s c r m, Claims.Servable s c r → r.kind = .tstat → s.here.val = 0 → s.mcore? (s.here.ctx, r.coords.getD 0 0) = some m →
    s.awayFor s.key (c.hasEnded r.run r.group) m = false →
    let x := m.tile (r.coords.getD 1 0)
    let code := match x.state with
      | .empty => 0 | .filling => 1 | .ready => 2 | .draining => 3 | .predicted => 4 | .verifying => 5
    ∃ t c', exec .loadRequest s = .next t ∧ t.core? s.key = some c' ∧ Claims.Quiet s t ∧
      Claims.Served s c r false [⟨BitVec.ofNat 64 (code + (if x.own then 8 else 0) + 16 * x.ret + 2 ^ 32 * x.version.toNat), .i64,
        r.ctl, r.tnt⟩] c')

/-- The end of the hold of a request's port, where it is the last of a stream or a burst (R120, R134). -/
def Sys2Proof.Claims.ends (c : CoreCtx) (pos : Nat) (r : LReq) : List Flight :=
  match r.kind with
  | .burst => [⟨0, r.run, c.groupOf r.run, .portFree pos (r.dst - 24) .burst⟩]
  | .stream g true => [⟨0, r.run, c.groupOf r.run, .portFree pos (r.dst - 24) (.leGen g)⟩]
  | _ => []

/-- R130, R136: the front result of a destination is delivered: into its register with the late predicate update, or as a token on
its port, which a burst frees with the end of the cycle of its last token (log 45); the NULL token of a deferred fault goes out in
its load's place. -/
def Sys2Proof.Claims.RepliesAreDelivered : Prop :=
  ∀ s c r, s.core? s.key = some c → c.frozen = false → ((c.le s.here.pos).reqs.find? fun q => q.cls == s.here.idx) = some r →
    r.left = 0 → (r.kind = .sent ∨ r.own = true ∨ c.admits 1 = true) →
    (∀ tok rest, r.st = .served (tok :: rest) → r.dst ≤ 11 →
      ∃ t c', exec .leReply s = .next t ∧ t.core? s.key = some c' ∧
        (c'.elemD s.here.pos).reg r.dst = ⟨tok.data, tok.fmt, tok.tnt, true, false⟩ ∧
        (c'.le s.here.pos).reqs = (c.le s.here.pos).reqs.filter (fun q => q.id != r.id) ∧
        (3 ≤ r.pu ∧ r.pu ≤ 5 → r.pn < 8 → (c'.elemD s.here.pos).pred r.pn =
          ⟨if r.pu = 3 then tok.data.getLsbD 0 else if r.pu = 4 then decide (tok.data = 0#64) else tok.data.getLsbD 63,
            tok.tnt, false⟩)) ∧
    (∀ tok rest, r.st = .served (tok :: rest) → 24 ≤ r.dst → r.dst ≤ 27 →
      r.held = true ∨ ((c.elemD s.here.pos).port (r.dst - 24)).writable = true →
      ∃ t c', exec .leReply s = .next t ∧ t.core? s.key = some c' ∧
        c'.flights = c.flights ++ Claims.sent r.run (c.groupOf r.run) ((c.elemD s.here.pos).port (r.dst - 24)).recvs tok ++
          (if rest = [] then Claims.ends c s.here.pos r else []) ∧
        (r.held = false → ((c'.elemD s.here.pos).port (r.dst - 24)).recvs =
          Claims.oneLess ((c.elemD s.here.pos).port (r.dst - 24)).recvs) ∧
        (rest = [] → (c'.le s.here.pos).reqs = (c.le s.here.pos).reqs.filter (fun q => q.id != r.id)) ∧
        (rest ≠ [] → (c'.le s.here.pos).reqs = (c.le s.here.pos).reqs.map (fun q =>
          if q.id = r.id then { q with st := .served rest, held := false, gone := q.gone + 1 } else q))) ∧
    (∀ j, r.st = .faulted j false → 24 ≤ r.dst → r.dst ≤ 27 →
      r.held = true ∨ ((c.elemD s.here.pos).port (r.dst - 24)).writable = true →
      ∃ t c', exec .leReply s = .next t ∧ t.core? s.key = some c' ∧
        c'.flights = c.flights ++ Claims.sent r.run (c.groupOf r.run) ((c.elemD s.here.pos).port (r.dst - 24)).recvs
          ⟨BitVec.ofNat 64 (5 * 2 ^ 56 + j), .raw, .null, false⟩ ∧
        ∀ q ∈ (c'.le s.here.pos).reqs, q.id = r.id → q.st = .faulted j true)

namespace Sys2Proof.Claims

/-- The eight bytes of a word, each in one piece at the spot `f` gives it. -/
def together (f : Nat → Spot) : List (Spot × Nat × Nat) := (List.range 8).map fun j => (f j, 8, 8 * j)

end Sys2Proof.Claims

/-- R27, R132: an atomic with a guard of 1 reads and writes its word in one instant, and the old word is its reply: whole in
flat memory, in a frame or in a tile; with a guard of 0 it gives 0 at once and makes no access. -/
def Sys2Proof.Claims.AtomicsActAtTheirFire : Prop :=
  Claims.Endpoint .gatom gatomOp fun f s c e i t c' =>
    let l := lookAt gatomOp f s s.site c e
    let new (old : W64) : W64 := Claims.modified (l.lslot.toNat / 4 % 4) old i.b.data
    let reply (old : W64) : Prop := Claims.Requests f s c e c' fun r =>
      ∃ ctl, r.st = .served [⟨old, .i64, ctl, Claims.taint i⟩]
    (i.guard = true → ∀ b, b % 8 = 0 → l.atomicParts = Claims.together (fun j => .flat (b + 8 * j)) → s.flat.wf = true →
      let old := Claims.wordOf (s.flat.readN (b / 8) 8)
      reply old ∧ t.flat.readN (b / 8) 8 = leBytes 8 (new old).toNat ∧
      (∀ x, x < b / 8 ∨ b / 8 + 8 ≤ x → t.flat.read x = s.flat.read x) ∧ t.hbm = s.hbm ∧ t.mcores = s.mcores) ∧
    (i.guard = true → ∀ b, b % 8 = 0 → l.atomicParts = Claims.together (fun j => .hbm (b + 8 * j)) → s.hbm.wf = true →
      let old := Claims.wordOf (s.hbm.readN (b / 8) 8)
      reply old ∧ t.hbm.readN (b / 8) 8 = leBytes 8 (new old).toNat ∧
      (∀ x, x < b / 8 ∨ b / 8 + 8 ≤ x → t.hbm.read x = s.hbm.read x) ∧ t.flat = s.flat ∧ t.mcores = s.mcores) ∧
    (i.guard = true → s.hbm.wf = true → ∀ x,
      (∀ p ∈ l.atomicParts, ∀ b, p.1 = .hbm b → x < b / 8 ∨ b / 8 + (p.2.1 + 7) / 8 ≤ x) → t.hbm.read x = s.hbm.read x) ∧
    (i.guard = true → ∀ mc slot b m, b % 8 = 0 → l.atomicParts = Claims.together (fun j => .tile mc slot (b + 8 * j)) →
      s.mcore? (s.here.ctx, mc) = some m →
      m.window.wf = true →
      let w := (m.tile slot).bufAt (m.tile slot).cur + b / 8
      let old := Claims.wordOf (m.bytes w 8)
      ∃ m', t.mcore? (s.here.ctx, mc) = some m' ∧ reply old ∧ m'.bytes w 8 = leBytes 8 (new old).toNat ∧
        (∀ x, x < w ∨ w + 8 ≤ x → m'.byte x = m.byte x) ∧ m'.tiles = m.tiles ∧ t.flat = s.flat ∧ t.hbm = s.hbm) ∧
    (i.guard = false → Claims.Quiet s t ∧
      (c.behindReqs s.here.pos f.dst.toNat = false → (f.dst.toNat ≤ 11 → ∀ r ∈ (c.le s.here.pos).reqs, 11 < r.dst) →
        Claims.LandsNow f s.here.pos c e i ⟨0#64, .i64, Claims.taint i, Flags.none, none⟩ c'))

/-- R27, R29, R131, R135, R137: a store waits in the commit buffer for its group, and so do the lanes of ASTR and the message
of MSND; no memory changes at the fire, and a GST without its guard makes no access at all. -/
def Sys2Proof.Claims.StoresWaitInTheCommitBuffer : Prop :=
  Claims.Endpoint .gst gstOp (fun f s c e i t c' => Claims.Quiet s t ∧
    (Claims.Stores f i = true → ∀ tn cs n,
      Claims.access gstOp f s c e .store (fun t => 64 / ebits t.efmt) = .ok tn cs n →
        Claims.Buffers c e s.here.pos (.store tn.tid cs n i.b.data) c') ∧
    (Claims.Stores f i = false → c'.buf = c.buf)) ∧
  Claims.Endpoint .astr astrOp (fun f s c e i t c' => Claims.Quiet s t ∧
    ∀ tn cs n, (lookAt astrOp f s s.site c e).astrVerdict = .ok tn cs n →
      Claims.Buffers c e s.here.pos (.store tn.tid cs n i.a.data) c' ∧
      let g := (c.le s.here.pos).gen (i.b.data.toNat % 4)
      (c'.le s.here.pos).gen (i.b.data.toNat % 4) =
        if g.group + 1 = g.groups tn.rank (64 / ebits tn.efmt) then { g with mode := .idle, group := 0 }
        else { g with group := g.group + 1 }) ∧
  Claims.Endpoint .msnd msndOp (fun _ s c e i t c' => Claims.Quiet s t ∧
    Claims.Buffers c e s.here.pos (.msnd i.a.data i.b.data) c')

/-- R134, R136: AGEN sets coordinates and extents, and starts a stream or arms a generator; a stream's token is one request
with the tag of its place in the box. -/
def Sys2Proof.Claims.GeneratorsWalkTheirBoxes : Prop :=
  Claims.Endpoint .agen agenOp (fun f s c _ i t c' =>
    let n := i.b.data.toNat % 4
    let op := i.b.data.toNat / 4 % 8
    let g := (c.le s.here.pos).gen n
    let armed (m : GenMode) : LGen :=
      { g with mode := m, group := 0, port := f.dst.toNat - 24, slot := s.here.idx, addr := i.a.data, tnt := Claims.taint i }
    Claims.Quiet s t ∧
    (c'.le s.here.pos).gen n = (if op = 5 then armed .load else if op = 6 then armed .store else Claims.setBy g op i.a.data) ∧
    (∀ m < 4, m ≠ n → (c'.le s.here.pos).gen m = (c.le s.here.pos).gen m) ∧
    (op = 5 → Claims.onPort f → ((c'.elemD s.here.pos).port (f.dst.toNat - 24)).hold = some (.leGen n)) ∧
    ∃ back, Claims.OnlyCredits back ∧ c'.flights = c.flights ++ back) ∧
  (∀ s c e tn cs n, Claims.At s c e → c.frozen = false → s.foreground s.key = true → e.held = none → e.run ≠ none →
    let g := (c.le s.here.pos).gen s.here.idx
    let L := 64 / ebits tn.efmt
    let b := (at' e.cfg.lslots g.slot 0x10#9).toNat % 4
    g.mode = .load → s.here.idx < 4 → (c.le s.here.pos).stopped (24 + g.port) = false → s.reqRoom s.key s.here.pos = true →
    s.tensor? s.here.ctx (at' e.cfg.tids b 0) = some tn → g.group < g.groups tn.rank L →
    s.genVerdict s.key g (at' e.cfg.tids b 0) .load (e.watches (.gen s.here.idx)) = .ok tn cs n → s.xlatHit s.key tn cs n = true →
    ∃ t c' r, exec .leStreamToken s = .next t ∧ t.core? s.key = some c' ∧ Claims.Quiet s t ∧
      (c'.le s.here.pos).reqs = (c.le s.here.pos).reqs ++ [r] ∧ r.coords = cs ∧ r.lanes = n ∧ r.dst = 24 + g.port ∧
      r.st = .waiting ∧ r.ctl = (if g.group + 1 = g.groups tn.rank L then .last
        else if (g.group + 1) % g.runGroups tn.rank L = 0 then .sep else .data) ∧
      (c'.le s.here.pos).gen s.here.idx = { g with
        group := g.group + 1, mode := if g.group + 1 = g.groups tn.rank L then .ending else .load })

/-- R140: XFER, GRED, COLL and ROUTE put one command into the queue of their quad's or die's engine, with the record as
committed memory gives it. -/
def Sys2Proof.Claims.EngineCommandsAreQueued : Prop :=
  Claims.Issues 1 .xfer xferOp ∧ Claims.Issues 2 .gred gredOp ∧ Claims.Issues 4 .coll collOp ∧ Claims.Issues 3 .route routeOp

namespace Sys2Proof.Claims

/-- R259: the beat buffers of a core are empty, and nothing else of it has changed. -/
def WithoutBeats (c c' : CoreCtx) : Prop :=
  c' = { c with les := c'.les } ∧ ∀ p, c'.le p = { c.le p with beats := [] }

/-- R259: of the cores that `P` names, those of the step's team have lost their beat buffers, and the others are as they
were. -/
def LosingBeats (s t : State) (P : Key → Prop) : Prop :=
  ∀ k, P k → (k.1 ≠ s.here.ctx → t.core? k = s.core? k) ∧
    (k.1 = s.here.ctx → ∀ c, s.core? k = some c → ∃ c', t.core? k = some c' ∧ WithoutBeats c c')

end Sys2Proof.Claims

/-- R139, R259, R266: MOWN sets the owner bit of its tile at its fire, ends the hold of engine operations that it asked for while it
waited, and changes no other tile or field; no LE of the team keeps a block from before the flip (log 98). -/
def Sys2Proof.Claims.OwnerFlipTakesEffect : Prop :=
  ∀ f s c e sh, Claims.At s c e → kindAt s.here.pos = .le → shapeOf mownOp.opc = some sh → slotStatus mownOp f s s.site = .ready →
    let i := Claims.operands mownOp.opc f s c e
    let mc := i.a.data.toNat % 2 ^ 16
    let slot := i.a.data.toNat / 2 ^ 16 % 64
    ∃ t c', exec (.mown f) s = .next t ∧ t.core? s.key = some c' ∧ Claims.KeptHere sh f s c e c' ∧
      (∀ p, (c'.le p).beats = []) ∧ Claims.LosingBeats s t (fun k => k ≠ s.key) ∧ t.flat = s.flat ∧ t.hbm = s.hbm ∧
      ∀ m, s.mcore? (s.here.ctx, mc) = some m →
        ∃ m', t.mcore? (s.here.ctx, mc) = some m' ∧
          m'.tile slot = { m.tile slot with own := i.a.data.getLsbD 24, flipWaits := none } ∧
          (∀ x, x ≠ slot → m'.tile x = m.tile x) ∧ m' = { m with tiles := m'.tiles } ∧
          ∀ k, k ≠ (s.here.ctx, mc) → t.mcore? k = s.mcore? k

/-- R136, R170, R298: once its record is resolved, a deferred fault's NULL token leaves the receiving queue, its record is free,
and its request waits at the memory again with what its block has buffered by then. -/
def Sys2Proof.Claims.ResolvedFaultsAreReissued : Prop :=
  ∀ s c r j rec' tm tn cs n, s.core? s.key = some c → c.frozen = false →
    ((c.le s.here.pos).reqs.filter fun q => q.dst == 24 + s.here.idx) = [r] → r.st = .faulted j true →
    s.team? s.here.ctx = some tm → tm.faults.get? j = some rec' → rec'.resolved = true →
    s.reqRoom s.key s.here.pos = true → r.kind ≠ .tstat →
    s.check s.here.ctx r.tid .load (fun _ => r.coords) (fun _ => r.lanes) ((c.elemD s.here.pos).watches (.req r.id)) = .ok tn cs n →
    s.xlatHit s.key tn cs n = true →
    ∃ t c' tm', exec .faultReissue s = .next t ∧ t.core? s.key = some c' ∧ t.team? s.here.ctx = some tm' ∧
      tm'.faults.get? j = none ∧ (∃ q ∈ (c'.le s.here.pos).reqs, q.id = r.id ∧ q.st = .waiting ∧ q.fwd = c.forward r.run tn cs n) ∧
      ∀ x, ((c.elemD s.here.pos).port s.here.idx).recvs = [x] →
        (⟨BitVec.ofNat 64 (5 * 2 ^ 56 + j), .raw, .null, false⟩ : Token) ∈ (c.elemD x.pos).queue x.q →
        (c'.elemD x.pos).queue x.q =
          ((c.elemD x.pos).queue x.q).erase ⟨BitVec.ofNat 64 (5 * 2 ^ 56 + j), .raw, .null, false⟩

/-- R293: a resident tile's translation enters the layout unit as its most recent one, of at most 64. -/
def Sys2Proof.Claims.TranslationsAreFilled : Prop :=
  ∀ s tm pc, s.team? s.here.ctx = some tm → s.physCore? s.key = some pc → (tm.frames.get? (s.here.idx, s.here.val)).isSome = true →
    ∃ t rest, exec .translationFill s = .next t ∧
      (t.physOf pc).xlat = rest ++ [(s.here.ctx, s.here.idx, s.here.val)] ∧ rest.length ≤ 63 ∧
      t = { s with phys := t.phys } ∧ ∀ p, p ≠ pc → t.physOf p = s.physOf p

/-! ### The common operations (R142 to R155) -/

namespace Sys2Proof.Claims

/-- An operation of any element. -/
def Common : (Fields → Instr) → Op → (Fields → State → CoreCtx → Elem → Ins → State → CoreCtx → Prop) → Prop := Fires fun _ => True

/-- R148: the value that an ID selector names. -/
def identity (s : State) (c : CoreCtx) (e : Elem) (tm : Team) (r : Run) (sel : Nat) : Nat :=
  let bit (b : Bool) (n : Nat) : Nat := if b then 2 ^ n else 0
  let flags := bit e.flags.nv 0 + bit e.flags.dz 1 + bit e.flags.of 2 + bit e.flags.uf 3 + bit e.flags.nx 4 + bit e.flags.io 5 +
    bit e.flags.tc 6
  if sel = 0x00 then s.here.core * 64 + s.here.pos
  else if sel = 0x01 then s.here.core
  else if sel = 0x02 then tm.launch.quads
  else if sel = 0x03 then s.here.ctx
  else if sel = 0x04 then tm.launch.pri
  else if sel = 0x05 then (if tm.launch.ft then 1 else 0)
  else if sel = 0x06 ∨ sel = 0x07 then flags
  else if sel = 0x08 then r.status.groups
  else if sel = 0x09 then r.status.variant + 4 * r.unroll
  else if sel = 0x0A then c.walker.cw.toNat
  else if sel = 0x0B then (if tm.launch.ft then c.epoch else 0)
  else if 0x20 ≤ sel ∧ sel ≤ 0x2F then (at' tm.watch (sel - 0x20) WatchPoint.off).count.toNat
  else 0

/-- R42, R148: the flags that ID selector 0x07 leaves. -/
def cleared (x : Flags) (a : W64) : Flags :=
  ⟨x.nv && !a.getLsbD 8, x.dz && !a.getLsbD 9, x.of && !a.getLsbD 10, x.uf && !a.getLsbD 11, x.nx && !a.getLsbD 12,
    x.io && !a.getLsbD 13, x.tc && !a.getLsbD 14⟩

/-- R152: the watchpoint that a record of eight words describes. -/
def watchpoint (r : List W64) : WatchPoint :=
  let w := (r.getD 0 0#64).toNat
  let half (n : Nat) : Nat := (r.getD (n / 2) 0#64).toNat / 2 ^ (32 * (n % 2)) % 2 ^ 32
  ⟨true, w % 2 ^ 20, w / 2 ^ 20 % 4, w.testBit 22, [half 2, half 3, half 4, half 5, half 6],
    [half 7, half 8, half 9, half 10, half 11], 0#32⟩

/-- A fire of this operation updates its predicate by R26, from a value of the machine and the operands. -/
def SetsFrom (later : Bool) (mk : Fields → Instr) (o : Op) (v : Fields → State → CoreCtx → Elem → Ins → Res) : Prop :=
  ∀ f s c e, At s c e → HasRoom o f s c e → slotStatus o f s s.site = .ready →
    ∃ t c', exec (mk f) s = .next t ∧ t.core? s.key = some c' ∧
      (c'.elemD s.here.pos).pred f.pn.toNat =
        predAfter later f (operands o.opc f s c e) (((e.headOf f.sa.toNat).map (·.tnt)).getD false)
          (v f s c e (operands o.opc f s c e)) (e.pred f.pn.toNat)

/-- The same from a value of the operands alone. -/
def Sets (later : Bool) (mk : Fields → Instr) (o : Op) (v : Ins → Res) : Prop := SetsFrom later mk o fun _ _ _ _ i => v i

/-- R28, R67, R142: the value of SA with the taint of all that the fire reads, and a number in its place. -/
def ofSa (i : Ins) : Res := ⟨i.a.data, .i64, taint i, Flags.none, none⟩
def constant (n : W64) (i : Ins) : Res := ⟨n, .i64, taint i, Flags.none, none⟩

/-- The operations without a result that test SA at their fire. -/
def testingSa : List ((Fields → Instr) × Op) :=
  [(.agen, agenOp), (.gldb, gldbOp), (.astr, astrOp), (.xfer, xferOp), (.gred, gredOp), (.coll, collOp), (.route, routeOp),
    (.msnd, msndOp), (.mown, mownOp), (.waitc, waitcOp), (.fence, fenceOp), (.cwset, cwsetOp), (.watch, watchOp),
    (.cfgw, cfgwOp), (.arrv, arrvOp), (.evt, evtOp), (.busr, busrOp), (.busc, buscOp), (.accZero, accZeroOp),
    (.accDcy, accDcyOp), (.accDrn, accDrnOp), (.accPatch, accPatchOp), (.accMode, accModeOp), (.bhold, bholdOp),
    (.sgen, sgenOp), (.sown, sownOp), (.sfill, sfillOp)] ++ rowFires.map fun x => (x.1, mmaOp x.2)

/-- The operations whose predicate update waits for a result that comes later (R26, R117, R123, Table 6.5). -/
def testingLater : List ((Fields → Instr) × Op) :=
  [(.gld, gldOp), (.gldc, gldcOp), (.tstat, tstatOp), (.accScl, accSclOp), (.sld, sldOp), (.sst, sstOp), (.sldg, sldgOp),
    (.sstg, sstgOp), (.saadd, saaddOp), (.samax, samaxOp), (.scas, scasOp), (.sbeat, sbeatOp), (.cvtBfF32, cvtBfF32Op),
    (.cvtF32Bf, cvtF32BfOp), (.cvtE4F32, cvtE4F32Op), (.cvtE5F32, cvtE5F32Op), (.cvtF32E4, cvtF32E4Op),
    (.cvtF32E5, cvtF32E5Op), (.cvtBfE4, cvtBfE4Op), (.cvtMx4Bf, cvtMx4BfOp), (.cvtBfMx4, cvtBfMx4Op), (.cvtI8F32, cvtI8F32Op),
    (.cvtF32I8, cvtF32I8Op), (.cvtF32I64, cvtF32I64Op), (.cvtI64F32, cvtI64F32Op)]

/-- R149: the scope of an operand, and whether its semantics acquire and release. -/
def scopeIn (a : W64) : Nat := a.toNat % 8
def acquires (a : W64) : Prop := a.toNat / 8 % 4 ≠ 2
def releases (a : W64) : Prop := a.toNat / 8 % 4 ≠ 1

end Sys2Proof.Claims

/-- R26, R28, R67, R142: the predicate updates of every operation but those of a PE with a result: from SA at the fire, or left
pending for a later result; NOP, HALT and COMMIT test 0, TIME, CYC, ID and ACC.RD their results. Those of AGEN and GLDB test SA
by log 17 and log 18, and an operation without D gives the predicate the taint of every source by log 96. -/
def Sys2Proof.Claims.OtherPredicatesFollowR26 : Prop :=
  (∀ x ∈ Claims.testingSa, Claims.Sets false x.1 x.2 Claims.ofSa) ∧
  (∀ x ∈ Claims.testingLater, Claims.Sets true x.1 x.2 Claims.ofSa) ∧
  Claims.Sets false .nop nopOp (Claims.constant 0#64) ∧ Claims.Sets false .halt haltOp (Claims.constant 0#64) ∧
  Claims.Sets false .commit commitOp (Claims.constant 0#64) ∧
  Claims.SetsFrom false .time timeOp (fun _ s _ _ i => Claims.constant (BitVec.ofNat 64 s.time) i) ∧
  Claims.SetsFrom false .cyc cycOp (fun _ _ c _ i => Claims.constant c.cyc i) ∧
  Claims.SetsFrom false .accRd accRdOp (fun f s c _ i =>
    let b := (c.me s.here.pos).bank f.dst.toNat
    let x := at' b.c (i.b.data.toNat % 16) 0#32
    ⟨if b.int then x.signExtend 64 else x.zeroExtend 64, .i64, b.tnt || Claims.taint i, Flags.none, none⟩) ∧
  (∀ f s c e tm r, Claims.At s c e → Claims.HasRoom idOp f s c e → slotStatus idOp f s s.site = .ready →
    s.team? s.here.ctx = some tm → c.run? e.runId = some r →
    let i := Claims.operands 0xE7 f s c e
    ∃ t c', exec (.id f) s = .next t ∧ t.core? s.key = some c' ∧
      (c'.elemD s.here.pos).pred f.pn.toNat = Claims.predAfter false f i (((e.headOf f.sa.toNat).map (·.tnt)).getD false)
        (Claims.constant (BitVec.ofNat 64 (Claims.identity s c e tm r (i.a.data.toNat % 256))) i) (e.pred f.pn.toNat)) ∧
  (∀ s f c e, Claims.At s c e → slotStatus barsOp f s s.site = .ready →
    let i := Claims.operands 0xE9 f s c e
    ∃ t c', exec (.bars f) s = .next t ∧ t.core? s.key = some c' ∧
      (c'.elemD s.here.pos).pred f.pn.toNat = Claims.predAfter (decide (Claims.scopeIn i.a.data ≠ 0)) f i
        (((e.headOf f.sa.toNat).map (·.tnt)).getD false) (Claims.constant 1#64 i) (e.pred f.pn.toNat))

/-- R143, R144, R146: NOP changes nothing, HALT ends its element, COMMIT closes its group with the cycle, and WAITC holds its
element for the cycles it names. -/
def Sys2Proof.Claims.ElementsHaltCommitAndWait : Prop :=
  Claims.Common .nop nopOp (fun _ s c e _ t c' => Claims.Quiet s t ∧ c'.flights = c.flights ∧ c'.buf = c.buf ∧
    (c'.elemD s.here.pos).halted = e.halted ∧ (c'.elemD s.here.pos).waitc = e.waitc) ∧
  Claims.Common .halt haltOp (fun _ s c _ _ t c' => Claims.Quiet s t ∧ c'.buf = c.buf ∧
    (c'.elemD s.here.pos).halted = true) ∧
  Claims.Common .commit commitOp (fun _ s c e _ t c' => Claims.Quiet s t ∧ c'.buf = c.buf ∧
    ∀ r, c.run? e.runId = some r → ∃ r', c'.run? e.runId = some r' ∧ r' = { r with closing := true, fires := r.fires + 1 }) ∧
  Claims.Common .waitc waitcOp (fun _ s c _ i t c' => Claims.Quiet s t ∧ c'.buf = c.buf ∧
    (c'.elemD s.here.pos).waitc = i.a.data.toNat % 2 ^ 32)

/-- R42, R147, R148: TIME, CYC and ID give the ticks, the core's cycles and the selected value; selector 0x07 then clears the
flags it names but those that results of this cycle set. -/
def Sys2Proof.Claims.TimeCyclesAndIdentity : Prop :=
  Claims.Common .time timeOp (fun f s c e i t c' => Claims.Quiet s t ∧
    (c.behindReqs s.here.pos f.dst.toNat = false → Claims.LandsNow f s.here.pos c e i ⟨BitVec.ofNat 64 s.time, .i64, false, Flags.none, none⟩ c')) ∧
  Claims.Common .cyc cycOp (fun f s c e i t c' => Claims.Quiet s t ∧
    (c.behindReqs s.here.pos f.dst.toNat = false → Claims.LandsNow f s.here.pos c e i ⟨c.cyc, .i64, false, Flags.none, none⟩ c')) ∧
  Claims.Common .id idOp (fun f s c e i t c' => Claims.Quiet s t ∧
    ∀ tm r, s.team? s.here.ctx = some tm → c.run? e.runId = some r →
      let sel := i.a.data.toNat % 256
      let v : W64 := BitVec.ofNat 64 (Claims.identity s c e tm r sel)
      (sel ≠ 7 → c.behindReqs s.here.pos f.dst.toNat = false →
        Claims.LandsNow f s.here.pos c e i ⟨v, .i64, Claims.taint i, Flags.none, none⟩ c') ∧
      (sel = 7 → (c'.elemD s.here.pos).flags = (Claims.cleared e.flags i.a.data).or e.landed ∧
        (f.dst.toNat ≤ 11 → (c'.elemD s.here.pos).reg f.dst.toNat = ⟨v, .i64, Claims.taint i, true, false⟩)))

/-- R136, R147, R148: on an LE, a result of TIME, CYC or ID for a port with results outstanding keeps its credit and its place
behind them (log 20). -/
def Sys2Proof.Claims.EndpointResultsKeepTheirOrder : Prop :=
  ∀ x ∈ ([(.time, timeOp), (.cyc, cycOp), (.id, idOp)] : List ((Fields → Instr) × Op)), ∀ f s c e, Claims.At s c e →
    slotStatus x.2 f s s.site = .ready → Claims.onPort f → c.behindReqs s.here.pos f.dst.toNat = true →
      ∃ t c' r tok, exec (x.1 f) s = .next t ∧ t.core? s.key = some c' ∧
        (c'.le s.here.pos).reqs = (c.le s.here.pos).reqs ++ [r] ∧ r.kind = .sent ∧ r.dst = f.dst.toNat ∧ r.st = .served [tok] ∧
        ((c'.elemD s.here.pos).port (f.dst.toNat - 24)).recvs = Claims.oneLess (e.port (f.dst.toNat - 24)).recvs

namespace Sys2Proof.Claims

/-- The operations that make an access at their fire, or begin one (R149). -/
def accesses : List Op := [gldOp, gldcOp, gstOp, gatomOp, gldbOp, astrOp, xferOp, gredOp, collOp, routeOp, msndOp, tstatOp, mownOp,
  barsOp, watchOp, arrvOp]

end Sys2Proof.Claims

/-- R149, R259: a FENCE that releases fires once its LE's loads and atomics have performed and its load streams with them; one
that acquires drops the beat buffer and notes the loads and the streams that later accesses wait for, and no access fires before
those have performed, the requests that a stream forms after the fence among them. -/
def Obligations.FencesOrderAccesses : Prop :=
  (Claims.Common .fence fenceOp fun _ s c _ i t c' => Claims.Quiet s t ∧ c'.buf = c.buf ∧
    (c'.le s.here.pos).reqs = (c.le s.here.pos).reqs ∧
    (kindAt s.here.pos = .le → Claims.releases i.a.data → (∀ r ∈ (c.le s.here.pos).reqs, ∃ toks, r.st = .served toks) ∧
      ∀ g < 4, ((c.le s.here.pos).gen g).mode ≠ .load) ∧
    (kindAt s.here.pos = .le → Claims.acquires i.a.data → (c'.le s.here.pos).beats = [] ∧
      (∀ n, n ∈ (c'.elemD s.here.pos).fence ↔ ∃ r ∈ (c.le s.here.pos).reqs, r.id = n ∧ ∀ toks, r.st ≠ .served toks) ∧
      ∀ g, g ∈ (c'.elemD s.here.pos).fenceGens ↔ g < 4 ∧ ((c.le s.here.pos).gen g).mode = .load) ∧
    (¬ Claims.acquires i.a.data → (c'.le s.here.pos).beats = (c.le s.here.pos).beats)) ∧
  ∀ o ∈ Claims.accesses, ∀ f s c e, Claims.At s c e → slotStatus o f s s.site = .ready → s.site.chosen = false →
    (∀ r ∈ (c.le s.here.pos).reqs, r.id ∈ e.fence → ∃ toks, r.st = .served toks) ∧
    ∀ g ∈ e.fenceGens, ((c.le s.here.pos).gen g).mode ≠ .load ∧
      ∀ r ∈ (c.le s.here.pos).reqs, ∀ last, r.kind = .stream g last → ∃ toks, r.st = .served toks

/-- R150, R244, R246: BARS arrives at the barrier that its operands name; with the last enrolled element of its run the core
has arrived. Lane scope completes with the fire. -/
def Sys2Proof.Claims.BarriersAreReached : Prop :=
  Claims.Common .bars barsOp fun f s c e i t _ =>
    let sc := Claims.scopeIn i.a.data
    let num := i.b.data.toNat % 64
    Claims.Quiet s t ∧ ∀ tm, s.team? s.here.ctx = some tm → ∃ tm', t.team? s.here.ctx = some tm' ∧
      (sc = 0 → tm'.bars = tm.bars) ∧
      (sc ≠ 0 →
        let unit := tm.scopeUnit sc s.here.core e.runId
        let old := (tm.bar? sc unit num).getD ⟨sc, unit, num, 0, [], [], false⟩
        let enrolled := c.enrolledOf e.runId sc num
        ∃ b' a, tm'.bar? sc unit num = some b' ∧ b'.arrived = old.arrived ++ [a] ∧ b'.gen = old.gen ∧
          a.core = s.here.core ∧ a.pos = s.here.pos ∧ a.run = e.runId ∧ (a.valid = true ↔ c.specRun e.run = false) ∧
          (3 ≤ f.pu.toNat ∧ f.pu.toNat ≤ 5 → a.pu = f.pu.toNat ∧ a.pn = f.pn.toNat) ∧
          let all := ∀ p ∈ enrolled, ∃ x ∈ b'.arrived, x.core = s.here.core ∧ x.run = e.runId ∧ x.pos = p
          (enrolled ≠ [] → all → (s.here.core, some e.runId) ∉ old.full →
            b'.full = old.full ++ [(s.here.core, some e.runId)]) ∧
          (enrolled = [] ∨ ¬ all ∨ (s.here.core, some e.runId) ∈ old.full → b'.full = old.full))

/-- R151, R152, R153, R154, R155: CWSET hands its word to the walker, WATCH loads a watchpoint or disables it and keeps its hit
count, from its fire on (log 26), CFGW leaves a word for the end of the cycle, ARRV waits in the commit buffer, and EVT counts. -/
def Sys2Proof.Claims.CommonEffects : Prop :=
  Claims.Common .cwset cwsetOp (fun _ s c _ i t c' => Claims.Quiet s t ∧
    c'.walker = { c.walker with cwsets := c.walker.cwsets ++ [(i.a.data, i.b.data)] }) ∧
  Claims.Common .watch watchOp (fun _ s _ _ i t _ => Claims.Quiet s t ∧
    ∀ tm, s.team? s.here.ctx = some tm → ∃ tm', t.team? s.here.ctx = some tm' ∧
      let n := i.b.data.toNat % 16
      (i.b.data.getLsbD 4 = false →
        at' tm'.watch n WatchPoint.off = { WatchPoint.off with count := (at' tm.watch n WatchPoint.off).count }) ∧
      (i.b.data.getLsbD 4 = true → ∃ rec',
        s.recordAt s.here.ctx (i.a.data.toNat / 2 ^ 32 % 2 ^ 20) (i.a.data.toNat % 2 ^ 32) = some rec' ∧
        at' tm'.watch n WatchPoint.off = Claims.watchpoint rec') ∧
      ∀ m < 16, m ≠ n → at' tm'.watch m WatchPoint.off = at' tm.watch m WatchPoint.off) ∧
  Claims.Common .cfgw cfgwOp (fun _ s c e i t c' => Claims.Quiet s t ∧
    ∃ back, Claims.OnlyCredits back ∧ c'.flights = c.flights ++ back ++
      [⟨0, e.runId, c.groupOf e.runId, .cfgw (i.b.data.toNat % 64) (i.b.data.toNat / 64 % 16) i.a.data⟩]) ∧
  Claims.Common .arrv arrvOp (fun _ s c e i t c' => Claims.Quiet s t ∧
    Claims.Buffers c e s.here.pos
      (.arrv (i.a.data.toNat % 2 ^ 16) (i.a.data.toNat / 2 ^ 16 % 16) (i.b.data.extractLsb' 0 32)) c') ∧
  Claims.Common .evt evtOp (fun _ s c _ i t c' => Claims.Quiet s t ∧
    let n := i.a.data.toNat % 32
    24 ≤ n ∧ at' c'.evc n 0#64 = at' c.evc n 0#64 + BitVec.ofNat 64 (i.a.data.toNat / 2 ^ 16 % 2 ^ 16) ∧
    ∀ m < 32, 24 ≤ m → m ≠ n → at' c'.evc m 0#64 = at' c.evc m 0#64)

/-! ### Arrivals, buses and blocks on a core (R16 to R31, R79 to R82, R143, R159 to R168, R181) -/

namespace Sys2Proof.Claims

/-- The first due item of the flights that `kind` accepts is `x`, and `rest` are the others. -/
def FirstDue (kind : Cargo → Bool) (c : CoreCtx) (x : Flight) (rest : List Flight) : Prop :=
  x.left = 0 ∧ kind x.cargo = true ∧
  ∃ pre post, c.flights = pre ++ x :: post ∧ rest = pre ++ post ∧ ∀ y ∈ pre, y.left = 0 → kind y.cargo = false

def isResult (x : Cargo) : Bool := match x with | .result _ => true | _ => false
def isToken (x : Cargo) : Bool := match x with | .token _ _ _ => true | _ => false
def isCredit (x : Cargo) : Bool := match x with | .credit _ _ _ => true | .busCredit _ _ => true | _ => false
def isBus (x : Cargo) : Bool := match x with | .busToken _ _ _ => true | .busScales _ _ _ => true | _ => false
def isChunk (x : Cargo) : Bool := match x with | .chunk _ _ _ _ _ => true | _ => false

/-- An event of a core: wherever `H` holds of the core, the step is taken and `P` holds of what it leaves. -/
def CoreEvent (i : Instr) (s : State) (c : CoreCtx) (P : State → CoreCtx → Prop) : Prop :=
  s.core? s.key = some c → ∃ t c', exec i s = .next t ∧ t.core? s.key = some c' ∧ P t c'

/-- A record of these words stands at position `p` of the ring of quad `q` of a team (R304, R305). -/
def Recorded (s t : State) (tm : Team) (q p : Nat) (words : List W64) : Prop :=
  t.flat.readN (tm.quadPlace q + 0x170000 + 64 * p) 64 = wordsBytes words ∧
  ∀ a, a < tm.quadPlace q + 0x170000 + 64 * p ∨ tm.quadPlace q + 0x170000 + 64 * p + 64 ≤ a → t.flat.read a = s.flat.read a

/-- The words of the trap record of a walker that no block run is concerned in (Table 20.2, R196). -/
def walkerRecord (s : State) (c : CoreCtx) (tm : Team) (node code : Nat) (info info2 : W64) : List W64 :=
  [BitVec.ofNat 64 (code + 2 ^ 8 + 2 ^ 10 + s.here.core % 2 ^ 16 * 2 ^ 16 + s.here.ctx * 2 ^ 32 + node * 2 ^ 48), info, info2,
    0#64, BitVec.ofNat 64 s.time, c.cyc, BitVec.ofNat 64 (c.epoch % 2 ^ 32 + tm.recSeq * 2 ^ 32), 0#64]

/-- A walker's trap has been taken: its record is written, and the core notes it for the end of the cycle. -/
def WalkerTrapped (s t : State) (c c' : CoreCtx) (tm : Team) (p node code : Nat) (info info2 : W64) : Prop :=
  Recorded s t tm (s.here.core / 2) p (walkerRecord s c tm node code info info2) ∧
  c'.raised = c.raised ++ [s.here.core / 2 * 512 + p]

/-- The MMA slots of an element enable their slices (R100). -/
def enabled (e : Elem) (q : Nat) : Prop :=
  ∃ w ∈ e.slots.toList, w.getLsbD 1 = true ∧ 0x90 ≤ w.toNat / 2 ^ 30 % 256 ∧ w.toNat / 2 ^ 30 % 256 ≤ 0xA7 ∧
    w.toNat / 2 ^ 20 % 32 - 12 = q

/-- The entries of a group of a run. -/
def inGroup (c : CoreCtx) (run g : Nat) : List BufEntry := c.buf.filter fun b => b.run == run && b.group == g

/-- A word that a run's stream has read and not yet sent, and the port whose credit it holds (R120). -/
def unsent (run : Nat) (f : Flight) : Option (Nat × Nat) :=
  match f.cargo with
  | .streamWord pos p _ _ _ _ => if f.run = run then some (pos, p) else none
  | _ => none

/-- The streams and column readers of a run have ended (R102, R143): the words read and not sent are gone, their credits are
back, and no reader of the run is left. -/
def StreamsEnded (run : Nat) (c c' : CoreCtx) : Prop :=
  c'.flights = c.flights.filter (fun f => (unsent run f).isNone) ∧
  c'.readers = c.readers.filter (fun x => x.2.run != run) ∧
  ∀ pos, ∀ p < 4, ((c'.elemD pos).port p).recvs = ((c.elemD pos).port p).recvs.map fun (x : Recv) =>
    { x with credits := x.credits + (c.flights.filter fun f => unsent run f = some (pos, p)).length }

/-- A run whose group `g` may commit (R144, R165, R203, R253). -/
def MayCommit (s : State) (c : CoreCtx) (r : Run) (g : Nat) (gs : List Nat) : Prop :=
  s.core? s.key = some c ∧ c.run? s.here.idx = some r ∧ r.ended = g :: gs ∧ r.spec = false ∧ r.reissue = false ∧
  s.arrived s.key c r.id g = true ∧ s.accepted s.key true (inGroup c r.id g) = true ∧
  s.mayPublish s.here.ctx s.here.core r.id g = true ∧ s.mayMessage (inGroup c r.id g) = true

end Sys2Proof.Claims

/-- R16, R18, R19, R26, R42, R79: the first long result due reaches its register or its receivers, with its flags and its late
predicate update; tokens and credits reach their queues and senders. -/
def Sys2Proof.Claims.ArrivalsLand : Prop :=
  (∀ s c run g r rest, Claims.FirstDue Claims.isResult c ⟨0, run, g, .result r⟩ rest →
    Claims.CoreEvent .longResultArrival s c fun _ c' =>
      (r.dst ≤ 11 → (c'.elemD r.pos).reg r.dst = ⟨r.data, r.fmt, r.tnt, true, false⟩ ∧ c'.flights = rest) ∧
      (24 ≤ r.dst ∧ r.dst ≤ 27 → c'.flights = rest ++
        Claims.sent run (c.groupOf run) ((c.elemD r.pos).port (r.dst - 24)).recvs ⟨r.data, r.fmt, r.ctl, r.tnt⟩) ∧
      (c'.elemD r.pos).flags = (c.elemD r.pos).flags.or r.flags ∧
      (3 ≤ r.pu ∧ r.pu ≤ 5 → r.pn < 8 → (c'.elemD r.pos).pred r.pn =
        ⟨if r.pu = 3 then r.data.getLsbD 0 else if r.pu = 4 then decide (r.data = 0#64) else r.data.getLsbD 63, r.tnt, false⟩)) ∧
  (∀ s c run g pos q tok rest, Claims.FirstDue Claims.isToken c ⟨0, run, g, .token pos q tok⟩ rest → q < 4 →
    Claims.CoreEvent .tokenArrival s c fun _ c' =>
      (c'.elemD pos).queue q = (c.elemD pos).queue q ++ [tok] ∧ c'.flights = rest ∧
      (∀ p, p ≠ pos → c'.elem? p = c.elem? p) ∧ ∀ x < 4, x ≠ q → (c'.elemD pos).queue x = (c.elemD pos).queue x) ∧
  (∀ s c run g pos p i rest, Claims.FirstDue Claims.isCredit c ⟨0, run, g, .credit pos p i⟩ rest → p < 4 → kindAt pos ≠ .le →
    Claims.CoreEvent .creditReturn s c fun _ c' => c'.flights = rest ∧
      ((c'.elemD pos).port p).recvs.length = ((c.elemD pos).port p).recvs.length ∧
      ∀ j x, ((c.elemD pos).port p).recvs[j]? = some x →
        ((c'.elemD pos).port p).recvs[j]? = some (if j = i then { x with credits := x.credits + 1 } else x)) ∧
  (∀ s c run g pos q rest, Claims.FirstDue Claims.isCredit c ⟨0, run, g, .busCredit pos q⟩ rest → q < 4 →
    Claims.CoreEvent .creditReturn s c fun _ c' => c'.flights = rest ∧
      at' (c'.me pos).qUsed q 0 = at' (c.me pos).qUsed q 0 - 1)

/-- R17, R126: an unaccepted head with a detour leaves its queue for the CE that the detour names, once there is room. -/
def Sys2Proof.Claims.DetoursLeave : Prop :=
  ∀ s c e tok ce, Claims.At s c e → e.head? s.here.idx = some tok → s.here.idx < 4 →
    (at' e.cfg.accept s.here.idx 0xFF#8).getLsbD tok.fmt.code = false → detourCe (at' e.cfg.detour s.here.idx 0) = some ce →
    c.frozen = false → c.detourUsed s.here.pos ce s.here.idx < 4 →
    ∃ t c' back, exec .detourSend s = .next t ∧ t.core? s.key = some c' ∧ Claims.OnlyCredits back ∧
      (c'.elemD s.here.pos).queue s.here.idx = (e.queue s.here.idx).drop 1 ∧
      c'.flights = c.flights ++ back ++
        [⟨routeLat s.here.pos ce, e.runId, c.groupOf e.runId, .token ce s.here.idx tok⟩]

/-- R30, R302: a chosen slot that is trap-ready traps in place of firing. -/
def Sys2Proof.Claims.ChosenTrapsAreTaken : Prop :=
  ∀ s c e y tm p, Claims.At s c e → s.slotView s.key s.here.pos s.here.idx (e.slot s.here.idx) = .trap y →
    c.specRun e.run = false → s.team? s.here.ctx = some tm → tm.freePos (s.here.core / 2) = some p → s.flat.wf = true →
    ∃ t, exec .elementTrap s = .next t ∧ Claims.Trapped s c e tm p y t

/-- R79, R80, R81, R99 to R102: what the buses deliver: tokens to queues, four uses of scales to their holder, chunks to the B
registers of their rows, and the next chunk of a column reader. -/
def Sys2Proof.Claims.BusesDeliver : Prop :=
  (∀ s c run g pos q tok rest, Claims.FirstDue Claims.isBus c ⟨0, run, g, .busToken pos q tok⟩ rest → q < 4 →
    Claims.CoreEvent .rowBusDelivery s c fun _ c' =>
      (c'.elemD pos).queue q = (c.elemD pos).queue q ++ [tok] ∧ c'.flights = rest) ∧
  (∀ s c run g pos q v rest, Claims.FirstDue Claims.isBus c ⟨0, run, g, .busScales pos q v⟩ rest → q < 4 →
    Claims.CoreEvent .rowBusDelivery s c fun _ c' =>
      at' (c'.me pos).holders q (0#32, 0) = (v, 4) ∧ c'.flights = rest ∧
      at' (c'.me pos).scalesComing q 0 = at' (c.me pos).scalesComing q 0 - 1) ∧
  (∀ s c run g col rmask data side tnt rest,
    Claims.FirstDue Claims.isChunk c ⟨0, run, g, .chunk col rmask data side tnt⟩ rest → col < 8 →
    Claims.CoreEvent .columnChunkDelivery s c fun _ c' => c'.flights = rest ∧ ∀ m < 4, rmask.testBit m = true →
      let pos := (m + 2) * 8 + col
      let old := c.me pos
      (c'.me pos).reserved = old.reserved - 1 ∧
      ((∀ q < 4, ¬ Claims.enabled (c.elemD pos) q) → (c'.me pos).cur = old.cur ∧ (c'.me pos).nxt = old.nxt) ∧
      (∀ q < 4, Claims.enabled (c.elemD pos) q →
        ∃ b, (if old.cur = none then (c'.me pos).cur = some b ∧ (c'.me pos).nxt = old.nxt
          else (c'.me pos).cur = old.cur ∧ (c'.me pos).nxt = some b) ∧
          b.chunk = data ∧ b.side = side ∧ b.tnt = tnt ∧ b.cm.getLsbD q = true ∧
          b.hold = (if old.ph = 0 then none else some old.ph) ∧ (c'.me pos).ph = 0)) ∧
  (∀ s c r, c.readers.get? s.here.idx = some r → c.frozen = false → c.readerReady s.here.idx = true → s.here.idx < 8 →
    Claims.CoreEvent .columnReaderChunk s c fun _ c' =>
      let d := r.desc
      let no := (((d.toNat % 2 ^ 12 : Nat) : Int) + r.idx * (d.extractLsb' 12 12).toInt) % 4096
      let data := BitVec.ofNat 512 (leNat (c.upper.readN (s.here.idx * 0x40000 + 64 * no.toNat) 64))
      let side : W32 := if d.getLsbD 51 then
          BitVec.ofNat 32 (leNat (c.upper.readN (s.here.idx * 0x40000 + (64 * (d.toNat / 2 ^ 52 % 2 ^ 12) + 4 * r.idx) % 0x40000) 4))
        else 0x7F7F7F7F#32
      c'.flights = c.flights ++ [⟨2, r.run, c.groupOf r.run, .chunk s.here.idx (d.toNat / 2 ^ 47 % 16) data side false⟩] ∧
      c'.readers.get? s.here.idx = (if r.idx < d.toNat / 2 ^ 24 % 2 ^ 12 then some { r with idx := r.idx + 1 }
        else if r.pass < d.toNat / 2 ^ 36 % 2 ^ 11 then some { r with idx := 0, pass := r.pass + 1 }
        else c'.readers.get? s.here.idx) ∧
      (d.toNat / 2 ^ 24 % 2 ^ 12 ≤ r.idx → d.toNat / 2 ^ 36 % 2 ^ 11 ≤ r.pass →
        ∀ y ∈ c'.readers, y.1 ≠ s.here.idx))

/-- R57, R162: a needed block whose words fit enters the configuration cache with the record of its checks. -/
def Sys2Proof.Claims.BlocksAreCached : Prop :=
  ∀ s c pc tm ws, s.physCore? s.key = some pc → s.team? s.here.ctx = some tm → tm.blocks.get? s.here.idx = some ws →
    (s.physOf pc).entry? s.here.ctx s.here.idx = none → c.needs s.here.idx = true → c.resident = true →
    (s.physOf pc).used + ws.length ≤ 8192 →
    Claims.CoreEvent .blockLoad s c fun t c' => c' = c ∧ ∃ x, (t.physOf pc).cache = (s.physOf pc).cache ++ [x] ∧
      x.ctx = s.here.ctx ∧ x.block = s.here.idx ∧ x.words = ws.length ∧ x.record = blockFail tm.launch.ups (parseBlock ws)

/-- R13, R163, R181: the arbiter's pick starts: its entry leaves the list, the waits of the others rise, and every element of its
region stands as its image says, with empty queues and its sticky flags; what neither the image nor INITF gives is 0 or empty (log
6). -/
def Sys2Proof.Claims.BlocksIssue : Prop :=
  ∀ s c tm pc p vn is level x ws v, c.frozen = false → c.resident = true → s.issuePick s.key c = some p →
    p.found = .yes vn is level → p.reissue = none → c.walker.pend[p.idx]? = some x → s.team? s.here.ctx = some tm →
    s.physCore? s.key = some pc → tm.blocks.get? x.block = some ws → (parseBlock ws).variants[vn]? = some v →
    Claims.CoreEvent .blockIssue s c fun _ c' =>
      (∃ r, c'.runs = c.runs ++ [r] ∧ r.id = x.id ∧ r.block = x.block ∧ r.node = x.node ∧ r.itr = x.itr ∧ r.elems = v.positions ∧
        r.status = ⟨false, false, false, false, vn, 0⟩ ∧ r.group = 0 ∧ r.ended = [] ∧ r.complete = false ∧ r.inputs = is ∧
        (r.spec = true ↔ ∃ i ∈ is, i.kind ≠ .real)) ∧
      c'.walker.pend = (c.walker.pend.eraseIdx p.idx).map (fun (e : Pend) => { e with wait := min (e.wait + 1) 65535 }) ∧
      (∀ pos, v.holds pos = false → c'.elem? pos = c.elem? pos) ∧
      ∀ pos < 64, v.holds pos = true → ∃ e, c'.elem? pos = some e ∧ e.run = some x.id ∧ e.flags = (c.elemD pos).flags ∧
        (∀ q < 4, e.queue q = []) ∧ e.halted = false ∧ e.held = none ∧ e.ptr = 0 ∧
        ∀ y, v.elem? pos = some y → e.slots = y.slots ∧ e.consts = y.consts ∧ e.cfg = y.cfg ∧
          (∀ n < 12, e.reg n = { data := 0#64, fmt := .i64, tnt := false, full := y.cfg.initf.getLsbD n, pending := false }) ∧
          ∀ n < 8, e.pred n = ⟨y.cfg.initp.getLsbD n, false, false⟩

/-- R196: an issue that traps raises its trap on the walker, with its node. -/
def Sys2Proof.Claims.IssueTrapsAreTheWalkers : Prop :=
  ∀ s c tm p y x n, c.frozen = false → c.resident = true → s.issuePick s.key c = some p → p.found = .trap y → p.reissue = none →
    c.walker.pend[p.idx]? = some x → s.team? s.here.ctx = some tm → tm.freePos (s.here.core / 2) = some n → s.flat.wf = true →
    Claims.CoreEvent .blockIssue s c fun t c' => Claims.WalkerTrapped s t c c' tm n x.node y.code y.info y.info2

/-- R102, R143: a run whose elements have halted and whose results have arrived completes: its open group ends, its streams and
readers stop, and unless it may still be squashed its elements are free. -/
def Sys2Proof.Claims.BlocksComplete : Prop :=
  ∀ s c r, c.run? s.here.idx = some r → r.complete = false → r.reissue = false → c.halted r = true → c.settled r = true →
    Claims.CoreEvent .blockComplete s c fun _ c' =>
      c'.run? s.here.idx = some { r with complete := true, closing := false, ended := r.ended ++ [r.group], group := r.group + 1 } ∧
      c'.ends = true ∧ c'.buf = c.buf ∧ Claims.StreamsEnded r.id c c' ∧
      ∀ pos e, c.elem? pos = some e → ∃ e', c'.elem? pos = some e' ∧
        (r.spec = false → e.run = some r.id → e' = { e with run := none, ports := e'.ports }) ∧
        (r.spec = true ∨ e.run ≠ some r.id → e' = { e with ports := e'.ports })

/-- R144, R165, R169, R182: a commit group performs: its entries leave the buffer, its count rises, and the last group of a
complete run ends it. -/
def Sys2Proof.Claims.GroupsCommit : Prop :=
  ∀ s c r g gs, Claims.MayCommit s c r g gs →
    Claims.CoreEvent .groupCommit s c fun _ c' =>
      c'.buf = c.buf.filter (fun b => !(b.run == r.id && b.group == g)) ∧
      (r.complete = false ∨ gs ≠ [] → c'.run? s.here.idx =
        some { r with ended := gs, status := { r.status with groups := r.status.groups + 1 } }) ∧
      (r.complete = true → gs = [] → c'.run? s.here.idx = none ∧ c'.walker.lstat.getLsbD 0 = true)

/-- R154, R165: what a committed entry does: bytes in flat memory, a lane in HBM, an addition to an arrival counter. -/
def Sys2Proof.Claims.CommittedEntriesPerform : Prop :=
  (∀ s c r g gs n a v b pos, Claims.MayCommit s c r g gs → Claims.inGroup c r.id g = [⟨r.id, g, pos, .store 0 [a] n v, b⟩] →
    n ≤ 8 → (s.team? s.here.ctx).isSome = true → s.flat.wf = true →
    ∃ t, exec .groupCommit s = .next t ∧ t.hbm = s.hbm ∧
      (∀ i < n, t.flat.read (a + i) = v.extractLsb' (8 * i) 8) ∧ ∀ x, x < a ∨ a + n ≤ x → t.flat.read x = s.flat.read x) ∧
  (∀ s c r g gs tm tn lts tid cs v b pos bit, Claims.MayCommit s c r g gs →
    Claims.inGroup c r.id g = [⟨r.id, g, pos, .store tid cs 1 v, b⟩] → s.team? s.here.ctx = some tm →
    s.tensor? s.here.ctx tid = some tn → tn.loc = .hbm lts → tm.spot tn (laneCoords cs 0) = .hbm bit → s.hbm.wf = true →
    ∃ t, exec .groupCommit s = .next t ∧ t.flat = s.flat ∧
      t.hbm.bits bit (ebits tn.efmt) = v.toNat % 2 ^ ebits tn.efmt ∧
      ∀ x, x < bit / 8 ∨ bit / 8 + (ebits tn.efmt + 7) / 8 ≤ x → t.hbm.read x = s.hbm.read x) ∧
  (∀ s c r g gs mc ctr v b pos m, Claims.MayCommit s c r g gs →
    Claims.inGroup c r.id g = [⟨r.id, g, pos, .arrv mc ctr v, b⟩] → s.mcore? (s.here.ctx, mc) = some m → ctr < 16 →
    ∃ t m', exec .groupCommit s = .next t ∧ t.mcore? (s.here.ctx, mc) = some m' ∧
      at' m'.ctrs ctr 0#32 = at' m.ctrs ctr 0#32 + v ∧ ∀ k < 16, k ≠ ctr → at' m'.ctrs k 0#32 = at' m.ctrs k 0#32)

namespace Sys2Proof.Claims

/-- A store of at most eight bytes into flat memory, an addition to a counter, or a message. -/
def Plain : BufOp → Prop
  | .store tid cs n _ => tid = 0 ∧ cs.length = 1 ∧ n ≤ 8
  | .arrv _ ctr _ => ctr < 16
  | .msnd _ _ => True
  | _ => False

/-- The byte that the stores of a group leave at an address: that of the last one in fire order. -/
def lastStored (es : List BufEntry) (a : Nat) (old : Byte) : Byte :=
  es.foldl (fun x b => match b.op with
    | .store _ cs n v => if cs.getD 0 0 ≤ a ∧ a < cs.getD 0 0 + n then v.extractLsb' (8 * (a - cs.getD 0 0)) 8 else x
    | _ => x) old

/-- What the entries of a group add to a counter, and the messages they send to channels of the dispatcher, in fire order. -/
def added (es : List BufEntry) (mc ctr : Nat) : W32 :=
  es.foldl (fun x b => match b.op with
    | .arrv m n v => if m = mc ∧ n = ctr then x + v else x
    | _ => x) 0#32
def messages (es : List BufEntry) : List (Nat × W64) :=
  es.filterMap fun b => match b.op with
    | .msnd p d => if d.getLsbD 8 then none else some (d.toNat % 256, p)
    | _ => none

end Sys2Proof.Claims

/-- R154, R165: all entries of a group perform in one step: the last store to a byte in fire order stands, every addition counts,
and the messages go out in their order, whatever stores and additions stand between them. -/
def Sys2Proof.Claims.GroupsPerformInOrder : Prop :=
  ∀ s c r g gs, Claims.MayCommit s c r g gs → (∀ b ∈ Claims.inGroup c r.id g, Claims.Plain b.op) →
    (s.team? s.here.ctx).isSome = true → s.flat.wf = true →
    let es := Claims.inGroup c r.id g
    ∃ t, exec .groupCommit s = .next t ∧ t.hbm = s.hbm ∧ (∀ a, t.flat.read a = Claims.lastStored es a (s.flat.read a)) ∧
      (∀ mc m, s.mcore? (s.here.ctx, mc) = some m → ∃ m', t.mcore? (s.here.ctx, mc) = some m' ∧
        ∀ n < 16, at' m'.ctrs n 0#32 = at' m.ctrs n 0#32 + Claims.added es mc n) ∧
      t.disp.inbox = s.disp.inbox ++ (Claims.messages es).map fun x => ⟨.team s.here.ctx, x.1, [x.2]⟩

/-- R137, R165: a committed message reaches its channel of the dispatcher or its host queue. -/
def Sys2Proof.Claims.CommittedMessagesAreSent : Prop :=
  ∀ s c r g gs p d b pos, Claims.MayCommit s c r g gs → Claims.inGroup c r.id g = [⟨r.id, g, pos, .msnd p d, b⟩] →
    ∃ t, exec .groupCommit s = .next t ∧ t.flat = s.flat ∧ t.hbm = s.hbm ∧
      (d.getLsbD 8 = false → t.disp.inbox = s.disp.inbox ++ [⟨.team s.here.ctx, d.toNat % 256, [p]⟩]) ∧
      (d.getLsbD 8 = true → t.host.out = s.host.out ++ [(d.toNat % 256, some s.here.ctx, [p])])

/-- R168, R169, R201: before the fire of a ready slot that needs entries the context cannot obtain, a spill commit performs the
run's open group as one more commit that GROUPS counts (log 53), opens the next group and sets SPILLED; without such a slot it does
nothing. -/
def Sys2Proof.Claims.SpillsOpenANewGroup : Prop :=
  (∀ s c r, c.run? s.here.idx = some r → (c.elemD s.here.pos).run = some s.here.idx →
    s.spillFor s.key s.here.pos s.here.val = true →
    Claims.CoreEvent .spillCommit s c fun _ c' =>
      c'.buf = c.buf.filter (fun b => !(b.run == r.id && b.group == r.group)) ∧
      c'.run? s.here.idx = some { r with
        group := r.group + 1, status := { r.status with spilled := true, groups := r.status.groups + 1 } }) ∧
  (∀ s c, s.core? s.key = some c → s.spillFor s.key s.here.pos s.here.val = false → exec .spillCommit s = .next s)

/-- R159, R164: a window begins with its allowance; an arrival that waits for a missing block of a pending entry past CFGTO traps
and goes on waiting. -/
def Sys2Proof.Claims.AdmissionAndMissingBlocks : Prop :=
  (∀ s c, c.admitLeft = 0 → s.power.step < 3 →
    Claims.CoreEvent .admitWindow s c fun t c' => c' = { c with
      allowance := if c.admitN = 0 then 0 else max c.admitN 8, admitLeft := c.admitW } ∧ t = { s with cores := t.cores }) ∧
  (∀ s c tm block n p, s.team? s.here.ctx = some tm →
    (c.cfgMiss.find? fun x => decide (2 ^ tm.launch.cfgto ≤ x.2)) = some (block, n) →
    (∀ r ∈ c.runs, r.reissue = true → r.block ≠ block) → tm.freePos (s.here.core / 2) = some p → s.flat.wf = true →
    Claims.CoreEvent .cfgMissTimeout s c fun t c' =>
      c'.cfgMiss = c.cfgMiss.map (fun x => if x.1 = block then (block, 0) else x) ∧
      Claims.WalkerTrapped s t c c' tm p (((c.walker.pend.find? fun e => e.block == block).map (·.node)).getD 0) 0x0F
        (BitVec.ofNat 64 block) 0#64)

/-! ### The walker (R178 to R196) -/

namespace Sys2Proof.Claims

/-- The walker of this turn stands at node `p`, and nothing but its node holds it (R178, R179): with DRAIN every instance has
completed, as a squashed one that waits to be issued again has. -/
structure Walks (n : NodeFields) (s : State) (c : CoreCtx) (p : Nat) : Prop where
  core : s.core? s.key = some c
  at_ : c.walker.pos = some p
  awake : c.frozen = false ∧ c.resident = true
  mark : c.walker.mark = .none
  drain : n.flags.getLsbD 5 = true → (∀ r ∈ c.runs, r.reissue = true) ∧ c.walker.pend = []

/-- Everything but the cores and the teams' watchdogs is as it was. -/
def OnlyCores (s t : State) : Prop := t = { s with cores := t.cores, teams := t.teams }

/-- A node with nothing else to hold it: `P` of what the step leaves. -/
def Node (mk : NodeFields → Instr) (P : NodeFields → State → CoreCtx → Nat → State → CoreCtx → Prop) : Prop :=
  ∀ n s c p, Walks n s c p → ∃ t c', exec (mk n) s = .next t ∧ t.core? s.key = some c' ∧ P n s c p t c'

/-- The walker becomes `w`; nothing else of the core changes. -/
def WalkerIs (c c' : CoreCtx) (w : Walker) : Prop := c' = { c with walker := w }

/-- Payload bits. -/
def bits (n : NodeFields) (lo len : Nat) : Nat := n.payload.toNat / 2 ^ lo % 2 ^ len

/-- R53: the index of the innermost level. -/
def innermost (w : Walker) : Nat := match w.levels with | [] => 0 | l :: _ => l.index.toNat

/-- R180: the pending entry that a RUN or RUNS appends. -/
def entryOf (n : NodeFields) (c : CoreCtx) (p : Nat) (spec : Bool) : Pend := ⟨c.nextRun, p, bits n 0 20, innermost c.walker, spec, 0⟩

/-- R180. -/
def Appends (spec : Bool) (mk : NodeFields → Instr) : Prop :=
  Node mk (fun n s c p t c' => OnlyCores s t ∧
    (8 ≤ c.walker.pend.length → c' = c) ∧
    (c.walker.pend.length < 8 → c' = { c with
      nextRun := c.nextRun + 1
      walker := { c.walker with
        pend := c.walker.pend ++ [entryOf n c p spec]
        pos := some (if n.flags.getLsbD 0 then p else n.next.toNat)
        mark := if n.flags.getLsbD 0 then .appended c.nextRun else .none } })) ∧
  ∀ n s c p no, s.core? s.key = some c → c.walker.pos = some p → c.frozen = false → c.resident = true →
    c.walker.mark = .appended no → (∀ e ∈ c.walker.pend, e.id ≠ no) → (∀ r ∈ c.runs, r.id ≠ no) →
    ∃ t c', exec (mk n) s = .next t ∧ t.core? s.key = some c' ∧ OnlyCores s t ∧
      WalkerIs c c' { c.walker with pos := some n.next.toNat, mark := .none }

/-- R185: COND and WHILE pass. -/
def Passes (n : NodeFields) (c : CoreCtx) : Prop := c.walker.cw.getLsbD (bits n 0 6) = !n.payload.getLsbD 6

/-- R185: CLR clears CW[B] at the end of the cycle, ahead of the cycle's CWSETs. -/
def clearing (n : NodeFields) (w : Walker) : List (W64 × W64) :=
  if n.payload.getLsbD 7 then (0#64, BitVec.ofNat 64 (2 ^ bits n 0 6)) :: w.cwsets else w.cwsets

/-- R189: the walker while it runs a task taken from a deque. -/
def inTask (c : CoreCtx) (k : Task) (w : Walker) : Walker :=
  { w with
    rstack := ⟨w.pos, w.levels.length, true⟩ :: w.rstack
    levels := ⟨k.entry, k.arg, k.arg + 1#32, 1⟩ :: w.levels
    pos := some k.entry
    mark := .none
    tasks := (k, c.nextRun, (at' c.evc 15 0#64).toNat) :: w.tasks }

def taskFits (w : Walker) : Prop := w.rstack.length < 16 ∧ w.levels.length < 4

/-- R196: a node that traps leaves the walker as it is; its record names the node. -/
def NodeTraps (mk : NodeFields → Instr) (H : NodeFields → State → CoreCtx → Prop) (code : Nat) (info : NodeFields → W64)
    (info2 : NodeFields → W64) : Prop :=
  ∀ n s c p tm x, Walks n s c p → H n s c → s.team? s.here.ctx = some tm → tm.freePos (s.here.core / 2) = some x →
    s.flat.wf = true → ∃ t c', exec (mk n) s = .next t ∧ t.core? s.key = some c' ∧
      WalkerTrapped s t c c' tm x p code (info n) (info2 n) ∧ c'.walker = c.walker

/-- R178: a node word from its fields. -/
def nodeWord (kind : Nat) (n : NodeFields) : W64 := BitVec.ofNat 6 kind ++ n.next ++ n.alt ++ n.flags ++ n.payload

end Sys2Proof.Claims

/-- R180: RUN and RUNS append a pending entry and go on, or wait for the instance with SYNC; a full list holds them. -/
def Sys2Proof.Claims.RunsAppendPendingEntries : Prop := Claims.Appends false .run ∧ Claims.Appends true .runs

/-- R183 to R186: loops. -/
def Sys2Proof.Claims.LoopsAndConditions : Prop :=
  Claims.Node .lgen (fun n s c p t c' => c.walker.levels.length < 4 → Claims.OnlyCores s t ∧
    let start : W32 := BitVec.ofNat 32 (Claims.bits n 0 16)
    let w := c.walker
    let into (bound : W32) (bch : List (Nat × W32)) : Prop :=
      if bound.toNat ≤ start.toNat then Claims.WalkerIs c c' { w with bch := bch, pos := some n.alt.toNat }
      else Claims.WalkerIs c c' { w with
        bch := bch, pos := some n.next.toNat, levels := ⟨p, start, bound, n.flags.toNat / 2 % 16 + 1⟩ :: w.levels }
    (n.flags.getLsbD 0 = false → into (BitVec.ofNat 32 (Claims.bits n 16 16)) w.bch) ∧
    (n.flags.getLsbD 0 = true →
      (∀ pre post b, w.bch = pre ++ (p, b) :: post → (∀ x ∈ pre, x.1 ≠ p) → into b (pre ++ post)) ∧
      ((∀ x ∈ w.bch, x.1 ≠ p) → c' = c))) ∧
  Claims.Node .lend (fun n s c _ t c' => ∀ l ls, c.walker.levels = l :: ls → Claims.OnlyCores s t ∧
    let head := s.nodeWord s.here.ctx l.head
    let i := l.index.toNat + l.step
    (head.toNat / 2 ^ 58 = 0x06 →
      Claims.WalkerIs c c' { c.walker with pos := some l.head, levels := { l with index := l.index + 1#32 } :: ls }) ∧
    (head.toNat / 2 ^ 58 ≠ 0x06 → i < l.bound.toNat →
      Claims.WalkerIs c c' { c.walker with pos := some (head.toNat / 2 ^ 48 % 2 ^ 10), levels := { l with index := BitVec.ofNat 32 i } :: ls }) ∧
    (head.toNat / 2 ^ 58 ≠ 0x06 → l.bound.toNat ≤ i →
      Claims.WalkerIs c c' { c.walker with pos := some n.next.toNat, levels := ls })) ∧
  Claims.Node .cond (fun n s c _ t c' => Claims.OnlyCores s t ∧
    (Claims.Passes n c → Claims.WalkerIs c c' { c.walker with pos := some n.next.toNat, cwsets := Claims.clearing n c.walker }) ∧
    (¬ Claims.Passes n c → Claims.WalkerIs c c' { c.walker with pos := some n.alt.toNat, cwsets := Claims.clearing n c.walker })) ∧
  Claims.Node .whileN (fun n s c p t c' =>
    let w := c.walker
    let mine := ∃ l ls, w.levels = l :: ls ∧ l.head = p
    mine ∨ w.levels.length < 4 ∨ ¬ Claims.Passes n c → Claims.OnlyCores s t ∧
    (Claims.Passes n c → mine →
      Claims.WalkerIs c c' { w with pos := some n.next.toNat, cwsets := Claims.clearing n w }) ∧
    (Claims.Passes n c → ¬ mine → w.levels.length < 4 → Claims.WalkerIs c c' { w with
      pos := some n.next.toNat, cwsets := Claims.clearing n w, levels := ⟨p, 0#32, 0xFFFFFFFF#32, 1⟩ :: w.levels }) ∧
    (¬ Claims.Passes n c → mine → Claims.WalkerIs c c' { w with
      pos := some n.alt.toNat, cwsets := Claims.clearing n w, levels := w.levels.drop 1 }) ∧
    (¬ Claims.Passes n c → ¬ mine →
      Claims.WalkerIs c c' { w with pos := some n.alt.toNat, cwsets := Claims.clearing n w })) ∧
  Claims.Node .jmp (fun n s c _ t c' => Claims.OnlyCores s t ∧ Claims.WalkerIs c c' { c.walker with pos := some n.next.toNat })

/-- R188, R189, R190: calls, returns, forks and joins. An END JOIN decrements the group of its task by log 119. -/
def Sys2Proof.Claims.CallsForksAndJoins : Prop :=
  Claims.Node .callg (fun n s c _ t c' => c.walker.rstack.length < 16 → Claims.OnlyCores s t ∧ (Claims.WalkerIs c c' { c.walker with
    pos := some n.alt.toNat, rstack := ⟨some n.next.toNat, c.walker.levels.length, false⟩ :: c.walker.rstack })) ∧
  Claims.Node .retg (fun _ s c _ t c' => ∀ node depth rs, c.walker.rstack = ⟨node, depth, false⟩ :: rs →
    Claims.OnlyCores s t ∧
    Claims.WalkerIs c c' { c.walker with
      pos := node, rstack := rs, levels := c.walker.levels.drop (c.walker.levels.length - depth) }) ∧
  Claims.Node .fork (fun n s c _ t c' => c.walker.deque.length < 32 → Claims.OnlyCores s t ∧
    let g := n.flags.toNat % 8
    Claims.WalkerIs c c' { c.walker with
      pos := some n.next.toNat
      deque := ⟨n.alt.toNat, n.payload, g, s.here.core⟩ :: c.walker.deque
      joins := upd c.walker.joins g ((at' c.walker.joins g 0 + 1) % 65536) }) ∧
  Claims.Node .join (fun n s c _ t c' => n.flags.getLsbD 3 = false →
    let w := c.walker
    at' w.joins (n.flags.toNat % 8) 0 = 0 ∨ w.deque = [] ∨ Claims.taskFits w → Claims.OnlyCores s t ∧
    (at' w.joins (n.flags.toNat % 8) 0 = 0 → Claims.WalkerIs c c' { w with pos := some n.next.toNat }) ∧
    (at' w.joins (n.flags.toNat % 8) 0 ≠ 0 → w.deque = [] → c' = c) ∧
    (∀ k ks, at' w.joins (n.flags.toNat % 8) 0 ≠ 0 → w.deque = k :: ks → Claims.taskFits w →
      Claims.WalkerIs c c' (Claims.inTask c k { w with deque := ks }))) ∧
  Claims.Node .join (fun n s c _ t c' => n.flags.getLsbD 3 = true →
    ∀ k id iss ts node depth rs, c.walker.tasks = (k, id, iss) :: ts → c.walker.rstack = ⟨node, depth, true⟩ :: rs →
      ((∃ e ∈ c.walker.pend, id ≤ e.id) ∨ (∃ r ∈ c.runs, iss ≤ r.issue) → c' = c) ∧
      ((∀ e ∈ c.walker.pend, e.id < id) → (∀ r ∈ c.runs, r.issue < iss) →
        c'.walker.pos = node ∧ c'.walker.rstack = rs ∧ c'.walker.tasks = ts ∧
        c'.walker.levels = c.walker.levels.drop (c.walker.levels.length - depth) ∧
        ∀ o, s.core? (s.here.ctx, k.owner) = some o →
          ∃ o', t.core? (s.here.ctx, k.owner) = some o' ∧ o'.walker.decs = o.walker.decs ++ [k.group]))

/-- R159, R187, R189, R190, R191: tasks run and stolen, decrements and bound tokens applied; a task that its owner pops in the same
cycle is its owner's, and a bound token is charged to the admission allowance; neither lands on a frozen core or one at its
migration point (R303, R354). A new spell of probes goes on where the last one stopped by log 55. -/
def Obligations.TasksAndTokens : Prop :=
  (∀ s c k ks, s.core? s.key = some c → c.frozen = false → c.resident = true → s.joinWait s.here.ctx c = true →
    c.walker.deque = k :: ks → Claims.taskFits c.walker →
    ∃ t c', exec .taskRun s = .next t ∧ t.core? s.key = some c' ∧ Claims.OnlyCores s t ∧
      Claims.WalkerIs c c' (Claims.inTask c k { c.walker with deque := ks })) ∧
  (∀ s c tm o k, s.core? s.key = some c → c.frozen = false → c.resident = true → c.walker.pos = none →
    s.team? s.here.ctx = some tm →
    let n := 2 * tm.launch.quads
    let target := (s.here.core + 1 + c.walker.probe) % n
    target ≠ s.here.core → s.core? (s.here.ctx, target) = some o → o.resident = true → o.walker.deque.getLast? = some k →
    Claims.taskFits c.walker → s.ownerPops s.key (s.here.ctx, target) o = false →
    ∃ t c' o', exec .stealProbe s = .next t ∧ t.core? s.key = some c' ∧ t.core? (s.here.ctx, target) = some o' ∧
      Claims.OnlyCores s t ∧ Claims.WalkerIs c c' (Claims.inTask c k { c.walker with probe := (c.walker.probe + 1) % n }) ∧
      Claims.WalkerIs o o' { o.walker with deque := o.walker.deque.dropLast }) ∧
  (∀ s c g gs, s.core? s.key = some c → c.frozen = false → c.walker.decs = g :: gs → g < 8 →
    ∃ t c', exec .joinDecrement s = .next t ∧ t.core? s.key = some c' ∧
      Claims.WalkerIs c c' { c.walker with decs := gs, joins := upd c.walker.joins g (at' c.walker.joins g 0 - 1) }) ∧
  (∀ s c x xs, s.core? s.key = some c → c.walker.bounds = x :: xs → c.admits 1 = true → s.atMove s.key = false →
    let p := x.toNat / 2 ^ 32 % 2 ^ 10
    let b : W32 := x.extractLsb' 0 32
    (∀ pre l post, isBchNode (s.nodeWord s.here.ctx p) = true → c.walker.levels = pre ++ l :: post → l.head = p →
      (∀ y ∈ pre, y.head ≠ p) →
      ∃ t c', exec .boundTokenApply s = .next t ∧ t.core? s.key = some c' ∧
        Claims.WalkerIs (c.charge 1) c' { c.walker with bounds := xs, levels := pre ++ { l with bound := b } :: post }) ∧
    (isBchNode (s.nodeWord s.here.ctx p) = false ∨ (∀ y ∈ c.walker.levels, y.head ≠ p) → c.walker.bch.length < 16 →
      ∃ t c', exec .boundTokenApply s = .next t ∧ t.core? s.key = some c' ∧
        Claims.WalkerIs (c.charge 1) c' { c.walker with bounds := xs, bch := c.walker.bch ++ [(p, b)] }))

/-- R194: the record of a PLACE, where its leases cover it and its plan of M entries. -/
def Sys2Proof.Claims.Placeable (s : State) (tid : Nat) (rec' : List W64) : Prop :=
  s.recordAt s.here.ctx tid 0 = some rec' ∧
  (s.rangeOk s.here.ctx tid 64 (8 * ((rec'.getD 0 0#64).toNat % 16 + 1)) .store).isSome = true

/-- R350: the capacity records that stood in the team's queue at the start of the core's cycle. -/
def Sys2Proof.Claims.seenRecords (c : CoreCtx) (tm : Team) : List (List W64) :=
  tm.capQueue.take (tm.capQueue.length - (tm.capSeq - c.capSeen))

/-- R192 to R195, R350: barriers, tiles, counters, placements, yields, halts and capacity records at the walker. -/
def Sys2Proof.Claims.WaitsAndServices : Prop :=
  Claims.Node .bar (fun n s c _ t c' => ∀ tm, s.team? s.here.ctx = some tm →
    (∀ r ∈ c.runs, r.reissue = true) → c.walker.pend = [] →
    let sc := Claims.bits n 0 3
    let num := Claims.bits n 5 6
    ∃ tm' b g, t.team? s.here.ctx = some tm' ∧ tm'.bar? sc (tm.scopeUnit sc s.here.core 0) num = some b ∧
      (s.here.core, none) ∈ b.full ∧ Claims.WalkerIs c c' { c.walker with mark := .arrived g }) ∧
  (∀ n s c p g tm, s.core? s.key = some c → c.walker.pos = some p → c.frozen = false → c.resident = true →
    c.walker.mark = .arrived g → s.team? s.here.ctx = some tm →
    let b := tm.bar? (Claims.bits n 0 3) (tm.scopeUnit (Claims.bits n 0 3) s.here.core 0) (Claims.bits n 5 6)
    (∀ x, b = some x → (s.here.core, none) ∉ x.full) →
    ∃ t c', exec (.bar n) s = .next t ∧ t.core? s.key = some c' ∧
      Claims.WalkerIs c c' { c.walker with pos := some n.next.toNat, mark := .none }) ∧
  Claims.Node .waitt (fun n s c _ t c' => ∀ tm m, s.team? s.here.ctx = some tm → Claims.bits n 0 16 < 2 * tm.launch.quads →
    s.mcore? (s.here.ctx, Claims.bits n 0 16) = some m → Claims.OnlyCores s t ∧
    let code := match (m.tile (Claims.bits n 16 6)).state with
      | .empty => 0 | .filling => 1 | .ready => 2 | .draining => 3 | .predicted => 4 | .verifying => 5
    (code = Claims.bits n 22 3 → Claims.WalkerIs c c' { c.walker with pos := some n.next.toNat }) ∧
    (code ≠ Claims.bits n 22 3 → c' = c)) ∧
  Claims.Node .place (fun n s c _ t c' => ∀ rec' tn, Claims.Placeable s (Claims.bits n 0 20) rec' →
    s.tensor? s.here.ctx (Claims.bits n 0 20) = some tn → s.tileAway s.here.ctx tn = false →
    t = { s with cores := t.cores, phys := t.phys } ∧ c' = { c with walker := c'.walker, evc := c'.evc } ∧
      c'.walker = { c.walker with mark := .placing (Claims.bits n 0 20) rec' }) ∧
  (∀ n s c p, s.core? s.key = some c → c.walker.pos = some p → c.frozen = false → c.resident = true → c.walker.mark = .placed →
    ∃ t c', exec (.place n) s = .next t ∧ t.core? s.key = some c' ∧
      Claims.WalkerIs c c' { c.walker with pos := some n.next.toNat, mark := .none }) ∧
  Claims.Node .yieldg (fun n s c _ t c' => Claims.OnlyCores s t ∧
    Claims.WalkerIs c c' { c.walker with pos := some n.next.toNat, yielded := true }) ∧
  Claims.Node .haltg (fun _ s c _ t c' => Claims.OnlyCores s t ∧
    (c.runs = [] ∧ c.walker.pend = [] → Claims.WalkerIs c c' { c.walker with pos := none }) ∧
    (c.runs ≠ [] ∨ c.walker.pend ≠ [] → c' = c)) ∧
  Claims.Node .evw (fun n s c _ t c' => Claims.OnlyCores s t ∧
    (Claims.bits n 8 24 ≤ (at' c.evc (Claims.bits n 0 5) 0#64).toNat → Claims.WalkerIs c c' { c.walker with pos := some n.next.toNat }) ∧
    ((at' c.evc (Claims.bits n 0 5) 0#64).toNat < Claims.bits n 8 24 → c' = c)) ∧
  Claims.Node .capq (fun n s c _ t c' => ∀ tm tn, s.team? s.here.ctx = some tm →
    s.rangeOk s.here.ctx (Claims.bits n 0 20) 0 64 .store = some tn → s.tileAway s.here.ctx tn = false →
    let bit : W64 := BitVec.ofNat 64 (2 ^ Claims.bits n 20 6)
    (Claims.seenRecords c tm = [] → Claims.OnlyCores s t ∧
      Claims.WalkerIs c c' { c.walker with pos := some n.next.toNat, cwsets := (0#64, bit) :: c.walker.cwsets }) ∧
    (∀ r rs, Claims.seenRecords c tm = r :: rs →
      c'.walker = { c.walker with pos := some n.next.toNat, cwsets := (bit, bit) :: c.walker.cwsets } ∧
      (∃ tm', t.team? s.here.ctx = some tm' ∧ tm'.capQueue = tm.capQueue.drop 1) ∧
      (tn.loc = .flat → r.length = 8 → s.flat.wf = true → t.flat.readN 0 64 = wordsBytes r)))

/-- R183, R186, R188 to R190, R193 to R196 (Table 10.4): the traps of nodes, with their codes. What INFO and INFO2 hold for WAITT,
PLACE and CAPQ is the model's choice (log 120). -/
def Obligations.NodesTrap : Prop :=
  Claims.NodeTraps .lgen (fun _ _ c => 4 ≤ c.walker.levels.length) 0x0A (Claims.nodeWord 0x03) (fun _ => 0#64) ∧
  Claims.NodeTraps .lend (fun _ _ c => c.walker.levels = []) 0x0B (Claims.nodeWord 0x04) (fun _ => 0#64) ∧
  Claims.NodeTraps .whileN (fun n _ c => Claims.Passes n c ∧ 4 ≤ c.walker.levels.length ∧
    ∀ l ls, c.walker.levels = l :: ls → some l.head ≠ c.walker.pos) 0x0A (Claims.nodeWord 0x06) (fun _ => 0#64) ∧
  Claims.NodeTraps .callg (fun _ _ c => 16 ≤ c.walker.rstack.length) 0x0A (Claims.nodeWord 0x08) (fun _ => 0#64) ∧
  Claims.NodeTraps .retg (fun _ _ c => c.walker.rstack = [] ∨ ∃ x d rs, c.walker.rstack = ⟨x, d, true⟩ :: rs) 0x0B
    (Claims.nodeWord 0x09) (fun _ => 0#64) ∧
  Claims.NodeTraps .fork (fun _ _ c => 32 ≤ c.walker.deque.length) 0x0A (Claims.nodeWord 0x0A) (fun _ => 0#64) ∧
  Claims.NodeTraps .join (fun n _ c => n.flags.getLsbD 3 = true ∧ c.walker.tasks = []) 0x0B (Claims.nodeWord 0x0B) (fun _ => 0#64) ∧
  Claims.NodeTraps .waitt (fun n s _ => ∀ tm, s.team? s.here.ctx = some tm → 2 * tm.launch.quads ≤ Claims.bits n 0 16) 0x06
    (fun _ => 0#64) (fun n => n.payload.zeroExtend 64) ∧
  Claims.NodeTraps .place (fun n s _ => (∀ rec', ¬ Claims.Placeable s (Claims.bits n 0 20) rec') ∧
    ∀ tn, s.tensor? s.here.ctx (Claims.bits n 0 20) = some tn → s.tileAway s.here.ctx tn = false) 0x06
    (fun n => BitVec.ofNat 64 (Claims.bits n 0 20)) (fun _ => 0#64) ∧
  Claims.NodeTraps .capq (fun n s _ => s.rangeOk s.here.ctx (Claims.bits n 0 20) 0 64 .store = none) 0x06
    (fun n => BitVec.ofNat 64 (Claims.bits n 0 20)) (fun _ => 0#64) ∧
  Claims.NodeTraps .trapg (fun _ _ _ => True) 0x09 (fun n => n.payload.zeroExtend 64) (fun _ => 0#64)

/-! ### Sequencers and tiles (R200 to R222, R252) -/

namespace Sys2Proof.Claims

/-- The sequencer of this turn's memory core runs (R208, R302, R312, R354). -/
def Sequencing (s : State) (m : MCoreCtx) : Prop :=
  s.mcore? s.key = some m ∧ m.stopped = false ∧ m.frozen = false ∧ m.resident = true ∧ m.viewOpen = false ∧ m.moving = false

/-- A sequencer word: wherever `H` holds, the step is taken and `P` holds of what it leaves. -/
def Word (mk : SeqFields → Instr) (H : SeqFields → State → MCoreCtx → Prop)
    (P : SeqFields → State → MCoreCtx → State → MCoreCtx → Prop) : Prop :=
  ∀ q s m, Sequencing s m → H q s m → ∃ t m', exec (mk q) s = .next t ∧ t.mcore? s.key = some m' ∧ P q s m t m'

/-- The word has taken effect: `x` with PC at `pc`; a PC at the program's end stops the sequencer (R208). -/
def After (m' : MCoreCtx) (x : MCoreCtx) (pc : Nat) : Prop :=
  m' = { x with pc := pc, stopped := x.stopped || decide (x.prog.length ≤ pc) }

/-- Only memory cores, and the teams' watchdogs, changed. -/
def OnlyMcores (s t : State) : Prop := t = { s with mcores := t.mcores, teams := t.teams }

/-- The operand and port fields of a word (R209). -/
def opnd (q : SeqFields) (lo len : Nat) : Nat := q.opnd.toNat / 2 ^ lo % 2 ^ len
def flags (q : SeqFields) (lo len : Nat) : Nat := q.pf.toNat / 2 ^ lo % 2 ^ len
def slotA (q : SeqFields) : Nat := q.a.toNat
def slotB (q : SeqFields) : Nat := q.b.toNat

/-- Slot A is defined and not the dispatcher's. -/
def Usable (t : Tile) : Prop := t.defd = true ∧ t.system = false

/-- The word has taken effect on one tile, which is `x` now; nothing else changed. -/
def TileIs (s t : State) (m m' : MCoreCtx) (slot : Nat) (x : Tile) : Prop :=
  OnlyMcores s t ∧ m'.tile slot = x ∧ (∀ n, n ≠ slot → m'.tile n = m.tile n) ∧ After m' { m with tiles := m'.tiles } (m.pc + 1)

/-- The rows that a ring holds decide its state (R204). -/
def ringState (n : Nat) : TileState := if n = 0 then .empty else .ready

/-- The words of a sequencer's trap record (Table 20.2, R210). -/
def sequencerRecord (s : State) (m : MCoreCtx) (tm : Team) (code : Nat) (info info2 : W64) : List W64 :=
  [BitVec.ofNat 64 (code + 2 * 2 ^ 8 + 2 ^ 10 + s.here.core % 2 ^ 16 * 2 ^ 16 + s.here.ctx * 2 ^ 32 + m.pc * 2 ^ 48), info, info2,
    0#64, BitVec.ofNat 64 s.time, 0#64, BitVec.ofNat 64 (m.epoch % 2 ^ 32 + tm.recSeq * 2 ^ 32), 0#64]

/-- R209: a sequencer word from its fields. -/
def seqWord (op : Nat) (q : SeqFields) : W64 := BitVec.ofNat 6 op ++ q.a ++ q.b ++ q.pf ++ q.opnd

/-- R210: a word that raises ILLEGAL_IN_MODE leaves its memory core as it is. -/
def WordTraps (op : Nat) (mk : SeqFields → Instr) (H : SeqFields → State → MCoreCtx → Prop) : Prop :=
  ∀ q s m tm p, Sequencing s m → H q s m → s.team? s.here.ctx = some tm → tm.freePos (s.here.core / 2) = some p →
    s.flat.wf = true → ∃ t m', exec (mk q) s = .next t ∧ t.mcore? s.key = some m' ∧
      Recorded s t tm (s.here.core / 2) p (sequencerRecord s m tm 0x01 (seqWord op q) 0#64) ∧
      m' = { m with raised := m.raised ++ [s.here.core / 2 * 512 + p] }

/-- Undefined slots of a word. -/
def undefinedA (q : SeqFields) (_ : State) (m : MCoreCtx) : Prop :=
  (m.tile (slotA q)).defd = false ∧ (m.tile (slotA q)).state ≠ .predicted ∧ (m.tile (slotA q)).state ≠ .verifying

end Sys2Proof.Claims

namespace Sys2Proof.Claims

/-- Every registered reader of a tile has got a verdict of failure (R211, R252): it goes to each core in the order of the
readers. -/
def ReadersFail (s t : State) (slot : Nat) (y : Tile) : Prop :=
  ∀ k c, s.core? (s.here.ctx, k) = some c → ∃ c', t.core? (s.here.ctx, k) = some c' ∧
    c'.verdicts = c.verdicts ++ (y.readers.filter fun r => r.core == k).map fun r => (r.run, s.here.core, slot, false)

/-- The pins of the tiles of a memory core once those that `n` counts have been added (R202). -/
def PinsGrow (m m' : MCoreCtx) (n : Nat → Nat → Nat) : Prop :=
  ∀ slot, m'.tile slot = { m.tile slot with pins := (m'.tile slot).pins } ∧
    ∀ b < 3, (m'.tile slot).pin b = (m.tile slot).pin b + n slot b

end Sys2Proof.Claims

/-- R200, R203, R211: TDEF defines its slot, EMPTY at version 0, and gives the readers of a prediction it ends their verdicts; the
bytes that tiles have occupied before are undefined, the others keep the value they have had since launch (log 7). Contents of
the launch image stand over zeros and make it READY at version 1. -/
def Sys2Proof.Claims.TilesAreDefined : Prop :=
  Claims.Word .tdef (fun q s m =>
    let old := m.tile (Claims.slotA q)
    let size := (Claims.opnd q 13 12 + 1) * ((Claims.opnd q 25 12 + 1) * 64)
    let units := (Claims.flags q 0 2 + 1) * (size / 64)
    old.system = false ∧ old.claim = none ∧ old.pinned = false ∧
    old.fill = none ∧ old.own = false ∧ Claims.opnd q 0 13 + units ≤ m.wsize ∧
    (∀ x ∈ m.tiles, x.1 ≠ Claims.slotA q → x.2.defd = true →
      Claims.opnd q 0 13 + units ≤ x.2.base ∨ x.2.base + x.2.units ≤ Claims.opnd q 0 13) ∧
    ∃ tm, s.team? s.here.ctx = some tm ∧ ∀ d ∈ tm.slotData s.here.core (Claims.slotA q), d.1 + d.2.length ≤ size)
  (fun q s m t m' =>
    let old := m.tile (Claims.slotA q)
    let x := m'.tile (Claims.slotA q)
    x.defd = true ∧ x.ret = Claims.flags q 0 2 ∧ x.base = Claims.opnd q 0 13 ∧ x.rows = Claims.opnd q 13 12 ∧
    x.rowb = Claims.opnd q 25 12 ∧ x.fmt.code = Claims.opnd q 37 3 ∧ x.mode = .store ∧ x.head = 0 ∧ x.count = 0 ∧
    x.own = false ∧ x.claim = none ∧ x.fill = none ∧ x.readers = [] ∧ m'.pc = m.pc + 1 ∧ t.flat = s.flat ∧ t.hbm = s.hbm ∧
    (old.state = .predicted ∨ old.state = .verifying → Claims.ReadersFail s t (Claims.slotA q) old) ∧
    (∀ n, n ≠ Claims.slotA q → m'.tile n = m.tile n) ∧
    ∀ tm, s.team? s.here.ctx = some tm →
      (m.everDef.contains (Claims.slotA q) = true ∨ tm.slotData s.here.core (Claims.slotA q) = [] →
        x.state = .empty ∧ x.version = 0#32 ∧
        ∀ a, x.base * 64 ≤ a → a < x.base * 64 + x.units * 64 →
          ((∃ r ∈ m.used, r.1 ≤ a ∧ a < r.2) → m'.byte a = Config.freeByte (s.free + (a - x.base * 64))) ∧
          ((∀ r ∈ m.used, ¬ (r.1 ≤ a ∧ a < r.2)) → m'.byte a = m.window.read a)) ∧
      (m.everDef.contains (Claims.slotA q) = false → tm.slotData s.here.core (Claims.slotA q) ≠ [] →
        x.state = .ready ∧ x.version = 1#32 ∧
        ∀ d, tm.slotData s.here.core (Claims.slotA q) = [d] → m.window.wf = true → ∀ i < x.size,
          m'.byte (x.base * 64 + i) = if d.1 ≤ i ∧ i < d.1 + d.2.length then d.2.getD (i - d.1) 0#8 else 0#8))

/-- R203 to R205, R211, R259, R266 (Table 11.2): TSET, MODE, ROT and OWN on their tiles. ROT by 0 changes nothing, and by n it
waits for streams that have yet to send rows it drops; after OWN no LE of the team keeps a block from before it (log 98). -/
def Sys2Proof.Claims.TilesAreControlled : Prop :=
  Claims.Word .tset (fun q _ m => let t := m.tile (Claims.slotA q)
      Claims.Usable t ∧ t.mode = .store ∧ Claims.flags q 0 3 ≠ 2 ∧ (t.state = .ready ∨ t.state = .empty) ∧ t.claim = none ∧ t.pinned = false)
    (fun q s m t m' => Claims.TileIs s t m m' (Claims.slotA q) { m.tile (Claims.slotA q) with state := .empty }) ∧
  Claims.Word .tset (fun q _ m => let t := m.tile (Claims.slotA q)
      Claims.Usable t ∧ t.mode = .store ∧ Claims.flags q 0 3 = 2 ∧ t.state = .predicted)
    (fun q s m t m' => m'.tile (Claims.slotA q) = { m.tile (Claims.slotA q) with state := .ready, readers := [] } ∧ m'.pc = m.pc + 1 ∧
      (∀ n, n ≠ Claims.slotA q → m'.tile n = m.tile n) ∧ Claims.ReadersFail s t (Claims.slotA q) (m.tile (Claims.slotA q))) ∧
  Claims.Word .mode (fun q _ m => let t := m.tile (Claims.slotA q)
      Claims.Usable t ∧ t.state = .empty ∧ (Claims.flags q 0 2 = 0 ↔ t.ret ≠ 0))
    (fun q s m t m' => Claims.TileIs s t m m' (Claims.slotA q) { m.tile (Claims.slotA q) with
      mode := if Claims.flags q 0 2 = 0 then .store else if Claims.flags q 0 2 = 1 then .fifo else .line
      head := 0, count := 0, partialRow := 0 }) ∧
  Claims.Word .rot (fun q _ m => let t := m.tile (Claims.slotA q)
      Claims.Usable t ∧ t.mode = .line ∧ Claims.opnd q 0 12 = 0)
    (fun _ s m t m' => Claims.OnlyMcores s t ∧ Claims.After m' m (m.pc + 1)) ∧
  Claims.Word .rot (fun q _ m => let t := m.tile (Claims.slotA q)
      Claims.Usable t ∧ t.mode = .line ∧ 0 < Claims.opnd q 0 12 ∧ Claims.opnd q 0 12 ≤ t.count ∧
      ∀ x ∈ m.streams, x.slot = Claims.slotA q → x.xp = 0 ∧ Claims.opnd q 0 12 ≤ x.row)
    (fun q s m t m' => let x := m.tile (Claims.slotA q)
      Claims.OnlyMcores s t ∧ m'.tile (Claims.slotA q) = { x with
        head := (x.head + Claims.opnd q 0 12) % (x.rows + 1), count := x.count - Claims.opnd q 0 12
        state := Claims.ringState (x.count - Claims.opnd q 0 12) } ∧ m'.pc = m.pc + 1 ∧
      m'.streams = m.streams.map fun (y : Strm) => if y.slot = Claims.slotA q then { y with row := y.row - Claims.opnd q 0 12 } else y) ∧
  Claims.Word .own (fun q s m => let t := m.tile (Claims.slotA q)
      Claims.Usable t ∧ (Claims.flags q 0 1 = 1 → t.claim = none ∧ t.fill = none) ∧
        (Claims.flags q 0 1 = 0 → s.engineOnTile s.here.ctx s.here.core (Claims.slotA q) = false))
    (fun q s m t m' => m'.tile (Claims.slotA q) = { m.tile (Claims.slotA q) with own := decide (Claims.flags q 0 1 = 1) } ∧
      (∀ n, n ≠ Claims.slotA q → m'.tile n = m.tile n) ∧ Claims.After m' { m with tiles := m'.tiles } (m.pc + 1) ∧
      Claims.LosingBeats s t (fun _ => True) ∧ t = { s with mcores := t.mcores, teams := t.teams, cores := t.cores })

namespace Sys2Proof.Claims

/-- R212: the stream that a STRM describes; with XP it has as many rows as the transposed matrix (R214). -/
def streamOf (q : SeqFields) (m : MCoreCtx) (dest : Nat) : Strm :=
  { slot := slotA q, port := flags q 0 2, dn := decide (flags q 2 1 = 1), xp := flags q 3 2, rel := decide (flags q 5 1 = 1)
    row := opnd q 0 12
    left := if flags q 3 2 = 0 then opnd q 12 12 + 1
      else (m.tile (slotA q)).rowBytes / (if flags q 3 2 = 1 then 1 else 2)
    beat := 0, sent := 0, buf := none, dest := dest, dslot := slotB q, word := m.pc }

/-- R214: a tile whose number of rows a transposition of this width allows. -/
def Transposes (t : Tile) (xp : Nat) : Prop :=
  (xp = 1 ∧ (t.rows + 1) % 64 = 0) ∨ (xp = 2 ∧ (t.rows + 1) % 32 = 0)

/-- R200, R204, R210, R212, R214: the program errors and the violation that a STRM of this tile has none of. -/
def Streams (q : SeqFields) (t : Tile) : Prop :=
  t.defd = true ∧ ¬ (t.mode = .store ∧ t.ret = 0) ∧ opnd q 0 12 + opnd q 12 12 + 1 ≤ t.rows + 1 ∧
  (flags q 3 2 ≠ 0 → opnd q 0 12 = 0 ∧ opnd q 12 12 = t.rows ∧ Transposes t (flags q 3 2)) ∧
  (t.mode = .fifo → opnd q 0 12 = 0) ∧ (flags q 5 1 = 1 → t.mode = .store)

/-- R202, R203, R205: the memory core once a stream has started: where its tile is a STORE tile that it may read now, the
stream pins the current version, and with REL the tile drains; otherwise it does so with its first row (log 44). -/
def started (m : MCoreCtx) (x : Strm) : MCoreCtx :=
  let t := m.tile x.slot
  if t.mode = .store ∧ t.own = false ∧ t.state = .ready then
    { m.modTile x.slot (fun t =>
        { t with pins := upd t.pins t.cur (t.pin t.cur + 1), state := if x.rel then .draining else t.state }) with
      streams := m.streams ++ [{ x with buf := some t.cur }] }
  else { m with streams := m.streams ++ [x] }

end Sys2Proof.Claims

/-- R202, R203, R205, R212 to R214: STRM waits for its port alone; it starts a stream, which holds its LE's port and pins the
version that it reads as soon as it may read it (log 44), for every mode, with XP, with REL and over the die network; ACPT arms a
fill, with XP too. -/
def Sys2Proof.Claims.StreamsAndFillsStart : Prop :=
  Claims.Word .strm (fun q s m =>
      Claims.Streams q (m.tile (Claims.slotA q)) ∧ Claims.flags q 2 1 = 0 ∧ m.strm? (Claims.flags q 0 2) = none ∧
      ∃ tm core c, s.team? s.here.ctx = some tm ∧ tm.faces s.here.core (Claims.flags q 0 2) = some core ∧
        s.core? (s.here.ctx, core) = some c)
    (fun q s m t m' =>
      Claims.After m' (Claims.started m (Claims.streamOf q m (Claims.opnd q 24 2))) (m.pc + 1) ∧
      ∀ tm core c, s.team? s.here.ctx = some tm → tm.faces s.here.core (Claims.flags q 0 2) = some core →
        s.core? (s.here.ctx, core) = some c →
        ∃ c', t.core? (s.here.ctx, core) = some c' ∧
          ((c'.elemD (portLe (Claims.flags q 0 2))).port (Claims.opnd q 24 2)).hold =
            match ((c.elemD (portLe (Claims.flags q 0 2))).port (Claims.opnd q 24 2)).hold with
            | none => some (.strm s.here.core (Claims.flags q 0 2))
            | some h => some h) ∧
  Claims.Word .strm (fun q s m =>
      Claims.Streams q (m.tile (Claims.slotA q)) ∧ Claims.flags q 2 1 = 1 ∧ m.strm? 4 = none ∧
      ∃ tm, s.team? s.here.ctx = some tm ∧ Claims.opnd q 24 16 < 2 * tm.launch.quads ∧
        ¬ (Claims.opnd q 24 16 = 0 ∧ tm.launch.sys = true ∧ tm.launch.sslot = Claims.slotB q) ∧
        (Claims.opnd q 24 16 = s.here.core → (m.tile (Claims.slotB q)).defd = true))
    (fun q s m t m' => Claims.OnlyMcores s t ∧
      Claims.After m' (Claims.started m (Claims.streamOf q m (Claims.opnd q 24 16))) (m.pc + 1)) ∧
  Claims.Word .acpt (fun q _ m => let t := m.tile (Claims.slotA q)
      Claims.Usable t ∧ t.noShadow = false ∧ 0 < Claims.opnd q 0 20 ∧ Claims.opnd q 0 20 % 64 = 0 ∧ Claims.opnd q 0 20 ≤ t.size ∧
      (Claims.opnd q 38 2 ≠ 0 → Claims.Transposes t (Claims.opnd q 38 2) ∧ Claims.opnd q 0 20 = t.size) ∧ t.fill = none)
    (fun q s m t m' => Claims.TileIs s t m m' (Claims.slotA q) { m.tile (Claims.slotA q) with
      fill := some ⟨Claims.opnd q 0 20, Claims.opnd q 0 20,
        if Claims.flags q 0 1 = 1 then some (Claims.flags q 1 4) else none, Claims.opnd q 38 2, []⟩ })

/-- R198, R202, R215, R217: PRED and TCMP start with their buffers pinned, once the unit of their memory core is free; PRED waits
while a reader holds the previous version, and pins it too (log 49). -/
def Sys2Proof.Claims.PredictionsAndComparisonsStart : Prop :=
  Claims.Word .pred (fun q s m => let t := m.tile (Claims.slotA q)
      Claims.Usable t ∧ t.mode = .store ∧ t.ret = 2 ∧ 2 ≤ t.version.toNat ∧ t.fmt ≠ .raw ∧ t.fmt ≠ .e2m1x16 ∧
      (Claims.flags q 0 2 = 2 → 1 ≤ Claims.opnd q 0 4 ∧ Claims.opnd q 0 4 ≤ 8) ∧
      (Claims.flags q 0 2 ≠ 2 → Claims.opnd q 0 4 = 0) ∧ t.state = .ready ∧ t.own = false ∧
      m.predicting (Claims.slotA q) = false ∧ t.pin t.prev = 0 ∧ s.unitsFree s.key true = true)
    (fun q s m t m' => let y := m.tile (Claims.slotA q)
      Claims.OnlyMcores s t ∧
      Claims.After m' { m with
        tiles := m'.tiles, preds := m.preds ++ [⟨Claims.slotA q, Claims.flags q 0 2, Claims.opnd q 0 4⟩] } (m.pc + 1) ∧
      Claims.PinsGrow m m' fun n b => if n = Claims.slotA q then (if b = y.cur then 1 else 0) + (if b = y.prev then 1 else 0) else 0) ∧
  Claims.Word .tcmp (fun q s m => let a := m.tile (Claims.slotA q)
      let b := m.tile (Claims.slotB q)
      a.defd = true ∧ b.defd = true ∧ a.system = false ∧ a.mode = .store ∧ b.mode = .store ∧ a.rows = b.rows ∧ a.rowb = b.rowb ∧
      a.fmt = b.fmt ∧ a.fmt ≠ .raw ∧ a.fmt ≠ .e2m1x16 ∧ a.ret ≠ 0 ∧ b.ret ≠ 0 ∧ a.state = .ready ∧ b.state = .ready ∧
      a.own = false ∧ b.own = false ∧ s.unitsFree s.key false = true)
    (fun q s m t m' => Claims.OnlyMcores s t ∧
      Claims.After m' { m with
        tiles := m'.tiles
        cmps := m.cmps ++ [⟨Claims.slotA q, Claims.slotB q, (m.tile (Claims.slotA q)).cur, (m.tile (Claims.slotB q)).cur,
          BitVec.ofNat 16 (Claims.opnd q 0 16), BitVec.ofNat 16 (Claims.opnd q 16 16),
          if Claims.flags q 0 1 = 1 then some (Claims.flags q 1 4) else none,
          if Claims.opnd q 36 1 = 1 then some (Claims.opnd q 32 4) else none⟩] } (m.pc + 1) ∧
      Claims.PinsGrow m m' fun n b => (if n = Claims.slotA q ∧ b = (m.tile (Claims.slotA q)).cur then 1 else 0) +
        (if n = Claims.slotB q ∧ b = (m.tile (Claims.slotB q)).cur then 1 else 0))

/-- R187, R206, R207, R219 to R222: signals, records, engine commands and control. -/
def Sys2Proof.Claims.SequencersCountSignalAndJump : Prop :=
  Claims.Word .drng (fun q _ m => let t := m.tile (Claims.slotA q)
      Claims.Usable t ∧ t.mode = .fifo ∧ t.rowb = 0 ∧ t.partialRow = 0 ∧ t.count ≤ t.rows ∧ m.window.wf = true)
    (fun q s m t m' => Claims.OnlyMcores s t ∧ m'.log = m.log.drop 1 ∧ m'.logOverflow = false ∧ m'.pc = m.pc + 1 ∧
      let x := m.tile (Claims.slotA q)
      let o := if m.logOverflow then 2 ^ 10 else 0
      (m'.tile (Claims.slotA q)).count = x.count + 1 ∧
      m'.bytes (x.base * 64 + (x.head + x.count) % (x.rows + 1) * 64) 64 = wordsBytes (match m.log with
        | [] => [BitVec.ofNat 64 o, 0#64, 0#64, 0#64, 0#64, 0#64, 0#64, 0#64]
        | d :: _ => [BitVec.ofNat 64 (d.slot + d.kind * 2 ^ 6 + 2 ^ 9 + o), BitVec.ofNat 64 (d.lowRow * 2 ^ 32 + d.lowEl),
            BitVec.ofNat 64 (d.highRow * 2 ^ 32 + d.highEl), d.version.zeroExtend 64, 0#64, 0#64, 0#64, 0#64])) ∧
  Claims.Word .sigw (fun q s m => let core := Claims.opnd q 0 16
      s.coreOk s.here.ctx core = true ∧ (∃ c, s.core? (s.here.ctx, core) = some c ∧ c.boundRoom = true) ∧
      (Claims.flags q 0 1 = 0 → let t := m.tile (Claims.slotA q)
        Claims.Usable t ∧ t.noShadow = false ∧ 8 * Claims.slotB q < t.size ∧ t.state = .ready ∧ t.mode = .store))
    (fun q s m t m' => Claims.After m' m (m.pc + 1) ∧ ∀ c, s.core? (s.here.ctx, Claims.opnd q 0 16) = some c →
      ∃ c', t.core? (s.here.ctx, Claims.opnd q 0 16) = some c' ∧
        let x := m.tile (Claims.slotA q)
        let bound := if Claims.flags q 0 1 = 1 then (at' m.ctrs (Claims.flags q 1 4) 0#32).toNat
          else leNat (m.bytes (x.bufAt x.cur + 8 * Claims.slotB q) 4)
        c'.walker = { c.walker with
          bounds := c.walker.bounds ++ [BitVec.ofNat 64 (Claims.opnd q 16 10 * 2 ^ 32 + bound)] }) ∧
  Claims.Word .seqXfer (fun q s m => let t := m.tile (Claims.slotA q)
      Claims.Usable t ∧ Claims.opnd q 0 13 < t.size / 64 ∧ t.noShadow = false ∧ t.state = .ready ∧ t.mode = .store ∧
      s.engineRoom 1 (s.engineUnit s.here.ctx s.here.core 1) = true)
    (fun q s m t m' => Claims.After m' m (m.pc + 1) ∧ ∃ x,
      let unit := s.engineUnit s.here.ctx s.here.core 1
      let y := m.tile (Claims.slotA q)
      t.engines.get? (1, unit) = some (((s.engines.get? (1, unit)).getD []) ++ [x]) ∧ x.engine = 1 ∧ x.ctx = s.here.ctx ∧
      x.core = s.here.core ∧ x.record = bytesWords 8 (m.bytes (y.bufAt y.cur + 64 * Claims.opnd q 0 13) 64) ∧
      x.fromSeq = some (s.here.core, m.pc) ∧
      x.ctr = if Claims.flags q 0 1 = 1 then some (s.here.core, Claims.flags q 1 4) else none) ∧
  Claims.Word .seqJmp (fun _ _ _ => True) (fun q s m t m' => Claims.OnlyMcores s t ∧ Claims.After m' m (Claims.opnd q 0 8)) ∧
  Claims.Word .loop (fun _ _ _ => True) (fun q s m t m' => Claims.OnlyMcores s t ∧
    let k := Claims.flags q 0 2
    let v := at' m.loops k 0#16 + 1#16
    (v.toNat < Claims.opnd q 8 16 → Claims.After m' { m with loops := upd m.loops k v } (Claims.opnd q 0 8)) ∧
    (Claims.opnd q 8 16 ≤ v.toNat → Claims.After m' { m with loops := upd m.loops k 0#16 } (m.pc + 1))) ∧
  Claims.Word .seqHalt (fun _ _ _ => True) (fun _ s m t m' => Claims.OnlyMcores s t ∧ m' = { m with stopped := true })

namespace Sys2Proof.Claims

/-- R200, R211: the units that a TDEF asks for. -/
def tdefUnits (q : SeqFields) : Nat := (flags q 0 2 + 1) * ((opnd q 13 12 + 1) * (opnd q 25 12 + 1))

/-- A tile that the sequencer may name. -/
def namedTile (q : SeqFields) (m : MCoreCtx) : Prop := Usable (m.tile (slotA q))

/-- R215, R217: a format that the predictor and the compare engine take. -/
def comparable (t : Tile) : Prop := t.fmt ≠ .raw ∧ t.fmt ≠ .e2m1x16

/-- R209: the words whose slot A the dispatcher's slot may not be (R286). -/
def ofSlotA : List (Nat × (SeqFields → Instr)) :=
  [(0x01, .tdef), (0x02, .tset), (0x03, .mode), (0x04, .rot), (0x06, .acpt), (0x07, .pred), (0x08, .tcmp), (0x0C, .own),
    (0x0D, .drng), (0x0F, .seqXfer)]

end Sys2Proof.Claims

/-- R209 to R217, R219 to R221, R286: every word but TDEF traps on an undefined slot, slot B of this memory core too; words on the
dispatcher's slot trap; and each word traps on the program errors that its definition names. -/
def Sys2Proof.Claims.WordsTrapOnProgramErrors : Prop :=
  (∀ x ∈ Claims.ofSlotA, Claims.WordTraps x.1 x.2 fun q _ m => (m.tile (Claims.slotA q)).system = true ∧
    (m.tile (Claims.slotA q)).state ≠ .predicted ∧ (m.tile (Claims.slotA q)).state ≠ .verifying) ∧
  Claims.WordTraps 0x0E .sigw (fun q _ m => Claims.flags q 0 1 = 0 ∧ (m.tile (Claims.slotA q)).system = true) ∧
  Claims.WordTraps 0x05 .strm (fun q s _ => Claims.flags q 2 1 = 1 ∧ Claims.opnd q 24 16 = 0 ∧
    ∃ tm, s.team? s.here.ctx = some tm ∧ tm.launch.sys = true ∧ tm.launch.sslot = Claims.slotB q) ∧
  Claims.WordTraps 0x05 .strm (fun q s m => Claims.flags q 2 1 = 1 ∧ Claims.opnd q 24 16 = s.here.core ∧
    (m.tile (Claims.slotB q)).defd = false) ∧
  Claims.WordTraps 0x05 .strm (fun q _ m => let t := m.tile (Claims.slotA q)
    t.rows + 1 < Claims.opnd q 0 12 + Claims.opnd q 12 12 + 1 ∨
    (Claims.flags q 3 2 ≠ 0 ∧ (Claims.opnd q 0 12 ≠ 0 ∨ Claims.opnd q 12 12 ≠ t.rows)) ∨
    (Claims.flags q 3 2 = 1 ∧ (t.rows + 1) % 64 ≠ 0) ∨ (Claims.flags q 3 2 = 2 ∧ (t.rows + 1) % 32 ≠ 0) ∨
    (t.mode = .fifo ∧ Claims.opnd q 0 12 ≠ 0) ∨ (Claims.flags q 5 1 = 1 ∧ t.mode ≠ .store)) ∧
  Claims.WordTraps 0x01 .tdef (fun q _ m => (m.tile (Claims.slotA q)).state ≠ .predicted ∧
    (m.tile (Claims.slotA q)).state ≠ .verifying ∧ (m.wsize < Claims.opnd q 0 13 + Claims.tdefUnits q ∨
      ∃ x ∈ m.tiles, x.1 ≠ Claims.slotA q ∧ x.2.defd = true ∧ Claims.opnd q 0 13 < x.2.base + x.2.units ∧
        x.2.base < Claims.opnd q 0 13 + Claims.tdefUnits q)) ∧
  Claims.WordTraps 0x02 .tset (fun q _ m => let t := m.tile (Claims.slotA q)
    t.mode ≠ .store ∨ (Claims.flags q 0 3 = 2 ∧ t.state ≠ .predicted) ∨
      (Claims.flags q 0 3 ≠ 2 ∧ t.state ≠ .ready ∧ t.state ≠ .empty)) ∧
  Claims.WordTraps 0x03 .mode (fun q _ m => let t := m.tile (Claims.slotA q)
    (Claims.flags q 0 2 = 0 ∧ t.ret = 0) ∨ (Claims.flags q 0 2 ≠ 0 ∧ t.ret ≠ 0)) ∧
  Claims.WordTraps 0x06 .acpt (fun q _ m => let t := m.tile (Claims.slotA q)
    Claims.opnd q 0 20 = 0 ∨ Claims.opnd q 0 20 % 64 ≠ 0 ∨ t.size < Claims.opnd q 0 20 ∨ (t.mode = .store ∧ t.ret = 0) ∨
    (Claims.opnd q 38 2 = 1 ∧ (t.rows + 1) % 64 ≠ 0) ∨ (Claims.opnd q 38 2 = 2 ∧ (t.rows + 1) % 32 ≠ 0) ∨
    (Claims.opnd q 38 2 ≠ 0 ∧ Claims.opnd q 0 20 ≠ t.size)) ∧
  Claims.WordTraps 0x07 .pred (fun q _ m => let t := m.tile (Claims.slotA q)
    t.mode ≠ .store ∨ t.ret ≠ 2 ∨ t.version.toNat < 2 ∨ ¬ Claims.comparable t ∨
      (Claims.flags q 0 2 = 2 ∧ (Claims.opnd q 0 4 < 1 ∨ 8 < Claims.opnd q 0 4)) ∨
      (Claims.flags q 0 2 ≠ 2 ∧ Claims.opnd q 0 4 ≠ 0)) ∧
  Claims.WordTraps 0x08 .tcmp (fun q _ m => let a := m.tile (Claims.slotA q)
    let b := m.tile (Claims.slotB q)
    b.defd = false ∨ a.mode ≠ .store ∨ b.mode ≠ .store ∨ a.rows ≠ b.rows ∨ a.rowb ≠ b.rowb ∨ a.fmt ≠ b.fmt ∨
      ¬ Claims.comparable a) ∧
  Claims.WordTraps 0x0D .drng (fun q _ m => (m.tile (Claims.slotA q)).mode ≠ .fifo ∨ (m.tile (Claims.slotA q)).rowb ≠ 0) ∧
  Claims.WordTraps 0x0E .sigw (fun q _ m => Claims.flags q 0 1 = 0 ∧ (m.tile (Claims.slotA q)).size ≤ 8 * Claims.slotB q) ∧
  Claims.WordTraps 0x0F .seqXfer (fun q _ m => (m.tile (Claims.slotA q)).size / 64 ≤ Claims.opnd q 0 13) ∧
  Claims.WordTraps 0x02 .tset Claims.undefinedA ∧ Claims.WordTraps 0x03 .mode Claims.undefinedA ∧
  Claims.WordTraps 0x04 .rot Claims.undefinedA ∧ Claims.WordTraps 0x05 .strm Claims.undefinedA ∧
  Claims.WordTraps 0x06 .acpt Claims.undefinedA ∧ Claims.WordTraps 0x07 .pred Claims.undefinedA ∧
  Claims.WordTraps 0x08 .tcmp Claims.undefinedA ∧ Claims.WordTraps 0x0C .own Claims.undefinedA ∧
  Claims.WordTraps 0x0D .drng Claims.undefinedA ∧ Claims.WordTraps 0x0F .seqXfer Claims.undefinedA ∧
  Claims.WordTraps 0x0E .sigw (fun q s m => Claims.flags q 0 1 = 0 ∧ Claims.undefinedA q s m) ∧
  Claims.WordTraps 0x04 .rot (fun q _ m => (m.tile (Claims.slotA q)).mode ≠ .line) ∧
  Claims.WordTraps 0x03 .mode (fun q _ m => (m.tile (Claims.slotA q)).state ≠ .empty)

/-- R201, R202: a buffered store reaches its tile: it claims or joins the shadow, a new claim with a copy of the current version;
the shadow's lanes hold its data; the current version and every byte outside the shadow do not change. -/
def Sys2Proof.Claims.WritesReachTheShadow : Prop :=
  ∀ s c b tm tid cs n v mc slot tn m, s.core? s.key = some c → c.buf[s.here.idx]? = some b → s.team? s.here.ctx = some tm →
    b.op = .store tid cs n v → s.tileOf s.here.ctx tid = some (mc, slot) → s.tensor? s.here.ctx tid = some tn →
    s.mcore? (s.here.ctx, mc) = some m → b.sent = false → m.viewOpen = false → m.moving = false → m.resident = true →
    (m.tile slot).own = false → (m.tile slot).mayClaim (.block s.here.core b.run b.group) = true →
    c.firstUnsent s s.here.ctx s.here.idx b (mc, slot) = true →
    ∃ t c' m', exec .tileWriteArrival s = .next t ∧ t.core? s.key = some c' ∧ t.mcore? (s.here.ctx, mc) = some m' ∧
      let y := m.tile slot
      let w := ebits tn.efmt
      m'.tile slot = { y with
        claim := some (.block s.here.core b.run b.group)
        state := if y.claim = none ∧ y.state = .empty then .filling else y.state } ∧
      (∀ x, x ≠ slot → m'.tile x = m.tile x) ∧ c'.buf[s.here.idx]? = some { b with sent := true } ∧
      t.flat = s.flat ∧ t.hbm = s.hbm ∧
      ∀ row col, cs = [row, col] → (row * tn.inner + col + n) * w ≤ 8 * y.size → m.window.wf = true →
        let first := (row * tn.inner + col) * w
        (∀ i < n, m'.bits (y.bufAt y.shadow) (first + i * w) w = v.toNat / 2 ^ (w * i) % 2 ^ w) ∧
        (∀ j < y.size, j < first / 8 ∨ (first + n * w + 7) / 8 ≤ j →
          m'.byte (y.bufAt y.shadow + j) = m.byte ((if y.claim = none then y.bufAt y.cur else y.bufAt y.shadow) + j)) ∧
        ∀ x, x < y.bufAt y.shadow ∨ y.bufAt y.shadow + y.size ≤ x → m'.byte x = m.byte x

namespace Sys2Proof.Claims

/-! What a beat of a stream reads, and what it leaves at its memory core (R202, R203, R204, R212, R214). -/

/-- The window address of byte n of a buffer, or of a ring counted from its origin. -/
def tileByte (y : Tile) (buf n : Nat) : Nat :=
  if y.mode = .store then y.base * 64 + buf * y.size + n
  else y.base * 64 + (y.head + n / y.rowBytes) % (y.rows + 1) * y.rowBytes + n % y.rowBytes

/-- R214: where byte n of the transposed matrix stands. -/
def untransposed (y : Tile) (xp n : Nat) : Nat :=
  let w := if xp = 1 then 1 else 2
  let len := (y.rows + 1) * w
  n % len / w * y.rowBytes + n / len * w + n % w

/-- Does a beat end its row, and its stream? -/
def endsRow (x : Strm) (y : Tile) : Bool :=
  decide ((if x.xp = 0 then y.rowBytes / 64 else (y.rows + 1) * (if x.xp = 1 then 1 else 2) / 64) ≤ x.beat + 1)
def endsStream (x : Strm) (y : Tile) : Bool := endsRow x y && decide (x.left ≤ 1)

/-- Byte i of the next beat. -/
def beatByte (m : MCoreCtx) (x : Strm) (i : Nat) : Byte :=
  let y := m.tile x.slot
  m.byte (if x.xp = 0 then tileByte y (x.buf.getD y.cur) ((if y.mode = .fifo then 0 else x.row * y.rowBytes) + 64 * x.beat) + i
    else tileByte y (x.buf.getD y.cur) (untransposed y x.xp (64 * x.sent + i)))

/-- The eight tokens of the next beat, in lane order; the last is tagged SEP at a row's end and LAST at the stream's. -/
def beatOf (m : MCoreCtx) (x : Strm) : List Token :=
  let y := m.tile x.slot
  (List.range 8).map fun i => ⟨BitVec.ofNat 64 (leNat ((List.range 8).map fun j => beatByte m x (8 * i + j))), y.fmt,
    if i = 7 ∧ endsStream x y = true then .last else if i = 7 ∧ endsRow x y = true then .sep else .data, false⟩

/-- The stream with the version that it reads from now on. -/
def pinning (x : Strm) (y : Tile) : Strm := if x.buf = none ∧ y.mode = .store then { x with buf := some y.cur } else x

/-- The stream after a beat that is not its last. -/
def advanced (x : Strm) (y : Tile) : Strm :=
  if endsRow x y then { x with row := x.row + 1, left := x.left - 1, beat := 0, sent := x.sent + 1 }
  else { x with beat := x.beat + 1, sent := x.sent + 1 }

/-- Rows leave the head of a ring. -/
def popped (y : Tile) (n : Nat) : Tile :=
  { y with head := (y.head + n) % (y.rows + 1), count := y.count - n, state := ringState (y.count - n) }

/-- The tile after a beat: pinned at the stream's start, its rows gone from a FIFO, unpinned and with REL empty at the end. -/
def streamedTile (x : Strm) (y : Tile) : Tile :=
  let y1 := if x.buf = none ∧ y.mode = .store then
      { y with pins := upd y.pins y.cur (y.pin y.cur + 1), state := if x.rel then .draining else y.state } else y
  let y2 := if y.mode = .fifo ∧ x.xp = 0 ∧ endsRow x y = true then popped y1 1
    else if y.mode = .fifo ∧ x.xp ≠ 0 ∧ endsStream x y = true then popped y1 (y1.rows + 1) else y1
  if endsStream x y then
    let y3 := match (pinning x y).buf with
      | some b => { y2 with pins := upd y2.pins b (y2.pin b - 1) }
      | none => y2
    if x.rel = true ∧ y3.state = .draining then { y3 with state := .empty } else y3
  else y2

/-- A memory core after a beat of its stream `x` has left. -/
def BeatLeft (x : Strm) (m m' : MCoreCtx) : Prop :=
  let y := m.tile x.slot
  m'.tile x.slot = streamedTile x y ∧ (∀ n, n ≠ x.slot → m'.tile n = m.tile n) ∧
  m'.streams = (if endsStream x y then m.streams.filter (fun z => z.id != x.id)
    else m.streams.map fun z => if z.id = x.id then advanced (pinning x y) y else z) ∧
  m' = { m with tiles := m'.tiles, streams := m'.streams }

/-- Stream `x` of this turn's memory core may send its next beat (R203, R205, R312). -/
def MaySend (s : State) (tm : Team) (m : MCoreCtx) (x : Strm) : Prop :=
  s.here.val ≠ 1 ∧ s.team? s.here.ctx = some tm ∧ s.mcore? s.key = some m ∧ m.strm? s.here.idx = some x ∧ m.viewOpen = false ∧
  m.moving = false ∧ m.resident = true ∧ x.rowReady (m.tile x.slot) = true

end Sys2Proof.Claims

/-- R202 to R204, R212 to R214, R228: a beat leaves its stream port for the facing LE, which holds it and sends its tokens in
lane order and frees the port with the end of the cycle of the last one (log 45); over the die network it joins the armed fill of
its destination, waits where none is armed, and where the destination takes no stream ends its stream with LEASE_VIOLATION of the
sequencer, which names the STRM word, and the tensor of the refused tile by log 112. -/
def Sys2Proof.Claims.StreamBeatsMove : Prop :=
  (∀ s tm m x core c, Claims.MaySend s tm m x → x.dn = false →
    tm.faces s.here.core x.port = some core → s.core? (s.here.ctx, core) = some c → c.frozen = false → c.resident = true →
    c.beatsAt (portLe x.port) < 2 → tm.adjacent s.here.core x.port core = true →
    ∃ t c' m', exec .strmBeat s = .next t ∧ t.core? (s.here.ctx, core) = some c' ∧ t.mcore? s.key = some m' ∧
      c'.flights = c.flights ++ [⟨3, 0, 0, .beat (portLe x.port) x.dest (Claims.beatOf m x) (.strm s.here.core x.port)
        (Claims.endsStream x (m.tile x.slot))⟩] ∧
      Claims.BeatLeft x m m' ∧ t = { s with cores := t.cores, mcores := t.mcores }) ∧
  (∀ s tm m x d f, Claims.MaySend s tm m x → x.dn = true → x.dest ≠ s.here.core → s.mcore? (s.here.ctx, x.dest) = some d →
    d.resident = true → d.viewOpen = false → d.moving = false → (d.tile x.dslot).defd = true → (d.tile x.dslot).mode = .store →
    (d.tile x.dslot).own = false → (d.tile x.dslot).publishWaits = false → (d.tile x.dslot).fill = some f → f.xp = 0 →
    64 < f.left → (d.tile x.dslot).mayClaim .fill = true → d.window.wf = true →
    ∃ t m' d', exec .strmBeat s = .next t ∧ t.mcore? s.key = some m' ∧ t.mcore? (s.here.ctx, x.dest) = some d' ∧
      Claims.BeatLeft x m m' ∧ t.cores = s.cores ∧ (d'.tile x.dslot).claim = some .fill ∧
      (d'.tile x.dslot).fill = some { f with
        left := f.left - 64, srcs := if s.here.core ∈ f.srcs then f.srcs else f.srcs ++ [s.here.core] } ∧
      let z := d.tile x.dslot
      ∀ i < 64, d'.byte (z.bufAt z.shadow + 64 * x.sent % z.size + i) = Claims.beatByte m x i) ∧
  (∀ s tm m x d, Claims.MaySend s tm m x → x.dn = true → s.mcore? (s.here.ctx, x.dest) = some d → d.resident = true →
    (d.tile x.dslot).defd = true → ¬ ((d.tile x.dslot).mode = .store ∧ (d.tile x.dslot).ret = 0) → (d.tile x.dslot).fill = none →
    exec .strmBeat s = .next s) ∧
  (∀ s tm m x d p, Claims.MaySend s tm m x → x.dn = true → s.mcore? (s.here.ctx, x.dest) = some d →
    (d.tile x.dslot).defd = false ∨ ((d.tile x.dslot).mode = .store ∧ (d.tile x.dslot).ret = 0) →
    tm.freePos (s.here.core / 2) = some p → s.flat.wf = true →
    ∃ t m', exec .strmBeat s = .next t ∧ t.mcore? s.key = some m' ∧ m'.streams = m.streams.filter (fun z => z.id != x.id) ∧
      m'.raised = m.raised ++ [s.here.core / 2 * 512 + p] ∧
      Claims.Recorded s t tm (s.here.core / 2) p (Claims.sequencerRecord s { m with pc := x.word } tm 0x06
        (BitVec.ofNat 64 (0xF0000 + x.dest % 1024 * 64 + x.dslot)) (m.prog.getD x.word 0#64))) ∧
  (∀ s c e b bs tok toks, Claims.At s c e → s.here.val = 1 → (c.le s.here.pos).inbeats = b :: bs → b.toks = tok :: toks →
    (∀ f ∈ c.flights, f.left = 0 → ∀ port ts h z, f.cargo ≠ .beat s.here.pos port ts h z) → c.frozen = false →
    e.run.isSome = true → (e.port b.port).writable = true → (e.port b.port).hold = none ∨ (e.port b.port).hold = some b.hold →
    b.port < 4 →
    ∃ t c', exec .strmBeat s = .next t ∧ t.core? s.key = some c' ∧
      c'.flights = c.flights ++ Claims.sent e.runId (c.groupOf e.runId) (e.port b.port).recvs tok ++
        (if toks = [] ∧ b.final = true then [⟨0, e.runId, c.groupOf e.runId, .portFree s.here.pos b.port b.hold⟩] else []) ∧
      ((c'.elemD s.here.pos).port b.port).hold = some b.hold ∧
      (c'.le s.here.pos).inbeats = if toks = [] then bs else { b with toks := toks } :: bs) ∧
  (∀ s c e n r g port ts h z pre post, Claims.At s c e → s.here.val = 1 → c.frozen = false → e.run.isSome = true → c.admits 8 = true →
    (c.le s.here.pos).inbeats = [] → c.flights = pre ++ ⟨0, r, g, .beat s.here.pos port ts h z⟩ :: post →
    (∀ f ∈ pre, f.left = 0 → ∀ a b d y, f.cargo ≠ .beat s.here.pos a b d y) → ts.length = n → 0 < n → port < 4 →
    (e.port port).writable = false →
    ∃ t c', exec .strmBeat s = .next t ∧ t.core? s.key = some c' ∧ c'.flights = pre ++ post ∧
      (c'.le s.here.pos).inbeats = [⟨port, ts, h, z⟩] ∧ c'.allowance = c.allowance - 8)

namespace Sys2Proof.Claims

/-- R346: do the two comparators disagree twice on the 64-byte group of element i of width w? -/
def disagree (input w i : Nat) : Bool := input / 4 ^ (i * w / 512) % 4 == 3

/-- R215: an exact number of eighths, rounded to the nearest integer with ties to even. -/
def nearestEighth (e : Int) : Int :=
  if e % 8 < 4 then e / 8 else if 4 < e % 8 then e / 8 + 1 else if e / 8 % 2 = 0 then e / 8 else e / 8 + 1

/-- R215 `pred_elem()`: the code of a predicted element from the codes of the current and the previous version; mode 0 LAST, 1 LIN,
2 DAMP with k eighths. -/
def predicted (f : Fmt) (mode k vn vp : Nat) : Nat :=
  let w := ebits (fmtEfmt f)
  let d : Nat := if mode = 1 then 8 else k
  if mode = 0 then vn
  else match tileFmt f with
    | some x => (fpEval x [x.decode vn, x.decode vp]
        [(FVal.num false (8 + d) (-3)).mul (x.decode vn), (FVal.num true d (-3)).mul (x.decode vp)]).bits
    | none =>
      let e : Int := (8 + d) * (BitVec.ofNat w vn).toInt - d * (BitVec.ofNat w vp).toInt
      (BitVec.ofInt w (max (-2 ^ (w - 1)) (min (nearestEighth e) (2 ^ (w - 1) - 1)))).toNat

/-- The pins of a tile once those that `n` counts have been taken off. -/
def PinsFall (y y' : Tile) (n : Nat → Nat) : Prop := ∀ b < 3, y'.pin b = y.pin b - n b

end Sys2Proof.Claims

/-- R206, R215 to R217, R252, R346: predictions, comparisons and verifications end: the predicted elements stand in the buffer of
the previous version (log 49), then the tile's state, its pins, a counter, and a
verdict to each registered reader; the elements of a group on which the comparators disagree twice fail. -/
def Sys2Proof.Claims.PredictorAndComparerEnd : Prop :=
  (∀ s m j, s.mcore? s.key = some m → (m.preds.find? fun p => p.slot == s.here.idx) = some j → m.viewOpen = false →
    m.moving = false →
    ∃ t m', exec .predComplete s = .next t ∧ t.mcore? s.key = some m' ∧ Claims.OnlyMcores s t ∧
      let y := m.tile j.slot
      m'.tile j.slot = { y with pins := (m'.tile j.slot).pins, state := if y.state = .ready then .predicted else y.state } ∧
      Claims.PinsFall y (m'.tile j.slot) (fun b => (if b = y.cur then 1 else 0) + (if b = y.prev then 1 else 0)) ∧
      (∀ n, n ≠ j.slot → m'.tile n = m.tile n) ∧ (m'.preds = m.preds.filter fun p => p.slot != j.slot) ∧
      (y.fmt ≠ .raw → y.fmt ≠ .e2m1x16 → y.prev ≠ y.cur → m.window.wf = true → ∀ i < elemCount y,
        m'.elemBits y y.prev i = Claims.predicted y.fmt j.mode j.m (m.elemBits y y.cur i) (m.elemBits y y.prev i) ∧
        m'.elemBits y y.cur i = m.elemBits y y.cur i)) ∧
  (∀ s m j, s.mcore? s.key = some m → m.cmps[s.here.idx]? = some j → m.viewOpen = false → m.moving = false →
    let a := m.tile j.a
    let b := m.tile j.b
    let pass := (List.range (elemCount a)).all fun i => !Claims.disagree s.here.val (ebits (fmtEfmt a.fmt)) i &&
      tolPass (tileVal a.fmt (m.elemBits a j.bufA i)) (tileVal b.fmt (m.elemBits b j.bufB i)) (bf16.decode j.eabs.toNat)
        (bf16.decode j.erel.toNat)
    ∃ t m', exec .tcmpComplete s = .next t ∧ t.mcore? s.key = some m' ∧ (s.here.val = 0 → Claims.OnlyMcores s t) ∧
      m'.cmps = m.cmps.eraseIdx s.here.idx ∧
      (∀ slot, m'.tile slot = { m.tile slot with pins := (m'.tile slot).pins } ∧
        Claims.PinsFall (m.tile slot) (m'.tile slot) fun n =>
          (if slot = j.a ∧ n = j.bufA then 1 else 0) + (if slot = j.b ∧ n = j.bufB then 1 else 0)) ∧
      m'.ctrs = match if pass then j.pass else j.fail with
        | some n => upd m.ctrs n (at' m.ctrs n 0#32 + 1#32)
        | none => m.ctrs) ∧
  (∀ s m, s.mcore? s.key = some m → s.here.idx ∈ m.verifying → m.viewOpen = false → m.moving = false →
    ∃ t m', exec .verifyComplete s = .next t ∧ t.mcore? s.key = some m' ∧
      let y := m.tile s.here.idx
      m'.tile s.here.idx = { y with readers := [], state := if y.state = .verifying then .ready else y.state } ∧
      (∀ n, n ≠ s.here.idx → m'.tile n = m.tile n) ∧ s.here.idx ∉ m'.verifying ∧
      ∃ pass : SpecReader → Bool,
        (∀ r, pass r = true ↔ ∀ i < elemCount y, Claims.disagree s.here.val (ebits (fmtEfmt y.fmt)) i = false ∧
          tolPass (tileVal y.fmt (m.elemBits y y.cur i)) (tileVal y.fmt (m.elemBits y y.shadow i)) (fp32.decode r.eabs.toNat)
            (fp32.decode r.erel.toNat) = true) ∧
        ∀ k c, s.core? (s.here.ctx, k) = some c → ∃ c', t.core? (s.here.ctx, k) = some c' ∧
          c'.verdicts = c.verdicts ++ (y.readers.filter fun r => r.core == k).map fun r => (r.run, s.here.core, s.here.idx, pass r))

/-- R159, R252 to R254: an admitted verdict: a passed one counts for its input, the last one makes its run non-speculative; a
failed one squashes the run, which is issued again. -/
def Sys2Proof.Claims.VerdictsValidateOrSquash : Prop :=
  ∀ s c id mc slot pass vs r, s.core? s.key = some c → c.verdicts = (id, mc, slot, pass) :: vs → c.admits 1 = true → s.atMove s.key = false →
    c.run? id = some r → r.spec = true → r.reissue = false →
    (pass = true → (∃ i ∈ r.inputs, ¬ (i.mcore = mc ∧ i.slot = slot) ∧ i.passed = false) →
      ∃ t c' r', exec .verdictApply s = .next t ∧ t.core? s.key = some c' ∧ c'.verdicts = vs ∧ c'.run? id = some r' ∧
        c'.allowance = c.allowance - 1 ∧ r'.spec = true ∧ ∀ i ∈ r'.inputs, i.mcore = mc → i.slot = slot → i.passed = true) ∧
    (pass = true → (∀ i ∈ r.inputs, (i.mcore = mc ∧ i.slot = slot) ∨ i.passed = true) →
      ∃ t c' r', exec .verdictApply s = .next t ∧ t.core? s.key = some c' ∧ c'.verdicts = vs ∧ c'.run? id = some r' ∧ r'.spec = false) ∧
    (pass = false → (∀ y ∈ c.runs, ∀ i ∈ y.inputs, i.kind ≠ .tentative s.here.core id) →
      ∃ t c' r', exec .verdictApply s = .next t ∧ t.core? s.key = some c' ∧ c'.run? id = some r' ∧ r'.reissue = true ∧
        r'.status.squashed = true ∧ r'.inputs = [] ∧ ∀ b ∈ c'.buf, b.run ≠ id)

/-! ### Engines and the curator (R320 to R337) -/

namespace Sys2Proof.Claims

/-- Command `c` is at the head of the queue of the engine and unit of this turn, with no result yet. -/
def Heads (s : State) (engine : Nat) (c : Cmd) (cs : List Cmd) : Prop :=
  s.engines.get? (engine, s.here.idx) = some (c :: cs) ∧ c.result = none

/-- The head command is now `c'`; every other queue is as before. -/
def Queued (s t : State) (engine : Nat) (c' : Cmd) (cs : List Cmd) : Prop :=
  t.engines.get? (engine, s.here.idx) = some (c' :: cs) ∧ ∀ k, k ≠ (engine, s.here.idx) → t.engines.get? k = s.engines.get? k

/-- Every core is as before, but for what it has counted (R368). -/
def CoresKept (s t : State) : Prop := ∀ k, ∃ f : CoreCtx → CoreCtx,
  t.core? k = (s.core? k).map f ∧ ∀ c, { f c with evc := c.evc } = c

/-- No memory, core or memory core changed. -/
def Untouched (s t : State) : Prop := t.flat = s.flat ∧ t.hbm = s.hbm ∧ t.cores = s.cores ∧ t.mcores = s.mcores

/-- The four engines: number, step, OP (which is the number, R320) and the checks of a record. -/
def engines : List (Nat × Instr × (State → Cmd → Option (Nat × Nat × Nat))) :=
  [(1, .transferCommand, State.transferCheck), (2, .gatherReduceCommand, State.gredCheck),
    (3, .routingCommand, State.routeCheck), (4, .collectiveCommand, State.collCheck)]

/-- A tensor in HBM or flat memory. -/
def Global (t : Tensor) : Prop := ∀ mc slot, t.loc ≠ .tile mc slot

/-- A tensor endpoint of a transfer: its tensor, its corner and the extents of its box (R327, R328). -/
def BoxEnd (s : State) (c : Cmd) (e : Sys2Proof.Machine.Endpoint) (tn : Tensor) (lo exts : List Nat) : Prop :=
  e.kind = 0 ∧ s.tensor? c.ctx e.tid = some tn ∧ Global tn ∧ lo = e.lo.take tn.rank ∧
    exts = (List.range tn.rank).map (extent c.record)

/-- A tile endpoint of a transfer, where `found` is what its identifier names: its tile, its corner and the extents of its
box. -/
def TileEnd (c : Cmd) (e : Sys2Proof.Machine.Endpoint) (found : Option Tensor) (tn : Tensor) (mc slot : Nat)
    (lo exts : List Nat) : Prop :=
  e.kind = 0 ∧ found = some tn ∧ tn.loc = .tile mc slot ∧ lo = e.lo.take tn.rank ∧
    exts = (List.range tn.rank).map (extent c.record)

/-- The bit of element k of a box in a tile's buffer. -/
def tileBit (tn : Tensor) (lo exts : List Nat) (k : Nat) : Nat :=
  ((boxCoords lo exts k).getD 0 0 * tn.inner + (boxCoords lo exts k).getD 1 0) * ebits tn.efmt

/-- An SE or upper-store endpoint of a transfer, on a compute core `x` of the team that is in place and does not move (R326,
R328). -/
def CoreEnd (s : State) (c : Cmd) (e : Sys2Proof.Machine.Endpoint) (kind : Nat) (x : CoreCtx) : Prop :=
  e.kind = kind ∧ s.coreOk c.ctx e.core = true ∧ s.core? (c.ctx, e.core) = some x ∧ x.resident = true ∧
    s.atMove (c.ctx, e.core) = false ∧ (kind = 2 → ∃ tm, s.team? c.ctx = some tm ∧ tm.launch.ups = true)

/-- The element that a running transfer copies next is its last. -/
def Last (s t : State) (c : Cmd) (cs : List Cmd) : Prop :=
  Queued s t 1 { c with done := c.done + 1, result := some (0, 0, c.done + 1) } cs

/-- Elements i, …, i + n - 1 of a box copied one at a time in box order (R328). -/
def copied (ctx : Nat) (tx ty : Tensor) (lo exts lo' exts' : List Nat) (s : State) (i n : Nat) : State :=
  (List.range' i n).foldl (fun s k =>
    s.setElement ctx ty (boxCoords lo' exts' k) (s.element ctx tx (boxCoords lo exts k))) s

/-- R330: IDX of a pair as a signed number. -/
def expert (s : State) (ctx : Nat) (ti : Tensor) (t k : Nat) : Int := (BitVec.ofNat 16 (s.element ctx ti [t, k])).toInt

/-- R330: the pairs before (t, k) that name expert e, in ascending t and then k. -/
def earlier (s : State) (ctx : Nat) (ti : Tensor) (K t k : Nat) (e : Int) : Nat :=
  ((List.range t).map fun t' => (List.range K).countP fun k' => expert s ctx ti t' k' == e).sum +
    (List.range k).countP fun k' => expert s ctx ti t k' == e

/-- R330: element h of row t, taken over k in ascending order. -/
def rowElement (s : State) (ctx K : Nat) (ti tw tv : Tensor) (t h : Nat) : Nat :=
  (List.range K).foldl (fun acc k =>
    let e := expert s ctx ti t k
    let p := earlier s ctx ti K t k e
    if e < 0 ∨ (tv.dims.getD 0 0 : Int) ≤ e ∨ tv.dims.getD 1 0 ≤ p then acc
    else
      let a := fp32.decode acc
      let w := fp32.decode (s.element ctx tw [t, k])
      let v := (valFmt tv.efmt).decode (s.element ctx tv [e.toNat, p, h])
      (fpEval fp32 [a, w, v] [some a, w.mul v]).bits) 0

/-- R330, R212: the tokens of beat b of row t of a stream of T rows: lane 0 holds element 2i and lane 1 element 2i + 1. -/
def gredRowTokens (row : Nat → Nat) (H b : Nat) (lastRow : Bool) : List Token :=
  (List.range (min 8 ((H + 1) / 2 - 8 * b))).map fun i =>
    let j := 8 * b + i
    ⟨BitVec.ofNat 64 (row (2 * j) + (if 2 * j + 1 < H then row (2 * j + 1) else 0) * 2 ^ 32), .f32x2,
      if j + 1 < (H + 1) / 2 then .data else if lastRow then .last else .sep, false⟩

/-- R332: may an expert with this score be selected, and does one score go before another? -/
def selectable (x : Nat) : Prop := match fp32.decode x with
  | .nan _ => False
  | .inf n => n = false
  | .num _ _ _ => True
def before (xs : List Nat) (a b : Nat) : Prop :=
  let x := fp32.decode (xs.getD a 0)
  let y := fp32.decode (xs.getD b 0)
  y.lt false x = true ∨ (x.lt false y = false ∧ a < b)

/-- Table 21.1: the status word. -/
def status (c : Cmd) (result flags detail : Nat) : W64 :=
  BitVec.ofNat 64 (result + 2 ^ 8 + flags * 2 ^ 9 + c.engine * 2 ^ 16 + c.tag * 2 ^ 24 + detail % 2 ^ 32 * 2 ^ 32)

/-- The memory core of the counter that a command adds to is in place and stays there, with its view closed. -/
def CounterFree (s : State) (c : Cmd) : Prop :=
  ∀ mc i, c.ctr = some (mc, i) → ∀ m, s.mcore? (c.ctx, mc) = some m → m.resident = true ∧ m.viewOpen = false ∧ m.moving = false

end Sys2Proof.Claims

/-- R320, R322, R325: an engine checks a record before it writes anything; a record that fails gets its result and nothing
else changes; one whose OP is not the engine's is BAD_RECORD with the OP's byte as DETAIL. R139: a transfer does not start while
a MOWN waits to give a tile that it names to the thread. -/
def Sys2Proof.Claims.RecordsAreChecked : Prop :=
  (∀ x ∈ Claims.engines, ∀ s c cs r, Claims.Heads s x.1 c cs → c.started = false → (x.1 = 1 → s.flipHolds c = false) →
    x.2.2 s c = some r →
    ∃ t c', exec x.2.1 s = .next t ∧ Claims.Queued s t x.1 c' cs ∧ c'.result = some r ∧ Claims.Untouched s t) ∧
  (∀ x ∈ Claims.engines, ∀ s c, (wordAt c.record 0).toNat % 256 ≠ x.1 → x.2.2 s c = some (1, 0, 0)) ∧
  (∀ s c cs, Claims.Heads s 1 c cs → c.started = false → s.flipHolds c = false → s.transferCheck c = none →
    ∃ t, exec .transferCommand s = .next t ∧ Claims.Queued s t 1 { c with started := true } cs ∧ Claims.Untouched s t) ∧
  (∀ s c cs e mc slot m, Claims.Heads s 1 c cs → c.started = false → e ∈ [srcEnd c.record, dstEnd c.record] →
    s.endTile c.ctx e = some (mc, slot) → s.mcore? (c.ctx, mc) = some m → (m.tile slot).flipWaits.isSome = true →
    exec .transferCommand s = .next s) ∧
  (∀ s c cs, Claims.Heads s 2 c cs → c.started = false → s.gredCheck c = none →
    ∃ t, exec .gatherReduceCommand s = .next t ∧ Claims.Queued s t 2 { c with started := true } cs ∧ Claims.Untouched s t)

/-- R325 to R328: a running copy moves its next elements, as if each were read and then written, in box order, and is OK once
all are there; an SE word takes the tag of the tensor's format, and words from the upper store take RAW; a tile is read
while READY, and written through its armed fill (R213); the copy waits while a tile is not READY, or a memory core away or on the
move (R326). How many elements of at most 64 bytes a turn copies is open (log 52). -/
def Sys2Proof.Claims.TransfersCopy : Prop :=
  (∀ s c cs tx ty lo exts lo' exts', Claims.Heads s 1 c cs → c.started = true → (s.team? c.ctx).isSome = true →
    Claims.BoxEnd s c (srcEnd c.record) tx lo exts → Claims.BoxEnd s c (dstEnd c.record) ty lo' exts' →
    let w := ebits tx.efmt
    let n := boxElems c.record tx.rank
    let most := max 1 (512 / w)
    let m := min (most - Config.path s.free % most) (n - c.done)
    ebits ty.efmt = w →
    ∃ t, exec .transferCommand s = .next t ∧
      Claims.Queued s t 1 { c with done := c.done + m, result := if n ≤ c.done + m then some (0, 0, n) else none } cs ∧
      t.flat = (Claims.copied c.ctx tx ty lo exts lo' exts' s c.done m).flat ∧
      t.hbm = (Claims.copied c.ctx tx ty lo exts lo' exts' s c.done m).hbm ∧ Claims.CoresKept s t ∧ t.mcores = s.mcores) ∧
  (∀ s c cs tx lo exts x, Claims.Heads s 1 c cs → c.started = true → (s.team? c.ctx).isSome = true →
    Claims.BoxEnd s c (srcEnd c.record) tx lo exts → ebits tx.efmt = 64 → boxElems c.record tx.rank = c.done + 1 →
    Claims.CoreEnd s c (dstEnd c.record) 1 x →
    ∃ t x', exec .transferCommand s = .next t ∧ Claims.Last s t c cs ∧
      t.core? (c.ctx, (dstEnd c.record).core) = some x' ∧ t.flat = s.flat ∧ t.hbm = s.hbm ∧
      let pos := sePos (dstEnd c.record).se
      let a := (dstEnd c.record).lo.getD 0 0 / 8 + c.done
      (x'.se pos).word a = (BitVec.ofNat 64 (s.element c.ctx tx (boxCoords lo exts c.done)), efmtFmt tx.efmt) ∧
        ∀ b, b ≠ a → (x'.se pos).word b = (x.se pos).word b) ∧
  (∀ s c cs y lo' exts' x kind, Claims.Heads s 1 c cs → c.started = true → (s.team? c.ctx).isSome = true →
    kind ∈ [1, 2] → Claims.CoreEnd s c (srcEnd c.record) kind x →
    Claims.BoxEnd s c (dstEnd c.record) y lo' exts' → boxElems c.record y.rank = c.done + 1 →
    let w := ebits y.efmt
    let off := (srcEnd c.record).lo.getD 0 0
    let v := if kind = 2 then x.upper.bits (8 * off + c.done * w) w
      else ((x.se (sePos (srcEnd c.record).se)).word (off / 8 + c.done * w / 64)).1.toNat / 2 ^ (c.done * w % 64) % 2 ^ w
    ∃ t, exec .transferCommand s = .next t ∧ Claims.Last s t c cs ∧
      t.flat = (s.setElement c.ctx y (boxCoords lo' exts' c.done) v).flat ∧
      t.hbm = (s.setElement c.ctx y (boxCoords lo' exts' c.done) v).hbm ∧ Claims.CoresKept s t) ∧
  (∀ s c cs x y, Claims.Heads s 1 c cs → c.started = true → Claims.CoreEnd s c (srcEnd c.record) 2 x →
    Claims.CoreEnd s c (dstEnd c.record) 1 y → extent c.record 0 = c.done + 1 →
    let pos := sePos (dstEnd c.record).se
    let a := (dstEnd c.record).lo.getD 0 0 / 8 + c.done / 8
    ∃ t y', exec .transferCommand s = .next t ∧ Claims.Last s t c cs ∧
      t.core? (c.ctx, (dstEnd c.record).core) = some y' ∧ t.flat = s.flat ∧ t.hbm = s.hbm ∧ ((y'.se pos).word a).2 = .raw ∧
      (∀ j < 8, ((y'.se pos).word a).1.extractLsb' (8 * j) 8 = if j = c.done % 8
        then BitVec.ofNat 8 (x.upper.bits (8 * ((srcEnd c.record).lo.getD 0 0 + c.done)) 8)
        else ((y.se pos).word a).1.extractLsb' (8 * j) 8) ∧
      ∀ b, b ≠ a → (y'.se pos).word b = (y.se pos).word b) ∧
  (∀ s c cs x y mc slot m lo exts lo' exts', Claims.Heads s 1 c cs → c.started = true → (s.team? c.ctx).isSome = true →
    Claims.TileEnd c (srcEnd c.record) (s.tensor? c.ctx (srcEnd c.record).tid) x mc slot lo exts → Claims.BoxEnd s c (dstEnd c.record) y lo' exts' →
    ebits y.efmt = ebits x.efmt → boxElems c.record x.rank = c.done + 1 → s.mcore? (c.ctx, mc) = some m →
    (m.resident = true → m.viewOpen = false → m.moving = false → (m.tile slot).state = .ready →
      let v := m.bits ((m.tile slot).bufAt (m.tile slot).cur) (Claims.tileBit x lo exts c.done) (ebits x.efmt)
      ∃ t, exec .transferCommand s = .next t ∧ Claims.Last s t c cs ∧ Claims.CoresKept s t ∧ t.mcores = s.mcores ∧
        t.flat = (s.setElement c.ctx y (boxCoords lo' exts' c.done) v).flat ∧
        t.hbm = (s.setElement c.ctx y (boxCoords lo' exts' c.done) v).hbm) ∧
    (m.resident = false ∨ m.viewOpen = true ∨ m.moving = true ∨ (m.tile slot).state ≠ .ready →
      ∃ t, exec .transferCommand s = .next t ∧ Claims.Queued s t 1 c cs ∧ Claims.Untouched s t)) ∧
  (∀ s c cs x y mc slot m lo exts lo' exts', Claims.Heads s 1 c cs → c.started = true → (s.team? c.ctx).isSome = true →
    Claims.BoxEnd s c (srcEnd c.record) x lo exts →
    Claims.TileEnd c (dstEnd c.record) (s.fillTensor? c.ctx (dstEnd c.record).tid) y mc slot lo' exts' →
    ebits y.efmt = ebits x.efmt → 8 ≤ ebits x.efmt → boxElems c.record x.rank = c.done + 1 → s.mcore? (c.ctx, mc) = some m →
    let bytes := leBytes (ebits x.efmt / 8) (s.element c.ctx x (boxCoords lo exts c.done))
    let filled := m.fillAll slot (Claims.tileBit y lo' exts' c.done / 8) bytes 5 none true (0, 0) 9
    (∀ m', m.resident = true → filled = some m' →
      ∃ t, exec .transferCommand s = .next t ∧ Claims.Last s t c cs ∧ t.mcore? (c.ctx, mc) = some m' ∧
        t.flat = s.flat ∧ t.hbm = s.hbm ∧ Claims.CoresKept s t) ∧
    (m.resident = false ∨ filled = none →
      ∃ t, exec .transferCommand s = .next t ∧ Claims.Queued s t 1 c cs ∧ Claims.Untouched s t))

/-- R330: a running gather-reduce emits its next row, a beat of it a turn (log 52): to OUT, or as beats to the LE that it names. A
pair out of range, and an invalid product, set NV. -/
def Sys2Proof.Claims.GatherReduceEmitsRows : Prop :=
  (∀ s c cs ti tw tv tO, Claims.Heads s 2 c cs → c.started = true → (gredRec c.record).dk = false →
    s.tensor? c.ctx (gredRec c.record).idx = some ti → s.tensor? c.ctx (gredRec c.record).wgt = some tw →
    s.tensor? c.ctx (gredRec c.record).val = some tv → s.tensor? c.ctx (gredRec c.record).out = some tO →
    let H := tv.dims.getD 2 0
    let T := ti.dims.getD 0 0
    let u := (List.range H).foldl (fun u h =>
      u.setElement c.ctx tO [c.done, h] (Claims.rowElement s c.ctx (gredRec c.record).k ti tw tv c.done h)) s
    ∃ t fl, exec .gatherReduceCommand s = .next t ∧ t.flat = u.flat ∧ t.hbm = u.hbm ∧ Claims.CoresKept s t ∧
      Claims.Queued s t 2 { c with done := c.done + 1, flags := fl, result := if c.done + 1 = T then some (0, fl, T) else none } cs ∧
      ((∃ k < (gredRec c.record).k, let e := Claims.expert s c.ctx ti c.done k
          0 ≤ e ∧ ((tv.dims.getD 0 0 : Int) ≤ e ∨
            tv.dims.getD 1 0 ≤ Claims.earlier s c.ctx ti (gredRec c.record).k c.done k e)) → fl.testBit 0 = true) ∧
      ((∃ k < (gredRec c.record).k, ∃ h < H, let e := Claims.expert s c.ctx ti c.done k
          let p := Claims.earlier s c.ctx ti (gredRec c.record).k c.done k e
          let w := fp32.decode (s.element c.ctx tw [c.done, k])
          let v := (valFmt tv.efmt).decode (s.element c.ctx tv [e.toNat, p, h])
          0 ≤ e ∧ e < (tv.dims.getD 0 0 : Int) ∧ p < tv.dims.getD 1 0 ∧ w.isNan = false ∧ v.isNan = false ∧ w.mul v = none) →
        fl.testBit 0 = true)) ∧
  (∀ s c cs ti tw tv x, Claims.Heads s 2 c cs → c.started = true → (gredRec c.record).dk = true →
    s.tensor? c.ctx (gredRec c.record).idx = some ti → s.tensor? c.ctx (gredRec c.record).wgt = some tw →
    s.tensor? c.ctx (gredRec c.record).val = some tv → s.core? (c.ctx, (gredRec c.record).core) = some x →
    x.resident = true → x.frozen = false →
    let pos := match (gredRec c.record).side with | 0 => 4 | 1 => 55 | 2 => 59 | _ => 8
    let H := tv.dims.getD 2 0
    let T := ti.dims.getD 0 0
    let nb := ((H + 1) / 2 + 7) / 8
    x.beatsAt pos < 2 →
    ∃ t x' f fl, exec .gatherReduceCommand s = .next t ∧ t.core? (c.ctx, (gredRec c.record).core) = some x' ∧ t.flat = s.flat ∧
      t.hbm = s.hbm ∧
      Claims.Queued s t 2 { c with done := c.done + 1, flags := fl, result := if c.done + 1 = T * nb then some (0, fl, T) else none }
        cs ∧ x'.flights = x.flights ++ [f] ∧ f.cargo = .beat pos (gredRec c.record).port
        (Claims.gredRowTokens (Claims.rowElement s c.ctx (gredRec c.record).k ti tw tv (c.done / nb)) H (c.done % nb)
          (decide (c.done / nb + 1 = T))) (.gred c.id) (decide (c.done + 1 = T * nb)))

/-- R332: the experts that a token selects: those of greatest score that are neither NaN nor minus infinity, the lower index
first among equals. -/
def Sys2Proof.Claims.RoutingSelects : Prop :=
  ∀ k xs, let sel := selectExperts k xs
    sel.Nodup ∧ sel.length ≤ k ∧ (∀ e ∈ sel, e < xs.length ∧ Claims.selectable (xs.getD e 0)) ∧
    sel.Pairwise (Claims.before xs) ∧
    ∀ e < xs.length, Claims.selectable (xs.getD e 0) → e ∉ sel → sel.length = k ∧ ∀ a ∈ sel, Claims.before xs a e

/-- FP32 of 1 / n. -/
def Sys2Proof.Claims.oneOver (n : Nat) : Nat :=
  [0, 0x3F800000, 0x3F000000, 0x3EAAAAAB, 0x3E800000, 0x3E4CCCCD, 0x3E2AAAAB, 0x3E124925, 0x3E000000].getD n 0

/-- R332: where an infinite score is selected, each such expert gets 1 / |P| and the others +0; equal finite scores share
equally under softmax, and an expert selected alone has the weight 1. R334: the weights of Table 21.5. -/
def Sys2Proof.Claims.RoutingWeights : Prop :=
  (∀ sigmoid xs sel, let inf := sel.filter fun e => fp32.decode (xs.getD e 0) == .inf false
    inf ≠ [] → inf.length ≤ 8 → routeWeights sigmoid xs sel = sel.map fun e =>
      if fp32.decode (xs.getD e 0) = .inf false then Claims.oneOver inf.length else 0) ∧
  (∀ (xs sel : List Nat) x n m e, fp32.decode x = .num n m e → sel.length ≤ 8 → (∀ i ∈ sel, xs.getD i 0 = x) →
    routeWeights false xs sel = List.replicate sel.length (Claims.oneOver sel.length)) ∧
  (∀ (xs : List Nat) i n m e, fp32.decode (xs.getD i 0) = .num n m e → routeWeights true xs [i] = [0x3F800000]) ∧
  routeWeights false [0x3F800000, 0x40400000, 0x40400000, 0x3F000000] [1, 2] = [0x3F000000, 0x3F000000] ∧
  routeWeights false [0x7F800000, 0, 0x40E00000, 0xFF800000] [0, 2] = [0x3F800000, 0] ∧
  routeWeights false [0, 0x40800000, 0, 0x40800000] [1, 3] = [0x3F000000, 0x3F000000]

/-- R331 to R333: the routing engine writes the slots of each token, STAT and HIST as the records of its tensors say, and its
DETAIL counts the tokens with a STAT. -/
def Sys2Proof.Claims.RoutingWrites : Prop :=
  ∀ s c cs sc ti tw th ts, Claims.Heads s 3 c cs → s.routeCheck c = none →
    let g := routeCmd c.record
    s.tensor? c.ctx g.score = some sc → s.tensor? c.ctx g.idx = some ti → s.tensor? c.ctx g.wgt = some tw →
    s.tensor? c.ctx g.hist = some th → s.tensor? c.ctx g.stat = some ts →
    let score (t e : Nat) : Nat :=
      let v := s.element c.ctx sc (sc.coordsAt (t * g.S + e))
      if sc.efmt = 5 then v else v * 65536
    ∃ (t : State) (rows : List RouteRow) (hist : List Nat), exec .routingCommand s = .next t ∧ Claims.CoresKept s t ∧ t.mcores = s.mcores ∧
      rows.length = g.T ∧ hist.length = g.E ∧
      Claims.Queued s t 3 { c with started := true, result := some (0, 0, rows.countP fun r => r.2 != 0) } cs ∧
      (g.capen = false → ∀ i < g.T, ∃ stat, rows[i]? = some ((routeToken g ((List.range g.E).map (score i))).1, stat)) ∧
      (∀ e < g.E, hist.getD e 0 = (rows.map fun r => r.1.countP fun x => x.1 == some e).sum) ∧
      (g.capen = true → ∀ e < g.E, hist.getD e 0 ≤ g.cap) ∧
      let u := rows.zipIdx.foldl (fun u x =>
        let u := x.1.1.zipIdx.foldl (fun u y =>
          (u.setElement c.ctx ti [x.2, y.2] (y.1.1.getD 0xFFFF)).setElement c.ctx tw [x.2, y.2] y.1.2) u
        u.setElement c.ctx ts (ts.coordsAt x.2) x.1.2) s
      let u := hist.zipIdx.foldl (fun u x => u.setElement c.ctx th (th.coordsAt x.2) x.1) u
      t.flat = u.flat ∧ t.hbm = u.hbm

/-- R335: two numbers of an element format reduced, an integer as its two's complement. -/
def Sys2Proof.Claims.reduced (dfmt rop : Nat) (a b : Nat) : Nat :=
  let w := if dfmt = 2 then 32 else 64
  let x := (BitVec.ofNat w a).toInt
  let y := (BitVec.ofNat w b).toInt
  match dfmt, rop with
  | 0, 0 => (fpEval fp32 [fp32.decode a, fp32.decode b] [some (fp32.decode a), some (fp32.decode b)]).bits
  | 1, 0 => (fpEval fp32 [fp32.decode a, fp32.decode b] [some (fp32.decode a), some (fp32.decode b)]).bits
  | 0, _ => (fminmax fp32 (rop == 2) a b).1
  | 1, _ => (fminmax fp32 (rop == 2) a b).1
  | _, 0 => ((x + y) % 2 ^ w).toNat
  | _, 1 => ((max x y) % 2 ^ w).toNat
  | _, _ => ((min x y) % 2 ^ w).toNat

/-- R335: one element reduced over the members in ascending rank; BF16 accumulates in FP32 and is rounded once at the end. -/
def Sys2Proof.Claims.overMembers (dfmt rop : Nat) : List Nat → Nat
  | [] => 0
  | x :: xs =>
    if dfmt = 1 then (narrow bf16 .rne true 0 (fp32.decode ((xs.map (· * 65536)).foldl (Claims.reduced 1 rop) (x * 65536)))).bits
    else xs.foldl (Claims.reduced dfmt rop) x

/-- R335: a member of a collective tells what it agrees to, through ROOT as log 60 has it, then sends its bytes, and once all have
agreed and sent theirs, its DST holds the result for its rank; a disagreement ends the collective with MISMATCH and nothing written, its DETAIL the lowest byte of the
record at which some member disagrees. -/
def Obligations.CollectivesReduce : Prop :=
  (∀ s c cs e, Claims.Heads s 4 c cs → c.started = false → s.collCheck c = none →
    let g := collCmd c.record
    s.fabric.groupOf g.group = some e →
    let o := (s.fabric.ordinals.get? g.group).getD 0
    ∃ t, exec .collectiveCommand s = .next t ∧ Claims.Queued s t 4 { c with started := true, ordinal := o } cs ∧
      Claims.Untouched s t ∧ t.fabric.ordinals.get? g.group = some (o + 1) ∧
      (t.fabric.coll g.group o).heads.get? e.rank =
        some (BitVec.ofNat 64 (g.kind + g.rop * 4 + g.dfmt * 16 + g.count * 2 ^ 8))) ∧
  (∀ s c cs e, Claims.Heads s 4 c cs → c.started = true →
    let g := collCmd c.record
    let w := s.fabric.coll g.group c.ordinal
    s.fabric.groupOf g.group = some e → (∀ r < e.n, (w.heads.get? r).isSome = true) →
    (∃ h ∈ w.heads, h.2 ≠ g.head) →
    ∃ t d, exec .collectiveCommand s = .next t ∧ Claims.Queued s t 4 { c with result := some (4, 0, d) } cs ∧ Claims.Untouched s t ∧
      ((∃ h ∈ w.heads, h.2.toNat % 256 ≠ g.head.toNat % 256) → d = 1) ∧
      ((∀ h ∈ w.heads, h.2.toNat % 256 = g.head.toNat % 256) → d = 16)) ∧
  (∀ s c cs e tn, Claims.Heads s 4 c cs → c.started = true → c.done ≠ 0 →
    let g := collCmd c.record
    let w := s.fabric.coll g.group c.ordinal
    let data (r : Nat) : Memory := ((w.datas.get? r).map (·.1)).getD []
    let n := g.count
    s.fabric.groupOf g.group = some e → (∀ r < e.n, (w.heads.get? r).isSome = true) →
    (∀ h ∈ w.heads, h.2 = g.head) → (∀ r < e.n, g.srcLen e.n ≤ ((w.datas.get? r).map (·.2)).getD 0) →
    s.tensor? c.ctx g.dst = some tn →
    ∃ t bs fl, exec .collectiveCommand s = .next t ∧ Claims.Queued s t 4 { c with result := some (0, fl, bs.length) } cs ∧
      t.flat = (s.setTensorBytes c.ctx tn (fun _ x => x.cur) g.doff bs).flat ∧
      t.hbm = (s.setTensorBytes c.ctx tn (fun _ x => x.cur) g.doff bs).hbm ∧
      (g.kind = 1 → bs = (List.range e.n).flatMap fun r => (data r).readN 0 n) ∧
      (g.kind = 3 → bs = (List.range e.n).flatMap fun r => (data r).readN (e.rank * n) n) ∧
      (g.kind = 0 ∨ g.kind = 2 → g.dfmt ≤ 3 → g.rop ≤ 2 →
        let y := match g.dfmt with | 0 => 4 | 1 => 2 | 2 => 4 | _ => 8
        bs = (List.range (n / y)).flatMap fun i =>
          leBytes y (Claims.overMembers g.dfmt g.rop ((List.range e.n).map fun r =>
            leNat ((data r).readN ((if g.kind = 2 then e.rank * n else 0) + y * i) y))))) ∧
  (∀ s c cs e tn, Claims.Heads s 4 c cs → c.started = true → c.done = 0 →
    let g := collCmd c.record
    let w := s.fabric.coll g.group c.ordinal
    s.fabric.groupOf g.group = some e → (∀ r < e.n, (w.heads.get? r).isSome = true) → (∀ h ∈ w.heads, h.2 = g.head) →
    s.tensor? c.ctx g.src = some tn → w.datas.get? e.rank = none →
    ∃ t, exec .collectiveCommand s = .next t ∧ Claims.Queued s t 4 { c with done := 1 } cs ∧ t.flat = s.flat ∧ t.hbm = s.hbm ∧
      Claims.CoresKept s t ∧
      (t.fabric.coll g.group c.ordinal).datas.get? e.rank =
        some (Memory.writeN [] 0 (s.tensorBytes c.ctx tn g.soff (g.srcLen e.n)),
          (s.tensorBytes c.ctx tn g.soff (g.srcLen e.n)).length) ∧
      (e.root = s.fabric.pkgid → (t.fabric.coll g.group c.ordinal).relayed = true))

/-- R323, R324, Table 21.1: a finished command leaves its queue; an element's gets its status word in its record and always
adds to its counter, a sequencer's only if it is OK, and otherwise its word traps and its memory core freezes; a
gather-reduce command that streams its rows waits until its last token is enqueued (R206). -/
def Sys2Proof.Claims.EngineCompletionsReport : Prop :=
  (∀ s c cs res fl det tn, s.engines.get? (s.here.pos, s.here.idx) = some (c :: cs) → c.result = some (res, fl, det) →
    c.fromSeq = none → Claims.CounterFree s c → s.cmdDue c (res, fl, det) = false → s.tensor? c.ctx c.tid = some tn → tn.loc = .flat → c.off + 64 ≤ 2 ^ 48 →
    s.flat.wf = true →
    (s.team? c.ctx).isSome = true →
    ∃ t, exec .engineCompletion s = .next t ∧ t.engines.get? (s.here.pos, s.here.idx) = some cs ∧
      t.flat.readN (c.off + 56) 8 = wordBytes (Claims.status c res fl det) ∧
      (∀ a, a < c.off + 56 ∨ c.off + 64 ≤ a → t.flat.read a = s.flat.read a) ∧ t.hbm = s.hbm ∧
      ∀ mc i m, c.ctr = some (mc, i) → i < 16 → s.mcore? (c.ctx, mc) = some m →
        ∃ m', t.mcore? (c.ctx, mc) = some m' ∧ at' m'.ctrs i 0#32 = at' m.ctrs i 0#32 + 1#32 ∧ m'.tiles = m.tiles) ∧
  (∀ s c cs fl det mc pc m, s.engines.get? (s.here.pos, s.here.idx) = some (c :: cs) → c.result = some (0, fl, det) →
    c.fromSeq = some (mc, pc) → Claims.CounterFree s c → s.cmdDue c (0, fl, det) = false → s.mcore? (c.ctx, mc) = some m →
    ∃ t, exec .engineCompletion s = .next t ∧ t.engines.get? (s.here.pos, s.here.idx) = some cs ∧ t.flat = s.flat ∧
      t.hbm = s.hbm ∧ ∀ i x, c.ctr = some (x, i) → i < 16 → ∀ m, s.mcore? (c.ctx, x) = some m →
        ∃ m', t.mcore? (c.ctx, x) = some m' ∧ at' m'.ctrs i 0#32 = at' m.ctrs i 0#32 + 1#32) ∧
  (∀ s c cs res fl det mc pc m tm p, s.engines.get? (s.here.pos, s.here.idx) = some (c :: cs) →
    c.result = some (res, fl, det) → res ≠ 0 → c.fromSeq = some (mc, pc) → s.mcore? (c.ctx, mc) = some m →
    s.team? c.ctx = some tm → tm.freePos (mc / 2) = some p → m.raised = [] → s.flat.wf = true →
    ∃ t m', exec .engineCompletion s = .next t ∧ t.engines.get? (s.here.pos, s.here.idx) = some cs ∧
      t.mcore? (c.ctx, mc) = some m' ∧ m'.ctrs = m.ctrs ∧ m'.tiles = m.tiles ∧ m'.frozen = true ∧ m'.raised = [] ∧
      Claims.Recorded s t tm (mc / 2) p
        [BitVec.ofNat 64 ((if res = 2 then 0x06 else 0x01) + 2 * 2 ^ 8 + 2 ^ 10 + mc % 2 ^ 16 * 2 ^ 16 + c.ctx * 2 ^ 32 +
            pc * 2 ^ 48), Claims.status c res fl det, 0#64, 0#64, BitVec.ofNat 64 s.time, 0#64,
          BitVec.ofNat 64 (m.epoch % 2 ^ 32 + tm.recSeq * 2 ^ 32), 0#64]) ∧
  (∀ s c cs fl det x, s.engines.get? (s.here.pos, s.here.idx) = some (c :: cs) → c.result = some (0, fl, det) → c.engine = 2 →
    let g := gredRec c.record
    let pos := match g.side with | 0 => 4 | 1 => 55 | 2 => 59 | _ => 8
    g.dk = true → s.core? (c.ctx, g.core) = some x → (∃ f ∈ x.flights, ∃ toks last, f.cargo = .beat pos g.port toks (.gred c.id) last) →
    exec .engineCompletion s = .next s)

/-- R337: the cores and variants that a plan names: expert i has the cores from `base` and those before it on. -/
def Sys2Proof.Claims.placed (base : Nat) (cores variants : List Nat) : List (Nat × Nat) :=
  ((List.range cores.length).map fun i =>
    (List.range (cores.getD i 0)).map fun j => (base + (cores.take i).sum + j, variants.getD i 0)).flatten

/-- R337: how many cores each expert gets of C: none without tokens; where C is enough, one and the whole part of its share of
the rest, the cores left over to the greatest fractions, ties to lower i; else one for each of the C with most tokens. -/
def Sys2Proof.Claims.PlacementShares : Prop :=
  ∀ (n : List Nat) C, let cores := placeCores n C
    let A := (List.range n.length).filter fun i => 0 < n.getD i 0
    let R := C - A.length
    let N := (A.map fun i => n.getD i 0).sum
    let whole (i : Nat) : Nat := 1 + R * n.getD i 0 / N
    let rest (i : Nat) : Nat := R * n.getD i 0 % N
    cores.length = n.length ∧ (∀ i, n.getD i 0 = 0 → cores.getD i 0 = 0) ∧ (A ≠ [] → cores.sum = C) ∧
    (A.length ≤ C → (∀ i ∈ A, cores.getD i 0 = whole i ∨ cores.getD i 0 = whole i + 1) ∧
      ∀ i ∈ A, ∀ j ∈ A, cores.getD i 0 = whole i → cores.getD j 0 = whole j + 1 → rest i < rest j ∨ (rest i = rest j ∧ j < i)) ∧
    (C < A.length → (∀ i ∈ A, cores.getD i 0 ≤ 1) ∧
      ∀ i ∈ A, ∀ j ∈ A, cores.getD i 0 = 0 → cores.getD j 0 = 1 → n.getD i 0 < n.getD j 0 ∨ (n.getD i 0 = n.getD j 0 ∧ j < i))

/-- R336, R337: the curator gives every expert its cores and variant, has every chosen core's cache hold the block (waiting
while one cannot, log 58), writes the plan from byte 64 on and lets the node go on; a record that it rejects raises LEASE_VIOLATION
and freezes the core. The record is what the node found; while the walker stands still or a tile it reads is away, the answer
waits (R302, R312). The numbers of R337's own example come out as it says. -/
def Sys2Proof.Claims.CuratorPlaces : Prop :=
  (∀ s c p tm r tid tn, s.core? s.key = some c → c.walker.mark = .placing tid r → c.walker.pos = some p →
    s.team? s.here.ctx = some tm → s.movesOn s.key c = true → s.tensor? s.here.ctx tid = some tn → tn.loc = .flat →
    s.flat.wf = true →
    let w := (r.getD 0 0#64).toNat
    let M := w % 16 + 1
    let hist := w / 16 % 2 ^ 20
    let base := w / 2 ^ 24 % 2 ^ 16
    let C := w / 2 ^ 40 % 2 ^ 16
    (∀ h, s.tensor? s.here.ctx hist = some h → s.tileAway s.here.ctx h = false) →
    w / 2 ^ 56 = 0 → (r.getD 5 0#64).toNat / 2 ^ 20 = 0 → r.getD 6 0#64 = 0#64 → r.getD 7 0#64 = 0#64 → base + C ≤ tm.cores →
    ∀ n : List Nat, n.length = M →
    (∀ i < M, s.histAt s.here.ctx hist ((r.getD (1 + i / 4) 0#64).extractLsb' (16 * (i % 4)) 16).toInt = some (n.getD i 0)) →
    let block := (r.getD 5 0#64).toNat % 2 ^ 20
    let cores := placeCores n C
    let variants := (List.range M).map fun i =>
      placeVariant (parseBlock ((tm.blocks.get? block).getD [])) (n.getD i 0) (cores.getD i 0)
    let cached := (Claims.placed base cores variants).foldlM (fun (u : State) x => u.cacheBlock s.here.ctx x.1 block) s
    (∀ u, cached = some u →
      ∃ (t : State) (c' : CoreCtx) (tm' : Team), exec .curatorPlace s = .next t ∧ t.core? s.key = some c' ∧
        c'.walker = { c.walker with mark := .placed } ∧ t.phys = u.phys ∧ t.team? s.here.ctx = some tm' ∧
        (∀ x ∈ Claims.placed base cores variants, tm'.plans.get? (x.1, block) = some x.2) ∧
        (∀ k b, b ≠ block → tm'.plans.get? (k, b) = tm.plans.get? (k, b)) ∧
        (∀ i < M, t.flat.readN (64 + 8 * i) 8 = wordBytes (BitVec.ofNat 64
          (base + (cores.take i).sum + cores.getD i 0 * 2 ^ 16 + variants.getD i 0 * 2 ^ 32))) ∧
        ∀ a, a < 64 ∨ 64 + 8 * M ≤ a → t.flat.read a = s.flat.read a) ∧
    (cached = none → exec .curatorPlace s = .next s)) ∧
  (∀ (b : Block) n k v y, 0 < k → v = placeVariant b n k → b.variants[v]? = some y →
    (∃ z ∈ b.variants, z.unroll ≤ max 1 (n / (16 * k))) → y.unroll ≤ max 1 (n / (16 * k)) ∧
      ∀ i z, b.variants[i]? = some z → z.unroll ≤ max 1 (n / (16 * k)) →
        z.unroll ≤ y.unroll ∧ (i < v → z.unroll < y.unroll)) ∧
  (∀ s c p tm q r tid, s.core? s.key = some c → c.walker.mark = .placing tid r → c.walker.pos = some p →
    s.team? s.here.ctx = some tm → s.movesOn s.key c = true →
    let w := (r.getD 0 0#64).toNat
    let hist := w / 16 % 2 ^ 20
    (∀ x ∈ [tid, hist], ∀ h, s.tensor? s.here.ctx x = some h → s.tileAway s.here.ctx h = false) →
    (s.tensor? s.here.ctx tid = none ∨
      w / 2 ^ 56 ≠ 0 ∨ (r.getD 5 0#64).toNat / 2 ^ 20 ≠ 0 ∨ r.getD 6 0#64 ≠ 0#64 ∨ r.getD 7 0#64 ≠ 0#64 ∨
        tm.cores < w / 2 ^ 24 % 2 ^ 16 + w / 2 ^ 40 % 2 ^ 16 ∨ ∃ i ≤ w % 16, s.histAt s.here.ctx hist
          ((r.getD (1 + i / 4) 0#64).extractLsb' (16 * (i % 4)) 16).toInt = none) →
    r.length = 8 → tm.freePos (s.here.core / 2) = some q → s.flat.wf = true → c.raised = [] →
    Claims.CoreEvent .curatorPlace s c fun t c' => c'.walker.mark = .none ∧ c'.frozen = true ∧ c'.raised = [] ∧
      Claims.Recorded s t tm (s.here.core / 2) q (Claims.walkerRecord s c tm p 0x06 (BitVec.ofNat 64 tid) 0#64)) ∧
  (∀ s c tid r p tm, s.core? s.key = some c → c.walker.mark = .placing tid r → c.walker.pos = some p →
    s.team? s.here.ctx = some tm →
    s.movesOn s.key c = false ∨ (∃ h, (s.tensor? s.here.ctx tid = some h ∨
      s.tensor? s.here.ctx ((r.getD 0 0#64).toNat / 16 % 2 ^ 20) = some h) ∧ s.tileAway s.here.ctx h = true) →
    exec .curatorPlace s = .next s) ∧
  placeCores [6, 0, 2, 24] 8 = [2, 0, 1, 5]

/-! ### The dispatcher and teams (R277 to R288, R293, R351) -/

namespace Sys2Proof.Claims

/-- The oldest message of the dispatcher is this command on channel 0, known and well formed (R277). -/
def Commanded (s : State) (op : Nat) (m : Msg) (ms : List Msg) : Prop :=
  s.disp.inbox = m :: ms ∧ m.chan = 0 ∧ m.good = true ∧ (m.tok 0).toNat % 256 = op

/-- The CTXID of a command. -/
def named (m : Msg) : Nat := (m.tok 0).toNat / 2 ^ 32 % 64

/-- Table 18.4: the four words of a status message. -/
def statusWords (status code tag : Nat) (ctx : Option Nat) (detail : W64) (time : Nat) : List W64 :=
  [BitVec.ofNat 64 (status + code * 2 ^ 8 + tag * 2 ^ 16 + (match ctx with | some c => c * 2 ^ 32 + 2 ^ 38 | none => 0)),
    detail, BitVec.ofNat 64 time, 0#64]

/-- R278: words reach the destination of a launch record, its messages following `ms` in the dispatcher's inbox. -/
def ToDest (s t : State) (ms : List Msg) (l : LaunchRec) (src : Source) (ws : List W64) : Prop :=
  (l.dk = true → t.host.out = s.host.out ++ [(l.dest, none, ws)] ∧ t.disp.inbox = ms) ∧
  (l.dk = false → (s.serviceTeam l.dest).isSome = true → t.disp.inbox = ms ++ [⟨src, l.dest, ws⟩] ∧ t.host.out = s.host.out) ∧
  (l.dk = false → s.serviceTeam l.dest = none → t.host.out = s.host.out ++ [(0, none, ws)] ∧ t.disp.inbox = ms)

/-- R278: the answer to a command that is no launch: to the host queue that sent it, or to the DEST of the team that did. -/
def Answered (s t : State) (ms : List Msg) (src : Source) (ws : List W64) : Prop :=
  (∀ q, src = .host q → t.host.out = s.host.out ++ [(q, none, ws)] ∧ t.disp.inbox = ms) ∧
  (∀ c tm, src = .team c → s.team? c = some tm → ToDest s t ms tm.launch src ws)

/-- R286: the rows that the system channel of service channel `ch` holds, with those that wait for it and the messages still to
become rows; none where no team with a system channel serves it. -/
def rowsOf (s : State) (ch : Nat) : Option Nat :=
  (s.serviceTeam ch).bind fun c => (s.team? c).bind fun tm => (s.mcore? (c, 0)).bind fun m =>
    if tm.launch.sys then some ((m.tile tm.launch.sslot).count + tm.sysQueue.length + s.disp.inbox.countP fun x => x.chan == ch)
    else none

/-- Nothing but what the dispatcher sends has changed. -/
def OnlySends (s t : State) : Prop := t = { s with disp := { s.disp with inbox := t.disp.inbox }, host := t.host }

/-- Every core of a team that begins to end is frozen, and none moves or stays open to a debugger (R284, R318). -/
def AllStopped (s t : State) (ctx : Nat) : Prop :=
  (∀ k c, s.core? k = some c → t.core? k = some (if k.1 = ctx then { c with frozen := true, viewOpen := false } else c)) ∧
  ∀ k m, s.mcore? k = some m →
    t.mcore? k = some (if k.1 = ctx then { m with frozen := true, viewOpen := false, moving := false } else m)

/-- A team that begins to end (R284, R318): its cores freeze, nothing of it moves or stays open to a debugger any more, and it keeps
the status of its last message. -/
def Ends (s t : State) (ctx : Nat) (tm : Team) (status code detail : Nat) : Prop :=
  t.team? ctx = some
    { tm with phase := .ending, ending := some (status + 256 * code + 65536 * detail), migrations := [] } ∧
  AllStopped s t ctx

/-- R285: a walker is IDLE, its deque empty and its join counters 0. -/
def Resting (c : CoreCtx) : Prop := c.walker.pos = none ∧ c.walker.deque = [] ∧ ∀ g < 8, at' c.walker.joins g 0 = 0

/-- R192: nothing of the team's work is left on a core. -/
def AtRest (c : CoreCtx) : Prop :=
  c.walker.pos = none ∧ c.walker.deque = [] ∧ (∀ g < 8, at' c.walker.joins g 0 = 0) ∧ c.walker.tasks = [] ∧ c.walker.pend = [] ∧
    c.walker.decs = [] ∧ c.runs = [] ∧ c.buf = []

/-- R192: every message of the team has been delivered. -/
def Delivered (s : State) (ctx : Nat) : Prop :=
  (∀ m ∈ s.disp.inbox, m.src ≠ .team ctx) ∧ ∀ x ∈ s.host.out, x.2.1 ≠ some ctx

/-- Nothing of the team is left (R284). -/
def Freed (t : State) (ctx : Nat) : Prop :=
  t.team? ctx = none ∧ (∀ p ∈ t.cores, p.1.1 ≠ ctx) ∧ (∀ p ∈ t.mcores, p.1.1 ≠ ctx) ∧
    (∀ p ∈ t.engines, ∀ c ∈ p.2, c.ctx ≠ ctx) ∧ ∀ p ∈ t.phys, ctx ∉ p.2.res

/-- R281: launch `l` of `src` can start at once, as team `tm` on the quads `ps`, with `s2` the package once its leases are
resident. -/
structure Starts (s : State) (l : LaunchRec) (arrival : Nat) (tm : Team) (ctx : Nat) (s2 : State) (tm2 : Team) (ps : List Nat) : Prop where
  image : s.imageTeam l = .inr tm
  lowest : s.team? ctx = none ∧ ctx < 64 ∧ ∀ c < ctx, (s.team? c).isSome = true
  leases : tm.leases.length ≤ 256
  resident : ({ s with
    teams := s.teams.put ctx tm
    disp := { s.disp with waiting := s.disp.waiting.map fun w => if w.arrival = arrival then { w with ctx := some ctx } else w } } :
    State).makeResident ctx tm.leases = some s2
  small : l.quads ≤ s2.quadsInService ∧ (tm.blocks.map fun b => 8 * b.2.length).sum ≤ Config.blockImageLimit
  team : s2.team? ctx = some tm2
  places : s2.findQuads ctx tm2 Config.quads l.quads 0 = ps ∧ ps.length = l.quads

/-- R175, R281, Tables 9.2 and 10.1: what a compute core of a team holds at its launch. -/
def Launched (l : LaunchRec) (tm : Team) (k : Nat) (c : CoreCtx) : Prop :=
  c.walker = { Walker.init with
    pos := if k = 0 then some tm.entry0 else if tm.idleN then none else some tm.entryN
    roleage := l.roleage } ∧
  c.admitN = l.admitReg.toNat % 2 ^ 16 ∧ c.admitW = l.admitReg.toNat / 2 ^ 16 ∧ c.epoch = 1 ∧ c.runs = [] ∧ c.buf = [] ∧
  c.elems = [] ∧ c.flights = [] ∧ c.frozen = false ∧ c.resident = true ∧ c.cyc = 0#64

/-- A launch has started: its team runs on its quads with every launch value in place. -/
def Started (t : State) (l : LaunchRec) (arrival : Nat) (tm : Team) (ctx : Nat) (ps : List Nat) : Prop :=
  (∃ x, t.team? ctx = some x ∧ x.phase = .running ∧ x.place = ps ∧ x.launch = l ∧ x.graph = tm.graph ∧ x.blocks = tm.blocks ∧
    x.descs = tm.descs ∧ x.leases = tm.leases) ∧
  (∀ k < 2 * l.quads, ∃ c, t.core? (ctx, k) = some c ∧ Launched l tm k c) ∧
  (∀ k < 2 * l.quads, ∃ m, t.mcore? (ctx, k) = some m ∧ m.wsize = l.wsize ∧ m.prog = (tm.programs.get? k).getD [] ∧ m.pc = 0 ∧
    m.resident = true) ∧
  ∀ w ∈ t.disp.waiting, w.arrival ≠ arrival

end Sys2Proof.Claims

/-- R277, R278, R285, R286, R376: a SEND of 8 to 64 bytes in eights is one message, any other is answered BAD_MSG, and none
is taken before READY or while the system channel of the channel's team is full, its 16 rows held or promised; a command that is unknown or malformed is answered BAD_CMD,
a message on channels 1 to 15 or on a service channel without a team BAD_CHANNEL, with no other effect. -/
def Sys2Proof.Claims.MessagesAreTakenOrRejected : Prop :=
  (∀ s q ch bs rs, s.host.reqs = .send q ch bs :: rs → s.mgmt.ready = true → s.off = false →
    (ch < 16 ∨ s.serviceTeam ch = none ∨ ∃ n < 16, Claims.rowsOf s ch = some n) → ch < 256 →
    ∃ t, exec .hostSend s = .next t ∧ t.host.reqs = rs ∧ t.host.replies = s.host.replies ++ [.ack] ∧ t.teams = s.teams ∧
      (8 ≤ bs.length → bs.length ≤ 64 → bs.length % 8 = 0 → t.host.out = s.host.out ∧
        t.disp.inbox = s.disp.inbox ++ [⟨.host q, ch, (List.range (bs.length / 8)).map fun i =>
          BitVec.ofNat 64 (leNat ((bs.drop (8 * i)).take 8))⟩]) ∧
      (bs.length < 8 ∨ 64 < bs.length ∨ bs.length % 8 ≠ 0 → t.disp.inbox = s.disp.inbox ∧
        t.host.out = s.host.out ++ [(q, none, Claims.statusWords 0x09 0 0 none 0#64 s.time)])) ∧
  (∀ s q ch bs rs, s.host.reqs = .send q ch bs :: rs →
    (s.mgmt.ready = false ∨ (16 ≤ ch ∧ ∃ n, 16 ≤ n ∧ Claims.rowsOf s ch = some n)) →
    exec .hostSend s = .next { s with host := { s.host with reqs := rs, replies := s.host.replies ++ [.rnr] } }) ∧
  (∀ s m ms, s.disp.inbox = m :: ms → m.chan = 0 → m.good = false →
    ∃ t tag ctx, exec .unknownCommand s = .next t ∧ Claims.OnlySends s t ∧
      Claims.Answered s t ms m.src (Claims.statusWords 0x0B 0 tag ctx 0#64 s.time)) ∧
  (∀ s m ms, s.disp.inbox = m :: ms → 1 ≤ m.chan → m.chan ≤ 15 →
    ∃ t, exec .reservedChannelMessage s = .next t ∧ Claims.OnlySends s t ∧
      Claims.Answered s t ms m.src (Claims.statusWords 0x0A 0 0 none 0#64 s.time)) ∧
  (∀ s m ms, s.disp.inbox = m :: ms → 16 ≤ m.chan → s.serviceTeam m.chan = none → s.here.val ≠ 1 →
    ∃ t, exec .serviceMessage s = .next t ∧ Claims.OnlySends s t ∧
      Claims.Answered s t ms m.src (Claims.statusWords 0x0A 0 0 none 0#64 s.time)) ∧
  (∀ m : Msg, m.toks.length = 1 → (m.tok 0).toNat % 256 = 0x02 →
    (m.good = true ↔ (m.tok 0).toNat / 2 ^ 8 % 2 ^ 24 = 0 ∧ (m.tok 0).toNat / 2 ^ 38 = 0)) ∧
  (∀ m : Msg, (m.tok 0).toNat % 256 ∉ [0x01, 0x02, 0x03, 0x04, 0x10, 0x11, 0x12, 0x13, 0x14, 0x15, 0x16] → m.good = false)

/-- Table 18.3, R187, R277, R278, R284: SETPRI sets the priority, BOUND gives its token to the walker it names, or keeps it, in
order, until the team is placed and the walker's channel has room; CANCEL begins the end of a team with CANCELLED, a waiting
one's at once, and tells its source ACCEPTED (log 101); each of them that names no team, and a BOUND of a core beyond it, is
BAD_CMD. -/
def Sys2Proof.Claims.TeamCommandsActOnTheirTeam : Prop :=
  (∀ x ∈ [(0x02, Instr.cancel), (0x03, .setpri), (0x04, .bound)], ∀ s m ms, Claims.Commanded s x.1 m ms →
    (x.1 = 0x04 → s.here.val ≠ 1) → s.team? (Claims.named m) = none →
    ∃ t, exec x.2 s = .next t ∧ Claims.OnlySends s t ∧
      Claims.Answered s t ms m.src (Claims.statusWords 0x0B 0 0 none 0#64 s.time)) ∧
  (∀ s m ms tm, Claims.Commanded s 0x03 m ms → s.team? (Claims.named m) = some tm →
    ∃ t, exec .setpri s = .next t ∧ t.cores = s.cores ∧
      t.team? (Claims.named m) = some { tm with launch := { tm.launch with pri := (m.tok 0).toNat / 2 ^ 40 % 2 ^ 7 } } ∧
      Claims.Answered s t ms m.src (Claims.statusWords 0x01 0 tm.launch.tag (some (Claims.named m)) 0#64 s.time)) ∧
  (∀ s m ms tm c, Claims.Commanded s 0x04 m ms → s.here.val ≠ 1 → s.team? (Claims.named m) = some tm →
    let k := (Claims.named m, (m.tok 0).toNat / 2 ^ 48)
    k.2 < 2 * tm.launch.quads → s.core? k = some c →
    ∃ t, exec .bound s = .next t ∧ t.teams = s.teams ∧
      Claims.Answered s t ms m.src (Claims.statusWords 0x01 0 tm.launch.tag (some (Claims.named m)) 0#64 s.time) ∧
      (c.walker.bch.length + c.walker.bounds.length < 16 ∧ (∀ x ∈ s.disp.bounds, x.1 ≠ k) → t.disp.bounds = s.disp.bounds ∧
        t.core? k = some { c with walker := { c.walker with bounds := c.walker.bounds ++ [m.tok 1] } }) ∧
      (16 ≤ c.walker.bch.length + c.walker.bounds.length ∨ (∃ x ∈ s.disp.bounds, x.1 = k) → t.cores = s.cores ∧
        t.disp.bounds = s.disp.bounds ++ [(k, m.tok 1)])) ∧
  (∀ s k v xs c, s.here.val = 1 → s.disp.bounds = (k, v) :: xs → (∀ x ∈ xs, x.1 ≠ k) → s.core? k = some c →
    ∃ t, exec .bound s = .next t ∧ t.teams = s.teams ∧
      (c.walker.bch.length + c.walker.bounds.length < 16 → (∀ x ∈ t.disp.bounds, x.1 ≠ k) ∧
        t.core? k = some { c with walker := { c.walker with bounds := c.walker.bounds ++ [v] } }) ∧
      (16 ≤ c.walker.bch.length + c.walker.bounds.length → (k, v) ∈ t.disp.bounds ∧ t.core? k = some c)) ∧
  (∀ s m ms tm, Claims.Commanded s 0x04 m ms → s.here.val ≠ 1 → s.team? (Claims.named m) = some tm →
    let k := (Claims.named m, (m.tok 0).toNat / 2 ^ 48)
    k.2 < 2 * tm.launch.quads → s.core? k = none →
    ∃ t, exec .bound s = .next t ∧ t.teams = s.teams ∧ t.cores = s.cores ∧ t.disp.bounds = s.disp.bounds ++ [(k, m.tok 1)] ∧
      Claims.Answered s t ms m.src (Claims.statusWords 0x01 0 tm.launch.tag (some (Claims.named m)) 0#64 s.time)) ∧
  (∀ s m ms tm, Claims.Commanded s 0x04 m ms → s.here.val ≠ 1 → s.team? (Claims.named m) = some tm →
    2 * tm.launch.quads ≤ (m.tok 0).toNat / 2 ^ 48 →
    ∃ t, exec .bound s = .next t ∧ Claims.OnlySends s t ∧
      Claims.Answered s t ms m.src (Claims.statusWords 0x0B 0 tm.launch.tag (some (Claims.named m)) 0#64 s.time)) ∧
  (∀ s m ms tm, Claims.Commanded s 0x02 m ms → s.team? (Claims.named m) = some tm → tm.phase = .running ∨ tm.phase = .parked →
    tm.ending = none →
    ∃ t, exec .cancel s = .next t ∧ Claims.Ends s t (Claims.named m) tm 0x07 0 0 ∧
      Claims.Answered s t ms m.src (Claims.statusWords 0x01 0 tm.launch.tag (some (Claims.named m)) 0#64 s.time)) ∧
  (∀ s m ms tm, Claims.Commanded s 0x02 m ms → s.team? (Claims.named m) = some tm → tm.phase = .ending →
    ∃ t, exec .cancel s = .next t ∧ Claims.OnlySends s t ∧
      Claims.Answered s t ms m.src (Claims.statusWords 0x01 0 tm.launch.tag (some (Claims.named m)) 0#64 s.time)) ∧
  (∀ s m ms tm, Claims.Commanded s 0x02 m ms → s.team? (Claims.named m) = some tm → tm.phase = .waiting →
    ∃ u t, exec .cancel s = .next t ∧ Claims.Freed t (Claims.named m) ∧ Claims.OnlySends s u ∧
      Claims.Answered s u ms m.src (Claims.statusWords 0x01 0 tm.launch.tag (some (Claims.named m)) 0#64 s.time) ∧
      Claims.ToDest u t u.disp.inbox tm.launch (.team (Claims.named m))
        (Claims.statusWords 0x07 0 tm.launch.tag (some (Claims.named m)) 0#64 s.time))

/-- R281: a LAUNCH with a bad record is answered BAD_LAUNCH; one whose record, image, leases and quads allow it starts with the
lowest free CTXID and every launch value, and is told ACCEPTED. The queue starts a waiting launch in the same way, and a
launch that arrives while one of its priority waits does not go before it. -/
def Sys2Proof.Claims.LaunchesStartTeams : Prop :=
  (∀ s m ms, Claims.Commanded s 0x01 m ms → s.recordGood m.toks = false → s.destOk (launchRec m.toks) = true →
    ∃ t, exec .launch s = .next t ∧ Claims.OnlySends s t ∧
      Claims.ToDest s t ms (launchRec m.toks) m.src (Claims.statusWords 0x02 0 (launchRec m.toks).tag none 0#64 s.time)) ∧
  (∀ s m ms tm ctx s2 tm2 ps, Claims.Commanded s 0x01 m ms → s.recordGood m.toks = true →
    let l := launchRec m.toks
    s.disp.waiting = [] → s.disp.restores = [] → (∀ p ∈ s.cores, p.1.1 ≠ ctx) → (∀ p ∈ s.mcores, p.1.1 ≠ ctx) →
    Claims.Starts { s with disp := { s.disp with
      inbox := ms, waiting := [⟨l, none, m.src, s.disp.arrivals⟩], arrivals := s.disp.arrivals + 1 } }
      l s.disp.arrivals tm ctx s2 tm2 ps →
    ∃ t, exec .launch s = .next t ∧ Claims.Started t l s.disp.arrivals tm ctx ps ∧
      (l.dk = true → t.host.out = s.host.out ++ [(l.dest, none, Claims.statusWords 0x01 0 l.tag (some ctx) 0#64 s.time)])) ∧
  (∀ s w tm ctx s2 tm2 ps, s.disp.waiting = [w] → s.disp.restores = [] → w.ctx = none → (∀ p ∈ s.cores, p.1.1 ≠ ctx) →
    (∀ p ∈ s.mcores, p.1.1 ≠ ctx) → Claims.Starts s w.launch w.arrival tm ctx s2 tm2 ps →
    ∃ t, exec .queuePlacement s = .next t ∧ Claims.Started t w.launch w.arrival tm ctx ps) ∧
  (∀ s w st d, s.disp.waiting = [w] → s.disp.restores = [] → w.ctx = none → (∃ ctx < 64, s.team? ctx = none) →
    s.imageTeam w.launch = .inl (st, d) → w.launch.dk = true →
    ∃ t ctx, exec .queuePlacement s = .next t ∧ t.disp.waiting = [] ∧ t.teams = s.teams ∧
      t.host.out = s.host.out ++ [(w.launch.dest, none, Claims.statusWords st 0 w.launch.tag (some ctx) d s.time)]) ∧
  (∀ s m ms w tm ctx s2 tm2 ps, Claims.Commanded s 0x01 m ms → s.recordGood m.toks = true → (launchRec m.toks).pri ≤ w.launch.pri →
    s.disp.waiting = [w] → s.disp.restores = [] → w.ctx = none → w.arrival < s.disp.arrivals → (∀ p ∈ s.cores, p.1.1 ≠ ctx) →
    (∀ p ∈ s.mcores, p.1.1 ≠ ctx) →
    Claims.Starts { s with disp := { s.disp with
      inbox := ms, waiting := [w, ⟨launchRec m.toks, none, m.src, s.disp.arrivals⟩], arrivals := s.disp.arrivals + 1 } }
      w.launch w.arrival tm ctx s2 tm2 ps →
    ∃ t, exec .launch s = .next t ∧ ∃ x, t.team? ctx = some x ∧ x.launch = w.launch ∧ x.phase = .running ∧ x.place = ps)

/-- R192, R284, R285, R318: a team at rest is reported COMPLETED and freed; a service team whose walkers are IDLE with empty deques
and join counters of 0 parks; an ending team discards its open groups, waits while an ended one may still perform (log 68), drops
those that no longer can, and then gets its last message and is freed. -/
def Sys2Proof.Claims.TeamsEnd : Prop :=
  (∀ s tm, s.team? s.here.ctx = some tm → tm.phase = .running → tm.evicted = [] → tm.launch.svc = false →
    (∀ p ∈ s.cores, p.1.1 = s.here.ctx → Claims.AtRest p.2) → Claims.Delivered s s.here.ctx →
    ∃ t, exec .teamComplete s = .next t ∧ Claims.Freed t s.here.ctx ∧
      Claims.ToDest s t s.disp.inbox tm.launch (.team s.here.ctx)
        (Claims.statusWords 0x00 0 tm.launch.tag (some s.here.ctx) 0#64 s.time)) ∧
  (∀ s tm, s.team? s.here.ctx = some tm → tm.phase = .running → tm.launch.svc = true →
    (∀ p ∈ s.cores, p.1.1 = s.here.ctx → Claims.Resting p.2) →
    ∃ t, exec .teamComplete s = .next t ∧ t.team? s.here.ctx = some { tm with phase := .parked } ∧ t.cores = s.cores ∧
      t.host = s.host) ∧
  (∀ s tm p r, s.team? s.here.ctx = some tm → tm.phase = .ending →
    let u := (s.dropOpen s.here.ctx).dropStuck s.here.ctx
    p ∈ u.cores → p.1.1 = s.here.ctx → r ∈ p.2.runs → r.ended ≠ [] →
    exec .teamComplete s = .next u ∧ u.teams = s.teams ∧ u.host = s.host) ∧
  (∀ (s : State) tm k c r, s.team? s.here.ctx = some tm → tm.phase = .ending → s.cores = [(k, c)] → k.1 = s.here.ctx → c.runs = [r] →
    r.spec = false → r.reissue = false → (∀ b ∈ c.buf, b.run = r.id) → r.ended = [] → r.inputs = [] →
    ∃ c', (s.dropOpen s.here.ctx).core? k = some c' ∧ c'.buf = []) ∧
  (∀ s tm st code idx, s.team? s.here.ctx = some tm → tm.phase = .ending → tm.ending = some (st + 256 * code + 65536 * idx) →
    st < 256 → code < 256 → (∀ p ∈ s.cores, p.1.1 = s.here.ctx → p.2.runs = []) →
    ∃ t, exec .teamComplete s = .next t ∧ Claims.Freed t s.here.ctx ∧
      Claims.ToDest s t s.disp.inbox tm.launch (.team s.here.ctx)
        (Claims.statusWords st code tm.launch.tag (some s.here.ctx) (BitVec.ofNat 64 idx) s.time))

/-- R285, R286: a message on the channel of a service team becomes a row of its system channel, counted by its counter, and
starts a parked team, or one whose last walker has just gone IDLE, at ENTRY0 again; while rows wait, or the memory core is away, it
joins them. -/
def Sys2Proof.Claims.ServiceMessagesReachTheirTeam : Prop :=
  (∀ s msg ms ctx tm m, s.here.val ≠ 1 → s.disp.inbox = msg :: ms → 16 ≤ msg.chan → msg.toks.length ≤ 8 →
    s.serviceTeam msg.chan = some ctx → s.team? ctx = some tm → s.mcore? (ctx, 0) = some m → tm.launch.sys = true →
    tm.sysQueue = [] → m.resident = true → m.viewOpen = false → m.moving = false → m.window.wf = true →
    let x := m.tile tm.launch.sslot
    x.mode = .fifo → x.rowb = 0 → x.partialRow = 0 → x.count ≤ x.rows → tm.launch.sctr < 16 →
    ∃ t m', exec .serviceMessage s = .next t ∧ t.disp.inbox = ms ∧ t.mcore? (ctx, 0) = some m' ∧
      (m'.tile tm.launch.sslot).count = x.count + 1 ∧
      at' m'.ctrs tm.launch.sctr 0#32 = at' m.ctrs tm.launch.sctr 0#32 + 1#32 ∧
      m'.bytes (x.base * 64 + (x.head + x.count) % (x.rows + 1) * 64) (8 * msg.toks.length) = wordsBytes msg.toks ∧
      (tm.phase = .running → (∃ p ∈ s.cores, p.1.1 = ctx ∧ ¬ Claims.Resting p.2) → t.team? ctx = some tm ∧ t.cores = s.cores) ∧
      (tm.phase = .parked ∨
          (tm.phase = .running ∧ tm.launch.svc = true ∧ ∀ p ∈ s.cores, p.1.1 = ctx → Claims.Resting p.2) → ∀ c, s.core? (ctx, 0) = some c → ∃ tm' c', t.team? ctx = some tm' ∧ tm'.phase = .running ∧
        t.core? (ctx, 0) = some c' ∧ c'.walker = { c.walker with pos := some tm.entry0, mark := .none })) ∧
  (∀ s msg ms ctx tm m, s.here.val ≠ 1 → s.disp.inbox = msg :: ms → 16 ≤ msg.chan → s.serviceTeam msg.chan = some ctx →
    s.team? ctx = some tm → s.mcore? (ctx, 0) = some m → tm.launch.sys = true →
    tm.sysQueue ≠ [] ∨ m.resident = false ∨ m.viewOpen = true ∨ m.moving = true →
    tm.phase = .running → (∃ p ∈ s.cores, p.1.1 = ctx ∧ ¬ Claims.Resting p.2) →
    ∃ t, exec .serviceMessage s = .next t ∧ t.disp.inbox = ms ∧ t.mcores = s.mcores ∧
      t.team? ctx = some { tm with sysQueue := tm.sysQueue ++ [msg.toks] })

/-- R173, R288: a team's quad is first held, then, with everything landed and committed, leaves its cores for its images and
waits to come back; a restore puts it on quads that can take it. -/
def Sys2Proof.Claims.QuadsAreEvictedAndRestored : Prop :=
  (∀ s tm q, s.team? s.here.ctx = some tm → s.here.idx = q → tm.phase = .running → tm.launch.cap = true → tm.launch.ft = false →
    q < tm.launch.quads → q ∉ tm.evicted → q ∉ tm.leaving →
    ∃ t, exec .eviction s = .next t ∧ t.team? s.here.ctx = some { tm with leaving := tm.leaving ++ [q] } ∧ t.cores = s.cores) ∧
  (∀ s tm q, s.team? s.here.ctx = some tm → s.here.idx = q → tm.phase = .running → tm.launch.cap = true → tm.launch.ft = false →
    q < tm.launch.quads → q ∉ tm.evicted → q ∈ tm.leaving → s.quadQuiet s.here.ctx q = true →
    ∃ t tm', exec .eviction s = .next t ∧ t.team? s.here.ctx = some tm' ∧ tm'.evicted = tm.evicted ++ [q] ∧ q ∉ tm'.leaving ∧
      t.disp.restores = s.disp.restores ++ [(s.here.ctx, q)] ∧
      (∀ h < 2, ∀ c, s.core? (s.here.ctx, 2 * q + h) = some c →
        ∃ c', t.core? (s.here.ctx, 2 * q + h) = some c' ∧ c'.resident = false ∧ c'.elems = c.elems ∧ c'.walker = c.walker ∧
          c'.runs = c.runs ∧ c'.buf = c.buf ∧ ∀ p, (c'.le p).beats = []) ∧
      ∀ h < 2, s.here.ctx ∉ (t.physOf (tm.place.getD q 0 * 2 + h)).res) ∧
  (∀ s tm q p, s.team? s.here.ctx = some tm → s.here.idx = q → tm.phase ≠ .ending → tm.powerOut = false → tm.launch.cap = true →
    tm.launch.ft = false → q < tm.place.length → q ∈ tm.evicted → tm.resumes = [] → s.findQuads s.here.ctx tm Config.quads 1 0 = [p] →
    ∃ t tm', exec .restore s = .next t ∧ t.team? s.here.ctx = some tm' ∧ q ∉ tm'.evicted ∧ tm'.place = tm.place.set q p ∧
      (s.here.ctx, q) ∉ t.disp.restores ∧
      (∀ h < 2, ∀ c, s.core? (s.here.ctx, 2 * q + h) = some c → ∃ c', t.core? (s.here.ctx, 2 * q + h) = some c' ∧ c'.resident = true) ∧
      ∀ h < 2, s.here.ctx ∈ (t.physOf (2 * p + h)).res)

/-- R171, R287, R372: of two contexts of a core that can run, and that the power controller does not hold out, the one of higher team priority is in the foreground, and between equals
the other one after 2^20 cycles or a YIELDG; a lone one stays. -/
def Sys2Proof.Claims.ForegroundFollowsPriority : Prop :=
  ∀ s f o, let p := s.physOf s.here.idx
    let pri (c : Nat) : Nat := ((s.team? c).map (·.launch.pri)).getD 0
    let yielded := ((s.core? (s.keyOn f s.here.idx)).map (·.walker.yielded)).getD false
    (p.res = [f, o] ∨ p.res = [o, f]) → f ≠ o → p.fg = some f → s.fixedTiming f = false → s.fixedTiming o = false →
    s.runnable (s.keyOn f s.here.idx) = true →
    ∃ t, exec .contextSwitch s = .next t ∧
      (s.placeable (s.keyOn o s.here.idx) = true →
        pri f < pri o ∨ yielded = true ∨ (pri f = pri o ∧ 2 ^ 20 ≤ p.fgCycles) →
          (t.physOf s.here.idx).fg = some o ∧ (t.physOf s.here.idx).fgCycles = 0) ∧
      (s.placeable (s.keyOn o s.here.idx) = false ∨
        (¬ pri f < pri o ∧ yielded = false ∧ ¬ (pri f = pri o ∧ 2 ^ 20 ≤ p.fgCycles)) → t.phys = s.phys)

/-- R259, R293, R347: a moved frame's bytes stand in the new frame, the tile table names it, no layout unit still translates to the
old one, and no LE of the team keeps a block of it (log 98). -/
def Sys2Proof.Claims.FramesMove : Prop :=
  ∀ s ctx tm tid tile g, let f := s.here.idx
    s.teams = [(ctx, tm)] → tm.frames = [((tid, tile), f)] → f ∈ s.frames → s.hbm.wf = true →
    s.freeFrames (s.frames.length + Config.hbmChannels + 2) 1 0 = [g] →
    ∃ t, exec .frameMove s = .next t ∧ t.team? ctx = some { tm with frames := [((tid, tile), g)] } ∧ f ∉ t.frames ∧ g ∈ t.frames ∧
      (∀ i < Config.frameBytes, t.hbm.read (g * Config.frameBytes + i) = s.hbm.read (f * Config.frameBytes + i)) ∧
      (∀ a, a < g * Config.frameBytes ∨ (g + 1) * Config.frameBytes ≤ a → t.hbm.read a = s.hbm.read a) ∧
      (∀ p ∈ t.phys, (ctx, tid, tile) ∉ p.2.xlat) ∧
      ∀ n c, s.core? (ctx, n) = some c → ∃ c', t.core? (ctx, n) = some c' ∧ Claims.WithoutBeats c c'

/-! ### Barriers' completion, debugger commands, hangs and errors (R245, R302 to R319, R345, R346) -/

namespace Sys2Proof.Claims

/-- A debugger command for a team that runs or is parked, from a source that may debug it (R307). -/
def Debugs (s : State) (op : Nat) (m : Msg) (ms : List Msg) (tm : Team) : Prop :=
  Commanded s op m ms ∧ s.team? (named m) = some tm ∧ (tm.phase = .running ∨ tm.phase = .parked) ∧
    ((∃ q, m.src = .host q) ∨ ∃ c, m.src = .team c ∧ tm.launch.hh = false ∧ tm.launch.hctx = c)

/-- The status message of a command of a team. -/
def answer (s : State) (m : Msg) (tm : Team) (status : Nat) (detail : W64) : List W64 :=
  statusWords status 0 tm.launch.tag (some (named m)) detail s.time

/-- A command that names one compute core of its team. -/
def OneCore (m : Msg) (tm : Team) (n : Nat) : Prop :=
  n = (m.tok 0).toNat / 2 ^ 8 % 2 ^ 16 ∧ (m.tok 0).getLsbD 24 = false ∧ n < 2 * tm.launch.quads ∧ n ≠ 0xFFFF

/-- A frozen core has held nothing that would land with its RESUME (R303). -/
def HoldsNothing (c : CoreCtx) : Prop := c.les = [] ∧ c.walker.decs = [] ∧ c.walker.bounds = [] ∧ c.verdicts = []

/-- A compute core has an open record (R305). -/
def hasRecord (tm : Team) (n : Nat) (r : OpenRec) : Prop := r ∈ tm.recs ∧ r.core = n ∧ r.src ≠ 2 ∧ r.src ≠ 3

/-- The debugger commands with their codes (Table 20.3). -/
def debugCommands : List (Nat × Instr) :=
  [(0x10, .resume), (0x11, .freeze), (0x12, .teardown), (0x13, .vopen), (0x14, .vclose), (0x15, .lease), (0x16, .resolve)]

/-- Where the element records of a compute core's view begin (Table 20.1, R310). -/
def viewOf (tm : Team) (n : Nat) : Nat :=
  tm.launch.area + n / 2 * Config.quadPlace + (if n % 2 = 0 then 0 else 0x34000)

/-- A team that freezes as a whole (R315). -/
def AllFrozen (s t : State) (ctx : Nat) : Prop :=
  (∀ k c, s.core? k = some c → ∃ c', t.core? k = some c' ∧ (k.1 = ctx → c' = { c with frozen := true }) ∧ (k.1 ≠ ctx → c' = c)) ∧
  ∀ k m, s.mcore? k = some m → ∃ m', t.mcore? k = some m' ∧ (k.1 = ctx → m' = { m with frozen := true }) ∧ (k.1 ≠ ctx → m' = m)

/-- R306: the notice of a freeze. -/
def noticeWords (code ctx idx n time : Nat) : List W64 :=
  [BitVec.ofNat 64 (0x40 + code * 2 ^ 8 + ctx * 2 ^ 32), BitVec.ofNat 64 idx, BitVec.ofNat 64 time, BitVec.ofNat 64 n]

/-- R245: the arrival belongs to a core's second arrival in a generation of quad scope or wider, by another run or the walker
than the first: it is held for the next generation. -/
def Held (b : Barrier) (a : Arrival) : Prop :=
  let who := if a.pos = 64 then none else some a.run
  (a.core, who) ∈ b.full ∧ ∃ f, (b.full.find? fun f => f.1 == a.core) = some f ∧ f.2 ≠ who

/-- Table 23.4. -/
def deaccessionOf (s : State) (k : ResKind) (n reason pattern serial : Nat) : List W64 :=
  [BitVec.ofNat 64 (k.code + n / perDie k * 2 ^ 8 + n % perDie k * 2 ^ 10 + reason * 2 ^ 32), BitVec.ofNat 64 s.time,
    BitVec.ofNat 64 ((s.res k n).score + pattern % 2 ^ 32 * 2 ^ 16), BitVec.ofNat 64 serial, 0#64, 0#64, 0#64, 0#64]

/-- R349: the resource of this turn has left service for a reason, with its record. -/
def Retired (s t : State) (k : ResKind) (reason pattern : Nat) : Prop :=
  (t.res k s.here.idx).inService = false ∧ (t.res k s.here.idx).leased = false ∧
  ∃ serial, t.mgmt.deaccessions.getLast? = some (deaccessionOf s k s.here.idx reason pattern serial)

/-- The kinds of Table 23.1 by their codes of Table 23.4. -/
def resource (n : Nat) : ResKind :=
  if n = 0 then .core else if n = 1 then .mcore else if n = 2 then .engine else if n = 3 then .linkHalf
  else if n = 4 then .port else .channel

end Sys2Proof.Claims

/-- R244 to R246: a barrier whose participants have all arrived, by their slots as they now stand, and in which no arrival of an
unvalidated run stands, completes: the predicate of each arrival of the generation takes the value 1, a core's second arrival
waits on, and the next generation is open. -/
def Sys2Proof.Claims.BarriersComplete : Prop :=
  (∀ s tm b0, s.team? s.here.ctx = some tm → tm.bars[s.here.idx]? = some b0 → tm.bar? b0.scope b0.unit b0.num = some b0 →
    (b0.scope = 2 ∨ b0.scope = 3 ∨ b0.scope = 4) →
    let b := s.barNow s.here.ctx b0
    (∀ a ∈ b.arrived, a.core ∈ tm.participants b.scope b.unit) →
    (∀ c ∈ tm.participants b.scope b.unit, ∃ f ∈ b.full, f.1 = c) →
    (∀ a ∈ b.arrived, ¬ Claims.Held b a → a.valid = true) →
    ∃ t tm' b', exec .barrierComplete s = .next t ∧ t.team? s.here.ctx = some tm' ∧
      tm'.bar? b.scope b.unit b.num = some b' ∧ b'.gen = b.gen + 1 ∧
      (∀ a, a ∈ b'.arrived ↔ a ∈ b.arrived ∧ Claims.Held b a) ∧ t.flat = s.flat ∧ t.hbm = s.hbm ∧
      (b.arrived.Pairwise (fun x y => x.core ≠ y.core ∨ x.pos ≠ y.pos) → ∀ a ∈ b.arrived, ¬ Claims.Held b a → a.pos < 64 →
        3 ≤ a.pu → a.pu ≤ 5 → a.pn < 8 → ∀ c e, s.core? (s.here.ctx, a.core) = some c → c.elem? a.pos = some e → e.run = some a.run →
          ∃ c' e', t.core? (s.here.ctx, a.core) = some c' ∧ c'.elem? a.pos = some e' ∧
            e'.pred a.pn = ⟨decide (a.pu = 3), a.tnt, false⟩)) ∧
  (∀ (s : State) ctx b a c, 2 ≤ b.scope → a ∈ b.arrived → a.pos ≠ 64 → s.core? (ctx, a.core) = some c →
    c.enrolledOf a.run b.scope b.num ≠ [] →
    (∀ p ∈ c.enrolledOf a.run b.scope b.num, ∃ x ∈ b.arrived, x.core = a.core ∧ x.run = a.run ∧ x.pos = p) →
    (a.core, some a.run) ∈ (s.barNow ctx b).full) ∧
  (∀ s tm b, s.team? s.here.ctx = some tm → tm.bars[s.here.idx]? = some b → s.barNow s.here.ctx b = b → 2 ≤ b.scope →
    ((∃ c ∈ tm.participants b.scope b.unit, ∀ f ∈ b.full, f.1 ≠ c) ∨ ∃ a ∈ b.arrived, ¬ Claims.Held b a ∧ a.valid = false) →
    (∀ a ∈ b.arrived, a.core ∈ tm.participants b.scope b.unit) → exec .barrierComplete s = .next s)

/-- R307: a debugger command from a source that may not debug its team, or for a team that waits or ends (log 86), is answered
BAD_CMD and does nothing else. -/
def Sys2Proof.Claims.DebuggersNeedTheirTeam : Prop :=
  ∀ x ∈ Claims.debugCommands, ∀ s m ms tm, Claims.Commanded s x.1 m ms → s.team? (Claims.named m) = some tm →
    (tm.phase = .waiting ∨ tm.phase = .ending ∨ ∃ c, m.src = .team c ∧ (tm.launch.hh = true ∨ tm.launch.hctx ≠ c)) →
    ∃ t, exec x.2 s = .next t ∧ Claims.OnlySends s t ∧ Claims.Answered s t ms m.src (Claims.answer s m tm 0x0B 0#64)

/-- R302, R303, R305, R306, R307, Table 20.3: FREEZE stops a running core with a DEBUG_STOP record and its notice; RESUME lets a
frozen core go on and closes its records, and a TRAPG's walker goes to NEXT; what the core has held lands first, whatever its
admission window (log 106); TEARDOWN ends the team with the code of its lowest
open record. -/
def Sys2Proof.Claims.CoresFreezeAndResume : Prop :=
  (∀ s m ms tm n c p q, Claims.Debugs s 0x11 m ms tm → Claims.OneCore m tm n → s.core? (Claims.named m, n) = some c →
    c.frozen = false → c.raised = [] → c.ringFull = false → tm.freePos (n / 2) = some p → tm.launch.hh = true → tm.launch.dk = true → m.src = .host q →
    s.flat.wf = true →
    let idx := n / 2 * 512 + p
    let a := tm.quadPlace (n / 2) + 0x170000 + 64 * p
    ∃ t c', exec .freeze s = .next t ∧ t.core? (Claims.named m, n) = some c' ∧
      c' = { c with frozen := true, elems := c'.elems } ∧ t.disp.inbox = ms ∧
      (∀ pos e, c.elem? pos = some e → c'.elem? pos = some (if c.specRun e.run then e else { e with held := none })) ∧
      t.host.out = s.host.out ++ [(tm.launch.dest, none, Claims.noticeWords 0x00 (Claims.named m) idx 1 s.time),
        (q, none, Claims.answer s m tm 0x01 0#64)] ∧
      t.flat.readN a 64 = wordsBytes [BitVec.ofNat 64 (2 ^ 8 + 2 ^ 10 + n % 2 ^ 16 * 2 ^ 16 + Claims.named m * 2 ^ 32 +
        c.walker.pos.getD 0 * 2 ^ 48), 0#64, 0#64, 0#64, BitVec.ofNat 64 s.time, c.cyc,
        BitVec.ofNat 64 (c.epoch % 2 ^ 32 + tm.recSeq * 2 ^ 32), 0#64] ∧
      ∀ x, x < a ∨ a + 64 ≤ x → t.flat.read x = s.flat.read x) ∧
  (∀ s m ms tm n c r, Claims.Debugs s 0x10 m ms tm → Claims.OneCore m tm n → s.core? (Claims.named m, n) = some c →
    c.resident = true → c.viewOpen = false → Claims.HoldsNothing c → tm.launch.ft = false → Claims.hasRecord tm n r →
    (∀ y ∈ tm.recs, y.core = n → y.code ≠ 0x09 ∧ y.code ≠ 0x07) →
    ∃ t tm', exec .resume s = .next t ∧ t.core? (Claims.named m, n) = some { c with frozen := false } ∧
      t.team? (Claims.named m) = some tm' ∧ (∀ y ∈ tm'.recs, ¬ (y.core = n ∧ y.src ≠ 2 ∧ y.src ≠ 3)) ∧
      Claims.Answered s t ms m.src (Claims.answer s m tm 0x01 0#64)) ∧
  (∀ s m ms tm n c r, Claims.Debugs s 0x10 m ms tm → Claims.OneCore m tm n → s.core? (Claims.named m, n) = some c →
    c.resident = true → c.viewOpen = false → Claims.HoldsNothing c → tm.launch.ft = false → tm.recs = [r] → r.core = n → r.src = 1 →
    r.code = 0x09 → c.walker.pos = some r.node →
    ∃ t, exec .resume s = .next t ∧ t.core? (Claims.named m, n) = some { c with
      frozen := false
      walker := { c.walker with
        pos := some ((s.nodeWord (Claims.named m) r.node).toNat / 2 ^ 48 % 2 ^ 10), mark := .none } }) ∧
  (∀ s m ms tm n c r g v, Claims.Debugs s 0x10 m ms tm → Claims.OneCore m tm n → s.core? (Claims.named m, n) = some c →
    c.resident = true → c.viewOpen = false → c.les = [] → c.verdicts = [] → c.walker.decs = [g] → g < 8 → c.walker.bounds = [v] →
    c.walker.bch.length < 16 → isBchNode (s.nodeWord (Claims.named m) (v.toNat / 2 ^ 32 % 2 ^ 10)) = false → tm.launch.ft = false →
    Claims.hasRecord tm n r → (∀ y ∈ tm.recs, y.core = n → y.code ≠ 0x09 ∧ y.code ≠ 0x07) →
    ∃ t c', exec .resume s = .next t ∧ t.core? (Claims.named m, n) = some c' ∧ c'.frozen = false ∧ c'.walker = { c.walker with
      decs := [], bounds := [], joins := upd c.walker.joins g (at' c.walker.joins g 0 - 1)
      bch := c.walker.bch ++ [(v.toNat / 2 ^ 32 % 2 ^ 10, BitVec.ofNat 32 v.toNat)] }) ∧
  (∀ s m ms tm n, Claims.Debugs s 0x10 m ms tm → Claims.OneCore m tm n → (∀ y ∈ tm.recs, y.src ≠ 3 ∧ ¬ Claims.hasRecord tm n y) →
    ∃ t, exec .resume s = .next t ∧ Claims.OnlySends s t ∧ Claims.Answered s t ms m.src (Claims.answer s m tm 0x0B 0#64)) ∧
  (∀ s m ms tm, Claims.Debugs s 0x12 m ms tm → tm.ending = none →
    ∃ t code idx, exec .teardown s = .next t ∧ Claims.Ends s t (Claims.named m) tm 0x08 code idx ∧
      (tm.recs = [] → code = 0 ∧ idx = 0) ∧
      (∀ r ∈ tm.recs, (∀ y ∈ tm.recs, y ≠ r → r.index < y.index) → code = r.code ∧ idx = r.index) ∧
      Claims.Answered s t ms m.src (Claims.answer s m tm 0x01 0#64))

/-- R310 to R312, Table 20.6: VOPEN writes the view of a frozen core whose results have landed, and waits until they have (log 86);
VCLOSE reads its writable fields back, or answers BAD_CMD where a slot word fails its checks. -/
def Sys2Proof.Claims.ViewsOpenAndClose : Prop :=
  (∀ s m ms tm n c r, Claims.Debugs s 0x13 m ms tm → Claims.OneCore m tm n → s.core? (Claims.named m, n) = some c →
    c.resident = true → c.flights = [] → (∀ col < 8, (c.staged col).isFull = false) → Claims.hasRecord tm n r → s.flat.wf = true →
    ∃ t, exec .vopen s = .next t ∧ t.core? (Claims.named m, n) = some { c with viewOpen := true } ∧
      (∀ pos < 64, ∀ i < 12, t.flat.readN (Claims.viewOf tm n + 512 * pos + 8 * i) 8 = wordBytes ((c.elemD pos).reg i).data) ∧
      (∀ pos < 64, ∀ i < 16, t.flat.readN (Claims.viewOf tm n + 512 * pos + 144 + 8 * i) 8 = wordBytes ((c.elemD pos).slot i)) ∧
      Claims.Answered s t ms m.src (Claims.answer s m tm 0x01 0#64)) ∧
  (∀ s m ms tm n c f r, Claims.Debugs s 0x13 m ms tm → Claims.OneCore m tm n → s.core? (Claims.named m, n) = some c →
    Claims.hasRecord tm n r → f ∈ c.flights → (∀ pos p k h b, f.cargo ≠ .beat pos p k h b) → exec .vopen s = .next s) ∧
  (∀ s m ms tm n c r, Claims.Debugs s 0x14 m ms tm → Claims.OneCore m tm n → s.core? (Claims.named m, n) = some c →
    c.viewOpen = true → Claims.hasRecord tm n r → c.viewFail s.flat (Claims.viewOf tm n) = none →
    ∃ t c', exec .vclose s = .next t ∧ t.core? (Claims.named m, n) = some c' ∧ c'.viewOpen = false ∧ c'.walker = c.walker ∧
      c'.buf = c.buf ∧ c'.runs = c.runs ∧ Claims.Answered s t ms m.src (Claims.answer s m tm 0x01 0#64) ∧
      ∀ pos e, c.elem? pos = some e → ∃ e', c'.elem? pos = some e' ∧ e'.run = e.run ∧ e'.ports = e.ports ∧
        (∀ i < 12, (e'.reg i).data = Claims.wordOf (s.flat.readN (Claims.viewOf tm n + 512 * pos + 8 * i) 8)) ∧
        ∀ i < 16, e'.slot i = Claims.wordOf (s.flat.readN (Claims.viewOf tm n + 512 * pos + 144 + 8 * i) 8)) ∧
  (∀ s m ms tm n c r d, Claims.Debugs s 0x14 m ms tm → Claims.OneCore m tm n → s.core? (Claims.named m, n) = some c →
    c.viewOpen = true → Claims.hasRecord tm n r → c.viewFail s.flat (Claims.viewOf tm n) = some d →
    ∃ t, exec .vclose s = .next t ∧ Claims.OnlySends s t ∧ Claims.Answered s t ms m.src (Claims.answer s m tm 0x0B d))

/-- R290, R295, R297: LEASE adds the lease of its record, whose tiles are resident then, and raises its tensor's NLEASE, or answers BAD_TENSOR; RESOLVE marks a fault
record resolved, and is BAD_CMD where there is none. -/
def Sys2Proof.Claims.LeasesAndFaultRecordsAreServed : Prop :=
  (∀ s m ms tm l s2 tm2, Claims.Debugs s 0x15 m ms tm →
    tm.leaseFor (s.flatWords (64 * ((m.tok 0).toNat / 2 ^ 8 % 2 ^ 24 + (m.tok 0).toNat / 2 ^ 38 % 2 ^ 20 * 2 ^ 24)) 8) = some l →
    ({ s with disp := { s.disp with inbox := ms } } : State).makeResident (Claims.named m) [l] = some s2 →
    s2.team? (Claims.named m) = some tm2 →
    ∃ t, exec .lease s = .next t ∧ t.team? (Claims.named m) = some { tm2 with
        leases := tm2.leases ++ [l]
        descs := tm2.descs.map fun d => if d.tid = l.tid then { d with nlease := d.nlease + 1 } else d } ∧
      Claims.Answered s t ms m.src (Claims.answer s m tm 0x01 0#64)) ∧
  (∀ s m ms tm, Claims.Debugs s 0x15 m ms tm →
    tm.leaseFor (s.flatWords (64 * ((m.tok 0).toNat / 2 ^ 8 % 2 ^ 24 + (m.tok 0).toNat / 2 ^ 38 % 2 ^ 20 * 2 ^ 24)) 8) = none →
    ∃ t, exec .lease s = .next t ∧ Claims.OnlySends s t ∧ Claims.Answered s t ms m.src (Claims.answer s m tm 0x05 0#64)) ∧
  (∀ s m ms tm r, Claims.Debugs s 0x16 m ms tm → tm.faults.get? ((m.tok 0).toNat / 2 ^ 8 % 2 ^ 6) = some r →
    ∃ t tm', exec .resolve s = .next t ∧ t.team? (Claims.named m) = some tm' ∧
      tm'.faults.get? ((m.tok 0).toNat / 2 ^ 8 % 2 ^ 6) = some { r with resolved := true } ∧
      (∀ i, i ≠ (m.tok 0).toNat / 2 ^ 8 % 2 ^ 6 → tm'.faults.get? i = tm.faults.get? i) ∧
      Claims.Answered s t ms m.src (Claims.answer s m tm 0x01 0#64)) ∧
  (∀ s m ms tm, Claims.Debugs s 0x16 m ms tm → tm.faults.get? ((m.tok 0).toNat / 2 ^ 8 % 2 ^ 6) = none →
    ∃ t, exec .resolve s = .next t ∧ Claims.OnlySends s t ∧ Claims.Answered s t ms m.src (Claims.answer s m tm 0x0B 0#64))

/-- R313, R314: an element port-blocked on one edge for a multiple of 4,096 cycles sends a probe along it; a probe passes on from
blocked elements up to 64 hops (log 114), and one that is back at its sender raises DEADLOCK in the highest element of its cycle,
with which the core freezes. -/
def Sys2Proof.Claims.ProbesProveDeadlocks : Prop :=
  (∀ s c e g, Claims.At s c e → s.awaited s.key s.here.pos = some g → 4096 < e.blocked → e.blocked % 4096 = 1 → e.edge = g.code →
    exec .deadlockProbe s = .next { s with turns := s.turns ++
      [.event .probeArrival ⟨s.here.ctx, s.here.core, g.target, s.here.pos, 1⟩] }) ∧
  (∀ s c g, s.core? s.key = some c → s.awaited s.key s.here.pos = some g → s.here.pos ≠ s.here.idx → s.here.val < 64 →
    exec .probeArrival s = .next { s with turns := s.turns ++
      [.event .probeArrival ⟨s.here.ctx, s.here.core, g.target, s.here.idx, s.here.val + 1⟩] }) ∧
  (∀ s c g, s.core? s.key = some c → s.here.pos ≠ s.here.idx → (s.awaited s.key s.here.pos = none ∨
    (s.awaited s.key s.here.pos = some g ∧ 64 ≤ s.here.val)) → exec .probeArrival s = .next s) ∧
  (∀ s c g h v x tm p, s.core? s.key = some c → s.here.idx = s.here.pos → c.frozen = false → s.awaited s.key s.here.pos = some g →
    g.target ≠ s.here.pos → s.awaited s.key g.target = some h → h.target = s.here.pos → v = max s.here.pos g.target →
    s.awaited s.key v = some x → s.team? s.here.ctx = some tm → (∀ r ∈ tm.recs, r.code ≠ 0x08) →
    tm.freePos (s.here.core / 2) = some p → s.flat.wf = true → c.raised = [] → c.ringFull = false →
    ∃ t c', exec .probeArrival s = .next t ∧ t.core? s.key = some c' ∧ c' = { c with frozen := true, elems := c'.elems } ∧
      t.flat.readN (tm.quadPlace (s.here.core / 2) + 0x170000 + 64 * p) 24 = wordsBytes
        [BitVec.ofNat 64 (0x08 + 2 ^ 10 + s.here.core % 2 ^ 16 * 2 ^ 16 + s.here.ctx * 2 ^ 32 + v * 2 ^ 38 + x.slot * 2 ^ 44), 2#64,
          BitVec.ofNat 64 (x.qp + if x.isPort then 4 else 0)])

/-- R315, R317: a team without progress for 2^LGWD cycles freezes with one HANG record and notice and counts again from 0 (log 70);
an uncorrectable error raises the score of its resource, discards the speculative instance in which it lies (R255), leaves its
record and begins the end of the team. -/
def Sys2Proof.Claims.HangsAndErrorsStopTeams : Prop :=
  (∀ s tm, s.team? s.here.ctx = some tm → (tm.phase = .running ∨ tm.phase = .parked) → 2 ^ tm.launch.wd ≤ tm.watchdog → tm.recs = [] →
    (∀ n < 2 * tm.launch.quads, s.foreground (s.here.ctx, n) = true) → tm.launch.hh = true → tm.launch.dk = true →
    ∃ t tm' idx, exec .hangFreeze s = .next t ∧ Claims.AllFrozen s t s.here.ctx ∧ t.team? s.here.ctx = some tm' ∧
      tm'.watchdog = 0 ∧ (∃ r, tm'.recs = [r] ∧ r.code = 0x0D ∧ r.index = idx) ∧ t.hbm = s.hbm ∧
      t.host.out = s.host.out ++ [(tm.launch.dest, none, Claims.noticeWords 0x0D s.here.ctx idx 1 s.time)]) ∧
  (∀ s tm, s.team? s.here.ctx = some tm → tm.phase = .running → tm.watchdog < 2 ^ tm.launch.wd →
    exec .hangFreeze s = .next s) ∧
  (∀ s tm p, s.team? s.here.ctx = some tm → tm.phase = .running → tm.ending = none → s.here.pos ≠ 5 → s.here.pos ≠ 6 →
    s.here.pos ≠ 8 → s.here.val ≠ 1 → tm.freePos (s.here.core / 2) = some p → tm.launch.hh = true → s.flat.wf = true →
    (∀ c, s.core? s.key = some c → ∀ r ∈ c.runs, r.spec = false) →
    let pc := tm.physCore s.here.core
    let a := tm.quadPlace (s.here.core / 2) + 0x170000 + 64 * p
    ∃ t tm', exec .uncorrectableError s = .next t ∧ Claims.AllStopped s t s.here.ctx ∧ t.team? s.here.ctx = some tm' ∧
      tm'.phase = .ending ∧ tm'.ending = some (0x08 + 256 * 0x0C + 65536 * (s.here.core / 2 * 512 + p)) ∧
      (t.res .core pc).score = min ((s.res .core pc).score + 0x8000) 0xFFFF ∧ (t.res .core pc).uncorrected = true ∧
      t.flat.readN a 24 = wordsBytes [BitVec.ofNat 64 (0x0C + 3 * 2 ^ 8 + 2 ^ 10 + s.here.core % 2 ^ 16 * 2 ^ 16 + s.here.ctx * 2 ^ 32),
        BitVec.ofNat 64 s.here.pos, BitVec.ofNat 64 s.here.core]) ∧
  (∀ s tm c e r, s.team? s.here.ctx = some tm → tm.phase = .running → tm.ending = none → s.here.pos ≤ 2 → s.here.val ≠ 1 →
    s.core? s.key = some c → c.elem? s.here.idx = some e → e.run = some r.id → c.runs = [r] → r.spec = true → r.reissue = false →
    ∃ t c' r', exec .uncorrectableError s = .next t ∧ t.core? s.key = some c' ∧ c'.runs = [r'] ∧ r'.status.squashed = true ∧
      r'.inputs = [] ∧ (∀ b ∈ c'.buf, b.run ≠ r.id) ∧ c'.walker.lstat = r'.status.word)

/-- R345, R346, R348: what a corrected error adds to a score, up to 0xFFFF; a port, channel or link half whose score reaches
RETIRE is retired at once, a quad's part only once it is withdrawn; and how a score in service, and under no test lease, falls
(R345, R347), but for a failed link's second half (R349). -/
def Sys2Proof.Claims.ScoresRiseAndDecay : Prop :=
  ∀ s, let k := Claims.resource s.here.pos
    let r := s.res k s.here.idx
    let u := { r with score := min (r.score + (if s.here.val = 0 then 32 else if s.here.val = 1 then 4 else 4096)) 0xFFFF }
    let other := s.res .linkHalf (if s.here.idx % 2 = 0 then s.here.idx + 1 else s.here.idx - 1)
    (u.score < 0xC000 ∨ k = .core ∨ k = .mcore ∨ k = .engine ∨ r.inService = false →
      ∃ t, exec .correctedError s = .next t ∧ t = { s with health := t.health } ∧ t.res k s.here.idx = u ∧
        ∀ k' n, (k', n) ≠ (k, s.here.idx) → t.res k' n = s.res k' n) ∧
    (0xC000 ≤ u.score → k ≠ .core → k ≠ .mcore → k ≠ .engine → r.inService = true → (k = .linkHalf → other.inService = true) →
      ∃ t, exec .correctedError s = .next t ∧
        Claims.Retired { s with health := t.health } t k (if r.uncorrected then 2 else 1) 0 ∧ (t.res k s.here.idx).score = u.score) ∧
    ∃ t, exec .scoreDecay s = .next t ∧ t = { s with health := t.health } ∧
      t.res k s.here.idx = { r with score :=
        if r.inService ∧ ¬ r.leased ∧ ¬ (k = .linkHalf ∧ r.score = 0xFFFF ∧ other.inService = false) then r.score - 1 else r.score } ∧
      ∀ k' n, (k', n) ≠ (k, s.here.idx) → t.res k' n = s.res k' n

/-! ### Health, migration and power (R343 to R356, R364, R369 to R375) -/

namespace Sys2Proof.Claims

/-- R374: the package has shut down for a cause (1 TSTOP, 2 loss of the reference). -/
def ShutDown (s t : State) (cause : Nat) : Prop :=
  t.off = true ∧ t.teams = [] ∧ t.cores = [] ∧ t.mcores = [] ∧ t.engines = [] ∧ t.flat = [] ∧ t.hbm = [] ∧
  t.mgmt.ready = false ∧ t.mgmt.shutdown = some (cause, s.time) ∧
  (∃ out ws, t.host.out = out ++ [(0, none, ws)] ∧ ws.length = 4 ∧ (ws.headD 0#64).toNat % 256 = 0x41) ∧
  ∀ x ∈ s.teams, s.team? x.1 = some x.2 → x.2.launch.dk = true →
    (x.2.launch.dest, none, statusWords 0x08 0 x.2.launch.tag (some x.1) 0#64 s.time) ∈ t.host.out

/-- Logical quad `q` of team `ctx` is the only context on physical quad `p`. -/
def StandsOn (s : State) (ctx : Nat) (tm : Team) (q p : Nat) : Prop :=
  (s.physOf (2 * p)).res = [ctx] ∧ s.team? ctx = some tm ∧ (tm.place.findIdx? fun x => x == p) = some q ∧ tm.launch.ft = false ∧
    q ∉ tm.evicted ∧ tm.migrations = []

/-- R349: if the resource of this turn is a link half, the link's other half is in service. -/
def HalfOk (s : State) (k : ResKind) : Prop :=
  k = .linkHalf → (s.res .linkHalf (if s.here.idx % 2 = 0 then s.here.idx + 1 else s.here.idx - 1)).inService = true

/-- A resource under its test lease, and cleared (R347). -/
def Leased (s : State) (k : ResKind) : Prop :=
  k = resource s.here.pos ∧ (s.res k s.here.idx).leased = true ∧ s.cleared k s.here.idx = true

/-- R369, in watts: picojoules in 100 microseconds, and the static power. -/
def estimate (s : State) : Rat :=
  (s.phys.map fun x => (((s.power.weights.zip (s.deltas x.1)).map fun y => y.1 * (y.2 : Rat)).sum)).sum / 100000000 +
    s.power.static / 1000000000000

/-- The budget of the interval that begins (R375). -/
def budget (s : State) : Rat := (s.power.pending.getD s.power.budget : Nat)

/-- The power state once this interval's step has been taken. -/
def After' (s t : State) (p : Power → Prop) : Prop :=
  exec .powerInterval s = .next t ∧ p t.power ∧ t.power.budget = s.power.pending.getD s.power.budget ∧ t.power.pending = none ∧
    t.power.weights = s.power.weights ∧ t.flat = s.flat ∧ t.hbm = s.hbm

/-- Table 26.2, R380: measured by MR i, up to these lengths. -/
def limits : List Nat := [2 ^ 20, 2 ^ 21, 2 ^ 20, 2 ^ 26, 2 ^ 16]

/-- The oldest request of the host is a write of a word at an offset of the register window, which is open (R379). -/
def Writes (s : State) (off : Nat) (v : W64) (rs : List HostReq) : Prop :=
  s.host.reqs = .write 1 off (wordBytes v) :: rs ∧ 1 ≤ s.mgmt.stage ∧ off % 8 = 0

/-- The write is acknowledged, and nothing but `mgmt`, `power` and `fabric` may have changed. -/
def Acked (s t : State) (rs : List HostReq) : Prop :=
  t = { s with mgmt := t.mgmt, power := t.power, fabric := t.fabric,
               host := { s.host with reqs := rs, replies := s.host.replies ++ [.ack] } }

/-- The oldest request is answered and nothing else happens. -/
def Replies (s : State) (i : Instr) (rs : List HostReq) (r : HostReply) : Prop :=
  exec i s = .next { s with host := { s.host with reqs := rs, replies := s.host.replies ++ [r] } }

/-- R377: an access of `len` bytes at `off` of window `n` fails. -/
def WindowFails (s : State) (n off len : Nat) (write : Bool) : Prop :=
  let w := s.mgmt.window n
  w.valid = false ∨ w.len < off + len ∨ (write = true ∧ w.w = false) ∨ s.team? w.ctx = none ∨
    (∃ tm, s.team? w.ctx = some tm ∧ tm.phase = .waiting ∧ tm.leasesHeld = false) ∨
    s.rangeOk w.ctx w.tid (w.base + off) len (if write then .store else .load) = none

/-- Table 26.3, bytes 0 to 383. -/
def report (s : State) : List Byte :=
  wordBytes 0x801#64 ++ s.mgmt.nonce ++ (List.range 8).flatMap (fun i => at' s.mgmt.mr i []) ++ wordBytes Config.serial ++
    wordBytes (BitVec.ofNat 64 s.time) ++ wordBytes (BitVec.ofNat 64 s.mgmt.deaccessions.length) ++ List.replicate 64 0#8

/-- R382: a signature of RSASSA-PSS by the part's key, with some salt of 32 bytes: as numbers, the highest byte first, the encoded
message to the power of the private exponent, modulo the modulus (log 8). -/
def Signs (message sig : List Byte) : Prop :=
  let number (bs : List Byte) : Nat := bs.foldl (fun n b => n * 256 + b.toNat) 0
  ∃ salt, salt.length = 32 ∧
    number sig = number (pssEncode message salt) ^ Config.keyExponent.toNat % (2 ^ 3071 + Config.keyModulus.toNat)

end Sys2Proof.Claims

/-- R344, R347, R353: on a die under no test the resource that goes first gets a test lease; one whose score is at TESTNOW goes
before all others, the highest score first (a failed link's second half is not tested again, log 71); the contexts of its quad
are asked to migrate. -/
def Sys2Proof.Claims.ResourcesAreWithdrawn : Prop :=
  (∀ (s : State) k n, (∀ x ∈ s.health.res, x.2.leased = true → x.1.2 / perDie x.1.1 ≠ s.here.idx) → s.nextTest s.here.idx = some (k, n) →
    ∃ t, exec .conservatorWithdraw s = .next t ∧ (t.res k n) = { s.res k n with leased := true, served := s.servedTicks (s.res k n) } ∧
      (k = .port → (t.fabric.port n).wdrawn = true) ∧
      ((k = .core ∨ k = .mcore ∨ k = .engine) → ∀ ctx tm q, Claims.StandsOn s ctx tm q (n / 2) → q < tm.launch.quads →
        t.team? ctx = some { tm with migrations := [⟨q, if 0xC000 ≤ (s.res k n).score then 1 else 0, false, [], 0⟩] })) ∧
  (∀ (s : State) die k n, (∀ x ∈ s.health.res, x.2.score ≤ 0xFFFF) → s.nextTest die = some (k, n) → (s.res k n).inService = true ∧ n / perDie k = die ∧
    ∀ k' n', n' / perDie k' = die → (s.res k' n').inService = true → s.stuckHalf k' n' = false →
      (0x4000 ≤ (s.res k' n').score → (s.res k' n').score ≤ (s.res k n).score) ∧
      ((s.res k n).score < 0x4000 → (s.res k n).lastTest + Config.tPeriod ≥ s.time →
        (s.res k' n').score ≤ (s.res k n).score ∧ (s.res k' n').lastTest + Config.tPeriod ≥ s.time)) ∧
  (∀ (s : State) x, x ∈ s.health.res → x.2.leased = true → x.1.2 / perDie x.1.1 = s.here.idx → exec .conservatorWithdraw s = .next s)

/-- R348, R349, Tables 23.3 and 23.4: a test returns its resource with its new score and time, or retires it with a record; a
score at RETIRE, before the test or by its result, retires it whatever the test says. The second half of a link stays. -/
def Sys2Proof.Claims.TestsReturnOrRetire : Prop :=
  (∀ s k, Claims.Leased s k → (s.res k s.here.idx).score < 0xC000 → s.here.val % 4 < 2 →
    let score := if s.here.val % 4 = 1 then min ((s.res k s.here.idx).score + 1024) 0xFFFF else (s.res k s.here.idx).score / 2
    let u := s.modRes k s.here.idx fun r => { r with score := score, lastTest := s.time }
    (score < 0xC000 → ∃ t, exec .testComplete s = .next t ∧ t.mgmt = s.mgmt ∧ t.teams = s.teams ∧
      t.res k s.here.idx = { s.res k s.here.idx with score := score, lastTest := s.time, leased := false, since := s.ticks }) ∧
    (0xC000 ≤ score → Claims.HalfOk s k → ∃ t, exec .testComplete s = .next t ∧
      Claims.Retired u t k (if (s.res k s.here.idx).uncorrected then 2 else 1) 0)) ∧
  (∀ s k, Claims.Leased s k → Claims.HalfOk s k → (s.res k s.here.idx).score < 0xC000 → s.here.val % 4 = 2 →
    ∃ t, exec .testComplete s = .next t ∧ Claims.Retired s t k 0 (s.here.val / 4)) ∧
  (∀ s k, Claims.Leased s k → Claims.HalfOk s k → 0xC000 ≤ (s.res k s.here.idx).score →
    ∃ t, exec .testComplete s = .next t ∧ Claims.Retired s t k (if (s.res k s.here.idx).uncorrected then 2 else 1) 0) ∧
  (∀ s, Claims.Leased s .linkHalf → 0xC000 ≤ (s.res .linkHalf s.here.idx).score → ¬ Claims.HalfOk s .linkHalf →
    ∃ t, exec .testComplete s = .next t ∧ (t.res .linkHalf s.here.idx).score = 0xFFFF ∧
      (t.res .linkHalf s.here.idx).inService = (s.res .linkHalf s.here.idx).inService ∧ t.mgmt = s.mgmt)

/-- R352, R374: a sample below TSTOP marks its quad hot from TMIG until it falls below TCLEAR, and from TMIG on asks its context to
migrate, at its next fire boundary from TFORCE on; TSTOP and the loss of the reference shut the package down and empty its memory
(log 82). -/
def Sys2Proof.Claims.HeatMigratesAndStops : Prop :=
  (∀ s, s.off = true → exec .thermalSample s = .next s) ∧
  (∀ s, s.off = false → 115 ≤ s.here.val → ∃ t, exec .thermalSample s = .next t ∧ Claims.ShutDown s t 1) ∧
  (∀ s, s.off = false → ∃ t, exec .referenceLoss s = .next t ∧ Claims.ShutDown s t 2) ∧
  (∀ s, s.off = false → s.here.val < 115 →
    let was := ((s.health.heat.get? s.here.idx).map (·.hot)).getD false
    ∃ t h, exec .thermalSample s = .next t ∧ t.health.heat.get? s.here.idx = some h ∧ h.celsius = s.here.val ∧
      (95 ≤ s.here.val → h.hot = true) ∧ (s.here.val < 90 → h.hot = false) ∧ (90 ≤ s.here.val → s.here.val < 95 → h.hot = was) ∧
      (s.here.val < 95 → t.teams = s.teams) ∧
      (95 ≤ s.here.val → ∀ ctx tm q, Claims.StandsOn s ctx tm q s.here.idx → q < tm.launch.quads →
        t.team? ctx = some { tm with migrations := [⟨q, 2, decide (105 ≤ s.here.val), [], 0⟩] }))

/-- R351, R353, R354: a wait of MIGWAIT makes the next fire boundary the migration point; a quad whose cores have reached it, with
all landed and committed, stands on another quad, its contexts as they were; without a place it is to be suspended. -/
def Sys2Proof.Claims.QuadsMigrate : Prop :=
  (∀ s tm, s.team? s.here.ctx = some tm →
    ∃ t, exec .migwaitExpiry s = .next t ∧ t.team? s.here.ctx = some { tm with migrations := tm.migrations.map fun m =>
      if m.lquad = s.here.idx ∧ 2 ^ 20 ≤ m.waited then { m with forced := true } else m }) ∧
  (∀ s tm q m p, s.team? s.here.ctx = some tm → s.here.idx = q → tm.phase = .running → tm.launch.ft = false → q < tm.place.length →
    m ∈ tm.migrations → m.lquad = q → 2 * q ∈ m.reached → 2 * q + 1 ∈ m.reached → s.quadQuiet s.here.ctx q = true →
    s.findQuads s.here.ctx tm Config.quads 1 0 = [p] → p ≠ tm.place.getD q 0 →
    ∃ t tm', exec .migration s = .next t ∧ t.team? s.here.ctx = some tm' ∧ tm'.place = tm.place.set q p ∧
      (∀ x ∈ tm'.migrations, x.lquad ≠ q) ∧ t.flat = s.flat ∧ t.hbm = s.hbm ∧
      (∀ h < 2, s.here.ctx ∈ (t.physOf (2 * p + h)).res ∧ s.here.ctx ∉ (t.physOf (2 * tm.place.getD q 0 + h)).res) ∧
      ∀ h < 2, ∀ c, s.core? (s.here.ctx, 2 * q + h) = some c →
        ∃ c', t.core? (s.here.ctx, 2 * q + h) = some c' ∧ c'.resident = true ∧ c'.elems = c.elems ∧ c'.mes = c.mes ∧
          c'.ses = c.ses ∧ c'.walker = c.walker ∧ c'.runs = c.runs ∧ c'.buf = c.buf ∧ c'.upper = c.upper ∧ c'.cyc = c.cyc) ∧
  (∀ s tm q m, s.team? s.here.ctx = some tm → s.here.idx = q → tm.phase = .running → tm.launch.ft = false → tm.launch.cap = true →
    q ∉ tm.leaving → q ∉ tm.evicted → m ∈ tm.migrations → m.lquad = q → 2 * q ∈ m.reached → 2 * q + 1 ∈ m.reached →
    s.quadQuiet s.here.ctx q = true → s.findQuads s.here.ctx tm Config.quads 1 0 = [] →
    ∃ t, exec .migration s = .next t ∧ t.team? s.here.ctx = some { tm with leaving := tm.leaving ++ [q] } ∧ t.cores = s.cores)

/-- R369, R371, R372, R375: at an interval a new budget takes effect and the estimate stands in PEST, rounded down to watts (log
80); above the budget the next step of R371 is taken, below nine tenths of it for ten intervals the last one is undone; the cores
narrowed are those of highest estimate with an elastic context, and no fixed-timing context is held. -/
def Sys2Proof.Claims.PowerStepsFollowTheBudget : Prop :=
  (∀ s, ∃ t, Claims.After' s t fun p => p.pest = min (Claims.estimate s).floor.toNat 8191) ∧
  (∀ s, Claims.budget s < Claims.estimate s → s.power.step = 0 → ∃ t, Claims.After' s t fun p =>
    p.step = 1 ∧ p.smin = s.power.smin ∧ p.overs = 0 ∧
    (∀ x ∈ p.narrowed, x.2 = none ∧ (∃ y ∈ s.phys, y.1 = x.1 ∧ ∃ c ∈ y.2.res, s.fixedTiming c = false) ∧
      ∀ y ∈ s.phys, (∃ c ∈ y.2.res, s.fixedTiming c = false) → s.coreEnergy y.1 ≤ s.coreEnergy x.1) ∧
    ∀ h ∈ p.holds, s.fixedTiming h.2.1 = false) ∧
  (∀ s, Claims.budget s < Claims.estimate s → s.power.step = 1 → ∃ t, Claims.After' s t fun p => p.step = 2 ∧ 1 ≤ p.smin ∧ p.smin ≤ 4) ∧
  (∀ s, Claims.budget s < Claims.estimate s → s.power.step = 2 → ∃ t, Claims.After' s t fun p => p.step = 3 ∧ p.smin = s.power.smin) ∧
  (∀ s, Claims.budget s < Claims.estimate s → s.power.step = 3 → s.power.overs + 1 < 10 → ∃ t, Claims.After' s t fun p =>
    p.step = 3 ∧ p.overs = s.power.overs + 1 ∧ p.ftout = s.power.ftout) ∧
  (∀ s ctx tm, Claims.budget s < Claims.estimate s → s.power.step = 3 → s.power.overs = 9 → s.power.ftout = false →
    s.lowestFixed = some ctx → s.team? ctx = some tm →
    ∃ t tm', Claims.After' s t (fun p => p.ftout = true ∧ p.overs = 0) ∧ t.team? ctx = some tm' ∧ tm'.powerOut = true ∧
      tm'.epochOpen = false) ∧
  (∀ s, Claims.estimate s < Claims.budget s * 9 / 10 → s.power.unders + 1 < 10 → ∃ t, Claims.After' s t fun p =>
    p.step = s.power.step ∧ p.unders = s.power.unders + 1 ∧ p.overs = 0) ∧
  (∀ s, Claims.estimate s < Claims.budget s * 9 / 10 → s.power.unders = 9 → s.power.ftout = true →
    ∃ t, Claims.After' s t (fun p => p.ftout = false ∧ p.step = s.power.step) ∧ ∀ x ∈ t.teams, x.2.powerOut = false) ∧
  (∀ s, Claims.estimate s < Claims.budget s * 9 / 10 → s.power.unders = 9 → s.power.ftout = false → s.power.step ≤ 3 →
    ∃ t, Claims.After' s t fun p => p.step = s.power.step - 1 ∧ (s.power.step = 2 → p.smin = 0) ∧
      (s.power.step = 1 → p.narrowed = [] ∧ p.holds = [])) ∧
  (∀ s, Claims.estimate s ≤ Claims.budget s → Claims.budget s * 9 / 10 ≤ Claims.estimate s → ∃ t, Claims.After' s t fun p =>
    p.step = s.power.step ∧ p.smin = s.power.smin ∧ p.overs = 0 ∧ p.unders = 0)

/-- R370: the weights and P after a second with a reading, as exact fractions (log 9); without one they stay. -/
def Sys2Proof.Claims.WeightsAreRefitted : Prop :=
  (∀ s, s.here.idx ≠ 1 → ∃ t, exec .rlsUpdate s = .next t ∧ t.power.weights = s.power.weights ∧ t.power.static = s.power.static ∧
    t.power.p = s.power.p) ∧
  (∀ s, s.here.idx = 1 → s.power.weights.length = 24 → s.power.secondTotals.length = 24 → s.power.p.length = 25 →
    (∀ r ∈ s.power.p, r.length = 25) →
    let phi (i : Nat) : Rat := if i = 24 then 1 else (((s.phys.map fun x => at' x.2.totals i 0).sum - s.power.secondTotals.getD i 0 : Nat) : Rat)
    let w (i : Nat) : Rat := if i = 24 then s.power.static else s.power.weights.getD i 0
    let P (i j : Nat) : Rat := (s.power.p.getD i []).getD j 0
    let Pphi (i : Nat) : Rat := ((List.range 25).map fun j => P i j * phi j).sum
    let phiP (j : Nat) : Rat := ((List.range 25).map fun i => phi i * P i j).sum
    let g (i : Nat) : Rat := Pphi i / (998 / 1000 + ((List.range 25).map fun j => phi j * Pphi j).sum)
    let e : Rat := (s.here.val : Rat) - ((List.range 25).map fun i => w i * phi i).sum
    ∃ t, exec .rlsUpdate s = .next t ∧
      (∀ i < 24, t.power.weights.getD i 0 = max (Config.weightMin i) (min (w i + g i * e) (Config.weightMax i))) ∧
      t.power.static = max (Config.weightMin 24) (min (w 24 + g 24 * e) (Config.weightMax 24)) ∧
      ∀ i < 25, ∀ j < 25, (t.power.p.getD i []).getD j 0 = (P i j - g i * phiP j) / (998 / 1000))

/-- R259, R376, R377, R379: the host's RDMA: reads and writes of a tensor window reach its bytes of the tensor, and after a write
no LE keeps a block from before it (log 98); a launch image reaches flat memory (log 72); an access that fails its window, a request
that is refused and an access to the register window that is no aligned word are NAKed and do nothing; before READY a write is not
answered. -/
def Sys2Proof.Claims.HostReachesTensorsThroughWindows : Prop :=
  (∀ s rkey off bs rs tn, s.host.reqs = .write rkey off bs :: rs → s.mgmt.ready = true → 16 ≤ rkey → rkey ≤ 79 →
    let w := s.mgmt.window (rkey - 16)
    w.valid = true → w.w = true → off + bs.length ≤ w.len → (∃ tm, s.team? w.ctx = some tm ∧ (tm.phase ≠ .waiting ∨ tm.leasesHeld = true)) →
    s.rangeOk w.ctx w.tid (w.base + off) bs.length .store = some tn →
    ∃ t, exec .rdmaWrite s = .next t ∧ t.host.reqs = rs ∧ t.host.replies = s.host.replies ++ [.ack] ∧
      (∀ k c, s.core? k = some c → (s.team? k.1).isSome = true → ∃ c', t.core? k = some c' ∧ Claims.WithoutBeats c c') ∧
      t.flat = (s.setTensorBytes w.ctx tn (fun _ x => x.cur) (w.base + off) bs).flat ∧
      t.hbm = (s.setTensorBytes w.ctx tn (fun _ x => x.cur) (w.base + off) bs).hbm) ∧
  (∀ s rkey off len rs tn, s.host.reqs = .read rkey off len :: rs → s.mgmt.ready = true → 16 ≤ rkey → rkey ≤ 79 →
    let w := s.mgmt.window (rkey - 16)
    w.valid = true → off + len ≤ w.len → (∃ tm, s.team? w.ctx = some tm ∧ (tm.phase ≠ .waiting ∨ tm.leasesHeld = true)) →
    s.rangeOk w.ctx w.tid (w.base + off) len .load = some tn →
    Claims.Replies s .rdmaRead rs (.data (s.tensorBytes w.ctx tn (w.base + off) len))) ∧
  (∀ s rkey off bs rs, s.host.reqs = .write rkey off bs :: rs → s.mgmt.ready = true → 16 ≤ rkey → rkey ≤ 79 →
    Claims.WindowFails s (rkey - 16) off bs.length true → Claims.Replies s .rdmaWrite rs (.nak .access)) ∧
  (∀ s rkey off len rs, s.host.reqs = .read rkey off len :: rs → s.mgmt.ready = true → 16 ≤ rkey → rkey ≤ 79 →
    Claims.WindowFails s (rkey - 16) off len false → Claims.Replies s .rdmaRead rs (.nak .access)) ∧
  (∀ s rkey off len rs, s.host.reqs = .read rkey off len :: rs → s.mgmt.ready = true → rkey ≠ 1 → rkey < 16 ∨ 79 < rkey →
    Claims.Replies s .rdmaRead rs (.nak .other)) ∧
  (∀ s off bs rs, s.host.reqs = .image off bs :: rs → s.mgmt.ready = true → off + bs.length ≤ 2 ^ 48 →
    ∃ t, exec .rdmaWrite s = .next t ∧ t.host.reqs = rs ∧ t.host.replies = s.host.replies ++ [.ack] ∧
      t.flat = (s.setFlat off bs).flat ∧ t.hbm = s.hbm ∧ t.cores = s.cores ∧ t.mcores = s.mcores) ∧
  (∀ s r rs, s.host.reqs = r :: rs → s.mgmt.ready = false → (∃ off bs, r = .image off bs) ∨ (∃ k off bs, r = .write k off bs ∧ k ≠ 1) →
    exec .rdmaWrite s = .next { s with host := { s.host with reqs := rs } }) ∧
  (∀ s rs, s.host.reqs = .refused :: rs → Claims.Replies s .refusedRequest rs (.nak .invalid)) ∧
  (∀ s off bs rs, s.host.reqs = .write 1 off bs :: rs → 1 ≤ s.mgmt.stage → bs.length ≠ 8 ∨ off % 8 ≠ 0 →
    Claims.Replies s .registerWrite rs (.nak .other)) ∧
  (∀ s off len rs, s.host.reqs = .read 1 off len :: rs → 1 ≤ s.mgmt.stage → len ≠ 8 ∨ off % 8 ≠ 0 →
    Claims.Replies s .rdmaRead rs (.nak .other))

/-- R375, R379, Tables 25.3, 26.1 and 27.3: what the host reads and writes in the register window: the budget, clamped; the windows,
whose VALID a team-local identifier clears; the queue bindings, the ports, routes and pod groups; the weights as FP32 (log 9), which
an FP32 number reads back as itself. -/
def Sys2Proof.Claims.RegistersReadAndWrite : Prop :=
  (∀ s v rs, Claims.Writes s 0x000 v rs → ∃ t, exec .pbudgetWrite s = .next t ∧ Claims.Acked s t rs ∧
    t.power = { s.power with pending := some (max 1000 (min 4800 (v.toNat % 2 ^ 13))) } ∧ t.mgmt = s.mgmt ∧ t.fabric = s.fabric) ∧
  (∀ s n v rs, n < 64 → Claims.Writes s (0x1000 + 32 * n) v rs → ∃ t, exec .windowDescriptorWrite s = .next t ∧ Claims.Acked s t rs ∧
    t.mgmt.window n = { s.mgmt.window n with
      valid := v.getLsbD 0 && decide (v.toNat / 2 ^ 8 % 2 ^ 20 < 0xF0000), w := v.getLsbD 1
      ctx := v.toNat / 2 ^ 2 % 2 ^ 6, tid := v.toNat / 2 ^ 8 % 2 ^ 20 }) ∧
  (∀ s n v rs, n < 64 → Claims.Writes s (0x1008 + 32 * n) v rs → ∃ t, exec .windowDescriptorWrite s = .next t ∧ Claims.Acked s t rs ∧
    t.mgmt.window n = { s.mgmt.window n with base := v.toNat % 2 ^ 48 }) ∧
  (∀ s n v rs, n < 64 → Claims.Writes s (0x1010 + 32 * n) v rs → ∃ t, exec .windowDescriptorWrite s = .next t ∧ Claims.Acked s t rs ∧
    t.mgmt.window n = { s.mgmt.window n with len := v.toNat % 2 ^ 48 }) ∧
  (∀ s q v rs, 1 ≤ q → q < 256 → Claims.Writes s (0x2000 + 8 * q) v rs → ∃ t, exec .registerWrite s = .next t ∧ Claims.Acked s t rs ∧
    t.mgmt.hqmap.get? q = some (v &&& 0x7FFFFFF#64)) ∧
  (∀ s p v rs, p < 96 → Claims.Writes s (0x18100 + 8 * p) v rs → ∃ t, exec .registerWrite s = .next t ∧ Claims.Acked s t rs ∧
    t.fabric.port p = { s.fabric.port p with en := v.getLsbD 0, dl := v.getLsbD 1 }) ∧
  (∀ s g v rs, g < 0x10000 → Claims.Writes s (0x40000 + 8 * g) v rs → ∃ t, exec .registerWrite s = .next t ∧ Claims.Acked s t rs ∧
    t.fabric.groups.get? g = some ⟨v.getLsbD 0, v.toNat / 2 ^ 16 % 2 ^ 16, v.toNat / 2 ^ 32 % 2 ^ 16, v.toNat / 2 ^ 48 % 2 ^ 14⟩) ∧
  (∀ s rs, 1 ≤ s.mgmt.stage → ∀ x ∈ [(0x008, s.power.pest + s.power.pmeas * 2 ^ 13),
      (0x010, s.power.step + s.power.smin * 4 + if s.power.ftout then 32 else 0),
      (0x800, s.mgmt.stage + (if s.mgmt.ready then 8 else 0) + s.mgmt.fail * 16), (0x2820, s.mgmt.hqdrop.toNat),
      (0x3228, (if s.mgmt.busy then 1 else 0) + (if s.mgmt.done then 2 else 0) + if s.mgmt.dropped then 4 else 0),
      (0x6000, s.mgmt.deaccessions.length), (0x18000, s.fabric.pkgid)],
    s.host.reqs = .read 1 x.1 8 :: rs → ∃ t, exec .rdmaRead s = .next t ∧ t.host.reqs = rs ∧ t.teams = s.teams ∧ t.mgmt = s.mgmt ∧
      t.host.replies = s.host.replies ++ [.data (wordBytes (BitVec.ofNat 64 x.2))]) ∧
  (∀ s i rs, 1 ≤ s.mgmt.stage → i < 24 → s.host.reqs = .read 1 (0x040 + 8 * i) 8 :: rs →
    ∃ t, exec .rdmaRead s = .next t ∧ t.host.reqs = rs ∧ t.mgmt = s.mgmt ∧
      t.host.replies = s.host.replies ++ [.data (wordBytes ((fp32Of (s.power.weights.getD i 0)).setWidth 64))]) ∧
  ∀ (x : W32) n m e, fp32.decode x.toNat = .num n m e → m ≠ 0 → fp32Of ((if n then -1 else 1) * (m : Rat) * (2 : Rat) ^ e) = x

/-- R380, R382: boot measures each stage that it loads and stops at one that is bad; an accepted ATTREQ
takes the snapshot that the report will hold, signed (log 8), and while BUSY further requests and nonces only set DROPPED. -/
def Obligations.BootMeasuresAndAttests : Prop :=
  (∀ s (imgs : List (List Byte)), s.mgmt.flash = imgs.map (fun x : List Byte => (true, true, x)) → imgs.length = 5 →
    (∀ i < 5, (imgs.getD i []).length ≤ Claims.limits.getD i 0) →
    ∃ t, exec .powerOn s = .next t ∧ t.mgmt.stage = 5 ∧ t.mgmt.ready = true ∧ t.mgmt.fail = 0 ∧ t.power.budget = 4800 ∧ t.teams = [] ∧
      t.mgmt.deaccessions = s.mgmt.deaccessions ∧
      (∀ i < 5, at' t.mgmt.mr i [] = sha256 (List.replicate 32 0#8 ++ sha256 (imgs.getD i []))) ∧
      (∀ i, 5 ≤ i → i < 8 → at' t.mgmt.mr i [] = List.replicate 32 0#8) ∧
      ∀ k n, (t.res k n).score = (s.res k n).score ∧ (t.res k n).inService = (s.res k n).inService) ∧
  (∀ s i (imgs : List (List Byte)) a b x rest, s.mgmt.flash = imgs.map (fun x : List Byte => (true, true, x)) ++ (a, b, x) :: rest → imgs.length = i → i < 5 →
    (∀ j < i, (imgs.getD j []).length ≤ Claims.limits.getD j 0) →
    (a = false ∨ b = false ∨ Claims.limits.getD i 0 < x.length) →
    ∃ t, exec .powerOn s = .next t ∧ t.mgmt.stage = i ∧ t.mgmt.ready = false ∧
      t.mgmt.fail = (if a = false then 1 else if b = false then 2 else 3)) ∧
  (∀ s n v rs, n < 4 → Claims.Writes s (0x3200 + 8 * n) v rs → ∃ t, exec .nonceWrite s = .next t ∧ Claims.Acked s t rs ∧
    (s.mgmt.busy = true → t.mgmt = { s.mgmt with dropped := true }) ∧
    (s.mgmt.busy = false → s.mgmt.nonce.length = 32 →
      t.mgmt.nonce = s.mgmt.nonce.take (8 * n) ++ wordBytes v ++ s.mgmt.nonce.drop (8 * n + 8))) ∧
  (∀ s v rs, Claims.Writes s 0x3220 v rs → ∃ t, exec .attreq s = .next t ∧ Claims.Acked s t rs ∧
    (s.mgmt.busy = true → t.mgmt = { s.mgmt with dropped := true }) ∧
    (s.mgmt.busy = false → t.mgmt = { s.mgmt with busy := true, done := false, dropped := false, snapshot := Claims.report s })) ∧
  (∀ s, s.mgmt.busy = true → ∃ t sig ws, exec .reportComplete s = .next t ∧ t.mgmt.busy = false ∧ t.mgmt.done = true ∧
    t.mgmt.report = s.mgmt.snapshot ++ sig ∧ sig.length = 384 ∧ Claims.Signs s.mgmt.snapshot sig ∧ t.host.out = s.host.out ++ [(0, none, ws)] ∧ ws.length = 4 ∧
    (ws.headD 0#64).toNat % 256 = 0x42)

/-- R378: the oldest waiting message of a queue goes to the queue pair of its binding, one of queue 0 to its lowest bound port; a
message for an unbound queue is dropped and counted; a message behind another of its queue waits, and one whose receive queue is
not ready. -/
def Sys2Proof.Claims.HostQueuesKeepTheirOrder : Prop :=
  (∀ s q ctx ws, s.host.out[s.here.idx]? = some (q, ctx, ws) → (∃ x ∈ s.host.out.take s.here.idx, x.1 = q) →
    exec .hostMessageSend s = .next s) ∧
  (∀ s q ctx ws, s.host.out[s.here.idx]? = some (q, ctx, ws) → (∀ x ∈ s.host.out.take s.here.idx, x.1 ≠ q) → q ≠ 0 → s.host.closed = [] →
    let b := (s.mgmt.hqmap.get? q).getD 0#64
    ∃ t, exec .hostMessageSend s = .next t ∧ t.host.out = s.host.out.eraseIdx s.here.idx ∧
      (b.getLsbD 2 = true → t.host.sent = s.host.sent ++ [(q, b.toNat % 4, b.toNat / 2 ^ 3 % 2 ^ 24, ws)] ∧ t.mgmt = s.mgmt) ∧
      (b.getLsbD 2 = false → t.host.sent = s.host.sent ∧
        t.mgmt.hqdrop.toNat = min (s.mgmt.hqdrop.toNat + 1) (2 ^ 32 - 1))) ∧
  (∀ s ctx ws p, s.host.out[s.here.idx]? = some (0, ctx, ws) → (∀ x ∈ s.host.out.take s.here.idx, x.1 ≠ 0) →
    s.host.closed = [] → (ctx.isSome = true ∨ ws.length ≠ 4 ∨ (ws.headD 0#64).toNat % 256 ≠ 0x41) → p < 4 → (at' s.mgmt.hq0 p 0#64).getLsbD 0 = true → (∀ p' < p, (at' s.mgmt.hq0 p' 0#64).getLsbD 0 = false) →
    ∃ t, exec .hostMessageSend s = .next t ∧ t.host.out = s.host.out.eraseIdx s.here.idx ∧
      t.host.sent = s.host.sent ++ [(0, p, (at' s.mgmt.hq0 p 0#64).toNat / 2 % 2 ^ 24, ws)] ∧ t.mgmt = s.mgmt) ∧
  (∀ s q ctx ws, s.host.out[s.here.idx]? = some (q, ctx, ws) → q ∈ s.host.closed → q ≠ 0 →
    ((s.mgmt.hqmap.get? q).getD 0#64).getLsbD 2 = true → exec .hostMessageSend s = .next s) ∧
  (∀ s ws, s.host.out[s.here.idx]? = some (0, none, ws) → (∀ x ∈ s.host.out.take s.here.idx, x.1 ≠ 0) → ws.length = 4 → s.host.closed = [] →
    (ws.headD 0#64).toNat % 256 = 0x41 → (∃ p < 4, (at' s.mgmt.hq0 p 0#64).getLsbD 0 = true) →
    ∃ t, exec .hostMessageSend s = .next t ∧ t.mgmt = s.mgmt ∧ t.host.sent = s.host.sent ++
      ((List.range 4).filter fun p => (at' s.mgmt.hq0 p 0#64).getLsbD 0).map fun p => (0, p, (at' s.mgmt.hq0 p 0#64).toNat / 2 % 2 ^ 24, ws))

/-! ### The scale-up fabric (R383 to R396) -/

namespace Sys2Proof.Claims

/-- The fields of a flit lie in their widths (Table 27.1). -/
def InRange (f : Flit) : Prop :=
  f.vc < 8 ∧ f.pos < 4 ∧ f.seq < 4096 ∧ f.ackseq < 4096 ∧ f.dpkg < 2 ^ 14 ∧ f.spkg < 2 ^ 14 ∧ f.rvc < 8 ∧ f.rcnt < 32 ∧ f.rseq < 4096

/-- The oldest flit on the wire came in over port `p`, which has its link. -/
def Arrives (s : State) (p : Nat) (bits : BitVec 640) (rest : List (Nat × BitVec 640)) : Prop :=
  s.fabric.wireIn = (p, bits) :: rest ∧ (s.fabric.port p).linked = true

/-- Only the fabric, and turns that it puts forward, changed. -/
def OnlyFabric (s t : State) : Prop := t = { s with fabric := t.fabric, turns := t.turns }

/-- POS of flit i of n (Table 27.1). -/
def posOf (i n : Nat) : Nat := if n = 1 then 0 else if i = 0 then 1 else if i + 1 = n then 3 else 2

/-- R384 to R388: the packet may start on a port. -/
def MayStart (s : State) (k : Packet) (p : Nat) : Prop :=
  let x := s.fabric.port p
  k.port = some p ∧ k.ofLink = false ∧ x.usable = true ∧ x.resyncing = false ∧ k.flits.length ≤ at' x.counts k.vc 0 ∧
    x.retry.length + k.flits.length ≤ 256 ∧ ∀ y ∈ s.fabric.out.take s.here.idx, ¬ (y.port = some p ∧ y.vc = k.vc)

/-- What one end of a link has to tell the other (log 60). -/
def linkPacket (s : State) (p : Nat) (ws : List W64) : Packet :=
  ⟨7, some p, (s.fabric.port p).peerPkg, s.fabric.pkgid, [payloadOf ws], 0, none⟩

/-- It joins the packets that wait, unless the same one waits already. -/
def Tells (s t : State) (p : Nat) (ws : List W64) : Prop :=
  OnlyFabric s t ∧ t.fabric.ports = s.fabric.ports ∧
    t.fabric.out = if linkPacket s p ws ∈ s.fabric.out then s.fabric.out else s.fabric.out ++ [linkPacket s p ws]

/-- A packet of a link may leave: the link and the peer's package are there, and a slot of VC7. -/
def MayTell (s : State) (k : Packet) (p : Nat) (h : BitVec 512) : Prop :=
  let x := s.fabric.port p
  s.fabric.out[s.here.idx]? = some k ∧ k.port = some p ∧ k.ofLink = true ∧ k.vc = 7 ∧ k.flits = [h] ∧ x.linked = true ∧
    x.peerKnown = true ∧ x.resyncing = false ∧ 1 ≤ at' x.counts 7 0 ∧ x.retry.length < 256 ∧
    ∀ y ∈ s.fabric.out.take s.here.idx, ¬ (y.port = some p ∧ y.vc = 7)

/-- A packet of one flit on VC7 for another package joins those that wait, by the route of that package. -/
def SendsTo (s t : State) (dpkg : Nat) (pay : BitVec 512) : Prop :=
  ∃ port, t.fabric.out = s.fabric.out ++ [⟨7, port, dpkg, s.fabric.pkgid, [pay], 0, none⟩]

/-- R391 `audit()` of one VC. -/
def AuditOk (x : FPort) (v e ack rlast : Nat) : Prop :=
  at' x.counts v 0 + ((x.sentAfter ack).countP fun f => f.2 == v) +
    ((x.missing.filter fun m => m.2.1 == v && !later m.1 rlast).map fun m => m.2.2).sum = e

end Sys2Proof.Claims

/-- Table 27.1: a flit reads back as it was written, with a good CRC. -/
def Sys2Proof.Claims.FlitsReadBack : Prop :=
  ∀ f, Claims.InRange f → Flit.ofBits f.toBits = (f, true)

/-- R385, R389, R390: a flit with a bad CRC or out of its order is discarded and asked for again; the next one expected is taken,
and with the last one of a packet for another package the packet goes on by the route of its DPKG, or is dropped where that has
none (R386); returns that it carries are applied once. An idle flit names the package that sent it (log 60). -/
def Sys2Proof.Claims.FlitsArriveInOrder : Prop :=
  (∀ s p bits rest f, Claims.Arrives s p bits rest → Flit.ofBits bits = (f, false) → f.idle = false →
    ∃ t, exec .flitReceive s = .next t ∧ Claims.OnlyFabric s t ∧ t.turns = s.turns ∧ t.fabric.wireIn = rest ∧
      t.fabric.out = s.fabric.out ∧ t.fabric.port p = { s.fabric.port p with rty := true }) ∧
  (∀ s p bits rest f, Claims.Arrives s p bits rest → Flit.ofBits bits = (f, true) → f.idle = false → f.rty = false → f.rcnt = 0 →
    f.seq ≠ (s.fabric.port p).expect →
    ∃ t, exec .flitReceive s = .next t ∧ Claims.OnlyFabric s t ∧ t.fabric.out = s.fabric.out ∧ (t.fabric.port p).rty = true ∧
      (t.fabric.port p).rx = (s.fabric.port p).rx ∧ (t.fabric.port p).expect = (s.fabric.port p).expect) ∧
  (∀ s p bits rest f, Claims.Arrives s p bits rest → Flit.ofBits bits = (f, true) → f.idle = false →
    f.seq = (s.fabric.port p).expect → f.pos = 1 ∨ f.pos = 2 →
    ∃ t, exec .flitReceive s = .next t ∧ Claims.OnlyFabric s t ∧ t.fabric.out = s.fabric.out ∧ (t.fabric.port p).rty = false ∧
      (t.fabric.port p).expect = ((s.fabric.port p).expect + 1) % 4096 ∧
      at' (t.fabric.port p).rx f.vc [] = at' (s.fabric.port p).rx f.vc [] ++ (if f.vc < 8 then [f] else [])) ∧
  (∀ s p bits rest f q v, Claims.Arrives s p bits rest → Flit.ofBits bits = (f, true) → f.idle = false → f.vc < 8 →
    f.seq = (s.fabric.port p).expect → f.pos = 0 ∨ f.pos = 3 → f.dpkg ≠ s.fabric.pkgid →
    let fl := (at' (s.fabric.port p).rx f.vc [] ++ [f]).map (·.payload)
    s.fabric.routes.get? f.dpkg = some ⟨q, true, 0, false⟩ → q < 96 →
    v = (if (s.fabric.port q).dl = true ∧ f.vc < 6 ∧ f.vc % 2 = 0 then f.vc + 1 else f.vc) → f.vc ≠ 6 → f.rcnt = 0 →
    ∃ t, exec .flitReceive s = .next t ∧ Claims.OnlyFabric s t ∧
      t.fabric.out = s.fabric.out ++ [⟨v, some q, f.dpkg, f.spkg, fl, 0, some (p, f.vc)⟩] ∧
      at' (t.fabric.port p).rx f.vc [] = []) ∧
  (∀ s p bits rest f, Claims.Arrives s p bits rest → Flit.ofBits bits = (f, true) → f.idle = false → f.vc < 8 →
    f.seq = (s.fabric.port p).expect → f.pos = 0 ∨ f.pos = 3 → f.dpkg ≠ s.fabric.pkgid →
    (s.fabric.routes.get? f.dpkg = none ∨
      ∃ e, s.fabric.routes.get? f.dpkg = some e ∧ e.valid = false ∧ (f.vc = 6 → e.evalid = false)) →
    ∃ t, exec .flitReceive s = .next t ∧ Claims.OnlyFabric s t ∧ t.fabric.out = s.fabric.out ∧
      (t.fabric.port p).drops = min ((s.fabric.port p).drops + 1) 0xFFFF) ∧
  (∀ s p bits rest f, Claims.Arrives s p bits rest → Flit.ofBits bits = (f, true) → f.idle = true → f.rcnt ≠ 0 → f.rvc < 8 →
    ∃ t, exec .flitReceive s = .next t ∧ Claims.OnlyFabric s t ∧ (t.fabric.port p).peerPkg = f.spkg ∧
      (∀ v < 8, at' (t.fabric.port p).counts v 0 = at' (s.fabric.port p).counts v 0 +
        (if v = f.rvc ∧ later f.rseq (s.fabric.port p).rseqIn = true then f.rcnt else 0)) ∧
      (∀ y ∈ (t.fabric.port p).retry, y ∈ (s.fabric.port p).retry ∧ later y.seq f.ackseq = true))

/-- R384 to R388, R391, R392, R396: a packet with room for all of it puts its flits on the wire in a row, numbered and marked, each
taking a slot and a place in the retry buffer; a flit of the link goes to the peer with what the port has to tell as it leaves and
carries no return (logs 60, 61); a resend puts the retry buffer on the wire again, in order. -/
def Sys2Proof.Claims.PacketsLeaveWhole : Prop :=
  (∀ s k p, s.here.val ≠ 1 → s.fabric.out[s.here.idx]? = some k → Claims.MayStart s k p → k.vc < 8 → (s.fabric.port p).nextSeq < 4096 →
    let x := s.fabric.port p
    let n := k.flits.length
    ∃ t, exec .packetStart s = .next t ∧ Claims.OnlyFabric s t ∧ t.fabric.out = s.fabric.out.eraseIdx s.here.idx ∧
      at' (t.fabric.port p).counts k.vc 0 = at' x.counts k.vc 0 - n ∧ (t.fabric.port p).wire.length = x.wire.length + n ∧
      (t.fabric.port p).wire.take x.wire.length = x.wire ∧
      ∀ i < n, ∃ f, (t.fabric.port p).wire[x.wire.length + i]? = some f ∧ (t.fabric.port p).retry[x.retry.length + i]? = some f ∧
        f.vc = k.vc ∧ f.pos = Claims.posOf i n ∧ f.seq = (x.nextSeq + i) % 4096 ∧ f.dpkg = k.dpkg ∧ f.spkg = k.spkg ∧
        f.idle = false ∧ k.flits[i]? = some f.payload) ∧
  (∀ s k p h, s.here.val ≠ 1 → Claims.MayTell s k p h → k.resyncStep = 0 → k.laneTest = false →
    let x := s.fabric.port p
    let kind := h.toNat / 2 ^ 8 % 2 ^ 8
    ∃ t f, exec .packetStart s = .next t ∧ Claims.OnlyFabric s t ∧ t.fabric.out = s.fabric.out.eraseIdx s.here.idx ∧
      (t.fabric.port p).wire = x.wire ++ [f] ∧ f.vc = 7 ∧ f.pos = 0 ∧ f.dpkg = x.peerPkg ∧ f.idle = false ∧ f.rcnt = 0 ∧
      (kind = 0 → (∀ v < 8, f.payload.toNat / 2 ^ (64 + 8 * v) % 2 ^ 8 = 32 - s.fabric.held p v - at' x.owed v 0) ∧
        f.payload.toNat / 2 ^ 128 % 2 ^ 12 = (x.expect + 4095) % 4096 ∧ f.payload.toNat / 2 ^ 144 % 2 ^ 12 = (x.rseqOut + 4095) % 4096) ∧
      (kind = 1 → f.payload.toNat.testBit 64 = (!x.up || x.wdrawn)) ∧
      (kind = 2 ∨ kind = 6 → f.payload.toNat / 2 ^ 64 % 2 ^ 64 = s.time % 2 ^ 64)) ∧
  (∀ s k p, s.here.val ≠ 1 → s.fabric.out[s.here.idx]? = some k → k.port = some p → (s.fabric.port p).usable = true → k.ofLink = false →
    at' (s.fabric.port p).counts k.vc 0 < k.flits.length →
    ∃ t, exec .packetStart s = .next t ∧ t.fabric.out = s.fabric.out ∧ t.fabric.ports = s.fabric.ports) ∧
  (∀ s, (s.fabric.port s.here.idx).retry ≠ [] →
    let x := s.fabric.port s.here.idx
    ∃ t, exec .retryResend s = .next t ∧ t.fabric.out = s.fabric.out ∧
      (t.fabric.port s.here.idx).wire = x.wire ++ x.retry.map (fun f => { f with ackseq := (x.expect + 4095) % 4096, rty := x.rty }) ∧
      (t.fabric.port s.here.idx).retry = x.retry ∧ (t.fabric.port s.here.idx).retries = min (x.retries + 1) (2 ^ 32 - 1) ∧
      t.turns = .event .correctedError ⟨0, 0, 4, s.here.idx, 1⟩ :: s.turns) ∧
  (∀ s k p e q, s.fabric.out[s.here.idx]? = some k → k.port = some p → k.vc < 6 → 64 ≤ k.waited →
    at' (s.fabric.port p).counts k.vc 0 < k.flits.length → s.fabric.routes.get? k.dpkg = some e → e.evalid = true → e.esc = q →
    q < 96 → k.flits.length ≤ at' (s.fabric.port q).counts 6 0 →
    ∃ t, exec .escapeTimeout s = .next t ∧ Claims.OnlyFabric s t ∧ t.fabric.ports = s.fabric.ports ∧
      t.fabric.out[s.here.idx]? = some { k with vc := 6, port := some q, waited := 0 } ∧
      ∀ i, i ≠ s.here.idx → t.fabric.out[i]? = s.fabric.out[i]?)

/-- R391: an audit is sent on a port that is up, and a comparison that fails begins a resynchronisation; both ends tell each other
first that their retry buffers are empty, then their receiving buffers, and end with full counts (log 75). -/
def Sys2Proof.Claims.AuditsResynchronise : Prop :=
  (∀ s, (s.fabric.port s.here.idx).up = true → ∃ t, exec .auditSend s = .next t ∧ Claims.Tells s t s.here.idx [3#64]) ∧
  (∀ s e ack rlast, s.here.val ≠ 0 → s.here.val < 2 ^ 512 → e = s.here.val / 2 ^ 64 → ack = s.here.val / 2 ^ 128 % 2 ^ 12 →
    rlast = s.here.val / 2 ^ 144 % 2 ^ 12 → (s.fabric.port s.here.idx).resyncing = false →
    let x := s.fabric.port s.here.idx
    ∃ t, exec .auditCheck s = .next t ∧ Claims.OnlyFabric s t ∧
      ((t.fabric.port s.here.idx).resyncing = true ↔ ¬ ∀ v < 8, Claims.AuditOk x v (e / 2 ^ (8 * v) % 2 ^ 8) ack rlast) ∧
      ((t.fabric.port s.here.idx).resyncing = true → (t.fabric.port s.here.idx).resync = min (x.resync + 1) 0xFFFF) ∧
      ∀ m ∈ (t.fabric.port s.here.idx).missing, later m.1 rlast = true) ∧
  (∀ s, s.here.val = 0 → (s.fabric.port s.here.idx).resyncing = true → (s.fabric.port s.here.idx).retry = [] →
    ((s.fabric.port s.here.idx).resyncOut = 0 →
      ∃ t, exec .auditCheck s = .next t ∧ Claims.Tells s t s.here.idx [0x103#64, BitVec.ofNat 64 (2 ^ 32)]) ∧
    ((s.fabric.port s.here.idx).resyncOut = 1 → 1 ≤ (s.fabric.port s.here.idx).resyncIn → (∀ v < 8, s.fabric.held s.here.idx v = 0) →
      ∃ t, exec .auditCheck s = .next t ∧ Claims.Tells s t s.here.idx [0x103#64, BitVec.ofNat 64 (2 * 2 ^ 32)])) ∧
  (∀ s, let x := s.fabric.port s.here.idx
    let step := s.here.val / 2 ^ 96 % 2 ^ 2
    s.here.val < 2 ^ 512 → step ≠ 0 → ∃ t, exec .portStateFlit s = .next t ∧ Claims.OnlyFabric s t ∧
      let y := t.fabric.port s.here.idx
      (x.resyncing = false → x.resyncOut = 0 → y.resyncing = true ∧ y.resync = min (x.resync + 1) 0xFFFF ∧
        y.resyncIn = max x.resyncIn step ∧ y.counts = x.counts) ∧
      (x.resyncing = true → x.resyncOut = 2 → step = 2 → x.resyncIn ≤ 2 → y.resyncing = false ∧
        (∀ v < 8, at' y.counts v 0 = 32 ∧ at' y.owed v 0 = 0) ∧ y.rseqOut = 0 ∧ y.missing = []))

/-- R345, R385, R392: a failed lane leaves the other and adds 32 to the port's score; the peer's state flit says whether it is down
and who it is; a link comes up with full counts and numbers from 0, but not on a retired port. -/
def Sys2Proof.Claims.LinksFailAndComeUp : Prop :=
  (∀ s, ∃ t, exec .laneFailure s = .next t ∧
    (t.fabric.port s.here.idx).lanes = (if (s.fabric.port s.here.idx).lanes / 2 ^ (s.here.val % 2) % 2 = 1 then
      (s.fabric.port s.here.idx).lanes - 2 ^ (s.here.val % 2) else (s.fabric.port s.here.idx).lanes) ∧
    (t.res .port s.here.idx).score = min ((s.res .port s.here.idx).score + 32) 0xFFFF) ∧
  (∀ s, s.here.val < 2 ^ 512 → s.here.val / 2 ^ 96 % 2 ^ 2 = 0 → ∃ t, exec .portStateFlit s = .next t ∧ Claims.OnlyFabric s t ∧
    t.fabric.port s.here.idx = { s.fabric.port s.here.idx with
      peerDown := s.here.val.testBit 64, peerPort := s.here.val / 2 ^ 65 % 2 ^ 7, peerPkg := s.here.val / 2 ^ 73 % 2 ^ 14 }) ∧
  (∀ s, (s.fabric.port s.here.idx).retired = false → s.here.val % 4 ≠ 0 → ∃ t, exec .linkUp s = .next t ∧ Claims.OnlyFabric s t ∧
    let x := t.fabric.port s.here.idx
    x.lanes = s.here.val % 4 ∧ (∀ v < 8, at' x.counts v 0 = 32) ∧ x.retry = [] ∧ x.nextSeq = 0 ∧ x.expect = 0 ∧ x.peerDown = false) ∧
  (∀ s, (s.fabric.port s.here.idx).retired = true → exec .linkUp s = .next s)

/-- R394: the arrival of a package's side goes to the root on VC7, the root counts the arrivals of a generation and releases every
member with the last, and a release completes the barrier of a team that has sent its own. The packets' payloads have the model's
layout (log 60). -/
def Sys2Proof.Claims.PodBarriersJoinPackages : Prop :=
  (∀ s tm b e, s.here.val = 0 → s.team? s.here.ctx = some tm → tm.bars[s.here.idx]? = some b → b.scope = 5 → b.sentPod = false →
    s.fabric.groupOf tm.launch.tag = some e → s.podSideDone tm.launch.tag b.num = true → tm.phase = .running →
    tm.bar? 5 b.unit b.num = some b → e.root ≠ s.fabric.pkgid →
    (∃ x, s.fabric.routes.get? e.root = some x ∧ x.valid = true ∧ x.port < 96) →
    ∃ t tm' pay, exec .podBarrierArrival s = .next t ∧ t.team? s.here.ctx = some tm' ∧
      tm'.bar? 5 b.unit b.num = some { b with sentPod := true } ∧ Claims.SendsTo s t e.root pay) ∧
  (∀ s g num gen e, s.here.val ≠ 0 → s.here.val < 2 ^ 512 → g = s.here.val / 2 ^ 16 % 2 ^ 16 → num = s.here.val / 2 ^ 32 % 2 ^ 8 →
    gen = s.here.val / 2 ^ 64 % 2 ^ 64 → s.fabric.groupOf g = some e →
    ((s.fabric.podCount.get? (g, num, gen)).getD []).length + 1 < e.n →
    ∃ t, exec .podBarrierArrival s = .next t ∧ Claims.OnlyFabric s t ∧ t.fabric.out = s.fabric.out ∧
      t.fabric.podCount.get? (g, num, gen) = some ((s.fabric.podCount.get? (g, num, gen)).getD [] ++ [s.here.core])) ∧
  (∀ s g num gen e, s.here.val ≠ 0 → s.here.val < 2 ^ 512 → g = s.here.val / 2 ^ 16 % 2 ^ 16 → num = s.here.val / 2 ^ 32 % 2 ^ 8 →
    gen = s.here.val / 2 ^ 64 % 2 ^ 64 → s.fabric.groupOf g = some e → e.n ≤ 1 → s.fabric.podCount.get? (g, num, gen) = none →
    s.here.core ≠ s.fabric.pkgid → (∃ x, s.fabric.routes.get? s.here.core = some x ∧ x.valid = true ∧ x.port < 96) →
    ∃ t pay, exec .podBarrierArrival s = .next t ∧ Claims.OnlyFabric s t ∧ Claims.SendsTo s t s.here.core pay ∧
      t.fabric.podCount.get? (g, num, gen) = none) ∧
  (∀ s ctx tm b, s.here.val < 2 ^ 512 → s.teams = [(ctx, tm)] → tm.phase = .running → tm.launch.tag = s.here.val / 2 ^ 16 % 2 ^ 16 →
    b.scope = 5 → b.num = s.here.val / 2 ^ 32 % 2 ^ 8 → b.sentPod = true → tm.bars = [b] →
    ∃ t tm' b', exec .podBarrierRelease s = .next t ∧ t.team? ctx = some tm' ∧ tm'.bar? 5 b.unit b.num = some b' ∧ b'.gen = b.gen + 1 ∧
      b'.sentPod = false)

/-- R226, R396: a package sends its TIME on every port that is up and asks along SYNCPORT for the delay of its link, half of what the
answer took; a package that is not the root steers toward its parent's TIME and that delay; the root, and one whose SYNCPORT is
down, keep their own time base. The payloads are the model's (log 60). -/
def Sys2Proof.Claims.TimeIsSynchronised : Prop :=
  (∀ s, s.here.val = 0 → ∃ t, exec .timeSync s = .next t ∧ Claims.OnlyFabric s t ∧ t.fabric.ports = s.fabric.ports ∧
    (∀ p, (s.fabric.port p).up = true → Claims.linkPacket s p [BitVec.ofNat 64 (3 + 6 * 2 ^ 8)] ∈ t.fabric.out) ∧
    ((s.fabric.port s.fabric.syncPort).up = true →
      Claims.linkPacket s s.fabric.syncPort [BitVec.ofNat 64 (3 + 2 * 2 ^ 8)] ∈ t.fabric.out)) ∧
  (∀ s, s.here.val < 2 ^ 512 → s.here.val / 2 ^ 8 % 2 ^ 8 = 2 → ∃ t, exec .timeSync s = .next t ∧
    Claims.Tells s t s.here.idx [BitVec.ofNat 64 (3 + 3 * 2 ^ 8), BitVec.ofNat 64 (s.here.val / 2 ^ 64)]) ∧
  (∀ s, s.here.val < 2 ^ 512 → s.here.val / 2 ^ 8 % 2 ^ 8 = 3 → s.here.idx = s.fabric.syncPort →
    exec .timeSync s = .next { s with fabric := { s.fabric with delay := some ((s.time - s.here.val / 2 ^ 64 % 2 ^ 64) / 2) } }) ∧
  (∀ s d, s.here.val < 2 ^ 512 → s.here.val / 2 ^ 8 % 2 ^ 8 = 6 → s.fabric.syncRoot = false → s.here.idx = s.fabric.syncPort →
    (s.fabric.port s.fabric.syncPort).up = true → s.fabric.delay = some d →
    exec .timeSync s = .next { s with corr := ((s.here.val / 2 ^ 64 % 2 ^ 64 + d : Nat) : Int) - s.time }) ∧
  (∀ s, s.here.val < 2 ^ 512 → s.here.val / 2 ^ 8 % 2 ^ 8 = 6 →
    s.fabric.syncRoot = true ∨ s.here.idx ≠ s.fabric.syncPort ∨ (s.fabric.port s.here.idx).up = false ∨ s.fabric.delay = none →
    exec .timeSync s = .next s) ∧
  (∀ s : State, s.fabric.syncRoot = true ∨ (s.fabric.port s.fabric.syncPort).up = false → s.tickTime = { s with time := s.time + 1, corr := 0 }) ∧
  (∀ s : State, s.tickTime.time ≤ s.time + 2 ∧ (s.tickTime.time ≠ s.time + 1 → s.lastCorr + 1000 ≤ s.time)) ∧
  ∀ s : State, s.fabric.syncRoot = false → (s.fabric.port s.fabric.syncPort).up = true → s.lastCorr + 1000 ≤ s.time →
    (0 < s.corr → s.tickTime.time = s.time + 2 ∧ s.tickTime.corr = s.corr - 1) ∧
    (s.corr < 0 → s.tickTime.time = s.time ∧ s.tickTime.corr = s.corr + 1)

/-! ### Words, steps and reset (R49, R50, R54, R176, R209, R208, R375, R380) -/

namespace Sys2Proof.Claims

/-- Table 3.6: the opcodes of the five kinds and the common ones. -/
def ListedOpcode (n : Nat) : Prop :=
  n ≤ 0x28 ∨ (0x40 ≤ n ∧ n ≤ 0x47) ∨ (0x60 ≤ n ∧ n ≤ 0x82) ∨ (0x90 ≤ n ∧ n ≤ 0xBA) ∨ (0xC0 ≤ n ∧ n ≤ 0xCC) ∨
    (0xD0 ≤ n ∧ n ≤ 0xDD) ∨ (0xE0 ≤ n ∧ n ≤ 0xEE)

/-- The bits `[hi:lo]` of an element word as Table 3.1 places its fields. -/
def bitsOf (w : W64) (hi lo : Nat) : Nat := w.toNat / 2 ^ lo % 2 ^ (hi + 1 - lo)

/-- The memory of the package in its canonical form: addresses rising, no listed byte 0 (log 3). -/
def Canonical (s : State) : Prop := s.flat.wf = true ∧ s.hbm.wf = true

/-- Sign bits changed lane by lane (R90): a NaN lane gives 0x7FC0_0000 and sets NV if it signals, another lane gives `g` of its
bits and no flag. -/
def SignLanes (g : BitVec 32 → BitVec 32) (a : W64) (r : Res) : Prop :=
  let lane (i : Nat) : BitVec 32 := a.extractLsb' (32 * i) 32
  let nan (x : BitVec 32) : Bool := decide (x.extractLsb' 23 8 = 0xFF#8 ∧ x.extractLsb' 0 23 ≠ 0#23)
  (∀ i < 2, r.data.extractLsb' (32 * i) 32 = if nan (lane i) then 0x7FC00000#32 else g (lane i)) ∧
  r.flags = { Flags.none with nv := (nan (lane 0) && !(lane 0).getLsbD 22) || (nan (lane 1) && !(lane 1).getLsbD 22) } ∧ r.fmt = .f32x2

end Sys2Proof.Claims

/-- R90. -/
def Obligations.AbsAndNegateFollowR90 : Prop :=
  (∀ f s c e, Claims.At s c e → kindAt s.here.pos = .pe → slotStatus fabsOp f s s.site = .ready →
    let i := Claims.operands 0x66 f s c e
    ∃ t c' r, exec (.fabs f) s = .next t ∧ t.core? s.key = some c' ∧ Claims.LandsLater 4 f s.here.pos c e i r c' ∧
      r.tnt = Claims.taint i ∧ r.ctl = none ∧ Claims.SignLanes (fun x => x &&& 0x7FFFFFFF#32) i.a.data r) ∧
  (∀ f s c e, Claims.At s c e → kindAt s.here.pos = .pe → slotStatus fnegOp f s s.site = .ready →
    let i := Claims.operands 0x67 f s c e
    ∃ t c' r, exec (.fneg f) s = .next t ∧ t.core? s.key = some c' ∧ Claims.LandsLater 4 f s.here.pos c e i r c' ∧
      r.tnt = Claims.taint i ∧ r.ctl = none ∧ Claims.SignLanes (fun x => x ^^^ 0x80000000#32) i.a.data r)

/-- R118: the fields of the example and its word, both ways. -/
def Obligations.TheWordOfR118 : Prop :=
  let w := 0x0000482D48D84502#64
  Claims.bitsOf w 47 46 = 1 ∧ Claims.bitsOf w 45 43 = 1 ∧ Claims.bitsOf w 37 30 = 0xB5 ∧ Claims.bitsOf w 29 25 = 4 ∧ Claims.bitsOf w 24 20 = 13 ∧
  Claims.bitsOf w 19 15 = 16 ∧ Claims.bitsOf w 14 14 = 1 ∧ Claims.bitsOf w 12 10 = 1 ∧ Claims.bitsOf w 9 7 = 2 ∧
  decodeSlot w = .ok (.saadd ⟨0#8, 0#8, 1#2, 1#3, 0#2, 0#3, 4#5, 13#5, 16#5, true, false, 1#3, 2#3, 0#2, 0#3, false⟩) ∧
  encode (.saadd ⟨0#8, 0#8, 1#2, 1#3, 0#2, 0#3, 4#5, 13#5, 16#5, true, false, 1#3, 2#3, 0#2, 0#3, false⟩) = 0#8 ++ w

/-- R381: a write of an index from 5 to 7 to EXTEND extends that register and no other, one of another index none; of two
writes the one that comes first is applied first. -/
def Obligations.ExtendsFollowR381 : Prop :=
  let after (m : Vector (List Byte) 8) (ext : List Byte) (v : W64) (i : Nat) : List Byte :=
    if i = v.toNat % 8 ∧ 5 ≤ i then sha256 (at' m i [] ++ ext) else at' m i []
  (∀ s v rs, Claims.Writes s 0x3120 v rs → ∃ t, exec .extend s = .next t ∧ Claims.Acked s t rs ∧
    ∀ i < 8, at' t.mgmt.mr i [] = after s.mgmt.mr s.mgmt.extdata v i) ∧
  (∀ s v v' rs, Claims.Writes s 0x3120 v (.write 1 0x3120 (wordBytes v') :: rs) → ∃ t u, exec .extend s = .next t ∧
    exec .extend t = .next u ∧ u.host.reqs = rs ∧ u.mgmt.extdata = s.mgmt.extdata ∧
    ∀ i < 8, at' u.mgmt.mr i [] = after t.mgmt.mr s.mgmt.extdata v' i)

/-- R218: ARRV.SET sets its counter; WAITA and WAITS let the sequencer go on exactly when the counter has reached the value
and the tile's state is the one named, and neither traps. -/
def Obligations.WaitsFollowR218 : Prop :=
  Claims.Word .arrvSet (fun _ _ _ => True) (fun q s m t m' => Claims.OnlyMcores s t ∧
    Claims.After m' { m with ctrs := upd m.ctrs (Claims.flags q 0 4) (BitVec.ofNat 32 (Claims.opnd q 0 32)) } (m.pc + 1)) ∧
  Claims.Word .waita (fun _ _ _ => True) (fun q s m t m' => Claims.OnlyMcores s t ∧
    (Claims.opnd q 0 32 ≤ (at' m.ctrs (Claims.flags q 0 4) 0#32).toNat → Claims.After m' m (m.pc + 1)) ∧
    ((at' m.ctrs (Claims.flags q 0 4) 0#32).toNat < Claims.opnd q 0 32 → t = s)) ∧
  Claims.Word .waits (fun _ _ _ => True) (fun q s m t m' => Claims.OnlyMcores s t ∧
    let code := match (m.tile (Claims.slotA q)).state with
      | .empty => 0 | .filling => 1 | .ready => 2 | .draining => 3 | .predicted => 4 | .verifying => 5
    (code = Claims.flags q 0 3 → Claims.After m' m (m.pc + 1)) ∧ (code ≠ Claims.flags q 0 3 → t = s))

/-- Tables 3.1, 10.2 and R209, with the model's numbers for steps that have no word (log 4): no field is lost. -/
def Obligations.DecodeInvertsEncode : Prop := ∀ i, decode (encode i) = .ok i

/-- The other way round (R49, R178, R209): a word that decodes is the word of what it decodes to; and exactly the words with
V = 1 and an opcode of Table 3.6, a KIND of Table 10.3 or an OP of Table 11.3 decode (R50, R54, R176). -/
def Obligations.WordsDecodeWhereListed : Prop :=
  (∀ w i, decodeSlot w = .ok i → encode i = 0#8 ++ w) ∧ (∀ w i, decodeNode w = .ok i → encode i = 1#8 ++ w) ∧
  (∀ w i, decodeSeq w = .ok i → encode i = 2#8 ++ w) ∧
  (∀ w, w.getLsbD 1 = false → decodeSlot w = .error .emptySlot) ∧
  (∀ w, w.getLsbD 1 = true → ((∃ i, decodeSlot w = .ok i) ↔ Claims.ListedOpcode (Claims.bitsOf w 37 30)) ∧
    (¬ Claims.ListedOpcode (Claims.bitsOf w 37 30) → decodeSlot w = .error (.illegalOpc (w.extractLsb' 30 8)))) ∧
  (∀ w, (∃ i, decodeNode w = .ok i) ↔ 1 ≤ Claims.bitsOf w 63 58 ∧ Claims.bitsOf w 63 58 ≤ 19) ∧
  (∀ w, (∃ i, decodeSeq w = .ok i) ↔ 1 ≤ Claims.bitsOf w 63 58 ∧ Claims.bitsOf w 63 58 ≤ 18)

/-- Words that the spec writes out, with the steps that it gives for them. -/
def Obligations.WordsOfTheSpecDecode : Prop :=
  decodeSlot 0x0103100070C84CA6#64 = .ok (.add ⟨1#8, 3#8, 0#2, 2#3, 0#2, 0#3, 24#5, 12#5, 16#5, true, false, 3#3, 1#3, 1#2, 1#3, false⟩) ∧
  decodeSlot 0x0000902B4CE8C002#64 = .ok (.accPatch ⟨0#8, 0#8, 2#2, 2#3, 0#2, 0#3, 6#5, 14#5, 17#5, true, false, 0#3, 0#3, 0#2, 0#3, false⟩) ∧
  decodeNode 0x1004000000000000#64 = .ok (.lend ⟨4#10, 0#10, 0#6, 0#32⟩) ∧
  decodeSeq 0x2800010000000001#64 = .ok (.waita ⟨0#6, 0#6, 1#6, 1#40⟩)

/-- R22, R179, R208: a step is the first of the turns, and a turn of a slot, a walker or a sequencer runs exactly what its
word decodes to; an empty slot's turn does nothing (R50); a machine step's turn runs it where it says (log 1). -/
def Obligations.StepsRunTheirTurns : Prop :=
  (∀ s ts ctx core pos slot sel c e i, s.turns = .fire ctx core pos slot sel :: ts → s.core? (ctx, core) = some c →
    c.elem? pos = some e → decodeSlot (e.slot slot) = .ok i →
    step s = exec i { s with turns := ts, here := ⟨ctx, core, pos, slot, sel⟩ }) ∧
  (∀ s ts ctx core pos slot sel c e, s.turns = .fire ctx core pos slot sel :: ts → s.core? (ctx, core) = some c →
    c.elem? pos = some e → (e.slot slot).getLsbD 1 = false → step s = .next { s with turns := ts }) ∧
  (∀ s ts ctx core pos slot i x, s.turns = .bus ctx core pos slot :: ts →
    State.busVerdict { s with turns := ts } (ctx, core) pos slot = (x, true) → decodeSlot (x.slotWord ctx core pos slot) = .ok i →
    step s = exec i { x with here := ⟨ctx, core, pos, slot, 0⟩ }) ∧
  (∀ s ts ctx core c p w i, s.turns = .walker ctx core :: ts → s.core? (ctx, core) = some c → c.walker.pos = some p →
    s.nodeWord ctx p = w → decodeNode w = .ok i → step s = exec i { s with turns := ts, here := ⟨ctx, core, 0, 0, 0⟩ }) ∧
  (∀ s ts ctx core m w i, s.turns = .sequencer ctx core :: ts → s.mcore? (ctx, core) = some m → m.stopped = false →
    m.prog[m.pc]? = some w → decodeSeq w = .ok i → step s = exec i { s with turns := ts, here := ⟨ctx, core, 0, 0, 0⟩ }) ∧
  (∀ s ts i h, s.turns = .event i h :: ts → step s = exec i { s with turns := ts, here := h })

/-- R345, R375, R380 at power-on, before any step: PBUDGET 4,800, the measurement registers zero, no stage loaded and no
channel open, no team, and every resource in service with score 0. -/
def Obligations.ResetLeaves : Prop :=
  State.reset.power.budget = 4800 ∧ (∀ i < 8, at' State.reset.mgmt.mr i [] = List.replicate 32 0#8) ∧ State.reset.mgmt.stage = 0 ∧
  State.reset.mgmt.ready = false ∧ State.reset.mgmt.fail = 0 ∧ State.reset.teams = [] ∧
  (∀ k n, (State.reset.res k n).score = 0 ∧ (State.reset.res k n).inService = true)

/-- The memory is canonical at reset (log 3). -/
def Obligations.MemoryIsCanonicalAtReset : Prop := Claims.Canonical State.reset

/-- Every step keeps flat memory and HBM in canonical form (log 3), so that equal memories are equal data. -/
def Obligations.StepsKeepMemoryCanonical : Prop := ∀ s t, Claims.Canonical s → step s = .next t → Claims.Canonical t

/-- Every step of the table answers a next state, whatever the state. The spec gives each step an effect where its condition holds;
that a turn whose condition does not hold leaves the machine as it is, is the model's choice (log 2). -/
def Obligations.NothingIsRefused : Prop := ∀ i s, ∃ t, exec i s = .next t

/-! ### The statements that join several of the above -/

/-- Results of the one-cycle integer and stream operations (R65, R68, R69, R70, R71, R73, R74, R75, R76, R77). -/
def Obligations.OneCycleResultsAreGiven : Prop :=
  Claims.ArithmeticGivesTable42 ∧
    Claims.FieldsAndComparesGive ∧
    Claims.StreamOpsGive

/-- Results of the floating-point and the vector operations and their latencies (R84, R88 to R96). -/
def Obligations.FloatAndVectorOpsGive : Prop :=
  Claims.FloatOpsGive ∧
    Claims.VectorSumsGive ∧
    Claims.VectorLanesGive

/-- What a fire writes into its predicate (R26, R27, R67, R142). -/
def Obligations.PredicatesAreUpdated : Prop :=
  Claims.PredicatesFollowR26 ∧
    Claims.OtherPredicatesFollowR26

/-- A slot that is not ready waits, a trap-ready one traps in place of firing, and a speculative trap is held (R21, R30, R145, R255, R302). -/
def Obligations.TrapsReplaceFires : Prop :=
  Claims.SlotsWaitOrTrap ∧
    Claims.TrapRaisesTrapInsn ∧
    Claims.SpeculativeTrapsAreHeld ∧
    Claims.ChosenTrapsAreTaken

/-- Row and column bus writes and what the buses deliver (R78, R79, R80, R81, R99, R100, R101, R102). -/
def Obligations.BusesCarryWrites : Prop :=
  Claims.RowBusWrites ∧
    Claims.ColumnBusWrites ∧
    Claims.BusesDeliver

/-- An MMA row leaves with its fire and lands in its accumulator row (R43, R44, R106, R107). -/
def Obligations.MatrixRowsFireAndLand : Prop :=
  Claims.RowFiresLeave ∧
    Claims.RowFiresLand

/-- Operations on accumulator banks, their reads and drains (R101, R109, R110, R111, R112). -/
def Obligations.AccumulatorBanksAreManaged : Prop :=
  Claims.BankOperations ∧
    Claims.BankReadAndHold ∧
    Claims.DrainsSendTheirRows

/-- Scratchpad loads, generators, streams, bursts and owner bits (R114, R115, R117, R119, R120). -/
def Obligations.ScratchpadIsRead : Prop :=
  Claims.ScratchpadLoads ∧
    Claims.ScratchpadStreams ∧
    Claims.ScratchpadControl

/-- Results of the conversions (R122, R123, R124, R125). -/
def Obligations.ConversionsGive : Prop :=
  Claims.ConversionsNarrowAndWiden ∧
    Claims.Microscaling

/-- Loads of an endpoint become requests, perform at their memory and are delivered in order (R128, R130, R133, R136, R138, R170, R258). -/
def Obligations.LoadsAreServed : Prop :=
  Claims.LoadsBecomeRequests ∧
    Claims.RequestsPerformAtMemory ∧
    Claims.RepliesAreDelivered

/-- Atomics act at their fire, stores wait for their commit, generators walk their boxes (R27, R29, R131, R132, R134, R135, R136, R137). -/
def Obligations.StoresAndGeneratorsOfAnEndpoint : Prop :=
  Claims.AtomicsActAtTheirFire ∧
    Claims.StoresWaitInTheCommitBuffer ∧
    Claims.GeneratorsWalkTheirBoxes

/-- Engine commands are queued and MOWN flips its tile's owner (R139, R140, R259, R266; beat buffers by log 98). -/
def Obligations.EnginesAndOwnersAreCommanded : Prop :=
  Claims.EngineCommandsAreQueued ∧
    Claims.OwnerFlipTakesEffect

/-- Leases and fault records are served, faults reissued, translations filled, frames moved (R136, R293, R295, R297, R298, R347). -/
def Obligations.FaultsLeasesAndTranslations : Prop :=
  Claims.ResolvedFaultsAreReissued ∧
    Claims.TranslationsAreFilled ∧
    Claims.FramesMove ∧
    Claims.LeasesAndFaultRecordsAreServed

/-- The common operations without a result (R143, R144, R146, R151, R152, R153, R154, R155). -/
def Obligations.CommonOperationsTakeEffect : Prop :=
  Claims.ElementsHaltCommitAndWait ∧
    Claims.CommonEffects

/-- TIME, CYC and ID, also behind the results of an endpoint (log 20) (R42, R136, R147, R148). -/
def Obligations.ReadsOfTimeAndIdentity : Prop :=
  Claims.TimeCyclesAndIdentity ∧
    Claims.EndpointResultsKeepTheirOrder

/-- Arrivals at barriers, their completion, and pod barriers over the fabric (R150, R244, R245, R246, R394). -/
def Obligations.BarriersAreReachedAndComplete : Prop :=
  Claims.BarriersAreReached ∧
    Claims.BarriersComplete ∧
    Claims.PodBarriersJoinPackages

/-- Long results, tokens and credits arrive; unaccepted heads take their detour (R16, R17, R18, R19, R26, R42, R79, R126). -/
def Obligations.ResultsArriveAndDetour : Prop :=
  Claims.ArrivalsLand ∧
    Claims.DetoursLeave

/-- Blocks are cached, issued and completed; admission and missing blocks (R13, R57, R143, R159, R162, R163, R164, R181, R196). -/
def Obligations.BlocksLoadIssueAndComplete : Prop :=
  Claims.BlocksAreCached ∧
    Claims.BlocksIssue ∧
    Claims.IssueTrapsAreTheWalkers ∧
    Claims.BlocksComplete ∧
    Claims.AdmissionAndMissingBlocks

/-- What commits and spill commits perform (R137, R144, R154, R165, R168, R169, R182). -/
def Obligations.CommitsPerform : Prop :=
  Claims.GroupsCommit ∧
    Claims.CommittedEntriesPerform ∧
    Claims.GroupsPerformInOrder ∧
    Claims.CommittedMessagesAreSent ∧
    Claims.SpillsOpenANewGroup

/-- Runs, waits, placements, yields and halts at the walker (R180, R192, R193, R194, R195, R350). -/
def Obligations.NodesRunAndWait : Prop :=
  Claims.RunsAppendPendingEntries ∧
    Claims.WaitsAndServices

/-- Loops, conditions, calls, forks and joins (R183, R184, R185, R186, R188, R189, R190). -/
def Obligations.NodesDirectTheWalk : Prop :=
  Claims.LoopsAndConditions ∧
    Claims.CallsForksAndJoins

/-- Tiles are defined, controlled and written (R200, R201, R202, R203, R204, R205, R211). -/
def Obligations.TilesAreDefinedAndControlled : Prop :=
  Claims.TilesAreDefined ∧
    Claims.TilesAreControlled ∧
    Claims.WritesReachTheShadow

/-- Streams and fills start and their beats move (R212, R213, R214, R228). -/
def Obligations.StreamsAndFillsMove : Prop :=
  Claims.StreamsAndFillsStart ∧
    Claims.StreamBeatsMove

/-- Predictions, comparisons and verifications, and their verdicts (R202, R206, R215, R216, R217, R252, R253, R254). -/
def Obligations.PredictionsAreVerified : Prop :=
  Claims.PredictionsAndComparisonsStart ∧
    Claims.PredictorAndComparerEnd ∧
    Claims.VerdictsValidateOrSquash

/-- Sequencer words that count, signal, jump, stop and trap (R187, R206, R207, R210, R219, R220, R221, R222). -/
def Obligations.SequencersRunTheirWords : Prop :=
  Claims.SequencersCountSignalAndJump ∧
    Claims.WordsTrapOnProgramErrors

/-- Engine records are checked and completions reported (R320, R322, R323, R324, R325). -/
def Obligations.CommandsAreCheckedAndReported : Prop :=
  Claims.RecordsAreChecked ∧
    Claims.EngineCompletionsReport

/-- Transfers copy and gather-reduce emits its rows (R328, R330). -/
def Obligations.TransfersAndGatherReduce : Prop :=
  Claims.TransfersCopy ∧
    Claims.GatherReduceEmitsRows

/-- Routing selects and writes, the curator places (R331, R332, R333, R336, R337). -/
def Obligations.ExpertsAreRoutedAndPlaced : Prop :=
  Claims.RoutingSelects ∧
    Claims.RoutingWeights ∧
    Claims.RoutingWrites ∧
    Claims.PlacementShares ∧
    Claims.CuratorPlaces

/-- Messages and commands of the dispatcher (R277, R278, R284, R285, R286, R376). -/
def Obligations.MessagesReachTheirTeam : Prop :=
  Claims.MessagesAreTakenOrRejected ∧
    Claims.ServiceMessagesReachTheirTeam ∧
    Claims.TeamCommandsActOnTheirTeam

/-- Launches start teams and teams end (R192, R281, R284, R285). -/
def Obligations.TeamsStartAndEnd : Prop :=
  Claims.LaunchesStartTeams ∧
    Claims.TeamsEnd

/-- Foreground, eviction, restore and migration (R171, R173, R287, R288, R351, R353, R354). -/
def Obligations.ContextsMoveBetweenQuads : Prop :=
  Claims.QuadsAreEvictedAndRestored ∧
    Claims.ForegroundFollowsPriority ∧
    Claims.QuadsMigrate

/-- Debugger commands: freeze, resume, tear down, views (R302, R305, R306, R307, R310, R311, R312). -/
def Obligations.DebuggersStopAndView : Prop :=
  Claims.DebuggersNeedTheirTeam ∧
    Claims.CoresFreezeAndResume ∧
    Claims.ViewsOpenAndClose

/-- Deadlock probes, the watchdog and uncorrectable errors (R313, R314, R315, R317). -/
def Obligations.DeadlocksHangsAndErrors : Prop :=
  Claims.ProbesProveDeadlocks ∧
    Claims.HangsAndErrorsStopTeams

/-- Suspicion scores, withdrawals and tests (R344, R345, R346, R347, R348, R349, R353). -/
def Obligations.ResourcesAreScoredAndTested : Prop :=
  Claims.ScoresRiseAndDecay ∧
    Claims.ResourcesAreWithdrawn ∧
    Claims.TestsReturnOrRetire

/-- Thermal response, the power steps and the refit (R352, R369, R370, R371, R372, R374, R375). -/
def Obligations.HeatAndPowerAreControlled : Prop :=
  Claims.HeatMigratesAndStops ∧
    Claims.PowerStepsFollowTheBudget ∧
    Claims.WeightsAreRefitted

/-- The host's RDMA, registers and queues (R375, R376, R377, R378, R379). -/
def Obligations.HostReadsAndWrites : Prop :=
  Claims.HostReachesTensorsThroughWindows ∧
    Claims.RegistersReadAndWrite ∧
    Claims.HostQueuesKeepTheirOrder

/-- Flits and packets are sent, received and routed (R384, R385, R386, R387, R388, R389, R390). -/
def Obligations.PacketsCrossTheFabric : Prop :=
  Claims.FlitsReadBack ∧
    Claims.FlitsArriveInOrder ∧
    Claims.PacketsLeaveWhole

/-- Audits, lane failures, link-up, port state and time (R226, R345, R385, R391, R392, R396). -/
def Obligations.LinksAndTimeAreKept : Prop :=
  Claims.AuditsResynchronise ∧
    Claims.LinksFailAndComeUp ∧
    Claims.TimeIsSynchronised
end

