-- ==== Sys2Proof/Laws/Data.lean ====
section
/-! SUPPORT. Laws of the containers: keyed lists, fixed rows, and byte memories with their canonical form. -/

namespace Sys2Proof.Machine

variable {κ α : Type} [DecidableEq κ]

/-! ### Keyed lists -/

theorem Assoc.get?_put_same (l : Assoc κ α) (k : κ) (v : α) : (l.put k v).get? k = some v := by
  induction l with
  | nil => simp [Assoc.put, Assoc.get?]
  | cons h t ih =>
    obtain ⟨k', v'⟩ := h
    by_cases e : k' = k <;> simp [Assoc.put, Assoc.get?, e, ih]

theorem Assoc.get?_put_other (l : Assoc κ α) (k k2 : κ) (v : α) (h : k ≠ k2) : (l.put k v).get? k2 = l.get? k2 := by
  induction l with
  | nil => simp [Assoc.put, Assoc.get?, h]
  | cons x t ih =>
    obtain ⟨k', v'⟩ := x
    by_cases e : k' = k
    · subst e; simp [Assoc.put, Assoc.get?, h]
    · simp only [Assoc.put, Assoc.get?, e, if_false, ih]

theorem Assoc.get?_adjust_same (l : Assoc κ α) (k : κ) (f : α → α) : (l.adjust k f).get? k = (l.get? k).map f := by
  induction l with
  | nil => simp [Assoc.adjust, Assoc.get?]
  | cons x t ih =>
    obtain ⟨k', v'⟩ := x
    by_cases e : k' = k <;> simp [Assoc.adjust, Assoc.get?, e, ih]

theorem Assoc.get?_adjust_other (l : Assoc κ α) (k k2 : κ) (f : α → α) (h : k ≠ k2) :
    (l.adjust k f).get? k2 = l.get? k2 := by
  induction l with
  | nil => simp [Assoc.adjust, Assoc.get?]
  | cons x t ih =>
    obtain ⟨k', v'⟩ := x
    by_cases e : k' = k
    · subst e; simp [Assoc.adjust, Assoc.get?, h]
    · simp only [Assoc.adjust, Assoc.get?, e, if_false, ih]

theorem Assoc.adjust_adjust (l : Assoc κ α) (k : κ) (f g : α → α) :
    (l.adjust k f).adjust k g = l.adjust k (fun x => g (f x)) := by
  induction l with
  | nil => rfl
  | cons x t ih =>
    obtain ⟨k', v'⟩ := x
    by_cases e : k' = k <;> simp [Assoc.adjust, e, ih]

/-- Every value of an adjusted list comes from one of the list before. -/
theorem Assoc.mem_adjust (l : Assoc κ α) (k : κ) (f : α → α) (p : κ × α) (h : p ∈ l.adjust k f) :
    p ∈ l ∨ ∃ v, (k, v) ∈ l ∧ p = (k, f v) := by
  induction l with
  | nil => simp [Assoc.adjust] at h
  | cons x t ih =>
    obtain ⟨k', v'⟩ := x
    by_cases e : k' = k
    · subst e
      simp only [Assoc.adjust, if_true, List.mem_cons] at h
      rcases h with h | h
      · exact .inr ⟨v', by simp, h⟩
      · exact .inl (by simp [h])
    · simp only [Assoc.adjust, e, if_false, List.mem_cons] at h
      rcases h with h | h
      · exact .inl (by simp [h])
      · rcases ih h with h | ⟨v, hv, hp⟩
        · exact .inl (by simp [h])
        · exact .inr ⟨v, by simp [hv], hp⟩

/-- Every value of a list after `put` is the new one or was there before. -/
theorem Assoc.mem_put (l : Assoc κ α) (k : κ) (v : α) (p : κ × α) (h : p ∈ l.put k v) : p ∈ l ∨ p = (k, v) := by
  induction l with
  | nil => simp [Assoc.put] at h; exact .inr h
  | cons x t ih =>
    obtain ⟨k', v'⟩ := x
    by_cases e : k' = k
    · subst e
      simp only [Assoc.put, if_true, List.mem_cons] at h
      rcases h with h | h
      · exact .inr h
      · exact .inl (by simp [h])
    · simp only [Assoc.put, e, if_false, List.mem_cons] at h
      rcases h with h | h
      · exact .inl (by simp [h])
      · rcases ih h with h | h
        · exact .inl (by simp [h])
        · exact .inr h

theorem Assoc.mem_of_get? (l : Assoc κ α) (k : κ) (v : α) (h : l.get? k = some v) : (k, v) ∈ l := by
  induction l with
  | nil => simp [Assoc.get?] at h
  | cons x t ih =>
    obtain ⟨k', v'⟩ := x
    by_cases e : k' = k
    · simp only [Assoc.get?, e, if_true, Option.some.injEq] at h
      simp [e, h]
    · simp only [Assoc.get?, e, if_false] at h
      simp [ih h]

/-! ### Fixed rows -/

theorem at_upd_same {n : Nat} (v : Vector α n) (i : Nat) (x d : α) (h : i < n) : at' (upd v i x) i d = x := by
  simp [at', upd, Vector.getD, h]

theorem at_upd_other {n : Nat} (v : Vector α n) (i j : Nat) (x d : α) (h : i ≠ j) : at' (upd v i x) j d = at' v j d := by
  by_cases hj : j < n
  · simp [at', upd, Vector.getD, hj, h]
  · simp [at', upd, Vector.getD, hj]

theorem upd_self {n : Nat} (v : Vector α n) (i : Nat) (d : α) : upd v i (at' v i d) = v := by
  apply Vector.ext
  intro j hj
  by_cases h : i = j
  · subst h; simp [upd, at', Vector.getD, hj]
  · simp [upd, h]

theorem upd_past {n : Nat} (v : Vector α n) (i : Nat) (x : α) (h : n ≤ i) : upd v i x = v := by
  apply Vector.ext
  intro j hj
  have : i ≠ j := by omega
  simp [upd, this]

theorem upd_upd {n : Nat} (v : Vector α n) (i : Nat) (x y : α) : upd (upd v i x) i y = upd v i y := by
  simp [upd]

/-! ### Byte memories -/

/-- Raising the lower bound is what an entry of a canonical list allows. -/
theorem Memory.wfFrom_mono (m : Memory) (lo lo' : Nat) (h : lo' ≤ lo) (w : Memory.wfFrom lo m = true) :
    Memory.wfFrom lo' m = true := by
  cases m with
  | nil => rfl
  | cons c t =>
    obtain ⟨k, v⟩ := c
    simp only [Memory.wfFrom, Bool.and_eq_true, decide_eq_true_eq] at w ⊢
    exact ⟨⟨by omega, w.1.2⟩, w.2⟩

theorem Memory.write_wfFrom (m : Memory) (lo a : Nat) (b : Byte) (h : lo ≤ a) (w : Memory.wfFrom lo m = true) :
    Memory.wfFrom lo (m.write a b) = true := by
  induction m generalizing lo with
  | nil =>
    by_cases hb : b = 0#8 <;> simp [Memory.write, Memory.wfFrom, hb, h]
  | cons c t ih =>
    obtain ⟨k, v⟩ := c
    simp only [Memory.wfFrom, Bool.and_eq_true, decide_eq_true_eq] at w
    obtain ⟨⟨hk, hv⟩, ht⟩ := w
    by_cases h1 : a < k
    · by_cases hb : b = 0#8
      · simp [Memory.write, h1, hb, Memory.wfFrom, hk, hv, ht]
      · have hka : a + 1 ≤ k := h1
        simp [Memory.write, h1, hb, Memory.wfFrom, h, hka, hv, ht]
    · by_cases h2 : a = k
      · subst h2
        by_cases hb : b = 0#8
        · simp only [Memory.write, Nat.lt_irrefl, if_false, if_true, hb]
          exact Memory.wfFrom_mono t (a + 1) lo (by omega) ht
        · simp [Memory.write, hb, Memory.wfFrom, hk, ht]
      · have : k + 1 ≤ a := by omega
        simp [Memory.write, h1, h2, Memory.wfFrom, hk, hv, ih (k + 1) this ht]

/-- A write keeps the canonical form. -/
theorem Memory.write_wf (m : Memory) (a : Nat) (b : Byte) (w : m.wf = true) : (m.write a b).wf = true :=
  Memory.write_wfFrom m 0 a b (Nat.zero_le a) w

theorem Memory.writeN_wf (m : Memory) (a : Nat) (bs : List Byte) (w : m.wf = true) : (m.writeN a bs).wf = true := by
  induction bs generalizing m a with
  | nil => exact w
  | cons b t ih => exact ih _ _ (m.write_wf a b w)

theorem Memory.filter_wfFrom (m : Memory) (p : Host.Cell → Bool) (lo : Nat) (w : Memory.wfFrom lo m = true) :
    Memory.wfFrom lo (m.filter p) = true := by
  induction m generalizing lo with
  | nil => rfl
  | cons c t ih =>
    obtain ⟨k, v⟩ := c
    simp only [Memory.wfFrom, Bool.and_eq_true, decide_eq_true_eq] at w
    have ht := ih (k + 1) w.2
    by_cases hp : p (k, v) = true
    · simp [hp, Memory.wfFrom, w.1.1, w.1.2, ht]
    · simp only [List.filter_cons, hp]
      exact Memory.wfFrom_mono _ (k + 1) lo (by omega) ht

/-- Dropping cells keeps the canonical form. -/
theorem Memory.filter_wf (m : Memory) (p : Host.Cell → Bool) (w : m.wf = true) : Memory.wf (m.filter p) = true :=
  m.filter_wfFrom p 0 w

theorem Memory.clear_wf (m : Memory) (lo hi : Nat) (w : m.wf = true) : (m.clear lo hi).wf = true := m.filter_wf _ w

theorem Memory.foldl_write_wf {β : Type} (f : β → Nat × Byte) (l : List β) (m : Memory) (w : m.wf = true) :
    (l.foldl (fun m x => m.write (f x).1 (f x).2) m).wf = true := by
  induction l generalizing m with
  | nil => exact w
  | cons x t ih => exact ih _ (m.write_wf _ _ w)

/-- An address below every listed one reads as 0. -/
theorem Memory.read_below (m : Memory) (lo a : Nat) (h : a < lo) (w : Memory.wfFrom lo m = true) : m.read a = 0#8 := by
  cases m with
  | nil => rfl
  | cons c t =>
    obtain ⟨k, v⟩ := c
    simp only [Memory.wfFrom, Bool.and_eq_true, decide_eq_true_eq] at w
    have h1 : k ≠ a := by omega
    have h2 : a < k := by omega
    simp [Memory.read, h1, h2]

theorem Memory.read_writeFrom (m : Memory) (lo a x : Nat) (b : Byte) (w : Memory.wfFrom lo m = true) :
    (m.write a b).read x = if x = a then b else m.read x := by
  induction m generalizing lo with
  | nil =>
    by_cases hb : b = 0#8
    · by_cases hx : x = a <;> simp [Memory.write, Memory.read, hb, hx]
    · by_cases hx : x = a
      · simp [Memory.write, Memory.read, hb, hx]
      · have : a ≠ x := fun e => hx e.symm
        simp [Memory.write, Memory.read, hb, hx, this]
  | cons c t ih =>
    obtain ⟨k, v⟩ := c
    simp only [Memory.wfFrom, Bool.and_eq_true, decide_eq_true_eq] at w
    obtain ⟨⟨hk, hv⟩, ht⟩ := w
    have ih := ih (k + 1) ht
    by_cases h1 : a < k
    · by_cases hb : b = 0#8
      · by_cases hx : x = a
        · subst hx
          have : k ≠ x := by omega
          simp [Memory.write, h1, hb, Memory.read, this]
        · simp [Memory.write, h1, hb, hx]
      · by_cases hx : x = a
        · subst hx; simp [Memory.write, h1, hb, Memory.read]
        · have hax : a ≠ x := fun e => hx e.symm
          by_cases hxa : x < a
          · have : k ≠ x := by omega
            have h3 : x < k := by omega
            simp [Memory.write, h1, hb, Memory.read, hx, hax, hxa, this, h3]
          · simp [Memory.write, h1, hb, Memory.read, hx, hax, hxa]
    · by_cases h2 : a = k
      · subst h2
        by_cases hb : b = 0#8
        · by_cases hx : x = a
          · subst hx
            simp only [Memory.write, Nat.lt_irrefl, if_false, if_true, hb]
            exact Memory.read_below t (x + 1) x (by omega) ht
          · have hax : a ≠ x := fun e => hx e.symm
            by_cases hxa : x < a
            · simp only [Memory.write, Nat.lt_irrefl, if_false, if_true, hb, Memory.read, hax, hxa, hx]
              exact Memory.read_below t (a + 1) x (by omega) ht
            · simp [Memory.write, hb, Memory.read, hax, hxa, hx]
        · by_cases hx : x = a
          · simp [Memory.write, hb, Memory.read, hx]
          · have hax : a ≠ x := fun e => hx e.symm
            simp [Memory.write, hb, Memory.read, hx, hax]
      · by_cases hx : x = a
        · subst hx
          have hkx : k ≠ x := fun e => h2 e.symm
          simp [Memory.write, h1, h2, Memory.read, hkx, ih]
        · simp only [Memory.write, h1, h2, if_false, Memory.read, ih, hx]

/-- What a canonical memory reads after a write. -/
theorem Memory.read_write (m : Memory) (a x : Nat) (b : Byte) (w : m.wf = true) :
    (m.write a b).read x = if x = a then b else m.read x := m.read_writeFrom 0 a x b w

/-- Outside its range a write of several bytes changes nothing. -/
theorem Memory.read_writeN_outside (m : Memory) (a x : Nat) (bs : List Byte) (w : m.wf = true)
    (h : x < a ∨ a + bs.length ≤ x) : (m.writeN a bs).read x = m.read x := by
  induction bs generalizing m a with
  | nil => rfl
  | cons b t ih =>
    simp only [List.length_cons] at h
    rw [Memory.writeN, ih _ _ (m.write_wf a b w) (by omega), m.read_write a x b w, if_neg (by omega)]

/-- Inside its range a write of several bytes gives them. -/
theorem Memory.read_writeN_inside (m : Memory) (a i : Nat) (bs : List Byte) (w : m.wf = true) (h : i < bs.length) :
    (m.writeN a bs).read (a + i) = bs.getD i 0#8 := by
  induction bs generalizing m a i with
  | nil => simp at h
  | cons b t ih =>
    cases i with
    | zero =>
      rw [Memory.writeN, Memory.read_writeN_outside _ _ _ _ (m.write_wf a b w) (by omega), m.read_write a (a + 0) b w]
      simp
    | succ i =>
      have h' : i < t.length := by simpa using h
      have := ih (m.write a b) (a + 1) i (m.write_wf a b w) h'
      rw [Memory.writeN, show a + (i + 1) = a + 1 + i by omega, this]
      simp

end Sys2Proof.Machine
end

