-- ==== Sys2Proof/Laws/State.lean ====
section
/-! SUPPORT. What each update of the state leaves in each field, so that no later proof unfolds a record update. -/

namespace Sys2Proof.Machine

@[simp] theorem State.modCore_turns (x : State) (k : Key) (g : CoreCtx → CoreCtx) : (x.modCore k g).turns = x.turns := rfl
@[simp] theorem State.modCore_here (x : State) (k : Key) (g : CoreCtx → CoreCtx) : (x.modCore k g).here = x.here := rfl
@[simp] theorem State.modCore_free (x : State) (k : Key) (g : CoreCtx → CoreCtx) : (x.modCore k g).free = x.free := rfl
@[simp] theorem State.modCore_time (x : State) (k : Key) (g : CoreCtx → CoreCtx) : (x.modCore k g).time = x.time := rfl
@[simp] theorem State.modCore_ticks (x : State) (k : Key) (g : CoreCtx → CoreCtx) : (x.modCore k g).ticks = x.ticks := rfl
@[simp] theorem State.modCore_corr (x : State) (k : Key) (g : CoreCtx → CoreCtx) : (x.modCore k g).corr = x.corr := rfl
@[simp] theorem State.modCore_lastCorr (x : State) (k : Key) (g : CoreCtx → CoreCtx) : (x.modCore k g).lastCorr = x.lastCorr := rfl
@[simp] theorem State.modCore_off (x : State) (k : Key) (g : CoreCtx → CoreCtx) : (x.modCore k g).off = x.off := rfl
@[simp] theorem State.modCore_mcores (x : State) (k : Key) (g : CoreCtx → CoreCtx) : (x.modCore k g).mcores = x.mcores := rfl
@[simp] theorem State.modCore_teams (x : State) (k : Key) (g : CoreCtx → CoreCtx) : (x.modCore k g).teams = x.teams := rfl
@[simp] theorem State.modCore_phys (x : State) (k : Key) (g : CoreCtx → CoreCtx) : (x.modCore k g).phys = x.phys := rfl
@[simp] theorem State.modCore_physM (x : State) (k : Key) (g : CoreCtx → CoreCtx) : (x.modCore k g).physM = x.physM := rfl
@[simp] theorem State.modCore_engines (x : State) (k : Key) (g : CoreCtx → CoreCtx) : (x.modCore k g).engines = x.engines := rfl
@[simp] theorem State.modCore_nextCmd (x : State) (k : Key) (g : CoreCtx → CoreCtx) : (x.modCore k g).nextCmd = x.nextCmd := rfl
@[simp] theorem State.modCore_disp (x : State) (k : Key) (g : CoreCtx → CoreCtx) : (x.modCore k g).disp = x.disp := rfl
@[simp] theorem State.modCore_flat (x : State) (k : Key) (g : CoreCtx → CoreCtx) : (x.modCore k g).flat = x.flat := rfl
@[simp] theorem State.modCore_hbm (x : State) (k : Key) (g : CoreCtx → CoreCtx) : (x.modCore k g).hbm = x.hbm := rfl
@[simp] theorem State.modCore_frames (x : State) (k : Key) (g : CoreCtx → CoreCtx) : (x.modCore k g).frames = x.frames := rfl
@[simp] theorem State.modCore_host (x : State) (k : Key) (g : CoreCtx → CoreCtx) : (x.modCore k g).host = x.host := rfl
@[simp] theorem State.modCore_mgmt (x : State) (k : Key) (g : CoreCtx → CoreCtx) : (x.modCore k g).mgmt = x.mgmt := rfl
@[simp] theorem State.modCore_health (x : State) (k : Key) (g : CoreCtx → CoreCtx) : (x.modCore k g).health = x.health := rfl
@[simp] theorem State.modCore_power (x : State) (k : Key) (g : CoreCtx → CoreCtx) : (x.modCore k g).power = x.power := rfl
@[simp] theorem State.modCore_fabric (x : State) (k : Key) (g : CoreCtx → CoreCtx) : (x.modCore k g).fabric = x.fabric := rfl
@[simp] theorem State.modMcore_turns (x : State) (k : Key) (g : MCoreCtx → MCoreCtx) : (x.modMcore k g).turns = x.turns := rfl
@[simp] theorem State.modMcore_here (x : State) (k : Key) (g : MCoreCtx → MCoreCtx) : (x.modMcore k g).here = x.here := rfl
@[simp] theorem State.modMcore_free (x : State) (k : Key) (g : MCoreCtx → MCoreCtx) : (x.modMcore k g).free = x.free := rfl
@[simp] theorem State.modMcore_time (x : State) (k : Key) (g : MCoreCtx → MCoreCtx) : (x.modMcore k g).time = x.time := rfl
@[simp] theorem State.modMcore_ticks (x : State) (k : Key) (g : MCoreCtx → MCoreCtx) : (x.modMcore k g).ticks = x.ticks := rfl
@[simp] theorem State.modMcore_corr (x : State) (k : Key) (g : MCoreCtx → MCoreCtx) : (x.modMcore k g).corr = x.corr := rfl
@[simp] theorem State.modMcore_lastCorr (x : State) (k : Key) (g : MCoreCtx → MCoreCtx) : (x.modMcore k g).lastCorr = x.lastCorr := rfl
@[simp] theorem State.modMcore_off (x : State) (k : Key) (g : MCoreCtx → MCoreCtx) : (x.modMcore k g).off = x.off := rfl
@[simp] theorem State.modMcore_cores (x : State) (k : Key) (g : MCoreCtx → MCoreCtx) : (x.modMcore k g).cores = x.cores := rfl
@[simp] theorem State.modMcore_teams (x : State) (k : Key) (g : MCoreCtx → MCoreCtx) : (x.modMcore k g).teams = x.teams := rfl
@[simp] theorem State.modMcore_phys (x : State) (k : Key) (g : MCoreCtx → MCoreCtx) : (x.modMcore k g).phys = x.phys := rfl
@[simp] theorem State.modMcore_physM (x : State) (k : Key) (g : MCoreCtx → MCoreCtx) : (x.modMcore k g).physM = x.physM := rfl
@[simp] theorem State.modMcore_engines (x : State) (k : Key) (g : MCoreCtx → MCoreCtx) : (x.modMcore k g).engines = x.engines := rfl
@[simp] theorem State.modMcore_nextCmd (x : State) (k : Key) (g : MCoreCtx → MCoreCtx) : (x.modMcore k g).nextCmd = x.nextCmd := rfl
@[simp] theorem State.modMcore_disp (x : State) (k : Key) (g : MCoreCtx → MCoreCtx) : (x.modMcore k g).disp = x.disp := rfl
@[simp] theorem State.modMcore_flat (x : State) (k : Key) (g : MCoreCtx → MCoreCtx) : (x.modMcore k g).flat = x.flat := rfl
@[simp] theorem State.modMcore_hbm (x : State) (k : Key) (g : MCoreCtx → MCoreCtx) : (x.modMcore k g).hbm = x.hbm := rfl
@[simp] theorem State.modMcore_frames (x : State) (k : Key) (g : MCoreCtx → MCoreCtx) : (x.modMcore k g).frames = x.frames := rfl
@[simp] theorem State.modMcore_host (x : State) (k : Key) (g : MCoreCtx → MCoreCtx) : (x.modMcore k g).host = x.host := rfl
@[simp] theorem State.modMcore_mgmt (x : State) (k : Key) (g : MCoreCtx → MCoreCtx) : (x.modMcore k g).mgmt = x.mgmt := rfl
@[simp] theorem State.modMcore_health (x : State) (k : Key) (g : MCoreCtx → MCoreCtx) : (x.modMcore k g).health = x.health := rfl
@[simp] theorem State.modMcore_power (x : State) (k : Key) (g : MCoreCtx → MCoreCtx) : (x.modMcore k g).power = x.power := rfl
@[simp] theorem State.modMcore_fabric (x : State) (k : Key) (g : MCoreCtx → MCoreCtx) : (x.modMcore k g).fabric = x.fabric := rfl
@[simp] theorem State.modTeam_turns (x : State) (c : Nat) (g : Team → Team) : (x.modTeam c g).turns = x.turns := rfl
@[simp] theorem State.modTeam_here (x : State) (c : Nat) (g : Team → Team) : (x.modTeam c g).here = x.here := rfl
@[simp] theorem State.modTeam_free (x : State) (c : Nat) (g : Team → Team) : (x.modTeam c g).free = x.free := rfl
@[simp] theorem State.modTeam_time (x : State) (c : Nat) (g : Team → Team) : (x.modTeam c g).time = x.time := rfl
@[simp] theorem State.modTeam_ticks (x : State) (c : Nat) (g : Team → Team) : (x.modTeam c g).ticks = x.ticks := rfl
@[simp] theorem State.modTeam_corr (x : State) (c : Nat) (g : Team → Team) : (x.modTeam c g).corr = x.corr := rfl
@[simp] theorem State.modTeam_lastCorr (x : State) (c : Nat) (g : Team → Team) : (x.modTeam c g).lastCorr = x.lastCorr := rfl
@[simp] theorem State.modTeam_off (x : State) (c : Nat) (g : Team → Team) : (x.modTeam c g).off = x.off := rfl
@[simp] theorem State.modTeam_cores (x : State) (c : Nat) (g : Team → Team) : (x.modTeam c g).cores = x.cores := rfl
@[simp] theorem State.modTeam_mcores (x : State) (c : Nat) (g : Team → Team) : (x.modTeam c g).mcores = x.mcores := rfl
@[simp] theorem State.modTeam_phys (x : State) (c : Nat) (g : Team → Team) : (x.modTeam c g).phys = x.phys := rfl
@[simp] theorem State.modTeam_physM (x : State) (c : Nat) (g : Team → Team) : (x.modTeam c g).physM = x.physM := rfl
@[simp] theorem State.modTeam_engines (x : State) (c : Nat) (g : Team → Team) : (x.modTeam c g).engines = x.engines := rfl
@[simp] theorem State.modTeam_nextCmd (x : State) (c : Nat) (g : Team → Team) : (x.modTeam c g).nextCmd = x.nextCmd := rfl
@[simp] theorem State.modTeam_disp (x : State) (c : Nat) (g : Team → Team) : (x.modTeam c g).disp = x.disp := rfl
@[simp] theorem State.modTeam_flat (x : State) (c : Nat) (g : Team → Team) : (x.modTeam c g).flat = x.flat := rfl
@[simp] theorem State.modTeam_hbm (x : State) (c : Nat) (g : Team → Team) : (x.modTeam c g).hbm = x.hbm := rfl
@[simp] theorem State.modTeam_frames (x : State) (c : Nat) (g : Team → Team) : (x.modTeam c g).frames = x.frames := rfl
@[simp] theorem State.modTeam_host (x : State) (c : Nat) (g : Team → Team) : (x.modTeam c g).host = x.host := rfl
@[simp] theorem State.modTeam_mgmt (x : State) (c : Nat) (g : Team → Team) : (x.modTeam c g).mgmt = x.mgmt := rfl
@[simp] theorem State.modTeam_health (x : State) (c : Nat) (g : Team → Team) : (x.modTeam c g).health = x.health := rfl
@[simp] theorem State.modTeam_power (x : State) (c : Nat) (g : Team → Team) : (x.modTeam c g).power = x.power := rfl
@[simp] theorem State.modTeam_fabric (x : State) (c : Nat) (g : Team → Team) : (x.modTeam c g).fabric = x.fabric := rfl
@[simp] theorem State.modPhys_turns (x : State) (p : Nat) (g : PhysCore → PhysCore) : (x.modPhys p g).turns = x.turns := rfl
@[simp] theorem State.modPhys_here (x : State) (p : Nat) (g : PhysCore → PhysCore) : (x.modPhys p g).here = x.here := rfl
@[simp] theorem State.modPhys_free (x : State) (p : Nat) (g : PhysCore → PhysCore) : (x.modPhys p g).free = x.free := rfl
@[simp] theorem State.modPhys_time (x : State) (p : Nat) (g : PhysCore → PhysCore) : (x.modPhys p g).time = x.time := rfl
@[simp] theorem State.modPhys_ticks (x : State) (p : Nat) (g : PhysCore → PhysCore) : (x.modPhys p g).ticks = x.ticks := rfl
@[simp] theorem State.modPhys_corr (x : State) (p : Nat) (g : PhysCore → PhysCore) : (x.modPhys p g).corr = x.corr := rfl
@[simp] theorem State.modPhys_lastCorr (x : State) (p : Nat) (g : PhysCore → PhysCore) : (x.modPhys p g).lastCorr = x.lastCorr := rfl
@[simp] theorem State.modPhys_off (x : State) (p : Nat) (g : PhysCore → PhysCore) : (x.modPhys p g).off = x.off := rfl
@[simp] theorem State.modPhys_cores (x : State) (p : Nat) (g : PhysCore → PhysCore) : (x.modPhys p g).cores = x.cores := rfl
@[simp] theorem State.modPhys_mcores (x : State) (p : Nat) (g : PhysCore → PhysCore) : (x.modPhys p g).mcores = x.mcores := rfl
@[simp] theorem State.modPhys_teams (x : State) (p : Nat) (g : PhysCore → PhysCore) : (x.modPhys p g).teams = x.teams := rfl
@[simp] theorem State.modPhys_physM (x : State) (p : Nat) (g : PhysCore → PhysCore) : (x.modPhys p g).physM = x.physM := rfl
@[simp] theorem State.modPhys_engines (x : State) (p : Nat) (g : PhysCore → PhysCore) : (x.modPhys p g).engines = x.engines := rfl
@[simp] theorem State.modPhys_nextCmd (x : State) (p : Nat) (g : PhysCore → PhysCore) : (x.modPhys p g).nextCmd = x.nextCmd := rfl
@[simp] theorem State.modPhys_disp (x : State) (p : Nat) (g : PhysCore → PhysCore) : (x.modPhys p g).disp = x.disp := rfl
@[simp] theorem State.modPhys_flat (x : State) (p : Nat) (g : PhysCore → PhysCore) : (x.modPhys p g).flat = x.flat := rfl
@[simp] theorem State.modPhys_hbm (x : State) (p : Nat) (g : PhysCore → PhysCore) : (x.modPhys p g).hbm = x.hbm := rfl
@[simp] theorem State.modPhys_frames (x : State) (p : Nat) (g : PhysCore → PhysCore) : (x.modPhys p g).frames = x.frames := rfl
@[simp] theorem State.modPhys_host (x : State) (p : Nat) (g : PhysCore → PhysCore) : (x.modPhys p g).host = x.host := rfl
@[simp] theorem State.modPhys_mgmt (x : State) (p : Nat) (g : PhysCore → PhysCore) : (x.modPhys p g).mgmt = x.mgmt := rfl
@[simp] theorem State.modPhys_health (x : State) (p : Nat) (g : PhysCore → PhysCore) : (x.modPhys p g).health = x.health := rfl
@[simp] theorem State.modPhys_power (x : State) (p : Nat) (g : PhysCore → PhysCore) : (x.modPhys p g).power = x.power := rfl
@[simp] theorem State.modPhys_fabric (x : State) (p : Nat) (g : PhysCore → PhysCore) : (x.modPhys p g).fabric = x.fabric := rfl
@[simp] theorem State.modPhysM_turns (x : State) (p : Nat) (g : PhysMCore → PhysMCore) : (x.modPhysM p g).turns = x.turns := rfl
@[simp] theorem State.modPhysM_here (x : State) (p : Nat) (g : PhysMCore → PhysMCore) : (x.modPhysM p g).here = x.here := rfl
@[simp] theorem State.modPhysM_free (x : State) (p : Nat) (g : PhysMCore → PhysMCore) : (x.modPhysM p g).free = x.free := rfl
@[simp] theorem State.modPhysM_time (x : State) (p : Nat) (g : PhysMCore → PhysMCore) : (x.modPhysM p g).time = x.time := rfl
@[simp] theorem State.modPhysM_ticks (x : State) (p : Nat) (g : PhysMCore → PhysMCore) : (x.modPhysM p g).ticks = x.ticks := rfl
@[simp] theorem State.modPhysM_corr (x : State) (p : Nat) (g : PhysMCore → PhysMCore) : (x.modPhysM p g).corr = x.corr := rfl
@[simp] theorem State.modPhysM_lastCorr (x : State) (p : Nat) (g : PhysMCore → PhysMCore) : (x.modPhysM p g).lastCorr = x.lastCorr := rfl
@[simp] theorem State.modPhysM_off (x : State) (p : Nat) (g : PhysMCore → PhysMCore) : (x.modPhysM p g).off = x.off := rfl
@[simp] theorem State.modPhysM_cores (x : State) (p : Nat) (g : PhysMCore → PhysMCore) : (x.modPhysM p g).cores = x.cores := rfl
@[simp] theorem State.modPhysM_mcores (x : State) (p : Nat) (g : PhysMCore → PhysMCore) : (x.modPhysM p g).mcores = x.mcores := rfl
@[simp] theorem State.modPhysM_teams (x : State) (p : Nat) (g : PhysMCore → PhysMCore) : (x.modPhysM p g).teams = x.teams := rfl
@[simp] theorem State.modPhysM_phys (x : State) (p : Nat) (g : PhysMCore → PhysMCore) : (x.modPhysM p g).phys = x.phys := rfl
@[simp] theorem State.modPhysM_engines (x : State) (p : Nat) (g : PhysMCore → PhysMCore) : (x.modPhysM p g).engines = x.engines := rfl
@[simp] theorem State.modPhysM_nextCmd (x : State) (p : Nat) (g : PhysMCore → PhysMCore) : (x.modPhysM p g).nextCmd = x.nextCmd := rfl
@[simp] theorem State.modPhysM_disp (x : State) (p : Nat) (g : PhysMCore → PhysMCore) : (x.modPhysM p g).disp = x.disp := rfl
@[simp] theorem State.modPhysM_flat (x : State) (p : Nat) (g : PhysMCore → PhysMCore) : (x.modPhysM p g).flat = x.flat := rfl
@[simp] theorem State.modPhysM_hbm (x : State) (p : Nat) (g : PhysMCore → PhysMCore) : (x.modPhysM p g).hbm = x.hbm := rfl
@[simp] theorem State.modPhysM_frames (x : State) (p : Nat) (g : PhysMCore → PhysMCore) : (x.modPhysM p g).frames = x.frames := rfl
@[simp] theorem State.modPhysM_host (x : State) (p : Nat) (g : PhysMCore → PhysMCore) : (x.modPhysM p g).host = x.host := rfl
@[simp] theorem State.modPhysM_mgmt (x : State) (p : Nat) (g : PhysMCore → PhysMCore) : (x.modPhysM p g).mgmt = x.mgmt := rfl
@[simp] theorem State.modPhysM_health (x : State) (p : Nat) (g : PhysMCore → PhysMCore) : (x.modPhysM p g).health = x.health := rfl
@[simp] theorem State.modPhysM_power (x : State) (p : Nat) (g : PhysMCore → PhysMCore) : (x.modPhysM p g).power = x.power := rfl
@[simp] theorem State.modPhysM_fabric (x : State) (p : Nat) (g : PhysMCore → PhysMCore) : (x.modPhysM p g).fabric = x.fabric := rfl
@[simp] theorem State.setFlat_turns (x : State) (a : Nat) (bs : List Byte) : (x.setFlat a bs).turns = x.turns := rfl
@[simp] theorem State.setFlat_here (x : State) (a : Nat) (bs : List Byte) : (x.setFlat a bs).here = x.here := rfl
@[simp] theorem State.setFlat_free (x : State) (a : Nat) (bs : List Byte) : (x.setFlat a bs).free = x.free := rfl
@[simp] theorem State.setFlat_time (x : State) (a : Nat) (bs : List Byte) : (x.setFlat a bs).time = x.time := rfl
@[simp] theorem State.setFlat_ticks (x : State) (a : Nat) (bs : List Byte) : (x.setFlat a bs).ticks = x.ticks := rfl
@[simp] theorem State.setFlat_corr (x : State) (a : Nat) (bs : List Byte) : (x.setFlat a bs).corr = x.corr := rfl
@[simp] theorem State.setFlat_lastCorr (x : State) (a : Nat) (bs : List Byte) : (x.setFlat a bs).lastCorr = x.lastCorr := rfl
@[simp] theorem State.setFlat_off (x : State) (a : Nat) (bs : List Byte) : (x.setFlat a bs).off = x.off := rfl
@[simp] theorem State.setFlat_cores (x : State) (a : Nat) (bs : List Byte) : (x.setFlat a bs).cores = x.cores := rfl
@[simp] theorem State.setFlat_mcores (x : State) (a : Nat) (bs : List Byte) : (x.setFlat a bs).mcores = x.mcores := rfl
@[simp] theorem State.setFlat_teams (x : State) (a : Nat) (bs : List Byte) : (x.setFlat a bs).teams = x.teams := rfl
@[simp] theorem State.setFlat_phys (x : State) (a : Nat) (bs : List Byte) : (x.setFlat a bs).phys = x.phys := rfl
@[simp] theorem State.setFlat_physM (x : State) (a : Nat) (bs : List Byte) : (x.setFlat a bs).physM = x.physM := rfl
@[simp] theorem State.setFlat_engines (x : State) (a : Nat) (bs : List Byte) : (x.setFlat a bs).engines = x.engines := rfl
@[simp] theorem State.setFlat_nextCmd (x : State) (a : Nat) (bs : List Byte) : (x.setFlat a bs).nextCmd = x.nextCmd := rfl
@[simp] theorem State.setFlat_disp (x : State) (a : Nat) (bs : List Byte) : (x.setFlat a bs).disp = x.disp := rfl
@[simp] theorem State.setFlat_hbm (x : State) (a : Nat) (bs : List Byte) : (x.setFlat a bs).hbm = x.hbm := rfl
@[simp] theorem State.setFlat_frames (x : State) (a : Nat) (bs : List Byte) : (x.setFlat a bs).frames = x.frames := rfl
@[simp] theorem State.setFlat_host (x : State) (a : Nat) (bs : List Byte) : (x.setFlat a bs).host = x.host := rfl
@[simp] theorem State.setFlat_mgmt (x : State) (a : Nat) (bs : List Byte) : (x.setFlat a bs).mgmt = x.mgmt := rfl
@[simp] theorem State.setFlat_health (x : State) (a : Nat) (bs : List Byte) : (x.setFlat a bs).health = x.health := rfl
@[simp] theorem State.setFlat_power (x : State) (a : Nat) (bs : List Byte) : (x.setFlat a bs).power = x.power := rfl
@[simp] theorem State.setFlat_fabric (x : State) (a : Nat) (bs : List Byte) : (x.setFlat a bs).fabric = x.fabric := rfl
@[simp] theorem State.toHost_turns (x : State) (q : Nat) (ws : List W64) : (x.toHost q ws).turns = x.turns := rfl
@[simp] theorem State.toHost_here (x : State) (q : Nat) (ws : List W64) : (x.toHost q ws).here = x.here := rfl
@[simp] theorem State.toHost_free (x : State) (q : Nat) (ws : List W64) : (x.toHost q ws).free = x.free := rfl
@[simp] theorem State.toHost_time (x : State) (q : Nat) (ws : List W64) : (x.toHost q ws).time = x.time := rfl
@[simp] theorem State.toHost_ticks (x : State) (q : Nat) (ws : List W64) : (x.toHost q ws).ticks = x.ticks := rfl
@[simp] theorem State.toHost_corr (x : State) (q : Nat) (ws : List W64) : (x.toHost q ws).corr = x.corr := rfl
@[simp] theorem State.toHost_lastCorr (x : State) (q : Nat) (ws : List W64) : (x.toHost q ws).lastCorr = x.lastCorr := rfl
@[simp] theorem State.toHost_off (x : State) (q : Nat) (ws : List W64) : (x.toHost q ws).off = x.off := rfl
@[simp] theorem State.toHost_cores (x : State) (q : Nat) (ws : List W64) : (x.toHost q ws).cores = x.cores := rfl
@[simp] theorem State.toHost_mcores (x : State) (q : Nat) (ws : List W64) : (x.toHost q ws).mcores = x.mcores := rfl
@[simp] theorem State.toHost_teams (x : State) (q : Nat) (ws : List W64) : (x.toHost q ws).teams = x.teams := rfl
@[simp] theorem State.toHost_phys (x : State) (q : Nat) (ws : List W64) : (x.toHost q ws).phys = x.phys := rfl
@[simp] theorem State.toHost_physM (x : State) (q : Nat) (ws : List W64) : (x.toHost q ws).physM = x.physM := rfl
@[simp] theorem State.toHost_engines (x : State) (q : Nat) (ws : List W64) : (x.toHost q ws).engines = x.engines := rfl
@[simp] theorem State.toHost_nextCmd (x : State) (q : Nat) (ws : List W64) : (x.toHost q ws).nextCmd = x.nextCmd := rfl
@[simp] theorem State.toHost_disp (x : State) (q : Nat) (ws : List W64) : (x.toHost q ws).disp = x.disp := rfl
@[simp] theorem State.toHost_flat (x : State) (q : Nat) (ws : List W64) : (x.toHost q ws).flat = x.flat := rfl
@[simp] theorem State.toHost_hbm (x : State) (q : Nat) (ws : List W64) : (x.toHost q ws).hbm = x.hbm := rfl
@[simp] theorem State.toHost_frames (x : State) (q : Nat) (ws : List W64) : (x.toHost q ws).frames = x.frames := rfl
@[simp] theorem State.toHost_mgmt (x : State) (q : Nat) (ws : List W64) : (x.toHost q ws).mgmt = x.mgmt := rfl
@[simp] theorem State.toHost_health (x : State) (q : Nat) (ws : List W64) : (x.toHost q ws).health = x.health := rfl
@[simp] theorem State.toHost_power (x : State) (q : Nat) (ws : List W64) : (x.toHost q ws).power = x.power := rfl
@[simp] theorem State.toHost_fabric (x : State) (q : Nat) (ws : List W64) : (x.toHost q ws).fabric = x.fabric := rfl
@[simp] theorem State.teamToHost_turns (x : State) (c q : Nat) (w : W64) : (x.teamToHost c q w).turns = x.turns := rfl
@[simp] theorem State.teamToHost_here (x : State) (c q : Nat) (w : W64) : (x.teamToHost c q w).here = x.here := rfl
@[simp] theorem State.teamToHost_free (x : State) (c q : Nat) (w : W64) : (x.teamToHost c q w).free = x.free := rfl
@[simp] theorem State.teamToHost_time (x : State) (c q : Nat) (w : W64) : (x.teamToHost c q w).time = x.time := rfl
@[simp] theorem State.teamToHost_ticks (x : State) (c q : Nat) (w : W64) : (x.teamToHost c q w).ticks = x.ticks := rfl
@[simp] theorem State.teamToHost_corr (x : State) (c q : Nat) (w : W64) : (x.teamToHost c q w).corr = x.corr := rfl
@[simp] theorem State.teamToHost_lastCorr (x : State) (c q : Nat) (w : W64) : (x.teamToHost c q w).lastCorr = x.lastCorr := rfl
@[simp] theorem State.teamToHost_off (x : State) (c q : Nat) (w : W64) : (x.teamToHost c q w).off = x.off := rfl
@[simp] theorem State.teamToHost_cores (x : State) (c q : Nat) (w : W64) : (x.teamToHost c q w).cores = x.cores := rfl
@[simp] theorem State.teamToHost_mcores (x : State) (c q : Nat) (w : W64) : (x.teamToHost c q w).mcores = x.mcores := rfl
@[simp] theorem State.teamToHost_teams (x : State) (c q : Nat) (w : W64) : (x.teamToHost c q w).teams = x.teams := rfl
@[simp] theorem State.teamToHost_phys (x : State) (c q : Nat) (w : W64) : (x.teamToHost c q w).phys = x.phys := rfl
@[simp] theorem State.teamToHost_physM (x : State) (c q : Nat) (w : W64) : (x.teamToHost c q w).physM = x.physM := rfl
@[simp] theorem State.teamToHost_engines (x : State) (c q : Nat) (w : W64) : (x.teamToHost c q w).engines = x.engines := rfl
@[simp] theorem State.teamToHost_nextCmd (x : State) (c q : Nat) (w : W64) : (x.teamToHost c q w).nextCmd = x.nextCmd := rfl
@[simp] theorem State.teamToHost_disp (x : State) (c q : Nat) (w : W64) : (x.teamToHost c q w).disp = x.disp := rfl
@[simp] theorem State.teamToHost_flat (x : State) (c q : Nat) (w : W64) : (x.teamToHost c q w).flat = x.flat := rfl
@[simp] theorem State.teamToHost_hbm (x : State) (c q : Nat) (w : W64) : (x.teamToHost c q w).hbm = x.hbm := rfl
@[simp] theorem State.teamToHost_frames (x : State) (c q : Nat) (w : W64) : (x.teamToHost c q w).frames = x.frames := rfl
@[simp] theorem State.teamToHost_mgmt (x : State) (c q : Nat) (w : W64) : (x.teamToHost c q w).mgmt = x.mgmt := rfl
@[simp] theorem State.teamToHost_health (x : State) (c q : Nat) (w : W64) : (x.teamToHost c q w).health = x.health := rfl
@[simp] theorem State.teamToHost_power (x : State) (c q : Nat) (w : W64) : (x.teamToHost c q w).power = x.power := rfl
@[simp] theorem State.teamToHost_fabric (x : State) (c q : Nat) (w : W64) : (x.teamToHost c q w).fabric = x.fabric := rfl
@[simp] theorem State.toDisp_turns (x : State) (o : Source) (n : Nat) (ws : List W64) : (x.toDisp o n ws).turns = x.turns := rfl
@[simp] theorem State.toDisp_here (x : State) (o : Source) (n : Nat) (ws : List W64) : (x.toDisp o n ws).here = x.here := rfl
@[simp] theorem State.toDisp_free (x : State) (o : Source) (n : Nat) (ws : List W64) : (x.toDisp o n ws).free = x.free := rfl
@[simp] theorem State.toDisp_time (x : State) (o : Source) (n : Nat) (ws : List W64) : (x.toDisp o n ws).time = x.time := rfl
@[simp] theorem State.toDisp_ticks (x : State) (o : Source) (n : Nat) (ws : List W64) : (x.toDisp o n ws).ticks = x.ticks := rfl
@[simp] theorem State.toDisp_corr (x : State) (o : Source) (n : Nat) (ws : List W64) : (x.toDisp o n ws).corr = x.corr := rfl
@[simp] theorem State.toDisp_lastCorr (x : State) (o : Source) (n : Nat) (ws : List W64) : (x.toDisp o n ws).lastCorr = x.lastCorr := rfl
@[simp] theorem State.toDisp_off (x : State) (o : Source) (n : Nat) (ws : List W64) : (x.toDisp o n ws).off = x.off := rfl
@[simp] theorem State.toDisp_cores (x : State) (o : Source) (n : Nat) (ws : List W64) : (x.toDisp o n ws).cores = x.cores := rfl
@[simp] theorem State.toDisp_mcores (x : State) (o : Source) (n : Nat) (ws : List W64) : (x.toDisp o n ws).mcores = x.mcores := rfl
@[simp] theorem State.toDisp_teams (x : State) (o : Source) (n : Nat) (ws : List W64) : (x.toDisp o n ws).teams = x.teams := rfl
@[simp] theorem State.toDisp_phys (x : State) (o : Source) (n : Nat) (ws : List W64) : (x.toDisp o n ws).phys = x.phys := rfl
@[simp] theorem State.toDisp_physM (x : State) (o : Source) (n : Nat) (ws : List W64) : (x.toDisp o n ws).physM = x.physM := rfl
@[simp] theorem State.toDisp_engines (x : State) (o : Source) (n : Nat) (ws : List W64) : (x.toDisp o n ws).engines = x.engines := rfl
@[simp] theorem State.toDisp_nextCmd (x : State) (o : Source) (n : Nat) (ws : List W64) : (x.toDisp o n ws).nextCmd = x.nextCmd := rfl
@[simp] theorem State.toDisp_flat (x : State) (o : Source) (n : Nat) (ws : List W64) : (x.toDisp o n ws).flat = x.flat := rfl
@[simp] theorem State.toDisp_hbm (x : State) (o : Source) (n : Nat) (ws : List W64) : (x.toDisp o n ws).hbm = x.hbm := rfl
@[simp] theorem State.toDisp_frames (x : State) (o : Source) (n : Nat) (ws : List W64) : (x.toDisp o n ws).frames = x.frames := rfl
@[simp] theorem State.toDisp_host (x : State) (o : Source) (n : Nat) (ws : List W64) : (x.toDisp o n ws).host = x.host := rfl
@[simp] theorem State.toDisp_mgmt (x : State) (o : Source) (n : Nat) (ws : List W64) : (x.toDisp o n ws).mgmt = x.mgmt := rfl
@[simp] theorem State.toDisp_health (x : State) (o : Source) (n : Nat) (ws : List W64) : (x.toDisp o n ws).health = x.health := rfl
@[simp] theorem State.toDisp_power (x : State) (o : Source) (n : Nat) (ws : List W64) : (x.toDisp o n ws).power = x.power := rfl
@[simp] theorem State.toDisp_fabric (x : State) (o : Source) (n : Nat) (ws : List W64) : (x.toDisp o n ws).fabric = x.fabric := rfl
@[simp] theorem State.modFabric_turns (x : State) (g : Fabric → Fabric) : (x.modFabric g).turns = x.turns := rfl
@[simp] theorem State.modFabric_here (x : State) (g : Fabric → Fabric) : (x.modFabric g).here = x.here := rfl
@[simp] theorem State.modFabric_free (x : State) (g : Fabric → Fabric) : (x.modFabric g).free = x.free := rfl
@[simp] theorem State.modFabric_time (x : State) (g : Fabric → Fabric) : (x.modFabric g).time = x.time := rfl
@[simp] theorem State.modFabric_ticks (x : State) (g : Fabric → Fabric) : (x.modFabric g).ticks = x.ticks := rfl
@[simp] theorem State.modFabric_corr (x : State) (g : Fabric → Fabric) : (x.modFabric g).corr = x.corr := rfl
@[simp] theorem State.modFabric_lastCorr (x : State) (g : Fabric → Fabric) : (x.modFabric g).lastCorr = x.lastCorr := rfl
@[simp] theorem State.modFabric_off (x : State) (g : Fabric → Fabric) : (x.modFabric g).off = x.off := rfl
@[simp] theorem State.modFabric_cores (x : State) (g : Fabric → Fabric) : (x.modFabric g).cores = x.cores := rfl
@[simp] theorem State.modFabric_mcores (x : State) (g : Fabric → Fabric) : (x.modFabric g).mcores = x.mcores := rfl
@[simp] theorem State.modFabric_teams (x : State) (g : Fabric → Fabric) : (x.modFabric g).teams = x.teams := rfl
@[simp] theorem State.modFabric_phys (x : State) (g : Fabric → Fabric) : (x.modFabric g).phys = x.phys := rfl
@[simp] theorem State.modFabric_physM (x : State) (g : Fabric → Fabric) : (x.modFabric g).physM = x.physM := rfl
@[simp] theorem State.modFabric_engines (x : State) (g : Fabric → Fabric) : (x.modFabric g).engines = x.engines := rfl
@[simp] theorem State.modFabric_nextCmd (x : State) (g : Fabric → Fabric) : (x.modFabric g).nextCmd = x.nextCmd := rfl
@[simp] theorem State.modFabric_disp (x : State) (g : Fabric → Fabric) : (x.modFabric g).disp = x.disp := rfl
@[simp] theorem State.modFabric_flat (x : State) (g : Fabric → Fabric) : (x.modFabric g).flat = x.flat := rfl
@[simp] theorem State.modFabric_hbm (x : State) (g : Fabric → Fabric) : (x.modFabric g).hbm = x.hbm := rfl
@[simp] theorem State.modFabric_frames (x : State) (g : Fabric → Fabric) : (x.modFabric g).frames = x.frames := rfl
@[simp] theorem State.modFabric_host (x : State) (g : Fabric → Fabric) : (x.modFabric g).host = x.host := rfl
@[simp] theorem State.modFabric_mgmt (x : State) (g : Fabric → Fabric) : (x.modFabric g).mgmt = x.mgmt := rfl
@[simp] theorem State.modFabric_health (x : State) (g : Fabric → Fabric) : (x.modFabric g).health = x.health := rfl
@[simp] theorem State.modFabric_power (x : State) (g : Fabric → Fabric) : (x.modFabric g).power = x.power := rfl
@[simp] theorem State.modRes_turns (x : State) (k : ResKind) (n : Nat) (g : Resource → Resource) : (x.modRes k n g).turns = x.turns := rfl
@[simp] theorem State.modRes_here (x : State) (k : ResKind) (n : Nat) (g : Resource → Resource) : (x.modRes k n g).here = x.here := rfl
@[simp] theorem State.modRes_free (x : State) (k : ResKind) (n : Nat) (g : Resource → Resource) : (x.modRes k n g).free = x.free := rfl
@[simp] theorem State.modRes_time (x : State) (k : ResKind) (n : Nat) (g : Resource → Resource) : (x.modRes k n g).time = x.time := rfl
@[simp] theorem State.modRes_ticks (x : State) (k : ResKind) (n : Nat) (g : Resource → Resource) : (x.modRes k n g).ticks = x.ticks := rfl
@[simp] theorem State.modRes_corr (x : State) (k : ResKind) (n : Nat) (g : Resource → Resource) : (x.modRes k n g).corr = x.corr := rfl
@[simp] theorem State.modRes_lastCorr (x : State) (k : ResKind) (n : Nat) (g : Resource → Resource) : (x.modRes k n g).lastCorr = x.lastCorr := rfl
@[simp] theorem State.modRes_off (x : State) (k : ResKind) (n : Nat) (g : Resource → Resource) : (x.modRes k n g).off = x.off := rfl
@[simp] theorem State.modRes_cores (x : State) (k : ResKind) (n : Nat) (g : Resource → Resource) : (x.modRes k n g).cores = x.cores := rfl
@[simp] theorem State.modRes_mcores (x : State) (k : ResKind) (n : Nat) (g : Resource → Resource) : (x.modRes k n g).mcores = x.mcores := rfl
@[simp] theorem State.modRes_teams (x : State) (k : ResKind) (n : Nat) (g : Resource → Resource) : (x.modRes k n g).teams = x.teams := rfl
@[simp] theorem State.modRes_phys (x : State) (k : ResKind) (n : Nat) (g : Resource → Resource) : (x.modRes k n g).phys = x.phys := rfl
@[simp] theorem State.modRes_physM (x : State) (k : ResKind) (n : Nat) (g : Resource → Resource) : (x.modRes k n g).physM = x.physM := rfl
@[simp] theorem State.modRes_engines (x : State) (k : ResKind) (n : Nat) (g : Resource → Resource) : (x.modRes k n g).engines = x.engines := rfl
@[simp] theorem State.modRes_nextCmd (x : State) (k : ResKind) (n : Nat) (g : Resource → Resource) : (x.modRes k n g).nextCmd = x.nextCmd := rfl
@[simp] theorem State.modRes_disp (x : State) (k : ResKind) (n : Nat) (g : Resource → Resource) : (x.modRes k n g).disp = x.disp := rfl
@[simp] theorem State.modRes_flat (x : State) (k : ResKind) (n : Nat) (g : Resource → Resource) : (x.modRes k n g).flat = x.flat := rfl
@[simp] theorem State.modRes_hbm (x : State) (k : ResKind) (n : Nat) (g : Resource → Resource) : (x.modRes k n g).hbm = x.hbm := rfl
@[simp] theorem State.modRes_frames (x : State) (k : ResKind) (n : Nat) (g : Resource → Resource) : (x.modRes k n g).frames = x.frames := rfl
@[simp] theorem State.modRes_host (x : State) (k : ResKind) (n : Nat) (g : Resource → Resource) : (x.modRes k n g).host = x.host := rfl
@[simp] theorem State.modRes_mgmt (x : State) (k : ResKind) (n : Nat) (g : Resource → Resource) : (x.modRes k n g).mgmt = x.mgmt := rfl
@[simp] theorem State.modRes_power (x : State) (k : ResKind) (n : Nat) (g : Resource → Resource) : (x.modRes k n g).power = x.power := rfl
@[simp] theorem State.modRes_fabric (x : State) (k : ResKind) (n : Nat) (g : Resource → Resource) : (x.modRes k n g).fabric = x.fabric := rfl
@[simp] theorem CoreCtx.modElem_mes (x : CoreCtx) (p : Nat) (g : Elem → Elem) : (x.modElem p g).mes = x.mes := rfl
@[simp] theorem CoreCtx.modElem_ses (x : CoreCtx) (p : Nat) (g : Elem → Elem) : (x.modElem p g).ses = x.ses := rfl
@[simp] theorem CoreCtx.modElem_ces (x : CoreCtx) (p : Nat) (g : Elem → Elem) : (x.modElem p g).ces = x.ces := rfl
@[simp] theorem CoreCtx.modElem_les (x : CoreCtx) (p : Nat) (g : Elem → Elem) : (x.modElem p g).les = x.les := rfl
@[simp] theorem CoreCtx.modElem_flights (x : CoreCtx) (p : Nat) (g : Elem → Elem) : (x.modElem p g).flights = x.flights := rfl
@[simp] theorem CoreCtx.modElem_staging (x : CoreCtx) (p : Nat) (g : Elem → Elem) : (x.modElem p g).staging = x.staging := rfl
@[simp] theorem CoreCtx.modElem_grant (x : CoreCtx) (p : Nat) (g : Elem → Elem) : (x.modElem p g).grant = x.grant := rfl
@[simp] theorem CoreCtx.modElem_rowUsed (x : CoreCtx) (p : Nat) (g : Elem → Elem) : (x.modElem p g).rowUsed = x.rowUsed := rfl
@[simp] theorem CoreCtx.modElem_colTaken (x : CoreCtx) (p : Nat) (g : Elem → Elem) : (x.modElem p g).colTaken = x.colTaken := rfl
@[simp] theorem CoreCtx.modElem_busChosen (x : CoreCtx) (p : Nat) (g : Elem → Elem) : (x.modElem p g).busChosen = x.busChosen := rfl
@[simp] theorem CoreCtx.modElem_readers (x : CoreCtx) (p : Nat) (g : Elem → Elem) : (x.modElem p g).readers = x.readers := rfl
@[simp] theorem CoreCtx.modElem_upper (x : CoreCtx) (p : Nat) (g : Elem → Elem) : (x.modElem p g).upper = x.upper := rfl
@[simp] theorem CoreCtx.modElem_divs (x : CoreCtx) (p : Nat) (g : Elem → Elem) : (x.modElem p g).divs = x.divs := rfl
@[simp] theorem CoreCtx.modElem_runs (x : CoreCtx) (p : Nat) (g : Elem → Elem) : (x.modElem p g).runs = x.runs := rfl
@[simp] theorem CoreCtx.modElem_nextRun (x : CoreCtx) (p : Nat) (g : Elem → Elem) : (x.modElem p g).nextRun = x.nextRun := rfl
@[simp] theorem CoreCtx.modElem_nextReq (x : CoreCtx) (p : Nat) (g : Elem → Elem) : (x.modElem p g).nextReq = x.nextReq := rfl
@[simp] theorem CoreCtx.modElem_buf (x : CoreCtx) (p : Nat) (g : Elem → Elem) : (x.modElem p g).buf = x.buf := rfl
@[simp] theorem CoreCtx.modElem_filter (x : CoreCtx) (p : Nat) (g : Elem → Elem) : (x.modElem p g).filter = x.filter := rfl
@[simp] theorem CoreCtx.modElem_walker (x : CoreCtx) (p : Nat) (g : Elem → Elem) : (x.modElem p g).walker = x.walker := rfl
@[simp] theorem CoreCtx.modElem_cyc (x : CoreCtx) (p : Nat) (g : Elem → Elem) : (x.modElem p g).cyc = x.cyc := rfl
@[simp] theorem CoreCtx.modElem_begun (x : CoreCtx) (p : Nat) (g : Elem → Elem) : (x.modElem p g).begun = x.begun := rfl
@[simp] theorem CoreCtx.modElem_epoch (x : CoreCtx) (p : Nat) (g : Elem → Elem) : (x.modElem p g).epoch = x.epoch := rfl
@[simp] theorem CoreCtx.modElem_evc (x : CoreCtx) (p : Nat) (g : Elem → Elem) : (x.modElem p g).evc = x.evc := rfl
@[simp] theorem CoreCtx.modElem_admitN (x : CoreCtx) (p : Nat) (g : Elem → Elem) : (x.modElem p g).admitN = x.admitN := rfl
@[simp] theorem CoreCtx.modElem_admitW (x : CoreCtx) (p : Nat) (g : Elem → Elem) : (x.modElem p g).admitW = x.admitW := rfl
@[simp] theorem CoreCtx.modElem_allowance (x : CoreCtx) (p : Nat) (g : Elem → Elem) : (x.modElem p g).allowance = x.allowance := rfl
@[simp] theorem CoreCtx.modElem_admitLeft (x : CoreCtx) (p : Nat) (g : Elem → Elem) : (x.modElem p g).admitLeft = x.admitLeft := rfl
@[simp] theorem CoreCtx.modElem_frozen (x : CoreCtx) (p : Nat) (g : Elem → Elem) : (x.modElem p g).frozen = x.frozen := rfl
@[simp] theorem CoreCtx.modElem_raised (x : CoreCtx) (p : Nat) (g : Elem → Elem) : (x.modElem p g).raised = x.raised := rfl
@[simp] theorem CoreCtx.modElem_viewOpen (x : CoreCtx) (p : Nat) (g : Elem → Elem) : (x.modElem p g).viewOpen = x.viewOpen := rfl
@[simp] theorem CoreCtx.modElem_resident (x : CoreCtx) (p : Nat) (g : Elem → Elem) : (x.modElem p g).resident = x.resident := rfl
@[simp] theorem CoreCtx.modElem_ends (x : CoreCtx) (p : Nat) (g : Elem → Elem) : (x.modElem p g).ends = x.ends := rfl
@[simp] theorem CoreCtx.modElem_cfgMiss (x : CoreCtx) (p : Nat) (g : Elem → Elem) : (x.modElem p g).cfgMiss = x.cfgMiss := rfl
@[simp] theorem CoreCtx.modElem_verdicts (x : CoreCtx) (p : Nat) (g : Elem → Elem) : (x.modElem p g).verdicts = x.verdicts := rfl
@[simp] theorem CoreCtx.modMe_elems (x : CoreCtx) (p : Nat) (g : ME → ME) : (x.modMe p g).elems = x.elems := rfl
@[simp] theorem CoreCtx.modMe_ses (x : CoreCtx) (p : Nat) (g : ME → ME) : (x.modMe p g).ses = x.ses := rfl
@[simp] theorem CoreCtx.modMe_ces (x : CoreCtx) (p : Nat) (g : ME → ME) : (x.modMe p g).ces = x.ces := rfl
@[simp] theorem CoreCtx.modMe_les (x : CoreCtx) (p : Nat) (g : ME → ME) : (x.modMe p g).les = x.les := rfl
@[simp] theorem CoreCtx.modMe_flights (x : CoreCtx) (p : Nat) (g : ME → ME) : (x.modMe p g).flights = x.flights := rfl
@[simp] theorem CoreCtx.modMe_staging (x : CoreCtx) (p : Nat) (g : ME → ME) : (x.modMe p g).staging = x.staging := rfl
@[simp] theorem CoreCtx.modMe_grant (x : CoreCtx) (p : Nat) (g : ME → ME) : (x.modMe p g).grant = x.grant := rfl
@[simp] theorem CoreCtx.modMe_rowUsed (x : CoreCtx) (p : Nat) (g : ME → ME) : (x.modMe p g).rowUsed = x.rowUsed := rfl
@[simp] theorem CoreCtx.modMe_colTaken (x : CoreCtx) (p : Nat) (g : ME → ME) : (x.modMe p g).colTaken = x.colTaken := rfl
@[simp] theorem CoreCtx.modMe_busChosen (x : CoreCtx) (p : Nat) (g : ME → ME) : (x.modMe p g).busChosen = x.busChosen := rfl
@[simp] theorem CoreCtx.modMe_readers (x : CoreCtx) (p : Nat) (g : ME → ME) : (x.modMe p g).readers = x.readers := rfl
@[simp] theorem CoreCtx.modMe_upper (x : CoreCtx) (p : Nat) (g : ME → ME) : (x.modMe p g).upper = x.upper := rfl
@[simp] theorem CoreCtx.modMe_divs (x : CoreCtx) (p : Nat) (g : ME → ME) : (x.modMe p g).divs = x.divs := rfl
@[simp] theorem CoreCtx.modMe_runs (x : CoreCtx) (p : Nat) (g : ME → ME) : (x.modMe p g).runs = x.runs := rfl
@[simp] theorem CoreCtx.modMe_nextRun (x : CoreCtx) (p : Nat) (g : ME → ME) : (x.modMe p g).nextRun = x.nextRun := rfl
@[simp] theorem CoreCtx.modMe_nextReq (x : CoreCtx) (p : Nat) (g : ME → ME) : (x.modMe p g).nextReq = x.nextReq := rfl
@[simp] theorem CoreCtx.modMe_buf (x : CoreCtx) (p : Nat) (g : ME → ME) : (x.modMe p g).buf = x.buf := rfl
@[simp] theorem CoreCtx.modMe_filter (x : CoreCtx) (p : Nat) (g : ME → ME) : (x.modMe p g).filter = x.filter := rfl
@[simp] theorem CoreCtx.modMe_walker (x : CoreCtx) (p : Nat) (g : ME → ME) : (x.modMe p g).walker = x.walker := rfl
@[simp] theorem CoreCtx.modMe_cyc (x : CoreCtx) (p : Nat) (g : ME → ME) : (x.modMe p g).cyc = x.cyc := rfl
@[simp] theorem CoreCtx.modMe_begun (x : CoreCtx) (p : Nat) (g : ME → ME) : (x.modMe p g).begun = x.begun := rfl
@[simp] theorem CoreCtx.modMe_epoch (x : CoreCtx) (p : Nat) (g : ME → ME) : (x.modMe p g).epoch = x.epoch := rfl
@[simp] theorem CoreCtx.modMe_evc (x : CoreCtx) (p : Nat) (g : ME → ME) : (x.modMe p g).evc = x.evc := rfl
@[simp] theorem CoreCtx.modMe_admitN (x : CoreCtx) (p : Nat) (g : ME → ME) : (x.modMe p g).admitN = x.admitN := rfl
@[simp] theorem CoreCtx.modMe_admitW (x : CoreCtx) (p : Nat) (g : ME → ME) : (x.modMe p g).admitW = x.admitW := rfl
@[simp] theorem CoreCtx.modMe_allowance (x : CoreCtx) (p : Nat) (g : ME → ME) : (x.modMe p g).allowance = x.allowance := rfl
@[simp] theorem CoreCtx.modMe_admitLeft (x : CoreCtx) (p : Nat) (g : ME → ME) : (x.modMe p g).admitLeft = x.admitLeft := rfl
@[simp] theorem CoreCtx.modMe_frozen (x : CoreCtx) (p : Nat) (g : ME → ME) : (x.modMe p g).frozen = x.frozen := rfl
@[simp] theorem CoreCtx.modMe_raised (x : CoreCtx) (p : Nat) (g : ME → ME) : (x.modMe p g).raised = x.raised := rfl
@[simp] theorem CoreCtx.modMe_viewOpen (x : CoreCtx) (p : Nat) (g : ME → ME) : (x.modMe p g).viewOpen = x.viewOpen := rfl
@[simp] theorem CoreCtx.modMe_resident (x : CoreCtx) (p : Nat) (g : ME → ME) : (x.modMe p g).resident = x.resident := rfl
@[simp] theorem CoreCtx.modMe_ends (x : CoreCtx) (p : Nat) (g : ME → ME) : (x.modMe p g).ends = x.ends := rfl
@[simp] theorem CoreCtx.modMe_cfgMiss (x : CoreCtx) (p : Nat) (g : ME → ME) : (x.modMe p g).cfgMiss = x.cfgMiss := rfl
@[simp] theorem CoreCtx.modMe_verdicts (x : CoreCtx) (p : Nat) (g : ME → ME) : (x.modMe p g).verdicts = x.verdicts := rfl
@[simp] theorem CoreCtx.modSe_elems (x : CoreCtx) (p : Nat) (g : SE → SE) : (x.modSe p g).elems = x.elems := rfl
@[simp] theorem CoreCtx.modSe_mes (x : CoreCtx) (p : Nat) (g : SE → SE) : (x.modSe p g).mes = x.mes := rfl
@[simp] theorem CoreCtx.modSe_ces (x : CoreCtx) (p : Nat) (g : SE → SE) : (x.modSe p g).ces = x.ces := rfl
@[simp] theorem CoreCtx.modSe_les (x : CoreCtx) (p : Nat) (g : SE → SE) : (x.modSe p g).les = x.les := rfl
@[simp] theorem CoreCtx.modSe_flights (x : CoreCtx) (p : Nat) (g : SE → SE) : (x.modSe p g).flights = x.flights := rfl
@[simp] theorem CoreCtx.modSe_staging (x : CoreCtx) (p : Nat) (g : SE → SE) : (x.modSe p g).staging = x.staging := rfl
@[simp] theorem CoreCtx.modSe_grant (x : CoreCtx) (p : Nat) (g : SE → SE) : (x.modSe p g).grant = x.grant := rfl
@[simp] theorem CoreCtx.modSe_rowUsed (x : CoreCtx) (p : Nat) (g : SE → SE) : (x.modSe p g).rowUsed = x.rowUsed := rfl
@[simp] theorem CoreCtx.modSe_colTaken (x : CoreCtx) (p : Nat) (g : SE → SE) : (x.modSe p g).colTaken = x.colTaken := rfl
@[simp] theorem CoreCtx.modSe_busChosen (x : CoreCtx) (p : Nat) (g : SE → SE) : (x.modSe p g).busChosen = x.busChosen := rfl
@[simp] theorem CoreCtx.modSe_readers (x : CoreCtx) (p : Nat) (g : SE → SE) : (x.modSe p g).readers = x.readers := rfl
@[simp] theorem CoreCtx.modSe_upper (x : CoreCtx) (p : Nat) (g : SE → SE) : (x.modSe p g).upper = x.upper := rfl
@[simp] theorem CoreCtx.modSe_divs (x : CoreCtx) (p : Nat) (g : SE → SE) : (x.modSe p g).divs = x.divs := rfl
@[simp] theorem CoreCtx.modSe_runs (x : CoreCtx) (p : Nat) (g : SE → SE) : (x.modSe p g).runs = x.runs := rfl
@[simp] theorem CoreCtx.modSe_nextRun (x : CoreCtx) (p : Nat) (g : SE → SE) : (x.modSe p g).nextRun = x.nextRun := rfl
@[simp] theorem CoreCtx.modSe_nextReq (x : CoreCtx) (p : Nat) (g : SE → SE) : (x.modSe p g).nextReq = x.nextReq := rfl
@[simp] theorem CoreCtx.modSe_buf (x : CoreCtx) (p : Nat) (g : SE → SE) : (x.modSe p g).buf = x.buf := rfl
@[simp] theorem CoreCtx.modSe_filter (x : CoreCtx) (p : Nat) (g : SE → SE) : (x.modSe p g).filter = x.filter := rfl
@[simp] theorem CoreCtx.modSe_walker (x : CoreCtx) (p : Nat) (g : SE → SE) : (x.modSe p g).walker = x.walker := rfl
@[simp] theorem CoreCtx.modSe_cyc (x : CoreCtx) (p : Nat) (g : SE → SE) : (x.modSe p g).cyc = x.cyc := rfl
@[simp] theorem CoreCtx.modSe_begun (x : CoreCtx) (p : Nat) (g : SE → SE) : (x.modSe p g).begun = x.begun := rfl
@[simp] theorem CoreCtx.modSe_epoch (x : CoreCtx) (p : Nat) (g : SE → SE) : (x.modSe p g).epoch = x.epoch := rfl
@[simp] theorem CoreCtx.modSe_evc (x : CoreCtx) (p : Nat) (g : SE → SE) : (x.modSe p g).evc = x.evc := rfl
@[simp] theorem CoreCtx.modSe_admitN (x : CoreCtx) (p : Nat) (g : SE → SE) : (x.modSe p g).admitN = x.admitN := rfl
@[simp] theorem CoreCtx.modSe_admitW (x : CoreCtx) (p : Nat) (g : SE → SE) : (x.modSe p g).admitW = x.admitW := rfl
@[simp] theorem CoreCtx.modSe_allowance (x : CoreCtx) (p : Nat) (g : SE → SE) : (x.modSe p g).allowance = x.allowance := rfl
@[simp] theorem CoreCtx.modSe_admitLeft (x : CoreCtx) (p : Nat) (g : SE → SE) : (x.modSe p g).admitLeft = x.admitLeft := rfl
@[simp] theorem CoreCtx.modSe_frozen (x : CoreCtx) (p : Nat) (g : SE → SE) : (x.modSe p g).frozen = x.frozen := rfl
@[simp] theorem CoreCtx.modSe_raised (x : CoreCtx) (p : Nat) (g : SE → SE) : (x.modSe p g).raised = x.raised := rfl
@[simp] theorem CoreCtx.modSe_viewOpen (x : CoreCtx) (p : Nat) (g : SE → SE) : (x.modSe p g).viewOpen = x.viewOpen := rfl
@[simp] theorem CoreCtx.modSe_resident (x : CoreCtx) (p : Nat) (g : SE → SE) : (x.modSe p g).resident = x.resident := rfl
@[simp] theorem CoreCtx.modSe_ends (x : CoreCtx) (p : Nat) (g : SE → SE) : (x.modSe p g).ends = x.ends := rfl
@[simp] theorem CoreCtx.modSe_cfgMiss (x : CoreCtx) (p : Nat) (g : SE → SE) : (x.modSe p g).cfgMiss = x.cfgMiss := rfl
@[simp] theorem CoreCtx.modSe_verdicts (x : CoreCtx) (p : Nat) (g : SE → SE) : (x.modSe p g).verdicts = x.verdicts := rfl
@[simp] theorem CoreCtx.modCe_elems (x : CoreCtx) (p : Nat) (g : CE → CE) : (x.modCe p g).elems = x.elems := rfl
@[simp] theorem CoreCtx.modCe_mes (x : CoreCtx) (p : Nat) (g : CE → CE) : (x.modCe p g).mes = x.mes := rfl
@[simp] theorem CoreCtx.modCe_ses (x : CoreCtx) (p : Nat) (g : CE → CE) : (x.modCe p g).ses = x.ses := rfl
@[simp] theorem CoreCtx.modCe_les (x : CoreCtx) (p : Nat) (g : CE → CE) : (x.modCe p g).les = x.les := rfl
@[simp] theorem CoreCtx.modCe_flights (x : CoreCtx) (p : Nat) (g : CE → CE) : (x.modCe p g).flights = x.flights := rfl
@[simp] theorem CoreCtx.modCe_staging (x : CoreCtx) (p : Nat) (g : CE → CE) : (x.modCe p g).staging = x.staging := rfl
@[simp] theorem CoreCtx.modCe_grant (x : CoreCtx) (p : Nat) (g : CE → CE) : (x.modCe p g).grant = x.grant := rfl
@[simp] theorem CoreCtx.modCe_rowUsed (x : CoreCtx) (p : Nat) (g : CE → CE) : (x.modCe p g).rowUsed = x.rowUsed := rfl
@[simp] theorem CoreCtx.modCe_colTaken (x : CoreCtx) (p : Nat) (g : CE → CE) : (x.modCe p g).colTaken = x.colTaken := rfl
@[simp] theorem CoreCtx.modCe_busChosen (x : CoreCtx) (p : Nat) (g : CE → CE) : (x.modCe p g).busChosen = x.busChosen := rfl
@[simp] theorem CoreCtx.modCe_readers (x : CoreCtx) (p : Nat) (g : CE → CE) : (x.modCe p g).readers = x.readers := rfl
@[simp] theorem CoreCtx.modCe_upper (x : CoreCtx) (p : Nat) (g : CE → CE) : (x.modCe p g).upper = x.upper := rfl
@[simp] theorem CoreCtx.modCe_divs (x : CoreCtx) (p : Nat) (g : CE → CE) : (x.modCe p g).divs = x.divs := rfl
@[simp] theorem CoreCtx.modCe_runs (x : CoreCtx) (p : Nat) (g : CE → CE) : (x.modCe p g).runs = x.runs := rfl
@[simp] theorem CoreCtx.modCe_nextRun (x : CoreCtx) (p : Nat) (g : CE → CE) : (x.modCe p g).nextRun = x.nextRun := rfl
@[simp] theorem CoreCtx.modCe_nextReq (x : CoreCtx) (p : Nat) (g : CE → CE) : (x.modCe p g).nextReq = x.nextReq := rfl
@[simp] theorem CoreCtx.modCe_buf (x : CoreCtx) (p : Nat) (g : CE → CE) : (x.modCe p g).buf = x.buf := rfl
@[simp] theorem CoreCtx.modCe_filter (x : CoreCtx) (p : Nat) (g : CE → CE) : (x.modCe p g).filter = x.filter := rfl
@[simp] theorem CoreCtx.modCe_walker (x : CoreCtx) (p : Nat) (g : CE → CE) : (x.modCe p g).walker = x.walker := rfl
@[simp] theorem CoreCtx.modCe_cyc (x : CoreCtx) (p : Nat) (g : CE → CE) : (x.modCe p g).cyc = x.cyc := rfl
@[simp] theorem CoreCtx.modCe_begun (x : CoreCtx) (p : Nat) (g : CE → CE) : (x.modCe p g).begun = x.begun := rfl
@[simp] theorem CoreCtx.modCe_epoch (x : CoreCtx) (p : Nat) (g : CE → CE) : (x.modCe p g).epoch = x.epoch := rfl
@[simp] theorem CoreCtx.modCe_evc (x : CoreCtx) (p : Nat) (g : CE → CE) : (x.modCe p g).evc = x.evc := rfl
@[simp] theorem CoreCtx.modCe_admitN (x : CoreCtx) (p : Nat) (g : CE → CE) : (x.modCe p g).admitN = x.admitN := rfl
@[simp] theorem CoreCtx.modCe_admitW (x : CoreCtx) (p : Nat) (g : CE → CE) : (x.modCe p g).admitW = x.admitW := rfl
@[simp] theorem CoreCtx.modCe_allowance (x : CoreCtx) (p : Nat) (g : CE → CE) : (x.modCe p g).allowance = x.allowance := rfl
@[simp] theorem CoreCtx.modCe_admitLeft (x : CoreCtx) (p : Nat) (g : CE → CE) : (x.modCe p g).admitLeft = x.admitLeft := rfl
@[simp] theorem CoreCtx.modCe_frozen (x : CoreCtx) (p : Nat) (g : CE → CE) : (x.modCe p g).frozen = x.frozen := rfl
@[simp] theorem CoreCtx.modCe_raised (x : CoreCtx) (p : Nat) (g : CE → CE) : (x.modCe p g).raised = x.raised := rfl
@[simp] theorem CoreCtx.modCe_viewOpen (x : CoreCtx) (p : Nat) (g : CE → CE) : (x.modCe p g).viewOpen = x.viewOpen := rfl
@[simp] theorem CoreCtx.modCe_resident (x : CoreCtx) (p : Nat) (g : CE → CE) : (x.modCe p g).resident = x.resident := rfl
@[simp] theorem CoreCtx.modCe_ends (x : CoreCtx) (p : Nat) (g : CE → CE) : (x.modCe p g).ends = x.ends := rfl
@[simp] theorem CoreCtx.modCe_cfgMiss (x : CoreCtx) (p : Nat) (g : CE → CE) : (x.modCe p g).cfgMiss = x.cfgMiss := rfl
@[simp] theorem CoreCtx.modCe_verdicts (x : CoreCtx) (p : Nat) (g : CE → CE) : (x.modCe p g).verdicts = x.verdicts := rfl
@[simp] theorem CoreCtx.modLe_elems (x : CoreCtx) (p : Nat) (g : LE → LE) : (x.modLe p g).elems = x.elems := rfl
@[simp] theorem CoreCtx.modLe_mes (x : CoreCtx) (p : Nat) (g : LE → LE) : (x.modLe p g).mes = x.mes := rfl
@[simp] theorem CoreCtx.modLe_ses (x : CoreCtx) (p : Nat) (g : LE → LE) : (x.modLe p g).ses = x.ses := rfl
@[simp] theorem CoreCtx.modLe_ces (x : CoreCtx) (p : Nat) (g : LE → LE) : (x.modLe p g).ces = x.ces := rfl
@[simp] theorem CoreCtx.modLe_flights (x : CoreCtx) (p : Nat) (g : LE → LE) : (x.modLe p g).flights = x.flights := rfl
@[simp] theorem CoreCtx.modLe_staging (x : CoreCtx) (p : Nat) (g : LE → LE) : (x.modLe p g).staging = x.staging := rfl
@[simp] theorem CoreCtx.modLe_grant (x : CoreCtx) (p : Nat) (g : LE → LE) : (x.modLe p g).grant = x.grant := rfl
@[simp] theorem CoreCtx.modLe_rowUsed (x : CoreCtx) (p : Nat) (g : LE → LE) : (x.modLe p g).rowUsed = x.rowUsed := rfl
@[simp] theorem CoreCtx.modLe_colTaken (x : CoreCtx) (p : Nat) (g : LE → LE) : (x.modLe p g).colTaken = x.colTaken := rfl
@[simp] theorem CoreCtx.modLe_busChosen (x : CoreCtx) (p : Nat) (g : LE → LE) : (x.modLe p g).busChosen = x.busChosen := rfl
@[simp] theorem CoreCtx.modLe_readers (x : CoreCtx) (p : Nat) (g : LE → LE) : (x.modLe p g).readers = x.readers := rfl
@[simp] theorem CoreCtx.modLe_upper (x : CoreCtx) (p : Nat) (g : LE → LE) : (x.modLe p g).upper = x.upper := rfl
@[simp] theorem CoreCtx.modLe_divs (x : CoreCtx) (p : Nat) (g : LE → LE) : (x.modLe p g).divs = x.divs := rfl
@[simp] theorem CoreCtx.modLe_runs (x : CoreCtx) (p : Nat) (g : LE → LE) : (x.modLe p g).runs = x.runs := rfl
@[simp] theorem CoreCtx.modLe_nextRun (x : CoreCtx) (p : Nat) (g : LE → LE) : (x.modLe p g).nextRun = x.nextRun := rfl
@[simp] theorem CoreCtx.modLe_nextReq (x : CoreCtx) (p : Nat) (g : LE → LE) : (x.modLe p g).nextReq = x.nextReq := rfl
@[simp] theorem CoreCtx.modLe_buf (x : CoreCtx) (p : Nat) (g : LE → LE) : (x.modLe p g).buf = x.buf := rfl
@[simp] theorem CoreCtx.modLe_filter (x : CoreCtx) (p : Nat) (g : LE → LE) : (x.modLe p g).filter = x.filter := rfl
@[simp] theorem CoreCtx.modLe_walker (x : CoreCtx) (p : Nat) (g : LE → LE) : (x.modLe p g).walker = x.walker := rfl
@[simp] theorem CoreCtx.modLe_cyc (x : CoreCtx) (p : Nat) (g : LE → LE) : (x.modLe p g).cyc = x.cyc := rfl
@[simp] theorem CoreCtx.modLe_begun (x : CoreCtx) (p : Nat) (g : LE → LE) : (x.modLe p g).begun = x.begun := rfl
@[simp] theorem CoreCtx.modLe_epoch (x : CoreCtx) (p : Nat) (g : LE → LE) : (x.modLe p g).epoch = x.epoch := rfl
@[simp] theorem CoreCtx.modLe_evc (x : CoreCtx) (p : Nat) (g : LE → LE) : (x.modLe p g).evc = x.evc := rfl
@[simp] theorem CoreCtx.modLe_admitN (x : CoreCtx) (p : Nat) (g : LE → LE) : (x.modLe p g).admitN = x.admitN := rfl
@[simp] theorem CoreCtx.modLe_admitW (x : CoreCtx) (p : Nat) (g : LE → LE) : (x.modLe p g).admitW = x.admitW := rfl
@[simp] theorem CoreCtx.modLe_allowance (x : CoreCtx) (p : Nat) (g : LE → LE) : (x.modLe p g).allowance = x.allowance := rfl
@[simp] theorem CoreCtx.modLe_admitLeft (x : CoreCtx) (p : Nat) (g : LE → LE) : (x.modLe p g).admitLeft = x.admitLeft := rfl
@[simp] theorem CoreCtx.modLe_frozen (x : CoreCtx) (p : Nat) (g : LE → LE) : (x.modLe p g).frozen = x.frozen := rfl
@[simp] theorem CoreCtx.modLe_raised (x : CoreCtx) (p : Nat) (g : LE → LE) : (x.modLe p g).raised = x.raised := rfl
@[simp] theorem CoreCtx.modLe_viewOpen (x : CoreCtx) (p : Nat) (g : LE → LE) : (x.modLe p g).viewOpen = x.viewOpen := rfl
@[simp] theorem CoreCtx.modLe_resident (x : CoreCtx) (p : Nat) (g : LE → LE) : (x.modLe p g).resident = x.resident := rfl
@[simp] theorem CoreCtx.modLe_ends (x : CoreCtx) (p : Nat) (g : LE → LE) : (x.modLe p g).ends = x.ends := rfl
@[simp] theorem CoreCtx.modLe_cfgMiss (x : CoreCtx) (p : Nat) (g : LE → LE) : (x.modLe p g).cfgMiss = x.cfgMiss := rfl
@[simp] theorem CoreCtx.modLe_verdicts (x : CoreCtx) (p : Nat) (g : LE → LE) : (x.modLe p g).verdicts = x.verdicts := rfl
@[simp] theorem CoreCtx.modRun_elems (x : CoreCtx) (n : Nat) (g : Run → Run) : (x.modRun n g).elems = x.elems := rfl
@[simp] theorem CoreCtx.modRun_mes (x : CoreCtx) (n : Nat) (g : Run → Run) : (x.modRun n g).mes = x.mes := rfl
@[simp] theorem CoreCtx.modRun_ses (x : CoreCtx) (n : Nat) (g : Run → Run) : (x.modRun n g).ses = x.ses := rfl
@[simp] theorem CoreCtx.modRun_ces (x : CoreCtx) (n : Nat) (g : Run → Run) : (x.modRun n g).ces = x.ces := rfl
@[simp] theorem CoreCtx.modRun_les (x : CoreCtx) (n : Nat) (g : Run → Run) : (x.modRun n g).les = x.les := rfl
@[simp] theorem CoreCtx.modRun_flights (x : CoreCtx) (n : Nat) (g : Run → Run) : (x.modRun n g).flights = x.flights := rfl
@[simp] theorem CoreCtx.modRun_staging (x : CoreCtx) (n : Nat) (g : Run → Run) : (x.modRun n g).staging = x.staging := rfl
@[simp] theorem CoreCtx.modRun_grant (x : CoreCtx) (n : Nat) (g : Run → Run) : (x.modRun n g).grant = x.grant := rfl
@[simp] theorem CoreCtx.modRun_rowUsed (x : CoreCtx) (n : Nat) (g : Run → Run) : (x.modRun n g).rowUsed = x.rowUsed := rfl
@[simp] theorem CoreCtx.modRun_colTaken (x : CoreCtx) (n : Nat) (g : Run → Run) : (x.modRun n g).colTaken = x.colTaken := rfl
@[simp] theorem CoreCtx.modRun_busChosen (x : CoreCtx) (n : Nat) (g : Run → Run) : (x.modRun n g).busChosen = x.busChosen := rfl
@[simp] theorem CoreCtx.modRun_readers (x : CoreCtx) (n : Nat) (g : Run → Run) : (x.modRun n g).readers = x.readers := rfl
@[simp] theorem CoreCtx.modRun_upper (x : CoreCtx) (n : Nat) (g : Run → Run) : (x.modRun n g).upper = x.upper := rfl
@[simp] theorem CoreCtx.modRun_divs (x : CoreCtx) (n : Nat) (g : Run → Run) : (x.modRun n g).divs = x.divs := rfl
@[simp] theorem CoreCtx.modRun_nextRun (x : CoreCtx) (n : Nat) (g : Run → Run) : (x.modRun n g).nextRun = x.nextRun := rfl
@[simp] theorem CoreCtx.modRun_nextReq (x : CoreCtx) (n : Nat) (g : Run → Run) : (x.modRun n g).nextReq = x.nextReq := rfl
@[simp] theorem CoreCtx.modRun_buf (x : CoreCtx) (n : Nat) (g : Run → Run) : (x.modRun n g).buf = x.buf := rfl
@[simp] theorem CoreCtx.modRun_filter (x : CoreCtx) (n : Nat) (g : Run → Run) : (x.modRun n g).filter = x.filter := rfl
@[simp] theorem CoreCtx.modRun_walker (x : CoreCtx) (n : Nat) (g : Run → Run) : (x.modRun n g).walker = x.walker := rfl
@[simp] theorem CoreCtx.modRun_cyc (x : CoreCtx) (n : Nat) (g : Run → Run) : (x.modRun n g).cyc = x.cyc := rfl
@[simp] theorem CoreCtx.modRun_begun (x : CoreCtx) (n : Nat) (g : Run → Run) : (x.modRun n g).begun = x.begun := rfl
@[simp] theorem CoreCtx.modRun_epoch (x : CoreCtx) (n : Nat) (g : Run → Run) : (x.modRun n g).epoch = x.epoch := rfl
@[simp] theorem CoreCtx.modRun_evc (x : CoreCtx) (n : Nat) (g : Run → Run) : (x.modRun n g).evc = x.evc := rfl
@[simp] theorem CoreCtx.modRun_admitN (x : CoreCtx) (n : Nat) (g : Run → Run) : (x.modRun n g).admitN = x.admitN := rfl
@[simp] theorem CoreCtx.modRun_admitW (x : CoreCtx) (n : Nat) (g : Run → Run) : (x.modRun n g).admitW = x.admitW := rfl
@[simp] theorem CoreCtx.modRun_allowance (x : CoreCtx) (n : Nat) (g : Run → Run) : (x.modRun n g).allowance = x.allowance := rfl
@[simp] theorem CoreCtx.modRun_admitLeft (x : CoreCtx) (n : Nat) (g : Run → Run) : (x.modRun n g).admitLeft = x.admitLeft := rfl
@[simp] theorem CoreCtx.modRun_frozen (x : CoreCtx) (n : Nat) (g : Run → Run) : (x.modRun n g).frozen = x.frozen := rfl
@[simp] theorem CoreCtx.modRun_raised (x : CoreCtx) (n : Nat) (g : Run → Run) : (x.modRun n g).raised = x.raised := rfl
@[simp] theorem CoreCtx.modRun_viewOpen (x : CoreCtx) (n : Nat) (g : Run → Run) : (x.modRun n g).viewOpen = x.viewOpen := rfl
@[simp] theorem CoreCtx.modRun_resident (x : CoreCtx) (n : Nat) (g : Run → Run) : (x.modRun n g).resident = x.resident := rfl
@[simp] theorem CoreCtx.modRun_ends (x : CoreCtx) (n : Nat) (g : Run → Run) : (x.modRun n g).ends = x.ends := rfl
@[simp] theorem CoreCtx.modRun_cfgMiss (x : CoreCtx) (n : Nat) (g : Run → Run) : (x.modRun n g).cfgMiss = x.cfgMiss := rfl
@[simp] theorem CoreCtx.modRun_verdicts (x : CoreCtx) (n : Nat) (g : Run → Run) : (x.modRun n g).verdicts = x.verdicts := rfl
@[simp] theorem CoreCtx.modWalker_elems (x : CoreCtx) (g : Walker → Walker) : (x.modWalker g).elems = x.elems := rfl
@[simp] theorem CoreCtx.modWalker_mes (x : CoreCtx) (g : Walker → Walker) : (x.modWalker g).mes = x.mes := rfl
@[simp] theorem CoreCtx.modWalker_ses (x : CoreCtx) (g : Walker → Walker) : (x.modWalker g).ses = x.ses := rfl
@[simp] theorem CoreCtx.modWalker_ces (x : CoreCtx) (g : Walker → Walker) : (x.modWalker g).ces = x.ces := rfl
@[simp] theorem CoreCtx.modWalker_les (x : CoreCtx) (g : Walker → Walker) : (x.modWalker g).les = x.les := rfl
@[simp] theorem CoreCtx.modWalker_flights (x : CoreCtx) (g : Walker → Walker) : (x.modWalker g).flights = x.flights := rfl
@[simp] theorem CoreCtx.modWalker_staging (x : CoreCtx) (g : Walker → Walker) : (x.modWalker g).staging = x.staging := rfl
@[simp] theorem CoreCtx.modWalker_grant (x : CoreCtx) (g : Walker → Walker) : (x.modWalker g).grant = x.grant := rfl
@[simp] theorem CoreCtx.modWalker_rowUsed (x : CoreCtx) (g : Walker → Walker) : (x.modWalker g).rowUsed = x.rowUsed := rfl
@[simp] theorem CoreCtx.modWalker_colTaken (x : CoreCtx) (g : Walker → Walker) : (x.modWalker g).colTaken = x.colTaken := rfl
@[simp] theorem CoreCtx.modWalker_busChosen (x : CoreCtx) (g : Walker → Walker) : (x.modWalker g).busChosen = x.busChosen := rfl
@[simp] theorem CoreCtx.modWalker_readers (x : CoreCtx) (g : Walker → Walker) : (x.modWalker g).readers = x.readers := rfl
@[simp] theorem CoreCtx.modWalker_upper (x : CoreCtx) (g : Walker → Walker) : (x.modWalker g).upper = x.upper := rfl
@[simp] theorem CoreCtx.modWalker_divs (x : CoreCtx) (g : Walker → Walker) : (x.modWalker g).divs = x.divs := rfl
@[simp] theorem CoreCtx.modWalker_runs (x : CoreCtx) (g : Walker → Walker) : (x.modWalker g).runs = x.runs := rfl
@[simp] theorem CoreCtx.modWalker_nextRun (x : CoreCtx) (g : Walker → Walker) : (x.modWalker g).nextRun = x.nextRun := rfl
@[simp] theorem CoreCtx.modWalker_nextReq (x : CoreCtx) (g : Walker → Walker) : (x.modWalker g).nextReq = x.nextReq := rfl
@[simp] theorem CoreCtx.modWalker_buf (x : CoreCtx) (g : Walker → Walker) : (x.modWalker g).buf = x.buf := rfl
@[simp] theorem CoreCtx.modWalker_filter (x : CoreCtx) (g : Walker → Walker) : (x.modWalker g).filter = x.filter := rfl
@[simp] theorem CoreCtx.modWalker_cyc (x : CoreCtx) (g : Walker → Walker) : (x.modWalker g).cyc = x.cyc := rfl
@[simp] theorem CoreCtx.modWalker_begun (x : CoreCtx) (g : Walker → Walker) : (x.modWalker g).begun = x.begun := rfl
@[simp] theorem CoreCtx.modWalker_epoch (x : CoreCtx) (g : Walker → Walker) : (x.modWalker g).epoch = x.epoch := rfl
@[simp] theorem CoreCtx.modWalker_evc (x : CoreCtx) (g : Walker → Walker) : (x.modWalker g).evc = x.evc := rfl
@[simp] theorem CoreCtx.modWalker_admitN (x : CoreCtx) (g : Walker → Walker) : (x.modWalker g).admitN = x.admitN := rfl
@[simp] theorem CoreCtx.modWalker_admitW (x : CoreCtx) (g : Walker → Walker) : (x.modWalker g).admitW = x.admitW := rfl
@[simp] theorem CoreCtx.modWalker_allowance (x : CoreCtx) (g : Walker → Walker) : (x.modWalker g).allowance = x.allowance := rfl
@[simp] theorem CoreCtx.modWalker_admitLeft (x : CoreCtx) (g : Walker → Walker) : (x.modWalker g).admitLeft = x.admitLeft := rfl
@[simp] theorem CoreCtx.modWalker_frozen (x : CoreCtx) (g : Walker → Walker) : (x.modWalker g).frozen = x.frozen := rfl
@[simp] theorem CoreCtx.modWalker_raised (x : CoreCtx) (g : Walker → Walker) : (x.modWalker g).raised = x.raised := rfl
@[simp] theorem CoreCtx.modWalker_viewOpen (x : CoreCtx) (g : Walker → Walker) : (x.modWalker g).viewOpen = x.viewOpen := rfl
@[simp] theorem CoreCtx.modWalker_resident (x : CoreCtx) (g : Walker → Walker) : (x.modWalker g).resident = x.resident := rfl
@[simp] theorem CoreCtx.modWalker_ends (x : CoreCtx) (g : Walker → Walker) : (x.modWalker g).ends = x.ends := rfl
@[simp] theorem CoreCtx.modWalker_cfgMiss (x : CoreCtx) (g : Walker → Walker) : (x.modWalker g).cfgMiss = x.cfgMiss := rfl
@[simp] theorem CoreCtx.modWalker_verdicts (x : CoreCtx) (g : Walker → Walker) : (x.modWalker g).verdicts = x.verdicts := rfl
@[simp] theorem CoreCtx.fly_elems (x : CoreCtx) (l r : Nat) (y : Cargo) : (x.fly l r y).elems = x.elems := rfl
@[simp] theorem CoreCtx.fly_mes (x : CoreCtx) (l r : Nat) (y : Cargo) : (x.fly l r y).mes = x.mes := rfl
@[simp] theorem CoreCtx.fly_ses (x : CoreCtx) (l r : Nat) (y : Cargo) : (x.fly l r y).ses = x.ses := rfl
@[simp] theorem CoreCtx.fly_ces (x : CoreCtx) (l r : Nat) (y : Cargo) : (x.fly l r y).ces = x.ces := rfl
@[simp] theorem CoreCtx.fly_les (x : CoreCtx) (l r : Nat) (y : Cargo) : (x.fly l r y).les = x.les := rfl
@[simp] theorem CoreCtx.fly_staging (x : CoreCtx) (l r : Nat) (y : Cargo) : (x.fly l r y).staging = x.staging := rfl
@[simp] theorem CoreCtx.fly_grant (x : CoreCtx) (l r : Nat) (y : Cargo) : (x.fly l r y).grant = x.grant := rfl
@[simp] theorem CoreCtx.fly_rowUsed (x : CoreCtx) (l r : Nat) (y : Cargo) : (x.fly l r y).rowUsed = x.rowUsed := rfl
@[simp] theorem CoreCtx.fly_colTaken (x : CoreCtx) (l r : Nat) (y : Cargo) : (x.fly l r y).colTaken = x.colTaken := rfl
@[simp] theorem CoreCtx.fly_busChosen (x : CoreCtx) (l r : Nat) (y : Cargo) : (x.fly l r y).busChosen = x.busChosen := rfl
@[simp] theorem CoreCtx.fly_readers (x : CoreCtx) (l r : Nat) (y : Cargo) : (x.fly l r y).readers = x.readers := rfl
@[simp] theorem CoreCtx.fly_upper (x : CoreCtx) (l r : Nat) (y : Cargo) : (x.fly l r y).upper = x.upper := rfl
@[simp] theorem CoreCtx.fly_divs (x : CoreCtx) (l r : Nat) (y : Cargo) : (x.fly l r y).divs = x.divs := rfl
@[simp] theorem CoreCtx.fly_runs (x : CoreCtx) (l r : Nat) (y : Cargo) : (x.fly l r y).runs = x.runs := rfl
@[simp] theorem CoreCtx.fly_nextRun (x : CoreCtx) (l r : Nat) (y : Cargo) : (x.fly l r y).nextRun = x.nextRun := rfl
@[simp] theorem CoreCtx.fly_nextReq (x : CoreCtx) (l r : Nat) (y : Cargo) : (x.fly l r y).nextReq = x.nextReq := rfl
@[simp] theorem CoreCtx.fly_buf (x : CoreCtx) (l r : Nat) (y : Cargo) : (x.fly l r y).buf = x.buf := rfl
@[simp] theorem CoreCtx.fly_filter (x : CoreCtx) (l r : Nat) (y : Cargo) : (x.fly l r y).filter = x.filter := rfl
@[simp] theorem CoreCtx.fly_walker (x : CoreCtx) (l r : Nat) (y : Cargo) : (x.fly l r y).walker = x.walker := rfl
@[simp] theorem CoreCtx.fly_cyc (x : CoreCtx) (l r : Nat) (y : Cargo) : (x.fly l r y).cyc = x.cyc := rfl
@[simp] theorem CoreCtx.fly_begun (x : CoreCtx) (l r : Nat) (y : Cargo) : (x.fly l r y).begun = x.begun := rfl
@[simp] theorem CoreCtx.fly_epoch (x : CoreCtx) (l r : Nat) (y : Cargo) : (x.fly l r y).epoch = x.epoch := rfl
@[simp] theorem CoreCtx.fly_evc (x : CoreCtx) (l r : Nat) (y : Cargo) : (x.fly l r y).evc = x.evc := rfl
@[simp] theorem CoreCtx.fly_admitN (x : CoreCtx) (l r : Nat) (y : Cargo) : (x.fly l r y).admitN = x.admitN := rfl
@[simp] theorem CoreCtx.fly_admitW (x : CoreCtx) (l r : Nat) (y : Cargo) : (x.fly l r y).admitW = x.admitW := rfl
@[simp] theorem CoreCtx.fly_allowance (x : CoreCtx) (l r : Nat) (y : Cargo) : (x.fly l r y).allowance = x.allowance := rfl
@[simp] theorem CoreCtx.fly_admitLeft (x : CoreCtx) (l r : Nat) (y : Cargo) : (x.fly l r y).admitLeft = x.admitLeft := rfl
@[simp] theorem CoreCtx.fly_frozen (x : CoreCtx) (l r : Nat) (y : Cargo) : (x.fly l r y).frozen = x.frozen := rfl
@[simp] theorem CoreCtx.fly_raised (x : CoreCtx) (l r : Nat) (y : Cargo) : (x.fly l r y).raised = x.raised := rfl
@[simp] theorem CoreCtx.fly_viewOpen (x : CoreCtx) (l r : Nat) (y : Cargo) : (x.fly l r y).viewOpen = x.viewOpen := rfl
@[simp] theorem CoreCtx.fly_resident (x : CoreCtx) (l r : Nat) (y : Cargo) : (x.fly l r y).resident = x.resident := rfl
@[simp] theorem CoreCtx.fly_ends (x : CoreCtx) (l r : Nat) (y : Cargo) : (x.fly l r y).ends = x.ends := rfl
@[simp] theorem CoreCtx.fly_cfgMiss (x : CoreCtx) (l r : Nat) (y : Cargo) : (x.fly l r y).cfgMiss = x.cfgMiss := rfl
@[simp] theorem CoreCtx.fly_verdicts (x : CoreCtx) (l r : Nat) (y : Cargo) : (x.fly l r y).verdicts = x.verdicts := rfl
@[simp] theorem Elem.setReg_preds (x : Elem) (n : Nat) (r : Reg) : (x.setReg n r).preds = x.preds := rfl
@[simp] theorem Elem.setReg_queues (x : Elem) (n : Nat) (r : Reg) : (x.setReg n r).queues = x.queues := rfl
@[simp] theorem Elem.setReg_ports (x : Elem) (n : Nat) (r : Reg) : (x.setReg n r).ports = x.ports := rfl
@[simp] theorem Elem.setReg_consts (x : Elem) (n : Nat) (r : Reg) : (x.setReg n r).consts = x.consts := rfl
@[simp] theorem Elem.setReg_slots (x : Elem) (n : Nat) (r : Reg) : (x.setReg n r).slots = x.slots := rfl
@[simp] theorem Elem.setReg_flags (x : Elem) (n : Nat) (r : Reg) : (x.setReg n r).flags = x.flags := rfl
@[simp] theorem Elem.setReg_landed (x : Elem) (n : Nat) (r : Reg) : (x.setReg n r).landed = x.landed := rfl
@[simp] theorem Elem.setReg_ptr (x : Elem) (n : Nat) (r : Reg) : (x.setReg n r).ptr = x.ptr := rfl
@[simp] theorem Elem.setReg_ages (x : Elem) (n : Nat) (r : Reg) : (x.setReg n r).ages = x.ages := rfl
@[simp] theorem Elem.setReg_cfg (x : Elem) (n : Nat) (r : Reg) : (x.setReg n r).cfg = x.cfg := rfl
@[simp] theorem Elem.setReg_run (x : Elem) (n : Nat) (r : Reg) : (x.setReg n r).run = x.run := rfl
@[simp] theorem Elem.setReg_halted (x : Elem) (n : Nat) (r : Reg) : (x.setReg n r).halted = x.halted := rfl
@[simp] theorem Elem.setReg_waitc (x : Elem) (n : Nat) (r : Reg) : (x.setReg n r).waitc = x.waitc := rfl
@[simp] theorem Elem.setReg_waiting (x : Elem) (n : Nat) (r : Reg) : (x.setReg n r).waiting = x.waiting := rfl
@[simp] theorem Elem.setReg_fence (x : Elem) (n : Nat) (r : Reg) : (x.setReg n r).fence = x.fence := rfl
@[simp] theorem Elem.setReg_fenceGens (x : Elem) (n : Nat) (r : Reg) : (x.setReg n r).fenceGens = x.fenceGens := rfl
@[simp] theorem Elem.setReg_held (x : Elem) (n : Nat) (r : Reg) : (x.setReg n r).held = x.held := rfl
@[simp] theorem Elem.setReg_heldSlot (x : Elem) (n : Nat) (r : Reg) : (x.setReg n r).heldSlot = x.heldSlot := rfl
@[simp] theorem Elem.setReg_blocked (x : Elem) (n : Nat) (r : Reg) : (x.setReg n r).blocked = x.blocked := rfl
@[simp] theorem Elem.setReg_edge (x : Elem) (n : Nat) (r : Reg) : (x.setReg n r).edge = x.edge := rfl
@[simp] theorem Elem.setReg_noWatch (x : Elem) (n : Nat) (r : Reg) : (x.setReg n r).noWatch = x.noWatch := rfl
@[simp] theorem Elem.setReg_watched (x : Elem) (n : Nat) (r : Reg) : (x.setReg n r).watched = x.watched := rfl
@[simp] theorem Elem.setPred_regs (x : Elem) (n : Nat) (p : Pred) : (x.setPred n p).regs = x.regs := rfl
@[simp] theorem Elem.setPred_queues (x : Elem) (n : Nat) (p : Pred) : (x.setPred n p).queues = x.queues := rfl
@[simp] theorem Elem.setPred_ports (x : Elem) (n : Nat) (p : Pred) : (x.setPred n p).ports = x.ports := rfl
@[simp] theorem Elem.setPred_consts (x : Elem) (n : Nat) (p : Pred) : (x.setPred n p).consts = x.consts := rfl
@[simp] theorem Elem.setPred_slots (x : Elem) (n : Nat) (p : Pred) : (x.setPred n p).slots = x.slots := rfl
@[simp] theorem Elem.setPred_flags (x : Elem) (n : Nat) (p : Pred) : (x.setPred n p).flags = x.flags := rfl
@[simp] theorem Elem.setPred_landed (x : Elem) (n : Nat) (p : Pred) : (x.setPred n p).landed = x.landed := rfl
@[simp] theorem Elem.setPred_ptr (x : Elem) (n : Nat) (p : Pred) : (x.setPred n p).ptr = x.ptr := rfl
@[simp] theorem Elem.setPred_ages (x : Elem) (n : Nat) (p : Pred) : (x.setPred n p).ages = x.ages := rfl
@[simp] theorem Elem.setPred_cfg (x : Elem) (n : Nat) (p : Pred) : (x.setPred n p).cfg = x.cfg := rfl
@[simp] theorem Elem.setPred_run (x : Elem) (n : Nat) (p : Pred) : (x.setPred n p).run = x.run := rfl
@[simp] theorem Elem.setPred_halted (x : Elem) (n : Nat) (p : Pred) : (x.setPred n p).halted = x.halted := rfl
@[simp] theorem Elem.setPred_waitc (x : Elem) (n : Nat) (p : Pred) : (x.setPred n p).waitc = x.waitc := rfl
@[simp] theorem Elem.setPred_waiting (x : Elem) (n : Nat) (p : Pred) : (x.setPred n p).waiting = x.waiting := rfl
@[simp] theorem Elem.setPred_fence (x : Elem) (n : Nat) (p : Pred) : (x.setPred n p).fence = x.fence := rfl
@[simp] theorem Elem.setPred_fenceGens (x : Elem) (n : Nat) (p : Pred) : (x.setPred n p).fenceGens = x.fenceGens := rfl
@[simp] theorem Elem.setPred_held (x : Elem) (n : Nat) (p : Pred) : (x.setPred n p).held = x.held := rfl
@[simp] theorem Elem.setPred_heldSlot (x : Elem) (n : Nat) (p : Pred) : (x.setPred n p).heldSlot = x.heldSlot := rfl
@[simp] theorem Elem.setPred_blocked (x : Elem) (n : Nat) (p : Pred) : (x.setPred n p).blocked = x.blocked := rfl
@[simp] theorem Elem.setPred_edge (x : Elem) (n : Nat) (p : Pred) : (x.setPred n p).edge = x.edge := rfl
@[simp] theorem Elem.setPred_noWatch (x : Elem) (n : Nat) (p : Pred) : (x.setPred n p).noWatch = x.noWatch := rfl
@[simp] theorem Elem.setPred_watched (x : Elem) (n : Nat) (p : Pred) : (x.setPred n p).watched = x.watched := rfl
@[simp] theorem Elem.setQueue_regs (x : Elem) (q : Nat) (l : List Token) : (x.setQueue q l).regs = x.regs := rfl
@[simp] theorem Elem.setQueue_preds (x : Elem) (q : Nat) (l : List Token) : (x.setQueue q l).preds = x.preds := rfl
@[simp] theorem Elem.setQueue_ports (x : Elem) (q : Nat) (l : List Token) : (x.setQueue q l).ports = x.ports := rfl
@[simp] theorem Elem.setQueue_consts (x : Elem) (q : Nat) (l : List Token) : (x.setQueue q l).consts = x.consts := rfl
@[simp] theorem Elem.setQueue_slots (x : Elem) (q : Nat) (l : List Token) : (x.setQueue q l).slots = x.slots := rfl
@[simp] theorem Elem.setQueue_flags (x : Elem) (q : Nat) (l : List Token) : (x.setQueue q l).flags = x.flags := rfl
@[simp] theorem Elem.setQueue_landed (x : Elem) (q : Nat) (l : List Token) : (x.setQueue q l).landed = x.landed := rfl
@[simp] theorem Elem.setQueue_ptr (x : Elem) (q : Nat) (l : List Token) : (x.setQueue q l).ptr = x.ptr := rfl
@[simp] theorem Elem.setQueue_ages (x : Elem) (q : Nat) (l : List Token) : (x.setQueue q l).ages = x.ages := rfl
@[simp] theorem Elem.setQueue_cfg (x : Elem) (q : Nat) (l : List Token) : (x.setQueue q l).cfg = x.cfg := rfl
@[simp] theorem Elem.setQueue_run (x : Elem) (q : Nat) (l : List Token) : (x.setQueue q l).run = x.run := rfl
@[simp] theorem Elem.setQueue_halted (x : Elem) (q : Nat) (l : List Token) : (x.setQueue q l).halted = x.halted := rfl
@[simp] theorem Elem.setQueue_waitc (x : Elem) (q : Nat) (l : List Token) : (x.setQueue q l).waitc = x.waitc := rfl
@[simp] theorem Elem.setQueue_waiting (x : Elem) (q : Nat) (l : List Token) : (x.setQueue q l).waiting = x.waiting := rfl
@[simp] theorem Elem.setQueue_fence (x : Elem) (q : Nat) (l : List Token) : (x.setQueue q l).fence = x.fence := rfl
@[simp] theorem Elem.setQueue_fenceGens (x : Elem) (q : Nat) (l : List Token) : (x.setQueue q l).fenceGens = x.fenceGens := rfl
@[simp] theorem Elem.setQueue_held (x : Elem) (q : Nat) (l : List Token) : (x.setQueue q l).held = x.held := rfl
@[simp] theorem Elem.setQueue_heldSlot (x : Elem) (q : Nat) (l : List Token) : (x.setQueue q l).heldSlot = x.heldSlot := rfl
@[simp] theorem Elem.setQueue_blocked (x : Elem) (q : Nat) (l : List Token) : (x.setQueue q l).blocked = x.blocked := rfl
@[simp] theorem Elem.setQueue_edge (x : Elem) (q : Nat) (l : List Token) : (x.setQueue q l).edge = x.edge := rfl
@[simp] theorem Elem.setQueue_noWatch (x : Elem) (q : Nat) (l : List Token) : (x.setQueue q l).noWatch = x.noWatch := rfl
@[simp] theorem Elem.setQueue_watched (x : Elem) (q : Nat) (l : List Token) : (x.setQueue q l).watched = x.watched := rfl
@[simp] theorem Elem.setPort_regs (x : Elem) (p : Nat) (y : Port) : (x.setPort p y).regs = x.regs := rfl
@[simp] theorem Elem.setPort_preds (x : Elem) (p : Nat) (y : Port) : (x.setPort p y).preds = x.preds := rfl
@[simp] theorem Elem.setPort_queues (x : Elem) (p : Nat) (y : Port) : (x.setPort p y).queues = x.queues := rfl
@[simp] theorem Elem.setPort_consts (x : Elem) (p : Nat) (y : Port) : (x.setPort p y).consts = x.consts := rfl
@[simp] theorem Elem.setPort_slots (x : Elem) (p : Nat) (y : Port) : (x.setPort p y).slots = x.slots := rfl
@[simp] theorem Elem.setPort_flags (x : Elem) (p : Nat) (y : Port) : (x.setPort p y).flags = x.flags := rfl
@[simp] theorem Elem.setPort_landed (x : Elem) (p : Nat) (y : Port) : (x.setPort p y).landed = x.landed := rfl
@[simp] theorem Elem.setPort_ptr (x : Elem) (p : Nat) (y : Port) : (x.setPort p y).ptr = x.ptr := rfl
@[simp] theorem Elem.setPort_ages (x : Elem) (p : Nat) (y : Port) : (x.setPort p y).ages = x.ages := rfl
@[simp] theorem Elem.setPort_cfg (x : Elem) (p : Nat) (y : Port) : (x.setPort p y).cfg = x.cfg := rfl
@[simp] theorem Elem.setPort_run (x : Elem) (p : Nat) (y : Port) : (x.setPort p y).run = x.run := rfl
@[simp] theorem Elem.setPort_halted (x : Elem) (p : Nat) (y : Port) : (x.setPort p y).halted = x.halted := rfl
@[simp] theorem Elem.setPort_waitc (x : Elem) (p : Nat) (y : Port) : (x.setPort p y).waitc = x.waitc := rfl
@[simp] theorem Elem.setPort_waiting (x : Elem) (p : Nat) (y : Port) : (x.setPort p y).waiting = x.waiting := rfl
@[simp] theorem Elem.setPort_fence (x : Elem) (p : Nat) (y : Port) : (x.setPort p y).fence = x.fence := rfl
@[simp] theorem Elem.setPort_fenceGens (x : Elem) (p : Nat) (y : Port) : (x.setPort p y).fenceGens = x.fenceGens := rfl
@[simp] theorem Elem.setPort_held (x : Elem) (p : Nat) (y : Port) : (x.setPort p y).held = x.held := rfl
@[simp] theorem Elem.setPort_heldSlot (x : Elem) (p : Nat) (y : Port) : (x.setPort p y).heldSlot = x.heldSlot := rfl
@[simp] theorem Elem.setPort_blocked (x : Elem) (p : Nat) (y : Port) : (x.setPort p y).blocked = x.blocked := rfl
@[simp] theorem Elem.setPort_edge (x : Elem) (p : Nat) (y : Port) : (x.setPort p y).edge = x.edge := rfl
@[simp] theorem Elem.setPort_noWatch (x : Elem) (p : Nat) (y : Port) : (x.setPort p y).noWatch = x.noWatch := rfl
@[simp] theorem Elem.setPort_watched (x : Elem) (p : Nat) (y : Port) : (x.setPort p y).watched = x.watched := rfl
@[simp] theorem Elem.setFlags_regs (x : Elem) (y : Flags) : (x.setFlags y).regs = x.regs := rfl
@[simp] theorem Elem.setFlags_preds (x : Elem) (y : Flags) : (x.setFlags y).preds = x.preds := rfl
@[simp] theorem Elem.setFlags_queues (x : Elem) (y : Flags) : (x.setFlags y).queues = x.queues := rfl
@[simp] theorem Elem.setFlags_ports (x : Elem) (y : Flags) : (x.setFlags y).ports = x.ports := rfl
@[simp] theorem Elem.setFlags_consts (x : Elem) (y : Flags) : (x.setFlags y).consts = x.consts := rfl
@[simp] theorem Elem.setFlags_slots (x : Elem) (y : Flags) : (x.setFlags y).slots = x.slots := rfl
@[simp] theorem Elem.setFlags_landed (x : Elem) (y : Flags) : (x.setFlags y).landed = x.landed := rfl
@[simp] theorem Elem.setFlags_ptr (x : Elem) (y : Flags) : (x.setFlags y).ptr = x.ptr := rfl
@[simp] theorem Elem.setFlags_ages (x : Elem) (y : Flags) : (x.setFlags y).ages = x.ages := rfl
@[simp] theorem Elem.setFlags_cfg (x : Elem) (y : Flags) : (x.setFlags y).cfg = x.cfg := rfl
@[simp] theorem Elem.setFlags_run (x : Elem) (y : Flags) : (x.setFlags y).run = x.run := rfl
@[simp] theorem Elem.setFlags_halted (x : Elem) (y : Flags) : (x.setFlags y).halted = x.halted := rfl
@[simp] theorem Elem.setFlags_waitc (x : Elem) (y : Flags) : (x.setFlags y).waitc = x.waitc := rfl
@[simp] theorem Elem.setFlags_waiting (x : Elem) (y : Flags) : (x.setFlags y).waiting = x.waiting := rfl
@[simp] theorem Elem.setFlags_fence (x : Elem) (y : Flags) : (x.setFlags y).fence = x.fence := rfl
@[simp] theorem Elem.setFlags_fenceGens (x : Elem) (y : Flags) : (x.setFlags y).fenceGens = x.fenceGens := rfl
@[simp] theorem Elem.setFlags_held (x : Elem) (y : Flags) : (x.setFlags y).held = x.held := rfl
@[simp] theorem Elem.setFlags_heldSlot (x : Elem) (y : Flags) : (x.setFlags y).heldSlot = x.heldSlot := rfl
@[simp] theorem Elem.setFlags_blocked (x : Elem) (y : Flags) : (x.setFlags y).blocked = x.blocked := rfl
@[simp] theorem Elem.setFlags_edge (x : Elem) (y : Flags) : (x.setFlags y).edge = x.edge := rfl
@[simp] theorem Elem.setFlags_noWatch (x : Elem) (y : Flags) : (x.setFlags y).noWatch = x.noWatch := rfl
@[simp] theorem Elem.setFlags_watched (x : Elem) (y : Flags) : (x.setFlags y).watched = x.watched := rfl
@[simp] theorem Elem.landFlags_regs (x : Elem) (y : Flags) : (x.landFlags y).regs = x.regs := rfl
@[simp] theorem Elem.landFlags_preds (x : Elem) (y : Flags) : (x.landFlags y).preds = x.preds := rfl
@[simp] theorem Elem.landFlags_queues (x : Elem) (y : Flags) : (x.landFlags y).queues = x.queues := rfl
@[simp] theorem Elem.landFlags_ports (x : Elem) (y : Flags) : (x.landFlags y).ports = x.ports := rfl
@[simp] theorem Elem.landFlags_consts (x : Elem) (y : Flags) : (x.landFlags y).consts = x.consts := rfl
@[simp] theorem Elem.landFlags_slots (x : Elem) (y : Flags) : (x.landFlags y).slots = x.slots := rfl
@[simp] theorem Elem.landFlags_ptr (x : Elem) (y : Flags) : (x.landFlags y).ptr = x.ptr := rfl
@[simp] theorem Elem.landFlags_ages (x : Elem) (y : Flags) : (x.landFlags y).ages = x.ages := rfl
@[simp] theorem Elem.landFlags_cfg (x : Elem) (y : Flags) : (x.landFlags y).cfg = x.cfg := rfl
@[simp] theorem Elem.landFlags_run (x : Elem) (y : Flags) : (x.landFlags y).run = x.run := rfl
@[simp] theorem Elem.landFlags_halted (x : Elem) (y : Flags) : (x.landFlags y).halted = x.halted := rfl
@[simp] theorem Elem.landFlags_waitc (x : Elem) (y : Flags) : (x.landFlags y).waitc = x.waitc := rfl
@[simp] theorem Elem.landFlags_waiting (x : Elem) (y : Flags) : (x.landFlags y).waiting = x.waiting := rfl
@[simp] theorem Elem.landFlags_fence (x : Elem) (y : Flags) : (x.landFlags y).fence = x.fence := rfl
@[simp] theorem Elem.landFlags_fenceGens (x : Elem) (y : Flags) : (x.landFlags y).fenceGens = x.fenceGens := rfl
@[simp] theorem Elem.landFlags_held (x : Elem) (y : Flags) : (x.landFlags y).held = x.held := rfl
@[simp] theorem Elem.landFlags_heldSlot (x : Elem) (y : Flags) : (x.landFlags y).heldSlot = x.heldSlot := rfl
@[simp] theorem Elem.landFlags_blocked (x : Elem) (y : Flags) : (x.landFlags y).blocked = x.blocked := rfl
@[simp] theorem Elem.landFlags_edge (x : Elem) (y : Flags) : (x.landFlags y).edge = x.edge := rfl
@[simp] theorem Elem.landFlags_noWatch (x : Elem) (y : Flags) : (x.landFlags y).noWatch = x.noWatch := rfl
@[simp] theorem Elem.landFlags_watched (x : Elem) (y : Flags) : (x.landFlags y).watched = x.watched := rfl

end Sys2Proof.Machine
end

