-- ==== Sys2Proof/Laws/Ops.lean ====
section
/-! SUPPORT. What the shared operations leave: event counters, progress, traps and fires. -/

namespace Sys2Proof.Machine

/-! ### Reading a core back -/

theorem State.core?_modCore_same (s : State) (k : Key) (f : CoreCtx → CoreCtx) :
    (s.modCore k f).core? k = (s.core? k).map f := Assoc.get?_adjust_same _ _ _

theorem State.core?_modCore_other (s : State) (k k2 : Key) (f : CoreCtx → CoreCtx) (h : k ≠ k2) :
    (s.modCore k f).core? k2 = s.core? k2 := Assoc.get?_adjust_other _ _ _ _ h

theorem State.modCore_modCore (s : State) (k : Key) (f g : CoreCtx → CoreCtx) :
    (s.modCore k f).modCore k g = s.modCore k (fun c => g (f c)) := by
  simp [State.modCore, Assoc.adjust_adjust]

@[simp] theorem State.core?_modTeam (s : State) (n : Nat) (f : Team → Team) (k : Key) : (s.modTeam n f).core? k = s.core? k := rfl
@[simp] theorem State.core?_modMcore (s : State) (n : Key) (f : MCoreCtx → MCoreCtx) (k : Key) :
    (s.modMcore n f).core? k = s.core? k := rfl
@[simp] theorem State.core?_modPhys (s : State) (n : Nat) (f : PhysCore → PhysCore) (k : Key) :
    (s.modPhys n f).core? k = s.core? k := rfl
@[simp] theorem State.core?_setFlat (s : State) (a : Nat) (bs : List Byte) (k : Key) : (s.setFlat a bs).core? k = s.core? k := rfl

/-! ### Reading an element back -/

@[simp] theorem CoreCtx.elemD_modElem_same (c : CoreCtx) (p : Nat) (f : Elem → Elem) :
    (c.modElem p f).elemD p = f (c.elemD p) := by
  simp [CoreCtx.elemD, CoreCtx.modElem, Assoc.get?_put_same]

theorem CoreCtx.elem?_modElem_same (c : CoreCtx) (p : Nat) (f : Elem → Elem) :
    (c.modElem p f).elem? p = some (f (c.elemD p)) := by
  simp [CoreCtx.elem?, CoreCtx.modElem, Assoc.get?_put_same]

theorem CoreCtx.elem?_modElem_other (c : CoreCtx) (p q : Nat) (f : Elem → Elem) (h : p ≠ q) :
    (c.modElem p f).elem? q = c.elem? q := by
  simp [CoreCtx.elem?, CoreCtx.modElem, Assoc.get?_put_other _ _ _ _ h]

theorem CoreCtx.elemD_of (c : CoreCtx) (p : Nat) (e : Elem) (h : c.elem? p = some e) : c.elemD p = e := by
  simp only [CoreCtx.elem?] at h; simp [CoreCtx.elemD, h]

theorem Elem.reg_setReg_same (e : Elem) (n : Nat) (r : Reg) (h : n < 12) : (e.setReg n r).reg n = r := by
  simp [Elem.reg, Elem.setReg, at_upd_same _ _ _ _ h]

theorem Elem.reg_setReg_other (e : Elem) (n m : Nat) (r : Reg) (h : n ≠ m) : (e.setReg n r).reg m = e.reg m := by
  simp [Elem.reg, Elem.setReg, at_upd_other _ _ _ _ _ h]

@[simp] theorem Elem.reg_setPred (e : Elem) (n m : Nat) (p : Pred) : (e.setPred n p).reg m = e.reg m := rfl
@[simp] theorem Elem.reg_setQueue (e : Elem) (n m : Nat) (l : List Token) : (e.setQueue n l).reg m = e.reg m := rfl
@[simp] theorem Elem.reg_setPort (e : Elem) (n m : Nat) (p : Port) : (e.setPort n p).reg m = e.reg m := rfl
@[simp] theorem Elem.reg_setFlags (e : Elem) (m : Nat) (y : Flags) : (e.setFlags y).reg m = e.reg m := rfl

/-! ### Event counters (R368) -/

theorem State.count_core (s : State) (k : Key) (i n : Nat) (c : CoreCtx) (h : s.core? k = some c) :
    (s.count k i n).core? k = some { c with evc := upd c.evc i (at' c.evc i 0#64 + w64 n) } := by
  have key : (s.modCore k fun c => { c with evc := upd c.evc i (at' c.evc i 0#64 + w64 n) }).core? k =
      some { c with evc := upd c.evc i (at' c.evc i 0#64 + w64 n) } := by
    rw [State.core?_modCore_same, h]; rfl
  unfold State.count
  simp only
  split
  · split
    · exact key
    · exact key
  · exact key

theorem State.count_core_other (s : State) (k k2 : Key) (i n : Nat) (h : k ≠ k2) :
    (s.count k i n).core? k2 = s.core? k2 := by
  have key : (s.modCore k fun c => { c with evc := upd c.evc i (at' c.evc i 0#64 + w64 n) }).core? k2 = s.core? k2 :=
    State.core?_modCore_other _ _ _ _ h
  unfold State.count
  simp only
  split
  · split
    · exact key
    · exact key
  · exact key

@[simp] theorem State.count_turns (s : State) (k : Key) (i n : Nat) : (s.count k i n).turns = s.turns := by
  unfold State.count; simp only; split
  · split <;> rfl
  · rfl
@[simp] theorem State.count_here (s : State) (k : Key) (i n : Nat) : (s.count k i n).here = s.here := by
  unfold State.count; simp only; split
  · split <;> rfl
  · rfl
@[simp] theorem State.count_free (s : State) (k : Key) (i n : Nat) : (s.count k i n).free = s.free := by
  unfold State.count; simp only; split
  · split <;> rfl
  · rfl
@[simp] theorem State.count_time (s : State) (k : Key) (i n : Nat) : (s.count k i n).time = s.time := by
  unfold State.count; simp only; split
  · split <;> rfl
  · rfl
@[simp] theorem State.count_corr (s : State) (k : Key) (i n : Nat) : (s.count k i n).corr = s.corr := by
  unfold State.count; simp only; split
  · split <;> rfl
  · rfl
@[simp] theorem State.count_lastCorr (s : State) (k : Key) (i n : Nat) : (s.count k i n).lastCorr = s.lastCorr := by
  unfold State.count; simp only; split
  · split <;> rfl
  · rfl
@[simp] theorem State.count_off (s : State) (k : Key) (i n : Nat) : (s.count k i n).off = s.off := by
  unfold State.count; simp only; split
  · split <;> rfl
  · rfl
@[simp] theorem State.count_mcores (s : State) (k : Key) (i n : Nat) : (s.count k i n).mcores = s.mcores := by
  unfold State.count; simp only; split
  · split <;> rfl
  · rfl
@[simp] theorem State.count_teams (s : State) (k : Key) (i n : Nat) : (s.count k i n).teams = s.teams := by
  unfold State.count; simp only; split
  · split <;> rfl
  · rfl
@[simp] theorem State.count_physM (s : State) (k : Key) (i n : Nat) : (s.count k i n).physM = s.physM := by
  unfold State.count; simp only; split
  · split <;> rfl
  · rfl
@[simp] theorem State.count_engines (s : State) (k : Key) (i n : Nat) : (s.count k i n).engines = s.engines := by
  unfold State.count; simp only; split
  · split <;> rfl
  · rfl
@[simp] theorem State.count_nextCmd (s : State) (k : Key) (i n : Nat) : (s.count k i n).nextCmd = s.nextCmd := by
  unfold State.count; simp only; split
  · split <;> rfl
  · rfl
@[simp] theorem State.count_disp (s : State) (k : Key) (i n : Nat) : (s.count k i n).disp = s.disp := by
  unfold State.count; simp only; split
  · split <;> rfl
  · rfl
@[simp] theorem State.count_flat (s : State) (k : Key) (i n : Nat) : (s.count k i n).flat = s.flat := by
  unfold State.count; simp only; split
  · split <;> rfl
  · rfl
@[simp] theorem State.count_hbm (s : State) (k : Key) (i n : Nat) : (s.count k i n).hbm = s.hbm := by
  unfold State.count; simp only; split
  · split <;> rfl
  · rfl
@[simp] theorem State.count_frames (s : State) (k : Key) (i n : Nat) : (s.count k i n).frames = s.frames := by
  unfold State.count; simp only; split
  · split <;> rfl
  · rfl
@[simp] theorem State.count_host (s : State) (k : Key) (i n : Nat) : (s.count k i n).host = s.host := by
  unfold State.count; simp only; split
  · split <;> rfl
  · rfl
@[simp] theorem State.count_mgmt (s : State) (k : Key) (i n : Nat) : (s.count k i n).mgmt = s.mgmt := by
  unfold State.count; simp only; split
  · split <;> rfl
  · rfl
@[simp] theorem State.count_health (s : State) (k : Key) (i n : Nat) : (s.count k i n).health = s.health := by
  unfold State.count; simp only; split
  · split <;> rfl
  · rfl
@[simp] theorem State.count_power (s : State) (k : Key) (i n : Nat) : (s.count k i n).power = s.power := by
  unfold State.count; simp only; split
  · split <;> rfl
  · rfl
@[simp] theorem State.count_fabric (s : State) (k : Key) (i n : Nat) : (s.count k i n).fabric = s.fabric := by
  unfold State.count; simp only; split
  · split <;> rfl
  · rfl
@[simp] theorem State.progressed_turns (s : State) (n : Nat) : (s.progressed n).turns = s.turns := rfl
@[simp] theorem State.progressed_here (s : State) (n : Nat) : (s.progressed n).here = s.here := rfl
@[simp] theorem State.progressed_free (s : State) (n : Nat) : (s.progressed n).free = s.free := rfl
@[simp] theorem State.progressed_time (s : State) (n : Nat) : (s.progressed n).time = s.time := rfl
@[simp] theorem State.progressed_corr (s : State) (n : Nat) : (s.progressed n).corr = s.corr := rfl
@[simp] theorem State.progressed_lastCorr (s : State) (n : Nat) : (s.progressed n).lastCorr = s.lastCorr := rfl
@[simp] theorem State.progressed_off (s : State) (n : Nat) : (s.progressed n).off = s.off := rfl
@[simp] theorem State.progressed_cores (s : State) (n : Nat) : (s.progressed n).cores = s.cores := rfl
@[simp] theorem State.progressed_mcores (s : State) (n : Nat) : (s.progressed n).mcores = s.mcores := rfl
@[simp] theorem State.progressed_phys (s : State) (n : Nat) : (s.progressed n).phys = s.phys := rfl
@[simp] theorem State.progressed_physM (s : State) (n : Nat) : (s.progressed n).physM = s.physM := rfl
@[simp] theorem State.progressed_engines (s : State) (n : Nat) : (s.progressed n).engines = s.engines := rfl
@[simp] theorem State.progressed_nextCmd (s : State) (n : Nat) : (s.progressed n).nextCmd = s.nextCmd := rfl
@[simp] theorem State.progressed_disp (s : State) (n : Nat) : (s.progressed n).disp = s.disp := rfl
@[simp] theorem State.progressed_flat (s : State) (n : Nat) : (s.progressed n).flat = s.flat := rfl
@[simp] theorem State.progressed_hbm (s : State) (n : Nat) : (s.progressed n).hbm = s.hbm := rfl
@[simp] theorem State.progressed_frames (s : State) (n : Nat) : (s.progressed n).frames = s.frames := rfl
@[simp] theorem State.progressed_host (s : State) (n : Nat) : (s.progressed n).host = s.host := rfl
@[simp] theorem State.progressed_mgmt (s : State) (n : Nat) : (s.progressed n).mgmt = s.mgmt := rfl
@[simp] theorem State.progressed_health (s : State) (n : Nat) : (s.progressed n).health = s.health := rfl
@[simp] theorem State.progressed_power (s : State) (n : Nat) : (s.progressed n).power = s.power := rfl
@[simp] theorem State.progressed_fabric (s : State) (n : Nat) : (s.progressed n).fabric = s.fabric := rfl

/-! ### The end of a fire (R256, R315, R368) -/

@[simp] theorem State.fired_turns (s : State) (k : Key) (r : Nat) (o : Option Nat) : (s.fired k r o).turns = s.turns := by
  unfold State.fired; cases o <;> simp
@[simp] theorem State.fired_here (s : State) (k : Key) (r : Nat) (o : Option Nat) : (s.fired k r o).here = s.here := by
  unfold State.fired; cases o <;> simp
@[simp] theorem State.fired_free (s : State) (k : Key) (r : Nat) (o : Option Nat) : (s.fired k r o).free = s.free := by
  unfold State.fired; cases o <;> simp
@[simp] theorem State.fired_time (s : State) (k : Key) (r : Nat) (o : Option Nat) : (s.fired k r o).time = s.time := by
  unfold State.fired; cases o <;> simp
@[simp] theorem State.fired_corr (s : State) (k : Key) (r : Nat) (o : Option Nat) : (s.fired k r o).corr = s.corr := by
  unfold State.fired; cases o <;> simp
@[simp] theorem State.fired_lastCorr (s : State) (k : Key) (r : Nat) (o : Option Nat) : (s.fired k r o).lastCorr = s.lastCorr := by
  unfold State.fired; cases o <;> simp
@[simp] theorem State.fired_off (s : State) (k : Key) (r : Nat) (o : Option Nat) : (s.fired k r o).off = s.off := by
  unfold State.fired; cases o <;> simp
@[simp] theorem State.fired_mcores (s : State) (k : Key) (r : Nat) (o : Option Nat) : (s.fired k r o).mcores = s.mcores := by
  unfold State.fired; cases o <;> simp
@[simp] theorem State.fired_physM (s : State) (k : Key) (r : Nat) (o : Option Nat) : (s.fired k r o).physM = s.physM := by
  unfold State.fired; cases o <;> simp
@[simp] theorem State.fired_engines (s : State) (k : Key) (r : Nat) (o : Option Nat) : (s.fired k r o).engines = s.engines := by
  unfold State.fired; cases o <;> simp
@[simp] theorem State.fired_nextCmd (s : State) (k : Key) (r : Nat) (o : Option Nat) : (s.fired k r o).nextCmd = s.nextCmd := by
  unfold State.fired; cases o <;> simp
@[simp] theorem State.fired_disp (s : State) (k : Key) (r : Nat) (o : Option Nat) : (s.fired k r o).disp = s.disp := by
  unfold State.fired; cases o <;> simp
@[simp] theorem State.fired_flat (s : State) (k : Key) (r : Nat) (o : Option Nat) : (s.fired k r o).flat = s.flat := by
  unfold State.fired; cases o <;> simp
@[simp] theorem State.fired_hbm (s : State) (k : Key) (r : Nat) (o : Option Nat) : (s.fired k r o).hbm = s.hbm := by
  unfold State.fired; cases o <;> simp
@[simp] theorem State.fired_frames (s : State) (k : Key) (r : Nat) (o : Option Nat) : (s.fired k r o).frames = s.frames := by
  unfold State.fired; cases o <;> simp
@[simp] theorem State.fired_host (s : State) (k : Key) (r : Nat) (o : Option Nat) : (s.fired k r o).host = s.host := by
  unfold State.fired; cases o <;> simp
@[simp] theorem State.fired_mgmt (s : State) (k : Key) (r : Nat) (o : Option Nat) : (s.fired k r o).mgmt = s.mgmt := by
  unfold State.fired; cases o <;> simp
@[simp] theorem State.fired_health (s : State) (k : Key) (r : Nat) (o : Option Nat) : (s.fired k r o).health = s.health := by
  unfold State.fired; cases o <;> simp
@[simp] theorem State.fired_power (s : State) (k : Key) (r : Nat) (o : Option Nat) : (s.fired k r o).power = s.power := by
  unfold State.fired; cases o <;> simp
@[simp] theorem State.fired_fabric (s : State) (k : Key) (r : Nat) (o : Option Nat) : (s.fired k r o).fabric = s.fabric := by
  unfold State.fired; cases o <;> simp

/-- What a fire's counters do to its core: the event counters and the run's own count of fires change. -/
theorem State.fired_core (s : State) (k : Key) (r : Nat) (o : Option Nat) (c : CoreCtx) (h : s.core? k = some c) :
    ∃ v, (s.fired k r o).core? k =
      some { c with evc := v, runs := c.runs.map fun x => if x.id = r then { x with fires := x.fires + 1 } else x } := by
  unfold State.fired
  have h0 := s.count_core k 0 1 c h
  cases o with
  | none =>
    refine ⟨upd c.evc 0 (at' c.evc 0 0#64 + w64 1), ?_⟩
    simp only [State.progressed, State.core?_modTeam, State.core?_modCore_same, h0, Option.map_some, CoreCtx.modRun]
  | some i =>
    have h1 := (s.count k 0 1).count_core k i 1 _ h0
    let v := upd c.evc 0 (at' c.evc 0 0#64 + w64 1)
    refine ⟨upd v i (at' v i 0#64 + w64 1), ?_⟩
    simp only [State.progressed, State.core?_modTeam, State.core?_modCore_same, h1, Option.map_some, CoreCtx.modRun]
    rfl

theorem State.fired_core_other (s : State) (k k2 : Key) (r : Nat) (o : Option Nat) (h : k ≠ k2) :
    (s.fired k r o).core? k2 = s.core? k2 := by
  unfold State.fired
  cases o with
  | none =>
    simp only [State.progressed, State.core?_modTeam, State.core?_modCore_other _ _ _ _ h, State.count_core_other _ _ _ _ _ h]
  | some i =>
    simp only [State.progressed, State.core?_modTeam, State.core?_modCore_other _ _ _ _ h, State.count_core_other _ _ _ _ _ h]

/-! ### Operands (R24 steps 3 and 4) -/

theorem CoreCtx.giveCredit_elems (c : CoreCtx) (p q : Nat) : (c.giveCredit p q).elems = c.elems := by
  unfold CoreCtx.giveCredit; split <;> rfl

/-- Every item in flight before a credit is given is there after it. -/
theorem CoreCtx.giveCredit_flights (c : CoreCtx) (p q : Nat) (x : Flight) (h : x ∈ c.flights) : x ∈ (c.giveCredit p q).flights := by
  unfold CoreCtx.giveCredit
  split
  · simp [CoreCtx.fly, h]
  · simp [h]

/-- A dequeue changes nothing of a core but queue `q` of the element and what is in flight. -/
theorem CoreCtx.dequeue_other (c : CoreCtx) (p q n p2 : Nat) (h : p ≠ p2) : (c.dequeue p q n).elem? p2 = c.elem? p2 := by
  induction n generalizing c with
  | zero => rfl
  | succ n ih =>
    rw [CoreCtx.dequeue, ih]
    simp [CoreCtx.elem?, CoreCtx.giveCredit_elems, CoreCtx.modElem, Assoc.get?_put_other _ _ _ _ h]

theorem CoreCtx.elemD_giveCredit (c : CoreCtx) (p q r : Nat) : (c.giveCredit p q).elemD r = c.elemD r := by
  simp [CoreCtx.elemD, CoreCtx.giveCredit_elems]

/-- A dequeue drops the first n tokens of the queue and leaves the rest of the element alone. -/
theorem CoreCtx.dequeue_same (c : CoreCtx) (p q n : Nat) (hq : q < 4) :
    (c.dequeue p q n).elemD p = (c.elemD p).setQueue q (((c.elemD p).queue q).drop n) := by
  induction n generalizing c with
  | zero => simp [CoreCtx.dequeue, Elem.setQueue, Elem.queue, upd_self]
  | succ n ih =>
    rw [CoreCtx.dequeue, ih, CoreCtx.elemD_giveCredit, CoreCtx.elemD_modElem_same]
    simp [Elem.setQueue, Elem.queue, at_upd_same _ _ _ _ hq, upd_upd]

/-! ### What a link, a beat buffer's drop and a power step change -/

/-- What is told on a link changes the fabric alone. -/
theorem State.linkFlit_only (s : State) (p : Nat) (ws : List W64) :
    s.linkFlit p ws = { s with fabric := (s.linkFlit p ws).fabric } := by
  unfold State.linkFlit; dsimp only; split <;> rfl

/-- It changes no port. -/
theorem State.linkFlit_ports (s : State) (p : Nat) (ws : List W64) : (s.linkFlit p ws).fabric.ports = s.fabric.ports := by
  unfold State.linkFlit; dsimp only; split <;> rfl

/-- The beats that a team drops change its cores alone. -/
theorem State.dropTeamBeats_only (s : State) (ctx : Nat) :
    s.dropTeamBeats ctx = { s with cores := (s.dropTeamBeats ctx).cores } := rfl

/-- A power step that narrows changes the power controller alone. -/
theorem State.narrow_only (s : State) : s.narrow = { s with power := s.narrow.power } := rfl

/-- The end of a resynchronisation puts nothing on the wire and keeps what stands in its buffers. -/
theorem FPort.resynced_wire (x : FPort) : x.resynced.wire = x.wire ∧ x.resynced.retry = x.retry ∧ x.resynced.rx = x.rx := by
  unfold FPort.resynced; split <;> exact ⟨rfl, rfl, rfl⟩

end Sys2Proof.Machine
end

