-- ==== Sys2Proof/Laws/Fire.lean ====
section
/-! SUPPORT. What one fire leaves (R24): its operands, its destination, its predicate, and nothing else of its core. -/

namespace Sys2Proof.Machine

/-- Two cores that differ only in their elements and in what is in flight, of which nothing has left. -/
def CoreCtx.Grown (c c' : CoreCtx) : Prop :=
  ∃ es fl, c' = { c with elems := es, flights := c.flights ++ fl }

theorem CoreCtx.Grown.refl (c : CoreCtx) : c.Grown c := ⟨c.elems, [], by simp⟩

theorem CoreCtx.Grown.trans {a b c : CoreCtx} (h : a.Grown b) (g : b.Grown c) : a.Grown c := by
  obtain ⟨es, fl, rfl⟩ := h
  obtain ⟨es', fl', rfl⟩ := g
  exact ⟨es', fl ++ fl', by simp⟩

theorem CoreCtx.grown_modElem (c : CoreCtx) (p : Nat) (f : Elem → Elem) : c.Grown (c.modElem p f) :=
  ⟨_, [], by simp [CoreCtx.modElem]; rfl⟩

theorem CoreCtx.grown_flights (c : CoreCtx) (l : List Flight) : c.Grown { c with flights := c.flights ++ l } :=
  ⟨c.elems, l, rfl⟩

theorem CoreCtx.grown_fly (c : CoreCtx) (n r : Nat) (x : Cargo) : c.Grown (c.fly n r x) := c.grown_flights _

theorem CoreCtx.grown_giveCredit (c : CoreCtx) (p q : Nat) : c.Grown (c.giveCredit p q) := by
  unfold CoreCtx.giveCredit
  split
  · exact c.grown_fly _ _ _
  · simp only [List.append_assoc]
    exact c.grown_flights _

theorem CoreCtx.grown_dequeue (c : CoreCtx) (p q n : Nat) : c.Grown (c.dequeue p q n) := by
  induction n generalizing c with
  | zero => exact .refl c
  | succ n ih => exact ((c.grown_modElem p _).trans (CoreCtx.grown_giveCredit _ p q)).trans (ih _)

theorem CoreCtx.grown_foldl {α : Type} (f : CoreCtx → α → CoreCtx) (hf : ∀ (c : CoreCtx) (x : α), c.Grown (f c x)) (l : List α) (c : CoreCtx) :
    c.Grown (l.foldl f c) := by
  induction l generalizing c with
  | nil => exact .refl c
  | cons x t ih => exact (hf c x).trans (ih _)

theorem CoreCtx.grown_send (c : CoreCtx) (p q r : Nat) (b : Bool) (t : Token) : c.Grown (c.send p q r b t) := by
  unfold CoreCtx.send
  cases b
  · exact (c.grown_modElem p fun e => e.setPort q ((c.elemD p).port q).take).trans (CoreCtx.grown_flights _ _)
  · exact c.grown_flights _

theorem takeOperands_grown (o : Op) (sh : Shape) (f : Fields) (p : Nat) (c : CoreCtx) : c.Grown (takeOperands o sh f p c) := by
  unfold takeOperands
  exact (CoreCtx.grown_foldl (fun c q => c.dequeue p q o.take) (fun c q => c.grown_dequeue p q o.take) _ _).trans
    (CoreCtx.grown_foldl (fun c r => c.modElem p fun e => e.setReg r { e.reg r with full := false })
      (fun c r => c.grown_modElem p _) _ _)

/-- Where no earlier result of an LE waits for the destination, a result's delivery grows the core. -/
theorem deliver_grown (o : Op) (sh : Shape) (l : Look) (r : Res) (c : CoreCtx)
    (h : c.behindReqs l.t.pos l.f.dst.toNat = false) (hw : o.delay = 0 → c.regBehind l.t.pos = false) :
    c.Grown (deliver o sh l r c) := by
  have hb : ∀ g : Elem → Elem, (c.modElem l.t.pos g).behindReqs l.t.pos l.f.dst.toNat = false := fun g => h
  have hw : ∀ g : Elem → Elem, ¬(o.delay = 0 ∧ (c.modElem l.t.pos g).regBehind l.t.pos = true) :=
    fun g x => Bool.false_ne_true ((hw x.1).symm.trans x.2)
  unfold deliver
  simp only [hb, hw, if_false]
  repeat' split
  all_goals
    first
      | exact .refl _
      | exact (c.grown_modElem _ _)
      | exact (c.grown_modElem _ _).trans (CoreCtx.grown_modElem _ _ _)
      | exact (c.grown_modElem _ _).trans (CoreCtx.grown_send _ _ _ _ _ _)
      | exact (c.grown_modElem _ _).trans (CoreCtx.grown_fly _ _ _ _)
      | exact c.grown_fly _ _ _
      | simp_all

theorem updatePred_grown (o : Op) (sh : Shape) (l : Look) (r : Res) (c : CoreCtx) : c.Grown (updatePred o sh l r c) := by
  unfold updatePred
  split
  · exact .refl c
  · exact c.grown_modElem _ _

/-! ### Other elements -/

theorem CoreCtx.send_other (c : CoreCtx) (p q r p2 : Nat) (b : Bool) (t : Token) (h : p ≠ p2) :
    (c.send p q r b t).elem? p2 = c.elem? p2 := by
  unfold CoreCtx.send
  cases b
  · exact CoreCtx.elem?_modElem_other c p p2 (fun e => e.setPort q ((c.elemD p).port q).take) h
  · rfl

theorem CoreCtx.foldl_other {α : Type} (f : CoreCtx → α → CoreCtx) (p2 : Nat) (hf : ∀ (c : CoreCtx) (x : α), (f c x).elem? p2 = c.elem? p2)
    (l : List α) (c : CoreCtx) : (l.foldl f c).elem? p2 = c.elem? p2 := by
  induction l generalizing c with
  | nil => rfl
  | cons x t ih => rw [List.foldl_cons, ih, hf]

theorem takeOperands_other (o : Op) (sh : Shape) (f : Fields) (p p2 : Nat) (c : CoreCtx) (h : p ≠ p2) :
    (takeOperands o sh f p c).elem? p2 = c.elem? p2 := by
  unfold takeOperands
  rw [CoreCtx.foldl_other _ _ (fun c r => CoreCtx.elem?_modElem_other c p p2 _ h),
    CoreCtx.foldl_other _ _ (fun c q => CoreCtx.dequeue_other c p q o.take p2 h)]

theorem deliver_other (o : Op) (sh : Shape) (l : Look) (r : Res) (c : CoreCtx) (p2 : Nat) (h : l.t.pos ≠ p2)
    (hb : c.behindReqs l.t.pos l.f.dst.toNat = false) (hw : o.delay = 0 → c.regBehind l.t.pos = false) :
    (deliver o sh l r c).elem? p2 = c.elem? p2 := by
  have hw : ∀ g : Elem → Elem, ¬(o.delay = 0 ∧ (c.modElem l.t.pos g).regBehind l.t.pos = true) :=
    fun g x => Bool.false_ne_true ((hw x.1).symm.trans x.2)
  have hb : ∀ g : Elem → Elem, (c.modElem l.t.pos g).behindReqs l.t.pos l.f.dst.toNat = false := fun g => hb
  have hm : ∀ (c : CoreCtx) (g : Elem → Elem), (c.modElem l.t.pos g).elem? p2 = c.elem? p2 :=
    fun c g => CoreCtx.elem?_modElem_other c _ _ g h
  have hf : ∀ (c : CoreCtx) (n r : Nat) (x : Cargo), (c.fly n r x).elem? p2 = c.elem? p2 := fun _ _ _ _ => rfl
  unfold deliver
  simp only [hb, hw, if_false]
  repeat' split
  all_goals simp_all [CoreCtx.send_other, CoreCtx.holdCredit]

theorem updatePred_other (o : Op) (sh : Shape) (l : Look) (r : Res) (c : CoreCtx) (p2 : Nat) (h : l.t.pos ≠ p2) :
    (updatePred o sh l r c).elem? p2 = c.elem? p2 := by
  unfold updatePred
  split
  · rfl
  · exact CoreCtx.elem?_modElem_other c _ _ _ h

/-! ### The element that fires -/

/-- Taking operands changes an element's queues and registers only. -/
theorem CoreCtx.dequeue_shape (c : CoreCtx) (p q n : Nat) :
    ∃ qs, (c.dequeue p q n).elemD p = { c.elemD p with queues := qs } := by
  induction n generalizing c with
  | zero => exact ⟨_, rfl⟩
  | succ n ih =>
    obtain ⟨qs, h⟩ := ih ((c.modElem p fun e => e.setQueue q (e.queue q).tail).giveCredit p q)
    refine ⟨qs, ?_⟩
    rw [CoreCtx.dequeue, h, CoreCtx.elemD_giveCredit, CoreCtx.elemD_modElem_same]
    rfl

theorem takeOperands_shape (o : Op) (sh : Shape) (f : Fields) (p : Nat) (c : CoreCtx) :
    ∃ qs rs, (takeOperands o sh f p c).elemD p = { c.elemD p with queues := qs, regs := rs } := by
  unfold takeOperands
  have h1 : ∀ (l : List Nat) (c : CoreCtx), ∃ qs,
      (l.foldl (fun c q => c.dequeue p q o.take) c).elemD p = { c.elemD p with queues := qs } := by
    intro l
    induction l with
    | nil => intro c; exact ⟨_, rfl⟩
    | cons x t ih =>
      intro c
      obtain ⟨qs, h⟩ := ih (c.dequeue p x o.take)
      obtain ⟨qs', h'⟩ := c.dequeue_shape p x o.take
      exact ⟨qs, by rw [List.foldl_cons, h, h']⟩
  have h2 : ∀ (l : List Nat) (c : CoreCtx), ∃ rs,
      (l.foldl (fun c r => c.modElem p fun e => e.setReg r { e.reg r with full := false }) c).elemD p =
        { c.elemD p with regs := rs } := by
    intro l
    induction l with
    | nil => intro c; exact ⟨_, rfl⟩
    | cons x t ih =>
      intro c
      obtain ⟨rs, h⟩ := ih (c.modElem p fun e => e.setReg x { e.reg x with full := false })
      exact ⟨rs, by rw [List.foldl_cons, h, CoreCtx.elemD_modElem_same]; rfl⟩
  obtain ⟨qs, h⟩ := h1 (dqQueues sh f) c
  obtain ⟨rs, h'⟩ := h2 (dqRegs sh f) ((dqQueues sh f).foldl (fun c q => c.dequeue p q o.take) c)
  exact ⟨qs, rs, by rw [h', h]⟩

@[simp] theorem applyPred_reg (e : Elem) (f : Fields) (i : Ins) (ht : Bool) (v : W64) (t : Bool) (n : Nat) :
    (applyPred e f i ht v t).reg n = e.reg n := by
  unfold applyPred
  simp only
  split <;> rfl

theorem updatePred_reg (o : Op) (sh : Shape) (l : Look) (r : Res) (c : CoreCtx) (n : Nat) :
    ((updatePred o sh l r c).elemD l.t.pos).reg n = (c.elemD l.t.pos).reg n := by
  unfold updatePred
  split
  · rfl
  · rw [CoreCtx.elemD_modElem_same]
    split
    · rfl
    · exact applyPred_reg _ _ _ _ _ _ _

/-- A result that comes at once fills its register (R19, R20). -/
theorem deliver_reg (o : Op) (sh : Shape) (l : Look) (r : Res) (c : CoreCtx) (now : o.atOnce l = true)
    (hd : sh.d = .result ∨ sh.d = .accum) (hm : o.mute l = false) (h : l.f.dst.toNat ≤ 11)
    (hw : o.delay = 0 → c.regBehind l.t.pos = false) :
    ((deliver o sh l r c).elemD l.t.pos).reg l.f.dst.toNat = ⟨r.data, r.fmt, r.tnt, true, false⟩ := by
  have hh : ((sh.d == .result || sh.d == .accum) && !o.mute l) = true := by rcases hd with h | h <;> simp [h, hm]
  have hw : ∀ g : Elem → Elem, ¬(o.delay = 0 ∧ (c.modElem l.t.pos g).regBehind l.t.pos = true) :=
    fun g x => Bool.false_ne_true ((hw x.1).symm.trans x.2)
  unfold deliver
  simp only [now, hh, if_true, Bool.not_true, h, hw]
  simp only [Bool.false_eq_true, if_false, CoreCtx.elemD_modElem_same]
  exact Elem.reg_setReg_same _ _ _ (by omega)

/-- A result that comes at once and has a port for its destination is sent to every receiver of the port (R16, R25). -/
theorem deliver_sent (o : Op) (sh : Shape) (l : Look) (r : Res) (c : CoreCtx) (x : Recv) (now : o.atOnce l = true)
    (hd : sh.d = .result) (hm : o.mute l = false) (h : codeIsPort l.f.dst.toNat = true)
    (hb : c.behindReqs l.t.pos l.f.dst.toNat = false)
    (hx : x ∈ ((c.elemD l.t.pos).port (l.f.dst.toNat - 24)).recvs) :
    ∃ fl ∈ (deliver o sh l r c).flights, fl.left = x.lat ∧
      fl.cargo = .token x.pos x.q ⟨r.data, r.fmt, r.ctl.getD (toutCtl l.f l.i), r.tnt⟩ := by
  have hb : ∀ g : Elem → Elem, (c.modElem l.t.pos g).behindReqs l.t.pos l.f.dst.toNat = false := fun g => hb
  have h11 : ¬ l.f.dst.toNat ≤ 11 := by
    simp only [codeIsPort, decide_eq_true_eq] at h; omega
  unfold deliver
  simp only [now, hd, hm, hb, h, h11]
  simp only [BEq.rfl, Bool.true_or, Bool.not_false, Bool.and_self, Bool.not_true, Bool.false_eq_true, if_false, if_true]
  unfold CoreCtx.send sendFlights
  simp only [Bool.false_eq_true, if_false, List.mem_append, List.mem_map]
  refine ⟨_, .inr ⟨x, ?_, rfl⟩, rfl, rfl⟩
  rw [CoreCtx.elemD_modElem_same]
  exact hx

/-- A long result leaves its register pending (R19). -/
theorem deliver_pending (o : Op) (sh : Shape) (l : Look) (r : Res) (c : CoreCtx) (now : o.atOnce l = false)
    (hd : sh.d = .result ∨ sh.d = .accum) (hm : o.mute l = false) (h : l.f.dst.toNat ≤ 11) :
    (((deliver o sh l r c).elemD l.t.pos).reg l.f.dst.toNat).pending = true ∧
      (((deliver o sh l r c).elemD l.t.pos).reg l.f.dst.toNat).full = false := by
  have hh : ((sh.d == .result || sh.d == .accum) && !o.mute l) = true := by rcases hd with h | h <;> simp [h, hm]
  unfold deliver
  simp only [now, hh, if_true, Bool.not_true, h]
  simp only [Bool.false_eq_true, if_false]
  have key : (((c.modElem l.t.pos fun e =>
      e.setReg l.f.dst.toNat { e.reg l.f.dst.toNat with full := false, pending := true }).elemD l.t.pos).reg
        l.f.dst.toNat) = { (c.elemD l.t.pos).reg l.f.dst.toNat with full := false, pending := true } := by
    rw [CoreCtx.elemD_modElem_same]
    exact Elem.reg_setReg_same _ _ _ (by omega)
  split
  · rw [key]; exact ⟨rfl, rfl⟩
  · have hf : ∀ (c : CoreCtx) (n r : Nat) (x : Cargo) (p : Nat), (c.fly n r x).elemD p = c.elemD p := fun _ _ _ _ _ => rfl
    rw [hf, key]; exact ⟨rfl, rfl⟩

/-- A long result is in flight for its latency in cycles of its row (R65, R84, R227). -/
theorem deliver_flight (o : Op) (sh : Shape) (l : Look) (r : Res) (c : CoreCtx) (now : o.atOnce l = false)
    (h0 : o.delay ≠ 0) :
    ∃ fl ∈ (deliver o sh l r c).flights, fl.left = c.cyclesOf l.t.pos o.delay ∧
      ∃ x, fl.cargo = .result x ∧ x.pos = l.t.pos ∧ x.data = r.data ∧ x.fmt = r.fmt ∧ x.tnt = r.tnt ∧ x.flags = r.flags := by
  have hc : ∀ (g : Elem → Elem), (c.modElem l.t.pos g).cyclesOf l.t.pos o.delay = c.cyclesOf l.t.pos o.delay := fun _ => rfl
  have hh : ∀ q, (c.holdCredit l.t.pos q).cyclesOf l.t.pos o.delay = c.cyclesOf l.t.pos o.delay := fun _ => rfl
  unfold deliver
  simp only [now, h0, Bool.false_eq_true, if_false, CoreCtx.fly, List.mem_append, List.mem_singleton]
  refine ⟨_, .inr rfl, ?_, _, rfl, rfl, rfl, rfl, rfl, rfl⟩
  simp only
  repeat' split
  all_goals first | rfl | exact hc _ | exact hh _

/-! ### A whole fire -/

/-- The core after the parts of a fire that R24 names. -/
def firedCore (o : Op) (sh : Shape) (l : Look) (c : CoreCtx) : CoreCtx :=
  updatePred o sh l (o.res l) (deliver o sh l (o.res l) (takeOperands o sh (l.t.takes l.f) l.t.pos c))

/-- A fire that makes no entries needs no spill commit (R168). -/
theorem Look.spilled_zero (l : Look) : l.spilled 0 = l := by simp [Look.spilled]

/-- A fire of an operation without further effects: its core is `firedCore` but for counters (R256, R368). -/
theorem fireSlot_core (o : Op) (sh : Shape) (l : Look) (c : CoreCtx) (hc : l.s.core? l.t.k = some c)
    (he : ∀ l s, o.effect l s = s) (hn : o.entries l = 0) :
    ∃ v rs, (fireSlot o sh l).core? l.t.k = some { firedCore o sh l c with evc := v, runs := rs } := by
  have h1 : (((l.s.modCore l.t.k (takeOperands o sh (l.t.takes l.f) l.t.pos)).modCore l.t.k (deliver o sh l (o.res l))).modCore l.t.k
      (updatePred o sh l (o.res l))).core? l.t.k = some (firedCore o sh l c) := by
    simp [State.core?_modCore_same, hc, firedCore]
  unfold fireSlot
  simp only [hn, Look.spilled_zero, he]
  split
  · have h2 := State.count_core _ l.t.k 23 1 _ h1
    obtain ⟨v, h3⟩ := State.fired_core _ l.t.k l.e.runId o.counter _ h2
    exact ⟨_, _, h3⟩
  · obtain ⟨v, h3⟩ := State.fired_core _ l.t.k l.e.runId o.counter _ h1
    exact ⟨_, _, h3⟩

theorem fireSlot_core_other (o : Op) (sh : Shape) (l : Look) (k2 : Key) (h : l.t.k ≠ k2)
    (he : ∀ l s, o.effect l s = s) (hn : o.entries l = 0) : (fireSlot o sh l).core? k2 = l.s.core? k2 := by
  unfold fireSlot
  simp only [hn, Look.spilled_zero, he]
  split <;> simp [State.fired_core_other _ _ _ _ _ h, State.count_core_other _ _ _ _ _ h, State.core?_modCore_other _ _ _ _ h]

/-- What a fire without further effects leaves of the rest of the machine. -/
theorem fireSlot_rest (o : Op) (sh : Shape) (l : Look) (he : ∀ l s, o.effect l s = s) (hn : o.entries l = 0) :
    (fireSlot o sh l).mcores = l.s.mcores ∧ (fireSlot o sh l).flat = l.s.flat ∧ (fireSlot o sh l).hbm = l.s.hbm ∧
      (fireSlot o sh l).time = l.s.time ∧ (fireSlot o sh l).free = l.s.free ∧ (fireSlot o sh l).turns = l.s.turns := by
  unfold fireSlot
  simp only [hn, Look.spilled_zero, he]
  split <;> simp

/-! ### What is in flight after a fire -/

/-- Only credits on their way to senders (R18). -/
def JustCredits (l : List Flight) : Prop := ∀ x ∈ l, ∃ pos port rcv, x.cargo = .credit pos port rcv

theorem JustCredits.nil : JustCredits [] := by intro x hx; cases hx

theorem JustCredits.append {a b : List Flight} (h : JustCredits a) (g : JustCredits b) : JustCredits (a ++ b) := by
  intro x hx
  rcases List.mem_append.1 hx with h1 | h1
  · exact h x h1
  · exact g x h1

theorem CoreCtx.giveCredit_inFlight (c : CoreCtx) (p q : Nat) (hk : kindAt p ≠ .me) :
    ∃ back, JustCredits back ∧ (c.giveCredit p q).flights = c.flights ++ back := by
  unfold CoreCtx.giveCredit
  simp only [hk, if_false]
  refine ⟨_, ?_, List.append_assoc _ _ _⟩
  apply JustCredits.append
  · intro x hx
    simp only [List.mem_map] at hx
    obtain ⟨⟨a, b, i, l⟩, -, rfl⟩ := hx
    exact ⟨_, _, _, rfl⟩
  · split
    · intro x hx
      simp only [List.mem_singleton] at hx
      subst hx
      exact ⟨_, _, _, rfl⟩
    · exact .nil

theorem CoreCtx.dequeue_inFlight (p q n : Nat) (hk : kindAt p ≠ .me) (c : CoreCtx) :
    ∃ back, JustCredits back ∧ (c.dequeue p q n).flights = c.flights ++ back := by
  induction n generalizing c with
  | zero => exact ⟨[], .nil, by simp [CoreCtx.dequeue]⟩
  | succ n ih =>
    obtain ⟨b1, h1, e1⟩ := CoreCtx.giveCredit_inFlight (c.modElem p fun e => e.setQueue q (e.queue q).tail) p q hk
    obtain ⟨b2, h2, e2⟩ := ih ((c.modElem p fun e => e.setQueue q (e.queue q).tail).giveCredit p q)
    exact ⟨b1 ++ b2, h1.append h2, by rw [CoreCtx.dequeue, e2, e1, ← List.append_assoc]; rfl⟩

theorem takeOperands_flights (o : Op) (sh : Shape) (f : Fields) (p : Nat) (hk : kindAt p ≠ .me) (c : CoreCtx) :
    ∃ back, JustCredits back ∧ (takeOperands o sh f p c).flights = c.flights ++ back := by
  unfold takeOperands
  have h2 : ∀ (l : List Nat) (c : CoreCtx),
      (l.foldl (fun c r => c.modElem p fun e => e.setReg r { e.reg r with full := false }) c).flights = c.flights := by
    intro l
    induction l with
    | nil => intro c; rfl
    | cons x t ih => intro c; rw [List.foldl_cons, ih]; rfl
  have h1 : ∀ (l : List Nat) (c : CoreCtx), ∃ back, JustCredits back ∧
      (l.foldl (fun c q => c.dequeue p q o.take) c).flights = c.flights ++ back := by
    intro l
    induction l with
    | nil => intro c; exact ⟨[], .nil, by simp⟩
    | cons x t ih =>
      intro c
      obtain ⟨b1, k1, e1⟩ := CoreCtx.dequeue_inFlight p x o.take hk c
      obtain ⟨b2, k2, e2⟩ := ih (c.dequeue p x o.take)
      exact ⟨b1 ++ b2, k1.append k2, by rw [List.foldl_cons, e2, e1, List.append_assoc]⟩
  obtain ⟨b, hb, e⟩ := h1 (dqQueues sh f) c
  exact ⟨b, hb, by simp only [h2]; exact e⟩

theorem updatePred_flights (o : Op) (sh : Shape) (l : Look) (r : Res) (c : CoreCtx) :
    (updatePred o sh l r c).flights = c.flights := by
  unfold updatePred
  split <;> rfl

theorem updatePred_shape (o : Op) (sh : Shape) (l : Look) (r : Res) (c : CoreCtx) :
    ∃ ps, (updatePred o sh l r c).elemD l.t.pos = { c.elemD l.t.pos with preds := ps } := by
  unfold updatePred
  split
  · exact ⟨_, rfl⟩
  · rw [CoreCtx.elemD_modElem_same]
    split
    · exact ⟨_, rfl⟩
    · unfold applyPred
      simp only
      split <;> exact ⟨_, rfl⟩

theorem takeOperands_groupOf (o : Op) (sh : Shape) (f : Fields) (p n : Nat) (c : CoreCtx) :
    (takeOperands o sh f p c).groupOf n = c.groupOf n := by
  obtain ⟨a, b, h⟩ := takeOperands_grown o sh f p c
  rw [h]
  rfl

theorem takeOperands_divs (o : Op) (sh : Shape) (f : Fields) (p : Nat) (c : CoreCtx) :
    (takeOperands o sh f p c).divs = c.divs := by
  obtain ⟨a, b, h⟩ := takeOperands_grown o sh f p c
  rw [h]

/-- A result that comes at once (R19, R24, R25, R42): the flags it sets, its register, or the tokens it sends. -/
theorem firedCore_now (o : Op) (sh : Shape) (l : Look) (c : CoreCtx) (hce : c.elemD l.t.pos = l.e)
    (hk : kindAt l.t.pos ≠ .me) (hb : ∀ c : CoreCtx, c.behindReqs l.t.pos l.f.dst.toNat = false)
    (now : o.atOnce l = true) (hd : sh.d = .result ∨ sh.d = .accum) (hm : o.mute l = false) (h0 : o.delay ≠ 0) :
    let c' := firedCore o sh l c
    let d := l.f.dst.toNat
    let r := o.res l
    (c'.elemD l.t.pos).flags = l.e.flags.or r.flags ∧
    (d ≤ 11 → (c'.elemD l.t.pos).reg d = ⟨r.data, r.fmt, r.tnt, true, false⟩) ∧
    (24 ≤ d ∧ d ≤ 27 →
      ((c'.elemD l.t.pos).port (d - 24)).recvs = (l.e.port (d - 24)).take.recvs ∧
      ∃ back, JustCredits back ∧ c'.flights = c.flights ++ back ++
        sendFlights l.e.runId (c.groupOf l.e.runId) (l.e.port (d - 24)) ⟨r.data, r.fmt, r.ctl.getD (toutCtl l.f l.i), r.tnt⟩) := by
  intro c' d r
  obtain ⟨back, hback, hfl⟩ := takeOperands_flights o sh (l.t.takes l.f) l.t.pos hk c
  obtain ⟨qs, rg, hsha⟩ := takeOperands_shape o sh (l.t.takes l.f) l.t.pos c
  have hgr := takeOperands_groupOf o sh (l.t.takes l.f) l.t.pos l.e.runId c
  have hreg := fun h11 => deliver_reg o sh l r (takeOperands o sh (l.t.takes l.f) l.t.pos c) now hd hm h11
  generalize hct : takeOperands o sh (l.t.takes l.f) l.t.pos c = ct at *
  obtain ⟨ps, hps⟩ := updatePred_shape o sh l r (deliver o sh l r ct)
  have hh : ((sh.d == .result || sh.d == .accum) && !o.mute l) = true := by rcases hd with h | h <;> simp [h, hm]
  have hc' : c' = updatePred o sh l r (deliver o sh l r ct) := by rw [← hct]; rfl
  have hfc : c'.flights = (deliver o sh l r ct).flights := by rw [hc']; exact updatePred_flights _ _ _ _ _
  have hec : c'.elemD l.t.pos = { (deliver o sh l r ct).elemD l.t.pos with preds := ps } := by rw [hc']; exact hps
  have hcte : (ct.elemD l.t.pos).flags = l.e.flags := by rw [hsha, ← hce]
  have hcto : ∀ n, (ct.elemD l.t.pos).port n = l.e.port n := by intro n; rw [hsha, ← hce]; rfl
  have kf : ∀ c : CoreCtx, ((c.modElem l.t.pos fun e => e.setFlags r.flags).elemD l.t.pos).flags =
      (c.elemD l.t.pos).flags.or r.flags := by
    intro c
    rw [CoreCtx.elemD_modElem_same]
    rfl
  have kp : ∀ n, ((ct.modElem l.t.pos fun e => e.setFlags r.flags).elemD l.t.pos).port n = l.e.port n := by
    intro n
    rw [CoreCtx.elemD_modElem_same]
    exact hcto n
  have hsend : ∀ (c : CoreCtx) (n : Nat) (t : Token), (c.send l.t.pos n l.e.runId false t).elemD l.t.pos =
      (c.elemD l.t.pos).setPort n ((c.elemD l.t.pos).port n).take := by
    intro c n t
    exact CoreCtx.elemD_modElem_same c l.t.pos fun e => e.setPort n ((c.elemD l.t.pos).port n).take
  have hsf : ∀ (c : CoreCtx) (n : Nat) (t : Token), (c.send l.t.pos n l.e.runId false t).flights =
      c.flights ++ sendFlights l.e.runId (c.groupOf l.e.runId) ((c.elemD l.t.pos).port n) t := fun _ _ _ => rfl
  refine ⟨?_, ?_, ?_⟩
  · rw [hec]
    show ((deliver o sh l r ct).elemD l.t.pos).flags = _
    unfold deliver
    simp only [now, if_true, hh, Bool.not_true, Bool.false_eq_true, if_false, hb, h0, false_and]
    split
    · rw [CoreCtx.elemD_modElem_same]
      show ((CoreCtx.modElem _ _ _).elemD l.t.pos).flags = _
      rw [kf, hcte]
    · split
      · rw [hsend]
        show ((CoreCtx.modElem _ _ _).elemD l.t.pos).flags = _
        rw [kf, hcte]
      · rw [kf, hcte]
  · intro h11
    rw [hec]
    exact hreg h11 fun h => absurd h h0
  · rintro ⟨h24, h27⟩
    have h11 : ¬ l.f.dst.toNat ≤ 11 := by omega
    have hp : codeIsPort l.f.dst.toNat = true := by simp [codeIsPort]; omega
    have hdr : deliver o sh l r ct = (ct.modElem l.t.pos fun e => e.setFlags r.flags).send l.t.pos (d - 24) l.e.runId false
        ⟨r.data, r.fmt, r.ctl.getD (toutCtl l.f l.i), r.tnt⟩ := by
      unfold deliver
      simp only [now, if_true, hh, Bool.not_true, Bool.false_eq_true, if_false, hb, h11, hp]
      rfl
    constructor
    · rw [hec]
      show (((deliver o sh l r ct).elemD l.t.pos).port _).recvs = _
      rw [hdr, hsend]
      rw [kp]
      show (at' (upd _ _ _) _ _ : Port).recvs = _
      rw [at_upd_same (h := by omega)]
    · refine ⟨back, hback, ?_⟩
      rw [hfc, hdr, hsf]
      show ct.flights ++ _ = _
      rw [kp, hfl]
      congr 2

/-- A result that comes later (R19, R25, R65, R84, R227): its register is pending or its port's credit is taken, and it is
in flight for its latency in cycles of its row. -/
theorem firedCore_later (o : Op) (sh : Shape) (l : Look) (c : CoreCtx) (hce : c.elemD l.t.pos = l.e)
    (hk : kindAt l.t.pos ≠ .me) (now : o.atOnce l = false) (h0 : o.delay ≠ 0)
    (hd : sh.d = .result ∨ sh.d = .accum) (hm : o.mute l = false) :
    let c' := firedCore o sh l c
    let d := l.f.dst.toNat
    let r := o.res l
    (c'.elemD l.t.pos).flags = l.e.flags ∧
    (d ≤ 11 → ((c'.elemD l.t.pos).reg d).pending = true ∧ ((c'.elemD l.t.pos).reg d).full = false) ∧
    (24 ≤ d ∧ d ≤ 27 → ((c'.elemD l.t.pos).port (d - 24)).recvs = (l.e.port (d - 24)).take.recvs) ∧
    ∃ back x, JustCredits back ∧
      c'.flights = c.flights ++ back ++ [⟨c.cyclesOf l.t.pos o.delay, l.e.runId, c.groupOf l.e.runId, .result x⟩] ∧
      x.pos = l.t.pos ∧ x.dst = d ∧ x.data = r.data ∧ x.fmt = r.fmt ∧ x.tnt = r.tnt ∧ x.flags = r.flags ∧
      x.ctl = r.ctl.getD (toutCtl l.f l.i) := by
  intro c' d r
  obtain ⟨back, hback, hfl⟩ := takeOperands_flights o sh (l.t.takes l.f) l.t.pos hk c
  obtain ⟨qs, rg, hsha⟩ := takeOperands_shape o sh (l.t.takes l.f) l.t.pos c
  have hgr := takeOperands_groupOf o sh (l.t.takes l.f) l.t.pos l.e.runId c
  have hdv := takeOperands_divs o sh (l.t.takes l.f) l.t.pos c
  have hreg := fun h11 => deliver_pending o sh l r (takeOperands o sh (l.t.takes l.f) l.t.pos c) now hd hm h11
  generalize hct : takeOperands o sh (l.t.takes l.f) l.t.pos c = ct at *
  obtain ⟨ps, hps⟩ := updatePred_shape o sh l r (deliver o sh l r ct)
  have hh : ((sh.d == .result || sh.d == .accum) && !o.mute l) = true := by rcases hd with h | h <;> simp [h, hm]
  have hc' : c' = updatePred o sh l r (deliver o sh l r ct) := by rw [← hct]; rfl
  have hfc : c'.flights = (deliver o sh l r ct).flights := by rw [hc']; exact updatePred_flights _ _ _ _ _
  have hec : c'.elemD l.t.pos = { (deliver o sh l r ct).elemD l.t.pos with preds := ps } := by rw [hc']; exact hps
  have hcte : (ct.elemD l.t.pos).flags = l.e.flags := by rw [hsha, ← hce]
  have hcto : ∀ n, (ct.elemD l.t.pos).port n = l.e.port n := by intro n; rw [hsha, ← hce]; rfl
  have hfe : ∀ (c : CoreCtx) (n r : Nat) (x : Cargo) (p : Nat), (c.fly n r x).elemD p = c.elemD p := fun _ _ _ _ _ => rfl
  refine ⟨?_, ?_, ?_, ?_⟩
  · rw [hec]
    show ((deliver o sh l r ct).elemD l.t.pos).flags = _
    unfold deliver
    simp only [now, h0, hh, Bool.not_true, Bool.false_eq_true, if_false, hfe]
    split
    · rw [CoreCtx.elemD_modElem_same]
      exact hcte
    · split
      · unfold CoreCtx.holdCredit
        rw [CoreCtx.elemD_modElem_same]
        exact hcte
      · exact hcte
  · intro h11
    rw [hec]
    exact hreg h11
  · rintro ⟨h24, h27⟩
    have h11 : ¬ l.f.dst.toNat ≤ 11 := by omega
    have hp : codeIsPort l.f.dst.toNat = true := by simp [codeIsPort]; omega
    rw [hec]
    show (((deliver o sh l r ct).elemD l.t.pos).port _).recvs = _
    unfold deliver
    simp only [now, h0, hh, Bool.not_true, Bool.false_eq_true, if_false, hfe, h11, hp, if_true]
    unfold CoreCtx.holdCredit
    rw [CoreCtx.elemD_modElem_same, hcto]
    show (at' (upd _ _ _) _ _ : Port).recvs = _
    rw [at_upd_same (h := by omega)]
  · have hk : ∀ c : CoreCtx, c.runs = ct.runs → c.groupOf l.e.runId = ct.groupOf l.e.runId := by
      intro c h; unfold CoreCtx.groupOf CoreCtx.run?; rw [h]
    have key : ∀ (c1 : CoreCtx) (x : LongResult), c1.flights = ct.flights → c1.runs = ct.runs → c1.divs = ct.divs →
        (c1.fly (c1.cyclesOf l.t.pos o.delay) l.e.runId (.result x)).flights =
          c.flights ++ back ++ [⟨c.cyclesOf l.t.pos o.delay, l.e.runId, c.groupOf l.e.runId, .result x⟩] := by
      intro c1 x h1 h2 h3
      unfold CoreCtx.fly
      simp only [h1, hfl, hk c1 h2, hgr]
      unfold CoreCtx.cyclesOf
      rw [h3, hdv]
    refine ⟨back, ⟨l.t.pos, l.t.slot, o.unit, d, r.data, r.fmt, r.tnt, r.ctl.getD (toutCtl l.f l.i), r.flags,
      if (updatesPred sh l.f && updateByResult l.f) = true then l.f.pu.toNat else 0, l.f.pn.toNat, o.word l⟩, hback, ?_, ?_⟩
    · rw [hfc]
      unfold deliver
      simp only [now, h0, hh, Bool.not_true, Bool.false_eq_true, if_false, if_true]
      apply key
      all_goals (split; · rfl)
      all_goals (split <;> rfl)
    · exact ⟨rfl, rfl, rfl, rfl, rfl, rfl, rfl⟩

/-! ### The step of an element operation -/

theorem runOp_ready (o : Op) (f : Fields) (s : State) (c : CoreCtx) (e : Elem) (sh : Shape) (hs : shapeOf o.opc = some sh)
    (hc : s.core? s.key = some c) (he : c.elem? s.here.pos = some e) (h : slotStatus o f s s.site = .ready) :
    runOp o f s = .next (fireSlot o sh (lookAt o f s s.site c e)) := by
  simp [runOp, hs, hc, he, h]

theorem runOp_wait (o : Op) (f : Fields) (s : State) (c : CoreCtx) (e : Elem) (sh : Shape) (hs : shapeOf o.opc = some sh)
    (hc : s.core? s.key = some c) (he : c.elem? s.here.pos = some e) (h : slotStatus o f s s.site = .wait) :
    runOp o f s = .next s := by
  simp [runOp, hs, hc, he, h]

theorem runOp_trap (o : Op) (f : Fields) (s : State) (c : CoreCtx) (e : Elem) (sh : Shape) (t : TrapInfo)
    (hs : shapeOf o.opc = some sh) (hc : s.core? s.key = some c) (he : c.elem? s.here.pos = some e)
    (h : slotStatus o f s s.site = .trap t) :
    runOp o f s = .next (s.elementTrap s.key s.here.pos s.here.idx t false) := by
  simp [runOp, hs, hc, he, h]

end Sys2Proof.Machine
end

