-- ==== Sys2Proof/Laws/PerInstr.lean ====
section
/-! SUPPORT. The class byte of every step's word, one lemma for each constructor (log 4). -/

namespace Sys2Proof.Laws.StepClass

/-- The class byte of a step's word is one of the four that the decoder knows. -/
def Statement (i : Instr) : Prop := (encode i).extractLsb' 64 8 ≤ 3#8

theorem class_append (c : BitVec 8) (v : BitVec 64) : (c ++ v : BitVec 72).extractLsb' 64 8 = c := by
  ext i hi
  simp only [BitVec.getElem_extractLsb', BitVec.getLsbD_append]
  have : ¬ (64 + i < 64) := by omega
  simp [this, BitVec.getLsbD_eq_getElem hi]

theorem of_word {i : Instr} (c : BitVec 8) (v : BitVec 64) (h : encode i = c ++ v) (hc : c ≤ 3#8) : Statement i := by
  simpa [Statement, h, class_append] using hc

theorem mov (f : Fields) : Statement (.mov f) := of_word 0#8 _ rfl (by decide)
theorem add (f : Fields) : Statement (.add f) := of_word 0#8 _ rfl (by decide)
theorem sub (f : Fields) : Statement (.sub f) := of_word 0#8 _ rfl (by decide)
theorem addw (f : Fields) : Statement (.addw f) := of_word 0#8 _ rfl (by decide)
theorem subw (f : Fields) : Statement (.subw f) := of_word 0#8 _ rfl (by decide)
theorem mul (f : Fields) : Statement (.mul f) := of_word 0#8 _ rfl (by decide)
theorem mulh (f : Fields) : Statement (.mulh f) := of_word 0#8 _ rfl (by decide)
theorem mulhn (f : Fields) : Statement (.mulhn f) := of_word 0#8 _ rfl (by decide)
theorem div (f : Fields) : Statement (.div f) := of_word 0#8 _ rfl (by decide)
theorem divn (f : Fields) : Statement (.divn f) := of_word 0#8 _ rfl (by decide)
theorem rem (f : Fields) : Statement (.rem f) := of_word 0#8 _ rfl (by decide)
theorem remn (f : Fields) : Statement (.remn f) := of_word 0#8 _ rfl (by decide)
theorem and (f : Fields) : Statement (.and f) := of_word 0#8 _ rfl (by decide)
theorem or (f : Fields) : Statement (.or f) := of_word 0#8 _ rfl (by decide)
theorem xor (f : Fields) : Statement (.xor f) := of_word 0#8 _ rfl (by decide)
theorem andn (f : Fields) : Statement (.andn f) := of_word 0#8 _ rfl (by decide)
theorem shl (f : Fields) : Statement (.shl f) := of_word 0#8 _ rfl (by decide)
theorem shr (f : Fields) : Statement (.shr f) := of_word 0#8 _ rfl (by decide)
theorem sra (f : Fields) : Statement (.sra f) := of_word 0#8 _ rfl (by decide)
theorem rotr (f : Fields) : Statement (.rotr f) := of_word 0#8 _ rfl (by decide)
theorem min (f : Fields) : Statement (.min f) := of_word 0#8 _ rfl (by decide)
theorem max (f : Fields) : Statement (.max f) := of_word 0#8 _ rfl (by decide)
theorem minn (f : Fields) : Statement (.minn f) := of_word 0#8 _ rfl (by decide)
theorem maxn (f : Fields) : Statement (.maxn f) := of_word 0#8 _ rfl (by decide)
theorem abs (f : Fields) : Statement (.abs f) := of_word 0#8 _ rfl (by decide)
theorem clz (f : Fields) : Statement (.clz f) := of_word 0#8 _ rfl (by decide)
theorem popc (f : Fields) : Statement (.popc f) := of_word 0#8 _ rfl (by decide)
theorem ext (f : Fields) : Statement (.ext f) := of_word 0#8 _ rfl (by decide)
theorem ins (f : Fields) : Statement (.ins f) := of_word 0#8 _ rfl (by decide)
theorem seq (f : Fields) : Statement (.seq f) := of_word 0#8 _ rfl (by decide)
theorem sne (f : Fields) : Statement (.sne f) := of_word 0#8 _ rfl (by decide)
theorem slt (f : Fields) : Statement (.slt f) := of_word 0#8 _ rfl (by decide)
theorem sle (f : Fields) : Statement (.sle f) := of_word 0#8 _ rfl (by decide)
theorem sltn (f : Fields) : Statement (.sltn f) := of_word 0#8 _ rfl (by decide)
theorem slen (f : Fields) : Statement (.slen f) := of_word 0#8 _ rfl (by decide)
theorem mula (f : Fields) : Statement (.mula f) := of_word 0#8 _ rfl (by decide)
theorem crd (f : Fields) : Statement (.crd f) := of_word 0#8 _ rfl (by decide)
theorem crx (f : Fields) : Statement (.crx f) := of_word 0#8 _ rfl (by decide)
theorem inc (f : Fields) : Statement (.inc f) := of_word 0#8 _ rfl (by decide)
theorem dec (f : Fields) : Statement (.dec f) := of_word 0#8 _ rfl (by decide)
theorem step (f : Fields) : Statement (.step f) := of_word 0#8 _ rfl (by decide)
theorem sel (f : Fields) : Statement (.sel f) := of_word 0#8 _ rfl (by decide)
theorem pass (f : Fields) : Statement (.pass f) := of_word 0#8 _ rfl (by decide)
theorem drop (f : Fields) : Statement (.drop f) := of_word 0#8 _ rfl (by decide)
theorem tagr (f : Fields) : Statement (.tagr f) := of_word 0#8 _ rfl (by decide)
theorem tagw (f : Fields) : Statement (.tagw f) := of_word 0#8 _ rfl (by decide)
theorem busr (f : Fields) : Statement (.busr f) := of_word 0#8 _ rfl (by decide)
theorem busc (f : Fields) : Statement (.busc f) := of_word 0#8 _ rfl (by decide)
theorem pack2 (f : Fields) : Statement (.pack2 f) := of_word 0#8 _ rfl (by decide)
theorem fadd (f : Fields) : Statement (.fadd f) := of_word 0#8 _ rfl (by decide)
theorem fsub (f : Fields) : Statement (.fsub f) := of_word 0#8 _ rfl (by decide)
theorem fmul (f : Fields) : Statement (.fmul f) := of_word 0#8 _ rfl (by decide)
theorem fma (f : Fields) : Statement (.fma f) := of_word 0#8 _ rfl (by decide)
theorem fmin (f : Fields) : Statement (.fmin f) := of_word 0#8 _ rfl (by decide)
theorem fmax (f : Fields) : Statement (.fmax f) := of_word 0#8 _ rfl (by decide)
theorem fabs (f : Fields) : Statement (.fabs f) := of_word 0#8 _ rfl (by decide)
theorem fneg (f : Fields) : Statement (.fneg f) := of_word 0#8 _ rfl (by decide)
theorem fclt (f : Fields) : Statement (.fclt f) := of_word 0#8 _ rfl (by decide)
theorem fceq (f : Fields) : Statement (.fceq f) := of_word 0#8 _ rfl (by decide)
theorem fexp2 (f : Fields) : Statement (.fexp2 f) := of_word 0#8 _ rfl (by decide)
theorem flog2 (f : Fields) : Statement (.flog2 f) := of_word 0#8 _ rfl (by decide)
theorem frcp (f : Fields) : Statement (.frcp f) := of_word 0#8 _ rfl (by decide)
theorem frsq (f : Fields) : Statement (.frsq f) := of_word 0#8 _ rfl (by decide)
theorem fsum (f : Fields) : Statement (.fsum f) := of_word 0#8 _ rfl (by decide)
theorem fscl (f : Fields) : Statement (.fscl f) := of_word 0#8 _ rfl (by decide)
theorem vaddBf (f : Fields) : Statement (.vaddBf f) := of_word 0#8 _ rfl (by decide)
theorem vsubBf (f : Fields) : Statement (.vsubBf f) := of_word 0#8 _ rfl (by decide)
theorem vmulBf (f : Fields) : Statement (.vmulBf f) := of_word 0#8 _ rfl (by decide)
theorem vfmaBf (f : Fields) : Statement (.vfmaBf f) := of_word 0#8 _ rfl (by decide)
theorem vmaxBf (f : Fields) : Statement (.vmaxBf f) := of_word 0#8 _ rfl (by decide)
theorem vminBf (f : Fields) : Statement (.vminBf f) := of_word 0#8 _ rfl (by decide)
theorem vdotBf (f : Fields) : Statement (.vdotBf f) := of_word 0#8 _ rfl (by decide)
theorem vrsumBf (f : Fields) : Statement (.vrsumBf f) := of_word 0#8 _ rfl (by decide)
theorem vaddB (f : Fields) : Statement (.vaddB f) := of_word 0#8 _ rfl (by decide)
theorem vaddsB (f : Fields) : Statement (.vaddsB f) := of_word 0#8 _ rfl (by decide)
theorem vsubB (f : Fields) : Statement (.vsubB f) := of_word 0#8 _ rfl (by decide)
theorem vmaxB (f : Fields) : Statement (.vmaxB f) := of_word 0#8 _ rfl (by decide)
theorem vminB (f : Fields) : Statement (.vminB f) := of_word 0#8 _ rfl (by decide)
theorem vdotB (f : Fields) : Statement (.vdotB f) := of_word 0#8 _ rfl (by decide)
theorem vaddW (f : Fields) : Statement (.vaddW f) := of_word 0#8 _ rfl (by decide)
theorem vmulW (f : Fields) : Statement (.vmulW f) := of_word 0#8 _ rfl (by decide)
theorem vshuf (f : Fields) : Statement (.vshuf f) := of_word 0#8 _ rfl (by decide)
theorem vbcast (f : Fields) : Statement (.vbcast f) := of_word 0#8 _ rfl (by decide)
theorem vsel (f : Fields) : Statement (.vsel f) := of_word 0#8 _ rfl (by decide)
theorem mmaBf16 (f : Fields) : Statement (.mmaBf16 f) := of_word 0#8 _ rfl (by decide)
theorem mmaBf16D (f : Fields) : Statement (.mmaBf16D f) := of_word 0#8 _ rfl (by decide)
theorem mmaBf16Z (f : Fields) : Statement (.mmaBf16Z f) := of_word 0#8 _ rfl (by decide)
theorem mmaBf16Zd (f : Fields) : Statement (.mmaBf16Zd f) := of_word 0#8 _ rfl (by decide)
theorem mmaE4m3 (f : Fields) : Statement (.mmaE4m3 f) := of_word 0#8 _ rfl (by decide)
theorem mmaE4m3D (f : Fields) : Statement (.mmaE4m3D f) := of_word 0#8 _ rfl (by decide)
theorem mmaE4m3Z (f : Fields) : Statement (.mmaE4m3Z f) := of_word 0#8 _ rfl (by decide)
theorem mmaE4m3Zd (f : Fields) : Statement (.mmaE4m3Zd f) := of_word 0#8 _ rfl (by decide)
theorem mmaE5m2 (f : Fields) : Statement (.mmaE5m2 f) := of_word 0#8 _ rfl (by decide)
theorem mmaE5m2D (f : Fields) : Statement (.mmaE5m2D f) := of_word 0#8 _ rfl (by decide)
theorem mmaE5m2Z (f : Fields) : Statement (.mmaE5m2Z f) := of_word 0#8 _ rfl (by decide)
theorem mmaE5m2Zd (f : Fields) : Statement (.mmaE5m2Zd f) := of_word 0#8 _ rfl (by decide)
theorem mmaMx4 (f : Fields) : Statement (.mmaMx4 f) := of_word 0#8 _ rfl (by decide)
theorem mmaMx4D (f : Fields) : Statement (.mmaMx4D f) := of_word 0#8 _ rfl (by decide)
theorem mmaMx4Z (f : Fields) : Statement (.mmaMx4Z f) := of_word 0#8 _ rfl (by decide)
theorem mmaMx4Zd (f : Fields) : Statement (.mmaMx4Zd f) := of_word 0#8 _ rfl (by decide)
theorem mmaI8 (f : Fields) : Statement (.mmaI8 f) := of_word 0#8 _ rfl (by decide)
theorem mmaI8D (f : Fields) : Statement (.mmaI8D f) := of_word 0#8 _ rfl (by decide)
theorem mmaI8Z (f : Fields) : Statement (.mmaI8Z f) := of_word 0#8 _ rfl (by decide)
theorem mmaI8Zd (f : Fields) : Statement (.mmaI8Zd f) := of_word 0#8 _ rfl (by decide)
theorem mmaT2 (f : Fields) : Statement (.mmaT2 f) := of_word 0#8 _ rfl (by decide)
theorem mmaT2D (f : Fields) : Statement (.mmaT2D f) := of_word 0#8 _ rfl (by decide)
theorem mmaT2Z (f : Fields) : Statement (.mmaT2Z f) := of_word 0#8 _ rfl (by decide)
theorem mmaT2Zd (f : Fields) : Statement (.mmaT2Zd f) := of_word 0#8 _ rfl (by decide)
theorem mmaRowLanding : Statement .mmaRowLanding := of_word 3#8 _ rfl (by decide)
theorem accZero (f : Fields) : Statement (.accZero f) := of_word 0#8 _ rfl (by decide)
theorem accDcy (f : Fields) : Statement (.accDcy f) := of_word 0#8 _ rfl (by decide)
theorem accScl (f : Fields) : Statement (.accScl f) := of_word 0#8 _ rfl (by decide)
theorem accDrn (f : Fields) : Statement (.accDrn f) := of_word 0#8 _ rfl (by decide)
theorem accDrnRowSend : Statement .accDrnRowSend := of_word 3#8 _ rfl (by decide)
theorem accRd (f : Fields) : Statement (.accRd f) := of_word 0#8 _ rfl (by decide)
theorem accPatch (f : Fields) : Statement (.accPatch f) := of_word 0#8 _ rfl (by decide)
theorem accMode (f : Fields) : Statement (.accMode f) := of_word 0#8 _ rfl (by decide)
theorem bhold (f : Fields) : Statement (.bhold f) := of_word 0#8 _ rfl (by decide)
theorem sld (f : Fields) : Statement (.sld f) := of_word 0#8 _ rfl (by decide)
theorem sst (f : Fields) : Statement (.sst f) := of_word 0#8 _ rfl (by decide)
theorem sldg (f : Fields) : Statement (.sldg f) := of_word 0#8 _ rfl (by decide)
theorem sstg (f : Fields) : Statement (.sstg f) := of_word 0#8 _ rfl (by decide)
theorem sgen (f : Fields) : Statement (.sgen f) := of_word 0#8 _ rfl (by decide)
theorem saadd (f : Fields) : Statement (.saadd f) := of_word 0#8 _ rfl (by decide)
theorem samax (f : Fields) : Statement (.samax f) := of_word 0#8 _ rfl (by decide)
theorem scas (f : Fields) : Statement (.scas f) := of_word 0#8 _ rfl (by decide)
theorem sown (f : Fields) : Statement (.sown f) := of_word 0#8 _ rfl (by decide)
theorem sfill (f : Fields) : Statement (.sfill f) := of_word 0#8 _ rfl (by decide)
theorem sbeat (f : Fields) : Statement (.sbeat f) := of_word 0#8 _ rfl (by decide)
theorem seStreamWord : Statement .seStreamWord := of_word 3#8 _ rfl (by decide)
theorem cvtBfF32 (f : Fields) : Statement (.cvtBfF32 f) := of_word 0#8 _ rfl (by decide)
theorem cvtF32Bf (f : Fields) : Statement (.cvtF32Bf f) := of_word 0#8 _ rfl (by decide)
theorem cvtE4F32 (f : Fields) : Statement (.cvtE4F32 f) := of_word 0#8 _ rfl (by decide)
theorem cvtE5F32 (f : Fields) : Statement (.cvtE5F32 f) := of_word 0#8 _ rfl (by decide)
theorem cvtF32E4 (f : Fields) : Statement (.cvtF32E4 f) := of_word 0#8 _ rfl (by decide)
theorem cvtF32E5 (f : Fields) : Statement (.cvtF32E5 f) := of_word 0#8 _ rfl (by decide)
theorem cvtBfE4 (f : Fields) : Statement (.cvtBfE4 f) := of_word 0#8 _ rfl (by decide)
theorem cvtMx4Bf (f : Fields) : Statement (.cvtMx4Bf f) := of_word 0#8 _ rfl (by decide)
theorem cvtBfMx4 (f : Fields) : Statement (.cvtBfMx4 f) := of_word 0#8 _ rfl (by decide)
theorem cvtI8F32 (f : Fields) : Statement (.cvtI8F32 f) := of_word 0#8 _ rfl (by decide)
theorem cvtF32I8 (f : Fields) : Statement (.cvtF32I8 f) := of_word 0#8 _ rfl (by decide)
theorem cvtF32I64 (f : Fields) : Statement (.cvtF32I64 f) := of_word 0#8 _ rfl (by decide)
theorem cvtI64F32 (f : Fields) : Statement (.cvtI64F32 f) := of_word 0#8 _ rfl (by decide)
theorem gld (f : Fields) : Statement (.gld f) := of_word 0#8 _ rfl (by decide)
theorem gldc (f : Fields) : Statement (.gldc f) := of_word 0#8 _ rfl (by decide)
theorem gst (f : Fields) : Statement (.gst f) := of_word 0#8 _ rfl (by decide)
theorem gatom (f : Fields) : Statement (.gatom f) := of_word 0#8 _ rfl (by decide)
theorem gldb (f : Fields) : Statement (.gldb f) := of_word 0#8 _ rfl (by decide)
theorem agen (f : Fields) : Statement (.agen f) := of_word 0#8 _ rfl (by decide)
theorem astr (f : Fields) : Statement (.astr f) := of_word 0#8 _ rfl (by decide)
theorem xfer (f : Fields) : Statement (.xfer f) := of_word 0#8 _ rfl (by decide)
theorem gred (f : Fields) : Statement (.gred f) := of_word 0#8 _ rfl (by decide)
theorem coll (f : Fields) : Statement (.coll f) := of_word 0#8 _ rfl (by decide)
theorem route (f : Fields) : Statement (.route f) := of_word 0#8 _ rfl (by decide)
theorem msnd (f : Fields) : Statement (.msnd f) := of_word 0#8 _ rfl (by decide)
theorem tstat (f : Fields) : Statement (.tstat f) := of_word 0#8 _ rfl (by decide)
theorem mown (f : Fields) : Statement (.mown f) := of_word 0#8 _ rfl (by decide)
theorem leReply : Statement .leReply := of_word 3#8 _ rfl (by decide)
theorem leStreamToken : Statement .leStreamToken := of_word 3#8 _ rfl (by decide)
theorem faultReissue : Statement .faultReissue := of_word 3#8 _ rfl (by decide)
theorem nop (f : Fields) : Statement (.nop f) := of_word 0#8 _ rfl (by decide)
theorem halt (f : Fields) : Statement (.halt f) := of_word 0#8 _ rfl (by decide)
theorem commit (f : Fields) : Statement (.commit f) := of_word 0#8 _ rfl (by decide)
theorem trap (f : Fields) : Statement (.trap f) := of_word 0#8 _ rfl (by decide)
theorem waitc (f : Fields) : Statement (.waitc f) := of_word 0#8 _ rfl (by decide)
theorem time (f : Fields) : Statement (.time f) := of_word 0#8 _ rfl (by decide)
theorem cyc (f : Fields) : Statement (.cyc f) := of_word 0#8 _ rfl (by decide)
theorem id (f : Fields) : Statement (.id f) := of_word 0#8 _ rfl (by decide)
theorem fence (f : Fields) : Statement (.fence f) := of_word 0#8 _ rfl (by decide)
theorem bars (f : Fields) : Statement (.bars f) := of_word 0#8 _ rfl (by decide)
theorem cwset (f : Fields) : Statement (.cwset f) := of_word 0#8 _ rfl (by decide)
theorem watch (f : Fields) : Statement (.watch f) := of_word 0#8 _ rfl (by decide)
theorem cfgw (f : Fields) : Statement (.cfgw f) := of_word 0#8 _ rfl (by decide)
theorem arrv (f : Fields) : Statement (.arrv f) := of_word 0#8 _ rfl (by decide)
theorem evt (f : Fields) : Statement (.evt f) := of_word 0#8 _ rfl (by decide)
theorem elementTrap : Statement .elementTrap := of_word 3#8 _ rfl (by decide)
theorem longResultArrival : Statement .longResultArrival := of_word 3#8 _ rfl (by decide)
theorem tokenArrival : Statement .tokenArrival := of_word 3#8 _ rfl (by decide)
theorem detourSend : Statement .detourSend := of_word 3#8 _ rfl (by decide)
theorem creditReturn : Statement .creditReturn := of_word 3#8 _ rfl (by decide)
theorem rowBusDelivery : Statement .rowBusDelivery := of_word 3#8 _ rfl (by decide)
theorem columnChunkDelivery : Statement .columnChunkDelivery := of_word 3#8 _ rfl (by decide)
theorem columnReaderChunk : Statement .columnReaderChunk := of_word 3#8 _ rfl (by decide)
theorem blockLoad : Statement .blockLoad := of_word 3#8 _ rfl (by decide)
theorem blockIssue : Statement .blockIssue := of_word 3#8 _ rfl (by decide)
theorem blockComplete : Statement .blockComplete := of_word 3#8 _ rfl (by decide)
theorem groupCommit : Statement .groupCommit := of_word 3#8 _ rfl (by decide)
theorem spillCommit : Statement .spillCommit := of_word 3#8 _ rfl (by decide)
theorem cfgMissTimeout : Statement .cfgMissTimeout := of_word 3#8 _ rfl (by decide)
theorem admitWindow : Statement .admitWindow := of_word 3#8 _ rfl (by decide)
theorem contextSwitch : Statement .contextSwitch := of_word 3#8 _ rfl (by decide)
theorem eviction : Statement .eviction := of_word 3#8 _ rfl (by decide)
theorem restore : Statement .restore := of_word 3#8 _ rfl (by decide)
theorem run (n : NodeFields) : Statement (.run n) := of_word 1#8 _ rfl (by decide)
theorem runs (n : NodeFields) : Statement (.runs n) := of_word 1#8 _ rfl (by decide)
theorem lgen (n : NodeFields) : Statement (.lgen n) := of_word 1#8 _ rfl (by decide)
theorem lend (n : NodeFields) : Statement (.lend n) := of_word 1#8 _ rfl (by decide)
theorem cond (n : NodeFields) : Statement (.cond n) := of_word 1#8 _ rfl (by decide)
theorem whileN (n : NodeFields) : Statement (.whileN n) := of_word 1#8 _ rfl (by decide)
theorem jmp (n : NodeFields) : Statement (.jmp n) := of_word 1#8 _ rfl (by decide)
theorem callg (n : NodeFields) : Statement (.callg n) := of_word 1#8 _ rfl (by decide)
theorem retg (n : NodeFields) : Statement (.retg n) := of_word 1#8 _ rfl (by decide)
theorem fork (n : NodeFields) : Statement (.fork n) := of_word 1#8 _ rfl (by decide)
theorem join (n : NodeFields) : Statement (.join n) := of_word 1#8 _ rfl (by decide)
theorem bar (n : NodeFields) : Statement (.bar n) := of_word 1#8 _ rfl (by decide)
theorem waitt (n : NodeFields) : Statement (.waitt n) := of_word 1#8 _ rfl (by decide)
theorem place (n : NodeFields) : Statement (.place n) := of_word 1#8 _ rfl (by decide)
theorem yieldg (n : NodeFields) : Statement (.yieldg n) := of_word 1#8 _ rfl (by decide)
theorem trapg (n : NodeFields) : Statement (.trapg n) := of_word 1#8 _ rfl (by decide)
theorem haltg (n : NodeFields) : Statement (.haltg n) := of_word 1#8 _ rfl (by decide)
theorem evw (n : NodeFields) : Statement (.evw n) := of_word 1#8 _ rfl (by decide)
theorem capq (n : NodeFields) : Statement (.capq n) := of_word 1#8 _ rfl (by decide)
theorem taskRun : Statement .taskRun := of_word 3#8 _ rfl (by decide)
theorem stealProbe : Statement .stealProbe := of_word 3#8 _ rfl (by decide)
theorem joinDecrement : Statement .joinDecrement := of_word 3#8 _ rfl (by decide)
theorem boundTokenApply : Statement .boundTokenApply := of_word 3#8 _ rfl (by decide)
theorem tdef (q : SeqFields) : Statement (.tdef q) := of_word 2#8 _ rfl (by decide)
theorem tset (q : SeqFields) : Statement (.tset q) := of_word 2#8 _ rfl (by decide)
theorem mode (q : SeqFields) : Statement (.mode q) := of_word 2#8 _ rfl (by decide)
theorem rot (q : SeqFields) : Statement (.rot q) := of_word 2#8 _ rfl (by decide)
theorem strm (q : SeqFields) : Statement (.strm q) := of_word 2#8 _ rfl (by decide)
theorem acpt (q : SeqFields) : Statement (.acpt q) := of_word 2#8 _ rfl (by decide)
theorem pred (q : SeqFields) : Statement (.pred q) := of_word 2#8 _ rfl (by decide)
theorem tcmp (q : SeqFields) : Statement (.tcmp q) := of_word 2#8 _ rfl (by decide)
theorem arrvSet (q : SeqFields) : Statement (.arrvSet q) := of_word 2#8 _ rfl (by decide)
theorem waita (q : SeqFields) : Statement (.waita q) := of_word 2#8 _ rfl (by decide)
theorem waits (q : SeqFields) : Statement (.waits q) := of_word 2#8 _ rfl (by decide)
theorem own (q : SeqFields) : Statement (.own q) := of_word 2#8 _ rfl (by decide)
theorem drng (q : SeqFields) : Statement (.drng q) := of_word 2#8 _ rfl (by decide)
theorem sigw (q : SeqFields) : Statement (.sigw q) := of_word 2#8 _ rfl (by decide)
theorem seqXfer (q : SeqFields) : Statement (.seqXfer q) := of_word 2#8 _ rfl (by decide)
theorem seqJmp (q : SeqFields) : Statement (.seqJmp q) := of_word 2#8 _ rfl (by decide)
theorem loop (q : SeqFields) : Statement (.loop q) := of_word 2#8 _ rfl (by decide)
theorem seqHalt (q : SeqFields) : Statement (.seqHalt q) := of_word 2#8 _ rfl (by decide)
theorem strmBeat : Statement .strmBeat := of_word 3#8 _ rfl (by decide)
theorem tileWriteArrival : Statement .tileWriteArrival := of_word 3#8 _ rfl (by decide)
theorem predComplete : Statement .predComplete := of_word 3#8 _ rfl (by decide)
theorem tcmpComplete : Statement .tcmpComplete := of_word 3#8 _ rfl (by decide)
theorem verifyComplete : Statement .verifyComplete := of_word 3#8 _ rfl (by decide)
theorem verdictApply : Statement .verdictApply := of_word 3#8 _ rfl (by decide)
theorem barrierComplete : Statement .barrierComplete := of_word 3#8 _ rfl (by decide)
theorem transferCommand : Statement .transferCommand := of_word 3#8 _ rfl (by decide)
theorem gatherReduceCommand : Statement .gatherReduceCommand := of_word 3#8 _ rfl (by decide)
theorem routingCommand : Statement .routingCommand := of_word 3#8 _ rfl (by decide)
theorem collectiveCommand : Statement .collectiveCommand := of_word 3#8 _ rfl (by decide)
theorem engineCompletion : Statement .engineCompletion := of_word 3#8 _ rfl (by decide)
theorem curatorPlace : Statement .curatorPlace := of_word 3#8 _ rfl (by decide)
theorem translationFill : Statement .translationFill := of_word 3#8 _ rfl (by decide)
theorem frameMove : Statement .frameMove := of_word 3#8 _ rfl (by decide)
theorem hostSend : Statement .hostSend := of_word 3#8 _ rfl (by decide)
theorem launch : Statement .launch := of_word 3#8 _ rfl (by decide)
theorem cancel : Statement .cancel := of_word 3#8 _ rfl (by decide)
theorem setpri : Statement .setpri := of_word 3#8 _ rfl (by decide)
theorem bound : Statement .bound := of_word 3#8 _ rfl (by decide)
theorem unknownCommand : Statement .unknownCommand := of_word 3#8 _ rfl (by decide)
theorem reservedChannelMessage : Statement .reservedChannelMessage := of_word 3#8 _ rfl (by decide)
theorem serviceMessage : Statement .serviceMessage := of_word 3#8 _ rfl (by decide)
theorem queuePlacement : Statement .queuePlacement := of_word 3#8 _ rfl (by decide)
theorem teamComplete : Statement .teamComplete := of_word 3#8 _ rfl (by decide)
theorem resume : Statement .resume := of_word 3#8 _ rfl (by decide)
theorem freeze : Statement .freeze := of_word 3#8 _ rfl (by decide)
theorem teardown : Statement .teardown := of_word 3#8 _ rfl (by decide)
theorem vopen : Statement .vopen := of_word 3#8 _ rfl (by decide)
theorem vclose : Statement .vclose := of_word 3#8 _ rfl (by decide)
theorem lease : Statement .lease := of_word 3#8 _ rfl (by decide)
theorem resolve : Statement .resolve := of_word 3#8 _ rfl (by decide)
theorem deadlockProbe : Statement .deadlockProbe := of_word 3#8 _ rfl (by decide)
theorem probeArrival : Statement .probeArrival := of_word 3#8 _ rfl (by decide)
theorem hangFreeze : Statement .hangFreeze := of_word 3#8 _ rfl (by decide)
theorem uncorrectableError : Statement .uncorrectableError := of_word 3#8 _ rfl (by decide)
theorem correctedError : Statement .correctedError := of_word 3#8 _ rfl (by decide)
theorem scoreDecay : Statement .scoreDecay := of_word 3#8 _ rfl (by decide)
theorem conservatorWithdraw : Statement .conservatorWithdraw := of_word 3#8 _ rfl (by decide)
theorem testComplete : Statement .testComplete := of_word 3#8 _ rfl (by decide)
theorem thermalSample : Statement .thermalSample := of_word 3#8 _ rfl (by decide)
theorem referenceLoss : Statement .referenceLoss := of_word 3#8 _ rfl (by decide)
theorem migwaitExpiry : Statement .migwaitExpiry := of_word 3#8 _ rfl (by decide)
theorem migration : Statement .migration := of_word 3#8 _ rfl (by decide)
theorem powerInterval : Statement .powerInterval := of_word 3#8 _ rfl (by decide)
theorem rlsUpdate : Statement .rlsUpdate := of_word 3#8 _ rfl (by decide)
theorem pbudgetWrite : Statement .pbudgetWrite := of_word 3#8 _ rfl (by decide)
theorem powerOn : Statement .powerOn := of_word 3#8 _ rfl (by decide)
theorem rdmaWrite : Statement .rdmaWrite := of_word 3#8 _ rfl (by decide)
theorem rdmaRead : Statement .rdmaRead := of_word 3#8 _ rfl (by decide)
theorem refusedRequest : Statement .refusedRequest := of_word 3#8 _ rfl (by decide)
theorem windowDescriptorWrite : Statement .windowDescriptorWrite := of_word 3#8 _ rfl (by decide)
theorem registerWrite : Statement .registerWrite := of_word 3#8 _ rfl (by decide)
theorem extend : Statement .extend := of_word 3#8 _ rfl (by decide)
theorem nonceWrite : Statement .nonceWrite := of_word 3#8 _ rfl (by decide)
theorem attreq : Statement .attreq := of_word 3#8 _ rfl (by decide)
theorem reportComplete : Statement .reportComplete := of_word 3#8 _ rfl (by decide)
theorem hostMessageSend : Statement .hostMessageSend := of_word 3#8 _ rfl (by decide)
theorem flitReceive : Statement .flitReceive := of_word 3#8 _ rfl (by decide)
theorem retryResend : Statement .retryResend := of_word 3#8 _ rfl (by decide)
theorem packetStart : Statement .packetStart := of_word 3#8 _ rfl (by decide)
theorem escapeTimeout : Statement .escapeTimeout := of_word 3#8 _ rfl (by decide)
theorem auditSend : Statement .auditSend := of_word 3#8 _ rfl (by decide)
theorem auditCheck : Statement .auditCheck := of_word 3#8 _ rfl (by decide)
theorem laneFailure : Statement .laneFailure := of_word 3#8 _ rfl (by decide)
theorem portStateFlit : Statement .portStateFlit := of_word 3#8 _ rfl (by decide)
theorem podBarrierArrival : Statement .podBarrierArrival := of_word 3#8 _ rfl (by decide)
theorem podBarrierRelease : Statement .podBarrierRelease := of_word 3#8 _ rfl (by decide)
theorem timeSync : Statement .timeSync := of_word 3#8 _ rfl (by decide)
theorem loadRequest : Statement .loadRequest := of_word 3#8 _ rfl (by decide)
theorem linkUp : Statement .linkUp := of_word 3#8 _ rfl (by decide)

end Sys2Proof.Laws.StepClass
end

