-- ==== Sys2Proof/Tests/Slice0.lean ====
section
/-! SUPPORT. Tests: words that the spec writes out, ill-formed terms that WellFormed refuses, single steps, and for each
statement of Obligations states and operands that meet its hypotheses (`witness_<statement>`). -/

namespace Sys2Proof.Tests

set_option Elab.async false

open Sys2Proof Sys2Proof.Machine

/-! ### Words that the spec writes out -/

/-- An element word's fields: PV, PM, QA, TA, DST, SA, SB, DQA, DQB, PU, PN, PRI, TOUT. -/
def word (pv pm : BitVec 8) (qa : BitVec 2) (ta : BitVec 3) (dst sa sb : BitVec 5) (dqa dqb : Bool) (pu pn : BitVec 3) : Fields :=
  ⟨pv, pm, qa, ta, 0#2, 0#3, dst, sa, sb, dqa, dqb, pu, pn, 0#2, 0#3, false⟩

/-- The word of chapter 1's encoding of an add: PRI 1 and TOUT 001. -/
theorem test_word_add : decodeSlot 0x0103100070C84CA6#64 =
    .ok (.add { word 1#8 3#8 0#2 2#3 24#5 12#5 16#5 true false 3#3 1#3 with pri := 1#2, tout := 1#3 }) := rfl
/-- The matrix slot after R62. -/
theorem test_word_mma : decodeSlot 0x0000502446DA4042#64 =
    .ok (.mmaBf16D { word 0#8 0#8 1#2 2#3 3#5 13#5 20#5 true false 0#3 0#3 with pri := 2#2 }) := rfl
/-- The guarded slot after R62. -/
theorem test_word_sel : decodeSlot 0x000070100A110582#64 =
    .ok (.sel (word 0#8 0#8 1#2 6#3 5#5 1#5 2#5 false false 1#3 3#3)) := rfl
/-- R74: STEP. -/
theorem test_word_step : decodeSlot 0x0002000A00085082#64 =
    .ok (.step (word 0#8 2#8 0#2 0#3 0#5 0#5 16#5 true false 4#3 1#3)) := rfl
/-- The slot of chapter 4's row-bus example (after R82): BUSR. -/
theorem test_word_busr : decodeSlot 0x0000081178C8C002#64 =
    .ok (.busr (word 0#8 0#8 0#2 1#3 28#5 12#5 17#5 true false 0#3 0#3)) := rfl
/-- The accumulating slot after R96: FMA. -/
theorem test_word_fma : decodeSlot 0x00001298C6C6E002#64 =
    .ok (.fma { word 0#8 0#8 0#2 2#3 3#5 12#5 13#5 true true 0#3 0#3 with qb := 1#2, tb := 2#3 }) := rfl
/-- R112: ACC.PATCH. -/
theorem test_word_acc_patch : decodeSlot 0x0000902B4CE8C002#64 =
    .ok (.accPatch (word 0#8 0#8 2#2 2#3 6#5 14#5 17#5 true false 0#3 0#3)) := rfl
/-- The drain of chapter 6: ACC.DRN. -/
theorem test_word_acc_drn : decodeSlot 0x0203002AC18A0402#64 =
    .ok (.accDrn (word 2#8 3#8 0#2 0#3 0#5 24#5 20#5 false false 1#3 0#3)) := rfl
/-- R118: SAADD. -/
theorem test_word_saadd : decodeSlot 0x0000482D48D84502#64 =
    .ok (.saadd (word 0#8 0#8 1#2 1#3 4#5 13#5 16#5 true false 1#3 2#3)) := rfl
/-- Chapter 7's MX4 example: the gather and the second emit of CVT.MX4.BF. -/
theorem test_word_cvt : decodeSlot 0x00000831F8C04002#64 =
    .ok (.cvtMx4Bf (word 0#8 0#8 0#2 1#3 28#5 12#5 0#5 true false 0#3 0#3)) ∧
    decodeSlot 0x01030031F1440482#64 =
    .ok (.cvtMx4Bf (word 1#8 3#8 0#2 0#3 24#5 20#5 8#5 false false 1#3 1#3)) := ⟨rfl, rfl⟩
/-- R155: GST. -/
theorem test_word_gst : decodeSlot 0x00005034B8C6E402#64 =
    .ok (.gst (word 0#8 0#8 1#2 2#3 28#5 12#5 13#5 true true 1#3 0#3)) := rfl
/-- The slot after R333: ROUTE. -/
theorem test_word_route : decodeSlot 0x02020036B9088002#64 =
    .ok (.route (word 2#8 2#8 0#2 0#3 28#5 16#5 17#5 false false 0#3 0#3)) := rfl
/-- R232: WAITC; the slot of chapter 19's watched box: WATCH; the slot of chapter 20's deadlock: MOV. -/
theorem test_word_common : decodeSlot 0x01010039390A0802#64 =
    .ok (.waitc (word 1#8 1#8 0#2 0#3 28#5 16#5 20#5 false false 2#3 0#3)) ∧
    decodeSlot 0x0001003AF9088402#64 = .ok (.watch (word 0#8 1#8 0#2 0#3 28#5 16#5 17#5 false false 1#3 0#3)) ∧
    decodeSlot 0x01010000310A0802#64 = .ok (.mov (word 1#8 1#8 0#2 0#3 24#5 16#5 20#5 false false 2#3 0#3)) := ⟨rfl, rfl, rfl⟩
/-- R197: LGEN and LEND; chapter 15's cascade: RUNS; R350: CAPQ; chapter 10: LGEN with BCH. -/
theorem test_word_nodes : decodeNode 0x0C05024000100000#64 = .ok (.lgen ⟨5#10, 9#10, 0#6, 0x100000#32⟩) ∧
    decodeNode 0x1004000000000000#64 = .ok (.lend ⟨4#10, 0#10, 0#6, 0#32⟩) ∧
    decodeNode 0x0802000000000007#64 = .ok (.runs ⟨2#10, 0#10, 0#6, 7#32⟩) ∧
    decodeNode 0x4C0A000000300090#64 = .ok (.capq ⟨10#10, 0#10, 0#6, 0x300090#32⟩) ∧
    decodeNode 0x0C01010100000000#64 = .ok (.lgen ⟨1#10, 4#10, 1#6, 0#32⟩) := ⟨rfl, rfl, rfl, rfl, rfl⟩
/-- The words of the fill of chapter 11: TDEF, ACPT, WAITA and SIGW. -/
theorem test_word_sequencer : decodeSeq 0x0420012000006100#64 = .ok (.tdef ⟨2#6, 0#6, 1#6, 0x2000006100#40⟩) ∧
    decodeSeq 0x1820030000000100#64 = .ok (.acpt ⟨2#6, 0#6, 3#6, 0x100#40⟩) ∧
    decodeSeq 0x2800010000000001#64 = .ok (.waita ⟨0#6, 0#6, 1#6, 1#40⟩) ∧
    decodeSeq 0x3820000000000006#64 = .ok (.sigw ⟨2#6, 0#6, 0#6, 6#40⟩) := ⟨rfl, rfl, rfl, rfl⟩
/-- R54, R176, R209: codes that are in no table. -/
theorem test_word_refused : decodeSlot 0x0000000A40000002#64 = .error (.illegalOpc 0x29#8) ∧ decodeSlot 0x0000000A40000000#64 = .error .emptySlot ∧
    decodeNode 0#64 = .error (.badKind 0#6) ∧ decodeNode 0x5000000000000000#64 = .error (.badKind 20#6) ∧
    decodeSeq 0x4C00000000000000#64 = .error (.badOp 19#6) := ⟨rfl, rfl, rfl, rfl, rfl⟩

/-! ### WellFormed refuses -/

/-- Every word of the spec's examples above is well formed. -/
theorem test_wf_accepts : ∀ i ∈ [Instr.sel (word 0#8 0#8 1#2 6#3 5#5 1#5 2#5 false false 1#3 3#3),
    .mmaBf16D (word 0#8 0#8 1#2 2#3 3#5 13#5 20#5 true false 0#3 0#3), .waitc (word 1#8 1#8 0#2 0#3 28#5 16#5 20#5 false false 2#3 0#3),
    .lgen ⟨5#10, 9#10, 0#6, 0x100000#32⟩, .tdef ⟨2#6, 0#6, 1#6, 0x2000006100#40⟩], i.wf = true := by decide
/-- ILLEGAL_OPND: DST 12 of ADD, SB not 20 of MOV, a bank above 7, DST of an unused field. -/
theorem test_wf_operand : ∀ i ∈ [Instr.add (word 0#8 0#8 0#2 0#3 12#5 0#5 1#5 false false 0#3 0#3),
    .mov (word 0#8 0#8 0#2 0#3 0#5 0#5 1#5 false false 0#3 0#3), .accZero (word 0#8 0#8 0#2 0#3 8#5 20#5 20#5 false false 0#3 0#3),
    .drop (word 0#8 0#8 0#2 0#3 0#5 12#5 20#5 true false 0#3 0#3), .sld (word 0#8 0#8 0#2 0#3 0#5 24#5 20#5 false false 0#3 0#3)],
    i.wf = false := by decide
/-- ILLEGAL_PU: PN without PU, a guarded SEL with PU 011, a last-test without a queue, an MMA with PU 011. -/
theorem test_wf_pu : ∀ i ∈ [Instr.mov (word 0#8 0#8 0#2 0#3 0#5 0#5 20#5 false false 0#3 1#3),
    .sel (word 0#8 0#8 0#2 0#3 0#5 0#5 1#5 false false 3#3 1#3), .mov (word 0#8 0#8 0#2 0#3 0#5 0#5 20#5 false false 6#3 1#3),
    .mmaBf16 (word 0#8 0#8 0#2 0#3 0#5 12#5 20#5 true false 3#3 0#3)], i.wf = false := by decide
/-- ILLEGAL_TOUT: with a register, code 6, 100 without a queue, with TAGW. -/
theorem test_wf_tout : ∀ i ∈ [Instr.mov { word 0#8 0#8 0#2 0#3 0#5 0#5 20#5 false false 0#3 0#3 with tout := 1#3 },
    .mov { word 0#8 0#8 0#2 0#3 24#5 0#5 20#5 false false 0#3 0#3 with tout := 6#3 },
    .mov { word 0#8 0#8 0#2 0#3 24#5 0#5 20#5 false false 0#3 0#3 with tout := 4#3 },
    .tagw { word 0#8 0#8 0#2 0#3 24#5 0#5 1#5 false false 0#3 0#3 with tout := 1#3 }], i.wf = false := by decide
/-- ILLEGAL_DQ: on a constant, DROP without it; ILLEGAL_TAG: a queue without a test; X without a tag test, X on an ME. -/
theorem test_wf_rest : ∀ i ∈ [Instr.mov (word 0#8 0#8 0#2 0#3 0#5 16#5 20#5 true false 0#3 0#3),
    .drop (word 0#8 0#8 0#2 0#3 28#5 12#5 20#5 false false 0#3 0#3), .mov (word 0#8 0#8 1#2 0#3 0#5 0#5 20#5 false false 0#3 0#3),
    .mov { word 0#8 0#8 0#2 0#3 0#5 0#5 20#5 false false 0#3 0#3 with x := true },
    .mmaBf16 { word 0#8 0#8 0#2 1#3 0#5 12#5 20#5 true false 0#3 0#3 with x := true }], i.wf = false := by decide
/-- COMMIT stands only on the block's commit element, and an opcode only on its kind (R54, R144). -/
theorem test_wf_place : ((slotFail .pe false ((encode (.commit (word 0#8 0#8 0#2 0#3 28#5 20#5 20#5 false false 0#3 0#3))).extractLsb' 0 64)).map
    (·.reason)) = some 1 ∧ ((slotFail .me true ((encode (.add (word 0#8 0#8 0#2 0#3 0#5 0#5 1#5 false false 0#3 0#3))).extractLsb' 0 64)).map
    (·.reason)) = some 1 := by decide
/-- Nodes (R176): reserved bits, a scope above 5, an illegal scope, a NEXT past the graph, an unregistered block. -/
theorem test_wf_nodes : (∀ i ∈ [Instr.run ⟨0#10, 1#10, 0#6, 7#32⟩, .bar ⟨0#10, 0#10, 0#6, 6#32⟩, .bar ⟨0#10, 0#10, 0#6, 1#32⟩,
    .jmp ⟨0#10, 0#10, 0#6, 1#32⟩, .haltg ⟨1#10, 0#10, 0#6, 0#32⟩, .waitt ⟨0#10, 0#10, 0#6, 0x1800000#32⟩], i.wf = false) ∧
    nodeFail 4 [7] 0x0804000000000007#64 = some 0x12 ∧ nodeFail 4 [6] 0x0802000000000007#64 = some 0x12 ∧
    nodeFail 4 [7] 0x0802000000000007#64 = none := by decide
/-- Sequencer words (R209): reserved fields, RET 3, a jump past the program, a negative tolerance. -/
theorem test_wf_sequencer : (∀ i ∈ [Instr.seqHalt ⟨1#6, 0#6, 0#6, 0#40⟩, .tdef ⟨0#6, 0#6, 3#6, 0#40⟩, .rot ⟨0#6, 0#6, 0#6, 0x1000#40⟩,
    .tcmp ⟨0#6, 0#6, 0#6, 0x8000#40⟩, .seqJmp ⟨0#6, 0#6, 0#6, 0x100#40⟩], i.wf = false) ∧ seqFail 3 0x4000000000000003#64 = some 0x12 := by decide

/-! ### States for element operations -/

/-- A team of one quad in fixed timing that may read and write the first 64 KiB of flat memory. -/
def lab : State := State.reset.withTeam.modTeam 0 fun t =>
  { t with leases := [⟨0, [0], [65536], true, true⟩], launch := { t.launch with ft := true } }

/-- An element of the kind on which an opcode stands. -/
def kindPos (opc : Nat) : Nat :=
  if opc < 0x90 then 9 else if opc < 0xB0 then 16 else if opc < 0xC0 then 0 else if opc < 0xD0 then 11 else if opc < 0xE0 then 4 else 9

/-- A slot's fields by its shape: destination d11 or d2, sources d0 and d1, queue in0, port o0, bank 0. -/
def fieldsFor (sh : Shape) : Fields :=
  word 0#8 0#8 0#2 0#3
    (match sh.d with | .none => 28#5 | .result => 11#5 | .accum => 2#5 | .port => 24#5 | _ => 0#5)
    (match sh.a with | .none => 20#5 | .source => 0#5 | .queue => 12#5 | _ => 24#5)
    (match sh.b with | .none => 20#5 | .source => 1#5 | _ => 20#5) (sh.a == .queue) false 0#3 0#3

abbrev Slot := (Fields → Instr) × Op

def fieldsOf (x : Slot) : Fields := fieldsFor ((shapeOf x.2.opc).getD .sa)

/-- What d0 and d1 hold: counter 24 for EVT, element 9 for CFGW, row 0 of column 0 for BUSC. -/
def argA (opc : Nat) : W64 := if opc = 0xEE then 24#64 else 0#64
def argB (opc : Nat) : W64 := if opc = 0x46 then 0x100#64 else if opc = 0xEC then 9#64 else 0#64

def labElem (x : Slot) (f : Fields) (a : W64) : Elem :=
  (((elemFor ((encode (x.1 f)).extractLsb' 0 64)).setReg 11 Reg.empty).setReg 0 ⟨a, .i64, false, true, false⟩).setReg 1
    ⟨argB x.2.opc, .i64, false, true, false⟩

def labMe (int : Bool) : ME :=
  { ME.init with
    cur := some ⟨0#512, 0#32, false, 0xF#4, none⟩
    holders := Vector.replicate 4 (0#32, 4)
    banks := Vector.replicate 8 { Bank.init with int := int } }

def labGen (armed : Bool) : LGen := { LGen.init with mode := if armed then .store else .idle }

/-- The slot on an issued element of its kind: registers full but d11, two tokens in each queue, ports routed, a chunk in the ME,
generators loaded, and a core changed by `g`. -/
def slotStateWith (x : Slot) (f : Fields) (p : Nat) (a : W64) (g : CoreCtx → CoreCtx) : State :=
  { lab.modCore (0, 0) (fun c =>
      g { c with
        elems := [(p, labElem x f a)]
        runs := [runFor p]
        mes := [(16, labMe (decide (0xA0 ≤ x.2.opc)))]
        ses := [(0, { SE.init with gens := Vector.replicate 4 ⟨0, 1#12, 4, 0, false, 0, false, true⟩ })]
        ces := [(11, { CE.init with mb := if x.2.opc = 0xC7 ∧ f.dst ≠ 28#5 then List.replicate 32 0#16 else [] })]
        les := [(4, { LE.init with gens := Vector.replicate 4 (labGen (decide (x.2.opc = 0xD6))) })] }) with
    here := ⟨0, 0, p, 0, if kindAt p = .me then 1 else 0⟩ }

def slotState (x : Slot) : State := slotStateWith x (fieldsOf x) (kindPos x.2.opc) (argA x.2.opc) id

/-- The slot stands ready on an element of its kind, with room in the commit buffer: what every statement of a fire asks. -/
def Stands (x : Slot) : Prop :=
  ∃ f s c e, Claims.At s c e ∧ kindAt s.here.pos = kindAt (kindPos x.2.opc) ∧ Claims.HasRoom x.2 f s c e ∧
    slotStatus x.2 f s s.site = .ready

/-- The two conditions of `slotState` that a kernel computation decides. -/
def standsNow (x : Slot) : Bool :=
  decide (slotStatus x.2 (fieldsOf x) (slotState x) (slotState x).site = .ready) && (slotState x).canTake (slotState x).key
    (x.2.entries (lookAt x.2 (fieldsOf x) (slotState x) (slotState x).site (((slotState x).core? (0, 0)).getD CoreCtx.init)
      (((((slotState x).core? (0, 0)).getD CoreCtx.init).elem? (kindPos x.2.opc)).getD Elem.init)))

theorem stands (x : Slot) (h : standsNow x = true) : Stands x := by
  simp only [standsNow, Bool.and_eq_true, decide_eq_true_eq] at h
  have he : (((slotState x).core? (0, 0)).getD CoreCtx.init).elem? (kindPos x.2.opc) = some (labElem x (fieldsOf x) (argA x.2.opc)) := by
    show Assoc.get? [(kindPos x.2.opc, _)] (kindPos x.2.opc) = _
    simp [Assoc.get?]
  rw [he] at h
  exact ⟨fieldsOf x, slotState x, ((slotState x).core? (0, 0)).getD CoreCtx.init, labElem x (fieldsOf x) (argA x.2.opc), ⟨rfl, he⟩, rfl,
    Or.inr h.2, h.1⟩

theorem stands_all (l : List Slot) (h : l.all standsNow = true) : ∀ x ∈ l, Stands x := fun x hx =>
  stands x (List.all_eq_true.mp h x hx)

/-- Every element operation but TRAP, which never fires (R145), stands ready somewhere. -/
theorem every_operation_stands : ∀ x ∈ Claims.slots.filter (fun x => x.2.opc != 0xE3), Stands x := stands_all _ (by decide +kernel)

/-! ### Witnesses: element operations -/

/-- Statements that ask for a ready slot of each of a list of operations, or of the operation that they name. -/
theorem witness_OneCycleResultsAreGiven :
    ∀ x ∈ (Claims.arithmetic ++ Claims.fieldsAndCompares ++ Claims.streams).map (fun x => (x.1, x.2.1)), Stands x := stands_all _ (by decide)
theorem witness_ProductsAndQuotientsGive : ∀ x ∈ Claims.productsAndQuotients.map (fun x => x.2), Stands (x.1, x.2.1) := by
  intro x hx
  exact stands_all (Claims.productsAndQuotients.map fun x => (x.2.1, x.2.2.1)) (by decide) (x.1, x.2.1)
    (by simp only [List.mem_map] at hx ⊢; obtain ⟨y, hy, rfl⟩ := hx; exact ⟨y, hy, rfl⟩)
theorem witness_AbsAndNegateFollowR90 : Stands (.fabs, fabsOp) ∧ Stands (.fneg, fnegOp) := ⟨stands _ (by decide), stands _ (by decide)⟩
theorem witness_FloatOpsGive : ∀ x ∈ Claims.floats.map (fun x => (x.2.1, x.2.2.1)), Stands x := stands_all _ (by decide)
theorem witness_VectorOpsGive : ∀ x ∈ Claims.vectorsLater.map (fun x => (x.2.1, x.2.2.1)) ++ Claims.vectorsNow.map (fun x => (x.1, x.2.1)),
    Stands x := stands_all _ (by decide)

theorem witness_FloatAndVectorOpsGive : ∀ x ∈ Claims.floats.map (fun x => (x.2.1, x.2.2.1)) ++
    Claims.vectorsLater.map (fun x => (x.2.1, x.2.2.1)) ++ Claims.vectorsNow.map (fun x => (x.1, x.2.1)), Stands x := stands_all _ (by decide)

/-- 2.0 in FP32. -/
theorem stands_two : Claims.Stands (fp32.decode 0x40000000) false 2 := ⟨0x800000, -22, by decide +kernel, by norm_num⟩

theorem witness_NumbersRoundOnce :
    (∃ code < 16, ∃ neg x, Claims.Stands (e2m1.decode code) neg x ∧ x ≠ 0) ∧
    (∃ m draw : ℕ, m ≠ 0 ∧ draw < 65536) ∧
    (∃ (ops : List FVal) (ts : List Claims.Term), (∀ o ∈ ops, ∀ s, o ≠ .nan s) ∧ (ts.map Claims.Term.real).sum ≠ 0) ∧
    (∃ (ops : List FVal) (ts : List Claims.Term), (∀ o ∈ ops, ∀ s, o ≠ .nan s) ∧ (ts.map Claims.Term.real).sum = 0 ∧ ts ≠ []) ∧
    (∃ ops : List FVal, ∃ s, FVal.nan s ∈ ops) ∧
    (∃ (ops : List FVal) (ts : List (Option FVal)), (∀ s, FVal.nan s ∉ ops) ∧ none ∈ ts) ∧
    (∃ (ops : List FVal) (ts : List (Option FVal)), (∀ s, FVal.nan s ∉ ops) ∧ some (.inf true) ∈ ts ∧ some (.inf false) ∈ ts) ∧
    (∃ (c : Claims.Term) (ps : List (Claims.Term × Claims.Term)), c.real + (ps.map fun p => p.1.real * p.2.real).sum ≠ 0) ∧
    (∃ (c : Claims.Term) (ps : List (Claims.Term × Claims.Term)), c.real + (ps.map fun p => p.1.real * p.2.real).sum = 0 ∧ c.real ≠ 0) ∧
    (∃ as bs : List FVal, ∃ s, FVal.nan s ∈ as ++ bs) ∧
    (∃ b x, b < 2 ^ 32 ∧ Claims.Stands (fp32.decode b) false x ∧ x ≠ 0) ∧
    (∃ b neg, ∃ k : ℤ, b < 2 ^ 32 ∧ Claims.Stands (fp32.decode b) neg k ∧ -149 ≤ k ∧ k ≤ 127) ∧
    (∃ b, ∃ k : ℤ, b < 2 ^ 32 ∧ Claims.Stands (fp32.decode b) false ((2 : ℚ) ^ k)) := by
  refine ⟨⟨2, by decide, false, 1, ⟨2, -1, by decide +kernel, by norm_num⟩, by norm_num⟩, ⟨1, 65535, by decide, by decide⟩,
    ⟨[], [(false, 1, 0)], by simp, by norm_num [Claims.Term.real]⟩,
    ⟨[], [(false, 1, 0), (true, 1, 0)], by simp, by norm_num [Claims.Term.real], by simp⟩, ⟨[.nan true], true, by simp⟩,
    ⟨[], [none], by simp, by simp⟩, ⟨[], [some (.inf true), some (.inf false)], by simp, by simp, by simp⟩,
    ⟨(false, 1, 0), [], by norm_num [Claims.Term.real]⟩,
    ⟨(false, 1, 0), [((true, 1, 0), (false, 1, 0))], by norm_num [Claims.Term.real], by norm_num [Claims.Term.real]⟩,
    ⟨[.nan false], [], false, by simp⟩, ⟨0x40000000, 2, by decide, stands_two, by norm_num⟩,
    ⟨0x40000000, false, 2, by decide, by exact_mod_cast stands_two, by norm_num, by norm_num⟩,
    ⟨0x40000000, 1, by decide, by simpa using stands_two⟩⟩

/-! ### Witnesses: states for the rest -/

/-- The laboratory with its core changed, at a place. -/
def coreState (g : CoreCtx → CoreCtx) (h : Here) : State := { lab.modCore (0, 0) g with here := h }

/-- A speculative run of element p. -/
def specRunFor (p : Nat) : Run := { runFor p with spec := true }

theorem trap_mem : ((.trap, trapOp) : Slot) ∈ Claims.slots :=
  List.mem_flatten.mpr ⟨_, List.mem_of_getElem? (i := 13) rfl, List.mem_of_getElem? (i := 1) rfl⟩
/-- An issued element whose queues hold two tokens and whose ports reach element 1. -/
def anElem : Elem := labElem (.nop, nopOp) (fieldsOf (.nop, nopOp)) 0#64

/-- A place in the core. -/
def place (pos idx val : Nat) : Here := ⟨0, 0, pos, idx, val⟩

/-- A request of LE 4 for a byte of flat memory. -/
def aReq : LReq := ⟨0, .load, 0, 0, 0, [0], 8, 24, false, .data, 0, 0, 0#64, 0, 0, [], false, [], 0, .waiting, 0, false⟩

/-- A defined STORE tile of one row with a kept version, as tensor 0xF0000. -/
def aTile : Tile := { Tile.init with defd := true, state := .ready, ret := 1, rowb := 0, version := 1#32 }

def withTile (s : State) (t : Tile) : State := s.modMcore (0, 0) fun m => { m with tiles := [(0, t)] }

/-- A tensor of HBM with one resident frame. -/
def hbmDesc : Desc := ⟨5, 1, 5, true, true, false, 0, [64], [6], 0, 1⟩
def withHbm (s : State) : State :=
  (s.modTeam 0 fun t => { t with descs := [hbmDesc], frames := [((5, 0), 3)], leases := ⟨5, [0], [63], true, true⟩ :: t.leases }).modPhys 0
    fun p => { p with xlat := [(0, 5, 0)] }

def leState (r : List LReq) (h : Here) : State :=
  coreState (fun c => { c with elems := [(4, anElem), (1, anElem)], les := [(4, { LE.init with reqs := r })], runs := [runFor 4] }) h

theorem none_before (r : LReq) (P : LReq → Prop) : ∀ q ∈ [r].takeWhile (fun q => q.id != r.id), P q := by simp


/-- An image of one variant that holds element 9 alone, with empty slots, and a quad that has cached it. -/
def aBlock (nspec : Nat) : List W64 :=
  [BitVec.ofNat 64 (17 + nspec * 2 ^ 22), 0#64, 0#64, 0#64, 0#64, 0#64, 0#64, 0#64, 0#64,
    BitVec.ofNat 64 (9 * 2 ^ 48 + 2 ^ 32 + 2 ^ 7 + 2 ^ 4),
    0#64, BitVec.ofNat 64 (9 * 2 ^ 44), 0#64, 0#64, 0#64, 0#64, 0#64, 0#64]

/-- A pending entry of block 5, which the configuration cache holds. -/
def issueState (nspec : Nat) : State :=
  ((lab.modCore (0, 0) fun c => { c with walker := { c.walker with pend := [⟨0, 0, 5, 0, false, 0⟩] } }).modTeam 0
    fun t => { t with blocks := [(5, aBlock nspec)] }).modPhys 0 fun p => { p with cache := [⟨0, 5, 18, none, 0⟩] }

/-- The laboratory's walker at node 3. -/
def walkState (g : Walker → Walker) : State := coreState (fun c => { c with walker := g { c.walker with pos := some 3 } }) (place 0 0 0)

/-- A second core of the team, whose deque holds a task. -/
def addCore (s : State) : State :=
  { s with cores := s.cores.put (0, 1) { CoreCtx.init with resident := true, walker := { Walker.init with deque := [⟨2, 0#32, 7, 1⟩] } } }

def nf (flags : BitVec 6) (payload : W32) : NodeFields := ⟨1#10, 2#10, flags, payload⟩

/-- A defined and READY tile of two retained versions, one row of 128 bytes. -/
def rTile : Tile := { Tile.init with defd := true, state := .ready, ret := 2, rowb := 1, fmt := .f32x2, version := 2#32 }

/-- The laboratory's memory core with its sequencer running, tile 0 a STORE tile and tile 1 another. -/
def seqState (t : Tile) (g : MCoreCtx → MCoreCtx) : State :=
  { lab.modMcore (0, 0) (fun m => g { m with
      stopped := false, wsize := 4096, tiles := [(0, t), (1, { rTile with base := 64 })], prog := [0#64, 0#64] }) with here := place 0 0 0 }

/-- A word with fields that meet `H` at a running sequencer: what a statement of a sequencer word asks. -/
def WordCase (H : SeqFields → State → MCoreCtx → Prop) : Prop := ∃ q s m, Claims.Sequencing s m ∧ H q s m

def sf (pf : BitVec 6) (opnd : BitVec 40) : SeqFields := ⟨0#6, 1#6, pf, opnd⟩

/-- A command of an engine, and the laboratory with it at the head of unit 0's queue. -/
def aCmd (engine : Nat) (record : List W64) : Cmd := ⟨0, engine, 0, 0, record, 0, 0, 0, none, none, false, 0, 0, 0, none⟩

def someDescs : List Desc :=
  [⟨1, 2, 2, true, true, false, 0, [1, 1], [6], 0, 1⟩, ⟨2, 2, 5, true, true, false, 0, [1, 1], [6], 0, 1⟩,
    ⟨3, 3, 6, true, true, false, 0, [1, 1, 1], [6], 0, 1⟩, ⟨4, 2, 5, true, true, false, 0, [1, 1], [6], 0, 1⟩,
    ⟨5, 1, 3, true, true, false, 0, [1], [6], 0, 1⟩, ⟨6, 1, 0, true, true, false, 0, [1], [6], 0, 1⟩, ⟨7, 1, 4, true, true, false, 0, [1], [6], 0, 1⟩]

def engState (engine : Nat) (c : Cmd) : State :=
  { (lab.modTeam 0 fun t => { t with
      descs := someDescs
      frames := (List.range 8).map fun n => ((n, 0), n)
      leases := t.leases ++ [⟨1, [0, 0], [1, 1], true, true⟩, ⟨2, [0, 0], [1, 1], true, true⟩, ⟨3, [0, 0, 0], [1, 1, 1], true, true⟩,
        ⟨4, [0, 0], [1, 1], true, true⟩, ⟨5, [0], [1], true, true⟩, ⟨6, [0], [1], true, true⟩, ⟨7, [0], [1], true, true⟩] }) with
    engines := [((engine, 0), [c])], here := place engine 0 0
    fabric := { lab.fabric with groups := [(0, ⟨true, 2, 0, 1⟩)] } }

def gredRecord : List W64 := [2#64, BitVec.ofNat 64 (1 + 2 * 2 ^ 20 + 3 * 2 ^ 40), 4#64, 0#64, 0#64, 0#64, 0#64, 0#64]
def gredStream : List W64 := [BitVec.ofNat 64 (2 + 2 ^ 11), BitVec.ofNat 64 (1 + 2 * 2 ^ 20 + 3 * 2 ^ 40), 0#64, 0#64, 0#64, 0#64, 0#64, 0#64]
def routeRecord : List W64 := [3#64, BitVec.ofNat 64 (2 + 2 ^ 20 + 4 * 2 ^ 40), BitVec.ofNat 64 (5 + 6 * 2 ^ 20),
  BitVec.ofNat 64 (1 + 2 ^ 32), 1#64, 0#64, 0#64, 0#64]
def collRecord : List W64 := [4#64, 0#64, 64#64, 0#64, 128#64, 0#64, 0#64, 0#64]
def copyRecord (src dst : Nat) : List W64 :=
  [1#64, BitVec.ofNat 64 src, 0#64, BitVec.ofNat 64 (dst % 2 ^ 32 * 2 ^ 32), BitVec.ofNat 64 (dst / 2 ^ 32), 0#64, 0#64, 0#64]

/-- A package whose dispatcher holds a message. -/
def dispState (s : State) (m : Msg) : State := { s with disp := { s.disp with inbox := [m] }, here := place 0 0 0 }
def aMsg (chan : Nat) (toks : List W64) : Msg := ⟨.host 3, chan, toks⟩

/-- A command on team 0. -/
def comState (op : Nat) (g : Team → Team) : State := dispState (lab.modTeam 0 g) (aMsg 0 [BitVec.ofNat 64 op])

/-- A launch image at byte 4096: a graph of one HALTG node, no blocks, no tensors, no programs. -/
def anImage : Memory := [(4096, 2#8), (4120, 64#8), (4136, 80#8), (4160, 1#8), (4175, 0x44#8)]
def launchWords (w0 : Nat) : List W64 :=
  [BitVec.ofNat 64 (1 + w0 + 2 ^ 40), 4096#64, BitVec.ofNat 64 (1 + 2 ^ 30), BitVec.ofNat 64 (20 * 2 ^ 32 + 24 * 2 ^ 40), 0#64, 16#64, 0#64, 0#64]
def aLaunch : LaunchRec := launchRec (launchWords 0)
def launchState : State := dispState { State.reset with flat := anImage } (aMsg 0 (launchWords 0))
def waitState (l : LaunchRec) : State := { launchState with disp := { launchState.disp with inbox := [], waiting := [⟨l, none, .host 3, 0⟩], arrivals := 1 } }

def imageOf (s : State) (l : LaunchRec) : Team := match s.imageTeam l with | .inr t => t | .inl _ => Team.init
def residentOf (s : State) (l : LaunchRec) : State :=
  (({ s with
    teams := s.teams.put 0 (imageOf s l)
    disp := { s.disp with waiting := s.disp.waiting.map fun w => if w.arrival = 0 then { w with ctx := some 0 } else w } } :
    State).makeResident 0 (imageOf s l).leases).getD s
def teamOf (s : State) : Team := (s.team? 0).getD Team.init

theorem starts (s : State) (l : LaunchRec) (h0 : s.imageTeam l = .inr (imageOf s l)) (h1 : s.team? 0 = none)
    (h2 : (imageOf s l).leases.length ≤ 256)
    (h3 : ({ s with
      teams := s.teams.put 0 (imageOf s l)
      disp := { s.disp with waiting := s.disp.waiting.map fun w => if w.arrival = 0 then { w with ctx := some 0 } else w } } :
      State).makeResident 0 (imageOf s l).leases = some (residentOf s l))
    (h4 : l.quads ≤ (residentOf s l).quadsInService) (h5 : ((imageOf s l).blocks.map fun b => 8 * b.2.length).sum ≤ Config.blockImageLimit)
    (h6 : (residentOf s l).team? 0 = some (teamOf (residentOf s l)))
    (h7 : (residentOf s l).findQuads 0 (teamOf (residentOf s l)) Config.quads l.quads 0 = [0]) (h8 : l.quads = 1) :
    Claims.Starts s l 0 (imageOf s l) 0 (residentOf s l) (teamOf (residentOf s l)) [0] :=
  ⟨h0, ⟨h1, by decide, fun c h => absurd h (Nat.not_lt_zero c)⟩, h2, h3, ⟨h4, h5⟩, h6, ⟨h7, h8.symm⟩⟩

/-- Two elements that wait for tokens of one another. -/
def waitElem (to' : Nat) (edge : Nat) : Elem :=
  { labElem (.mov, movOp) (word 0#8 0#8 0#2 0#3 11#5 12#5 20#5 true false 0#3 0#3) 0#64 with
    queues := Vector.replicate 4 [], ports := Vector.replicate 4 ⟨[⟨to', 0, 1, 4⟩], none⟩, blocked := 4097, edge := edge }
def loopState (h : Here) : State :=
  coreState (fun c => { c with
    elems := [(9, waitElem 10 (Edge.code ⟨0, 10, false, 0⟩)), (10, waitElem 9 (Edge.code ⟨0, 9, false, 0⟩))]
    runs := [{ runFor 9 with elems := [9, 10] }] }) h

/-- Team 0 with its second core, both in the foreground. -/
def twoCores (g : Team → Team) : State :=
  { (addCore lab).modTeam 0 g with
    phys := [(0, { PhysCore.init with res := [0], fg := some 0 }), (1, { PhysCore.init with res := [0], fg := some 0 })], here := place 0 0 0 }

/-- A debugger's command on team 0, which has the records `rs`, and its core 0. -/
def debugState (op : Nat) (rs : List OpenRec) (g : CoreCtx → CoreCtx) : State :=
  comState op (fun t => { t with launch := { t.launch with ft := false }, recs := rs }) |>.modCore (0, 0) g
def aRec (src code : Nat) : OpenRec := ⟨0, src, 0, 9, 0, 3, code⟩

/-- A host's request at a package whose first stages have started. -/
def hostState (r : HostReq) : State :=
  { lab with host := { lab.host with reqs := [r] }, mgmt := { lab.mgmt with stage := 1, ready := true } }
def writeState (off : Nat) : State := hostState (.write 1 off (wordBytes 5#64))
def windowState (r : HostReq) : State :=
  { hostState r with mgmt := { lab.mgmt with stage := 1, ready := true, windows := [(63, ⟨true, true, 0, 0, 0, 4096⟩)] } }
def outState (h : Here) (out : List (Nat × Option Nat × List W64)) (q : Vector W64 4) : State :=
  { lab with here := h, host := { lab.host with out := out }, mgmt := { lab.mgmt with hq0 := q } }

/-- A resource of a kind under its test lease, with a score. -/
def testState (k : ResKind) (score : Nat) (h : Here) : State :=
  { State.reset with here := h, health := { State.reset.health with res := [((k, h.idx), ⟨score, 0, true, true, false, 0, 0⟩)] } }

/-- Power that weighs nothing, with this static power. -/
def powerState (static : Rat) (p : Power → Power) : State :=
  { lab with phys := [], power := p { lab.power with weights := [], static := static } }
def hotState (p : Power → Power) : State := powerState 10000000000000000 p
def coolState (p : Power → Power) : State := powerState 0 p
def migState (cap : Bool) : State :=
  { (lab.modTeam 0 fun t => { t with launch := { t.launch with ft := false, cap := cap, wsize := 16 }, migrations := [⟨0, 1, false, [0, 1], 0⟩] }) with
    here := place 0 0 0 }

/-- A die with a resource in service has one that is next in line. -/
theorem nextTest_some (s : State) (die : Nat) (h : (s.res .core (die * perDie .core + 0)).inService = true) :
    ∃ k n, s.nextTest die = some (k, n) := by
  have keep : ∀ (l : List (ResKind × Nat)) (b : Option (List Nat × ResKind × Nat)),
      (b.isSome = true ∨ (ResKind.core, die * perDie .core + 0) ∈ l) →
      (l.foldl (fun (best : Option (List Nat × ResKind × Nat)) (x : ResKind × Nat) =>
        if (s.res x.1 x.2).inService = false ∨ s.stuckHalf x.1 x.2 = true then best
        else
          let r := s.testRank x.1 x.2
          match best with
          | none => some (r, x)
          | some b => if lexLt r b.1 then some (r, x) else best) b).isSome = true := by
    intro l
    induction l with
    | nil => rintro b (hb | hb)
             · exact hb
             · cases hb
    | cons x l ih =>
      intro b hb
      rw [List.foldl_cons]
      apply ih
      rcases hb with hb | hb
      · left
        split
        · exact hb
        · cases b with
          | none => rfl
          | some b => simp only []; split <;> rfl
      · rcases List.mem_cons.mp hb with rfl | hb
        · left
          have hs : s.stuckHalf .core (die * perDie .core + 0) = false := rfl
          rw [h, hs]
          cases b with
          | none => rfl
          | some b => simp only [Bool.true_eq_false, Bool.false_eq_true, or_self, if_false]; split <;> rfl
        · exact Or.inr hb
  have := keep (Sys2Proof.Machine.allKinds.flatMap fun k => (List.range (perDie k)).map fun i => (k, die * perDie k + i)) none
    (Or.inr (List.mem_flatMap.mpr ⟨.core, by decide, List.mem_map.mpr ⟨0, List.mem_range.mpr (by decide), rfl⟩⟩))
  obtain ⟨y, hy⟩ := Option.isSome_iff_exists.mp this
  refine ⟨y.2.1, y.2.2, ?_⟩
  unfold State.nextTest
  exact (congrArg (Option.map fun z : List Nat × ResKind × Nat => z.2) hy)

/-- A package with a port that is up, and with a route to package 7 through it. -/
def upPort : FPort := { FPort.init with en := true, lanes := 8, counts := Vector.replicate 8 64 }
def linkState (h : Here) (x : FPort) (wire : List (BitVec 640)) (out : List Packet) : State :=
  { lab with here := h, fabric := { lab.fabric with
      ports := [(0, x), (1, upPort)], routes := [(7, ⟨0, true, 0, false⟩), (8, ⟨0, true, 1, true⟩)], wireIn := wire.map fun b => (0, b), out := out
      groups := [(5, ⟨true, 2, 0, 7⟩), (6, ⟨true, 1, 0, 0⟩)] } }
def aFlit (pos : Nat) (idle : Bool) (rcnt seq : Nat) : Flit := ⟨3, pos, false, seq, 0, 7, 9, idle, 3, rcnt, 0, 1#512⟩
def aPacket (dpkg waited : Nat) : Packet := ⟨3, some 0, dpkg, 0, [1#512], waited, none⟩
def podState (val : Nat) (tag sent : Nat) : State :=
  let s := linkState ⟨0, 7, 0, 0, val⟩ upPort [] []
  s.modTeam 0 fun t => { t with launch := { t.launch with tag := tag }, bars := [⟨5, (0, 0), 3, 0, [], [(0, none), (1, none)], sent != 0⟩] }

/-- A bus turn of a column write, ahead of everything else. -/
def busState : State :=
  let s := slotState (.busr, busrOp)
  { s.modCore (0, 0) fun c => { c with busChosen := [⟨9, 0, [0]⟩] } with turns := [.bus 0 0 9 0] }

/-- A flit whose CRC is known reads back. -/
theorem goodFlit (f : Flit) (n : Nat) (b : BitVec 640) (hc : flitCrc f.header f.payload = n)
    (hb : BitVec.ofNat 640 (f.header + n * 2 ^ 96 + f.payload.toNat * 2 ^ 128) = b)
    (h1 : field b 0 96 = f.header ∧ b.extractLsb' 128 512 = f.payload ∧ field b 96 32 = n ∧ field b 59 5 = 0 ∧ field b 84 12 = 0)
    (h2 : (⟨field b 0 3, field b 3 2, b.getLsbD 5, field b 6 12, field b 18 12, field b 30 14, field b 44 14, b.getLsbD 58,
      field b 64 3, field b 67 5, field b 72 12, b.extractLsb' 128 512⟩ : Flit) = f) : Flit.ofBits f.toBits = (f, true) := by
  have : f.toBits = b := by unfold Flit.toBits; rw [hc]; exact hb
  rw [this]
  simp only [Flit.ofBits]
  rw [h2, h1.1, h1.2.1, h1.2.2.1, h1.2.2.2.1, h1.2.2.2.2, hc]
  simp

theorem range_eight : List.range 8 = [0, 1, 2, 3, 4, 5, 6, 7] := rfl

set_option maxRecDepth 100000 in
theorem crc_whole : flitCrc (aFlit 0 false 0 0).header 1#512 = 1418563789 := by
  have h : leBytes 12 (aFlit 0 false 0 0).header ++ leBytes 64 (1#512).toNat =
    [3#8, 0#8, 0#8, 192#8, 1#8, 144#8, 0#8, 0#8, 3#8, 0#8, 0#8, 0#8, 1#8] ++ List.replicate 63 0#8 := by decide +kernel
  unfold flitCrc crc32
  rw [h]
  simp [crcByte, crcBit, range_eight, List.replicate]
theorem good_whole : Flit.ofBits (aFlit 0 false 0 0).toBits = (aFlit 0 false 0 0, true) :=
  goodFlit (aFlit 0 false 0 0) _ _ crc_whole rfl (by decide +kernel) (by decide +kernel)

set_option maxRecDepth 100000 in
theorem crc_first : flitCrc (aFlit 1 false 0 0).header 1#512 = 4257090747 := by
  have h : leBytes 12 (aFlit 1 false 0 0).header ++ leBytes 64 (1#512).toNat =
    [11#8, 0#8, 0#8, 192#8, 1#8, 144#8, 0#8, 0#8, 3#8, 0#8, 0#8, 0#8, 1#8] ++ List.replicate 63 0#8 := by decide +kernel
  unfold flitCrc crc32
  rw [h]
  simp [crcByte, crcBit, range_eight, List.replicate]
theorem good_first : Flit.ofBits (aFlit 1 false 0 0).toBits = (aFlit 1 false 0 0, true) :=
  goodFlit (aFlit 1 false 0 0) _ _ crc_first rfl (by decide +kernel) (by decide +kernel)

set_option maxRecDepth 100000 in
theorem crc_idle : flitCrc (aFlit 0 true 1 0).header 1#512 = 695509037 := by
  have h : leBytes 12 (aFlit 0 true 1 0).header ++ leBytes 64 (1#512).toNat =
    [3#8, 0#8, 0#8, 192#8, 1#8, 144#8, 0#8, 4#8, 11#8, 0#8, 0#8, 0#8, 1#8] ++ List.replicate 63 0#8 := by decide +kernel
  unfold flitCrc crc32
  rw [h]
  simp [crcByte, crcBit, range_eight, List.replicate]
theorem good_idle : Flit.ofBits (aFlit 0 true 1 0).toBits = (aFlit 0 true 1 0, true) :=
  goodFlit (aFlit 0 true 1 0) _ _ crc_idle rfl (by decide +kernel) (by decide +kernel)

set_option maxRecDepth 100000 in
theorem bad_zero : Flit.ofBits 0#640 = ((Flit.ofBits 0#640).1, false) := by
  have h : leBytes 12 (field 0#640 0 96) ++ leBytes 64 ((0#640).extractLsb' 128 512).toNat = List.replicate 76 0#8 := by decide +kernel
  have : flitCrc (field 0#640 0 96) ((0#640).extractLsb' 128 512) ≠ 0 := by
    unfold flitCrc crc32
    rw [h]
    simp [crcByte, crcBit, range_eight, List.replicate]
  have h0 : field 0#640 96 32 = 0 := by decide +kernel
  refine Prod.ext rfl ?_
  simp only [Flit.ofBits, h0]
  rw [show (0 == flitCrc (field 0#640 0 96) ((0#640).extractLsb' 128 512)) = false from by simpa using fun h => this h.symm]
  rfl

theorem witness_ReadyExactlyWhenR21 : (∃ x ∈ Claims.plainOps, ∃ (sh : Shape) (f : Fields) (s : State) (c : CoreCtx) (e : Elem), shapeOf x.2.opc = some sh ∧ Claims.At s c e ∧ kindAt s.here.pos = .pe ∧ (f.dst.toNat ≤ 11 ∨ 24 ≤ f.dst.toNat)) :=
  ⟨(.mov, movOp), List.mem_of_getElem? (i := 0) rfl, _, fieldsOf (.mov, movOp), slotState (.mov, movOp), _, _, rfl, ⟨rfl, rfl⟩, rfl, Or.inl (by decide +kernel)⟩

theorem witness_PureFireChangesNothingElse : ∀ x ∈ Claims.pureOps, Stands x :=
  stands_all _ (by decide +kernel)

theorem witness_PredicatesFollowR26 :
    (∀ x ∈ (Claims.arithmetic ++ Claims.fieldsAndCompares ++ Claims.streams.drop 1 ++ Claims.vectorsNow ++ [((.drop, dropOp, Claims.dropped) : (Fields → Instr) × Op × (Fields → Elem → Ins → Res))]).map (fun x => (x.1, x.2.1)), Stands x) ∧
    (∀ x ∈ (Claims.productsAndQuotients ++ Claims.floats ++ Claims.vectorsLater).map (fun x => (x.2.1, x.2.2.1)), Stands x) := by
  refine ⟨?_, ?_⟩
  · exact stands_all _ (by decide +kernel)
  · exact stands_all _ (by decide +kernel)

theorem witness_SlotsWaitOrTrap :
    ((∃ x ∈ Claims.slots, ∃ f s c e, Claims.At s c e ∧ slotStatus x.2 f s s.site = .wait)) ∧
    ((∃ x ∈ Claims.slots, ∃ f s c e y tm p, Claims.At s c e ∧ slotStatus x.2 f s s.site = .trap y ∧ c.specRun e.run = false ∧ s.team? s.here.ctx = some tm ∧ tm.freePos (s.here.core / 2) = some p ∧ s.flat.wf = true)) := by
  refine ⟨?_, ?_⟩
  · exact ⟨(.mov, movOp), List.mem_of_getElem? (i := 0) rfl, word 1#8 1#8 0#2 0#3 11#5 0#5 20#5 false false 0#3 0#3, slotState (.mov, movOp), _, _, ⟨rfl, rfl⟩, by decide +kernel⟩
  · exact ⟨(.trap, trapOp), trap_mem, fieldsOf (.trap, trapOp), slotState (.trap, trapOp), _, _, ⟨9, 0#64, 0#64⟩, _, 0, ⟨rfl, rfl⟩, by decide +kernel, by decide +kernel, rfl, by decide +kernel, by decide +kernel⟩

theorem witness_TrapRaisesTrapInsn : (∃ (f : _) (s : State) (c : _) (e : _) (y : _) (tm : Team) (p : _), (Claims.At s c e) ∧ (slotStatus trapOp f s s.site = .trap y) ∧ (y.code = 0x09) ∧ (c.specRun e.run = false) ∧ (s.team? s.here.ctx = some tm) ∧ (tm.freePos (s.here.core / 2) = some p) ∧ (s.flat.wf = true)) :=
  ⟨fieldsOf (.trap, trapOp), slotState (.trap, trapOp), _, _, ⟨9, 0#64, 0#64⟩, _, 0, ⟨rfl, rfl⟩, by decide +kernel, by decide +kernel, by decide +kernel, rfl, by decide +kernel, by decide +kernel⟩

theorem witness_SpeculativeTrapsAreHeld : (∃ x ∈ Claims.slots, (∃ (f : _) (s : State) (c : _) (e : _) (y : _), (Claims.At s c e) ∧ (slotStatus x.2 f s s.site = .trap y) ∧ (c.specRun e.run = true) ∧ ((1 ≤ y.code ∧ y.code ≤ 7) ∨ y.code = 9))) :=
  ⟨(.trap, trapOp), trap_mem, fieldsOf (.trap, trapOp),
  slotStateWith (.trap, trapOp) (fieldsOf (.trap, trapOp)) 9 0#64 (fun c => { c with runs := [specRunFor 9] }), _, _, ⟨9, 0#64, 0#64⟩, ⟨rfl, rfl⟩, by decide +kernel, by decide +kernel, by decide +kernel⟩

theorem witness_RowBusWrites : Stands (.busr, busrOp) :=
  stands _ (by decide +kernel)

theorem witness_ColumnBusWrites : Stands (.busc, buscOp) :=
  stands _ (by decide +kernel)

theorem witness_RowFiresLeave : ∀ x ∈ Claims.rowFires, Stands (x.1, mmaOp x.2) ∧ ∃ t0 t1 rest, (labElem (x.1, mmaOp x.2) (fieldsOf (x.1, mmaOp x.2)) 0#64).queue 0 = t0 :: t1 :: rest ∧ ((labMe (decide (0xA0 ≤ x.2))).cur).isSome = true :=
  by
  intro x hx
  refine ⟨stands_all (Claims.rowFires.map fun x => (x.1, mmaOp x.2)) (by decide +kernel) _ (List.mem_map.mpr ⟨x, hx, rfl⟩), ?_⟩
  revert x
  have : ∀ x ∈ Claims.rowFires, (labElem (x.1, mmaOp x.2) (fieldsOf (x.1, mmaOp x.2)) 0#64).queue 0 =
    [⟨0#64, .raw, .data, false⟩, ⟨0#64, .raw, .data, false⟩] := by decide +kernel
  exact fun x hx => ⟨_, _, _, this x hx, rfl⟩

theorem witness_RowFiresLand : (∃ (s : State) (c : CoreCtx) (m : MmaLand) (r g : Nat) (pre post : List Flight), (s.core? s.key = some c) ∧ (c.flights = pre ++ ⟨0, r, g, .mma m⟩ :: post) ∧ ((∀ x ∈ pre, x.left = 0 → ∀ y, x.cargo ≠ .mma y)) ∧ (m.slice < 4) ∧ (m.bank < 8) ∧ (0x90 ≤ m.opc ∧ m.opc ≤ 0xA7)) :=
  ⟨coreState (fun c => { c with flights := [⟨0, 0, 0, .mma ⟨16, 3, 7, 0xA7, 0#128, 0#512, 0#32, 0, false⟩⟩] }) (place 16 0 0), _, _, _, _, [], [],
  rfl, rfl, by simp, by decide, by decide, by decide⟩

theorem witness_BankOperations :
    (Stands (.accZero, accZeroOp)) ∧
    (Stands (.accDcy, accDcyOp)) ∧
    (Stands (.accMode, accModeOp)) ∧
    (Stands (.accPatch, accPatchOp)) ∧
    (Stands (.accScl, accSclOp)) := by
  refine ⟨?_, ?_, ?_, ?_, ?_⟩
  · exact stands _ (by decide +kernel)
  · exact stands _ (by decide +kernel)
  · exact stands _ (by decide +kernel)
  · exact stands _ (by decide +kernel)
  · exact stands _ (by decide +kernel)

theorem witness_DrainsSendTheirRows :
    ((∃ (f : _) (s : State) (c : CoreCtx) (e : _), (Claims.At s c e) ∧ (kindAt s.here.pos = .me) ∧ (f.dst.toNat < 8) ∧ ((f.sa.toNat = 24 ∨ f.sa.toNat = 26) ∨ (f.sb.toNat = 21 ∧ (f.sa.toNat = 25 ∨ f.sa.toNat = 27))) ∧ (slotStatus accDrnOp f s s.site = .ready))) ∧
    ((∃ (s : State) (c : CoreCtx) (e : _) (d : _), (Claims.At s c e) ∧ ((c.me s.here.pos).drains.find? (fun x => x.bank == s.here.idx) = some d) ∧ (d.port < 3 ∨ (d.bf16 = true ∧ d.port = 3)) ∧ (let ts := Claims.rowTokens d ((c.me s.here.pos).bank d.bank)
    (Claims.PortsFree e ts)))) := by
  refine ⟨?_, ?_⟩
  · exact ⟨fieldsOf (.accDrn, accDrnOp), slotState (.accDrn, accDrnOp), _, _, ⟨rfl, rfl⟩, rfl, by decide, by decide, by decide +kernel⟩
  · exact ⟨coreState (fun c => { c with elems := [(16, anElem)], mes := [(16, { ME.init with drains := [⟨0, 1, 0, false⟩] })] }) (place 16 0 0), _, _, _,
      ⟨rfl, rfl⟩, rfl, by decide, by unfold Claims.PortsFree; decide +kernel⟩

theorem witness_BankReadAndHold :
    ((∃ (f : _) (s : State) (c : CoreCtx) (e : _), (Claims.At s c e) ∧ (kindAt s.here.pos = .me) ∧ (f.dst.toNat < 8) ∧ (24 ≤ f.sa.toNat ∧ f.sa.toNat ≤ 27) ∧ (slotStatus accRdOp f s s.site = .ready))) ∧
    (Stands (.bhold, bholdOp)) := by
  refine ⟨?_, ?_⟩
  · exact ⟨fieldsOf (.accRd, accRdOp), slotState (.accRd, accRdOp), _, _, ⟨rfl, rfl⟩, rfl, by decide, by decide, by decide +kernel⟩
  · exact stands _ (by decide +kernel)

theorem witness_ScratchpadLoads :
    (Stands (.sld, sldOp)) ∧
    (Stands (.sldg, sldgOp)) := by
  refine ⟨?_, ?_⟩
  · exact stands _ (by decide +kernel)
  · exact stands _ (by decide +kernel)

theorem witness_ScratchpadStores :
    (Stands (.sst, sstOp)) ∧
    (Stands (.sstg, sstgOp)) ∧
    (Stands (.saadd, saaddOp)) ∧
    (Stands (.samax, samaxOp)) ∧
    (Stands (.scas, scasOp)) ∧
    (Stands (.sfill, sfillOp)) := by
  refine ⟨?_, ?_, ?_, ?_, ?_, ?_⟩
  · exact stands _ (by decide +kernel)
  · exact stands _ (by decide +kernel)
  · exact stands _ (by decide +kernel)
  · exact stands _ (by decide +kernel)
  · exact stands _ (by decide +kernel)
  · exact stands _ (by decide +kernel)

theorem witness_ScratchpadControl :
    (Stands (.sgen, sgenOp)) ∧
    (Stands (.sbeat, sbeatOp)) ∧
    (Stands (.sown, sownOp)) := by
  refine ⟨?_, ?_, ?_⟩
  · exact stands _ (by decide +kernel)
  · exact stands _ (by decide +kernel)
  · exact stands _ (by decide +kernel)

theorem witness_ScratchpadStreams :
    ((∃ (s : State) (c : CoreCtx) (e : _) (i : _) (w : _) (p : _) (last : _), (Claims.At s c e) ∧ (s.here.val ≠ 0) ∧ (c.frozen = false) ∧ ((c.se s.here.pos).fillLeft = 0) ∧ (((List.range 5).map fun n => ((c.se s.here.pos).ptr + n) % 5).find? (fun n => c.streamReady s.here.pos n) = some i) ∧ ((c.se s.here.pos).nextWord i = some (w, p, last)) ∧ (p < 4))) ∧
    ((∃ (s : State) (c : CoreCtx) (r g pos p w : Nat) (tok : Token) (last : Bool) (h : Hold) (pre post : List Flight), (s.core? s.key = some c) ∧ (s.here.val = 0) ∧ (c.flights = pre ++ ⟨0, r, g, .streamWord pos p w tok last h⟩ :: post) ∧ ((∀ x ∈ pre, x.left = 0 → ∀ a b u v y z, x.cargo ≠ .streamWord a b u v y z)) ∧ (p < 4))) ∧
    (∃ (c : CoreCtx) (e : Elem) (left r g pos p : Nat) (h : Hold), c.elem? pos = some e ∧ p < 4 ∧ c.flights = [⟨left, r, g, .portFree pos p h⟩]) := by
  refine ⟨?_, ?_, ?_⟩
  · exact ⟨coreState (fun c => { c with
        elems := [(0, anElem)]
        ses := [(0, { SE.init with gens := Vector.replicate 4 ⟨0, 1#12, 4, 0, true, 0, true, true⟩ })] }) (place 0 0 1), _, _, 0, 0, 0, false,
      ⟨rfl, rfl⟩, by decide, rfl, rfl, by decide +kernel, by decide +kernel, by decide⟩
  · exact ⟨coreState (fun c => { c with flights := [⟨0, 0, 0, .streamWord 0 3 0 ⟨0#64, .raw, .data, false⟩ true (.gen 0)⟩] }) (place 0 0 0), _, _, _, _, _, _, _, _, _,
      [], [], rfl, rfl, rfl, by simp, by decide⟩
  · exact ⟨{ CoreCtx.init with elems := [(0, anElem)], flights := [⟨0, 0, 0, .portFree 0 3 (.gen 0)⟩] }, _, _, _, _, 0, 3, _, rfl, by decide, rfl⟩

theorem witness_ConversionsNarrowAndWiden :
    (Stands (.cvtBfF32, cvtBfF32Op)) ∧
    (Stands (.cvtE4F32, cvtE4F32Op)) ∧
    (Stands (.cvtE5F32, cvtE5F32Op)) ∧
    (Stands (.cvtI8F32, cvtI8F32Op)) ∧
    (Stands (.cvtF32I64, cvtF32I64Op)) ∧
    (Stands (.cvtF32Bf, cvtF32BfOp)) ∧
    (Stands (.cvtF32E4, cvtF32E4Op)) ∧
    (Stands (.cvtF32E5, cvtF32E5Op)) ∧
    (Stands (.cvtBfE4, cvtBfE4Op)) ∧
    (Stands (.cvtF32I8, cvtF32I8Op)) ∧
    (Stands (.cvtI64F32, cvtI64F32Op)) := by
  refine ⟨?_, ?_, ?_, ?_, ?_, ?_, ?_, ?_, ?_, ?_, ?_⟩
  · exact stands _ (by decide +kernel)
  · exact stands _ (by decide +kernel)
  · exact stands _ (by decide +kernel)
  · exact stands _ (by decide +kernel)
  · exact stands _ (by decide +kernel)
  · exact stands _ (by decide +kernel)
  · exact stands _ (by decide +kernel)
  · exact stands _ (by decide +kernel)
  · exact stands _ (by decide +kernel)
  · exact stands _ (by decide +kernel)
  · exact stands _ (by decide +kernel)

theorem witness_Microscaling :
    (Stands (.cvtMx4Bf, cvtMx4BfOp)) ∧
    (Stands (.cvtBfMx4, cvtBfMx4Op)) := by
  refine ⟨?_, ?_⟩
  · exact stands _ (by decide +kernel)
  · exact stands _ (by decide +kernel)

theorem witness_LoadsBecomeRequests :
    (Stands (.gld, gldOp)) ∧
    (Stands (.gldc, gldcOp)) ∧
    (Stands (.gldb, gldbOp)) ∧
    (Stands (.gld, gldOp)) ∧
    (Stands (.gldc, gldcOp)) ∧
    (Stands (.gldb, gldbOp)) ∧
    (Stands (.tstat, tstatOp)) := by
  refine ⟨?_, ?_, ?_, ?_, ?_, ?_, ?_⟩
  · exact stands _ (by decide +kernel)
  · exact stands _ (by decide +kernel)
  · exact stands _ (by decide +kernel)
  · exact stands _ (by decide +kernel)
  · exact stands _ (by decide +kernel)
  · exact stands _ (by decide +kernel)
  · exact stands _ (by decide +kernel)

theorem witness_RequestsPerformAtMemory :
    ((∃ (s : State) (c : CoreCtx) (r : _) (tn : _) (tm : Team), (Claims.Servable s c r) ∧ (r.kind ≠ .tstat) ∧ (s.here.val = 0) ∧ (s.tensor? s.here.ctx r.tid = some tn) ∧ (s.team? s.here.ctx = some tm) ∧ ((∀ mc slot, tn.loc ≠ .tile mc slot)))) ∧
    ((∃ (s : State) (c : CoreCtx) (r : _) (tn : _) (tm : Team) (mc : _) (slot : _) (b : _) (cur : _), (Claims.Servable s c r) ∧ (r.kind ≠ .tstat) ∧ (s.here.val = 0) ∧ (s.tensor? s.here.ctx r.tid = some tn) ∧ (s.team? s.here.ctx = some tm) ∧ (tn.loc = .tile mc slot) ∧ (s.loadBuf s.key c r mc slot = some (b, cur)))) ∧
    ((∃ (s : State) (c : CoreCtx) (r : _) (m : MCoreCtx), (Claims.Servable s c r) ∧ (r.kind = .tstat) ∧ (s.here.val = 0) ∧ (s.mcore? (s.here.ctx, r.coords.getD 0 0) = some m) ∧ s.awayFor s.key (c.hasEnded r.run r.group) m = false)) := by
  refine ⟨?_, ?_, ?_⟩
  · exact ⟨leState [aReq] (place 4 0 0), _, _, _, _, ⟨rfl, rfl, rfl, none_before _ _⟩, by decide, rfl, rfl, rfl, by simp⟩
  · exact ⟨withTile (leState [{ aReq with tid := 0xF0000, coords := [0, 0] }] (place 4 0 0)) aTile, _, _, ⟨0xF0000, 2, [1, 64], 0, true, true, false, .tile 0 0⟩, _, 0, 0, 0, true,
      ⟨rfl, rfl, rfl, none_before _ _⟩, by decide, rfl, by decide +kernel, rfl, rfl, by decide +kernel⟩
  · exact ⟨leState [{ aReq with kind := .tstat, coords := [0, 0] }] (place 4 0 0), _, _, _, ⟨rfl, rfl, rfl, none_before _ _⟩, rfl, rfl, rfl, by decide +kernel⟩

theorem witness_RepliesAreDelivered :
    (∃ (s : State) (c : CoreCtx) (r : LReq), s.core? s.key = some c ∧ c.frozen = false ∧
      ((c.le s.here.pos).reqs.find? fun q => q.cls == s.here.idx) = some r ∧ r.left = 0 ∧ (r.kind = .sent ∨ r.own = true ∨ c.admits 1 = true) ∧
      ∃ tok rest, r.st = .served (tok :: rest) ∧ r.dst ≤ 11) ∧
    (∃ (s : State) (c : CoreCtx) (r : LReq), s.core? s.key = some c ∧ c.frozen = false ∧
      ((c.le s.here.pos).reqs.find? fun q => q.cls == s.here.idx) = some r ∧ r.left = 0 ∧ (r.kind = .sent ∨ r.own = true ∨ c.admits 1 = true) ∧
      ∃ tok rest, r.st = .served (tok :: rest) ∧ 24 ≤ r.dst ∧ r.dst ≤ 27 ∧
        (r.held = true ∨ ((c.elemD s.here.pos).port (r.dst - 24)).writable = true)) ∧
    (∃ (s : State) (c : CoreCtx) (r : LReq), s.core? s.key = some c ∧ c.frozen = false ∧
      ((c.le s.here.pos).reqs.find? fun q => q.cls == s.here.idx) = some r ∧ r.left = 0 ∧ (r.kind = .sent ∨ r.own = true ∨ c.admits 1 = true) ∧
      ∃ j, r.st = .faulted j false ∧ 24 ≤ r.dst ∧ r.dst ≤ 27 ∧
        (r.held = true ∨ ((c.elemD s.here.pos).port (r.dst - 24)).writable = true)) := by
  refine ⟨?_, ?_, ?_⟩
  · exact ⟨leState [{ aReq with dst := 11, st := .served [⟨0#64, .raw, .data, false⟩] }] (place 4 4 0), _,
      { aReq with dst := 11, st := .served [⟨0#64, .raw, .data, false⟩] }, rfl, rfl, by decide +kernel, rfl, by decide +kernel, _, _, rfl, by decide⟩
  · exact ⟨leState [{ aReq with st := .served [⟨0#64, .raw, .data, false⟩] }] (place 4 0 0), _,
      { aReq with st := .served [⟨0#64, .raw, .data, false⟩] }, rfl, rfl, by decide +kernel, rfl, by decide +kernel, _, _, rfl, by decide, by decide, by decide +kernel⟩
  · exact ⟨leState [{ aReq with st := .faulted 7 false }] (place 4 0 0), _, { aReq with st := .faulted 7 false }, rfl, rfl,
      by decide +kernel, rfl, by decide +kernel, _, rfl, by decide, by decide, by decide +kernel⟩

theorem witness_AtomicsActAtTheirFire : Stands (.gatom, gatomOp) :=
  stands _ (by decide +kernel)

theorem witness_StoresWaitInTheCommitBuffer :
    (Stands (.gst, gstOp)) ∧
    (Stands (.astr, astrOp)) ∧
    (Stands (.msnd, msndOp)) := by
  refine ⟨?_, ?_, ?_⟩
  · exact stands _ (by decide +kernel)
  · exact stands _ (by decide +kernel)
  · exact stands _ (by decide +kernel)

theorem witness_GeneratorsWalkTheirBoxes :
    (Stands (.agen, agenOp)) ∧
    ((∃ (s : State) (c : CoreCtx) (e : _) (tn : _) (cs : _) (n : _), (Claims.At s c e) ∧ (c.frozen = false) ∧ (s.foreground s.key = true) ∧ (e.held = none) ∧ (e.run ≠ none) ∧ (let g := (c.le s.here.pos).gen s.here.idx
    (let L := 64 / ebits tn.efmt
    (let b := (at' e.cfg.lslots g.slot 0x10#9).toNat % 4
    (g.mode = .load) ∧ (s.here.idx < 4) ∧ ((c.le s.here.pos).stopped (24 + g.port) = false) ∧ (s.reqRoom s.key s.here.pos = true) ∧ (s.tensor? s.here.ctx (at' e.cfg.tids b 0) = some tn) ∧ (g.group < g.groups tn.rank L) ∧ (s.genVerdict s.key g (at' e.cfg.tids b 0) .load (e.watches (.gen s.here.idx)) = .ok tn cs n) ∧ (s.xlatHit s.key tn cs n = true)))))) := by
  refine ⟨?_, ?_⟩
  · exact stands _ (by decide +kernel)
  · exact ⟨coreState (fun c => { c with
        elems := [(4, anElem)], runs := [runFor 4]
        les := [(4, { LE.init with gens := Vector.replicate 4 { LGen.init with mode := .load, n := Vector.replicate 5 7 } })] }) (place 4 0 0),
      _, _, ⟨0, 1, [2 ^ 48], 0, true, true, false, .flat⟩, [0], 8, ⟨rfl, rfl⟩, rfl, by decide +kernel, rfl, by decide +kernel, by decide +kernel, by decide, by decide +kernel, by decide +kernel,
      by decide +kernel, by decide +kernel, by decide +kernel, by decide +kernel⟩

theorem witness_EngineCommandsAreQueued :
    (Stands (.xfer, xferOp)) ∧
    (Stands (.gred, gredOp)) ∧
    (Stands (.coll, collOp)) ∧
    (Stands (.route, routeOp)) := by
  refine ⟨?_, ?_, ?_, ?_⟩
  · exact stands _ (by decide +kernel)
  · exact stands _ (by decide +kernel)
  · exact stands _ (by decide +kernel)
  · exact stands _ (by decide +kernel)

theorem witness_OwnerFlipTakesEffect : Stands (.mown, mownOp) :=
  stands _ (by decide +kernel)

theorem witness_ResolvedFaultsAreReissued : (∃ (s : State) (c : CoreCtx) (r : _) (j : _) (rec' : _) (tm : Team) (tn : _) (cs : _) (n : _), (s.core? s.key = some c) ∧ (c.frozen = false) ∧ (((c.le s.here.pos).reqs.filter fun q => q.dst == 24 + s.here.idx) = [r]) ∧ (r.st = .faulted j true) ∧ (s.team? s.here.ctx = some tm) ∧ (tm.faults.get? j = some rec') ∧ (rec'.resolved = true) ∧ (s.reqRoom s.key s.here.pos = true) ∧ (r.kind ≠ .tstat) ∧ (s.check s.here.ctx r.tid .load (fun _ => r.coords) (fun _ => r.lanes) ((c.elemD s.here.pos).watches (.req r.id)) = .ok tn cs n) ∧ (s.xlatHit s.key tn cs n = true)) :=
  ⟨(leState [{ aReq with st := .faulted 0 true }] (place 4 0 0)).modTeam 0 fun t => { t with faults := [(0, ⟨1, 0, true, 0, 0, [0], 0, 4, 0⟩)] }, _,
  { aReq with st := .faulted 0 true }, 0, _, _, ⟨0, 1, [2 ^ 48], 0, true, true, false, .flat⟩, [0], 8, rfl, rfl, by decide +kernel, rfl, rfl, rfl, rfl,
  by decide +kernel, by decide, by decide +kernel, by decide +kernel⟩

theorem witness_TranslationsAreFilled : (∃ (s : State) (tm : Team) (pc : _), (s.team? s.here.ctx = some tm) ∧ (s.physCore? s.key = some pc) ∧ ((tm.frames.get? (s.here.idx, s.here.val)).isSome = true)) :=
  ⟨{ withHbm lab with here := place 4 5 0 }, _, 0, rfl, by decide +kernel, by decide +kernel⟩

theorem witness_OtherPredicatesFollowR26 :
    (∀ x ∈ Claims.testingSa, Stands x) ∧
    (∀ x ∈ Claims.testingLater, Stands x) ∧
    (∀ x ∈ ([(.nop, nopOp), (.halt, haltOp), (.commit, commitOp), (.time, timeOp), (.cyc, cycOp), (.accRd, accRdOp), (.bars, barsOp)] : List Slot),
      Stands x) ∧
    (∃ f s c e tm r, Claims.At s c e ∧ Claims.HasRoom idOp f s c e ∧ slotStatus idOp f s s.site = .ready ∧
      s.team? s.here.ctx = some tm ∧ c.run? e.runId = some r) := by
  refine ⟨stands_all _ (by decide +kernel), stands_all _ (by decide +kernel), stands_all _ (by decide +kernel), ?_⟩
  exact ⟨fieldsOf (.id, idOp), slotState (.id, idOp), _, _, _, _, ⟨rfl, rfl⟩, Or.inr (by decide +kernel), by decide +kernel, rfl, rfl⟩

theorem witness_ElementsHaltCommitAndWait :
    (Stands (.nop, nopOp)) ∧
    (Stands (.halt, haltOp)) ∧
    (Stands (.commit, commitOp)) ∧
    (Stands (.waitc, waitcOp)) := by
  refine ⟨?_, ?_, ?_, ?_⟩
  · exact stands _ (by decide +kernel)
  · exact stands _ (by decide +kernel)
  · exact stands _ (by decide +kernel)
  · exact stands _ (by decide +kernel)

theorem witness_TimeCyclesAndIdentity :
    (Stands (.time, timeOp)) ∧
    (Stands (.cyc, cycOp)) ∧
    (Stands (.id, idOp)) := by
  refine ⟨?_, ?_, ?_⟩
  · exact stands _ (by decide +kernel)
  · exact stands _ (by decide +kernel)
  · exact stands _ (by decide +kernel)

theorem witness_EndpointResultsKeepTheirOrder : (∃ x ∈ ([(.time, timeOp), (.cyc, cycOp), (.id, idOp)] : List ((Fields → Instr) × Op)), (∃ (f : _) (s : State) (c : CoreCtx) (e : _), (Claims.At s c e) ∧ (slotStatus x.2 f s s.site = .ready) ∧ (Claims.onPort f) ∧ (c.behindReqs s.here.pos f.dst.toNat = true))) :=
  ⟨(.time, timeOp), .head _, { fieldsOf (.time, timeOp) with dst := 24#5 },
  slotStateWith (.time, timeOp) { fieldsOf (.time, timeOp) with dst := 24#5 } 4 0#64 (fun c => { c with les := [(4, { LE.init with reqs := [aReq] })] }),
  _, _, ⟨rfl, rfl⟩, by decide +kernel, by unfold Claims.onPort; decide, by decide +kernel⟩

theorem witness_FencesOrderAccesses : Stands (.fence, fenceOp) ∧
    (∃ o ∈ Claims.accesses, ∃ f s c e, Claims.At s c e ∧ slotStatus o f s s.site = .ready ∧ s.site.chosen = false ∧
      (∃ r ∈ (c.le s.here.pos).reqs, r.id ∈ e.fence) ∧ ∃ g, g ∈ e.fenceGens) := by
  refine ⟨stands _ (by decide +kernel), gldOp, List.mem_of_getElem? (i := 0) rfl, fieldsOf (.gld, gldOp),
    slotStateWith (.gld, gldOp) (fieldsOf (.gld, gldOp)) 4 0#64 (fun c => { c with
      elems := [(4, { labElem (.gld, gldOp) (fieldsOf (.gld, gldOp)) 0#64 with fence := [0], fenceGens := [0] })]
      les := [(4, { LE.init with reqs := [{ aReq with st := .served [⟨0#64, .raw, .data, false⟩] }] })] }),
    _, _, ⟨rfl, rfl⟩, by decide +kernel, by decide +kernel, ⟨_, List.mem_singleton.mpr rfl, by decide⟩, 0, by decide⟩

theorem witness_BarriersAreReached : Stands (.bars, barsOp) :=
  stands _ (by decide +kernel)

theorem witness_CommonEffects :
    (Stands (.cwset, cwsetOp)) ∧
    (Stands (.watch, watchOp)) ∧
    (Stands (.cfgw, cfgwOp)) ∧
    (Stands (.arrv, arrvOp)) ∧
    (Stands (.evt, evtOp)) := by
  refine ⟨?_, ?_, ?_, ?_, ?_⟩
  · exact stands _ (by decide +kernel)
  · exact stands _ (by decide +kernel)
  · exact stands _ (by decide +kernel)
  · exact stands _ (by decide +kernel)
  · exact stands _ (by decide +kernel)

theorem witness_ArrivalsLand :
    ((∃ (s : State) (c : CoreCtx) (run : _) (g : _) (r : _) (rest : _), (s.core? s.key = some c) ∧ (Claims.FirstDue Claims.isResult c ⟨0, run, g, .result r⟩ rest))) ∧
    ((∃ (s : State) (c : CoreCtx) (run : _) (g : _) (pos : _) (q : _) (tok : _) (rest : _), (s.core? s.key = some c) ∧ (Claims.FirstDue Claims.isToken c ⟨0, run, g, .token pos q tok⟩ rest) ∧ (q < 4))) ∧
    ((∃ (s : State) (c : CoreCtx) (run : _) (g : _) (pos : _) (p : _) (i : _) (rest : _), (s.core? s.key = some c) ∧ (Claims.FirstDue Claims.isCredit c ⟨0, run, g, .credit pos p i⟩ rest) ∧ (p < 4) ∧ (kindAt pos ≠ .le))) ∧
    ((∃ (s : State) (c : CoreCtx) (run : _) (g : _) (pos : _) (q : _) (rest : _), (s.core? s.key = some c) ∧ (Claims.FirstDue Claims.isCredit c ⟨0, run, g, .busCredit pos q⟩ rest) ∧ (q < 4))) := by
  refine ⟨?_, ?_, ?_, ?_⟩
  · exact ⟨coreState (fun c => { c with flights := [⟨0, 0, 0, .result ⟨9, 0, .mul, 0, 5#64, .i64, false, .data, Flags.none, 0, 0, none⟩⟩] }) (place 9 0 0), _, 0, 0, _, [],
      rfl, ⟨rfl, rfl, [], [], rfl, rfl, by simp⟩⟩
  · exact ⟨coreState (fun c => { c with flights := [⟨0, 0, 0, .token 9 3 ⟨5#64, .i64, .last, false⟩⟩] }) (place 9 0 0), _, 0, 0, 9, 3, _, [],
      rfl, ⟨rfl, rfl, [], [], rfl, rfl, by simp⟩, (by decide +kernel)⟩
  · exact ⟨coreState (fun c => { c with elems := [(9, anElem)], flights := [⟨0, 0, 0, .credit 9 3 0⟩] }) (place 9 0 0), _, 0, 0, 9, 3, 0, [],
      rfl, ⟨rfl, rfl, [], [], rfl, rfl, by simp⟩, (by decide +kernel), (by decide +kernel)⟩
  · exact ⟨coreState (fun c => { c with flights := [⟨0, 0, 0, .busCredit 16 3⟩] }) (place 16 0 0), _, 0, 0, 16, 3, [],
      rfl, ⟨rfl, rfl, [], [], rfl, rfl, by simp⟩, (by decide +kernel)⟩

theorem witness_DetoursLeave : (∃ (s : State) (c : CoreCtx) (e : _) (tok : _) (ce : _), (Claims.At s c e) ∧ (e.head? s.here.idx = some tok) ∧ (s.here.idx < 4) ∧ ((at' e.cfg.accept s.here.idx 0xFF#8).getLsbD tok.fmt.code = false) ∧ (detourCe (at' e.cfg.detour s.here.idx 0) = some ce) ∧ (c.frozen = false) ∧ (c.detourUsed s.here.pos ce s.here.idx < 4)) :=
  ⟨coreState (fun c => { c with elems := [(9, { anElem with cfg := { anElem.cfg with
    accept := Vector.replicate 4 0#8, detour := Vector.replicate 4 3 } })], runs := [runFor 9] }) (place 9 3 0), _, _, ⟨0#64, .raw, .data, false⟩, _,
  ⟨rfl, rfl⟩, rfl, (by decide +kernel), (by decide +kernel), rfl, rfl, (by decide +kernel)⟩

theorem witness_ChosenTrapsAreTaken : (∃ (s : State) (c : _) (e : _) (y : _) (tm : Team) (p : _), (Claims.At s c e) ∧ (s.slotView s.key s.here.pos s.here.idx (e.slot s.here.idx) = .trap y) ∧ (c.specRun e.run = false) ∧ (s.team? s.here.ctx = some tm) ∧ (tm.freePos (s.here.core / 2) = some p) ∧ (s.flat.wf = true)) :=
  ⟨slotState (.trap, trapOp), _, _, ⟨9, 0#64, 0#64⟩, _, 0, ⟨rfl, rfl⟩, by decide +kernel, by decide +kernel, rfl, by decide +kernel, by decide +kernel⟩

theorem witness_BusesDeliver :
    ((∃ (s : State) (c : CoreCtx) (run : _) (g : _) (pos : _) (q : _) (tok : _) (rest : _), (s.core? s.key = some c) ∧ (Claims.FirstDue Claims.isBus c ⟨0, run, g, .busToken pos q tok⟩ rest) ∧ (q < 4))) ∧
    ((∃ (s : State) (c : CoreCtx) (run : _) (g : _) (pos : _) (q : _) (v : _) (rest : _), (s.core? s.key = some c) ∧ (Claims.FirstDue Claims.isBus c ⟨0, run, g, .busScales pos q v⟩ rest) ∧ (q < 4))) ∧
    ((∃ (s : State) (c : CoreCtx) (run : _) (g : _) (col : _) (rmask : _) (data : _) (side : _) (tnt : _) (rest : _), (s.core? s.key = some c) ∧ (Claims.FirstDue Claims.isChunk c ⟨0, run, g, .chunk col rmask data side tnt⟩ rest) ∧ (col < 8))) ∧
    ((∃ (s : State) (c : CoreCtx) (r : Reader), (s.core? s.key = some c) ∧ (c.readers.get? s.here.idx = some r) ∧ (c.frozen = false) ∧ (c.readerReady s.here.idx = true) ∧ (s.here.idx < 8))) := by
  refine ⟨?_, ?_, ?_, ?_⟩
  · exact ⟨coreState (fun c => { c with flights := [⟨0, 0, 0, .busToken 9 3 ⟨5#64, .i64, .last, false⟩⟩] }) (place 9 0 0), _, 0, 0, 9, 3, _, [],
      rfl, ⟨rfl, rfl, [], [], rfl, rfl, by simp⟩, (by decide +kernel)⟩
  · exact ⟨coreState (fun c => { c with flights := [⟨0, 0, 0, .busScales 16 3 7#32⟩] }) (place 16 0 0), _, 0, 0, 16, 3, _, [],
      rfl, ⟨rfl, rfl, [], [], rfl, rfl, by simp⟩, (by decide +kernel)⟩
  · exact ⟨coreState (fun c => { c with flights := [⟨0, 0, 0, .chunk 7 15 0#512 0x7F7F7F7F#32 false⟩] }) (place 16 0 0), _, 0, 0, 7, _, _, _, _, [],
      rfl, ⟨rfl, rfl, [], [], rfl, rfl, by simp⟩, (by decide +kernel)⟩
  · exact ⟨coreState (fun c => { c with readers := [(7, ⟨0xF800000000000#64 ||| 0x3000000#64, 0, 0, 0⟩)] }) (place 0 7 0), _, _,
      rfl, rfl, rfl, (by decide +kernel), (by decide +kernel)⟩

theorem witness_BlocksAreCached : (∃ (s : State) (c : CoreCtx) (pc : _) (tm : Team) (ws : _), (s.core? s.key = some c) ∧ (s.physCore? s.key = some pc) ∧ (s.team? s.here.ctx = some tm) ∧ (tm.blocks.get? s.here.idx = some ws) ∧ ((s.physOf pc).entry? s.here.ctx s.here.idx = none) ∧ (c.needs s.here.idx = true) ∧ (c.resident = true) ∧ ((s.physOf pc).used + ws.length ≤ 8192)) :=
  ⟨{ lab.modCore (0, 0) (fun c => { c with walker := { c.walker with pend := [⟨0, 0, 5, 0, false, 0⟩] } }) with here := place 0 5 0, teams := lab.teams.adjust 0 fun t => { t with blocks := [(5, [0#64])] } }, _, _, _, _, rfl, rfl, rfl, rfl, (by decide +kernel), (by decide +kernel), rfl, (by decide +kernel)⟩

theorem witness_BlocksIssue : (∃ (s : State) (c : CoreCtx) (tm : Team) (pc : _) (p : _) (vn : _) (is : _) (level : _) (x : _) (ws : _) (v : _), (s.core? s.key = some c) ∧ (c.frozen = false) ∧ (c.resident = true) ∧ (s.issuePick s.key c = some p) ∧ (p.found = .yes vn is level) ∧ (p.reissue = none) ∧ (c.walker.pend[p.idx]? = some x) ∧ (s.team? s.here.ctx = some tm) ∧ (s.physCore? s.key = some pc) ∧ (tm.blocks.get? x.block = some ws) ∧ ((parseBlock ws).variants[vn]? = some v)) :=
  ⟨issueState 0, _, _, 0, ⟨none, 0, 0, 0, .yes 0 [] 0⟩, 0, [], 0, _, _, _, rfl, rfl, rfl, (by decide +kernel), rfl, rfl, rfl, rfl, (by decide +kernel), rfl, rfl⟩

theorem witness_IssueTrapsAreTheWalkers : (∃ (s : State) (c : CoreCtx) (tm : Team) (p : _) (y : _) (x : _) (n : _), (s.core? s.key = some c) ∧ (c.frozen = false) ∧ (c.resident = true) ∧ (s.issuePick s.key c = some p) ∧ (p.found = .trap y) ∧ (p.reissue = none) ∧ (c.walker.pend[p.idx]? = some x) ∧ (s.team? s.here.ctx = some tm) ∧ (tm.freePos (s.here.core / 2) = some n) ∧ (s.flat.wf = true)) :=
  ⟨issueState 1, _, _, ⟨none, 0, 0, 0, .trap ⟨1, 0#64, 0#64⟩⟩, _, _, 0, rfl, rfl, rfl, (by decide +kernel), rfl, rfl, rfl, rfl, (by decide +kernel), (by decide +kernel)⟩

theorem witness_BlocksComplete : (∃ (s : State) (c : CoreCtx) (r : Run), (s.core? s.key = some c) ∧ (c.run? s.here.idx = some r) ∧ (r.complete = false) ∧ (r.reissue = false) ∧ (c.halted r = true) ∧ (c.settled r = true)) :=
  ⟨coreState (fun c => { c with elems := [(9, { anElem with halted := true })], runs := [runFor 9] }) (place 9 0 0), _, _,
  rfl, rfl, rfl, rfl, (by decide +kernel), (by decide +kernel)⟩

theorem witness_GroupsCommit : (∃ (s : State) (c : CoreCtx) (r : Run) (g : _) (gs : _), (s.core? s.key = some c) ∧ (Claims.MayCommit s c r g gs)) :=
  ⟨coreState (fun c => { c with runs := [{ runFor 9 with ended := [0], group := 1 }] }) (place 9 0 0), _, _, 0, [], rfl, rfl, rfl, rfl, rfl, rfl, (by decide +kernel), (by decide +kernel), (by decide +kernel), (by decide +kernel)⟩

theorem witness_CommittedEntriesPerform :
    ((∃ (s : State) (c : _) (r : Run) (g : _) (gs : _) (n : _) (a : _) (v : _) (b : _) (pos : _), (Claims.MayCommit s c r g gs) ∧ (Claims.inGroup c r.id g = [⟨r.id, g, pos, .store 0 [a] n v, b⟩]) ∧ (n ≤ 8) ∧ ((s.team? s.here.ctx).isSome = true) ∧ (s.flat.wf = true))) ∧
    ((∃ (s : State) (c : _) (r : Run) (g : _) (gs : _) (tm : Team) (tn : _) (lts : _) (tid : _) (cs : _) (v : _) (b : _) (pos : _) (bit : _), (Claims.MayCommit s c r g gs) ∧ (Claims.inGroup c r.id g = [⟨r.id, g, pos, .store tid cs 1 v, b⟩]) ∧ (s.team? s.here.ctx = some tm) ∧ (s.tensor? s.here.ctx tid = some tn) ∧ (tn.loc = .hbm lts) ∧ (tm.spot tn (laneCoords cs 0) = .hbm bit) ∧ (s.hbm.wf = true))) ∧
    ((∃ (s : State) (c : _) (r : Run) (g : _) (gs : _) (mc : _) (ctr : _) (v : _) (b : _) (pos : _) (m : MCoreCtx), (Claims.MayCommit s c r g gs) ∧ (Claims.inGroup c r.id g = [⟨r.id, g, pos, .arrv mc ctr v, b⟩]) ∧ (s.mcore? (s.here.ctx, mc) = some m) ∧ (ctr < 16))) := by
  refine ⟨?_, ?_, ?_⟩
  · exact ⟨coreState (fun c => { c with runs := [{ runFor 9 with ended := [0], group := 1 }], buf := [⟨0, 0, 4, .store 0 [16] 8 5#64, true⟩] }) (place 9 0 0), _, _, 0, [], 8, 16, 5#64, true, 4,
      ⟨rfl, rfl, rfl, rfl, rfl, (by decide +kernel), (by decide +kernel), (by decide +kernel), (by decide +kernel)⟩, (by decide +kernel), (by decide +kernel), (by decide +kernel), (by decide +kernel)⟩
  · exact ⟨withHbm (coreState (fun c => { c with runs := [{ runFor 9 with ended := [0], group := 1 }], buf := [⟨0, 0, 4, .store 5 [0] 1 5#64, true⟩] }) (place 9 0 0)), _, _, 0, [], _, _, _, 5, [0], 5#64, true, 4, _,
      ⟨rfl, rfl, rfl, rfl, rfl, (by decide +kernel), (by decide +kernel), (by decide +kernel), (by decide +kernel)⟩, (by decide +kernel), rfl, rfl, rfl, rfl, (by decide +kernel)⟩
  · exact ⟨coreState (fun c => { c with runs := [{ runFor 9 with ended := [0], group := 1 }], buf := [⟨0, 0, 4, .arrv 0 15 5#32, true⟩] }) (place 9 0 0), _, _, 0, [], 0, 15, 5#32, true, 4, _,
      ⟨rfl, rfl, rfl, rfl, rfl, (by decide +kernel), (by decide +kernel), (by decide +kernel), (by decide +kernel)⟩, (by decide +kernel), rfl, (by decide +kernel)⟩

theorem witness_CommittedMessagesAreSent : (∃ (s : State) (c : _) (r : Run) (g : _) (gs : _) (p : _) (d : _) (b : _) (pos : _), (Claims.MayCommit s c r g gs) ∧ (Claims.inGroup c r.id g = [⟨r.id, g, pos, .msnd p d, b⟩])) :=
  ⟨coreState (fun c => { c with runs := [{ runFor 9 with ended := [0], group := 1 }], buf := [⟨0, 0, 4, .msnd 5#64 0#64, true⟩] }) (place 9 0 0), _, _, 0, [], 5#64, 0#64, true, 4,
  ⟨rfl, rfl, rfl, rfl, rfl, (by decide +kernel), (by decide +kernel), (by decide +kernel), (by decide +kernel)⟩, (by decide +kernel)⟩

/-- Two stores, an addition and a message of one group. -/
def fourEntries : List BufEntry := [⟨0, 0, 4, .store 0 [16] 8 5#64, true⟩, ⟨0, 0, 4, .store 0 [20] 8 6#64, true⟩,
  ⟨0, 0, 4, .arrv 0 15 5#32, true⟩, ⟨0, 0, 4, .msnd 3 7#64, true⟩]

theorem witness_GroupsPerformInOrder : ∃ (s : State) (c : CoreCtx) (r : Run) (g : Nat) (gs : List Nat), Claims.MayCommit s c r g gs ∧
    (∀ b ∈ Claims.inGroup c r.id g, Claims.Plain b.op) ∧ (Claims.inGroup c r.id g).length = 4 ∧ (s.team? s.here.ctx).isSome = true ∧
    s.flat.wf = true :=
  ⟨coreState (fun c => { c with runs := [{ runFor 9 with ended := [0], group := 1 }], buf := fourEntries }) (place 9 0 0), _, _, 0, [],
    ⟨rfl, rfl, rfl, rfl, rfl, by decide +kernel, by decide +kernel, by decide +kernel, by decide +kernel⟩,
    fun b hb => have all : ∀ b ∈ fourEntries, Claims.Plain b.op := by simp [fourEntries, Claims.Plain]
      all b (List.mem_of_mem_filter hb), by decide +kernel, by decide +kernel, by decide +kernel⟩

theorem witness_SpillsOpenANewGroup :
    (∃ (s : State) (c : CoreCtx) (r : Run), s.core? s.key = some c ∧ c.run? s.here.idx = some r ∧
      (c.elemD s.here.pos).run = some s.here.idx ∧ s.spillFor s.key s.here.pos s.here.val = true) ∧
    (∃ (s : State) (c : CoreCtx), s.core? s.key = some c ∧ s.spillFor s.key s.here.pos s.here.val = false) :=
  ⟨⟨slotStateWith (.gst, gstOp) (fieldsOf (.gst, gstOp)) (kindPos gstOp.opc) 0#64
      fun c => { c with buf := List.replicate 3072 ⟨0, 0, 4, .store 0 [16] 8 5#64, true⟩ }, _, _, rfl, rfl, rfl, (by decide +kernel)⟩,
    slotState (.gst, gstOp), _, rfl, (by decide +kernel)⟩

theorem witness_AdmissionAndMissingBlocks :
    ((∃ (s : State) (c : CoreCtx), (s.core? s.key = some c) ∧ (c.admitLeft = 0) ∧ (s.power.step < 3))) ∧
    ((∃ (s : State) (c : CoreCtx) (tm : Team) (block : _) (n : _) (p : _), (s.core? s.key = some c) ∧ (s.team? s.here.ctx = some tm) ∧ ((c.cfgMiss.find? fun x => decide (2 ^ tm.launch.cfgto ≤ x.2)) = some (block, n)) ∧ (∀ r ∈ c.runs, r.reissue = true → r.block ≠ block) ∧ (tm.freePos (s.here.core / 2) = some p) ∧ (s.flat.wf = true))) := by
  refine ⟨?_, ?_⟩
  · exact ⟨coreState id (place 9 0 0), _, rfl, rfl, (by decide +kernel)⟩
  · exact ⟨coreState (fun c => { c with cfgMiss := [(2, 1), (3, 5000000000)] }) (place 9 0 0), _, _, 3, 5000000000, 0, rfl, rfl, (by decide +kernel), (fun r h => absurd h List.not_mem_nil), (by decide +kernel), (by decide +kernel)⟩

theorem witness_RunsAppendPendingEntries :
    ((∃ n s c p, Claims.Walks n s c p ∧ c.walker.pend.length < 8) ∧ (∃ n s c p, Claims.Walks n s c p ∧ 8 ≤ c.walker.pend.length)) ∧
    ((∃ (s : State) (c : CoreCtx) (p no : Nat), s.core? s.key = some c ∧ c.walker.pos = some p ∧ c.frozen = false ∧ c.resident = true ∧ c.walker.mark = .appended no ∧ (∀ e ∈ c.walker.pend, e.id ≠ no) ∧ (∀ r ∈ c.runs, r.id ≠ no))) := by
  refine ⟨?_, ?_⟩
  · exact ⟨⟨nf 0#6 0#32, walkState id, _, _, ⟨rfl, rfl, ⟨rfl, rfl⟩, rfl, fun h => absurd h (by decide +kernel)⟩, (by decide +kernel)⟩,
      ⟨nf 0#6 0#32, walkState fun w => { w with pend := List.replicate 8 ⟨0, 0, 5, 0, false, 0⟩ }, _, _, ⟨rfl, rfl, ⟨rfl, rfl⟩, rfl, fun h => absurd h (by decide +kernel)⟩, (by decide +kernel)⟩⟩
  · exact ⟨walkState fun w => { w with mark := .appended 0 }, _, _, 0, rfl, rfl, rfl, rfl, rfl, (by decide +kernel), (by decide +kernel)⟩

theorem witness_LoopsAndConditions :
    ((∃ n s c p, Claims.Walks n s c p ∧ c.walker.levels.length < 4 ∧ n.flags.getLsbD 0 = false) ∧ (∃ n s c p, Claims.Walks n s c p ∧ c.walker.levels.length < 4 ∧ n.flags.getLsbD 0 = true)) ∧
    ((∃ n s c p l ls, Claims.Walks n s c p ∧ c.walker.levels = l :: ls)) ∧
    ((∃ n s c p, Claims.Walks n s c p ∧ Claims.Passes n c) ∧ (∃ n s c p, Claims.Walks n s c p ∧ ¬ Claims.Passes n c)) ∧
    ((∃ n s c p, Claims.Walks n s c p ∧ Claims.Passes n c ∧ c.walker.levels.length < 4) ∧ (∃ n s c p, Claims.Walks n s c p ∧ Claims.Passes n c ∧ ∃ l ls, c.walker.levels = l :: ls ∧ l.head = p)) ∧
    ((∃ n s c p, Claims.Walks n s c p)) := by
  refine ⟨?_, ?_, ?_, ?_, ?_⟩
  · exact ⟨⟨nf 0#6 0x70000#32, walkState id, _, _, ⟨rfl, rfl, ⟨rfl, rfl⟩, rfl, fun h => absurd h (by decide +kernel)⟩, (by decide +kernel), (by decide +kernel)⟩, ⟨nf 1#6 0x70000#32, walkState id, _, _, ⟨rfl, rfl, ⟨rfl, rfl⟩, rfl, fun h => absurd h (by decide +kernel)⟩, (by decide +kernel), (by decide +kernel)⟩⟩
  · exact ⟨nf 0#6 0#32, walkState fun w => { w with levels := [⟨2, 0#32, 1#32, 1⟩] }, _, _, _, _, ⟨rfl, rfl, ⟨rfl, rfl⟩, rfl, fun h => absurd h (by decide +kernel)⟩, rfl⟩
  · exact ⟨⟨nf 0#6 0x40#32, walkState id, _, _, ⟨rfl, rfl, ⟨rfl, rfl⟩, rfl, fun h => absurd h (by decide +kernel)⟩, rfl⟩, ⟨nf 0#6 0#32, walkState id, _, _, ⟨rfl, rfl, ⟨rfl, rfl⟩, rfl, fun h => absurd h (by decide +kernel)⟩, show ¬ (_ = _) from (by decide +kernel)⟩⟩
  · exact ⟨⟨nf 0#6 0x40#32, walkState id, _, _, ⟨rfl, rfl, ⟨rfl, rfl⟩, rfl, fun h => absurd h (by decide +kernel)⟩, rfl, (by decide +kernel)⟩, ⟨nf 0#6 0x40#32, walkState fun w => { w with levels := [⟨3, 0#32, 1#32, 1⟩] }, _, _, ⟨rfl, rfl, ⟨rfl, rfl⟩, rfl, fun h => absurd h (by decide +kernel)⟩, rfl, _, _, rfl, rfl⟩⟩
  · exact ⟨nf 0#6 0#32, walkState id, _, _, ⟨rfl, rfl, ⟨rfl, rfl⟩, rfl, fun h => absurd h (by decide +kernel)⟩⟩

theorem witness_CallsForksAndJoins :
    ((∃ n s c p, Claims.Walks n s c p ∧ c.walker.rstack.length < 16)) ∧
    ((∃ n s c p node depth rs, Claims.Walks n s c p ∧ c.walker.rstack = ⟨node, depth, false⟩ :: rs)) ∧
    ((∃ n s c p, Claims.Walks n s c p ∧ c.walker.deque.length < 32)) ∧
    ((∃ n s c p k ks, Claims.Walks n s c p ∧ n.flags.getLsbD 3 = false ∧ at' c.walker.joins (n.flags.toNat % 8) 0 ≠ 0 ∧ c.walker.deque = k :: ks ∧ Claims.taskFits c.walker)) ∧
    ((∃ n s c p k id iss ts node depth rs, Claims.Walks n s c p ∧ n.flags.getLsbD 3 = true ∧ c.walker.tasks = (k, id, iss) :: ts ∧ c.walker.rstack = ⟨node, depth, true⟩ :: rs ∧ (∀ e ∈ c.walker.pend, e.id < id) ∧ (∀ r ∈ c.runs, r.issue < iss))) := by
  refine ⟨?_, ?_, ?_, ?_, ?_⟩
  · exact ⟨nf 0#6 0#32, walkState id, _, _, ⟨rfl, rfl, ⟨rfl, rfl⟩, rfl, fun h => absurd h (by decide +kernel)⟩, (by decide +kernel)⟩
  · exact ⟨nf 0#6 0#32, walkState fun w => { w with rstack := [⟨some 1, 0, false⟩] }, _, _, _, _, _, ⟨rfl, rfl, ⟨rfl, rfl⟩, rfl, fun h => absurd h (by decide +kernel)⟩, rfl⟩
  · exact ⟨nf 7#6 0#32, walkState id, _, _, ⟨rfl, rfl, ⟨rfl, rfl⟩, rfl, fun h => absurd h (by decide +kernel)⟩, (by decide +kernel)⟩
  · exact ⟨nf 7#6 0#32, walkState fun w => { w with joins := Vector.replicate 8 1, deque := [⟨2, 0#32, 7, 0⟩] }, _, _, _, _, ⟨rfl, rfl, ⟨rfl, rfl⟩, rfl, fun h => absurd h (by decide +kernel)⟩, rfl, (by decide +kernel), rfl, (by decide +kernel), (by decide +kernel)⟩
  · exact ⟨nf 0xF#6 0#32, walkState fun w => { w with tasks := [(⟨2, 0#32, 7, 0⟩, 0, 0)], rstack := [⟨some 1, 0, true⟩] }, _, _, _, _, _, _, _, _, _, ⟨rfl, rfl, ⟨rfl, rfl⟩, rfl, fun h => absurd h (by decide +kernel)⟩, rfl, rfl, rfl, (by decide +kernel), (by decide +kernel)⟩

theorem witness_TasksAndTokens :
    ((∃ (s : State) (c : CoreCtx) (k : _) (ks : _), (s.core? s.key = some c) ∧ (c.frozen = false) ∧ (c.resident = true) ∧ (s.joinWait s.here.ctx c = true) ∧ (c.walker.deque = k :: ks) ∧ (Claims.taskFits c.walker))) ∧
    ((∃ (s : State) (c : CoreCtx) (tm : Team) (o : CoreCtx) (k : _), (s.core? s.key = some c) ∧ (c.frozen = false) ∧ (c.resident = true) ∧ (c.walker.pos = none) ∧ (s.team? s.here.ctx = some tm) ∧ (let n := 2 * tm.launch.quads
    (let target := (s.here.core + 1 + c.walker.probe) % n
    (target ≠ s.here.core) ∧ (s.core? (s.here.ctx, target) = some o) ∧ (o.resident = true) ∧ (o.walker.deque.getLast? = some k) ∧ (Claims.taskFits c.walker) ∧ (s.ownerPops s.key (s.here.ctx, target) o = false))))) ∧
    ((∃ (s : State) (c : CoreCtx) (g : _) (gs : _), (s.core? s.key = some c) ∧ (c.frozen = false) ∧ (c.walker.decs = g :: gs) ∧ (g < 8))) ∧
    ((∃ (s : State) (c : CoreCtx) (x : _) (xs : _), (s.core? s.key = some c) ∧ (c.walker.bounds = x :: xs) ∧ c.admits 1 = true ∧ s.atMove s.key = false ∧
      let p := x.toNat / 2 ^ 32 % 2 ^ 10
      ∃ pre l post, isBchNode (s.nodeWord s.here.ctx p) = true ∧ c.walker.levels = pre ++ l :: post ∧ l.head = p ∧ ∀ y ∈ pre, y.head ≠ p)) ∧
    ((∃ (s : State) (c : CoreCtx) (x : _) (xs : _), (s.core? s.key = some c) ∧ (c.walker.bounds = x :: xs) ∧ c.admits 1 = true ∧ s.atMove s.key = false ∧
      let p := x.toNat / 2 ^ 32 % 2 ^ 10
      (isBchNode (s.nodeWord s.here.ctx p) = false ∨ (∀ y ∈ c.walker.levels, y.head ≠ p)) ∧ c.walker.bch.length < 16)) := by
  refine ⟨?_, ?_, ?_, ?_, ?_⟩
  · exact ⟨(walkState fun w => { w with joins := Vector.replicate 8 1, deque := [⟨2, 0#32, 7, 0⟩] }).modTeam 0 fun t => { t with graph := List.replicate 6 (BitVec.ofNat 64 (0x0B * 2 ^ 58)) },
      _, _, _, rfl, rfl, rfl, (by decide +kernel), rfl, (by decide +kernel), (by decide +kernel)⟩
  · exact ⟨addCore (coreState (fun c => { c with walker := { c.walker with pos := none } }) (place 0 0 0)), _, _, _, _, rfl, rfl, rfl, rfl, rfl, (by decide +kernel), rfl, rfl, rfl, ⟨(by decide +kernel), (by decide +kernel)⟩, (by decide +kernel)⟩
  · exact ⟨walkState fun w => { w with decs := [7] }, _, _, _, rfl, rfl, rfl, (by decide +kernel)⟩
  · exact ⟨(walkState fun w => { w with bounds := [0#64], levels := [⟨0, 0#32, 1#32, 1⟩] }).modTeam 0 fun t =>
      { t with graph := [0#64, 0x0C00000100000000#64] }, _, _, _, rfl, rfl, (by decide +kernel), (by decide +kernel), [], _, [], (by decide +kernel), rfl, rfl, fun y h => absurd h List.not_mem_nil⟩
  · exact ⟨walkState fun w => { w with bounds := [0#64] }, _, _, _, rfl, rfl, (by decide +kernel), (by decide +kernel), Or.inr fun y h => absurd h List.not_mem_nil, (by decide +kernel)⟩

theorem witness_WaitsAndServices :
    ((∃ n s c p tm, Claims.Walks n s c p ∧ s.team? s.here.ctx = some tm ∧ c.runs = [] ∧ c.walker.pend = [])) ∧
    ((∃ (n : _) (s : State) (c : CoreCtx) (p : _) (g : _) (tm : Team), (s.core? s.key = some c) ∧ (c.walker.pos = some p) ∧ (c.frozen = false) ∧ (c.resident = true) ∧ (c.walker.mark = .arrived g) ∧ (s.team? s.here.ctx = some tm) ∧ (let b := tm.bar? (Claims.bits n 0 3) (tm.scopeUnit (Claims.bits n 0 3) s.here.core 0) (Claims.bits n 5 6)
    ((∀ x, b = some x → (s.here.core, none) ∉ x.full))))) ∧
    ((∃ n s c p tm m, Claims.Walks n s c p ∧ s.team? s.here.ctx = some tm ∧ Claims.bits n 0 16 < 2 * tm.launch.quads ∧ s.mcore? (s.here.ctx, Claims.bits n 0 16) = some m)) ∧
    ((∃ n s c p rec' tn, Claims.Walks n s c p ∧ Claims.Placeable s (Claims.bits n 0 20) rec' ∧
      s.tensor? s.here.ctx (Claims.bits n 0 20) = some tn ∧ s.tileAway s.here.ctx tn = false)) ∧
    ((∃ (s : State) (c : CoreCtx) (p : Nat), s.core? s.key = some c ∧ c.walker.pos = some p ∧ c.frozen = false ∧ c.resident = true ∧ c.walker.mark = .placed)) ∧
    ((∃ n s c p, Claims.Walks n s c p)) ∧
    ((∃ n s c p, Claims.Walks n s c p ∧ c.runs = [] ∧ c.walker.pend = [])) ∧
    ((∃ n s c p, Claims.Walks n s c p ∧ Claims.bits n 8 24 ≤ (at' c.evc (Claims.bits n 0 5) 0#64).toNat)) ∧
    ((∃ n s c p tm tn, Claims.Walks n s c p ∧ s.team? s.here.ctx = some tm ∧ s.rangeOk s.here.ctx (Claims.bits n 0 20) 0 64 .store = some tn ∧ s.tileAway s.here.ctx tn = false ∧ Claims.seenRecords c tm = [])) ∧
    ((∃ n s c p tm tn r rs, Claims.Walks n s c p ∧ s.team? s.here.ctx = some tm ∧ s.rangeOk s.here.ctx (Claims.bits n 0 20) 0 64 .store = some tn ∧ s.tileAway s.here.ctx tn = false ∧ Claims.seenRecords c tm = r :: rs ∧ tn.loc = .flat ∧ r.length = 8)) := by
  refine ⟨?_, ?_, ?_, ?_, ?_, ?_, ?_, ?_, ?_, ?_⟩
  · exact ⟨nf 0#6 0#32, walkState id, _, _, _, ⟨rfl, rfl, ⟨rfl, rfl⟩, rfl, fun h => absurd h (by decide +kernel)⟩, rfl, rfl, rfl⟩
  · exact ⟨nf 0#6 0#32, walkState fun w => { w with mark := .arrived 0 }, _, _, _, _, rfl, rfl, rfl, rfl, rfl, rfl, (by decide +kernel)⟩
  · exact ⟨nf 0#6 0#32, walkState id, _, _, _, _, ⟨rfl, rfl, ⟨rfl, rfl⟩, rfl, fun h => absurd h (by decide +kernel)⟩, rfl, (by decide +kernel), rfl⟩
  · exact ⟨nf 0#6 0#32, walkState id, _, _, List.replicate 8 0#64, ⟨0, 1, [2 ^ 48], 0, true, true, false, .flat⟩,
      ⟨rfl, rfl, ⟨rfl, rfl⟩, rfl, fun h => absurd h (by decide +kernel)⟩, ⟨(by decide +kernel), (by decide +kernel)⟩, (by decide +kernel), (by decide +kernel)⟩
  · exact ⟨walkState fun w => { w with mark := .placed }, _, _, rfl, rfl, rfl, rfl, rfl⟩
  · exact ⟨nf 0#6 0#32, walkState id, _, _, ⟨rfl, rfl, ⟨rfl, rfl⟩, rfl, fun h => absurd h (by decide +kernel)⟩⟩
  · exact ⟨nf 0#6 0#32, walkState id, _, _, ⟨rfl, rfl, ⟨rfl, rfl⟩, rfl, fun h => absurd h (by decide +kernel)⟩, rfl, rfl⟩
  · exact ⟨nf 0#6 0#32, walkState id, _, _, ⟨rfl, rfl, ⟨rfl, rfl⟩, rfl, fun h => absurd h (by decide +kernel)⟩, (by decide +kernel)⟩
  · exact ⟨nf 0#6 0#32, walkState id, _, _, _, ⟨0, 1, [2 ^ 48], 0, true, true, false, .flat⟩, ⟨rfl, rfl, ⟨rfl, rfl⟩, rfl, fun h => absurd h (by decide +kernel)⟩, rfl, (by decide +kernel), (by decide +kernel), (by decide +kernel)⟩
  · exact ⟨nf 0#6 0#32, (coreState (fun c => { c with walker := { c.walker with pos := some 0 }, capSeen := 1 }) (place 0 0 0)).modTeam 0 fun t => { t with capQueue := [List.replicate 8 1#64] },
      _, _, _, ⟨0, 1, [2 ^ 48], 0, true, true, false, .flat⟩, _, _, ⟨rfl, rfl, ⟨rfl, rfl⟩, rfl, fun h => absurd h (by decide +kernel)⟩, rfl, (by decide +kernel), (by decide +kernel), rfl, rfl, rfl⟩

theorem witness_NodesTrap :
    ((∃ n s c p tm x, Claims.Walks n s c p ∧ (fun _ _ c => 4 ≤ c.walker.levels.length) n s c ∧ s.team? s.here.ctx = some tm ∧ tm.freePos (s.here.core / 2) = some x ∧ s.flat.wf = true)) ∧
    ((∃ n s c p tm x, Claims.Walks n s c p ∧ (fun _ _ c => c.walker.levels = []) n s c ∧ s.team? s.here.ctx = some tm ∧ tm.freePos (s.here.core / 2) = some x ∧ s.flat.wf = true)) ∧
    ((∃ n s c p tm x, Claims.Walks n s c p ∧ (fun n _ c => Claims.Passes n c ∧ 4 ≤ c.walker.levels.length ∧
      ∀ l ls, c.walker.levels = l :: ls → some l.head ≠ c.walker.pos) n s c ∧ s.team? s.here.ctx = some tm ∧ tm.freePos (s.here.core / 2) = some x ∧ s.flat.wf = true)) ∧
    ((∃ n s c p tm x, Claims.Walks n s c p ∧ (fun _ _ c => 16 ≤ c.walker.rstack.length) n s c ∧ s.team? s.here.ctx = some tm ∧ tm.freePos (s.here.core / 2) = some x ∧ s.flat.wf = true)) ∧
    ((∃ n s c p tm x, Claims.Walks n s c p ∧ (fun _ _ c => c.walker.rstack = [] ∨ ∃ x d rs, c.walker.rstack = ⟨x, d, true⟩ :: rs) n s c ∧ s.team? s.here.ctx = some tm ∧ tm.freePos (s.here.core / 2) = some x ∧ s.flat.wf = true)) ∧
    ((∃ n s c p tm x, Claims.Walks n s c p ∧ (fun _ _ c => 32 ≤ c.walker.deque.length) n s c ∧ s.team? s.here.ctx = some tm ∧ tm.freePos (s.here.core / 2) = some x ∧ s.flat.wf = true)) ∧
    ((∃ n s c p tm x, Claims.Walks n s c p ∧ (fun n _ c => n.flags.getLsbD 3 = true ∧ c.walker.tasks = []) n s c ∧ s.team? s.here.ctx = some tm ∧ tm.freePos (s.here.core / 2) = some x ∧ s.flat.wf = true)) ∧
    ((∃ n s c p tm x, Claims.Walks n s c p ∧ (fun n s _ => ∀ tm, s.team? s.here.ctx = some tm → 2 * tm.launch.quads ≤ Claims.bits n 0 16) n s c ∧ s.team? s.here.ctx = some tm ∧ tm.freePos (s.here.core / 2) = some x ∧ s.flat.wf = true)) ∧
    ((∃ n s c p tm x, Claims.Walks n s c p ∧ (fun n s _ => (∀ rec', ¬ Claims.Placeable s (Claims.bits n 0 20) rec') ∧ ∀ tn, s.tensor? s.here.ctx (Claims.bits n 0 20) = some tn → s.tileAway s.here.ctx tn = false) n s c ∧ s.team? s.here.ctx = some tm ∧ tm.freePos (s.here.core / 2) = some x ∧ s.flat.wf = true)) ∧
    ((∃ n s c p tm x, Claims.Walks n s c p ∧ (fun n s _ => s.rangeOk s.here.ctx (Claims.bits n 0 20) 0 64 .store = none) n s c ∧ s.team? s.here.ctx = some tm ∧ tm.freePos (s.here.core / 2) = some x ∧ s.flat.wf = true)) ∧
    ((∃ n s c p tm x, Claims.Walks n s c p ∧ (fun _ _ _ => True) n s c ∧ s.team? s.here.ctx = some tm ∧ tm.freePos (s.here.core / 2) = some x ∧ s.flat.wf = true)) := by
  refine ⟨?_, ?_, ?_, ?_, ?_, ?_, ?_, ?_, ?_, ?_, ?_⟩
  · exact ⟨nf 0#6 0#32, walkState fun w => { w with levels := List.replicate 4 ⟨2, 0#32, 1#32, 1⟩ }, _, _, _, 0, ⟨rfl, rfl, ⟨rfl, rfl⟩, rfl, fun h => absurd h (by decide +kernel)⟩, (by decide +kernel), rfl, (by decide +kernel), (by decide +kernel)⟩
  · exact ⟨nf 0#6 0#32, walkState id, _, _, _, 0, ⟨rfl, rfl, ⟨rfl, rfl⟩, rfl, fun h => absurd h (by decide +kernel)⟩, rfl, rfl, (by decide +kernel), (by decide +kernel)⟩
  · exact ⟨nf 0#6 0x40#32, walkState fun w => { w with levels := List.replicate 4 ⟨2, 0#32, 1#32, 1⟩ }, _, _, _, 0, ⟨rfl, rfl, ⟨rfl, rfl⟩, rfl, fun h => absurd h (by decide +kernel)⟩,
      ⟨rfl, (by decide +kernel), fun l ls h => by cases h; exact (by decide +kernel)⟩, rfl, (by decide +kernel), (by decide +kernel)⟩
  · exact ⟨nf 0#6 0#32, walkState fun w => { w with rstack := List.replicate 16 ⟨some 1, 0, false⟩ }, _, _, _, 0, ⟨rfl, rfl, ⟨rfl, rfl⟩, rfl, fun h => absurd h (by decide +kernel)⟩, (by decide +kernel), rfl, (by decide +kernel), (by decide +kernel)⟩
  · exact ⟨nf 0#6 0#32, walkState fun w => { w with rstack := [⟨some 1, 0, true⟩] }, _, _, _, 0, ⟨rfl, rfl, ⟨rfl, rfl⟩, rfl, fun h => absurd h (by decide +kernel)⟩, Or.inr ⟨_, _, _, rfl⟩, rfl, (by decide +kernel), (by decide +kernel)⟩
  · exact ⟨nf 0#6 0#32, walkState fun w => { w with deque := List.replicate 32 ⟨2, 0#32, 7, 0⟩ }, _, _, _, 0, ⟨rfl, rfl, ⟨rfl, rfl⟩, rfl, fun h => absurd h (by decide +kernel)⟩, (by decide +kernel), rfl, (by decide +kernel), (by decide +kernel)⟩
  · exact ⟨nf 8#6 0#32, walkState id, _, _, _, 0, ⟨rfl, rfl, ⟨rfl, rfl⟩, rfl, fun h => absurd h (by decide +kernel)⟩, ⟨rfl, rfl⟩, rfl, (by decide +kernel), (by decide +kernel)⟩
  · exact ⟨nf 0#6 0xFFFF#32, walkState id, _, _, _, 0, ⟨rfl, rfl, ⟨rfl, rfl⟩, rfl, fun h => absurd h (by decide +kernel)⟩, fun tm h => by cases h; exact (by decide +kernel), rfl, (by decide +kernel), (by decide +kernel)⟩
  · exact ⟨nf 0#6 7#32, walkState id, _, _, _, 0, ⟨rfl, rfl, ⟨rfl, rfl⟩, rfl, fun h => absurd h (by decide +kernel)⟩,
      ⟨fun r h => absurd h.1 (by rw [show State.recordAt _ _ _ _ = none from by decide +kernel]; simp), fun tn h => absurd h (by rw [show State.tensor? _ _ _ = none from by decide +kernel]; simp)⟩, rfl, (by decide +kernel), (by decide +kernel)⟩
  · exact ⟨nf 0#6 7#32, walkState id, _, _, _, 0, ⟨rfl, rfl, ⟨rfl, rfl⟩, rfl, fun h => absurd h (by decide +kernel)⟩, (by decide +kernel), rfl, (by decide +kernel), (by decide +kernel)⟩
  · exact ⟨nf 0#6 0#32, walkState id, _, _, _, 0, ⟨rfl, rfl, ⟨rfl, rfl⟩, rfl, fun h => absurd h (by decide +kernel)⟩, trivial, rfl, (by decide +kernel), (by decide +kernel)⟩

theorem witness_TilesAreDefined :
    let H (P : SeqFields → State → MCoreCtx → Tile → Prop) : Prop := WordCase fun q s m =>
      let old := m.tile (Claims.slotA q)
      let size := (Claims.opnd q 13 12 + 1) * ((Claims.opnd q 25 12 + 1) * 64)
      let units := (Claims.flags q 0 2 + 1) * (size / 64)
      old.system = false ∧ old.claim = none ∧ old.pinned = false ∧ old.fill = none ∧ old.own = false ∧
      Claims.opnd q 0 13 + units ≤ m.wsize ∧
      (∀ x ∈ m.tiles, x.1 ≠ Claims.slotA q → x.2.defd = true →
        Claims.opnd q 0 13 + units ≤ x.2.base ∨ x.2.base + x.2.units ≤ Claims.opnd q 0 13) ∧
      ∃ tm, s.team? s.here.ctx = some tm ∧ (∀ d ∈ tm.slotData s.here.core (Claims.slotA q), d.1 + d.2.length ≤ size) ∧ P q s m old
    H (fun q s m old => old.state = .predicted ∧ (∃ r ∈ m.used, r.1 ≤ 64 * Claims.opnd q 0 13 ∧ 64 * Claims.opnd q 0 13 < r.2) ∧
      m.everDef.contains (Claims.slotA q) = true) ∧
    H (fun q s m _ => m.everDef.contains (Claims.slotA q) = false ∧ m.window.wf = true ∧
      ∃ tm d, s.team? s.here.ctx = some tm ∧ tm.slotData s.here.core (Claims.slotA q) = [d]) := by
  refine ⟨⟨sf 2#6 100#40, seqState { Tile.init with defd := true, state := .predicted, ret := 2, readers := [⟨0, 0, 0#32, 0#32⟩] }
    (fun m => { m with used := [(6400, 6401)], everDef := [0] }), _, ⟨rfl, rfl, rfl, rfl, rfl, rfl⟩, rfl, rfl, rfl, rfl, rfl, (by decide +kernel),
    (by decide +kernel), _, rfl, (by decide +kernel), rfl, (by decide +kernel), rfl⟩, ⟨sf 2#6 100#40,
    (seqState Tile.init id).modTeam 0 fun t => { t with data := [⟨0xF0000, 2, [1#8, 2#8]⟩] }, _, ⟨rfl, rfl, rfl, rfl, rfl, rfl⟩,
    rfl, rfl, rfl, rfl, rfl, (by decide +kernel), (by decide +kernel), _, rfl, (by decide +kernel), rfl, (by decide +kernel), _, (2, [1#8, 2#8]), rfl,
    (by decide +kernel)⟩⟩

theorem witness_TilesAreControlled :
    (WordCase fun q _ m => let t := m.tile (Claims.slotA q)
      Claims.Usable t ∧ t.mode = .store ∧ Claims.flags q 0 3 ≠ 2 ∧ (t.state = .ready ∨ t.state = .empty) ∧ t.claim = none ∧ t.pinned = false) ∧
    (WordCase fun q _ m => let t := m.tile (Claims.slotA q)
      Claims.Usable t ∧ t.mode = .store ∧ Claims.flags q 0 3 = 2 ∧ t.state = .predicted) ∧
    (WordCase fun q _ m => let t := m.tile (Claims.slotA q)
      Claims.Usable t ∧ t.state = .empty ∧ (Claims.flags q 0 2 = 0 ↔ t.ret ≠ 0)) ∧
    (WordCase fun q _ m => let t := m.tile (Claims.slotA q)
      Claims.Usable t ∧ t.mode = .line ∧ Claims.opnd q 0 12 = 0) ∧
    (WordCase fun q _ m => let t := m.tile (Claims.slotA q)
      Claims.Usable t ∧ t.mode = .line ∧ 0 < Claims.opnd q 0 12 ∧ Claims.opnd q 0 12 ≤ t.count ∧
      ∀ x ∈ m.streams, x.slot = Claims.slotA q → x.xp = 0 ∧ Claims.opnd q 0 12 ≤ x.row) ∧
    (WordCase fun q s m => let t := m.tile (Claims.slotA q)
      Claims.Usable t ∧ (Claims.flags q 0 1 = 1 → t.claim = none ∧ t.fill = none) ∧
      (Claims.flags q 0 1 = 0 → s.engineOnTile s.here.ctx s.here.core (Claims.slotA q) = false) ∧ Claims.flags q 0 1 = 1) ∧
    (WordCase fun q s m => let t := m.tile (Claims.slotA q)
      Claims.Usable t ∧ (Claims.flags q 0 1 = 1 → t.claim = none ∧ t.fill = none) ∧
      (Claims.flags q 0 1 = 0 → s.engineOnTile s.here.ctx s.here.core (Claims.slotA q) = false) ∧ Claims.flags q 0 1 = 0) ∧
    (WordCase fun q _ m => Claims.Usable (m.tile (Claims.slotA q)) ∧ (m.tile (Claims.slotA q)).state = .empty ∧
      (m.tile (Claims.slotA q)).ret = 0 ∧ Claims.flags q 0 2 = 2) := by
  refine ⟨?_, ?_, ?_, ?_, ?_, ?_, ?_, ?_⟩
  · exact ⟨sf 0#6 0#40, seqState rTile id, _, ⟨rfl, rfl, rfl, rfl, rfl, rfl⟩, ⟨rfl, rfl⟩, rfl, (by decide +kernel), Or.inl rfl, rfl, rfl⟩
  · exact ⟨sf 2#6 0#40, seqState { rTile with state := .predicted, readers := [⟨0, 0, 0#32, 0#32⟩] } id, _, ⟨rfl, rfl, rfl, rfl, rfl, rfl⟩, ⟨rfl, rfl⟩, rfl, (by decide +kernel), rfl⟩
  · exact ⟨sf 0#6 0#40, seqState { rTile with state := .empty } id, _, ⟨rfl, rfl, rfl, rfl, rfl, rfl⟩, ⟨rfl, rfl⟩, rfl, (by decide +kernel)⟩
  · exact ⟨sf 2#6 0#40, seqState { rTile with mode := .line, ret := 0, count := 1 } id, _, ⟨rfl, rfl, rfl, rfl, rfl, rfl⟩, ⟨rfl, rfl⟩, rfl, (by decide +kernel)⟩
  · exact ⟨sf 2#6 1#40, seqState { rTile with mode := .line, ret := 0, count := 1 } (fun m => { m with
        streams := [⟨0, 3, false, 0, false, 1, 1, 0, 0, none, 0, 0, 0⟩] }), _, ⟨rfl, rfl, rfl, rfl, rfl, rfl⟩, ⟨rfl, rfl⟩, rfl, (by decide +kernel),
      (by decide +kernel), (by decide +kernel)⟩
  · exact ⟨sf 1#6 1#40, seqState rTile id, _, ⟨rfl, rfl, rfl, rfl, rfl, rfl⟩, ⟨rfl, rfl⟩, fun _ => ⟨rfl, rfl⟩, (by decide +kernel), (by decide +kernel)⟩
  · exact ⟨sf 0#6 1#40, seqState { rTile with own := true } id, _, ⟨rfl, rfl, rfl, rfl, rfl, rfl⟩, ⟨rfl, rfl⟩, (by decide +kernel), (by decide +kernel), (by decide +kernel)⟩
  · exact ⟨sf 2#6 0#40, seqState { rTile with state := .empty, ret := 0 } id, _, ⟨rfl, rfl, rfl, rfl, rfl, rfl⟩, ⟨rfl, rfl⟩, rfl, rfl, (by decide +kernel)⟩

theorem witness_StreamsAndFillsStart :
    (∀ rel < 2, WordCase fun q s m =>
      Claims.Streams q (m.tile (Claims.slotA q)) ∧ Claims.flags q 2 1 = 0 ∧ m.strm? (Claims.flags q 0 2) = none ∧
      Claims.flags q 5 1 = rel ∧
      ∃ tm core c, s.team? s.here.ctx = some tm ∧ tm.faces s.here.core (Claims.flags q 0 2) = some core ∧
        s.core? (s.here.ctx, core) = some c) ∧
    (∀ xp < 2, WordCase fun q s m =>
      Claims.Streams q (m.tile (Claims.slotA q)) ∧ Claims.flags q 2 1 = 1 ∧ m.strm? 4 = none ∧ Claims.flags q 3 2 = xp ∧
      ∃ tm, s.team? s.here.ctx = some tm ∧ Claims.opnd q 24 16 < 2 * tm.launch.quads ∧
        ¬ (Claims.opnd q 24 16 = 0 ∧ tm.launch.sys = true ∧ tm.launch.sslot = Claims.slotB q) ∧
        (Claims.opnd q 24 16 = s.here.core → (m.tile (Claims.slotB q)).defd = true)) ∧
    (∀ xp < 2, WordCase fun q _ m => let t := m.tile (Claims.slotA q)
      Claims.Usable t ∧ t.noShadow = false ∧ 0 < Claims.opnd q 0 20 ∧ Claims.opnd q 0 20 % 64 = 0 ∧ Claims.opnd q 0 20 ≤ t.size ∧
      Claims.opnd q 38 2 = xp ∧
      (Claims.opnd q 38 2 ≠ 0 → Claims.Transposes t (Claims.opnd q 38 2) ∧ Claims.opnd q 0 20 = t.size) ∧ t.fill = none) := by
  have two (P : Nat → Prop) (h0 : P 0) (h1 : P 1) : ∀ n < 2, P n := fun n h => match n, h with
    | 0, _ => h0
    | 1, _ => h1
  refine ⟨two _ ?_ ?_, two _ ?_ ?_, two _ ?_ ?_⟩
  · exact ⟨sf 3#6 0#40, seqState rTile id, _, ⟨rfl, rfl, rfl, rfl, rfl, rfl⟩, ⟨rfl, (by decide +kernel), (by decide +kernel), fun h => absurd h (by decide +kernel),
      (by decide +kernel), fun _ => rfl⟩, (by decide +kernel), (by decide +kernel), (by decide +kernel), _, _, _, rfl, rfl, rfl⟩
  · exact ⟨sf 0x23#6 0#40, seqState { rTile with state := .filling } id, _, ⟨rfl, rfl, rfl, rfl, rfl, rfl⟩, ⟨rfl, (by decide +kernel), (by decide +kernel),
      fun h => absurd h (by decide +kernel), (by decide +kernel), fun _ => rfl⟩, (by decide +kernel), (by decide +kernel), (by decide +kernel), _, _, _, rfl, rfl, rfl⟩
  · exact ⟨sf 4#6 0#40, seqState rTile id, _, ⟨rfl, rfl, rfl, rfl, rfl, rfl⟩, ⟨rfl, (by decide +kernel), (by decide +kernel), fun h => absurd h (by decide +kernel),
      (by decide +kernel), fun _ => rfl⟩, (by decide +kernel), (by decide +kernel), (by decide +kernel), _, rfl, (by decide +kernel), (by decide +kernel), fun _ => rfl⟩
  · exact ⟨sf 0xC#6 0x3F000#40, seqState { rTile with rows := 63 } id, _, ⟨rfl, rfl, rfl, rfl, rfl, rfl⟩, ⟨rfl, (by decide +kernel), (by decide +kernel),
      fun _ => ⟨(by decide +kernel), (by decide +kernel), Or.inl (by decide +kernel)⟩, (by decide +kernel), fun _ => rfl⟩, (by decide +kernel), (by decide +kernel), (by decide +kernel), _,
      rfl, (by decide +kernel), (by decide +kernel), fun _ => rfl⟩
  · exact ⟨sf 1#6 64#40, seqState rTile id, _, ⟨rfl, rfl, rfl, rfl, rfl, rfl⟩, ⟨rfl, rfl⟩, (by decide +kernel), (by decide +kernel), (by decide +kernel), (by decide +kernel),
      (by decide +kernel), fun h => absurd h (by decide +kernel), rfl⟩
  · exact ⟨sf 1#6 ((2 ^ 38 + 8192 : Nat) : BitVec 40), seqState { rTile with rows := 63 } id, _, ⟨rfl, rfl, rfl, rfl, rfl, rfl⟩, ⟨rfl, rfl⟩, (by decide +kernel), (by decide +kernel),
      (by decide +kernel), (by decide +kernel), (by decide +kernel), fun _ => ⟨Or.inl (by decide +kernel), (by decide +kernel)⟩, rfl⟩

theorem witness_PredictionsAndComparisonsStart :
    ((∃ (q : SeqFields) (s : State) (m : MCoreCtx), Claims.Sequencing s m ∧ (fun q s m => let t := m.tile (Claims.slotA q)
      Claims.Usable t ∧ t.mode = .store ∧ t.ret = 2 ∧ 2 ≤ t.version.toNat ∧ t.fmt ≠ .raw ∧ t.fmt ≠ .e2m1x16 ∧
      (Claims.flags q 0 2 = 2 → 1 ≤ Claims.opnd q 0 4 ∧ Claims.opnd q 0 4 ≤ 8) ∧
      (Claims.flags q 0 2 ≠ 2 → Claims.opnd q 0 4 = 0) ∧ t.state = .ready ∧ t.own = false ∧
      m.predicting (Claims.slotA q) = false ∧ t.pin t.prev = 0 ∧ s.unitsFree s.key true = true) q s m)) ∧
    ((∃ (q : SeqFields) (s : State) (m : MCoreCtx), Claims.Sequencing s m ∧ (fun q s m => let a := m.tile (Claims.slotA q)
      let b := m.tile (Claims.slotB q)
      a.defd = true ∧ b.defd = true ∧ a.system = false ∧ a.mode = .store ∧ b.mode = .store ∧ a.rows = b.rows ∧ a.rowb = b.rowb ∧
      a.fmt = b.fmt ∧ a.fmt ≠ .raw ∧ a.fmt ≠ .e2m1x16 ∧ a.ret ≠ 0 ∧ b.ret ≠ 0 ∧ a.state = .ready ∧ b.state = .ready ∧
      a.own = false ∧ b.own = false ∧ s.unitsFree s.key false = true) q s m)) := by
  refine ⟨?_, ?_⟩
  · exact ⟨sf 2#6 8#40, seqState rTile id, _, ⟨rfl, rfl, rfl, rfl, rfl, rfl⟩, ⟨rfl, rfl⟩, rfl, rfl, (by decide +kernel), (by decide +kernel), (by decide +kernel), (by decide +kernel), (by decide +kernel), rfl, rfl, (by decide +kernel), (by decide +kernel), (by decide +kernel)⟩
  · exact ⟨sf 0#6 0#40, seqState rTile id, _, ⟨rfl, rfl, rfl, rfl, rfl, rfl⟩, rfl, rfl, rfl, rfl, rfl, rfl, rfl, rfl, (by decide +kernel), (by decide +kernel), (by decide +kernel), (by decide +kernel), rfl, rfl, rfl, rfl, (by decide +kernel)⟩

theorem witness_SequencersCountSignalAndJump :
    ((∃ (q : SeqFields) (s : State) (m : MCoreCtx), Claims.Sequencing s m ∧ (fun q _ m => let t := m.tile (Claims.slotA q)
      Claims.Usable t ∧ t.mode = .fifo ∧ t.rowb = 0 ∧ t.partialRow = 0 ∧ t.count ≤ t.rows ∧ m.window.wf = true) q s m)) ∧
    ((∃ (q : SeqFields) (s : State) (m : MCoreCtx), Claims.Sequencing s m ∧ (fun q s m => let core := Claims.opnd q 0 16
      s.coreOk s.here.ctx core = true ∧ (∃ c, s.core? (s.here.ctx, core) = some c ∧ c.boundRoom = true) ∧
      (Claims.flags q 0 1 = 0 → let t := m.tile (Claims.slotA q)
      Claims.Usable t ∧ t.noShadow = false ∧ 8 * Claims.slotB q < t.size ∧ t.state = .ready ∧ t.mode = .store)) q s m)) ∧
    ((∃ (q : SeqFields) (s : State) (m : MCoreCtx), Claims.Sequencing s m ∧ (fun q s m => let t := m.tile (Claims.slotA q)
      Claims.Usable t ∧ Claims.opnd q 0 13 < t.size / 64 ∧ t.noShadow = false ∧ t.state = .ready ∧ t.mode = .store ∧
      s.engineRoom 1 (s.engineUnit s.here.ctx s.here.core 1) = true) q s m)) ∧
    ((∃ (q : SeqFields) (s : State) (m : MCoreCtx), Claims.Sequencing s m ∧ (fun _ _ _ => True) q s m)) ∧
    ((∃ (q : SeqFields) (s : State) (m : MCoreCtx), Claims.Sequencing s m ∧ (fun _ _ _ => True) q s m)) ∧
    ((∃ (q : SeqFields) (s : State) (m : MCoreCtx), Claims.Sequencing s m ∧ (fun _ _ _ => True) q s m)) := by
  refine ⟨?_, ?_, ?_, ?_, ?_, ?_⟩
  · exact ⟨sf 0#6 0#40, seqState { rTile with mode := .fifo, ret := 0, rowb := 0 } (fun m => { m with log := [⟨1, 0, 0, 0, 1, 1, 3#32, (0, 0)⟩] }), _, ⟨rfl, rfl, rfl, rfl, rfl, rfl⟩, ⟨rfl, rfl⟩, rfl, rfl, rfl, (by decide +kernel), (by decide +kernel)⟩
  · exact ⟨sf 0#6 0#40, seqState rTile id, _, ⟨rfl, rfl, rfl, rfl, rfl, rfl⟩, (by decide +kernel), ⟨_, rfl, (by decide +kernel)⟩, fun _ => ⟨⟨rfl, rfl⟩, (by decide +kernel), (by decide +kernel), rfl, rfl⟩⟩
  · exact ⟨sf 0#6 1#40, seqState rTile id, _, ⟨rfl, rfl, rfl, rfl, rfl, rfl⟩, ⟨rfl, rfl⟩, (by decide +kernel), (by decide +kernel), rfl, rfl, (by decide +kernel)⟩
  · exact ⟨sf 0#6 1#40, seqState rTile id, _, ⟨rfl, rfl, rfl, rfl, rfl, rfl⟩, trivial⟩
  · exact ⟨sf 0#6 1#40, seqState rTile id, _, ⟨rfl, rfl, rfl, rfl, rfl, rfl⟩, trivial⟩
  · exact ⟨sf 0#6 1#40, seqState rTile id, _, ⟨rfl, rfl, rfl, rfl, rfl, rfl⟩, trivial⟩

theorem witness_WordsTrapOnProgramErrors :
    let H (P : SeqFields → State → MCoreCtx → Prop) : Prop :=
      ∃ q s m tm p, Claims.Sequencing s m ∧ P q s m ∧ s.team? s.here.ctx = some tm ∧ tm.freePos (s.here.core / 2) = some p ∧ s.flat.wf = true
    H (fun q _ m => (m.tile (Claims.slotA q)).system = true ∧ (m.tile (Claims.slotA q)).state ≠ .predicted ∧
      (m.tile (Claims.slotA q)).state ≠ .verifying) ∧
    H (fun q _ m => Claims.flags q 0 1 = 0 ∧ (m.tile (Claims.slotA q)).system = true) ∧
    H (fun q s _ => Claims.flags q 2 1 = 1 ∧ Claims.opnd q 24 16 = 0 ∧
      ∃ tm, s.team? s.here.ctx = some tm ∧ tm.launch.sys = true ∧ tm.launch.sslot = Claims.slotB q) ∧
    H (fun q s m => Claims.flags q 2 1 = 1 ∧ Claims.opnd q 24 16 = s.here.core ∧ (m.tile (Claims.slotB q)).defd = false) ∧
    H (fun q _ m => let t := m.tile (Claims.slotA q); t.rows + 1 < Claims.opnd q 0 12 + Claims.opnd q 12 12 + 1) ∧
    H (fun q _ m => let t := m.tile (Claims.slotA q); Claims.flags q 3 2 = 1 ∧ (t.rows + 1) % 64 ≠ 0) ∧
    H (fun q _ m => let t := m.tile (Claims.slotA q); t.mode = .fifo ∧ Claims.flags q 5 1 = 1) ∧
    H (fun q _ m => (m.tile (Claims.slotA q)).state ≠ .predicted ∧ (m.tile (Claims.slotA q)).state ≠ .verifying ∧
      m.wsize < Claims.opnd q 0 13 + Claims.tdefUnits q) ∧
    H (fun q _ m => (m.tile (Claims.slotA q)).state ≠ .predicted ∧ (m.tile (Claims.slotA q)).state ≠ .verifying ∧
      ∃ x ∈ m.tiles, x.1 ≠ Claims.slotA q ∧ x.2.defd = true ∧ Claims.opnd q 0 13 < x.2.base + x.2.units ∧
        x.2.base < Claims.opnd q 0 13 + Claims.tdefUnits q) ∧
    H (fun q _ m => Claims.flags q 0 3 = 2 ∧ (m.tile (Claims.slotA q)).state ≠ .predicted) ∧
    H (fun q _ m => Claims.flags q 0 2 = 0 ∧ (m.tile (Claims.slotA q)).ret = 0) ∧
    H (fun q _ m => Claims.opnd q 0 20 = 0 ∨ (m.tile (Claims.slotA q)).size < Claims.opnd q 0 20) ∧
    H (fun q _ m => (m.tile (Claims.slotA q)).version.toNat < 2) ∧
    H (fun q _ m => (m.tile (Claims.slotA q)).rows ≠ (m.tile (Claims.slotB q)).rows) ∧
    H (fun q _ m => (m.tile (Claims.slotA q)).mode ≠ .fifo) ∧
    H (fun q _ m => Claims.flags q 0 1 = 0 ∧ (m.tile (Claims.slotA q)).size ≤ 8 * Claims.slotB q) ∧
    H (fun q _ m => (m.tile (Claims.slotA q)).size / 64 ≤ Claims.opnd q 0 13) ∧
    H Claims.undefinedA ∧
    H (fun q s m => Claims.flags q 0 1 = 0 ∧ Claims.undefinedA q s m) ∧
    H (fun q _ m => (m.tile (Claims.slotA q)).mode ≠ .line) ∧
    H (fun q _ m => (m.tile (Claims.slotA q)).state ≠ .empty) := by
  let sys : Tile := { rTile with system := true }
  let chan : State := (seqState rTile id).modTeam 0 fun t => { t with launch := { t.launch with sys := true, sslot := 1 } }
  refine ⟨?_, ?_, ?_, ?_, ?_, ?_, ?_, ?_, ?_, ?_, ?_, ?_, ?_, ?_, ?_, ?_, ?_, ?_, ?_, ?_, ?_⟩
  · exact ⟨sf 0#6 0#40, seqState sys id, _, _, 0, ⟨rfl, rfl, rfl, rfl, rfl, rfl⟩, ⟨rfl, (by decide +kernel), (by decide +kernel)⟩, rfl, (by decide +kernel), (by decide +kernel)⟩
  · exact ⟨sf 0#6 0#40, seqState sys id, _, _, 0, ⟨rfl, rfl, rfl, rfl, rfl, rfl⟩, ⟨rfl, rfl⟩, rfl, (by decide +kernel), (by decide +kernel)⟩
  · exact ⟨sf 4#6 0#40, chan, _, _, 0, ⟨rfl, rfl, rfl, rfl, rfl, rfl⟩, ⟨rfl, rfl, _, rfl, rfl, rfl⟩, rfl, (by decide +kernel), (by decide +kernel)⟩
  · exact ⟨⟨0#6, 5#6, 4#6, 0#40⟩, seqState rTile id, _, _, 0, ⟨rfl, rfl, rfl, rfl, rfl, rfl⟩, ⟨rfl, rfl, rfl⟩, rfl, (by decide +kernel), (by decide +kernel)⟩
  · exact ⟨sf 0#6 9#40, seqState rTile id, _, _, 0, ⟨rfl, rfl, rfl, rfl, rfl, rfl⟩, (by decide +kernel), rfl, (by decide +kernel), (by decide +kernel)⟩
  · exact ⟨sf 8#6 0#40, seqState rTile id, _, _, 0, ⟨rfl, rfl, rfl, rfl, rfl, rfl⟩, (by decide +kernel), rfl, (by decide +kernel), (by decide +kernel)⟩
  · exact ⟨sf 0x20#6 0#40, seqState { rTile with mode := .fifo, ret := 0 } id, _, _, 0, ⟨rfl, rfl, rfl, rfl, rfl, rfl⟩, ⟨rfl, rfl⟩, rfl, (by decide +kernel), (by decide +kernel)⟩
  · exact ⟨sf 0#6 0x1FFF#40, seqState Tile.init id, _, _, 0, ⟨rfl, rfl, rfl, rfl, rfl, rfl⟩, ⟨(by decide +kernel), (by decide +kernel), (by decide +kernel)⟩, rfl, (by decide +kernel), (by decide +kernel)⟩
  · exact ⟨sf 0#6 64#40, seqState Tile.init id, _, _, 0, ⟨rfl, rfl, rfl, rfl, rfl, rfl⟩, ⟨(by decide +kernel), (by decide +kernel), (by decide +kernel)⟩, rfl, (by decide +kernel), (by decide +kernel)⟩
  · exact ⟨sf 2#6 0#40, seqState rTile id, _, _, 0, ⟨rfl, rfl, rfl, rfl, rfl, rfl⟩, ⟨rfl, (by decide +kernel)⟩, rfl, (by decide +kernel), (by decide +kernel)⟩
  · exact ⟨sf 0#6 0#40, seqState { rTile with ret := 0, state := .empty } id, _, _, 0, ⟨rfl, rfl, rfl, rfl, rfl, rfl⟩, ⟨rfl, rfl⟩, rfl, (by decide +kernel), (by decide +kernel)⟩
  · exact ⟨sf 0#6 0#40, seqState rTile id, _, _, 0, ⟨rfl, rfl, rfl, rfl, rfl, rfl⟩, Or.inl rfl, rfl, (by decide +kernel), (by decide +kernel)⟩
  · exact ⟨sf 0#6 0#40, seqState { rTile with version := 1#32 } id, _, _, 0, ⟨rfl, rfl, rfl, rfl, rfl, rfl⟩, (by decide +kernel), rfl, (by decide +kernel), (by decide +kernel)⟩
  · exact ⟨sf 0#6 0#40, seqState { rTile with rows := 3 } id, _, _, 0, ⟨rfl, rfl, rfl, rfl, rfl, rfl⟩, (by decide +kernel), rfl, (by decide +kernel), (by decide +kernel)⟩
  · exact ⟨sf 0#6 0#40, seqState rTile id, _, _, 0, ⟨rfl, rfl, rfl, rfl, rfl, rfl⟩, (by decide +kernel), rfl, (by decide +kernel), (by decide +kernel)⟩
  · exact ⟨⟨0#6, 63#6, 0#6, 0#40⟩, seqState rTile id, _, _, 0, ⟨rfl, rfl, rfl, rfl, rfl, rfl⟩, (by decide +kernel), rfl, (by decide +kernel), (by decide +kernel)⟩
  · exact ⟨sf 0#6 7#40, seqState rTile id, _, _, 0, ⟨rfl, rfl, rfl, rfl, rfl, rfl⟩, (by decide +kernel), rfl, (by decide +kernel), (by decide +kernel)⟩
  · exact ⟨sf 0#6 0#40, seqState Tile.init id, _, _, 0, ⟨rfl, rfl, rfl, rfl, rfl, rfl⟩, ⟨rfl, (by decide +kernel), (by decide +kernel)⟩, rfl, (by decide +kernel), (by decide +kernel)⟩
  · exact ⟨sf 0#6 0#40, seqState Tile.init id, _, _, 0, ⟨rfl, rfl, rfl, rfl, rfl, rfl⟩, ⟨(by decide +kernel), ⟨rfl, (by decide +kernel), (by decide +kernel)⟩⟩, rfl, (by decide +kernel), (by decide +kernel)⟩
  · exact ⟨sf 0#6 0#40, seqState rTile id, _, _, 0, ⟨rfl, rfl, rfl, rfl, rfl, rfl⟩, (by decide +kernel), rfl, (by decide +kernel), (by decide +kernel)⟩
  · exact ⟨sf 0#6 0#40, seqState rTile id, _, _, 0, ⟨rfl, rfl, rfl, rfl, rfl, rfl⟩, (by decide +kernel), rfl, (by decide +kernel), (by decide +kernel)⟩

theorem witness_WritesReachTheShadow : (∃ (s : State) (c : CoreCtx) (b : _) (tm : Team) (tid : _) (cs : _) (n : _) (v : _) (mc : _) (slot : _) (tn : _) (m : MCoreCtx), (s.core? s.key = some c) ∧ (c.buf[s.here.idx]? = some b) ∧ (s.team? s.here.ctx = some tm) ∧ (b.op = .store tid cs n v) ∧ (s.tileOf s.here.ctx tid = some (mc, slot)) ∧ (s.tensor? s.here.ctx tid = some tn) ∧ (s.mcore? (s.here.ctx, mc) = some m) ∧ (b.sent = false) ∧ (m.viewOpen = false) ∧ (m.moving = false) ∧ (m.resident = true) ∧ ((m.tile slot).own = false) ∧ ((m.tile slot).mayClaim (.block s.here.core b.run b.group) = true) ∧ (c.firstUnsent s s.here.ctx s.here.idx b (mc, slot) = true)) :=
  ⟨(coreState (fun c => { c with runs := [runFor 4], buf := [⟨0, 0, 4, .store 0xF0000 [0, 0] 1 5#64, false⟩] }) (place 4 0 0)).modMcore (0, 0) fun m => { m with tiles := [(0, rTile)] },
  _, _, _, 0xF0000, [0, 0], 1, 5#64, 0, 0, ⟨0xF0000, 2, [1, 32], 5, true, true, false, .tile 0 0⟩, _, rfl, rfl, rfl, rfl, (by decide +kernel), (by decide +kernel), rfl, rfl, rfl, rfl, rfl, rfl, (by decide +kernel), (by decide +kernel)⟩

theorem witness_StreamBeatsMove :
    (∃ (s : State) (tm : Team) (m : MCoreCtx) (x : Strm) (core : Nat) (c : CoreCtx), Claims.MaySend s tm m x ∧ x.dn = false ∧
      tm.faces s.here.core x.port = some core ∧ s.core? (s.here.ctx, core) = some c ∧ c.frozen = false ∧ c.resident = true ∧
      c.beatsAt (portLe x.port) < 2 ∧ tm.adjacent s.here.core x.port core = true) ∧
    (∃ (s : State) (tm : Team) (m : MCoreCtx) (x : Strm) (d : MCoreCtx) (f : Fill), Claims.MaySend s tm m x ∧ x.dn = true ∧
      x.dest ≠ s.here.core ∧ s.mcore? (s.here.ctx, x.dest) = some d ∧ d.resident = true ∧ d.viewOpen = false ∧ d.moving = false ∧
      (d.tile x.dslot).defd = true ∧ (d.tile x.dslot).mode = .store ∧ (d.tile x.dslot).own = false ∧
      (d.tile x.dslot).publishWaits = false ∧ (d.tile x.dslot).fill = some f ∧ f.xp = 0 ∧ 64 < f.left ∧
      (d.tile x.dslot).mayClaim .fill = true ∧ d.window.wf = true) ∧
    (∃ (s : State) (tm : Team) (m : MCoreCtx) (x : Strm) (d : MCoreCtx), Claims.MaySend s tm m x ∧ x.dn = true ∧
      s.mcore? (s.here.ctx, x.dest) = some d ∧ d.resident = true ∧ (d.tile x.dslot).defd = true ∧
      ¬ ((d.tile x.dslot).mode = .store ∧ (d.tile x.dslot).ret = 0) ∧ (d.tile x.dslot).fill = none) ∧
    (∃ (s : State) (tm : Team) (m : MCoreCtx) (x : Strm) (d : MCoreCtx) (p : Nat), Claims.MaySend s tm m x ∧ x.dn = true ∧
      s.mcore? (s.here.ctx, x.dest) = some d ∧
      ((d.tile x.dslot).defd = false ∨ ((d.tile x.dslot).mode = .store ∧ (d.tile x.dslot).ret = 0)) ∧
      tm.freePos (s.here.core / 2) = some p ∧ s.flat.wf = true) ∧
    (∃ (s : State) (c : CoreCtx) (e : Elem) (b : InBeat) (bs : List InBeat) (tok : Token) (toks : List Token), Claims.At s c e ∧
      s.here.val = 1 ∧ (c.le s.here.pos).inbeats = b :: bs ∧ b.toks = tok :: toks ∧
      (∀ f ∈ c.flights, f.left = 0 → ∀ port ts h z, f.cargo ≠ .beat s.here.pos port ts h z) ∧ c.frozen = false ∧
      e.run.isSome = true ∧ (e.port b.port).writable = true ∧
      ((e.port b.port).hold = none ∨ (e.port b.port).hold = some b.hold) ∧ b.port < 4) ∧
    (∃ (s : State) (c : CoreCtx) (e : Elem) (n r g port : Nat) (ts : List Token) (h : Hold) (z : Bool) (pre post : List Flight),
      Claims.At s c e ∧ s.here.val = 1 ∧ c.frozen = false ∧ e.run.isSome = true ∧ c.admits 8 = true ∧
      (c.le s.here.pos).inbeats = [] ∧ c.flights = pre ++ ⟨0, r, g, .beat s.here.pos port ts h z⟩ :: post ∧
      (∀ f ∈ pre, f.left = 0 → ∀ a b d y, f.cargo ≠ .beat s.here.pos a b d y) ∧ ts.length = n ∧ 0 < n ∧ port < 4 ∧
      (e.port port).writable = false) := by
  let dn (t : Tile) : State := { seqState t (fun m => { m with streams := [⟨0, 0, true, 0, false, 0, 1, 0, 0, none, 1, 1, 0⟩] }) with here := place 0 4 0 }
  let dst (t : Tile) : State := { dn rTile with mcores := (dn rTile).mcores.put (0, 1) { MCoreCtx.init with resident := true, tiles := [(1, t)] } }
  refine ⟨?_, ?_, ?_, ?_, ?_, ?_⟩
  · exact ⟨{ seqState rTile (fun m => { m with streams := [⟨0, 3, false, 0, false, 0, 1, 0, 0, none, 0, 0, 0⟩] }) with here := place 0 3 0 }, _, _, _, 0, _,
      ⟨(by decide +kernel), rfl, rfl, rfl, rfl, rfl, rfl, (by decide +kernel)⟩, rfl, rfl, rfl, rfl, rfl, (by decide +kernel), (by decide +kernel)⟩
  · exact ⟨dst { rTile with fill := some ⟨128, 128, none, 0, []⟩ }, _, _, _, _, ⟨128, 128, none, 0, []⟩,
      ⟨(by decide +kernel), rfl, rfl, rfl, rfl, rfl, rfl, (by decide +kernel)⟩, rfl, (by decide +kernel), rfl, rfl, rfl, rfl, rfl, rfl, rfl, rfl, rfl, rfl, (by decide +kernel),
      (by decide +kernel), (by decide +kernel)⟩
  · exact ⟨dst rTile, _, _, _, _, ⟨(by decide +kernel), rfl, rfl, rfl, rfl, rfl, rfl, (by decide +kernel)⟩, rfl, rfl, rfl, rfl, (by decide +kernel), rfl⟩
  · exact ⟨dst Tile.init, _, _, _, _, 0, ⟨(by decide +kernel), rfl, rfl, rfl, rfl, rfl, rfl, (by decide +kernel)⟩, rfl, rfl, Or.inl rfl, (by decide +kernel), (by decide +kernel)⟩
  · exact ⟨coreState (fun c => { c with elems := [(4, anElem), (1, anElem)], les := [(4, { LE.init with inbeats := [⟨0, [⟨0#64, .raw, .data, false⟩], .strm 0 0, false⟩] })], runs := [runFor 4] }) (place 4 0 1),
      _, _, _, _, _, _, ⟨rfl, rfl⟩, rfl, rfl, rfl, fun _ h => absurd h List.not_mem_nil, rfl, rfl, (by decide +kernel), (by decide +kernel), (by decide +kernel)⟩
  · exact ⟨coreState (fun c => { c with
        elems := [(4, { anElem with ports := Vector.replicate 4 ⟨[⟨1, 0, 1, 0⟩], none⟩ })], les := [(4, LE.init)], runs := [runFor 4]
        flights := [⟨0, 0, 0, .beat 4 0 [⟨0#64, .raw, .data, false⟩] (.strm 0 0) false⟩] }) (place 4 0 1),
      _, _, 1, 0, 0, 0, [⟨0#64, .raw, .data, false⟩], .strm 0 0, false, [], [], ⟨rfl, rfl⟩, rfl, rfl, rfl, (by decide +kernel), rfl, rfl,
      fun _ h => absurd h List.not_mem_nil, rfl, (by decide), (by decide), (by decide +kernel)⟩

theorem witness_PredictorAndComparerEnd :
    (∃ (s : State) (m : MCoreCtx) (j : PredJob), s.mcore? s.key = some m ∧ (m.preds.find? fun p => p.slot == s.here.idx) = some j ∧
      m.viewOpen = false ∧ m.moving = false ∧ (m.tile j.slot).fmt ≠ .raw ∧ (m.tile j.slot).fmt ≠ .e2m1x16 ∧
      (m.tile j.slot).prev ≠ (m.tile j.slot).cur ∧ m.window.wf = true) ∧
    (∀ input ∈ [0, 3], ∃ (s : State) (m : MCoreCtx) (j : CmpJob), s.mcore? s.key = some m ∧ m.cmps[s.here.idx]? = some j ∧
      m.viewOpen = false ∧ m.moving = false ∧ s.here.val = input) ∧
    (∃ (s : State) (m : MCoreCtx), s.mcore? s.key = some m ∧ s.here.idx ∈ m.verifying ∧ m.viewOpen = false ∧ m.moving = false) := by
  refine ⟨?_, ?_, ?_⟩
  · exact ⟨seqState { rTile with prev := 1 } (fun m => { m with preds := [⟨0, 0, 0⟩] }), _, ⟨0, 0, 0⟩, rfl, (by decide +kernel), rfl, rfl, (by decide +kernel), (by decide +kernel),
      (by decide +kernel), (by decide +kernel)⟩
  · exact fun input _ => ⟨{ seqState rTile (fun m => { m with cmps := [⟨0, 1, 0, 0, 0#16, 0#16, none, none⟩] }) with here := place 0 0 input }, _, _,
      rfl, rfl, rfl, rfl, rfl⟩
  · exact ⟨seqState { rTile with state := .verifying } (fun m => { m with verifying := [0] }), _, rfl, (by decide +kernel), rfl, rfl⟩

theorem witness_VerdictsValidateOrSquash :
    let H (P : State → CoreCtx → Run → Bool → Prop) : Prop :=
      ∃ (s : State) (c : CoreCtx) (id mc slot : Nat) (pass : Bool) (vs : List (Nat × Nat × Nat × Bool)) (r : Run),
        s.core? s.key = some c ∧ c.verdicts = (id, mc, slot, pass) :: vs ∧ c.admits 1 = true ∧ s.atMove s.key = false ∧ c.run? id = some r ∧ r.spec = true ∧
        r.reissue = false ∧ mc = 0 ∧ slot = 0 ∧ P s c r pass
    H (fun _ _ r pass => pass = true ∧ ∃ i ∈ r.inputs, ¬ (i.mcore = 0 ∧ i.slot = 0) ∧ i.passed = false) ∧
    H (fun _ _ r pass => pass = true ∧ ∀ i ∈ r.inputs, (i.mcore = 0 ∧ i.slot = 0) ∨ i.passed = true) ∧
    H (fun s c _ pass => pass = false ∧ ∀ y ∈ c.runs, ∀ i ∈ y.inputs, i.kind ≠ .tentative s.here.core 0) :=
  let at_ (inputs : List SpecInput) (pass : Bool) : State :=
    coreState (fun c => { c with runs := [{ specRunFor 9 with inputs := inputs }], verdicts := [(0, 0, 0, pass)] }) (place 0 0 0)
  ⟨⟨at_ [⟨0, 0, 2#32, .prediction, 0, false⟩, ⟨0, 1, 2#32, .prediction, 0, false⟩] true, _, _, _, _, _, _, _, rfl, rfl, (by decide +kernel), (by decide +kernel), rfl, rfl, rfl, rfl, rfl, rfl, (by decide +kernel)⟩,
    ⟨at_ [⟨0, 0, 2#32, .prediction, 0, false⟩, ⟨0, 1, 2#32, .prediction, 0, true⟩] true, _, _, _, _, _, _, _, rfl, rfl, (by decide +kernel), (by decide +kernel), rfl, rfl, rfl, rfl, rfl, rfl, (by decide +kernel)⟩,
    ⟨at_ [⟨0, 0, 2#32, .prediction, 0, false⟩] false, _, _, _, _, _, _, _, rfl, rfl, (by decide +kernel), (by decide +kernel), rfl, rfl, rfl, rfl, rfl, rfl, (by decide +kernel)⟩⟩

theorem witness_RecordsAreChecked :
    (∀ x ∈ Claims.engines, ∃ s c cs r, Claims.Heads s x.1 c cs ∧ c.started = false ∧ (x.1 = 1 → s.flipHolds c = false) ∧ x.2.2 s c = some r) ∧
    ((∃ (s : State) (c : _) (cs : _), (Claims.Heads s 1 c cs) ∧ (c.started = false) ∧ (s.flipHolds c = false) ∧ (s.transferCheck c = none))) ∧
    (∃ (s : State) (c : Cmd) (cs : List Cmd) (e : Sys2Proof.Machine.Endpoint) (mc slot : Nat) (m : MCoreCtx), Claims.Heads s 1 c cs ∧ c.started = false ∧
      e ∈ [srcEnd c.record, dstEnd c.record] ∧ s.endTile c.ctx e = some (mc, slot) ∧ s.mcore? (c.ctx, mc) = some m ∧
      (m.tile slot).flipWaits.isSome = true) ∧
    ((∃ (s : State) (c : _) (cs : _), (Claims.Heads s 2 c cs) ∧ (c.started = false) ∧ (s.gredCheck c = none))) := by
  refine ⟨?_, ?_, ?_, ?_⟩
  · exact by
      intro x hx
      simp only [Claims.engines, List.mem_cons, List.not_mem_nil, or_false] at hx
      obtain rfl | rfl | rfl | rfl := hx
      · exact ⟨engState 1 (aCmd 1 [9#64]), aCmd 1 [9#64], [], (1, 0, 0), ⟨rfl, rfl⟩, rfl, by decide +kernel, by decide +kernel⟩
      · exact ⟨engState 2 (aCmd 2 [9#64]), aCmd 2 [9#64], [], (1, 0, 0), ⟨rfl, rfl⟩, rfl, by decide +kernel, by decide +kernel⟩
      · exact ⟨engState 3 (aCmd 3 [9#64]), aCmd 3 [9#64], [], (1, 0, 0), ⟨rfl, rfl⟩, rfl, by decide +kernel, by decide +kernel⟩
      · exact ⟨engState 4 (aCmd 4 [9#64]), aCmd 4 [9#64], [], (1, 0, 0), ⟨rfl, rfl⟩, rfl, by decide +kernel, by decide +kernel⟩
  · exact ⟨engState 1 (aCmd 1 (copyRecord 0 0)), _, _, ⟨rfl, rfl⟩, rfl, (by decide +kernel), (by decide +kernel)⟩
  · exact ⟨withTile (engState 1 (aCmd 1 (copyRecord 0xF0000 0))) { rTile with own := true, flipWaits := some 0 }, _, _, srcEnd (copyRecord 0xF0000 0), 0, 0, _,
      ⟨rfl, rfl⟩, rfl, List.mem_cons_self, (by decide +kernel), rfl, rfl⟩
  · exact ⟨engState 2 (aCmd 2 gredRecord), _, _, ⟨rfl, rfl⟩, rfl, (by decide +kernel)⟩

theorem witness_TransfersCopy :
    let Runs (s : State) (c : Cmd) (cs : List Cmd) : Prop := Claims.Heads s 1 c cs ∧ c.started = true ∧ (s.team? c.ctx).isSome = true
    (∃ s c cs tx ty lo exts lo' exts', Runs s c cs ∧ Claims.BoxEnd s c (srcEnd c.record) tx lo exts ∧
      Claims.BoxEnd s c (dstEnd c.record) ty lo' exts' ∧ ebits ty.efmt = ebits tx.efmt) ∧
    (∃ s c cs tx lo exts x, Runs s c cs ∧ Claims.BoxEnd s c (srcEnd c.record) tx lo exts ∧ ebits tx.efmt = 64 ∧
      boxElems c.record tx.rank = c.done + 1 ∧ Claims.CoreEnd s c (dstEnd c.record) 1 x) ∧
    (∀ kind ∈ [1, 2], ∃ s c cs y lo' exts' x, Runs s c cs ∧ Claims.CoreEnd s c (srcEnd c.record) kind x ∧
      Claims.BoxEnd s c (dstEnd c.record) y lo' exts' ∧ boxElems c.record y.rank = c.done + 1) ∧
    (∃ s c cs x y, Runs s c cs ∧ Claims.CoreEnd s c (srcEnd c.record) 2 x ∧ Claims.CoreEnd s c (dstEnd c.record) 1 y ∧
      extent c.record 0 = c.done + 1) ∧
    (∀ st ∈ [TileState.ready, .filling], ∃ s c cs x y mc slot m lo exts lo' exts', Runs s c cs ∧
      Claims.TileEnd c (srcEnd c.record) (s.tensor? c.ctx (srcEnd c.record).tid) x mc slot lo exts ∧
      Claims.BoxEnd s c (dstEnd c.record) y lo' exts' ∧ ebits y.efmt = ebits x.efmt ∧ boxElems c.record x.rank = c.done + 1 ∧
      s.mcore? (c.ctx, mc) = some m ∧ m.resident = true ∧ m.viewOpen = false ∧ m.moving = false ∧ (m.tile slot).state = st) ∧
    (∀ armed : Bool, ∃ s c cs x y mc slot m lo exts lo' exts', Runs s c cs ∧ Claims.BoxEnd s c (srcEnd c.record) x lo exts ∧
      Claims.TileEnd c (dstEnd c.record) (s.fillTensor? c.ctx (dstEnd c.record).tid) y mc slot lo' exts' ∧
      ebits y.efmt = ebits x.efmt ∧ 8 ≤ ebits x.efmt ∧ boxElems c.record x.rank = c.done + 1 ∧ s.mcore? (c.ctx, mc) = some m ∧
      m.resident = true ∧
      (m.fillAll slot (Claims.tileBit y lo' exts' c.done / 8) (leBytes (ebits x.efmt / 8) (s.element c.ctx x (boxCoords lo exts c.done)))
        5 none true (0, 0) 9).isSome = armed) := by
  let run (src dst : Nat) : State := engState 1 { aCmd 1 (copyRecord src dst) with started := true }
  let ups (s : State) : State := s.modTeam 0 fun t => { t with launch := { t.launch with ups := true } }
  let tile : Tensor := ⟨0xF0000, 2, [1, 32], 5, true, true, false, .tile 0 0⟩
  let two : Tensor := ⟨2, 2, [1, 1], 5, true, true, false, .hbm [6]⟩
  refine ⟨?_, ?_, ?_, ?_, ?_, ?_⟩
  · exact ⟨run 0 0, _, _, _, _, _, _, _, _, ⟨⟨rfl, rfl⟩, rfl, (by decide +kernel)⟩, ⟨rfl, rfl, fun _ _ h => (by cases h), rfl, rfl⟩, ⟨rfl, rfl, fun _ _ h => (by cases h), rfl, rfl⟩, (by decide +kernel)⟩
  · exact ⟨run 7 (2 ^ 20), _, _, ⟨7, 1, [1], 4, true, true, false, .hbm [6]⟩, _, _, _, ⟨⟨rfl, rfl⟩, rfl, (by decide +kernel)⟩, ⟨rfl, (by decide +kernel), fun _ _ h => (by cases h), rfl, rfl⟩, (by decide +kernel), (by decide +kernel),
      (by decide +kernel), (by decide +kernel), rfl, rfl, (by decide +kernel), fun h => absurd h (by decide)⟩
  · intro kind h
    simp only [List.mem_cons, List.not_mem_nil, or_false] at h
    rcases h with rfl | rfl
    · exact ⟨run (2 ^ 20) 0, _, _, ⟨0, 1, [2 ^ 48], 0, true, true, false, .flat⟩, _, _, _, ⟨⟨rfl, rfl⟩, rfl, (by decide +kernel)⟩,
        ⟨(by decide +kernel), (by decide +kernel), rfl, rfl, (by decide +kernel), fun h => absurd h (by decide)⟩, ⟨(by decide +kernel), (by decide +kernel), fun _ _ h => (by cases h), rfl, rfl⟩, (by decide +kernel)⟩
    · exact ⟨ups (run (2 * 2 ^ 20) 0), _, _, ⟨0, 1, [2 ^ 48], 0, true, true, false, .flat⟩, _, _, _, ⟨⟨rfl, rfl⟩, rfl, (by decide +kernel)⟩,
        ⟨(by decide +kernel), (by decide +kernel), rfl, rfl, (by decide +kernel), fun _ => ⟨_, rfl, rfl⟩⟩, ⟨(by decide +kernel), (by decide +kernel), fun _ _ h => (by cases h), rfl, rfl⟩, (by decide +kernel)⟩
  · exact ⟨ups (run (2 * 2 ^ 20) (2 ^ 20)), _, _, _, _, ⟨⟨rfl, rfl⟩, rfl, (by decide +kernel)⟩, ⟨(by decide +kernel), (by decide +kernel), rfl, rfl, (by decide +kernel), fun _ => ⟨_, rfl, rfl⟩⟩,
      ⟨(by decide +kernel), (by decide +kernel), rfl, rfl, (by decide +kernel), fun h => absurd h (by decide)⟩, (by decide +kernel)⟩
  · have at_ (st : TileState) (h : (withTile (run 0xF0000 2) { rTile with state := st }).tensor? 0 0xF0000 = some tile)
        (h2 : (withTile (run 0xF0000 2) { rTile with state := st }).tensor? 0 2 = some two)
        (h0 : ((withTile (run 0xF0000 2) { rTile with state := st }).team? 0).isSome = true) :
        ∃ s c cs x y mc slot m lo exts lo' exts', (Claims.Heads s 1 c cs ∧ c.started = true ∧ (s.team? c.ctx).isSome = true) ∧
          Claims.TileEnd c (srcEnd c.record) (s.tensor? c.ctx (srcEnd c.record).tid) x mc slot lo exts ∧
          Claims.BoxEnd s c (dstEnd c.record) y lo' exts' ∧ ebits y.efmt = ebits x.efmt ∧ boxElems c.record x.rank = c.done + 1 ∧
          s.mcore? (c.ctx, mc) = some m ∧ m.resident = true ∧ m.viewOpen = false ∧ m.moving = false ∧ (m.tile slot).state = st :=
      ⟨withTile (run 0xF0000 2) { rTile with state := st }, _, _, tile, two, 0, 0, _, _, _, _, _, ⟨⟨rfl, rfl⟩, rfl, h0⟩,
        ⟨(by decide +kernel), h, rfl, rfl, rfl⟩, ⟨(by decide +kernel), h2, fun _ _ h => (by cases h), rfl, rfl⟩, (by decide +kernel), (by decide +kernel), rfl, rfl, rfl, rfl, rfl⟩
    intro st h
    simp only [List.mem_cons, List.not_mem_nil, or_false] at h
    rcases h with rfl | rfl
    · exact at_ _ (by decide +kernel) (by decide +kernel) (by decide +kernel)
    · exact at_ _ (by decide +kernel) (by decide +kernel) (by decide +kernel)
  · intro armed
    cases armed
    · exact ⟨withTile (run 2 0xF0000) rTile, _, _, two, tile, 0, 0, _, _, _, _, _, ⟨⟨rfl, rfl⟩, rfl, (by decide +kernel)⟩,
        ⟨(by decide +kernel), (by decide +kernel), fun _ _ h => (by cases h), rfl, rfl⟩, ⟨(by decide +kernel), (by decide +kernel), rfl, rfl, rfl⟩, (by decide +kernel), (by decide +kernel), (by decide +kernel), rfl, rfl, (by decide +kernel)⟩
    · exact ⟨withTile (run 2 0xF0000) { rTile with own := true, fill := some ⟨64, 64, none, 0, []⟩ }, _, _, two, tile, 0, 0, _, _, _, _, _, ⟨⟨rfl, rfl⟩, rfl, (by decide +kernel)⟩,
        ⟨(by decide +kernel), (by decide +kernel), fun _ _ h => (by cases h), rfl, rfl⟩, ⟨(by decide +kernel), (by decide +kernel), rfl, rfl, rfl⟩, (by decide +kernel), (by decide +kernel), (by decide +kernel), rfl, rfl, (by decide +kernel)⟩

theorem witness_GatherReduceEmitsRows :
    ((∃ (s : State) (c : _) (cs : _) (ti : _) (tw : _) (tv : _) (tO : _), (Claims.Heads s 2 c cs) ∧ (c.started = true) ∧ ((gredRec c.record).dk = false) ∧ (s.tensor? c.ctx (gredRec c.record).idx = some ti) ∧ (s.tensor? c.ctx (gredRec c.record).wgt = some tw) ∧ (s.tensor? c.ctx (gredRec c.record).val = some tv) ∧ (s.tensor? c.ctx (gredRec c.record).out = some tO))) ∧
    ((∃ (s : State) (c : _) (cs : _) (ti : _) (tw : _) (tv : _) (x : CoreCtx), (Claims.Heads s 2 c cs) ∧ (c.started = true) ∧ ((gredRec c.record).dk = true) ∧ (s.tensor? c.ctx (gredRec c.record).idx = some ti) ∧ (s.tensor? c.ctx (gredRec c.record).wgt = some tw) ∧ (s.tensor? c.ctx (gredRec c.record).val = some tv) ∧ (s.core? (c.ctx, (gredRec c.record).core) = some x) ∧ (x.resident = true) ∧ (x.frozen = false) ∧ (let pos := match (gredRec c.record).side with | 0 => 4 | 1 => 55 | 2 => 59 | _ => 8
    (let H := tv.dims.getD 2 0
    (let T := ti.dims.getD 0 0
    (let nb := ((H + 1) / 2 + 7) / 8
    (x.beatsAt pos < 2))))))) ∧
   (∃ (s : State) (c : Cmd) (cs : List Cmd) (ti tw tv tO : Tensor), Claims.Heads s 2 c cs ∧ c.started = true ∧ (gredRec c.record).dk = false ∧
      s.tensor? c.ctx (gredRec c.record).idx = some ti ∧ s.tensor? c.ctx (gredRec c.record).wgt = some tw ∧
      s.tensor? c.ctx (gredRec c.record).val = some tv ∧ s.tensor? c.ctx (gredRec c.record).out = some tO ∧
      ∃ k < (gredRec c.record).k, ∃ h < tv.dims.getD 2 0, let e := Claims.expert s c.ctx ti c.done k
        let p := Claims.earlier s c.ctx ti (gredRec c.record).k c.done k e
        let w := fp32.decode (s.element c.ctx tw [c.done, k])
        let v := (valFmt tv.efmt).decode (s.element c.ctx tv [e.toNat, p, h])
        0 ≤ e ∧ e < (tv.dims.getD 0 0 : Int) ∧ p < tv.dims.getD 1 0 ∧ w.isNan = false ∧ v.isNan = false ∧ w.mul v = none) := by
  refine ⟨?_, ?_, ?_⟩
  · exact ⟨engState 2 { aCmd 2 gredRecord with started := true }, _, _, ⟨1, 2, [1, 1], 2, true, true, false, .hbm [6]⟩, ⟨2, 2, [1, 1], 5, true, true, false, .hbm [6]⟩, ⟨3, 3, [1, 1, 1], 6, true, true, false, .hbm [6]⟩,
      ⟨4, 2, [1, 1], 5, true, true, false, .hbm [6]⟩, ⟨rfl, rfl⟩, rfl, (by decide +kernel), (by decide +kernel), (by decide +kernel), (by decide +kernel), (by decide +kernel)⟩
  · exact ⟨engState 2 { aCmd 2 gredStream with started := true }, _, _, ⟨1, 2, [1, 1], 2, true, true, false, .hbm [6]⟩, ⟨2, 2, [1, 1], 5, true, true, false, .hbm [6]⟩, ⟨3, 3, [1, 1, 1], 6, true, true, false, .hbm [6]⟩,
      _, ⟨rfl, rfl⟩, rfl, (by decide +kernel), (by decide +kernel), (by decide +kernel), (by decide +kernel), rfl, rfl, rfl, (by decide +kernel)⟩
  · exact ⟨(engState 2 { aCmd 2 gredRecord with started := true }).setElement 0 ⟨3, 3, [1, 1, 1], 6, true, true, false, .hbm [6]⟩ [0, 0, 0] 0x7F80,
      _, _, ⟨1, 2, [1, 1], 2, true, true, false, .hbm [6]⟩, ⟨2, 2, [1, 1], 5, true, true, false, .hbm [6]⟩, ⟨3, 3, [1, 1, 1], 6, true, true, false, .hbm [6]⟩,
      ⟨4, 2, [1, 1], 5, true, true, false, .hbm [6]⟩, ⟨rfl, rfl⟩, rfl, (by decide +kernel), (by decide +kernel), (by decide +kernel), (by decide +kernel), (by decide +kernel),
      0, (by decide), 0, (by decide), (by decide +kernel)⟩

theorem witness_RoutingWrites : (∃ (s : State) (c : _) (cs : _) (sc : _) (ti : _) (tw : _) (th : _) (ts : _), (Claims.Heads s 3 c cs) ∧ (s.routeCheck c = none) ∧ (let g := routeCmd c.record
    (s.tensor? c.ctx g.score = some sc) ∧ (s.tensor? c.ctx g.idx = some ti) ∧ (s.tensor? c.ctx g.wgt = some tw) ∧ (s.tensor? c.ctx g.hist = some th) ∧ (s.tensor? c.ctx g.stat = some ts))) :=
  ⟨engState 3 (aCmd 3 routeRecord), _, _, ⟨2, 2, [1, 1], 5, true, true, false, .hbm [6]⟩, ⟨1, 2, [1, 1], 2, true, true, false, .hbm [6]⟩, ⟨4, 2, [1, 1], 5, true, true, false, .hbm [6]⟩,
  ⟨5, 1, [1], 3, true, true, false, .hbm [6]⟩, ⟨6, 1, [1], 0, true, true, false, .hbm [6]⟩, ⟨rfl, rfl⟩, (by decide +kernel), (by decide +kernel), (by decide +kernel), (by decide +kernel), (by decide +kernel), (by decide +kernel)⟩

theorem witness_RoutingWeights :
    (∃ (xs sel : List Nat), let inf := sel.filter fun e => fp32.decode (xs.getD e 0) == .inf false
      inf ≠ [] ∧ inf.length ≤ 8 ∧ inf.length < sel.length) ∧
    (∃ (xs sel : List Nat) (x : Nat) (n : Bool) (m : Nat) (e : Int), fp32.decode x = .num n m e ∧ sel.length ≤ 8 ∧ 1 < sel.length ∧
      ∀ i ∈ sel, xs.getD i 0 = x) ∧
    (∃ (xs : List Nat) (i : Nat) (n : Bool) (m : Nat) (e : Int), fp32.decode (xs.getD i 0) = .num n m e) := by
  refine ⟨⟨[0x7F800000, 0], [0, 1], by decide, by decide, by decide⟩, ⟨[0, 0], [0, 1], 0, _, _, _, rfl, by decide, by decide, by decide⟩,
    ⟨[0], 0, _, _, _, rfl⟩⟩
/-- R337 where there are fewer cores than experts with tokens. -/
theorem witness_PlacementShares : placeCores [6, 0, 2, 24] 2 = [1, 0, 0, 1] := by decide +kernel
/-- R332, Table 21.5: the weights of the token with scores 4, 0, 4. -/
theorem test_routing_weights : routeWeights false [0, 0x40800000, 0, 0x40800000] [1, 3] = [0x3F000000, 0x3F000000] := by decide +kernel

theorem witness_CollectivesReduce :
    ((∃ (s : State) (c : _) (cs : _) (e : _), (Claims.Heads s 4 c cs) ∧ (c.started = false) ∧ (s.collCheck c = none) ∧ (let g := collCmd c.record
    (s.fabric.groupOf g.group = some e)))) ∧
    (∀ first : Bool, ∃ (s : State) (c : Cmd) (cs : List Cmd) (e : GroupEnt), Claims.Heads s 4 c cs ∧ c.started = true ∧
      let g := collCmd c.record
      let w := s.fabric.coll g.group c.ordinal
      s.fabric.groupOf g.group = some e ∧ (∀ r < e.n, (w.heads.get? r).isSome = true) ∧
        (∃ h ∈ w.heads, h.2 ≠ g.head) ∧ (w.heads.all fun h => h.2.toNat % 256 == g.head.toNat % 256) = !first) ∧
    ((∃ (s : State) (c : _) (cs : _) (e : _) (tn : _), (Claims.Heads s 4 c cs) ∧ (c.started = true) ∧ (c.done ≠ 0) ∧ (let g := collCmd c.record
    (let w := s.fabric.coll g.group c.ordinal
    (let data (r : Nat) : Memory := ((w.datas.get? r).map (·.1)).getD []
    (let n := g.count
    (s.fabric.groupOf g.group = some e) ∧ ((∀ r < e.n, (w.heads.get? r).isSome = true)) ∧ ((∀ h ∈ w.heads, h.2 = g.head)) ∧ ((∀ r < e.n, g.srcLen e.n ≤ ((w.datas.get? r).map (·.2)).getD 0)) ∧ (s.tensor? c.ctx g.dst = some tn))))))) ∧
    (∀ root < 2, ∃ (s : State) (c : Cmd) (cs : List Cmd) (e : GroupEnt) (tn : Tensor), Claims.Heads s 4 c cs ∧ c.started = true ∧ c.done = 0 ∧
      let g := collCmd c.record
      let w := s.fabric.coll g.group c.ordinal
      s.fabric.groupOf g.group = some e ∧ (∀ r < e.n, (w.heads.get? r).isSome = true) ∧ (∀ h ∈ w.heads, h.2 = g.head) ∧
        s.tensor? c.ctx g.src = some tn ∧ w.datas.get? e.rank = none ∧ e.root = root) := by
  refine ⟨?_, ?_, ?_, ?_⟩
  · exact ⟨engState 4 (aCmd 4 collRecord), _, _, ⟨true, 2, 0, 1⟩, ⟨rfl, rfl⟩, rfl, (by decide +kernel), (by decide +kernel)⟩
  · let at_ (x : W64) : State := { engState 4 { aCmd 4 collRecord with started := true } with
      fabric := { lab.fabric with groups := [(0, ⟨true, 2, 0, 1⟩)], colls := [⟨0, 0, [(0, 0x4000#64), (1, x)], [], [], false⟩] } }
    intro first
    cases first
    · exact ⟨at_ 0x4100#64, _, _, ⟨true, 2, 0, 1⟩, ⟨rfl, rfl⟩, rfl, (by decide +kernel), (by decide +kernel), (by decide +kernel), (by decide +kernel)⟩
    · exact ⟨at_ 1#64, _, _, ⟨true, 2, 0, 1⟩, ⟨rfl, rfl⟩, rfl, (by decide +kernel), (by decide +kernel), (by decide +kernel), (by decide +kernel)⟩
  · exact ⟨{ engState 4 { aCmd 4 collRecord with started := true, done := 1 } with fabric := { lab.fabric with groups := [(0, ⟨true, 2, 0, 1⟩)], colls := [⟨0, 0, [(0, 0x4000#64), (1, 0x4000#64)], [(0, ([], 64)), (1, ([], 64))], [], false⟩] } },
      _, _, ⟨true, 2, 0, 1⟩, _, ⟨rfl, rfl⟩, rfl, (by decide +kernel), (by decide +kernel), (by decide +kernel), (by decide +kernel), (by decide +kernel), rfl⟩
  · let at_ (root : Nat) : State := { engState 4 { aCmd 4 collRecord with started := true } with fabric := { lab.fabric with
        groups := [(0, ⟨true, 2, 0, root⟩)], colls := [⟨0, 0, [(0, 0x4000#64), (1, 0x4000#64)], [], [], false⟩] } }
    intro root hr
    match root, hr with
    | 0, _ => exact ⟨at_ 0, _, _, ⟨true, 2, 0, 0⟩, _, ⟨rfl, rfl⟩, rfl, rfl, (by decide +kernel), (by decide +kernel), (by decide +kernel), rfl, rfl, rfl⟩
    | 1, _ => exact ⟨at_ 1, _, _, ⟨true, 2, 0, 1⟩, _, ⟨rfl, rfl⟩, rfl, rfl, (by decide +kernel), (by decide +kernel), (by decide +kernel), rfl, rfl, rfl⟩

theorem witness_EngineCompletionsReport :
    (∃ (s : State) (c : Cmd) (cs : List Cmd) (res fl det : Nat) (tn : Tensor), s.engines.get? (s.here.pos, s.here.idx) = some (c :: cs) ∧
      c.result = some (res, fl, det) ∧ c.fromSeq = none ∧ Claims.CounterFree s c ∧ s.cmdDue c (res, fl, det) = false ∧
      s.tensor? c.ctx c.tid = some tn ∧ tn.loc = .flat ∧ c.off + 64 ≤ 2 ^ 48 ∧ s.flat.wf = true ∧ (s.team? c.ctx).isSome = true) ∧
    (∃ (s : State) (c : Cmd) (cs : List Cmd) (fl det mc pc : Nat) (m : MCoreCtx), s.engines.get? (s.here.pos, s.here.idx) = some (c :: cs) ∧
      c.result = some (0, fl, det) ∧ c.fromSeq = some (mc, pc) ∧ Claims.CounterFree s c ∧ s.cmdDue c (0, fl, det) = false ∧
      s.mcore? (c.ctx, mc) = some m) ∧
    (∃ (s : State) (c : Cmd) (cs : List Cmd) (res fl det mc pc : Nat) (m : MCoreCtx) (tm : Team) (p : Nat),
      s.engines.get? (s.here.pos, s.here.idx) = some (c :: cs) ∧ c.result = some (res, fl, det) ∧ res ≠ 0 ∧ c.fromSeq = some (mc, pc) ∧
      s.mcore? (c.ctx, mc) = some m ∧ s.team? c.ctx = some tm ∧ tm.freePos (mc / 2) = some p ∧ m.raised = [] ∧ s.flat.wf = true) ∧
    (∃ (s : State) (c : Cmd) (cs : List Cmd) (fl det : Nat) (x : CoreCtx), s.engines.get? (s.here.pos, s.here.idx) = some (c :: cs) ∧
      c.result = some (0, fl, det) ∧ c.engine = 2 ∧
      let g := gredRec c.record
      let pos := match g.side with | 0 => 4 | 1 => 55 | 2 => 59 | _ => 8
      g.dk = true ∧ s.core? (c.ctx, g.core) = some x ∧ ∃ f ∈ x.flights, ∃ toks last, f.cargo = .beat pos g.port toks (.gred c.id) last) := by
  refine ⟨?_, ?_, ?_, ?_⟩
  · exact ⟨engState 1 { aCmd 1 (copyRecord 0 0) with result := some (0, 0, 1), ctr := some (0, 15) }, _, _, _, _, _, _, rfl, rfl, rfl, fun mc i h => (by cases h; intro m hm; cases hm; exact ⟨rfl, rfl, rfl⟩),
      (by decide +kernel), rfl, rfl, (by decide +kernel), (by decide +kernel), (by decide +kernel)⟩
  · exact ⟨engState 1 { aCmd 1 (copyRecord 0 0) with result := some (0, 0, 1), ctr := some (0, 15), fromSeq := some (0, 0) }, _, _, _, _, _, _, _, rfl, rfl, rfl, fun mc i h => (by cases h; intro m hm; cases hm; exact ⟨rfl, rfl, rfl⟩),
      (by decide +kernel), rfl⟩
  · exact ⟨engState 1 { aCmd 1 (copyRecord 0 0) with result := some (1, 0, 1), fromSeq := some (0, 0) }, _, _, _, _, _, _, _, _, _, 0, rfl, rfl, (by decide +kernel), rfl, rfl, rfl, (by decide +kernel), rfl, (by decide +kernel)⟩
  · exact ⟨(engState 2 { aCmd 2 gredStream with result := some (0, 0, 1) }).modCore (0, 0) fun c => { c with
        flights := [⟨3, 0, 0, .beat 4 0 [] (.gred 0) true⟩] }, _, _, _, _, _, rfl, rfl, rfl, (by decide +kernel), rfl, _, List.mem_cons_self, _, _, rfl⟩

theorem witness_CuratorPlaces :
    let H (away : Bool) : Prop := ∃ (s : State) (c : CoreCtx) (p : Nat) (tm : Team) (r : List W64) (tid : Nat) (tn : Tensor) (n : List Nat),
      s.core? s.key = some c ∧ c.walker.mark = .placing tid r ∧ c.walker.pos = some p ∧ s.team? s.here.ctx = some tm ∧
      s.movesOn s.key c = true ∧
      let w := (r.getD 0 0#64).toNat
      let M := w % 16 + 1
      let hist := w / 16 % 2 ^ 20
      let base := w / 2 ^ 24 % 2 ^ 16
      let C := w / 2 ^ 40 % 2 ^ 16
      let block := (r.getD 5 0#64).toNat % 2 ^ 20
      let cores := placeCores n C
      let variants := (List.range M).map fun i =>
        placeVariant (parseBlock ((tm.blocks.get? block).getD [])) (n.getD i 0) (cores.getD i 0)
      s.tensor? s.here.ctx tid = some tn ∧ tn.loc = .flat ∧ s.flat.wf = true ∧
      (∀ h, s.tensor? s.here.ctx hist = some h → s.tileAway s.here.ctx h = false) ∧
      w / 2 ^ 56 = 0 ∧ (r.getD 5 0#64).toNat / 2 ^ 20 = 0 ∧ r.getD 6 0#64 = 0#64 ∧ r.getD 7 0#64 = 0#64 ∧ base + C ≤ tm.cores ∧
      n.length = M ∧
      (∀ i < M, s.histAt s.here.ctx hist ((r.getD (1 + i / 4) 0#64).extractLsb' (16 * (i % 4)) 16).toInt = some (n.getD i 0)) ∧
      ((Claims.placed base cores variants).foldlM (fun (u : State) x => u.cacheBlock s.here.ctx x.1 block) s).isNone = away
    H false ∧ H true ∧
    (∃ (b : Block) (n k v : Nat) (y : Variant), 0 < k ∧ v = placeVariant b n k ∧ b.variants[v]? = some y ∧
      ∃ z ∈ b.variants, z.unroll ≤ max 1 (n / (16 * k))) ∧
    (∀ absent : Bool, ∃ (s : State) (c : CoreCtx) (p : Nat) (tm : Team) (q : Nat) (r : List W64) (tid : Nat), s.core? s.key = some c ∧
      c.walker.mark = .placing tid r ∧ c.walker.pos = some p ∧ s.team? s.here.ctx = some tm ∧ s.movesOn s.key c = true ∧
      (∀ x ∈ [tid, (r.getD 0 0#64).toNat / 16 % 2 ^ 20], ∀ h, s.tensor? s.here.ctx x = some h → s.tileAway s.here.ctx h = false) ∧
      (if absent then s.tensor? s.here.ctx tid = none else (r.getD 0 0#64).toNat / 2 ^ 56 ≠ 0) ∧
      r.length = 8 ∧ tm.freePos (s.here.core / 2) = some q ∧ s.flat.wf = true ∧ c.raised = []) ∧
    (∃ (s : State) (c : CoreCtx) (tid : Nat) (r : List W64) (p : Nat) (tm : Team), s.core? s.key = some c ∧ c.walker.mark = .placing tid r ∧
      c.walker.pos = some p ∧ s.team? s.here.ctx = some tm ∧ s.movesOn s.key c = false) ∧
    (∃ (s : State) (c : CoreCtx) (tid : Nat) (r : List W64) (p : Nat) (tm : Team) (h : Tensor), s.core? s.key = some c ∧
      c.walker.mark = .placing tid r ∧ c.walker.pos = some p ∧ s.team? s.here.ctx = some tm ∧ s.tensor? s.here.ctx tid = some h ∧
      s.tileAway s.here.ctx h = true) := by
  let w0 : List W64 := [0x20000000000#64, 100#64, 0#64, 0#64, 0#64, 0#64, 0#64, 0#64]
  let at_ (tid : Nat) (r : List W64) (g : State → State) : State :=
    g { walkState (fun w => { w with mark := .placing tid r }) with flat := [(5, 2#8), (8, 100#8), (100, 6#8)] }
  have here (s : State) (tid : Nat) (h : State.tensor? s s.here.ctx tid = none ∨
      ∃ x, State.tensor? s s.here.ctx tid = some x ∧ s.tileAway s.here.ctx x = false) :
      ∀ y, s.tensor? s.here.ctx tid = some y → s.tileAway s.here.ctx y = false := by
    intro y hy
    rcases h with h | ⟨x, h, hx⟩
    · rw [h] at hy; cases hy
    · rw [h] at hy; cases hy; exact hx
  let roomy : State := at_ 0 w0 fun s => s.modTeam 0 fun t => { t with blocks := [(0, aBlock 0)] }
  let full : State := at_ 0 w0 fun s => (((s.modTeam 0 fun t => { t with blocks := [(0, aBlock 0)] }).modCore (0, 0) fun c => { c with
    runs := [{ runFor 9 with block := 6 }] }).modPhys 0 fun p => { p with cache := [⟨0, 6, 8192, none, 0⟩] })
  let odd : State := at_ 0 (0x100000000000000#64 :: w0.drop 1) id
  let none7 : State := at_ 7 w0 id
  refine ⟨?_, ?_, ?_, ?_, ?_, ?_⟩
  · exact ⟨roomy, _, _, _, w0, 0, _, [6], rfl, rfl, rfl, rfl, (by decide +kernel), rfl, rfl,
      (by decide +kernel), here roomy (BitVec.toNat (w0.getD 0 0#64) / 16 % 2 ^ 20) (Or.inr ⟨⟨0, 1, [2 ^ 48], 0, true, true, false, .flat⟩, (by decide +kernel), (by decide +kernel)⟩), (by decide +kernel), (by decide +kernel), rfl, rfl, (by decide +kernel), (by decide +kernel), (by decide +kernel), (by decide +kernel)⟩
  · exact ⟨full, _, _, _, w0, 0, _, [6], rfl, rfl, rfl, rfl, (by decide +kernel), rfl, rfl,
      (by decide +kernel), here full (BitVec.toNat (w0.getD 0 0#64) / 16 % 2 ^ 20) (Or.inr ⟨⟨0, 1, [2 ^ 48], 0, true, true, false, .flat⟩, (by decide +kernel), (by decide +kernel)⟩), (by decide +kernel), (by decide +kernel), rfl, rfl, (by decide +kernel), (by decide +kernel), (by decide +kernel), (by decide +kernel)⟩
  · exact ⟨parseBlock (aBlock 0), 16, 1, _, _, (by decide), rfl, rfl, _, List.mem_cons_self, (by decide +kernel)⟩
  · intro absent
    have both (s : State) (a b : Nat) (ha : State.tensor? s s.here.ctx a = none ∨ ∃ x, State.tensor? s s.here.ctx a = some x ∧ s.tileAway s.here.ctx x = false)
        (hb : State.tensor? s s.here.ctx b = none ∨ ∃ x, State.tensor? s s.here.ctx b = some x ∧ s.tileAway s.here.ctx x = false) :
        ∀ x ∈ [a, b], ∀ h, s.tensor? s.here.ctx x = some h → s.tileAway s.here.ctx h = false := by
      intro x hx
      simp only [List.mem_cons, List.not_mem_nil, or_false] at hx
      rcases hx with rfl | rfl
      · exact here s _ ha
      · exact here s _ hb
    cases absent
    · exact ⟨odd, _, _, _, 0, _, _, rfl, rfl, rfl, rfl, (by decide +kernel),
        both odd 0 (BitVec.toNat ((0x100000000000000#64 :: w0.drop 1).getD 0 0#64) / 16 % 2 ^ 20) (Or.inr ⟨⟨0, 1, [2 ^ 48], 0, true, true, false, .flat⟩, (by decide +kernel), (by decide +kernel)⟩) (Or.inr ⟨⟨0, 1, [2 ^ 48], 0, true, true, false, .flat⟩, (by decide +kernel), (by decide +kernel)⟩), (by decide +kernel), rfl, (by decide +kernel), (by decide +kernel), rfl⟩
    · exact ⟨none7, _, _, _, 0, _, _, rfl, rfl, rfl, rfl, (by decide +kernel),
        both none7 7 (BitVec.toNat (w0.getD 0 0#64) / 16 % 2 ^ 20) (Or.inl (by decide +kernel)) (Or.inr ⟨⟨0, 1, [2 ^ 48], 0, true, true, false, .flat⟩, (by decide +kernel), (by decide +kernel)⟩), (by rw [if_pos rfl]; decide +kernel), rfl, (by decide +kernel), (by decide +kernel), rfl⟩
  · exact ⟨at_ 0 w0 fun s => s.modCore (0, 0) fun c => { c with frozen := true }, _, _, _, _, _, rfl, rfl, rfl, rfl, (by decide +kernel)⟩
  · exact ⟨(withTile (at_ 0xF0000 w0 id) aTile).modMcore (0, 0) fun m => { m with viewOpen := true }, _, 0xF0000, _, _, _, ⟨0xF0000, 2, [1, 64], 0, true, true, false, .tile 0 0⟩, rfl, rfl, rfl, rfl, (by decide +kernel), (by decide +kernel)⟩

theorem witness_MessagesAreTakenOrRejected :
    ((∃ (s : State) (q : _) (ch : _) (bs : _) (rs : _), (s.host.reqs = .send q ch bs :: rs) ∧ (s.mgmt.ready = true) ∧ (s.off = false) ∧ (ch < 16 ∨ s.serviceTeam ch = none ∨ ∃ n < 16, Claims.rowsOf s ch = some n) ∧ (ch < 256))) ∧
    (∃ (s : State) (q ch : Nat) (bs : List Byte) (rs : List HostReq), s.host.reqs = .send q ch bs :: rs ∧ s.mgmt.ready = true ∧ s.off = false ∧
      16 ≤ ch ∧ Claims.rowsOf s ch = some 15 ∧ ch < 256) ∧
    (∃ (s : State) (q ch : Nat) (bs : List Byte) (rs : List HostReq), s.host.reqs = .send q ch bs :: rs ∧ s.mgmt.ready = false) ∧
    (∃ (s : State) (q ch : Nat) (bs : List Byte) (rs : List HostReq), s.host.reqs = .send q ch bs :: rs ∧ s.mgmt.ready = true ∧ 16 ≤ ch ∧
      ∃ n, 16 ≤ n ∧ Claims.rowsOf s ch = some n) ∧
    ((∃ (s : State) (m : Msg) (ms : _), (s.disp.inbox = m :: ms) ∧ (m.chan = 0) ∧ (m.good = false))) ∧
    ((∃ (s : State) (m : Msg) (ms : List Msg), s.disp.inbox = m :: ms ∧ m.chan = 1) ∧ (∃ (s : State) (m : Msg) (ms : List Msg), s.disp.inbox = m :: ms ∧ m.chan = 15)) ∧
    ((∃ (s : State) (m : Msg) (ms : _), (s.disp.inbox = m :: ms) ∧ (16 ≤ m.chan) ∧ (s.serviceTeam m.chan = none) ∧ (s.here.val ≠ 1))) ∧
    ((∃ m : Msg, m.toks.length = 1 ∧ (m.tok 0).toNat % 256 = 0x02)) ∧
    ((∃ m : Msg, (m.tok 0).toNat % 256 ∉ [0x01, 0x02, 0x03, 0x04, 0x10, 0x11, 0x12, 0x13, 0x14, 0x15, 0x16])) := by
  let full (n : Nat) : State :=
    { (withTile lab { rTile with system := true, mode := .fifo, ret := 0, rows := 15, count := n }).modTeam 0 (fun t =>
        { t with launch := { t.launch with svc := true, sch := 16, sys := true, sslot := 0 } }) with
      host := { lab.host with reqs := [.send 3 16 (List.replicate 8 1#8)] }, mgmt := { lab.mgmt with ready := true } }
  refine ⟨?_, ?_, ?_, ?_, ?_, ?_, ?_, ?_, ?_⟩
  · exact ⟨{ lab with host := { lab.host with reqs := [.send 3 0 [1#8]] }, mgmt := { lab.mgmt with ready := true } }, _, _, _, _, rfl, rfl, rfl, Or.inl (by decide +kernel), (by decide +kernel)⟩
  · exact ⟨full 15, _, _, _, _, rfl, rfl, rfl, (by decide), (by decide +kernel), (by decide)⟩
  · exact ⟨{ lab with host := { lab.host with reqs := [.send 3 0 [1#8]] } }, _, _, _, _, rfl, rfl⟩
  · exact ⟨full 16, _, _, _, _, rfl, rfl, (by decide), 16, (by decide), (by decide +kernel)⟩
  · exact ⟨dispState lab (aMsg 0 [0#64]), _, _, rfl, rfl, (by decide +kernel)⟩
  · exact ⟨⟨dispState lab (aMsg 1 [0#64]), _, _, rfl, rfl⟩, ⟨dispState lab (aMsg 15 [0#64]), _, _, rfl, rfl⟩⟩
  · exact ⟨dispState lab (aMsg 16 [0#64]), _, _, rfl, (by decide +kernel), (by decide +kernel), (by decide +kernel)⟩
  · exact ⟨aMsg 0 [2#64], rfl, (by decide +kernel)⟩
  · exact ⟨aMsg 0 [0#64], (by decide +kernel)⟩

theorem witness_TeamCommandsActOnTheirTeam :
    (∀ x ∈ [0x02, 0x03, 0x04], ∃ s m ms, Claims.Commanded s x m ms ∧ (x = 0x04 → s.here.val ≠ 1) ∧ s.team? (Claims.named m) = none) ∧
    (∃ s m ms tm, Claims.Commanded s 0x03 m ms ∧ s.team? (Claims.named m) = some tm) ∧
    (∀ held < 2, ∃ s m ms tm c, Claims.Commanded s 0x04 m ms ∧ s.here.val ≠ 1 ∧ s.team? (Claims.named m) = some tm ∧
      (m.tok 0).toNat / 2 ^ 48 < 2 * tm.launch.quads ∧ s.core? (Claims.named m, (m.tok 0).toNat / 2 ^ 48) = some c ∧ c.walker.bch.length + c.walker.bounds.length = 15 + held ∧
      ∀ x ∈ s.disp.bounds, x.1 ≠ (Claims.named m, (m.tok 0).toNat / 2 ^ 48)) ∧
    (∀ held < 2, ∃ (s : State) (k : Key) (v : W64) (xs : List (Key × W64)) (c : CoreCtx), s.here.val = 1 ∧ s.disp.bounds = (k, v) :: xs ∧
      (∀ x ∈ xs, x.1 ≠ k) ∧ s.core? k = some c ∧ c.walker.bch.length + c.walker.bounds.length = 15 + held) ∧
    (∃ s m ms tm, Claims.Commanded s 0x04 m ms ∧ s.here.val ≠ 1 ∧ s.team? (Claims.named m) = some tm ∧
      (m.tok 0).toNat / 2 ^ 48 < 2 * tm.launch.quads ∧ s.core? (Claims.named m, (m.tok 0).toNat / 2 ^ 48) = none) ∧
    (∃ s m ms tm, Claims.Commanded s 0x04 m ms ∧ s.here.val ≠ 1 ∧ s.team? (Claims.named m) = some tm ∧
      2 * tm.launch.quads ≤ (m.tok 0).toNat / 2 ^ 48) ∧
    (∃ s m ms tm, Claims.Commanded s 0x02 m ms ∧ s.team? (Claims.named m) = some tm ∧ (tm.phase = .running ∨ tm.phase = .parked) ∧
      tm.ending = none) ∧
    (∃ s m ms tm, Claims.Commanded s 0x02 m ms ∧ s.team? (Claims.named m) = some tm ∧ tm.phase = .waiting) ∧
    (∃ s m ms tm, Claims.Commanded s 0x02 m ms ∧ s.team? (Claims.named m) = some tm ∧ tm.phase = .ending) := by
  have two (P : Nat → Prop) (h0 : P 0) (h1 : P 1) : ∀ n < 2, P n := fun n h => match n, h with
    | 0, _ => h0
    | 1, _ => h1
  let bound (n : Nat) : State :=
    (dispState lab (aMsg 0 [4#64, 0#64])).modCore (0, 0) fun c => { c with walker := { c.walker with bounds := List.replicate n 0#64 } }
  let kept (n : Nat) : State := { bound n with here := place 0 0 1, disp := { (bound n).disp with bounds := [((0, 0), 1#64)] } }
  refine ⟨?_, ?_, two _ ?_ ?_, two _ ?_ ?_, ?_, ?_, ?_, ?_, ?_⟩
  · exact by
      intro x hx
      simp only [List.mem_cons, List.not_mem_nil, or_false] at hx
      obtain rfl | rfl | rfl := hx
      · exact ⟨dispState State.reset (aMsg 0 [2#64]), _, _, ⟨rfl, rfl, by decide +kernel, by decide +kernel⟩, (by decide), rfl⟩
      · exact ⟨dispState State.reset (aMsg 0 [3#64]), _, _, ⟨rfl, rfl, by decide +kernel, by decide +kernel⟩, (by decide), rfl⟩
      · exact ⟨dispState State.reset (aMsg 0 [4#64, 0#64]), _, _, ⟨rfl, rfl, by decide +kernel, by decide +kernel⟩, fun _ => (by decide +kernel), rfl⟩
  · exact ⟨comState 3 id, _, _, _, ⟨rfl, rfl, (by decide +kernel), (by decide +kernel)⟩, rfl⟩
  · exact ⟨bound 15, _, _, _, _, ⟨rfl, rfl, (by decide +kernel), (by decide +kernel)⟩, (by decide +kernel), rfl, (by decide +kernel), rfl, rfl, fun _ h => absurd h List.not_mem_nil⟩
  · exact ⟨bound 16, _, _, _, _, ⟨rfl, rfl, (by decide +kernel), (by decide +kernel)⟩, (by decide +kernel), rfl, (by decide +kernel), rfl, rfl, fun _ h => absurd h List.not_mem_nil⟩
  · exact ⟨kept 15, _, _, _, _, rfl, rfl, fun _ h => absurd h List.not_mem_nil, rfl, rfl⟩
  · exact ⟨kept 16, _, _, _, _, rfl, rfl, fun _ h => absurd h List.not_mem_nil, rfl, rfl⟩
  · exact ⟨dispState lab (aMsg 0 [0x1000000000004#64, 0#64]), _, _, _, ⟨rfl, rfl, (by decide +kernel), (by decide +kernel)⟩, (by decide +kernel), rfl, (by decide +kernel), (by decide +kernel)⟩
  · exact ⟨dispState lab (aMsg 0 [0x2000000000004#64, 0#64]), _, _, _, ⟨rfl, rfl, (by decide +kernel), (by decide +kernel)⟩, (by decide +kernel), rfl, (by decide +kernel)⟩
  · exact ⟨comState 2 id, _, _, _, ⟨rfl, rfl, (by decide +kernel), (by decide +kernel)⟩, rfl, Or.inl rfl, rfl⟩
  · exact ⟨comState 2 fun t => { t with phase := .waiting }, _, _, _, ⟨rfl, rfl, (by decide +kernel), (by decide +kernel)⟩, rfl, rfl⟩
  · exact ⟨comState 2 fun t => { t with phase := .ending }, _, _, _, ⟨rfl, rfl, (by decide +kernel), (by decide +kernel)⟩, rfl, rfl⟩

theorem witness_LaunchesStartTeams :
    ((∃ (s : State) (m : Msg) (ms : _), (Claims.Commanded s 0x01 m ms) ∧ (s.recordGood m.toks = false) ∧ (s.destOk (launchRec m.toks) = true))) ∧
    ((∃ (s : State) (m : Msg) (ms : _) (tm : _) (ctx : _) (s2 : _) (tm2 : _) (ps : _), (Claims.Commanded s 0x01 m ms) ∧ (s.recordGood m.toks = true) ∧ (let l := launchRec m.toks
    (s.disp.waiting = []) ∧ (s.disp.restores = []) ∧ ((∀ p ∈ s.cores, p.1.1 ≠ ctx)) ∧ ((∀ p ∈ s.mcores, p.1.1 ≠ ctx)) ∧ (Claims.Starts { s with disp := { s.disp with inbox := ms, waiting := [⟨l, none, m.src, s.disp.arrivals⟩], arrivals := s.disp.arrivals + 1 } } l s.disp.arrivals tm ctx s2 tm2 ps)))) ∧
    ((∃ (s : State) (w : _) (tm : _) (ctx : _) (s2 : _) (tm2 : _) (ps : _), (s.disp.waiting = [w]) ∧ (s.disp.restores = []) ∧ (w.ctx = none) ∧ ((∀ p ∈ s.cores, p.1.1 ≠ ctx)) ∧ ((∀ p ∈ s.mcores, p.1.1 ≠ ctx)) ∧ (Claims.Starts s w.launch w.arrival tm ctx s2 tm2 ps))) ∧
    ((∃ (s : State) (w : _) (st : _) (d : _), (s.disp.waiting = [w]) ∧ (s.disp.restores = []) ∧ (w.ctx = none) ∧ ((∃ ctx < 64, s.team? ctx = none)) ∧ (s.imageTeam w.launch = .inl (st, d)) ∧ (w.launch.dk = true))) ∧
    (∃ (s : State) (m : Msg) (ms : List Msg) (w : Waiting) (tm : Team) (ctx : Nat) (s2 : State) (tm2 : Team) (ps : List Nat),
      Claims.Commanded s 0x01 m ms ∧ s.recordGood m.toks = true ∧ (launchRec m.toks).pri ≤ w.launch.pri ∧ s.disp.waiting = [w] ∧
      s.disp.restores = [] ∧ w.ctx = none ∧ w.arrival < s.disp.arrivals ∧ (∀ p ∈ s.cores, p.1.1 ≠ ctx) ∧ (∀ p ∈ s.mcores, p.1.1 ≠ ctx) ∧
      Claims.Starts { s with disp := { s.disp with
        inbox := ms, waiting := [w, ⟨launchRec m.toks, none, m.src, s.disp.arrivals⟩], arrivals := s.disp.arrivals + 1 } }
        w.launch w.arrival tm ctx s2 tm2 ps) := by
  refine ⟨?_, ?_, ?_, ?_, ?_⟩
  · exact ⟨dispState lab (aMsg 0 [0x10000000001#64, 1#64, 0#64, 0#64, 0#64, 0#64, 0#64, 0#64]), _, _, ⟨rfl, rfl, (by decide +kernel), (by decide +kernel)⟩, (by decide +kernel), (by decide +kernel)⟩
  · exact ⟨launchState, aMsg 0 (launchWords 0), [], _, 0, _, _, _, ⟨rfl, rfl, (by decide +kernel), (by decide +kernel)⟩, (by decide +kernel), rfl, rfl, (by decide +kernel), (by decide +kernel),
      starts (waitState aLaunch) aLaunch (by decide +kernel)  rfl (by decide +kernel)  (by decide +kernel)  (by decide +kernel)  (by decide +kernel)  (by decide +kernel)  (by decide +kernel) (by decide +kernel)⟩
  · exact ⟨waitState aLaunch, _, _, 0, _, _, _, rfl, rfl, rfl, (by decide +kernel), (by decide +kernel), starts (waitState aLaunch) aLaunch (by decide +kernel) rfl (by decide +kernel) (by decide +kernel) (by decide +kernel) (by decide +kernel) (by decide +kernel) (by decide +kernel) (by decide +kernel)⟩
  · exact ⟨waitState { aLaunch with image := 8192 }, _, 0x02, 0#64, rfl, rfl, rfl, ⟨0, (by decide +kernel), (by decide +kernel)⟩, (by decide +kernel), (by decide +kernel)⟩
  · let s : State := { launchState with disp := { launchState.disp with waiting := [⟨aLaunch, none, .host 3, 0⟩], arrivals := 1 } }
    let u : State := { s with disp := { s.disp with
      inbox := [], waiting := [⟨aLaunch, none, .host 3, 0⟩, ⟨aLaunch, none, .host 3, 1⟩], arrivals := 2 } }
    exact ⟨s, aMsg 0 (launchWords 0), [], _, _, 0, _, _, _, ⟨rfl, rfl, (by decide +kernel), (by decide +kernel)⟩, (by decide +kernel), (by decide +kernel), rfl, rfl, rfl,
      (by decide +kernel), (by decide +kernel), (by decide +kernel), starts u aLaunch (by decide +kernel) rfl (by decide +kernel) (by decide +kernel)
        (by decide +kernel) (by decide +kernel) (by decide +kernel) (by decide +kernel) (by decide +kernel)⟩

theorem witness_TeamsEnd :
    (∃ (s : State) (tm : Team), s.team? s.here.ctx = some tm ∧ tm.phase = .running ∧ tm.evicted = [] ∧ tm.launch.svc = false ∧
      (∀ p ∈ s.cores, p.1.1 = s.here.ctx → Claims.AtRest p.2) ∧ Claims.Delivered s s.here.ctx) ∧
    (∃ (s : State) (tm : Team), s.team? s.here.ctx = some tm ∧ tm.phase = .running ∧ tm.launch.svc = true ∧
      ∀ p ∈ s.cores, p.1.1 = s.here.ctx → Claims.Resting p.2) ∧
    (∃ (s : State) (tm : Team) (p : Key × CoreCtx) (r : Run), s.team? s.here.ctx = some tm ∧ tm.phase = .ending ∧
      p ∈ ((s.dropOpen s.here.ctx).dropStuck s.here.ctx).cores ∧ p.1.1 = s.here.ctx ∧ r ∈ p.2.runs ∧ r.ended ≠ []) ∧
    (∃ (s : State) (tm : Team) (k : Key) (c : CoreCtx) (r : Run), s.team? s.here.ctx = some tm ∧ tm.phase = .ending ∧ s.cores = [(k, c)] ∧
      k.1 = s.here.ctx ∧ c.runs = [r] ∧ r.spec = false ∧ r.reissue = false ∧ (∀ b ∈ c.buf, b.run = r.id) ∧ r.ended = [] ∧ r.inputs = [] ∧
      c.buf ≠ []) ∧
    (∃ (s : State) (tm : Team) (st code idx : Nat), s.team? s.here.ctx = some tm ∧ tm.phase = .ending ∧
      tm.ending = some (st + 256 * code + 65536 * idx) ∧ st < 256 ∧ code < 256 ∧ ∀ p ∈ s.cores, p.1.1 = s.here.ctx → p.2.runs = []) := by
  let ending (s : State) : State := s.modTeam 0 fun t => { t with phase := .ending, ending := some 0x070106 }
  refine ⟨?_, ?_, ?_, ?_, ?_⟩
  · exact ⟨{ lab with here := place 0 0 0 }, _, rfl, rfl, rfl, rfl, fun p hp _ => (by
        obtain rfl := List.mem_singleton.mp hp
        exact ⟨rfl, rfl, by decide, rfl, rfl, rfl, rfl, rfl⟩), ⟨fun _ h => absurd h List.not_mem_nil, fun _ h => absurd h List.not_mem_nil⟩⟩
  · exact ⟨{ (lab.modTeam 0 fun t => { t with launch := { t.launch with svc := true } }) with here := place 0 0 0 }, _, rfl, rfl, rfl, fun p hp _ => (by
        obtain rfl := List.mem_singleton.mp hp
        exact ⟨rfl, rfl, by decide⟩)⟩
  · exact ⟨ending (coreState (fun c => { c with runs := [{ runFor 9 with group := 1, ended := [0] }], buf := [⟨0, 0, 4, .store 0 [16] 8 5#64, true⟩] }) (place 0 0 0)),
      _, _, _, rfl, rfl, List.mem_cons_self, rfl, List.mem_cons_self, (by decide +kernel)⟩
  · exact ⟨ending (coreState (fun c => { c with runs := [runFor 9], buf := [⟨0, 0, 4, .store 0 [16] 8 5#64, true⟩] }) (place 0 0 0)),
      _, _, _, _, rfl, rfl, rfl, rfl, rfl, rfl, rfl, (by decide +kernel), rfl, rfl, (by decide +kernel)⟩
  · exact ⟨ending lab, _, 6, 1, 7, rfl, rfl, (by decide +kernel), (by decide +kernel), (by decide +kernel), (by decide +kernel)⟩

theorem witness_ServiceMessagesReachTheirTeam :
    ((∃ (s : State) (msg : _) (ms : _) (ctx : _) (tm : Team) (m : MCoreCtx), (s.here.val ≠ 1) ∧ (s.disp.inbox = msg :: ms) ∧ (16 ≤ msg.chan) ∧ (msg.toks.length ≤ 8) ∧ (s.serviceTeam msg.chan = some ctx) ∧ (s.team? ctx = some tm) ∧ (s.mcore? (ctx, 0) = some m) ∧ (tm.launch.sys = true) ∧ (tm.sysQueue = []) ∧ (m.resident = true) ∧ (m.viewOpen = false) ∧ (m.moving = false) ∧ (m.window.wf = true) ∧ (let x := m.tile tm.launch.sslot
    (x.mode = .fifo) ∧ (x.rowb = 0) ∧ (x.partialRow = 0) ∧ (x.count ≤ x.rows) ∧ (tm.launch.sctr < 16)))) ∧
    ((∃ (s : State) (msg : _) (ms : _) (ctx : _) (tm : Team) (m : MCoreCtx), (s.here.val ≠ 1) ∧ (s.disp.inbox = msg :: ms) ∧ (16 ≤ msg.chan) ∧ (s.serviceTeam msg.chan = some ctx) ∧ (s.team? ctx = some tm) ∧ (s.mcore? (ctx, 0) = some m) ∧ (tm.launch.sys = true) ∧ (tm.sysQueue ≠ []) ∧ (tm.phase = .running) ∧ ∃ p ∈ s.cores, p.1.1 = ctx ∧ ¬ Claims.Resting p.2)) := by
  refine ⟨?_, ?_⟩
  · exact ⟨(dispState (lab.modTeam 0 fun t => { t with launch := { t.launch with svc := true, sch := 16, sys := true } }) (aMsg 16 [0#64])).modMcore (0, 0) fun m => { m with tiles := [(0, { rTile with system := true, mode := .fifo, rowb := 0 })] },
      _, _, 0, _, _, (by decide +kernel), rfl, (by decide +kernel), (by decide +kernel), rfl, rfl, rfl, rfl, rfl, rfl, rfl, rfl, (by decide +kernel), (by decide +kernel), (by decide +kernel), (by decide +kernel), (by decide +kernel), (by decide +kernel)⟩
  · exact ⟨(dispState (lab.modTeam 0 fun t => { t with launch := { t.launch with svc := true, sch := 16, sys := true }, sysQueue := [[0#64]] }) (aMsg 16 [0#64])).modCore (0, 0) fun c => { c with walker := { c.walker with pos := some 3 } },
      _, _, 0, _, _, (by decide +kernel), rfl, (by decide +kernel), rfl, rfl, rfl, rfl, (by decide +kernel), rfl, _, List.mem_cons_self, rfl, fun h => absurd h.1 (by decide)⟩

theorem witness_QuadsAreEvictedAndRestored :
    ((∃ (s : State) (tm : Team) (q : _), (s.team? s.here.ctx = some tm) ∧ (s.here.idx = q) ∧ (tm.phase = .running) ∧ (tm.launch.cap = true) ∧ (tm.launch.ft = false) ∧ (q < tm.launch.quads) ∧ (q ∉ tm.evicted) ∧ (q ∉ tm.leaving))) ∧
    ((∃ (s : State) (tm : Team) (q : _), (s.team? s.here.ctx = some tm) ∧ (s.here.idx = q) ∧ (tm.phase = .running) ∧ (tm.launch.cap = true) ∧ (tm.launch.ft = false) ∧ (q < tm.launch.quads) ∧ (q ∉ tm.evicted) ∧ (q ∈ tm.leaving) ∧ (s.quadQuiet s.here.ctx q = true))) ∧
    ((∃ (s : State) (tm : Team) (q : _) (p : _), (s.team? s.here.ctx = some tm) ∧ (s.here.idx = q) ∧ (tm.phase ≠ .ending) ∧ (tm.powerOut = false) ∧ (tm.launch.cap = true) ∧ (tm.launch.ft = false) ∧ (q < tm.place.length) ∧ (q ∈ tm.evicted) ∧ (tm.resumes = []) ∧ (s.findQuads s.here.ctx tm Config.quads 1 0 = [p]))) := by
  refine ⟨?_, ?_, ?_⟩
  · exact ⟨{ (lab.modTeam 0 fun t => { t with launch := { t.launch with cap := true, ft := false } }) with here := place 0 0 0 }, _, 0, rfl, rfl, rfl, rfl, rfl, (by decide +kernel), (by decide +kernel), (by decide +kernel)⟩
  · exact ⟨{ (lab.modTeam 0 fun t => { t with launch := { t.launch with cap := true, ft := false }, leaving := [0] }) with here := place 0 0 0 }, _, 0, rfl, rfl, rfl, rfl, rfl, (by decide +kernel), (by decide +kernel), (by decide +kernel), (by decide +kernel)⟩
  · exact ⟨{ (lab.modTeam 0 fun t => { t with launch := { t.launch with cap := true, ft := false, wsize := 16 }, evicted := [0] }) with here := place 0 0 0, phys := [], physM := [] }, _, 0, 0, rfl, rfl, (by decide +kernel), rfl, rfl, rfl, (by decide +kernel), (by decide +kernel), rfl, (by decide +kernel)⟩

theorem witness_ForegroundFollowsPriority :
    ∀ other : Bool, ∃ (s : State) (f o : Nat), let p := s.physOf s.here.idx
      (p.res = [f, o] ∨ p.res = [o, f]) ∧ f ≠ o ∧ p.fg = some f ∧ s.fixedTiming f = false ∧ s.fixedTiming o = false ∧
      s.runnable (s.keyOn f s.here.idx) = true ∧ s.placeable (s.keyOn o s.here.idx) = other ∧
      ((s.core? (s.keyOn f s.here.idx)).map (·.walker.yielded)).getD false = true := by
  let one : Team := { (teamOf lab) with launch := { (teamOf lab).launch with ft := false } }
  let x : CoreCtx := { CoreCtx.init with runs := [runFor 9], resident := true, walker := { Walker.init with yielded := true } }
  let s (xs : Assoc Key CoreCtx) : State :=
    { lab.modPhys 0 (fun p => { p with res := [0, 1], fg := some 0 }) with here := place 0 0 0, teams := [(0, one), (1, one)], cores := ((0, 0), x) :: xs }
  intro other
  cases other
  · exact ⟨s [], 0, 1, Or.inl (by decide +kernel), (by decide +kernel), (by decide +kernel), (by decide +kernel), (by decide +kernel), (by decide +kernel), (by decide +kernel), (by decide +kernel)⟩
  · exact ⟨s [((1, 0), x)], 0, 1, Or.inl (by decide +kernel), (by decide +kernel), (by decide +kernel), (by decide +kernel), (by decide +kernel), (by decide +kernel), (by decide +kernel), (by decide +kernel)⟩

theorem witness_FramesMove : (∃ (s : State) (ctx : _) (tm : _) (tid : _) (tile : _) (g : _), (let f := s.here.idx
    (s.teams = [(ctx, tm)]) ∧ (tm.frames = [((tid, tile), f)]) ∧ (f ∈ s.frames) ∧ (s.hbm.wf = true) ∧ (s.freeFrames (s.frames.length + Config.hbmChannels + 2) 1 0 = [g]))) :=
  ⟨{ (lab.modTeam 0 fun t => { t with frames := [((5, 0), 0)] }) with here := place 0 0 0, frames := [0] }, 0, _, 5, 0, 1, rfl, rfl, (by decide +kernel), (by decide +kernel), (by decide +kernel)⟩

theorem witness_BarriersComplete :
    (∃ (s : State) (tm : Team) (b0 : Barrier), s.team? s.here.ctx = some tm ∧ tm.bars[s.here.idx]? = some b0 ∧
      tm.bar? b0.scope b0.unit b0.num = some b0 ∧ (b0.scope = 2 ∨ b0.scope = 3 ∨ b0.scope = 4) ∧
      let b := s.barNow s.here.ctx b0
      (∀ a ∈ b.arrived, a.core ∈ tm.participants b.scope b.unit) ∧ (∀ c ∈ tm.participants b.scope b.unit, ∃ f ∈ b.full, f.1 = c) ∧
      (∀ a ∈ b.arrived, ¬ Claims.Held b a → a.valid = true) ∧ b.arrived.Pairwise (fun x y => x.core ≠ y.core ∨ x.pos ≠ y.pos) ∧
      ∃ a ∈ b.arrived, a.pos < 64 ∧ 3 ≤ a.pu ∧ a.pu ≤ 5 ∧ a.pn < 8 ∧ ∃ c e, s.core? (s.here.ctx, a.core) = some c ∧ c.elem? a.pos = some e ∧
        e.run = some a.run) ∧
    (∃ (s : State) (ctx : Nat) (b : Barrier) (a : Arrival) (c : CoreCtx), 2 ≤ b.scope ∧ a ∈ b.arrived ∧ a.pos ≠ 64 ∧
      s.core? (ctx, a.core) = some c ∧ c.enrolledOf a.run b.scope b.num ≠ [] ∧
      ∀ p ∈ c.enrolledOf a.run b.scope b.num, ∃ x ∈ b.arrived, x.core = a.core ∧ x.run = a.run ∧ x.pos = p) ∧
    (∃ (s : State) (tm : Team) (b : Barrier), s.team? s.here.ctx = some tm ∧ tm.bars[s.here.idx]? = some b ∧ s.barNow s.here.ctx b = b ∧
      2 ≤ b.scope ∧ (∃ c ∈ tm.participants b.scope b.unit, ∀ f ∈ b.full, f.1 ≠ c) ∧
      ∀ a ∈ b.arrived, a.core ∈ tm.participants b.scope b.unit) ∧
    (∃ (s : State) (tm : Team) (b : Barrier), s.team? s.here.ctx = some tm ∧ tm.bars[s.here.idx]? = some b ∧ s.barNow s.here.ctx b = b ∧
      2 ≤ b.scope ∧ (∃ a ∈ b.arrived, ¬ Claims.Held b a ∧ a.valid = false) ∧
      ∀ a ∈ b.arrived, a.core ∈ tm.participants b.scope b.unit) := by
  let e : Elem := { labElem (.bars, barsOp) (word 0#8 0#8 0#2 0#3 28#5 16#5 17#5 false false 0#3 0#3) 0#64 with
    consts := Vector.replicate 4 (2#64, .i64) }
  let w : Arrival := ⟨0, 64, 0, 0, false, 0, false, true⟩
  let x (valid : Bool) : Arrival := ⟨1, 9, 3, 7, false, 0, true, valid⟩
  let b (arrived : List Arrival) (full : List (Nat × Option Nat)) : Barrier := ⟨2, (0, 0), 2, 0, arrived, full, false⟩
  let s (b : Barrier) : State := (twoCores fun t => { t with bars := [b] }).modCore (0, 1) fun c => { c with elems := [(9, e)], runs := [runFor 9] }
  have free (valid : Bool) (full : List (Nat × Option Nat)) (h : (1, some 0) ∉ full) : ¬ Claims.Held (b [w, x valid] full) (x valid) :=
    fun hh => h hh.1
  refine ⟨?_, ?_, ?_, ?_⟩
  · exact ⟨s (b [w, x true] [(0, none), (1, some 0)]), _, b [w, x true] [(0, none), (1, some 0)], rfl, (by decide +kernel), (by decide +kernel), Or.inl rfl, (by decide +kernel), (by decide +kernel),
      fun a ha _ => (by decide +kernel : ∀ a ∈ ((s (b [w, x true] [(0, none), (1, some 0)])).barNow 0 (b [w, x true] [(0, none), (1, some 0)])).arrived, a.valid = true) a ha,
      (by decide +kernel), x true, (by decide +kernel), (by decide +kernel), (by decide +kernel), (by decide +kernel), (by decide +kernel), _, _, rfl, rfl, rfl⟩
  · exact ⟨s (b [w, x true] []), 0, b [w, x true] [], x true, _, (by decide +kernel), (by decide +kernel), (by decide +kernel), rfl, (by decide +kernel), (by decide +kernel)⟩
  · exact ⟨s (b [w] [(0, none)]), _, b [w] [(0, none)], rfl, (by decide +kernel), (by decide +kernel), (by decide +kernel), (by decide +kernel), (by decide +kernel)⟩
  · exact ⟨(twoCores fun t => { t with bars := [b [w, x false] [(0, none)]] }), _, b [w, x false] [(0, none)], rfl, (by decide +kernel), (by decide +kernel), (by decide +kernel),
      ⟨x false, (by decide +kernel), free false _ (by decide), rfl⟩, (by decide +kernel)⟩

theorem witness_DebuggersNeedTheirTeam : ∀ x ∈ Claims.debugCommands, ∃ s m ms tm, Claims.Commanded s x.1 m ms ∧ s.team? (Claims.named m) = some tm ∧ tm.phase = .waiting :=
  by
  intro x hx
  simp only [Claims.debugCommands, List.mem_cons, List.not_mem_nil, or_false] at hx
  obtain rfl | rfl | rfl | rfl | rfl | rfl | rfl := hx
  · exact ⟨comState 0x10 fun t => { t with phase := .waiting }, _, _, _, ⟨rfl, rfl, by decide +kernel, by decide +kernel⟩, rfl, rfl⟩
  · exact ⟨comState 0x11 fun t => { t with phase := .waiting }, _, _, _, ⟨rfl, rfl, by decide +kernel, by decide +kernel⟩, rfl, rfl⟩
  · exact ⟨comState 0x12 fun t => { t with phase := .waiting }, _, _, _, ⟨rfl, rfl, by decide +kernel, by decide +kernel⟩, rfl, rfl⟩
  · exact ⟨comState 0x13 fun t => { t with phase := .waiting }, _, _, _, ⟨rfl, rfl, by decide +kernel, by decide +kernel⟩, rfl, rfl⟩
  · exact ⟨comState 0x14 fun t => { t with phase := .waiting }, _, _, _, ⟨rfl, rfl, by decide +kernel, by decide +kernel⟩, rfl, rfl⟩
  · exact ⟨comState 0x15 fun t => { t with phase := .waiting }, _, _, _, ⟨rfl, rfl, by decide +kernel, by decide +kernel⟩, rfl, rfl⟩
  · exact ⟨comState 0x16 fun t => { t with phase := .waiting }, _, _, _, ⟨rfl, rfl, by decide +kernel, by decide +kernel⟩, rfl, rfl⟩

theorem witness_CoresFreezeAndResume :
    ((∃ (s : State) (m : Msg) (ms : _) (tm : _) (n : _) (c : CoreCtx) (p : _) (q : _), (Claims.Debugs s 0x11 m ms tm) ∧ (Claims.OneCore m tm n) ∧ (s.core? (Claims.named m, n) = some c) ∧ (c.frozen = false) ∧ (c.raised = []) ∧ (c.ringFull = false) ∧ (tm.freePos (n / 2) = some p) ∧ (tm.launch.hh = true) ∧ (tm.launch.dk = true) ∧ (m.src = .host q) ∧ (s.flat.wf = true))) ∧
    ((∃ (s : State) (m : Msg) (ms : _) (tm : Team) (n : _) (c : CoreCtx) (r : _), (Claims.Debugs s 0x10 m ms tm) ∧ (Claims.OneCore m tm n) ∧ (s.core? (Claims.named m, n) = some c) ∧ (c.resident = true) ∧ (c.viewOpen = false) ∧ (Claims.HoldsNothing c) ∧ (tm.launch.ft = false) ∧ (Claims.hasRecord tm n r) ∧ ((∀ y ∈ tm.recs, y.core = n → y.code ≠ 0x09 ∧ y.code ≠ 0x07)))) ∧
    ((∃ (s : State) (m : Msg) (ms : _) (tm : _) (n : _) (c : CoreCtx) (r : _), (Claims.Debugs s 0x10 m ms tm) ∧ (Claims.OneCore m tm n) ∧ (s.core? (Claims.named m, n) = some c) ∧ (c.resident = true) ∧ (c.viewOpen = false) ∧ (Claims.HoldsNothing c) ∧ (tm.launch.ft = false) ∧ (tm.recs = [r]) ∧ (r.core = n) ∧ (r.src = 1) ∧ (r.code = 0x09) ∧ (c.walker.pos = some r.node))) ∧
    (∃ (s : State) (m : Msg) (ms : List Msg) (tm : Team) (n : Nat) (c : CoreCtx) (r : OpenRec) (g : Nat) (v : W64), Claims.Debugs s 0x10 m ms tm ∧
      Claims.OneCore m tm n ∧ s.core? (Claims.named m, n) = some c ∧ c.resident = true ∧ c.viewOpen = false ∧ c.les = [] ∧ c.verdicts = [] ∧
      c.walker.decs = [g] ∧ g < 8 ∧ c.walker.bounds = [v] ∧ c.walker.bch.length < 16 ∧
      isBchNode (s.nodeWord (Claims.named m) (v.toNat / 2 ^ 32 % 2 ^ 10)) = false ∧ tm.launch.ft = false ∧ Claims.hasRecord tm n r ∧
      ∀ y ∈ tm.recs, y.core = n → y.code ≠ 0x09 ∧ y.code ≠ 0x07) ∧
    ((∃ (s : State) (m : Msg) (ms : _) (tm : _) (n : _), (Claims.Debugs s 0x10 m ms tm) ∧ (Claims.OneCore m tm n) ∧ ((∀ y ∈ tm.recs, y.src ≠ 3 ∧ ¬ Claims.hasRecord tm n y)))) ∧
    ((∃ (s : State) (m : Msg) (ms : _) (tm : _), (Claims.Debugs s 0x12 m ms tm) ∧ (tm.ending = none))) := by
  refine ⟨?_, ?_, ?_, ?_, ?_, ?_⟩
  · exact ⟨debugState 0x11 [] id, _, _, _, 0, _, 0, 3, ⟨⟨rfl, rfl, (by decide +kernel), (by decide +kernel)⟩, rfl, Or.inl rfl, Or.inl ⟨_, rfl⟩⟩, ⟨(by decide +kernel), (by decide +kernel), (by decide +kernel), (by decide +kernel)⟩, rfl, rfl, rfl, rfl, (by decide +kernel), rfl, rfl, rfl, (by decide +kernel)⟩
  · exact ⟨debugState 0x10 [aRec 0 1] fun c => { c with frozen := true }, _, _, _, 0, _, aRec 0 1, ⟨⟨rfl, rfl, (by decide +kernel), (by decide +kernel)⟩, rfl, Or.inl rfl, Or.inl ⟨_, rfl⟩⟩, ⟨(by decide +kernel), (by decide +kernel), (by decide +kernel), (by decide +kernel)⟩, rfl, rfl, rfl, ⟨rfl, rfl, rfl, rfl⟩, rfl, ⟨List.mem_singleton_self _, rfl, (by decide +kernel), (by decide +kernel)⟩, (by decide +kernel)⟩
  · exact ⟨debugState 0x10 [aRec 1 9] fun c => { c with frozen := true, walker := { c.walker with pos := some 3 } }, _, _, _, 0, _, aRec 1 9, ⟨⟨rfl, rfl, (by decide +kernel), (by decide +kernel)⟩, rfl, Or.inl rfl, Or.inl ⟨_, rfl⟩⟩, ⟨(by decide +kernel), (by decide +kernel), (by decide +kernel), (by decide +kernel)⟩, rfl, rfl, rfl, ⟨rfl, rfl, rfl, rfl⟩, rfl, rfl, rfl, rfl, rfl, rfl⟩
  · exact ⟨debugState 0x10 [aRec 0 1] fun c => { c with frozen := true, walker := { c.walker with decs := [7], bounds := [0#64] } }, _, _, _, 0, _, aRec 0 1, 7, 0#64,
      ⟨⟨rfl, rfl, (by decide +kernel), (by decide +kernel)⟩, rfl, Or.inl rfl, Or.inl ⟨_, rfl⟩⟩, ⟨(by decide +kernel), (by decide +kernel), (by decide +kernel), (by decide +kernel)⟩, rfl, rfl, rfl, rfl, rfl, rfl, (by decide), rfl,
      (by decide +kernel), (by decide +kernel), rfl, ⟨List.mem_singleton_self _, rfl, (by decide +kernel), (by decide +kernel)⟩, (by decide +kernel)⟩
  · exact ⟨debugState 0x10 [] id, _, _, _, 0, ⟨⟨rfl, rfl, (by decide +kernel), (by decide +kernel)⟩, rfl, Or.inl rfl, Or.inl ⟨_, rfl⟩⟩, ⟨(by decide +kernel), (by decide +kernel), (by decide +kernel), (by decide +kernel)⟩, fun _ h => absurd h List.not_mem_nil⟩
  · exact ⟨debugState 0x12 [aRec 0 1] id, _, _, _, ⟨⟨rfl, rfl, (by decide +kernel), (by decide +kernel)⟩, rfl, Or.inl rfl, Or.inl ⟨_, rfl⟩⟩, rfl⟩

theorem witness_ViewsOpenAndClose :
    ((∃ (s : State) (m : Msg) (ms : _) (tm : _) (n : _) (c : CoreCtx) (r : _), (Claims.Debugs s 0x13 m ms tm) ∧ (Claims.OneCore m tm n) ∧ (s.core? (Claims.named m, n) = some c) ∧ (c.resident = true) ∧ (c.flights = []) ∧ (∀ col < 8, (c.staged col).isFull = false) ∧ (Claims.hasRecord tm n r) ∧ (s.flat.wf = true))) ∧
    ((∃ (s : State) (m : Msg) (ms : _) (tm : _) (n : _) (c : CoreCtx) (f : _) (r : _), (Claims.Debugs s 0x13 m ms tm) ∧ (Claims.OneCore m tm n) ∧ (s.core? (Claims.named m, n) = some c) ∧ (Claims.hasRecord tm n r) ∧ (f ∈ c.flights) ∧ ((∀ pos p k h b, f.cargo ≠ .beat pos p k h b)))) ∧
    ((∃ (s : State) (m : Msg) (ms : _) (tm : _) (n : _) (c : CoreCtx) (r : _), (Claims.Debugs s 0x14 m ms tm) ∧ (Claims.OneCore m tm n) ∧ (s.core? (Claims.named m, n) = some c) ∧ (c.viewOpen = true) ∧ (Claims.hasRecord tm n r) ∧ (c.viewFail s.flat (Claims.viewOf tm n) = none))) ∧
    ((∃ s m ms tm n c r, Claims.Debugs s 0x14 m ms tm ∧ Claims.OneCore m tm n ∧ s.core? (Claims.named m, n) = some c ∧ c.viewOpen = true ∧ Claims.hasRecord tm n r ∧ (c.viewFail s.flat (Claims.viewOf tm n)).isSome = true)) := by
  refine ⟨?_, ?_, ?_, ?_⟩
  · exact ⟨debugState 0x13 [aRec 0 1] fun c => { c with frozen := true }, _, _, _, 0, _, aRec 0 1, ⟨⟨rfl, rfl, (by decide +kernel), (by decide +kernel)⟩, rfl, Or.inl rfl, Or.inl ⟨_, rfl⟩⟩, ⟨(by decide +kernel), (by decide +kernel), (by decide +kernel), (by decide +kernel)⟩, rfl, rfl, rfl, (by decide +kernel), ⟨List.mem_singleton_self _, rfl, (by decide +kernel), (by decide +kernel)⟩, (by decide +kernel)⟩
  · exact ⟨debugState 0x13 [aRec 0 1] fun c => { c with frozen := true, flights := [⟨1, 0, 0, .credit 9 0 0⟩] }, _, _, _, 0, _, ⟨1, 0, 0, .credit 9 0 0⟩, aRec 0 1, ⟨⟨rfl, rfl, (by decide +kernel), (by decide +kernel)⟩, rfl, Or.inl rfl, Or.inl ⟨_, rfl⟩⟩, ⟨(by decide +kernel), (by decide +kernel), (by decide +kernel), (by decide +kernel)⟩, rfl, ⟨List.mem_singleton_self _, rfl, (by decide +kernel), (by decide +kernel)⟩, List.mem_singleton_self _,
      fun _ _ _ _ _ h => by cases h⟩
  · exact ⟨debugState 0x14 [aRec 0 1] fun c => { c with frozen := true, viewOpen := true }, _, _, _, 0, _, aRec 0 1, ⟨⟨rfl, rfl, (by decide +kernel), (by decide +kernel)⟩, rfl, Or.inl rfl, Or.inl ⟨_, rfl⟩⟩, ⟨(by decide +kernel), (by decide +kernel), (by decide +kernel), (by decide +kernel)⟩, rfl, rfl, ⟨List.mem_singleton_self _, rfl, (by decide +kernel), (by decide +kernel)⟩, (by decide +kernel)⟩
  · exact ⟨{ (debugState 0x14 [aRec 0 1] fun c => { c with frozen := true, viewOpen := true, elems := [(9, anElem)] }) with flat := [(4752, 2#8), (4759, 255#8)] }, _, _, _, 0, _, aRec 0 1, ⟨⟨rfl, rfl, (by decide +kernel), (by decide +kernel)⟩, rfl, Or.inl rfl, Or.inl ⟨_, rfl⟩⟩, ⟨(by decide +kernel), (by decide +kernel), (by decide +kernel), (by decide +kernel)⟩, rfl, rfl, ⟨List.mem_singleton_self _, rfl, (by decide +kernel), (by decide +kernel)⟩, (by decide +kernel)⟩

theorem witness_LeasesAndFaultRecordsAreServed :
    ((∃ (s : State) (m : Msg) (ms : _) (tm : _) (l : _) (s2 : _) (tm2 : Team), (Claims.Debugs s 0x15 m ms tm) ∧ (tm.leaseFor (s.flatWords (64 * ((m.tok 0).toNat / 2 ^ 8 % 2 ^ 24 + (m.tok 0).toNat / 2 ^ 38 % 2 ^ 20 * 2 ^ 24)) 8) = some l) ∧ (({ s with disp := { s.disp with inbox := ms } } : State).makeResident (Claims.named m) [l] = some s2) ∧ (s2.team? (Claims.named m) = some tm2))) ∧
    ((∃ (s : State) (m : Msg) (ms : _) (tm : _), (Claims.Debugs s 0x15 m ms tm) ∧ (tm.leaseFor (s.flatWords (64 * ((m.tok 0).toNat / 2 ^ 8 % 2 ^ 24 + (m.tok 0).toNat / 2 ^ 38 % 2 ^ 20 * 2 ^ 24)) 8) = none))) ∧
    ((∃ (s : State) (m : Msg) (ms : _) (tm : Team) (r : _), (Claims.Debugs s 0x16 m ms tm) ∧ (tm.faults.get? ((m.tok 0).toNat / 2 ^ 8 % 2 ^ 6) = some r))) ∧
    ((∃ (s : State) (m : Msg) (ms : _) (tm : _), (Claims.Debugs s 0x16 m ms tm) ∧ (tm.faults.get? ((m.tok 0).toNat / 2 ^ 8 % 2 ^ 6) = none))) := by
  refine ⟨?_, ?_, ?_, ?_⟩
  · exact ⟨{ (debugState 0x15 [] id).modTeam 0 (fun t => { t with descs := [⟨5, 1, 5, true, true, true, 0, [64, 0, 0, 0, 0], [6, 0, 0, 0, 0], 0, 0⟩] }) with flat := [(0, 5#8), (28, 63#8)] },
      _, _, _, ⟨5, [0], [63], true, true⟩, (({ debugState 0x15 [] id with disp := lab.disp, flat := [(0, 5#8), (28, 63#8)] }).modTeam 0 (fun t => { t with descs := [⟨5, 1, 5, true, true, true, 0, [64, 0, 0, 0, 0], [6, 0, 0, 0, 0], 0, 0⟩], frames := [((5, 0), 0)] }) : State) |> fun s => { s with frames := [0] }, _, ⟨⟨rfl, rfl, (by decide +kernel), (by decide +kernel)⟩, rfl, Or.inl rfl, Or.inl ⟨_, rfl⟩⟩, (by decide +kernel), (by decide +kernel), rfl⟩
  · exact ⟨debugState 0x15 [] id, _, _, _, ⟨⟨rfl, rfl, (by decide +kernel), (by decide +kernel)⟩, rfl, Or.inl rfl, Or.inl ⟨_, rfl⟩⟩, (by decide +kernel)⟩
  · exact ⟨(debugState 0x16 [] id).modTeam 0 fun t => { t with faults := [(0, ⟨1, 0, false, 0, 0, [0], 0, 4, 0⟩)] }, _, _, _, _, ⟨⟨rfl, rfl, (by decide +kernel), (by decide +kernel)⟩, rfl, Or.inl rfl, Or.inl ⟨_, rfl⟩⟩, rfl⟩
  · exact ⟨debugState 0x16 [] id, _, _, _, ⟨⟨rfl, rfl, (by decide +kernel), (by decide +kernel)⟩, rfl, Or.inl rfl, Or.inl ⟨_, rfl⟩⟩, rfl⟩

theorem witness_ProbesProveDeadlocks :
    ((∃ (s : State) (c : _) (e : _) (g : _), (Claims.At s c e) ∧ (s.awaited s.key s.here.pos = some g) ∧ (4096 < e.blocked) ∧ (e.blocked % 4096 = 1) ∧ (e.edge = g.code))) ∧
    ((∃ (s : State) (c : CoreCtx) (g : _), (s.core? s.key = some c) ∧ (s.awaited s.key s.here.pos = some g) ∧ (s.here.pos ≠ s.here.idx) ∧ (s.here.val < 64))) ∧
    ((∃ (s : State) (c : CoreCtx) (g : _), (s.core? s.key = some c) ∧ (s.here.pos ≠ s.here.idx) ∧ ((s.awaited s.key s.here.pos = none ∨ (s.awaited s.key s.here.pos = some g ∧ 64 ≤ s.here.val))))) ∧
    ((∃ (s : State) (c : CoreCtx) (g : _) (h : _) (v : _) (x : _) (tm : Team) (p : _), (s.core? s.key = some c) ∧ (s.here.idx = s.here.pos) ∧ (c.frozen = false) ∧ (s.awaited s.key s.here.pos = some g) ∧ (g.target ≠ s.here.pos) ∧ (s.awaited s.key g.target = some h) ∧ (h.target = s.here.pos) ∧ (v = max s.here.pos g.target) ∧ (s.awaited s.key v = some x) ∧ (s.team? s.here.ctx = some tm) ∧ ((∀ r ∈ tm.recs, r.code ≠ 0x08)) ∧ (tm.freePos (s.here.core / 2) = some p) ∧ (s.flat.wf = true) ∧ (c.raised = []) ∧ (c.ringFull = false))) := by
  refine ⟨?_, ?_, ?_, ?_⟩
  · exact ⟨loopState (place 9 0 0), _, _, ⟨0, 10, false, 0⟩, ⟨rfl, rfl⟩, (by decide +kernel), (by decide +kernel), (by decide +kernel), rfl⟩
  · exact ⟨loopState (place 9 10 1), _, ⟨0, 10, false, 0⟩, rfl, (by decide +kernel), (by decide +kernel), (by decide +kernel)⟩
  · exact ⟨loopState (place 9 10 64), _, ⟨0, 10, false, 0⟩, rfl, (by decide +kernel), Or.inr ⟨(by decide +kernel), (by decide +kernel)⟩⟩
  · exact ⟨loopState (place 9 9 2), _, ⟨0, 10, false, 0⟩, ⟨0, 9, false, 0⟩, 10, ⟨0, 9, false, 0⟩, _, 0, rfl, rfl, rfl, (by decide +kernel), (by decide +kernel), (by decide +kernel), rfl, (by decide +kernel), (by decide +kernel), rfl, (by decide +kernel), (by decide +kernel), (by decide +kernel), rfl, rfl⟩

theorem witness_HangsAndErrorsStopTeams :
    (∀ ph ∈ [Phase.running, .parked], ∃ (s : State) (tm : Team), s.team? s.here.ctx = some tm ∧ tm.phase = ph ∧
      2 ^ tm.launch.wd ≤ tm.watchdog ∧ tm.recs = [] ∧ (∀ n < 2 * tm.launch.quads, s.foreground (s.here.ctx, n) = true) ∧
      tm.launch.hh = true ∧ tm.launch.dk = true) ∧
    (∃ (s : State) (tm : Team), s.team? s.here.ctx = some tm ∧ tm.phase = .running ∧ tm.watchdog < 2 ^ tm.launch.wd) ∧
    (∃ (s : State) (tm : Team) (p : Nat), s.team? s.here.ctx = some tm ∧ tm.phase = .running ∧ tm.ending = none ∧ s.here.pos ≠ 5 ∧
      s.here.pos ≠ 6 ∧ s.here.pos ≠ 8 ∧ s.here.val ≠ 1 ∧ tm.freePos (s.here.core / 2) = some p ∧ tm.launch.hh = true ∧ s.flat.wf = true ∧
      ∀ c, s.core? s.key = some c → ∀ r ∈ c.runs, r.spec = false) ∧
    (∃ (s : State) (tm : Team) (c : CoreCtx) (e : Elem) (r : Run), s.team? s.here.ctx = some tm ∧ tm.phase = .running ∧ tm.ending = none ∧
      s.here.pos ≤ 2 ∧ s.here.val ≠ 1 ∧ s.core? s.key = some c ∧ c.elem? s.here.idx = some e ∧ e.run = some r.id ∧ c.runs = [r] ∧
      r.spec = true ∧ r.reissue = false) := by
  refine ⟨?_, ?_, ?_, ?_⟩
  · intro ph _
    exact ⟨twoCores fun t => { t with watchdog := 2 ^ 24, phase := ph }, _, rfl, rfl, Nat.le_refl (2 ^ 24), rfl,
      (by decide +kernel : ∀ n < 2, (twoCores id).foreground (0, n) = true), rfl, rfl⟩
  · exact ⟨twoCores id, _, rfl, rfl, (by decide +kernel)⟩
  · exact ⟨twoCores id, _, 0, rfl, rfl, rfl, (by decide +kernel), (by decide +kernel), (by decide +kernel), (by decide +kernel), (by decide +kernel), rfl, (by decide +kernel), fun c h => by
      cases h; exact fun _ h => absurd h List.not_mem_nil⟩
  · exact ⟨coreState (fun c => { c with elems := [(9, anElem)], runs := [specRunFor 9] }) (place 2 9 0), _, _, _, _, rfl, rfl, rfl, (by decide), (by decide), rfl, rfl, rfl, rfl, rfl, rfl⟩

theorem witness_ResourcesAreWithdrawn :
    (∃ (s : State) (k : ResKind) (n : Nat), (∀ x ∈ s.health.res, x.2.leased = true → x.1.2 / perDie x.1.1 ≠ s.here.idx) ∧
      s.nextTest s.here.idx = some (k, n)) ∧
    (∃ (s : State) (die : Nat) (k : ResKind) (n n' : Nat), (∀ x ∈ s.health.res, x.2.score ≤ 0xFFFF) ∧ s.nextTest die = some (k, n) ∧
      n' / perDie .core = die ∧ (s.res .core n').inService = true ∧ s.stuckHalf .core n' = false) ∧
    (∃ (s : State) (x : (ResKind × Nat) × Resource), x ∈ s.health.res ∧ x.2.leased = true ∧ x.1.2 / perDie x.1.1 = s.here.idx) := by
  obtain ⟨k, n, h⟩ := nextTest_some State.reset 0 rfl
  exact ⟨⟨State.reset, k, n, fun _ h => absurd h List.not_mem_nil, h⟩,
    ⟨State.reset, 0, k, n, 0, fun _ h => absurd h List.not_mem_nil, h, rfl, rfl, rfl⟩,
    ⟨testState .core 0 (place 0 0 0), ((.core, 0), ⟨0, 0, true, true, false, 0, 0⟩), List.mem_singleton_self _, rfl, (by decide +kernel)⟩⟩

theorem witness_ScoresRiseAndDecay :
    (∃ s : State, let r := s.res (Claims.resource s.here.pos) s.here.idx
      min (r.score + 32) 0xFFFF < 0xC000 ∧ s.here.val = 0) ∧
    (∃ s : State, let k := Claims.resource s.here.pos
      let r := s.res k s.here.idx
      s.here.val = 0 ∧ 0xC000 ≤ min (r.score + 32) 0xFFFF ∧ k = .linkHalf ∧ r.inService = true ∧
        (s.res .linkHalf (if s.here.idx % 2 = 0 then s.here.idx + 1 else s.here.idx - 1)).inService = true) :=
  ⟨⟨testState .core 0 (place 0 0 0), (by decide +kernel), rfl⟩,
    ⟨testState .linkHalf 0xBFE0 (place 3 0 0), rfl, (by decide +kernel), rfl, rfl, rfl⟩⟩

theorem witness_TestsReturnOrRetire :
    (∃ (s : State) (k : ResKind), Claims.Leased s k ∧ (s.res k s.here.idx).score / 2 < 0xC000 ∧ (s.res k s.here.idx).score < 0xC000 ∧
      s.here.val % 4 = 0) ∧
    (∃ (s : State) (k : ResKind), Claims.Leased s k ∧ Claims.HalfOk s k ∧ (s.res k s.here.idx).score < 0xC000 ∧ s.here.val % 4 = 1 ∧
      0xC000 ≤ min ((s.res k s.here.idx).score + 1024) 0xFFFF) ∧
    (∃ (s : State) (k : ResKind), Claims.Leased s k ∧ Claims.HalfOk s k ∧ (s.res k s.here.idx).score < 0xC000 ∧ s.here.val % 4 = 2) ∧
    (∃ (s : State) (k : ResKind), Claims.Leased s k ∧ Claims.HalfOk s k ∧ 0xC000 ≤ (s.res k s.here.idx).score) ∧
    (∃ s : State, Claims.Leased s .linkHalf ∧ 0xC000 ≤ (s.res .linkHalf s.here.idx).score ∧ ¬ Claims.HalfOk s .linkHalf) := by
  refine ⟨?_, ?_, ?_, ?_, ?_⟩
  · exact ⟨testState .core 5 (place 0 0 0), .core, ⟨rfl, rfl, (by decide +kernel)⟩, (by decide +kernel), (by decide +kernel), (by decide +kernel)⟩
  · exact ⟨testState .core 0xBC00 (place 0 0 1), .core, ⟨rfl, rfl, (by decide +kernel)⟩, fun h => (by cases h), (by decide +kernel), (by decide +kernel), (by decide +kernel)⟩
  · exact ⟨testState .channel 5 (place 5 0 2), .channel, ⟨rfl, rfl, (by decide +kernel)⟩, fun h => (by cases h), (by decide +kernel), (by decide +kernel)⟩
  · exact ⟨testState .core 0xC000 (place 0 0 0), .core, ⟨rfl, rfl, (by decide +kernel)⟩, fun h => (by cases h), (by decide +kernel)⟩
  · exact ⟨{ testState .linkHalf 0xC000 (place 3 0 0) with health := { State.reset.health with
        res := [((.linkHalf, 0), ⟨0xC000, 0, true, true, false, 0, 0⟩), ((.linkHalf, 1), ⟨0, 0, false, false, false, 0, 0⟩)] } },
      ⟨rfl, rfl, (by decide +kernel)⟩, (by decide +kernel), fun h => absurd (h rfl) (by decide +kernel)⟩

theorem witness_HeatMigratesAndStops :
    ((∃ (s : State), (s.off = true))) ∧
    ((∃ (s : State), (s.off = false) ∧ (115 ≤ s.here.val))) ∧
    ((∃ (s : State), (s.off = false))) ∧
    ((∃ (s : State) (ctx : Nat) (tm : Team) (q : Nat), s.off = false ∧ s.here.val < 115 ∧ 95 ≤ s.here.val ∧ Claims.StandsOn s ctx tm q s.here.idx ∧ q < tm.launch.quads)) := by
  refine ⟨?_, ?_, ?_, ?_⟩
  · exact ⟨{ lab with off := true }, rfl⟩
  · exact ⟨{ lab with here := place 0 0 115 }, rfl, (by decide +kernel)⟩
  · exact ⟨lab, rfl⟩
  · exact ⟨{ (lab.modTeam 0 fun t => { t with launch := { t.launch with ft := false } }) with here := place 0 0 95 }, 0, _, 0, rfl, (by decide +kernel), (by decide +kernel), ⟨rfl, rfl, (by decide +kernel), rfl, (by decide +kernel), rfl⟩, (by decide +kernel)⟩

theorem witness_QuadsMigrate :
    ((∃ (s : State) (tm : Team), (s.team? s.here.ctx = some tm))) ∧
    ((∃ (s : State) (tm : Team) (q : _) (m : _) (p : _), (s.team? s.here.ctx = some tm) ∧ (s.here.idx = q) ∧ (tm.phase = .running) ∧ (tm.launch.ft = false) ∧ (q < tm.place.length) ∧ (m ∈ tm.migrations) ∧ (m.lquad = q) ∧ (2 * q ∈ m.reached) ∧ (2 * q + 1 ∈ m.reached) ∧ (s.quadQuiet s.here.ctx q = true) ∧ (s.findQuads s.here.ctx tm Config.quads 1 0 = [p]) ∧ (p ≠ tm.place.getD q 0))) ∧
    ((∃ (s : State) (tm : Team) (q : _) (m : _), (s.team? s.here.ctx = some tm) ∧ (s.here.idx = q) ∧ (tm.phase = .running) ∧ (tm.launch.ft = false) ∧ (tm.launch.cap = true) ∧ (q ∉ tm.leaving) ∧ (q ∉ tm.evicted) ∧ (m ∈ tm.migrations) ∧ (m.lquad = q) ∧ (2 * q ∈ m.reached) ∧ (2 * q + 1 ∈ m.reached) ∧ (s.quadQuiet s.here.ctx q = true) ∧ (s.findQuads s.here.ctx tm Config.quads 1 0 = []))) := by
  refine ⟨?_, ?_, ?_⟩
  · exact ⟨{ lab with here := place 0 0 0 }, _, rfl⟩
  · exact ⟨migState false, _, 0, ⟨0, 1, false, [0, 1], 0⟩, 1, rfl, rfl, rfl, rfl, (by decide +kernel), List.mem_singleton_self _, rfl, (by decide +kernel), (by decide +kernel), (by decide +kernel), (by decide +kernel), (by decide +kernel)⟩
  · exact ⟨{ migState true with teams := (migState true).teams.adjust 0 fun t => { t with launch := { t.launch with wsize := 8193 } } }, _, 0, ⟨0, 1, false, [0, 1], 0⟩, rfl, rfl, rfl, rfl, rfl, (by decide +kernel), (by decide +kernel), List.mem_singleton_self _, rfl, (by decide +kernel), (by decide +kernel), (by decide +kernel), (by decide +kernel)⟩

theorem witness_PowerStepsFollowTheBudget :
    ((∃ (s : State), (Claims.budget s < Claims.estimate s) ∧ (s.power.step = 0))) ∧
    ((∃ (s : State), (Claims.budget s < Claims.estimate s) ∧ (s.power.step = 1))) ∧
    ((∃ (s : State), (Claims.budget s < Claims.estimate s) ∧ (s.power.step = 2))) ∧
    ((∃ (s : State), (Claims.budget s < Claims.estimate s) ∧ (s.power.step = 3) ∧ (s.power.overs + 1 < 10))) ∧
    ((∃ (s : State) (ctx : _) (tm : Team), (Claims.budget s < Claims.estimate s) ∧ (s.power.step = 3) ∧ (s.power.overs = 9) ∧ (s.power.ftout = false) ∧ (s.lowestFixed = some ctx) ∧ (s.team? ctx = some tm))) ∧
    ((∃ (s : State), (Claims.estimate s < Claims.budget s * 9 / 10) ∧ (s.power.unders + 1 < 10))) ∧
    ((∃ (s : State), (Claims.estimate s < Claims.budget s * 9 / 10) ∧ (s.power.unders = 9) ∧ (s.power.ftout = true))) ∧
    ((∃ (s : State), (Claims.estimate s < Claims.budget s * 9 / 10) ∧ (s.power.unders = 9) ∧ (s.power.ftout = false) ∧ (s.power.step ≤ 3))) ∧
    ((∃ (s : State), (Claims.estimate s ≤ Claims.budget s) ∧ (Claims.budget s * 9 / 10 ≤ Claims.estimate s))) := by
  refine ⟨?_, ?_, ?_, ?_, ?_, ?_, ?_, ?_, ?_⟩
  · exact ⟨hotState id, (by decide +kernel), rfl⟩
  · exact ⟨hotState fun p => { p with step := 1 }, (by decide +kernel), rfl⟩
  · exact ⟨hotState fun p => { p with step := 2 }, (by decide +kernel), rfl⟩
  · exact ⟨hotState fun p => { p with step := 3, overs := 8 }, (by decide +kernel), rfl, (by decide +kernel)⟩
  · exact ⟨hotState fun p => { p with step := 3, overs := 9 }, 0, _, (by decide +kernel), rfl, rfl, rfl, (by decide +kernel), rfl⟩
  · exact ⟨coolState id, (by decide +kernel), (by decide +kernel)⟩
  · exact ⟨coolState fun p => { p with unders := 9, ftout := true }, (by decide +kernel), rfl, rfl⟩
  · exact ⟨coolState fun p => { p with unders := 9, step := 3 }, (by decide +kernel), rfl, rfl, (by decide +kernel)⟩
  · exact ⟨coolState fun p => { p with budget := 0 }, (by decide +kernel), (by decide +kernel)⟩

theorem witness_WeightsAreRefitted :
    ((∃ (s : State), (s.here.idx ≠ 1))) ∧
    ((∃ (s : State), (s.here.idx = 1) ∧ (s.power.weights.length = 24) ∧ (s.power.secondTotals.length = 24) ∧ (s.power.p.length = 25) ∧ ((∀ r ∈ s.power.p, r.length = 25)))) := by
  refine ⟨?_, ?_⟩
  · exact ⟨{ lab with here := place 0 0 0 }, (by decide +kernel)⟩
  · exact ⟨{ lab with here := place 0 1 0, power := { lab.power with p := List.replicate 25 (List.replicate 25 0) } }, rfl, rfl, rfl, rfl, fun r h => (by rw [List.eq_of_mem_replicate h]; rfl)⟩

theorem witness_HostReachesTensorsThroughWindows :
    ((∃ (s : State) (rkey : _) (off : _) (bs : _) (rs : _) (tn : _), (s.host.reqs = .write rkey off bs :: rs) ∧ (s.mgmt.ready = true) ∧ (16 ≤ rkey) ∧ (rkey ≤ 79) ∧ (let w := s.mgmt.window (rkey - 16)
    (w.valid = true) ∧ (w.w = true) ∧ (off + bs.length ≤ w.len) ∧ ((∃ tm, s.team? w.ctx = some tm ∧ (tm.phase ≠ .waiting ∨ tm.leasesHeld = true))) ∧ (s.rangeOk w.ctx w.tid (w.base + off) bs.length .store = some tn)))) ∧
    ((∃ (s : State) (rkey : _) (off : _) (len : _) (rs : _) (tn : _), (s.host.reqs = .read rkey off len :: rs) ∧ (s.mgmt.ready = true) ∧ (16 ≤ rkey) ∧ (rkey ≤ 79) ∧ (let w := s.mgmt.window (rkey - 16)
    (w.valid = true) ∧ (off + len ≤ w.len) ∧ ((∃ tm, s.team? w.ctx = some tm ∧ (tm.phase ≠ .waiting ∨ tm.leasesHeld = true))) ∧ (s.rangeOk w.ctx w.tid (w.base + off) len .load = some tn)))) ∧
    ((∃ (s : State) (rkey : _) (off : _) (bs : _) (rs : _), (s.host.reqs = .write rkey off bs :: rs) ∧ (s.mgmt.ready = true) ∧ (16 ≤ rkey) ∧ (rkey ≤ 79) ∧ (Claims.WindowFails s (rkey - 16) off bs.length true))) ∧
    ((∃ (s : State) (rkey : _) (off : _) (len : _) (rs : _), (s.host.reqs = .read rkey off len :: rs) ∧ (s.mgmt.ready = true) ∧ (16 ≤ rkey) ∧ (rkey ≤ 79) ∧ (Claims.WindowFails s (rkey - 16) off len false))) ∧
    (∃ (s : State) (rkey off len : Nat) (rs : List HostReq), s.host.reqs = .read rkey off len :: rs ∧ s.mgmt.ready = true ∧ rkey ≠ 1 ∧
      (rkey < 16 ∨ 79 < rkey)) ∧
    (∃ (s : State) (off : Nat) (bs : List Byte) (rs : List HostReq), s.host.reqs = .image off bs :: rs ∧ s.mgmt.ready = true ∧
      off + bs.length ≤ 2 ^ 48) ∧
    (∃ (s : State) (off : Nat) (bs : List Byte) (rs : List HostReq), s.host.reqs = .image off bs :: rs ∧ s.mgmt.ready = false) ∧
    (∃ (s : State) (k off : Nat) (bs : List Byte) (rs : List HostReq), s.host.reqs = .write k off bs :: rs ∧ s.mgmt.ready = false ∧ k ≠ 1) ∧
    ((∃ (s : State) (rs : _), (s.host.reqs = .refused :: rs))) ∧
    ((∃ (s : State) (off : _) (bs : _) (rs : _), (s.host.reqs = .write 1 off bs :: rs) ∧ (1 ≤ s.mgmt.stage) ∧ (bs.length ≠ 8 ∨ off % 8 ≠ 0))) ∧
    ((∃ (s : State) (off : _) (len : _) (rs : _), (s.host.reqs = .read 1 off len :: rs) ∧ (1 ≤ s.mgmt.stage) ∧ (len ≠ 8 ∨ off % 8 ≠ 0))) := by
  refine ⟨?_, ?_, ?_, ?_, ?_, ?_, ?_, ?_, ?_, ?_, ?_⟩
  · exact ⟨windowState (.write 79 4088 (zeros 8)), 79, _, _, _, ⟨0, 1, [2 ^ 48], 0, true, true, false, .flat⟩, rfl, rfl, (by decide +kernel), (by decide +kernel), rfl, rfl, (by decide +kernel), ⟨_, rfl, Or.inl (by decide +kernel)⟩, (by decide +kernel)⟩
  · exact ⟨windowState (.read 79 4088 8), 79, _, _, _, ⟨0, 1, [2 ^ 48], 0, true, true, false, .flat⟩, rfl, rfl, (by decide +kernel), (by decide +kernel), rfl, (by decide +kernel), ⟨_, rfl, Or.inl (by decide +kernel)⟩, (by decide +kernel)⟩
  · exact ⟨windowState (.write 16 0 (zeros 8)), 16, _, _, _, rfl, rfl, (by decide +kernel), (by decide +kernel), Or.inl rfl⟩
  · exact ⟨windowState (.read 79 4089 8), 79, _, _, _, rfl, rfl, (by decide +kernel), (by decide +kernel), Or.inr (Or.inl (by decide +kernel))⟩
  · exact ⟨windowState (.read 80 0 8), 80, _, _, _, rfl, rfl, (by decide), Or.inr (by decide)⟩
  · exact ⟨windowState (.image 4096 (zeros 8)), _, _, _, rfl, rfl, (by decide +kernel)⟩
  · exact ⟨{ windowState (.image 4096 (zeros 8)) with mgmt := State.reset.mgmt }, _, _, _, rfl, rfl⟩
  · exact ⟨{ windowState (.write 16 0 (zeros 8)) with mgmt := State.reset.mgmt }, 16, _, _, _, rfl, rfl, (by decide)⟩
  · exact ⟨hostState .refused, _, rfl⟩
  · exact ⟨hostState (.write 1 4 (zeros 8)), _, _, _, rfl, (by decide +kernel), Or.inr (by decide +kernel)⟩
  · exact ⟨hostState (.read 1 8 4), _, _, _, rfl, (by decide +kernel), Or.inl (by decide +kernel)⟩

theorem witness_RegistersReadAndWrite :
    ((∃ (s : State) (v : _) (rs : _), (Claims.Writes s 0x000 v rs))) ∧
    ((∃ (s : State) (n : _) (v : _) (rs : _), (n < 64) ∧ (Claims.Writes s (0x1000 + 32 * n) v rs))) ∧
    ((∃ (s : State) (n : _) (v : _) (rs : _), (n < 64) ∧ (Claims.Writes s (0x1008 + 32 * n) v rs))) ∧
    ((∃ (s : State) (n : _) (v : _) (rs : _), (n < 64) ∧ (Claims.Writes s (0x1010 + 32 * n) v rs))) ∧
    ((∃ (s : State) (q : _) (v : _) (rs : _), (1 ≤ q) ∧ (q < 256) ∧ (Claims.Writes s (0x2000 + 8 * q) v rs))) ∧
    ((∃ (s : State) (p : _) (v : _) (rs : _), (p < 96) ∧ (Claims.Writes s (0x18100 + 8 * p) v rs))) ∧
    ((∃ (s : State) (g : _) (v : _) (rs : _), (g < 0x10000) ∧ (Claims.Writes s (0x40000 + 8 * g) v rs))) ∧
    ((∃ (s : State) (rs : List HostReq), 1 ≤ s.mgmt.stage ∧ s.host.reqs = .read 1 0x008 8 :: rs)) ∧
    (∃ (s : State) (i : Nat) (rs : List HostReq), 1 ≤ s.mgmt.stage ∧ i < 24 ∧ s.host.reqs = .read 1 (0x040 + 8 * i) 8 :: rs) ∧
    (∃ (x : W32) (n : Bool) (m : Nat) (e : Int), fp32.decode x.toNat = .num n m e ∧ m ≠ 0) := by
  refine ⟨?_, ?_, ?_, ?_, ?_, ?_, ?_, ?_, ?_, ?_⟩
  · exact ⟨writeState 0, _, _, rfl, (by decide +kernel), (by decide +kernel)⟩
  · exact ⟨writeState (0x1000 + 32 * 63), 63, _, _, (by decide +kernel), rfl, (by decide +kernel), (by decide +kernel)⟩
  · exact ⟨writeState (0x1008 + 32 * 63), 63, _, _, (by decide +kernel), rfl, (by decide +kernel), (by decide +kernel)⟩
  · exact ⟨writeState (0x1010 + 32 * 63), 63, _, _, (by decide +kernel), rfl, (by decide +kernel), (by decide +kernel)⟩
  · exact ⟨writeState (0x2000 + 8 * 255), 255, _, _, (by decide +kernel), (by decide +kernel), rfl, (by decide +kernel), (by decide +kernel)⟩
  · exact ⟨writeState (0x18100 + 8 * 95), 95, _, _, (by decide +kernel), rfl, (by decide +kernel), (by decide +kernel)⟩
  · exact ⟨writeState (0x40000 + 8 * 0xFFFF), 0xFFFF, _, _, (by decide +kernel), rfl, (by decide +kernel), (by decide +kernel)⟩
  · exact ⟨hostState (.read 1 8 8), _, (by decide +kernel), rfl⟩
  · exact ⟨hostState (.read 1 (0x040 + 8 * 23) 8), 23, _, (by decide +kernel), (by decide), rfl⟩
  · exact ⟨0x3F800000#32, _, _, _, rfl, (by decide)⟩

theorem witness_BootMeasuresAndAttests :
    ((∃ (s : State) (imgs : List (List Byte)), (s.mgmt.flash = imgs.map (fun x : List Byte => (true, true, x))) ∧ (imgs.length = 5) ∧ ((∀ i < 5, (imgs.getD i []).length ≤ Claims.limits.getD i 0)))) ∧
    ((∃ (s : State) (i : _) (imgs : List (List Byte)) (a : _) (b : _) (x : _) (rest : _), (s.mgmt.flash = imgs.map (fun x : List Byte => (true, true, x)) ++ (a, b, x) :: rest) ∧ (imgs.length = i) ∧ (i < 5) ∧ ((∀ j < i, (imgs.getD j []).length ≤ Claims.limits.getD j 0)) ∧ ((a = false ∨ b = false ∨ Claims.limits.getD i 0 < x.length)))) ∧
    ((∃ (s : State) (n : _) (v : _) (rs : _), (n < 4) ∧ (Claims.Writes s (0x3200 + 8 * n) v rs))) ∧
    ((∃ (s : State) (v : _) (rs : _), (Claims.Writes s 0x3220 v rs))) ∧
    ((∃ (s : State), (s.mgmt.busy = true))) := by
  refine ⟨?_, ?_, ?_, ?_, ?_⟩
  · exact ⟨State.reset, List.replicate 5 [], rfl, rfl, (by decide +kernel)⟩
  · exact ⟨{ State.reset with mgmt := { State.reset.mgmt with flash := List.replicate 4 (true, true, []) ++ [(true, false, [])] } }, 4, List.replicate 4 [], true, false, [], [], rfl, rfl, (by decide +kernel), (by decide +kernel), Or.inr (Or.inl rfl)⟩
  · exact ⟨writeState (0x3200 + 8 * 3), 3, _, _, (by decide +kernel), rfl, (by decide +kernel), (by decide +kernel)⟩
  · exact ⟨writeState 0x3220, _, _, rfl, (by decide +kernel), (by decide +kernel)⟩
  · exact ⟨{ lab with mgmt := { lab.mgmt with busy := true } }, rfl⟩

theorem witness_HostQueuesKeepTheirOrder :
    ((∃ (s : State) (q : _) (ctx : _) (ws : _), (s.host.out[s.here.idx]? = some (q, ctx, ws)) ∧ ((∃ x ∈ s.host.out.take s.here.idx, x.1 = q)))) ∧
    ((∃ (s : State) (q : _) (ctx : _) (ws : _), (s.host.out[s.here.idx]? = some (q, ctx, ws)) ∧ ((∀ x ∈ s.host.out.take s.here.idx, x.1 ≠ q)) ∧ (q ≠ 0) ∧ (s.host.closed = []))) ∧
    ((∃ (s : State) (ctx : _) (ws : _) (p : _), (s.host.out[s.here.idx]? = some (0, ctx, ws)) ∧ ((∀ x ∈ s.host.out.take s.here.idx, x.1 ≠ 0)) ∧ (s.host.closed = []) ∧ ((ctx.isSome = true ∨ ws.length ≠ 4 ∨ (ws.headD 0#64).toNat % 256 ≠ 0x41)) ∧ (p < 4) ∧ ((at' s.mgmt.hq0 p 0#64).getLsbD 0 = true) ∧ ((∀ p' < p, (at' s.mgmt.hq0 p' 0#64).getLsbD 0 = false)))) ∧
    (∃ (s : State) (q : Nat) (ctx : Option Nat) (ws : List W64), s.host.out[s.here.idx]? = some (q, ctx, ws) ∧ q ∈ s.host.closed ∧ q ≠ 0 ∧
      ((s.mgmt.hqmap.get? q).getD 0#64).getLsbD 2 = true) ∧
    ((∃ (s : State) (ws : _), (s.host.out[s.here.idx]? = some (0, none, ws)) ∧ ((∀ x ∈ s.host.out.take s.here.idx, x.1 ≠ 0)) ∧ (ws.length = 4) ∧ (s.host.closed = []) ∧ ((ws.headD 0#64).toNat % 256 = 0x41) ∧ ((∃ p < 4, (at' s.mgmt.hq0 p 0#64).getLsbD 0 = true)))) := by
  refine ⟨?_, ?_, ?_, ?_, ?_⟩
  · exact ⟨outState (place 0 1 0) [(7, none, []), (7, none, [])] (Vector.replicate 4 0#64), _, _, _, rfl, ⟨_, List.mem_singleton_self _, rfl⟩⟩
  · exact ⟨outState (place 0 0 0) [(7, none, [])] (Vector.replicate 4 0#64), _, _, _, rfl, (by decide +kernel), (by decide +kernel), rfl⟩
  · exact ⟨outState (place 0 0 0) [(0, some 0, [1#64])] #v[0#64, 0#64, 0#64, 1#64], _, _, 3, rfl, (by decide +kernel), rfl, (by decide +kernel), (by decide +kernel), (by decide +kernel), (by decide +kernel)⟩
  · exact ⟨let x := outState (place 0 0 0) [(7, none, [])] (Vector.replicate 4 0#64)
      { x with host := { x.host with closed := [7] }, mgmt := { x.mgmt with hqmap := [(7, 4#64)] } }, 7, _, _, rfl, (by decide), (by decide), (by decide +kernel)⟩
  · exact ⟨outState (place 0 0 0) [(0, none, [0x41#64, 0#64, 0#64, 0#64])] #v[1#64, 1#64, 0#64, 0#64], _, rfl, (by decide +kernel), (by decide +kernel), rfl, (by decide +kernel), ⟨0, (by decide +kernel), (by decide +kernel)⟩⟩

theorem witness_FlitsReadBack : (∃ f, Claims.InRange f) :=
  ⟨⟨7, 3, true, 4095, 4095, 2 ^ 14 - 1, 2 ^ 14 - 1, true, 7, 31, 4095, 1#512⟩, (by decide +kernel), (by decide +kernel), (by decide +kernel), (by decide +kernel), (by decide +kernel), (by decide +kernel), (by decide +kernel), (by decide +kernel), (by decide +kernel)⟩

theorem witness_FlitsArriveInOrder :
    ((∃ (s : State) (p : _) (bits : _) (rest : _) (f : _), (Claims.Arrives s p bits rest) ∧ (Flit.ofBits bits = (f, false)) ∧ (f.idle = false))) ∧
    ((∃ (s : State) (p : _) (bits : _) (rest : _) (f : _), (Claims.Arrives s p bits rest) ∧ (Flit.ofBits bits = (f, true)) ∧ (f.idle = false) ∧ (f.rty = false) ∧ (f.rcnt = 0) ∧ (f.seq ≠ (s.fabric.port p).expect))) ∧
    ((∃ (s : State) (p : _) (bits : _) (rest : _) (f : _), (Claims.Arrives s p bits rest) ∧ (Flit.ofBits bits = (f, true)) ∧ (f.idle = false) ∧ (f.seq = (s.fabric.port p).expect) ∧ (f.pos = 1 ∨ f.pos = 2))) ∧
    ((∃ (s : State) (p : _) (bits : _) (rest : _) (f : _) (q : _) (v : _), (Claims.Arrives s p bits rest) ∧ (Flit.ofBits bits = (f, true)) ∧ (f.idle = false) ∧ (f.vc < 8) ∧ (f.seq = (s.fabric.port p).expect) ∧ (f.pos = 0 ∨ f.pos = 3) ∧ (f.dpkg ≠ s.fabric.pkgid) ∧ ((s.fabric.routes.get? f.dpkg = some ⟨q, true, 0, false⟩) ∧ (q < 96) ∧ (v = (if (s.fabric.port q).dl = true ∧ f.vc < 6 ∧ f.vc % 2 = 0 then f.vc + 1 else f.vc)) ∧ (f.vc ≠ 6) ∧ (f.rcnt = 0)))) ∧
    ((∃ (s : State) (p : Nat) (bits : _) (rest : _) (f : _), Claims.Arrives s p bits rest ∧ Flit.ofBits bits = (f, true) ∧ f.idle = false ∧ f.vc < 8 ∧
      f.seq = (s.fabric.port p).expect ∧ (f.pos = 0 ∨ f.pos = 3) ∧ f.dpkg ≠ s.fabric.pkgid ∧ s.fabric.routes.get? f.dpkg = none)) ∧
    ((∃ (s : State) (p : Nat) (bits : _) (rest : _) (f : _) (e : RouteEnt), Claims.Arrives s p bits rest ∧ Flit.ofBits bits = (f, true) ∧
      f.idle = false ∧ f.vc < 8 ∧ f.seq = (s.fabric.port p).expect ∧ (f.pos = 0 ∨ f.pos = 3) ∧ f.dpkg ≠ s.fabric.pkgid ∧
      s.fabric.routes.get? f.dpkg = some e ∧ e.valid = false ∧ (f.vc = 6 → e.evalid = false))) ∧
    ((∃ (s : State) (p : _) (bits : _) (rest : _) (f : _), (Claims.Arrives s p bits rest) ∧ (Flit.ofBits bits = (f, true)) ∧ (f.idle = true) ∧ (f.rcnt ≠ 0) ∧ (f.rvc < 8))) := by
  refine ⟨?_, ?_, ?_, ?_, ?_, ?_, ?_⟩
  · exact ⟨linkState (place 0 0 0) upPort [0#640] [], 0, _, _, (Flit.ofBits 0#640).1, ⟨rfl, rfl⟩, bad_zero, (by decide +kernel)⟩
  · exact ⟨linkState (place 0 0 0) { upPort with expect := 5 } [(aFlit 0 false 0 0).toBits] [], 0, _, _, aFlit 0 false 0 0, ⟨rfl, rfl⟩, good_whole, rfl, rfl, rfl, (by decide +kernel)⟩
  · exact ⟨linkState (place 0 0 0) upPort [(aFlit 1 false 0 0).toBits] [], 0, _, _, aFlit 1 false 0 0, ⟨rfl, rfl⟩, good_first, rfl, rfl, Or.inl rfl⟩
  · exact ⟨linkState (place 0 0 0) upPort [(aFlit 0 false 0 0).toBits] [], 0, _, _, aFlit 0 false 0 0, 0, 3, ⟨rfl, rfl⟩, good_whole, rfl, (by decide +kernel), rfl, Or.inl rfl, (by decide +kernel), rfl, (by decide +kernel), (by decide +kernel), (by decide +kernel), rfl⟩
  · exact ⟨let x := linkState (place 0 0 0) upPort [(aFlit 0 false 0 0).toBits] []
      { x with fabric := { x.fabric with routes := [] } }, 0, _, _, aFlit 0 false 0 0, ⟨rfl, rfl⟩, good_whole, rfl, (by decide +kernel), rfl, Or.inl rfl, (by decide +kernel), rfl⟩
  · exact ⟨let x := linkState (place 0 0 0) upPort [(aFlit 0 false 0 0).toBits] []
      { x with fabric := { x.fabric with routes := [(7, ⟨0, false, 0, true⟩)] } }, 0, _, _, aFlit 0 false 0 0, ⟨0, false, 0, true⟩, ⟨rfl, rfl⟩, good_whole, rfl, (by decide +kernel), rfl, Or.inl rfl, (by decide +kernel), rfl, rfl, (by decide)⟩
  · exact ⟨linkState (place 0 0 0) upPort [(aFlit 0 true 1 0).toBits] [], 0, _, _, aFlit 0 true 1 0, ⟨rfl, rfl⟩, good_idle, rfl, (by decide +kernel), (by decide +kernel)⟩

theorem witness_PacketsLeaveWhole :
    ((∃ (s : State) (k : _) (p : _), (s.here.val ≠ 1) ∧ (s.fabric.out[s.here.idx]? = some k) ∧ (Claims.MayStart s k p) ∧ (k.vc < 8) ∧ ((s.fabric.port p).nextSeq < 4096))) ∧
    (∃ (s : State) (k : Packet) (p : Nat) (h : BitVec 512), s.here.val ≠ 1 ∧ Claims.MayTell s k p h ∧ k.resyncStep = 0 ∧ k.laneTest = false ∧
      h.toNat / 2 ^ 8 % 2 ^ 8 = 0) ∧
    (∃ (s : State) (k : Packet) (p : Nat) (h : BitVec 512), s.here.val ≠ 1 ∧ Claims.MayTell s k p h ∧ k.resyncStep = 0 ∧ k.laneTest = false ∧
      h.toNat / 2 ^ 8 % 2 ^ 8 = 6) ∧
    ((∃ (s : State) (k : _) (p : _), (s.here.val ≠ 1) ∧ (s.fabric.out[s.here.idx]? = some k) ∧ (k.port = some p) ∧ ((s.fabric.port p).usable = true) ∧ k.ofLink = false ∧ (at' (s.fabric.port p).counts k.vc 0 < k.flits.length))) ∧
    ((∃ (s : State), ((s.fabric.port s.here.idx).retry ≠ []))) ∧
    ((∃ (s : State) (k : _) (p : _) (e : _) (q : _), (s.fabric.out[s.here.idx]? = some k) ∧ (k.port = some p) ∧ (k.vc < 6) ∧ (64 ≤ k.waited) ∧ (at' (s.fabric.port p).counts k.vc 0 < k.flits.length) ∧ (s.fabric.routes.get? k.dpkg = some e) ∧ (e.evalid = true) ∧ (e.esc = q) ∧ (q < 96) ∧ (k.flits.length ≤ at' (s.fabric.port q).counts 6 0))) := by
  refine ⟨?_, ?_, ?_, ?_, ?_, ?_⟩
  · exact ⟨linkState (place 0 0 0) upPort [] [aPacket 7 0], aPacket 7 0, 0, (by decide +kernel), rfl, ⟨rfl, (by decide +kernel), (by decide +kernel), rfl, (by decide +kernel), (by decide +kernel), (by decide +kernel)⟩, (by decide +kernel), (by decide +kernel)⟩
  · exact ⟨linkState (place 0 0 0) { upPort with peerKnown := true } [] [⟨7, some 0, 7, 0, [3#512], 0, none⟩], _, 0, 3#512, (by decide +kernel), ⟨rfl, rfl, (by decide +kernel), rfl, rfl, rfl, rfl, rfl, (by decide +kernel), (by decide +kernel), (by decide +kernel)⟩, (by decide +kernel), (by decide +kernel), (by decide +kernel)⟩
  · exact ⟨linkState (place 0 0 0) { upPort with peerKnown := true } [] [⟨7, some 0, 7, 0, [0x603#512], 0, none⟩], _, 0, 0x603#512, (by decide +kernel), ⟨rfl, rfl, (by decide +kernel), rfl, rfl, rfl, rfl, rfl, (by decide +kernel), (by decide +kernel), (by decide +kernel)⟩, (by decide +kernel), (by decide +kernel), (by decide +kernel)⟩
  · exact ⟨linkState (place 0 0 0) { upPort with counts := Vector.replicate 8 0 } [] [aPacket 7 0], aPacket 7 0, 0, (by decide +kernel), rfl, rfl, (by decide +kernel), (by decide +kernel), (by decide +kernel)⟩
  · exact ⟨linkState (place 0 0 0) { upPort with retry := [aFlit 0 false 0 0] } [] [], (by decide +kernel)⟩
  · exact ⟨linkState (place 0 0 0) { upPort with counts := Vector.replicate 8 0 } [] [aPacket 8 64], aPacket 8 64, 0, ⟨0, true, 1, true⟩, 1, rfl, rfl, (by decide +kernel), (by decide +kernel), (by decide +kernel), (by decide +kernel), rfl, rfl, (by decide +kernel), (by decide +kernel)⟩

theorem witness_AuditsResynchronise :
    ((∃ (s : State), ((s.fabric.port s.here.idx).up = true))) ∧
    ((∃ (s : State) (e : _) (ack : _) (rlast : _), (s.here.val ≠ 0) ∧ (s.here.val < 2 ^ 512) ∧ (e = s.here.val / 2 ^ 64) ∧ (ack = s.here.val / 2 ^ 128 % 2 ^ 12) ∧ (rlast = s.here.val / 2 ^ 144 % 2 ^ 12) ∧ ((s.fabric.port s.here.idx).resyncing = false))) ∧
    (∃ s : State, s.here.val = 0 ∧ (s.fabric.port s.here.idx).resyncing = true ∧ (s.fabric.port s.here.idx).retry = [] ∧
      (s.fabric.port s.here.idx).resyncOut = 0) ∧
    (∃ s : State, s.here.val = 0 ∧ (s.fabric.port s.here.idx).resyncing = true ∧ (s.fabric.port s.here.idx).retry = [] ∧
      (s.fabric.port s.here.idx).resyncOut = 1 ∧ 1 ≤ (s.fabric.port s.here.idx).resyncIn ∧ ∀ v < 8, s.fabric.held s.here.idx v = 0) ∧
    (∃ s : State, s.here.val < 2 ^ 512 ∧ s.here.val / 2 ^ 96 % 2 ^ 2 ≠ 0 ∧ (s.fabric.port s.here.idx).resyncing = false ∧
      (s.fabric.port s.here.idx).resyncOut = 0) ∧
    (∃ s : State, s.here.val < 2 ^ 512 ∧ s.here.val / 2 ^ 96 % 2 ^ 2 = 2 ∧ (s.fabric.port s.here.idx).resyncing = true ∧
      (s.fabric.port s.here.idx).resyncOut = 2 ∧ (s.fabric.port s.here.idx).resyncIn ≤ 2) := by
  refine ⟨?_, ?_, ?_, ?_, ?_, ?_⟩
  · exact ⟨linkState (place 0 0 0) upPort [] [], rfl⟩
  · exact ⟨linkState (place 0 0 (2 ^ 64 * 5)) upPort [] [], _, _, _, (by decide +kernel), (by decide +kernel), rfl, rfl, rfl, rfl⟩
  · exact ⟨linkState (place 0 0 0) { upPort with resyncing := true } [] [], rfl, rfl, rfl, rfl⟩
  · exact ⟨linkState (place 0 0 0) { upPort with resyncing := true, resyncOut := 1, resyncIn := 1 } [] [], rfl, rfl, rfl, rfl, (by decide), (by decide +kernel)⟩
  · exact ⟨linkState (place 0 0 (2 ^ 96)) upPort [] [], (by decide +kernel), (by decide +kernel), rfl, rfl⟩
  · exact ⟨linkState (place 0 0 (2 ^ 97)) { upPort with resyncing := true, resyncOut := 2, resyncIn := 1 } [] [], (by decide +kernel), (by decide +kernel), rfl, rfl, (by decide)⟩

theorem witness_LinksFailAndComeUp :
    ((∃ (s : State), (s.here.val < 2 ^ 512) ∧ (s.here.val / 2 ^ 96 % 2 ^ 2 = 0))) ∧
    ((∃ (s : State), ((s.fabric.port s.here.idx).retired = false) ∧ (s.here.val % 4 ≠ 0))) ∧
    ((∃ (s : State), ((s.fabric.port s.here.idx).retired = true))) := by
  refine ⟨?_, ?_, ?_⟩
  · exact ⟨linkState (place 0 0 0) upPort [] [], (by decide +kernel), (by decide +kernel)⟩
  · exact ⟨linkState (place 0 0 3) upPort [] [], rfl, (by decide +kernel)⟩
  · exact ⟨linkState (place 0 0 0) { upPort with retired := true } [] [], rfl⟩

theorem witness_PodBarriersJoinPackages :
    ((∃ (s : State) (tm : Team) (b : _) (e : _), (s.here.val = 0) ∧ (s.team? s.here.ctx = some tm) ∧ (tm.bars[s.here.idx]? = some b) ∧ (b.scope = 5) ∧ (b.sentPod = false) ∧ (s.fabric.groupOf tm.launch.tag = some e) ∧ (s.podSideDone tm.launch.tag b.num = true) ∧ (tm.phase = .running) ∧ (tm.bar? 5 b.unit b.num = some b) ∧ (e.root ≠ s.fabric.pkgid) ∧ ((∃ x, s.fabric.routes.get? e.root = some x ∧ x.valid = true ∧ x.port < 96)))) ∧
    ((∃ (s : State) (g : _) (num : _) (gen : _) (e : _), (s.here.val ≠ 0) ∧ (s.here.val < 2 ^ 512) ∧ (g = s.here.val / 2 ^ 16 % 2 ^ 16) ∧ (num = s.here.val / 2 ^ 32 % 2 ^ 8) ∧ (gen = s.here.val / 2 ^ 64 % 2 ^ 64) ∧ (s.fabric.groupOf g = some e) ∧ (((s.fabric.podCount.get? (g, num, gen)).getD []).length + 1 < e.n))) ∧
    ((∃ (s : State) (g : _) (num : _) (gen : _) (e : _), (s.here.val ≠ 0) ∧ (s.here.val < 2 ^ 512) ∧ (g = s.here.val / 2 ^ 16 % 2 ^ 16) ∧ (num = s.here.val / 2 ^ 32 % 2 ^ 8) ∧ (gen = s.here.val / 2 ^ 64 % 2 ^ 64) ∧ (s.fabric.groupOf g = some e) ∧ (e.n ≤ 1) ∧ (s.fabric.podCount.get? (g, num, gen) = none) ∧ (s.here.core ≠ s.fabric.pkgid) ∧ ((∃ x, s.fabric.routes.get? s.here.core = some x ∧ x.valid = true ∧ x.port < 96)))) ∧
    ((∃ (s : State) (ctx : _) (tm : Team) (b : _), (s.here.val < 2 ^ 512) ∧ (s.teams = [(ctx, tm)]) ∧ (tm.phase = .running) ∧ (tm.launch.tag = s.here.val / 2 ^ 16 % 2 ^ 16) ∧ (b.scope = 5) ∧ (b.num = s.here.val / 2 ^ 32 % 2 ^ 8) ∧ (b.sentPod = true) ∧ (tm.bars = [b]))) := by
  refine ⟨?_, ?_, ?_, ?_⟩
  · exact ⟨podState 0 5 0, _, ⟨5, (0, 0), 3, 0, [], [(0, none), (1, none)], false⟩, ⟨true, 2, 0, 7⟩, rfl, rfl, rfl, rfl, rfl, (by decide +kernel), (by decide +kernel), rfl, (by decide +kernel), (by decide +kernel), ⟨⟨0, true, 0, false⟩, (by decide +kernel), rfl, (by decide +kernel)⟩⟩
  · exact ⟨podState (5 * 2 ^ 16 + 3 * 2 ^ 32) 5 0, _, _, _, ⟨true, 2, 0, 7⟩, (by decide +kernel), (by decide +kernel), rfl, rfl, rfl, (by decide +kernel), (by decide +kernel)⟩
  · exact ⟨podState (6 * 2 ^ 16 + 3 * 2 ^ 32) 5 0, _, _, _, ⟨true, 1, 0, 0⟩, (by decide +kernel), (by decide +kernel), rfl, rfl, rfl, (by decide +kernel), (by decide +kernel), (by decide +kernel), (by decide +kernel), ⟨⟨0, true, 0, false⟩, (by decide +kernel), rfl, (by decide +kernel)⟩⟩
  · exact ⟨podState (5 * 2 ^ 16 + 3 * 2 ^ 32) 5 1, 0, _, ⟨5, (0, 0), 3, 0, [], [(0, none), (1, none)], true⟩, (by decide +kernel), rfl, rfl, (by decide +kernel), rfl, (by decide +kernel), rfl, (by decide +kernel)⟩

theorem witness_TimeIsSynchronised :
    (∃ s : State, s.here.val = 0 ∧ (s.fabric.port s.fabric.syncPort).up = true) ∧
    (∃ s : State, s.here.val < 2 ^ 512 ∧ s.here.val / 2 ^ 8 % 2 ^ 8 = 2) ∧
    (∃ s : State, s.here.val < 2 ^ 512 ∧ s.here.val / 2 ^ 8 % 2 ^ 8 = 3 ∧ s.here.idx = s.fabric.syncPort) ∧
    (∃ (s : State) (d : Nat), s.here.val < 2 ^ 512 ∧ s.here.val / 2 ^ 8 % 2 ^ 8 = 6 ∧ s.fabric.syncRoot = false ∧
      s.here.idx = s.fabric.syncPort ∧ (s.fabric.port s.fabric.syncPort).up = true ∧ s.fabric.delay = some d) ∧
    (∃ s : State, s.here.val < 2 ^ 512 ∧ s.here.val / 2 ^ 8 % 2 ^ 8 = 6 ∧ s.fabric.syncRoot = true) ∧
    (∃ s : State, s.here.val < 2 ^ 512 ∧ s.here.val / 2 ^ 8 % 2 ^ 8 = 6 ∧ s.here.idx ≠ s.fabric.syncPort) ∧
    (∃ s : State, s.here.val < 2 ^ 512 ∧ s.here.val / 2 ^ 8 % 2 ^ 8 = 6 ∧ (s.fabric.port s.here.idx).up = false) ∧
    (∃ s : State, s.fabric.syncRoot = true) ∧
    (∃ s : State, (s.fabric.port s.fabric.syncPort).up = false) ∧
    (∃ s : State, s.fabric.syncRoot = false ∧ (s.fabric.port s.fabric.syncPort).up = true ∧ s.lastCorr + 1000 ≤ s.time ∧ 0 < s.corr) ∧
    (∃ s : State, s.fabric.syncRoot = false ∧ (s.fabric.port s.fabric.syncPort).up = true ∧ s.lastCorr + 1000 ≤ s.time ∧ s.corr < 0) := by
  refine ⟨?_, ?_, ?_, ?_, ?_, ?_, ?_, ?_, ?_, ?_, ?_⟩
  · exact ⟨linkState (place 0 0 0) upPort [] [], rfl, rfl⟩
  · exact ⟨linkState (place 0 0 0x203) upPort [] [], (by decide +kernel), (by decide +kernel)⟩
  · exact ⟨linkState (place 0 0 0x303) upPort [] [], (by decide +kernel), (by decide +kernel), rfl⟩
  · exact ⟨let x := linkState (place 0 0 0x603) upPort [] []
      { x with fabric := { x.fabric with delay := some 5 } }, 5, (by decide +kernel), (by decide +kernel), rfl, rfl, rfl, rfl⟩
  · exact ⟨let x := linkState (place 0 0 0x603) upPort [] []
      { x with fabric := { x.fabric with syncRoot := true } }, (by decide +kernel), (by decide +kernel), rfl⟩
  · exact ⟨linkState (place 0 1 0x603) upPort [] [], (by decide +kernel), (by decide +kernel), (by decide)⟩
  · exact ⟨linkState (place 0 0 0x603) { upPort with lanes := 0 } [] [], (by decide +kernel), (by decide +kernel), rfl⟩
  · exact ⟨{ lab with fabric := { lab.fabric with syncRoot := true } }, rfl⟩
  · exact ⟨linkState (place 0 0 0) { upPort with lanes := 0 } [] [], rfl⟩
  · exact ⟨{ linkState (place 0 0 0) upPort [] [] with time := 2000, lastCorr := 0, corr := 3 }, rfl, rfl, (by decide), (by decide)⟩
  · exact ⟨{ linkState (place 0 0 0) upPort [] [] with time := 2000, lastCorr := 0, corr := -3 }, rfl, rfl, (by decide), (by decide)⟩

theorem witness_ExtendsFollowR381 :
    ((∃ s v rs, Claims.Writes s 0x3120 v rs)) ∧
    ((∃ s v v' rs, Claims.Writes s 0x3120 v (.write 1 0x3120 (wordBytes v') :: rs))) := by
  refine ⟨?_, ?_⟩
  · exact ⟨hostState (.write 1 0x3120 (wordBytes 7#64)), _, _, rfl, (by decide +kernel), (by decide +kernel)⟩
  · exact ⟨{ hostState (.write 1 0x3120 (wordBytes 7#64)) with host := { lab.host with reqs := [.write 1 0x3120 (wordBytes 7#64), .write 1 0x3120 (wordBytes 5#64)] } }, _, 5#64, [], rfl, (by decide +kernel), (by decide +kernel)⟩

theorem witness_WaitsFollowR218 :
    ((∃ (q : SeqFields) (s : State) (m : MCoreCtx), Claims.Sequencing s m ∧ (fun _ _ _ => True) q s m)) ∧
    ((∃ q s m, Claims.Sequencing s m ∧ Claims.opnd q 0 32 ≤ (at' m.ctrs (Claims.flags q 0 4) 0#32).toNat) ∧ (∃ q s m, Claims.Sequencing s m ∧ (at' m.ctrs (Claims.flags q 0 4) 0#32).toNat < Claims.opnd q 0 32)) ∧
    ((∃ q s m, Claims.Sequencing s m ∧ (m.tile (Claims.slotA q)).state = .ready ∧ Claims.flags q 0 3 = 2) ∧ (∃ q s m, Claims.Sequencing s m ∧ (m.tile (Claims.slotA q)).state = .ready ∧ Claims.flags q 0 3 ≠ 2)) := by
  refine ⟨?_, ?_, ?_⟩
  · exact ⟨sf 15#6 (-1#40), seqState rTile id, _, ⟨rfl, rfl, rfl, rfl, rfl, rfl⟩, trivial⟩
  · exact ⟨⟨sf 15#6 0#40, seqState rTile id, _, ⟨rfl, rfl, rfl, rfl, rfl, rfl⟩, (by decide +kernel)⟩, ⟨sf 15#6 1#40, seqState rTile id, _, ⟨rfl, rfl, rfl, rfl, rfl, rfl⟩, (by decide +kernel)⟩⟩
  · exact ⟨⟨sf 2#6 0#40, seqState rTile id, _, ⟨rfl, rfl, rfl, rfl, rfl, rfl⟩, rfl, (by decide +kernel)⟩, ⟨sf 0#6 0#40, seqState rTile id, _, ⟨rfl, rfl, rfl, rfl, rfl, rfl⟩, rfl, (by decide +kernel)⟩⟩

theorem witness_WordsDecodeWhereListed : (∃ w i, decodeSlot w = .ok i) ∧ (∃ w i, decodeNode w = .ok i) ∧ (∃ w i, decodeSeq w = .ok i) ∧ (∃ w : W64, w.getLsbD 1 = false) ∧ (∃ w : W64, w.getLsbD 1 = true) :=
  ⟨⟨2#64, _, rfl⟩, ⟨0x0400000000000000#64, _, rfl⟩, ⟨0x0400000000000000#64, _, rfl⟩, ⟨0#64, rfl⟩, ⟨2#64, rfl⟩⟩

theorem witness_StepsRunTheirTurns :
    ((∃ (s : State) (ts : List Turn) (ctx core pos slot sel : Nat) (c : CoreCtx) (e : Elem) (i : Instr), s.turns = .fire ctx core pos slot sel :: ts ∧ s.core? (ctx, core) = some c ∧ c.elem? pos = some e ∧ decodeSlot (e.slot slot) = .ok i)) ∧
    ((∃ (s : State) (ts : List Turn) (ctx core pos slot sel : Nat) (c : CoreCtx) (e : Elem), s.turns = .fire ctx core pos slot sel :: ts ∧ s.core? (ctx, core) = some c ∧ c.elem? pos = some e ∧ (e.slot slot).getLsbD 1 = false)) ∧
    ((∃ (s : State) (ts : List Turn) (ctx core pos slot : Nat) (i : Instr), s.turns = .bus ctx core pos slot :: ts ∧ (State.busVerdict { s with turns := ts } (ctx, core) pos slot).2 = true ∧ decodeSlot ((State.busVerdict { s with turns := ts } (ctx, core) pos slot).1.slotWord ctx core pos slot) = .ok i)) ∧
    ((∃ (s : State) (ts : _) (ctx : _) (core : _) (c : CoreCtx) (p : _) (w : _) (i : _), (s.turns = .walker ctx core :: ts) ∧ (s.core? (ctx, core) = some c) ∧ (c.walker.pos = some p) ∧ (s.nodeWord ctx p = w) ∧ (decodeNode w = .ok i))) ∧
    ((∃ (s : State) (ts : _) (ctx : _) (core : _) (m : MCoreCtx) (w : _) (i : _), (s.turns = .sequencer ctx core :: ts) ∧ (s.mcore? (ctx, core) = some m) ∧ (m.stopped = false) ∧ (m.prog[m.pc]? = some w) ∧ (decodeSeq w = .ok i))) ∧
    ((∃ (s : State) (ts : List Turn) (i : Instr) (h : Here), s.turns = .event i h :: ts)) := by
  refine ⟨?_, ?_, ?_, ?_, ?_, ?_⟩
  · exact ⟨{ slotState (.mov, movOp) with turns := [.fire 0 0 9 0 0] }, _, _, _, _, _, _, _, _, _, rfl, rfl, rfl, rfl⟩
  · exact ⟨{ slotState (.mov, movOp) with turns := [.fire 0 0 9 1 0] }, _, _, _, _, _, _, _, _, rfl, rfl, rfl, (by decide +kernel)⟩
  · exact ⟨busState, _, _, _, _, _, _, rfl, (by decide +kernel), rfl⟩
  · exact ⟨{ (walkState id).modTeam 0 fun t => { t with graph := List.replicate 6 0x0400000000000000#64 } with turns := [.walker 0 0] }, _, _, _, _, _, _, _, rfl, rfl, rfl, rfl, rfl⟩
  · exact ⟨{ seqState rTile (fun m => m) with turns := [.sequencer 0 0], mcores := (seqState rTile id).mcores.adjust (0, 0) fun m => { m with prog := [0x0400000000000000#64] } }, _, _, _, _, _, _, rfl, rfl, rfl, rfl, rfl⟩
  · exact ⟨{ lab with turns := [.event .tokenArrival (place 9 0 0)] }, _, _, _, rfl⟩

theorem witness_StepsKeepMemoryCanonical : (∃ s t, Claims.Canonical s ∧ step s = .next t) :=
  ⟨State.reset, _, ⟨rfl, rfl⟩, rfl⟩

end Sys2Proof.Tests
end

