-- ==== Sys2Proof/Proofs/Turns.lean ====
section
/-! PROOF. O5: a step is its first turn, and a turn runs what its word decodes to (R22, R50, R179, R208). -/

namespace Sys2Proof.Machine

/-- A step is the first of the turns (log 1). -/
theorem step_of_turns (s : State) (t : Turn) (ts : List Turn) (h : s.turns = t :: ts) :
    step s = runTurn t { s with turns := ts } := by
  have hn : s.nextTurn = (t, ts) := by rw [State.nextTurn, h]
  rw [step, hn]

/-- R50: a word without its V bit is an empty slot. -/
theorem decodeSlot_of_not_valid (w : W64) (h : w.getLsbD 1 = false) : decodeSlot w = .error .emptySlot := by
  rw [decodeSlot, if_pos h]

/-- Fetching a slot's word reads its element. -/
theorem State.slotWord_of (s : State) (ctx core pos slot : Nat) (c : CoreCtx) (e : Elem) (hc : s.core? (ctx, core) = some c)
    (he : c.elem? pos = some e) : s.slotWord ctx core pos slot = e.slot slot := by
  simp [State.slotWord, hc, he]

theorem runTurn_fire (s : State) (ctx core pos slot sel : Nat) (c : CoreCtx) (e : Elem) (hc : s.core? (ctx, core) = some c)
    (he : c.elem? pos = some e) :
    runTurn (.fire ctx core pos slot sel) s = runDecoded (decodeSlot (e.slot slot)) ⟨ctx, core, pos, slot, sel⟩ s := by
  rw [runTurn, s.slotWord_of ctx core pos slot c e hc he]

theorem runTurn_bus (s x : State) (ctx core pos slot : Nat) (h : s.busVerdict (ctx, core) pos slot = (x, true)) :
    runTurn (.bus ctx core pos slot) s =
      runDecoded (decodeSlot (x.slotWord ctx core pos slot)) ⟨ctx, core, pos, slot, 0⟩ x := by
  rw [runTurn, h]

theorem runTurn_walker (s : State) (ctx core p : Nat) (c : CoreCtx) (hc : s.core? (ctx, core) = some c)
    (hp : c.walker.pos = some p) :
    runTurn (.walker ctx core) s = runDecoded (decodeNode (s.nodeWord ctx p)) ⟨ctx, core, 0, 0, 0⟩ s := by
  have hw : s.walkerWord ctx core = some (s.nodeWord ctx p) := by simp [State.walkerWord, hc, hp]
  rw [runTurn, hw]

theorem runTurn_sequencer (s : State) (ctx core : Nat) (m : MCoreCtx) (w : W64) (hm : s.mcore? (ctx, core) = some m)
    (hs : m.stopped = false) (hw : m.prog[m.pc]? = some w) :
    runTurn (.sequencer ctx core) s = runDecoded (decodeSeq w) ⟨ctx, core, 0, 0, 0⟩ s := by
  have hq : s.sequencerWord ctx core = some w := by simp [State.sequencerWord, hm, hs, hw]
  rw [runTurn, hq]

/-- Settles O5: the first turn runs exactly what its word decodes to. -/
theorem stepsRunTheirTurns : Obligations.StepsRunTheirTurns := by
  refine ⟨?fire, ?empty, ?bus, ?walker, ?sequencer, ?event⟩
  case fire =>
    intro s ts ctx core pos slot sel c e i ht hc he hd
    rw [step_of_turns s _ ts ht, runTurn_fire { s with turns := ts } ctx core pos slot sel c e hc he, hd, runDecoded]
  case empty =>
    intro s ts ctx core pos slot sel c e ht hc he hv
    rw [step_of_turns s _ ts ht, runTurn_fire { s with turns := ts } ctx core pos slot sel c e hc he, decodeSlot_of_not_valid _ hv, runDecoded]
  case bus =>
    intro s ts ctx core pos slot i x ht hb hd
    rw [step_of_turns s _ ts ht, runTurn_bus { s with turns := ts } x ctx core pos slot hb, hd, runDecoded]
  case walker =>
    intro s ts ctx core c p w i ht hc hp hw hd
    have hw' : State.nodeWord { s with turns := ts } ctx p = w := hw
    rw [step_of_turns s _ ts ht, runTurn_walker { s with turns := ts } ctx core p c hc hp, hw', hd, runDecoded]
  case sequencer =>
    intro s ts ctx core m w i ht hm hs hw hd
    rw [step_of_turns s _ ts ht, runTurn_sequencer { s with turns := ts } ctx core m w hm hs hw, hd, runDecoded]
  case event =>
    intro s ts i h ht
    rw [step_of_turns s _ ts ht, runTurn]

end Sys2Proof.Machine
end

