-- ==== Sys2Proof/Proofs/GuardedPredicate.lean ====
section
/-! PROOF. O17 fails: SST, SAADD, SAMAX and SCAS stand among the operations that O17 says update a predicate, but they are
guarded (Table 3.8): their PU field is a guard and they update no predicate (R27). -/

namespace Sys2Proof.Machine

/-- SST with SA d0, SB d1 and PU = 001 on p0: a store whose guard is p0 (R27). -/
def guardedSst : Fields := { Tests.fieldsOf (.sst, sstOp) with pu := 1#3 }

/-- That slot on a scratchpad element whose predicates are all 0, so that its guard does not hold. -/
def guardedSstState : State := Tests.slotStateWith (.sst, sstOp) guardedSst 0 0#64 id

/-- The predicate that the slot of `guardedSst` names, once it has fired. -/
def predAfterGuardedSst : Option Pred :=
  match exec (.sst guardedSst) guardedSstState with
  | .next t => (t.core? guardedSstState.key).map fun c => (c.elemD guardedSstState.here.pos).pred guardedSst.pn.toNat
  | _ => none

/-- The slot is ready, for a guard of 0 holds no store back. -/
theorem guardedSst_ready : slotStatus sstOp guardedSst guardedSstState guardedSstState.site = .ready := by decide +kernel

/-- Its fire leaves the predicate at 0. -/
theorem guardedSst_pred : predAfterGuardedSst = some Pred.zero := by decide +kernel

/-- Refutes O17: PU = 001 of an SST is a guard (R27), so the fire leaves its predicate 0, where R26 alone would set it. -/
theorem not_predicatesAreUpdated : ¬ Obligations.PredicatesAreUpdated := by
  rintro ⟨-, -, later, -⟩
  have sst : Claims.Sets true .sst sstOp Claims.ofSa := later (.sst, sstOp) (List.mem_of_getElem? (i := 5) rfl)
  obtain ⟨c, hc⟩ : ∃ c, guardedSstState.core? guardedSstState.key = some c := ⟨_, rfl⟩
  obtain ⟨e, he⟩ : ∃ e, c.elem? guardedSstState.here.pos = some e := by cases hc; exact ⟨_, rfl⟩
  have room : Claims.HasRoom sstOp guardedSst guardedSstState c e := by
    cases hc; cases he
    exact .inl (by decide +kernel)
  obtain ⟨t, c', ht, hc', hpred⟩ := sst guardedSst guardedSstState c e ⟨hc, he⟩ room guardedSst_ready
  have kept := guardedSst_pred
  rw [predAfterGuardedSst, ht] at kept
  simp only [hc', Option.map_some, Option.some.injEq, hpred] at kept
  simp [Claims.predAfter, guardedSst, Pred.zero] at kept

end Sys2Proof.Machine
end

