-- ==== Sys2Proof/Proofs/Records.lean ====
section
/-! PROOF. Trap records (R304, R305): what a record of eight words leaves in flat memory, and what a trap raised on a core leaves
of the machine. -/

namespace Sys2Proof.Machine

/-! ### Bytes of a record -/

theorem leBytes_length (n v : Nat) : (leBytes n v).length = n := by
  induction n generalizing v with
  | zero => rfl
  | succ n ih => simp [leBytes, ih]

theorem wordsBytes_length (ws : List W64) : (wordsBytes ws).length = 8 * ws.length := by
  simp [wordsBytes, wordBytes, List.length_flatMap, leBytes_length, Nat.mul_comm]

theorem Memory.length_readN (m : Memory) (a n : Nat) : (m.readN a n).length = n := by
  induction n generalizing a with
  | zero => rfl
  | succ n ih => simp [Memory.readN, ih]

theorem Memory.getElem_readN (m : Memory) (a n i : Nat) (h : i < (m.readN a n).length) : (m.readN a n)[i] = m.read (a + i) := by
  induction n generalizing a i with
  | zero => simp [Memory.readN] at h
  | succ n ih =>
    cases i with
    | zero => rfl
    | succ i =>
      simp only [Memory.readN, List.getElem_cons_succ]
      rw [ih, Nat.add_right_comm, Nat.add_assoc]

/-- Bytes written to a canonical memory read back. -/
theorem Memory.readN_writeN (m : Memory) (a : Nat) (bs : List Byte) (w : m.wf = true) : (m.writeN a bs).readN a bs.length = bs := by
  refine List.ext_getElem (Memory.length_readN _ _ _) fun i h h' => ?_
  rw [Memory.getElem_readN, Memory.read_writeN_inside m a i bs w h', List.getD_eq_getElem _ _ h']

/-! ### Writing a record -/

/-- The byte of flat memory where record `p` of the ring of quad `q` begins (R304, R305). -/
def Team.recordPlace (tm : Team) (q p : Nat) : Nat := tm.quadPlace q + 0x170000 + 64 * p

theorem recordAddr_eq (s : State) (tm : Team) (p : Nat) : Claims.recordAddr s tm p = tm.recordPlace (s.here.core / 2) p := rfl

/-- A core that has noted the record of a trap for the end of its cycle (R302). -/
def CoreCtx.noteRecord (c : CoreCtx) (idx : Nat) : CoreCtx := { c with raised := c.raised ++ [idx] }

/-- The machine with a record of these words at byte `a` of flat memory, its team changed, and the record noted by core `k`. -/
def State.withRecord (s : State) (k : Key) (a : Nat) (ws : List W64) (g : Team → Team) (idx : Nat) : State :=
  ((s.setFlat a (wordsBytes ws)).modTeam k.1 g).modCore k fun c => c.noteRecord idx

/-- R305: a trap whose quad's ring has a free position writes its record there, and its core notes it for the cycle's end. -/
theorem State.raiseOnCore_free (s : State) (k : Key) (x : TrapInfo) (r : RecordSite) (tm : Team) (p : Nat)
    (ht : s.team? k.1 = some tm) (hp : tm.freePos (k.2 / 2) = some p) :
    ∃ g, s.raiseOnCore k x r =
      s.withRecord k (tm.recordPlace (k.2 / 2) p) (recordWords k.1 x r s.time tm.recSeq) g (k.2 / 2 * 512 + p) := by
  unfold State.raiseOnCore State.writeRecord quadOf
  simp only [ht, hp]
  exact ⟨_, rfl⟩

@[simp] theorem State.withRecord_hbm (s : State) (k : Key) (a : Nat) (ws : List W64) (g : Team → Team) (idx : Nat) :
    (s.withRecord k a ws g idx).hbm = s.hbm := rfl
@[simp] theorem State.withRecord_mcores (s : State) (k : Key) (a : Nat) (ws : List W64) (g : Team → Team) (idx : Nat) :
    (s.withRecord k a ws g idx).mcores = s.mcores := rfl
@[simp] theorem State.withRecord_time (s : State) (k : Key) (a : Nat) (ws : List W64) (g : Team → Team) (idx : Nat) :
    (s.withRecord k a ws g idx).time = s.time := rfl

theorem State.core?_withRecord (s : State) (k : Key) (a : Nat) (ws : List W64) (g : Team → Team) (idx : Nat) :
    (s.withRecord k a ws g idx).core? k = (s.core? k).map fun c => c.noteRecord idx := State.core?_modCore_same _ _ _

theorem State.core?_withRecord_other (s : State) (k k2 : Key) (a : Nat) (ws : List W64) (g : Team → Team) (idx : Nat) (h : k ≠ k2) :
    (s.withRecord k a ws g idx).core? k2 = s.core? k2 := State.core?_modCore_other _ _ _ _ h

/-- A record of eight words written into canonical flat memory stands there. -/
theorem State.readN_withRecord (s : State) (k : Key) (a : Nat) (ws : List W64) (g : Team → Team) (idx : Nat) (hw : ws.length = 8)
    (wf : s.flat.wf = true) : (s.withRecord k a ws g idx).flat.readN a 64 = wordsBytes ws := by
  have len : (wordsBytes ws).length = 64 := by rw [wordsBytes_length, hw]
  show (s.flat.writeN a (wordsBytes ws)).readN a 64 = _
  rw [← len, Memory.readN_writeN _ _ _ wf]

/-- It changes no other byte. -/
theorem State.read_withRecord (s : State) (k : Key) (a : Nat) (ws : List W64) (g : Team → Team) (idx : Nat) (hw : ws.length = 8)
    (wf : s.flat.wf = true) (b : Nat) (hb : b < a ∨ a + 64 ≤ b) : (s.withRecord k a ws g idx).flat.read b = s.flat.read b :=
  Memory.read_writeN_outside _ _ _ _ wf (by rw [wordsBytes_length, hw]; exact hb)

end Sys2Proof.Machine
end

