-- ==== Sys2Proof/Proofs/Status.lean ====
section
/-! PROOF. When a slot is ready, trap-ready or neither (R21, R30): the parts of `slotStatus`, and what each answer says of them. -/

namespace Sys2Proof.Machine

/-! ### Traps -/

/-- The lowest of several traps is one of them. -/
theorem mem_of_lowestTrap (ts : List TrapInfo) (x : TrapInfo) (h : lowestTrap ts = some x) : x ∈ ts := by
  induction ts with
  | nil => simp [lowestTrap] at h
  | cons t ts ih =>
    rw [lowestTrap] at h
    cases hl : lowestTrap ts with
    | none => simp only [hl, Option.some.injEq] at h; simp [h]
    | some u =>
      simp only [hl] at h
      split at h <;> cases h
      · exact List.mem_cons_of_mem _ (ih hl)
      · exact List.mem_cons_self

theorem lowestTrap_eq_none (ts : List TrapInfo) : lowestTrap ts = none ↔ ts = [] := by
  cases ts with
  | nil => simp [lowestTrap]
  | cons t ts =>
    rw [lowestTrap]
    split
    · split <;> simp
    · simp

/-- The register sources of a slot that are empty (R21). -/
def emptySources (sh : Shape) (f : Fields) (e : Elem) : List Nat := (regSources sh f).filter fun r => !(e.reg r).full

/-- FMT_MISMATCH and NULL_OPERAND of a slot's queue heads (R17, R31). -/
def headTraps (o : Op) (sh : Shape) (f : Fields) (e : Elem) : List TrapInfo :=
  (match fmtFault sh f e with | some q => [fmtTrap e q] | none => []) ++
    (match nullFault o sh f e with | some q => [nullTrap e q] | none => [])

/-- The traps of a slot's operands (R21, R30). -/
def operandTraps (o : Op) (sh : Shape) (f : Fields) (e : Elem) : List TrapInfo :=
  headTraps o sh f e ++ emptyTraps e (emptySources sh f e) (headTraps o sh f e)

/-- The operation's own trap: without its operands only the one that asks for none (Table 1.7). -/
def ownTraps (o : Op) (sh : Shape) (l : Look) : List TrapInfo :=
  match if (emptySources sh l.f l.e).isEmpty then o.trap l else o.modeTrap l with | some x => [x] | none => []

/-- Has every operand arrived? -/
def operandsPresent (o : Op) (sh : Shape) (f : Fields) (e : Elem) : Bool :=
  (emptySources sh f e).isEmpty && (queueSources sh f).all fun q => decide (o.take ≤ (e.queue q).length)

/-- What a slot waits for beside its operands. -/
def restReady (o : Op) (l : Look) : Bool := o.ready l && !(o.stalls l && l.c.specRun l.e.run) && entriesReady o l

/-- The traps that count for a slot whose `base` holds. -/
def raisedTraps (o : Op) (sh : Shape) (l : Look) : List TrapInfo :=
  if (operandTraps o sh l.f l.e).isEmpty then []
  else operandTraps o sh l.f l.e ++
    if (operandsPresent o sh l.f l.e || !(emptySources sh l.f l.e).isEmpty) && restReady o l then ownTraps o sh l else []

/-- R21, R30: a slot's status in these parts. -/
theorem slotStatus_eq (o : Op) (f : Fields) (s : State) (t : Site) (c : CoreCtx) (e : Elem) (sh : Shape)
    (hc : s.core? t.k = some c) (hs : shapeOf o.opc = some sh) (he : c.elem? t.pos = some e) :
    slotStatus o f s t =
      let l := lookAt o f s t c e
      if t.chosen then (if operandsPresent o sh f e && restReady o l then .ready else .wait)
      else if !baseReady o sh f c e t then .wait
      else match lowestTrap (raisedTraps o sh l) with
        | some x => .trap x
        | none =>
          if !operandsPresent o sh f e || !restReady o l then .wait
          else match lowestTrap (ownTraps o sh l) with
            | some x => .trap x
            | none => .ready := by
  unfold slotStatus
  simp only [hc, hs, he]
  rfl

/-! ### What each status says -/

theorem headTraps_eq (o : Op) (sh : Shape) (f : Fields) (e : Elem) :
    headTraps o sh f e = ((fmtFault sh f e).map (fmtTrap e)).toList ++ ((nullFault o sh f e).map (nullTrap e)).toList := by
  unfold headTraps
  cases fmtFault sh f e <;> cases nullFault o sh f e <;> rfl

theorem ownTraps_eq (o : Op) (sh : Shape) (l : Look) :
    ownTraps o sh l = (if (emptySources sh l.f l.e).isEmpty then o.trap l else o.modeTrap l).toList := by
  unfold ownTraps
  generalize (if (emptySources sh l.f l.e).isEmpty then o.trap l else o.modeTrap l) = x
  cases x <;> rfl

theorem code_of_headTraps (o : Op) (sh : Shape) (f : Fields) (e : Elem) (x : TrapInfo) (h : x ∈ headTraps o sh f e) :
    x.code = 2 ∨ x.code = 4 := by
  simp only [headTraps_eq, List.mem_append, Option.mem_toList, Option.map_eq_some_iff] at h
  rcases h with ⟨q, -, rfl⟩ | ⟨q, -, rfl⟩
  · exact .inl rfl
  · exact .inr rfl

theorem code_of_emptyTraps (e : Elem) (rs : List Nat) (heads : List TrapInfo) (x : TrapInfo) (h : x ∈ emptyTraps e rs heads) :
    x.code = 3 := by
  unfold emptyTraps at h
  split at h
  · simp at h
  · split at h
    · rw [List.mem_singleton] at h; rw [h]; rfl
    · simp at h

/-- R30, Table 20.4: the traps of operands have the codes 2 to 4. -/
theorem code_of_operandTraps (o : Op) (sh : Shape) (f : Fields) (e : Elem) (x : TrapInfo) (h : x ∈ operandTraps o sh f e) :
    2 ≤ x.code ∧ x.code ≤ 4 := by
  rw [operandTraps, List.mem_append] at h
  rcases h with h | h
  · rcases code_of_headTraps o sh f e x h with h | h <;> omega
  · have := code_of_emptyTraps _ _ _ x h; omega

theorem mem_ownTraps (o : Op) (sh : Shape) (l : Look) (x : TrapInfo) (h : x ∈ ownTraps o sh l) :
    o.trap l = some x ∨ o.modeTrap l = some x := by
  rw [ownTraps_eq, Option.mem_toList] at h
  split at h
  · exact .inl h
  · exact .inr h

theorem mem_raisedTraps (o : Op) (sh : Shape) (l : Look) (x : TrapInfo) (h : x ∈ raisedTraps o sh l) :
    x ∈ operandTraps o sh l.f l.e ∨ x ∈ ownTraps o sh l := by
  unfold raisedTraps at h
  split at h
  · simp at h
  · rcases List.mem_append.1 h with h | h
    · exact .inl h
    · split at h
      · exact .inr h
      · simp at h

/-- R30: a trap of an operand has a code from 2 to 4; any other is the operation's own. -/
theorem trap_of_slotStatus (o : Op) (f : Fields) (s : State) (t : Site) (c : CoreCtx) (e : Elem) (sh : Shape) (x : TrapInfo)
    (hc : s.core? t.k = some c) (hs : shapeOf o.opc = some sh) (he : c.elem? t.pos = some e) (h : slotStatus o f s t = .trap x) :
    (2 ≤ x.code ∧ x.code ≤ 4) ∨ o.trap (lookAt o f s t c e) = some x ∨ o.modeTrap (lookAt o f s t c e) = some x := by
  have found : x ∈ raisedTraps o sh (lookAt o f s t c e) ∨ x ∈ ownTraps o sh (lookAt o f s t c e) := by
    rw [slotStatus_eq o f s t c e sh hc hs he] at h
    simp only at h
    split at h
    · split at h <;> cases h
    · split at h
      · cases h
      · split at h
        next y hy => cases h; exact .inl (mem_of_lowestTrap _ _ hy)
        next =>
          split at h
          · cases h
          · split at h
            next y hy => cases h; exact .inr (mem_of_lowestTrap _ _ hy)
            next => cases h
  have own (h : x ∈ ownTraps o sh (lookAt o f s t c e)) := mem_ownTraps o sh _ x h
  rcases found with h | h
  · rcases mem_raisedTraps o sh _ x h with h | h
    · exact .inl (code_of_operandTraps o sh _ _ x h)
    · exact .inr (own h)
  · exact .inr (own h)

theorem raisedTraps_eq_nil (o : Op) (sh : Shape) (l : Look) : raisedTraps o sh l = [] ↔ operandTraps o sh l.f l.e = [] := by
  unfold raisedTraps
  split <;> simp_all

/-- R21: a slot that no selector has chosen before is ready when its `base` holds, nothing traps and nothing is missing. -/
theorem slotStatus_eq_ready (o : Op) (f : Fields) (s : State) (t : Site) (c : CoreCtx) (e : Elem) (sh : Shape)
    (hc : s.core? t.k = some c) (hs : shapeOf o.opc = some sh) (he : c.elem? t.pos = some e) (hn : t.chosen = false) :
    slotStatus o f s t = .ready ↔ baseReady o sh f c e t = true ∧ operandTraps o sh f e = [] ∧ operandsPresent o sh f e = true ∧
      restReady o (lookAt o f s t c e) = true ∧ ownTraps o sh (lookAt o f s t c e) = [] := by
  have htraps := raisedTraps_eq_nil o sh (lookAt o f s t c e)
  rw [← lowestTrap_eq_none] at htraps
  have hown := lowestTrap_eq_none (ownTraps o sh (lookAt o f s t c e))
  rw [slotStatus_eq o f s t c e sh hc hs he, hn, ← hown]
  change _ ↔ operandTraps o sh f e = [] at htraps
  rw [← htraps]
  simp only [Bool.false_eq_true, if_false]
  cases baseReady o sh f c e t with
  | false => simp
  | true =>
    cases lowestTrap (raisedTraps o sh (lookAt o f s t c e)) with
    | some x => simp
    | none =>
      cases operandsPresent o sh f e <;> cases restReady o (lookAt o f s t c e) <;>
        cases lowestTrap (ownTraps o sh (lookAt o f s t c e)) <;> simp

end Sys2Proof.Machine
end

