-- ==== Sys2Proof/Proofs/Traps.lean ====
section
/-! PROOF. O18: slots that are not ready wait, trap-ready ones trap in place of firing (R21, R30, R145, R302), and the traps of a
speculative run that R255 names are held. -/

namespace Sys2Proof.Machine

/-! ### Every element operation is one `Op` -/

/-- The step of an operation is the wait, trap or fire that every element operation shares (R21, R24, R30). -/
def RunsOp (x : (Fields → Instr) × Op) : Prop := ∀ f s, exec (x.1 f) s = runOp x.2 f s

theorem slots_runOp : ∀ x ∈ Claims.slots, RunsOp x := by
  refine List.forall_iff_forall_mem.1 ?_
  repeat' apply And.intro
  all_goals exact fun _ _ => rfl

theorem slots_shape : ∀ x ∈ Claims.slots, (shapeOf x.2.opc).isSome = true := List.all_eq_true.1 (by decide +kernel)

/-! ### Taking a trap at an element (R30, R255, R301, R305) -/

/-- R301: an element that notes the access of a WATCH_HIT. -/
def Elem.noteAccess (slot : Nat) (e : Elem) : Elem := { e with watched := e.watched ++ [.slot slot] }

/-- What a WATCH_HIT leaves before its record is written, and any other trap does not: the element at `here` has noted the access,
and the watchpoint has counted it. -/
structure WatchNoted (s : State) (c : CoreCtx) (e : Elem) (tm : Team) (x : TrapInfo) (s' : State) : Prop where
  core : ∃ c', s'.core? s.key = some c' ∧ c' = { c with elems := c'.elems } ∧
    c'.elem? s.here.pos = some { e with watched := Claims.watchedAfter s e x } ∧ ∀ n, n ≠ s.here.pos → c'.elem? n = c.elem? n
  cores : ∀ k, k ≠ s.key → s'.core? k = s.core? k
  team : ∃ w, s'.team? s.here.ctx = some { tm with watch := w }
  rest : s'.flat = s.flat ∧ s'.hbm = s.hbm ∧ s'.mcores = s.mcores ∧ s'.time = s.time

theorem WatchNoted.refl (s : State) (c : CoreCtx) (e : Elem) (tm : Team) (x : TrapInfo) (h : Claims.At s c e)
    (ht : s.team? s.here.ctx = some tm) (h7 : x.code ≠ 7) : WatchNoted s c e tm x s where
  core := ⟨c, h.core, rfl, by rw [Claims.watchedAfter, if_neg h7]; exact h.elem, fun _ _ => rfl⟩
  cores _ _ := rfl
  team := ⟨tm.watch, ht⟩
  rest := ⟨rfl, rfl, rfl, rfl⟩

theorem WatchNoted.hit (s : State) (c : CoreCtx) (e : Elem) (tm : Team) (x : TrapInfo) (h : Claims.At s c e)
    (ht : s.team? s.here.ctx = some tm) (h7 : x.code = 7) (w : Vector WatchPoint 16 → Vector WatchPoint 16) :
    WatchNoted s c e tm x ((s.modElem s.key s.here.pos (Elem.noteAccess s.here.idx)).modTeam s.key.1
      fun tm => { tm with watch := w tm.watch }) where
  core := by
    refine ⟨c.modElem s.here.pos (Elem.noteAccess s.here.idx), ?_, rfl, ?_, fun n hn => ?_⟩
    · rw [State.core?_modTeam, State.modElem, State.core?_modCore_same, h.core, Option.map_some]
    · rw [CoreCtx.elem?_modElem_same, c.elemD_of _ e h.elem, Claims.watchedAfter, if_pos h7, Elem.noteAccess]
    · exact c.elem?_modElem_other _ _ _ hn.symm
  cores k hk := State.core?_modCore_other _ _ _ _ hk.symm
  team := ⟨w tm.watch, by
    show Assoc.get? (s.teams.adjust s.here.ctx _) s.here.ctx = _
    rw [Assoc.get?_adjust_same, show s.teams.get? s.here.ctx = some tm from ht]; rfl⟩
  rest := ⟨rfl, rfl, rfl, rfl⟩

/-- What a record says of the slot at `here` (Table 20.2). -/
def slotSite (s : State) (c : CoreCtx) (e : Elem) : RecordSite :=
  ⟨0, false, s.here.core, s.here.pos, s.here.idx, 0, c.runStatus e.run, c.cyc, c.epoch⟩

theorem recordWords_slotSite (s : State) (c : CoreCtx) (e : Elem) (tm : Team) (x : TrapInfo) :
    recordWords s.key.1 x (slotSite s c e) s.time tm.recSeq = Claims.elementRecord s c e tm x := by
  unfold recordWords Claims.elementRecord slotSite State.key w64
  refine congrArg₂ List.cons (congrArg (BitVec.ofNat 64) ?_) rfl
  dsimp only
  rw [show b2n false = 0 from rfl]
  omega

/-- R30, R305: the record of a trap at an element is written and its core notes it. -/
theorem WatchNoted.trapped {s s' : State} {c : CoreCtx} {e : Elem} {tm : Team} {x : TrapInfo} {p : Nat}
    (h : WatchNoted s c e tm x s') (hp : tm.freePos (s.here.core / 2) = some p) (wf : s.flat.wf = true) :
    Claims.Trapped s c e tm p x (s'.raiseOnCore s.key x (slotSite s c e)) := by
  obtain ⟨⟨c', hc', hshape, hpos, hothers⟩, hcores, ⟨w, ht⟩, hflat, hhbm, hmcores, htime⟩ := h
  obtain ⟨g, hr⟩ := s'.raiseOnCore_free s.key x (slotSite s c e) { tm with watch := w } p ht hp
  have hwords : recordWords s.key.1 x (slotSite s c e) s'.time tm.recSeq = Claims.elementRecord s c e tm x := by
    rw [htime, recordWords_slotSite]
  have hplace : Team.recordPlace { tm with watch := w } (s.key.2 / 2) p = Claims.recordAddr s tm p := rfl
  have wf' : s'.flat.wf = true := by rw [hflat]; exact wf
  rw [hwords, hplace] at hr
  rw [hr]
  refine ⟨⟨c'.noteRecord (s.key.2 / 2 * 512 + p), ?_, ?_, hpos, hothers⟩, fun k hk => ?_,
    s'.readN_withRecord _ _ _ _ _ rfl wf', fun a ha => ?_, ?_, ?_, ?_⟩
  · rw [State.core?_withRecord, hc']; rfl
  · rw [hshape]; rfl
  · rw [State.core?_withRecord_other _ _ _ _ _ _ _ hk.symm, hcores k hk]
  · rw [s'.read_withRecord _ _ _ _ _ rfl wf' a ha, hflat]
  · rw [State.withRecord_hbm, hhbm]
  · rw [State.withRecord_mcores, hmcores]
  · rw [State.withRecord_time, htime]

/-- A trap that is not held writes its record, a WATCH_HIT once it is noted. -/
theorem elementTrap_trapped (s : State) (c : CoreCtx) (e : Elem) (tm : Team) (p : Nat) (x : TrapInfo) (h : Claims.At s c e)
    (hs : c.specRun e.run = false) (ht : s.team? s.here.ctx = some tm) (hp : tm.freePos (s.here.core / 2) = some p)
    (wf : s.flat.wf = true) : Claims.Trapped s c e tm p x (s.elementTrap s.key s.here.pos s.here.idx x false) := by
  have he : c.elemD s.here.pos = e := c.elemD_of _ e h.elem
  by_cases h7 : x.code = 7
  · have := (WatchNoted.hit s c e tm x h ht h7 fun v =>
      let i := field x.info 20 4
      let w := at' v i WatchPoint.off
      upd v i { w with count := if w.count = BitVec.allOnes 32 then w.count else w.count + 1#32 }).trapped hp wf
    unfold State.elementTrap
    simp only [h.core, he, h7, hs, Bool.and_false]
    exact this
  · have := (WatchNoted.refl s c e tm x h ht h7).trapped hp wf
    have hb : (x.code == 7) = false := by simp [h7]
    unfold State.elementTrap
    simp only [h.core, he, hb, h7, hs, Bool.and_false]
    exact this

/-- R255: a trap of a speculative run that R255 names stays in its element. -/
theorem elementTrap_held (s : State) (c : CoreCtx) (e : Elem) (x : TrapInfo) (h : Claims.At s c e)
    (hs : c.specRun e.run = true) (hx : (1 ≤ x.code ∧ x.code ≤ 7) ∨ x.code = 9) :
    ∃ cs, s.elementTrap s.key s.here.pos s.here.idx x false = { s with cores := cs } ∧
      State.elem? { s with cores := cs } s.key s.here.pos =
        some { e with held := some x, heldSlot := s.here.idx, watched := Claims.watchedAfter s e x } := by
  have he : c.elemD s.here.pos = e := c.elemD_of _ e h.elem
  have hh : heldCode x.code = true := by simpa [heldCode] using hx
  by_cases h7 : x.code = 7
  · have both : s.elementTrap s.key s.here.pos s.here.idx x false =
        (s.modElem s.key s.here.pos (Elem.noteAccess s.here.idx)).modElem s.key s.here.pos
          fun e => { e with held := some x, heldSlot := s.here.idx } := by
      unfold State.elementTrap
      simp only [h.core, he, h7, hs]
      rfl
    refine ⟨_, both, ?_⟩
    show ((s.modElem _ _ _).modElem _ _ _).elem? _ _ = _
    rw [State.elem?, State.modElem, State.core?_modCore_same, State.modElem, State.core?_modCore_same, h.core]
    simp only [Option.map_some, Option.bind_some, CoreCtx.elem?_modElem_same, CoreCtx.elemD_modElem_same, he]
    rw [Claims.watchedAfter, if_pos h7, Elem.noteAccess]
  · have hb : (x.code == 7) = false := by simp [h7]
    have once : s.elementTrap s.key s.here.pos s.here.idx x false =
        s.modElem s.key s.here.pos fun e => { e with held := some x, heldSlot := s.here.idx } := by
      unfold State.elementTrap
      simp only [h.core, he, hb, hs, hh]
      rfl
    refine ⟨_, once, ?_⟩
    show (s.modElem _ _ _).elem? _ _ = _
    rw [State.elem?, State.modElem, State.core?_modCore_same, h.core]
    simp only [Option.map_some, Option.bind_some, CoreCtx.elem?_modElem_same, he]
    rw [Claims.watchedAfter, if_neg h7]

/-! ### The obligation -/

/-- Settles O18. -/
theorem trapsReplaceFires : Obligations.TrapsReplaceFires := by
  refine ⟨?wait, ?trap, ?held, ?chosen⟩
  case wait =>
    intro x hx f s c e h
    obtain ⟨sh, hsh⟩ := Option.isSome_iff_exists.1 (slots_shape x hx)
    refine ⟨fun hw => ?_, fun y tm p hy hs ht hp wf => ⟨_, ?_, elementTrap_trapped s c e tm p y h hs ht hp wf⟩⟩
    · rw [slots_runOp x hx, runOp_wait x.2 f s c e sh hsh h.core h.elem hw]
    · rw [slots_runOp x hx, runOp_trap x.2 f s c e sh y hsh h.core h.elem hy]
  case trap =>
    intro f s c e y tm p h hy h9 hs ht hp wf
    have own : y = ⟨0x09, (Claims.operands 0xE3 f s c e).a.data, 0#64⟩ := by
      rcases trap_of_slotStatus trapOp f s s.site c e .sa y h.core rfl h.elem hy with hn | hn | hn
      · omega
      · exact (Option.some.inj hn).symm
      · cases hn
    refine ⟨_, runOp_trap trapOp f s c e .sa y rfl h.core h.elem hy, ?_⟩
    rw [← own]
    exact elementTrap_trapped s c e tm p y h hs ht hp wf
  case held =>
    intro x hx f s c e y h hy hs hcode
    obtain ⟨sh, hsh⟩ := Option.isSome_iff_exists.1 (slots_shape x hx)
    obtain ⟨cs, hcs, helem⟩ := elementTrap_held s c e y h hs hcode
    refine ⟨_, ?_, helem, rfl, rfl, rfl, rfl⟩
    rw [slots_runOp x hx, runOp_trap x.2 f s c e sh y hsh h.core h.elem hy, hcs]
  case chosen =>
    intro s c e y tm p h hy hs ht hp wf
    refine ⟨_, ?_, elementTrap_trapped s c e tm p y h hs ht hp wf⟩
    show execElementTrap s = _
    simp only [execElementTrap, State.onCore, h.core, h.elem, hy]

end Sys2Proof.Machine
end

