-- ==== Sys2Proof/Proofs/Readiness.lean ====
section
/-! PROOF. O15: a slot of a PE operation without conditions of its own is ready exactly when its trigger, operands, destination and
predicates say so (R17 to R19, R21, R29, R31, R66). -/

namespace Sys2Proof.Machine

/-! ### Triggers (R21, R29) -/

/-- The bits of a mask that is summed bit by bit. -/
theorem foldl_bits (b : Nat → Bool) (n : Nat) :
    (List.range n).foldl (fun x i => x + if b i then 2 ^ i else 0) 0 < 2 ^ n ∧
      ∀ i, ((List.range n).foldl (fun x i => x + if b i then 2 ^ i else 0) 0).testBit i = (decide (i < n) && b i) := by
  induction n with
  | zero => simp
  | succ n ih =>
    rw [List.range_succ, List.foldl_append, List.foldl_cons, List.foldl_nil]
    obtain ⟨hlt, hbit⟩ := ih
    generalize (List.range n).foldl (fun x i => x + if b i then 2 ^ i else 0) 0 = x at hlt hbit
    have hpow : 2 ^ (n + 1) = 2 ^ n + 2 ^ n := by rw [Nat.pow_succ]; omega
    cases hb : b n with
    | false =>
      refine ⟨by simp; omega, fun i => ?_⟩
      rcases Nat.lt_trichotomy i n with h | h | h
      · simp [hbit, h, Nat.lt_succ_of_lt h]
      · subst h; simp [hbit, hb]
      · simp [hbit, Nat.not_lt_of_gt h, show ¬ i < n + 1 by omega]
    | true =>
      refine ⟨by simp; omega, fun i => ?_⟩
      rw [if_pos rfl, Nat.add_comm]
      rcases Nat.lt_trichotomy i n with h | h | h
      · rw [Nat.testBit_two_pow_add_gt h, hbit]; simp [h, Nat.lt_succ_of_lt h]
      · subst h; rw [Nat.testBit_two_pow_add_eq, hbit]; simp [hb]
      · rw [Nat.testBit_lt_two_pow (Nat.lt_of_lt_of_le (show 2 ^ n + x < 2 ^ (n + 1) by omega) (Nat.pow_le_pow_right (by omega) h))]
        simp [show ¬ i < n + 1 by omega]

theorem getLsbD_foldl_bits (b : Nat → Bool) (i : Nat) (h : i < 8) :
    (BitVec.ofNat 8 ((List.range 8).foldl (fun x i => x + if b i then 2 ^ i else 0) 0)).getLsbD i = b i := by
  rw [BitVec.getLsbD_ofNat, (foldl_bits b 8).2 i]
  simp [h]

theorem Elem.getLsbD_predMask (e : Elem) (i : Nat) (h : i < 8) : e.predMask.getLsbD i = (e.pred i).val :=
  getLsbD_foldl_bits (fun i => (e.pred i).val) i h

theorem Elem.getLsbD_pendingMask (e : Elem) (i : Nat) (h : i < 8) : e.pendingMask.getLsbD i = (e.pred i).pending :=
  getLsbD_foldl_bits (fun i => (e.pred i).pending) i h

/-- Two words agree under a mask when they agree in its bits. -/
theorem and_eq_and_iff (a b m : BitVec 8) : a &&& m = b &&& m ↔ ∀ i < 8, m.getLsbD i = true → a.getLsbD i = b.getLsbD i := by
  constructor
  · intro h i hi hm
    have := congrArg (fun v => v.getLsbD i) h
    simpa [hm] using this
  · intro h
    refine BitVec.eq_of_getLsbD_eq fun i hi => ?_
    cases hm : m.getLsbD i with
    | false => simp [hm]
    | true => simp [hm, h i hi hm]

theorem predMatch_iff (e : Elem) (f : Fields) : predMatch e f = true ↔ Claims.Matches e f := by
  unfold predMatch Claims.Matches
  cases f.x with
  | true =>
    simp only [if_true]
    cases e.head? f.qa.toNat with
    | none => simp
    | some h => simp
  | false =>
    have hz : e.pendingMask &&& f.pm = 0#8 ↔ e.pendingMask &&& f.pm = 0#8 &&& f.pm := by rw [BitVec.zero_and]
    simp only [Bool.false_eq_true, if_false, Bool.and_eq_true, beq_iff_eq, hz, and_eq_and_iff, ← forall_and]
    refine forall_congr' fun i => forall_congr' fun hi => ?_
    rw [e.getLsbD_predMask i hi, e.getLsbD_pendingMask i hi]
    simp [imp_and]

theorem qtest_iff (e : Elem) (q : Nat) (t : BitVec 3) : qtest e q t.toNat = true ↔ Claims.Tagged e q t.toNat := by
  unfold qtest Claims.Tagged
  have ht : t.toNat < 8 := t.isLt
  by_cases h0 : t.toNat = 0
  · simp [h0]
  · cases e.head? q with
    | none => simp [h0]
    | some h =>
      generalize t.toNat = n at ht h0
      simp only [h0, if_false, false_or, Option.some.injEq, exists_eq_left']
      interval_cases n <;> simp_all

/-! ### Sources (R17, R19, R31) -/

theorem mem_sourceCodes (sh : Shape) (f : Fields) (n : Nat) : n ∈ sourceCodes sh f ↔ Claims.Reads sh f n := by
  unfold sourceCodes Claims.Reads
  cases sh.srcA <;> cases sh.srcB <;> simp [eq_comm (a := n)]

theorem mem_queueSources (sh : Shape) (f : Fields) (q : Nat) : q ∈ queueSources sh f ↔ q < 4 ∧ Claims.Reads sh f (12 + q) := by
  simp only [queueSources, List.mem_map, List.mem_filter, mem_sourceCodes, codeIsQueue, decide_eq_true_eq]
  constructor
  · rintro ⟨n, ⟨hr, h1, h2⟩, rfl⟩
    exact ⟨by omega, by rwa [Nat.add_sub_cancel' h1]⟩
  · rintro ⟨hq, hr⟩
    exact ⟨12 + q, ⟨hr, by omega, by omega⟩, by omega⟩

theorem mem_regSources (sh : Shape) (f : Fields) (r : Nat) :
    r ∈ regSources sh f ↔ (r ≤ 11 ∧ Claims.Reads sh f r) ∨ (sh.d = .accum ∧ f.dst.toNat = r) := by
  simp only [regSources, List.mem_append, List.mem_filter, mem_sourceCodes, codeIsReg, decide_eq_true_eq, Shape.srcD]
  refine or_congr and_comm ?_
  by_cases h : sh.d = .accum <;> simp [h, eq_comm (a := r)]

/-- R21: the queues that a slot tests or reads. -/
theorem mem_usedQueues (sh : Shape) (f : Fields) (q : Nat) :
    q ∈ usedQueues sh f ↔ q < 4 ∧ (Claims.Reads sh f (12 + q) ∨ (f.qa.toNat = q ∧ f.ta.toNat ≠ 0) ∨ (f.qb.toNat = q ∧ f.tb.toNat ≠ 0)) := by
  have zero (t : BitVec 3) : t = 0#3 ↔ t.toNat = 0 := by bv_omega
  have ha : f.qa.toNat < 4 := f.qa.isLt
  have hb : f.qb.toNat < 4 := f.qb.isLt
  have tested (c : Prop) [Decidable c] (n : Nat) : q ∈ (if c then [] else [n]) ↔ n = q ∧ ¬ c := by
    split <;> simp_all [eq_comm (a := q)]
  simp only [usedQueues, List.mem_append, mem_queueSources, tested, zero]
  constructor
  · rintro ((h | h) | h)
    · exact ⟨by omega, .inr (.inl h)⟩
    · exact ⟨by omega, .inr (.inr h)⟩
    · exact ⟨h.1, .inl h.2⟩
  · rintro ⟨hq, h | h | h⟩
    · exact .inr ⟨hq, h⟩
    · exact .inl (.inl h)
    · exact .inl (.inr h)

theorem Elem.unaccepted_iff (e : Elem) (q : Nat) : e.unaccepted q = true ↔ Claims.Refused e q ∧ at' e.cfg.detour q 0 = 0 := by
  unfold Elem.unaccepted Claims.Refused
  cases e.head? q <;> simp

theorem Elem.detours_iff (e : Elem) (q : Nat) : e.detours q = true ↔ Claims.Refused e q ∧ at' e.cfg.detour q 0 ≠ 0 := by
  unfold Elem.detours Claims.Refused
  cases e.head? q <;> simp

theorem fmtFault_eq_none (sh : Shape) (f : Fields) (e : Elem) :
    fmtFault sh f e = none ↔ ∀ q < 4, Claims.Reads sh f (12 + q) → ¬ (Claims.Refused e q ∧ at' e.cfg.detour q 0 = 0) := by
  simp only [fmtFault, List.find?_eq_none, mem_queueSources, Elem.unaccepted_iff, and_imp]

/-- R31: the triggers that test a queue with .n or .!d. -/
theorem nullExempt_iff (f : Fields) (q : Nat) :
    nullExempt f q = true ↔ (f.qa.toNat = q ∧ (f.ta.toNat = 5 ∨ f.ta.toNat = 7)) ∨ (f.qb.toNat = q ∧ (f.tb.toNat = 5 ∨ f.tb.toNat = 7)) := by
  have five (t : BitVec 3) : t = 5#3 ↔ t.toNat = 5 := by bv_omega
  have seven (t : BitVec 3) : t = 7#3 ↔ t.toNat = 7 := by bv_omega
  simp only [nullExempt, Bool.or_eq_true, Bool.and_eq_true, beq_iff_eq, five, seven]

theorem nullFault_eq_none (o : Op) (sh : Shape) (f : Fields) (e : Elem) (hstore : o.store = false) :
    nullFault o sh f e = none ↔ ∀ q < 4, Claims.Reads sh f (12 + q) → ¬ Claims.NullFault o.whole sh f e q := by
  have hskip : skippedStore o sh f e = false := by simp [skippedStore, hstore]
  unfold nullFault Claims.NullFault
  rw [hskip]
  cases o.whole with
  | true => simp
  | false =>
    have null (q : Nat) : (e.head? q).map (·.ctl) = some .null ↔ ∃ h, e.head? q = some h ∧ h.ctl = .null := Option.map_eq_some_iff
    have exempt (q : Nat) := not_congr (nullExempt_iff f q)
    simp only [Bool.not_eq_true, not_or] at exempt
    simp only [Bool.or_self, Bool.false_eq_true, if_false, List.find?_eq_none, mem_queueSources, Bool.and_eq_true, beq_iff_eq, null,
      Bool.not_eq_true', exempt, and_imp]
    exact forall_congr' fun q => forall_congr' fun _ => forall_congr' fun hr => by simp [hr]

theorem operandTraps_eq_nil (o : Op) (sh : Shape) (f : Fields) (e : Elem) (hempty : emptySources sh f e = []) :
    operandTraps o sh f e = [] ↔ fmtFault sh f e = none ∧ nullFault o sh f e = none := by
  rw [operandTraps, headTraps_eq, hempty]
  cases fmtFault sh f e <;> cases nullFault o sh f e <;> simp [emptyTraps]

/-! ### Destinations (R18, R19, R66, R85) -/

theorem Port.writable_iff (p : Port) : p.writable = true ↔ p.recvs ≠ [] ∧ ∀ r ∈ p.recvs, 0 < r.credits := by
  simp [Port.writable]

theorem CoreCtx.portOrder_iff (c : CoreCtx) (pos port cycles : Nat) :
    c.portOrder pos port cycles = true ↔
      ∀ fl ∈ c.flights, ∀ x, fl.cargo = .result x → x.pos = pos → x.dst = 24 + port → fl.left < cycles := by
  unfold CoreCtx.portOrder
  simp only [Bool.not_eq_true', List.any_eq_false]
  refine forall_congr' fun fl => forall_congr' fun _ => ?_
  cases fl.cargo <;> simp

theorem mem_dqRegs (sh : Shape) (f : Fields) (d : Nat) : d ∈ dqRegs sh f ↔ d ≤ 11 ∧ Claims.Takes sh f d := by
  unfold dqRegs Claims.Takes codeIsReg
  have one (c : Prop) [Decidable c] (n : Nat) : d ∈ (if c then [n] else []) ↔ c ∧ n = d := by
    split <;> simp_all [eq_comm (a := d)]
  simp only [List.mem_append, one, Bool.and_eq_true, decide_eq_true_eq]
  constructor
  · rintro (⟨⟨⟨h1, h2⟩, h3⟩, h4⟩ | ⟨⟨⟨h1, h2⟩, h3⟩, h4⟩)
    · exact ⟨by omega, .inl ⟨h1, h2, h4⟩⟩
    · exact ⟨by omega, .inr ⟨h1, h2, h4⟩⟩
  · rintro ⟨h, ⟨h1, h2, h3⟩ | ⟨h1, h2, h3⟩⟩
    · exact .inl ⟨⟨⟨h1, h2⟩, by omega⟩, h3⟩
    · exact .inr ⟨⟨⟨h1, h2⟩, by omega⟩, h3⟩

theorem destWritable_iff (c : CoreCtx) (e : Elem) (pos : Nat) (sh : Shape) (f : Fields) (cycles : Nat) (hpe : kindAt pos = .pe)
    (hd : sh.d = .result ∨ sh.d = .accum) : destWritable c e pos sh f cycles = true ↔ Claims.Writable sh f c e pos cycles := by
  unfold destWritable Claims.Writable
  rcases hd with hd | hd
  · simp only [hd, reduceCtorEq, if_false]
    by_cases hreg : f.dst.toNat ≤ 11
    · have notPort : ¬ (24 ≤ f.dst.toNat ∧ f.dst.toNat ≤ 27) := by omega
      rw [if_pos hreg]
      simp [hreg, notPort, mem_dqRegs, or_assoc]
    · rw [if_neg hreg]
      by_cases hport : 24 ≤ f.dst.toNat ∧ f.dst.toNat ≤ 27
      · have notPe : (kindAt pos != .pe) = false := by rw [hpe]; rfl
        rw [if_pos (show codeIsPort f.dst.toNat = true from decide_eq_true hport)]
        simp only [hreg, hport, IsEmpty.forall_iff, true_and, forall_const, Bool.and_eq_true, Port.writable_iff, notPe, Bool.false_or,
          CoreCtx.portOrder_iff, Option.isNone_iff_eq_none, show 24 + (f.dst.toNat - 24) = f.dst.toNat by omega, and_assoc, and_self]
      · rw [if_neg (by simpa [codeIsPort] using hport)]
        simp [hreg, hport]
  · simp [hd]

/-! ### Operations without conditions of their own -/

/-- A PE operation whose readiness is R21 alone. -/
structure PlainOp (o : Op) : Prop where
  delay : 1 ≤ o.delay
  ready : ∀ l, o.ready l = true
  trap : ∀ l, o.trap l = none
  modeTrap : ∀ l, o.modeTrap l = none
  stalls : ∀ l, o.stalls l = false
  entries : ∀ l, o.entries l = 0
  access : o.access = false
  take : o.take = 1
  store : o.store = false

theorem plainOps_plain : ∀ x ∈ Claims.plainOps, PlainOp x.2 := by
  refine List.forall_iff_forall_mem.1 ?_
  repeat' apply And.intro
  all_goals exact ⟨by decide, fun _ => rfl, fun _ => rfl, fun _ => rfl, fun _ => rfl, fun _ => rfl, rfl, rfl, rfl⟩

/-- Is the shape one of an operation that gives a result? -/
def Shape.gives (sh : Shape) : Bool := sh.d == .result || sh.d == .accum

theorem plainOps_gives : ∀ x ∈ Claims.plainOps, ((shapeOf x.2.opc).map Shape.gives) = some true := by
  have h : Claims.plainOps.all (fun x => ((shapeOf x.2.opc).map Shape.gives) == some true) = true := by decide +kernel
  simpa using h

theorem PlainOp.restReady {o : Op} (h : PlainOp o) (l : Look) : restReady o l = true := by
  simp [Machine.restReady, entriesReady, h.ready, h.stalls, h.entries]

theorem PlainOp.ownTraps {o : Op} (h : PlainOp o) (sh : Shape) (l : Look) : ownTraps o sh l = [] := by
  rw [ownTraps_eq, h.trap, h.modeTrap, ite_self]; rfl

/-- R143, R146, R173, R255, R302: the element runs. -/
theorem awake_iff (c : CoreCtx) (e : Elem) : awake c e = true ↔
    c.frozen = false ∧ c.resident = true ∧ e.run ≠ none ∧ e.halted = false ∧ e.waiting = false ∧ e.held = none := by
  simp [awake, and_assoc, Option.isSome_iff_ne_none]

theorem triggered_iff (e : Elem) (f : Fields) :
    triggered e f = true ↔ Claims.Matches e f ∧ Claims.Tagged e f.qa.toNat f.ta.toNat ∧ Claims.Tagged e f.qb.toNat f.tb.toNat := by
  rw [triggered, Bool.and_eq_true, Bool.and_eq_true, predMatch_iff, qtest_iff, qtest_iff, and_assoc]

/-- R17, R21: what a slot's queues must not show for it to be ready: heads that leave by a detour, and faulty operands. -/
theorem queues_ready_iff (o : Op) (sh : Shape) (f : Fields) (e : Elem) (hstore : o.store = false) :
    ((∀ q ∈ usedQueues sh f, ¬ e.detours q = true) ∧ (∀ q ∈ queueSources sh f, e.queue q ≠ []) ∧
        fmtFault sh f e = none ∧ nullFault o sh f e = none) ↔
      (∀ q < 4, Claims.Reads sh f (12 + q) ∨ (f.qa.toNat = q ∧ f.ta.toNat ≠ 0) ∨ (f.qb.toNat = q ∧ f.tb.toNat ≠ 0) →
        Claims.Refused e q → at' e.cfg.detour q 0 = 0) ∧
      (∀ q < 4, Claims.Reads sh f (12 + q) → e.queue q ≠ [] ∧ ¬ Claims.Refused e q ∧ ¬ Claims.NullFault o.whole sh f e q) := by
  simp only [mem_usedQueues, mem_queueSources, Elem.detours_iff, fmtFault_eq_none, nullFault_eq_none o sh f e hstore, not_and,
    not_not, ne_eq, and_imp]
  refine and_congr_right fun hdetour => ?_
  constructor
  · rintro ⟨hsome, hfmt, hnull⟩ q hq hr
    exact ⟨hsome q hq hr, fun href => hfmt q hq hr href (hdetour q hq (.inl hr) href), hnull q hq hr⟩
  · intro h
    exact ⟨fun q hq hr => (h q hq hr).1, fun q hq hr href => absurd href (h q hq hr).2.1, fun q hq hr => (h q hq hr).2.2⟩

/-- R19, R21, R66: the registers that a slot reads are full and wait for no result. -/
theorem registers_ready_iff (sh : Shape) (f : Fields) (e : Elem) :
    (emptySources sh f e = [] ∧ ∀ r ∈ regSources sh f, (e.reg r).pending = false) ↔
      ∀ r, (r ≤ 11 ∧ Claims.Reads sh f r) ∨ (sh.d = .accum ∧ f.dst.toNat = r) → (e.reg r).full = true ∧ (e.reg r).pending = false := by
  simp only [emptySources, List.filter_eq_nil_iff, Bool.not_eq_true', Bool.not_eq_false, ← mem_regSources]
  exact ⟨fun h r hr => ⟨h.1 r hr, h.2 r hr⟩, fun h => ⟨fun r hr => (h r hr).1, fun r hr => (h r hr).2⟩⟩

/-- R26, R27: the predicate that a slot updates or guards on waits for no result. -/
theorem predicate_ready_iff (sh : Shape) (f : Fields) (p : Bool) :
    ((updatesPred sh f && p) = false ∧ (sh.guarded && f.pu != 0#3 && p) = false) ↔ (f.pu ≠ 0#3 → p = false) := by
  unfold updatesPred
  cases sh.guarded <;> cases p <;> simp

/-- Settles O15: the parts of `slotStatus` (R17 to R19, R21, R29, R31, R66), each by its own meaning. -/
theorem readyExactlyWhenR21 : Obligations.ReadyExactlyWhenR21 := by
  intro x hx sh hsh f s c e hat hpe _
  have plain := plainOps_plain x hx
  have gives : sh.d = .result ∨ sh.d = .accum := by
    have := plainOps_gives x hx
    rw [hsh] at this
    simpa [Shape.gives] using this
  have chosen : s.site.chosen = false := by
    show (kindAt s.here.pos == .me && _) = false
    rw [hpe]; rfl
  have cycles : c.cyclesOf s.here.pos (max x.2.delay 1) = x.2.delay * at' c.divs (s.here.pos / 8) 1 := by
    rw [Nat.max_eq_left plain.delay, CoreCtx.cyclesOf]
  have present : operandsPresent x.2 sh f e = true ↔ emptySources sh f e = [] ∧ ∀ q ∈ queueSources sh f, e.queue q ≠ [] := by
    simp [operandsPresent, plain.take, Nat.one_le_iff_ne_zero]
  have base : baseReady x.2 sh f c e s.site = true ↔
      awake c e = true ∧ triggered e f = true ∧ (∀ q ∈ usedQueues sh f, ¬ e.detours q = true) ∧
        (∀ q ∈ queueSources sh f, e.queue q ≠ []) ∧
        destWritable c e s.here.pos sh f (x.2.delay * at' c.divs (s.here.pos / 8) 1) = true ∧
        ((updatesPred sh f && (e.pred f.pn.toNat).pending) = false ∧
          (sh.guarded && f.pu != 0#3 && (e.pred f.pn.toNat).pending) = false) ∧
        ∀ r ∈ regSources sh f, (e.reg r).pending = false := by
    rw [baseReady, show s.site.pos = s.here.pos from rfl, cycles, plain.access]
    generalize (updatesPred sh f && (e.pred f.pn.toNat).pending) = updated
    generalize (sh.guarded && f.pu != 0#3 && (e.pred f.pn.toNat).pending) = guard
    simp [and_assoc]
  rw [slotStatus_eq_ready x.2 f s s.site c e sh hat.core hsh hat.elem chosen, base, present, awake_iff, triggered_iff,
    destWritable_iff c e _ sh f _ hpe gives, predicate_ready_iff, Claims.Ready, ← registers_ready_iff]
  have queues := queues_ready_iff x.2 sh f e plain.store
  simp only [plain.restReady, plain.ownTraps, and_true]
  constructor
  · rintro ⟨⟨hawake, ⟨hmatch, hqa, hqb⟩, hdetour, hsome, hdest, hpred, hpending⟩, htraps, hempty, -⟩
    obtain ⟨hfmt, hnull⟩ := (operandTraps_eq_nil x.2 sh f e hempty).1 htraps
    obtain ⟨hdetour', hops⟩ := queues.1 ⟨hdetour, hsome, hfmt, hnull⟩
    exact ⟨hawake, hmatch, hqa, hqb, hdetour', hops, ⟨hempty, hpending⟩, hdest, hpred⟩
  · rintro ⟨hawake, hmatch, hqa, hqb, hdetour, hops, ⟨hempty, hpending⟩, hdest, hpred⟩
    obtain ⟨hdetour', hsome, hfmt, hnull⟩ := queues.2 ⟨hdetour, hops⟩
    exact ⟨⟨hawake, ⟨hmatch, hqa, hqb⟩, hdetour', hsome, hdest, hpred, hpending⟩,
      (operandTraps_eq_nil x.2 sh f e hempty).2 ⟨hfmt, hnull⟩, hempty, hsome⟩

end Sys2Proof.Machine
end

