-- ==== Sys2Proof/Proofs/FireFrame.lean ====
section
/-! PROOF. What a fire leaves alone (R24 to R26), in its parts: the operands it takes, its delivery, its predicate and its counters.
The theorems of Laws/Fire.lean say what a fire's destination gets; these say that nothing else changes. -/

namespace Sys2Proof.Machine

/-! ### Reads after writes of an element -/

theorem Elem.queue_setQueue_same (e : Elem) (q : Nat) (l : List Token) (h : q < 4) : (e.setQueue q l).queue q = l :=
  at_upd_same _ _ _ _ h

theorem Elem.queue_setQueue_other (e : Elem) (q p : Nat) (l : List Token) (h : q ≠ p) : (e.setQueue q l).queue p = e.queue p :=
  at_upd_other _ _ _ _ _ h

theorem Elem.port_setPort_other (e : Elem) (n p : Nat) (x : Port) (h : n ≠ p) : (e.setPort n x).port p = e.port p :=
  at_upd_other _ _ _ _ _ h

theorem Elem.pred_setPred_other (e : Elem) (n p : Nat) (x : Pred) (h : n ≠ p) : (e.setPred n x).pred p = e.pred p :=
  at_upd_other _ _ _ _ _ h

/-! ### The operands that a fire takes (R24 steps 3 and 4) -/

theorem mem_dqQueues (sh : Shape) (f : Fields) (q : Nat) : q ∈ dqQueues sh f ↔ q < 4 ∧ Claims.Takes sh f (12 + q) := by
  have one (src dq : Bool) (n : Nat) :
      q ∈ (if src && dq && codeIsQueue n then [n - 12] else []) ↔ q < 4 ∧ src = true ∧ dq = true ∧ n = 12 + q := by
    unfold codeIsQueue
    split
    · next h => simp only [Bool.and_eq_true, decide_eq_true_eq] at h; simp only [List.mem_singleton, h, true_and]; omega
    · next h =>
      simp only [Bool.and_eq_true, decide_eq_true_eq, not_and] at h
      simp only [List.not_mem_nil, false_iff, not_and]
      intro hq hsrc hdq hn
      exact h ⟨hsrc, hdq⟩ (by omega) (by omega)
  have ha := one sh.srcA f.dqa f.sa.toNat
  have hb := one sh.srcB f.dqb f.sb.toNat
  unfold dqQueues Claims.Takes
  generalize (if sh.srcA && f.dqa && codeIsQueue f.sa.toNat then [f.sa.toNat - 12] else []) = a at ha ⊢
  generalize (if sh.srcB && f.dqb && codeIsQueue f.sb.toNat then [f.sb.toNat - 12] else []) = b at hb ⊢
  simp only
  have hab : q ∈ (if a = b then a else a ++ b) ↔ q ∈ a ∨ q ∈ b := by
    split
    · next h => rw [h, or_self]
    · exact List.mem_append
  rw [hab, ha, hb, and_or_left]

/-- R24: a queue named twice is dequeued once. -/
theorem nodup_dqQueues (sh : Shape) (f : Fields) : (dqQueues sh f).Nodup := by
  unfold dqQueues
  simp only
  split_ifs <;> simp_all

/-- The queue of an element after dequeues at several of its queues. -/
theorem queue_foldl_dequeue (p n q : Nat) (l : List Nat) (hl : ∀ x ∈ l, x < 4) (hn : l.Nodup) (c : CoreCtx) :
    ((l.foldl (fun c q => c.dequeue p q n) c).elemD p).queue q =
      if q ∈ l then ((c.elemD p).queue q).drop n else (c.elemD p).queue q := by
  induction l generalizing c with
  | nil => simp
  | cons x xs ih =>
    obtain ⟨hx, hxs⟩ := List.nodup_cons.1 hn
    have hx4 : x < 4 := hl x List.mem_cons_self
    rw [List.foldl_cons, ih (fun y hy => hl y (List.mem_cons_of_mem _ hy)) hxs, c.dequeue_same p x n hx4]
    by_cases h : q = x
    · subst h
      simp only [hx, if_false, List.mem_cons_self, if_true]
      exact Elem.queue_setQueue_same _ _ _ hx4
    · rw [Elem.queue_setQueue_other _ _ _ _ (Ne.symm h)]
      simp [h]

theorem reg_foldl_dequeue (p n r : Nat) (l : List Nat) (c : CoreCtx) :
    ((l.foldl (fun c q => c.dequeue p q n) c).elemD p).reg r = (c.elemD p).reg r := by
  induction l generalizing c with
  | nil => rfl
  | cons x xs ih =>
    obtain ⟨qs, h⟩ := c.dequeue_shape p x n
    rw [List.foldl_cons, ih, h]
    rfl

/-- An element's register marked empty. -/
def Elem.emptied (r : Nat) (e : Elem) : Elem := e.setReg r { e.reg r with full := false }

theorem reg_foldl_emptied (p n : Nat) (hn : n < 12) (l : List Nat) (c : CoreCtx) :
    ((l.foldl (fun c r => c.modElem p (Elem.emptied r)) c).elemD p).reg n =
      if n ∈ l then { (c.elemD p).reg n with full := false } else (c.elemD p).reg n := by
  induction l generalizing c with
  | nil => simp
  | cons x xs ih =>
    rw [List.foldl_cons, ih, CoreCtx.elemD_modElem_same, Elem.emptied]
    by_cases h : n = x
    · subst h
      rw [Elem.reg_setReg_same _ _ _ hn]
      simp
    · rw [Elem.reg_setReg_other _ _ _ _ (Ne.symm h)]
      simp [h]

theorem queue_foldl_emptied (p q : Nat) (l : List Nat) (c : CoreCtx) :
    ((l.foldl (fun c r => c.modElem p (Elem.emptied r)) c).elemD p).queue q = (c.elemD p).queue q := by
  induction l generalizing c with
  | nil => rfl
  | cons x xs ih => rw [List.foldl_cons, ih, CoreCtx.elemD_modElem_same]; rfl

theorem takeOperands_reg (o : Op) (sh : Shape) (f : Fields) (p : Nat) (c : CoreCtx) (n : Nat) (hn : n < 12) :
    ((takeOperands o sh f p c).elemD p).reg n =
      if n ∈ dqRegs sh f then { (c.elemD p).reg n with full := false } else (c.elemD p).reg n := by
  rw [show takeOperands o sh f p c = (dqRegs sh f).foldl (fun c r => c.modElem p (Elem.emptied r))
    ((dqQueues sh f).foldl (fun c q => c.dequeue p q o.take) c) from rfl, reg_foldl_emptied p n hn, reg_foldl_dequeue]

theorem takeOperands_queue (o : Op) (sh : Shape) (f : Fields) (p : Nat) (c : CoreCtx) (q : Nat) :
    ((takeOperands o sh f p c).elemD p).queue q =
      if q ∈ dqQueues sh f then ((c.elemD p).queue q).drop o.take else (c.elemD p).queue q := by
  rw [show takeOperands o sh f p c = (dqRegs sh f).foldl (fun c r => c.modElem p (Elem.emptied r))
    ((dqQueues sh f).foldl (fun c q => c.dequeue p q o.take) c) from rfl, queue_foldl_emptied,
    queue_foldl_dequeue p o.take q _ (fun x hx => ((mem_dqQueues sh f x).1 hx).1) (nodup_dqQueues sh f)]

/-! ### The delivery and the predicate -/

/-- What the delivery of a result leaves of its element (R24, R25): all but the destination and the flags. -/
structure Delivered (sh : Shape) (d : Nat) (e e' : Elem) : Prop where
  regs : ∀ n, d ≠ n ∨ sh.d = .none → e'.reg n = e.reg n
  ports : ∀ p, d ≠ 24 + p ∨ sh.d = .none → e'.port p = e.port p
  rest : e' = { e with regs := e'.regs, ports := e'.ports, flags := e'.flags }

theorem Delivered.refl (sh : Shape) (d : Nat) (e : Elem) : Delivered sh d e e := ⟨fun _ _ => rfl, fun _ _ => rfl, rfl⟩

theorem Delivered.trans {sh : Shape} {d : Nat} {a b c : Elem} (h : Delivered sh d a b) (g : Delivered sh d b c) : Delivered sh d a c where
  regs n hn := (g.regs n hn).trans (h.regs n hn)
  ports p hp := (g.ports p hp).trans (h.ports p hp)
  rest := by rw [g.rest, h.rest]

theorem Delivered.setFlags (sh : Shape) (d : Nat) (e : Elem) (x : Flags) : Delivered sh d e (e.setFlags x) :=
  ⟨fun _ _ => rfl, fun _ _ => rfl, rfl⟩

theorem Delivered.setReg (sh : Shape) (d : Nat) (e : Elem) (r : Reg) (hd : sh.d ≠ .none) : Delivered sh d e (e.setReg d r) :=
  ⟨fun _ hn => Elem.reg_setReg_other _ _ _ _ (hn.resolve_right hd), fun _ _ => rfl, rfl⟩

theorem Delivered.setPort (sh : Shape) (d : Nat) (e : Elem) (x : Port) (hd : sh.d ≠ .none) (h : 24 ≤ d) :
    Delivered sh d e (e.setPort (d - 24) x) :=
  ⟨fun _ _ => rfl, fun p hp => Elem.port_setPort_other _ _ _ _ (by have := hp.resolve_right hd; omega), rfl⟩

theorem CoreCtx.elemD_send (c : CoreCtx) (pos q run : Nat) (t : Token) :
    (c.send pos q run false t).elemD pos = (c.elemD pos).setPort q ((c.elemD pos).port q).take :=
  c.elemD_modElem_same pos fun e => e.setPort q ((c.elemD pos).port q).take

theorem CoreCtx.elemD_joinReqs (c : CoreCtx) (pos slot dst run : Nat) (t : Token) (p : Nat) :
    (c.joinReqs pos slot dst run t).elemD p = c.elemD p := rfl

theorem CoreCtx.elemD_fly (c : CoreCtx) (n r : Nat) (x : Cargo) (p : Nat) : (c.fly n r x).elemD p = c.elemD p := rfl

theorem deliver_delivered (o : Op) (sh : Shape) (l : Look) (r : Res) (c : CoreCtx) :
    Delivered sh l.f.dst.toNat (c.elemD l.t.pos) ((deliver o sh l r c).elemD l.t.pos) := by
  have flagged := Delivered.setFlags sh l.f.dst.toNat (c.elemD l.t.pos) r.flags
  unfold deliver
  simp only
  generalize (if (updatesPred sh l.f && updateByResult l.f) = true then l.f.pu.toNat else 0) = pu
  by_cases hasD : ((sh.d == .result || sh.d == .accum) && !o.mute l) = true
  · have hd : sh.d ≠ .none := by rintro h; simp [h] at hasD
    rw [hasD]
    simp only [Bool.not_true, Bool.false_eq_true, if_false]
    by_cases hreg : l.f.dst.toNat ≤ 11
    · simp only [hreg, if_true]
      split_ifs
      · rw [CoreCtx.writeBehind, CoreCtx.elemD_joinReqs, CoreCtx.elemD_modElem_same, CoreCtx.elemD_modElem_same]
        exact flagged.trans (.setReg _ _ _ _ hd)
      · rw [CoreCtx.elemD_modElem_same, CoreCtx.elemD_modElem_same]
        exact flagged.trans (.setReg _ _ _ _ hd)
      · rw [CoreCtx.elemD_modElem_same]
        exact .setReg _ _ _ _ hd
      · rw [CoreCtx.elemD_fly, CoreCtx.elemD_modElem_same]
        exact .setReg _ _ _ _ hd
    · simp only [hreg, if_false]
      by_cases hport : codeIsPort l.f.dst.toNat = true
      · have h24 : 24 ≤ l.f.dst.toNat := by simp only [codeIsPort, decide_eq_true_eq] at hport; exact hport.1
        simp only [hport, if_true]
        split_ifs
        · rw [CoreCtx.sendBehind, CoreCtx.elemD_joinReqs, CoreCtx.holdCredit, CoreCtx.elemD_modElem_same, CoreCtx.elemD_modElem_same]
          exact flagged.trans (.setPort _ _ _ _ hd h24)
        · rw [CoreCtx.elemD_send, CoreCtx.elemD_modElem_same]
          exact flagged.trans (.setPort _ _ _ _ hd h24)
        · rw [CoreCtx.holdCredit, CoreCtx.elemD_modElem_same]
          exact .setPort _ _ _ _ hd h24
        · rw [CoreCtx.elemD_fly, CoreCtx.holdCredit, CoreCtx.elemD_modElem_same]
          exact .setPort _ _ _ _ hd h24
      · simp only [hport, Bool.false_eq_true, if_false]
        split_ifs
        · rw [CoreCtx.elemD_modElem_same]; exact flagged
        · exact .refl _ _ _
        · exact .refl _ _ _
  · simp only [Bool.not_eq_true] at hasD
    simp only [hasD, Bool.not_false, if_true, Bool.false_eq_true, if_false]
    split_ifs
    · rw [CoreCtx.elemD_modElem_same]; exact flagged
    · exact .refl _ _ _
    · exact .refl _ _ _

theorem applyPred_other (e : Elem) (f : Fields) (i : Ins) (ht : Bool) (v : W64) (t : Bool) (n : Nat) (h : f.pn.toNat ≠ n) :
    (applyPred e f i ht v t).pred n = e.pred n := by
  unfold applyPred
  simp only
  split
  · rfl
  all_goals exact Elem.pred_setPred_other _ _ _ _ h

/-- R26, R27: a fire changes no predicate but its own, and none without an update. -/
theorem updatePred_pred (o : Op) (sh : Shape) (l : Look) (r : Res) (c : CoreCtx) (n : Nat)
    (h : l.f.pn.toNat ≠ n ∨ l.f.pu = 0#3 ∨ sh.guarded = true) :
    ((updatePred o sh l r c).elemD l.t.pos).pred n = (c.elemD l.t.pos).pred n := by
  unfold updatePred
  split
  · rfl
  · next hu =>
    have hn : l.f.pn.toNat ≠ n := by
      refine h.resolve_right fun h => hu ?_
      rcases h with h | h <;> simp [updatesPred, h]
    rw [CoreCtx.elemD_modElem_same]
    split
    · exact Elem.pred_setPred_other _ _ _ _ hn
    · exact applyPred_other _ _ _ _ _ _ _ hn

/-! ### The slots whose queue heads a row fire takes (log 94) -/

theorem takes_reg (t : Site) (sh : Shape) (f : Fields) (n : Nat) (h : n ≤ 11) :
    Claims.Takes sh (t.takes f) n ↔ Claims.Takes sh f n := by
  have kept (code : BitVec 5) (hn : code.toNat = n) : codeIsQueue code.toNat = false := by
    simp only [codeIsQueue, decide_eq_false_iff_not]; omega
  unfold Site.takes Claims.Takes
  split
  · rfl
  · simp only
    refine or_congr (and_congr_right fun _ => ?_) (and_congr_right fun _ => ?_) <;>
      exact ⟨fun ⟨h1, h2⟩ => ⟨(Bool.and_eq_true _ _ ▸ h1).1, h2⟩, fun ⟨h1, h2⟩ => ⟨by rw [h1, kept _ h2]; rfl, h2⟩⟩

theorem takes_queue (t : Site) (sh : Shape) (f : Fields) (q : Nat) (h : q < 4) :
    Claims.Takes sh (t.takes f) (12 + q) ↔ Claims.Takes sh f (12 + q) ∧ t.keep.testBit q = false := by
  have kept (code : BitVec 5) (hn : code.toNat = 12 + q) :
      (codeIsQueue code.toNat && t.keep.testBit (code.toNat - 12)) = t.keep.testBit q := by
    rw [hn, Nat.add_sub_cancel_left, codeIsQueue, decide_eq_true (by omega), Bool.true_and]
  unfold Site.takes Claims.Takes
  split
  · next h0 => simp [h0]
  · simp only [or_and_right, and_assoc]
    refine or_congr (and_congr_right fun _ => ?_) (and_congr_right fun _ => ?_) <;>
      constructor
    · rintro ⟨h1, h2⟩
      rw [kept _ h2, Bool.and_eq_true, Bool.not_eq_true'] at h1
      exact ⟨h1.1, h2, h1.2⟩
    · rintro ⟨h1, h2, h3⟩
      exact ⟨by rw [kept _ h2, h1, h3]; rfl, h2⟩
    · rintro ⟨h1, h2⟩
      rw [kept _ h2, Bool.and_eq_true, Bool.not_eq_true'] at h1
      exact ⟨h1.1, h2, h1.2⟩
    · rintro ⟨h1, h2, h3⟩
      exact ⟨by rw [kept _ h2, h1, h3]; rfl, h2⟩

theorem takesHead_iff (sh : Shape) (f : Fields) (s : State) (q : Nat) (h : q < 4) :
    q ∈ dqQueues sh (s.site.takes f) ↔ Claims.TakesHead sh f s q := by
  have keep : s.site.keep = if kindAt s.here.pos == .me then s.here.val / 2 else 0 := rfl
  rw [mem_dqQueues, takes_queue _ _ _ _ h, Claims.TakesHead, keep]
  by_cases hk : kindAt s.here.pos = .me <;> simp [hk, h]

/-! ### The core after a fire -/

theorem CoreCtx.elem?_joinReqs (c : CoreCtx) (pos slot dst run : Nat) (t : Token) (p : Nat) :
    (c.joinReqs pos slot dst run t).elem? p = c.elem? p := rfl

theorem CoreCtx.elem?_fly (c : CoreCtx) (n r : Nat) (x : Cargo) (p : Nat) : (c.fly n r x).elem? p = c.elem? p := rfl

/-- R24: the delivery of a result reaches no other element of its core at once. -/
theorem deliver_elem?_other (o : Op) (sh : Shape) (l : Look) (r : Res) (c : CoreCtx) (p : Nat) (h : l.t.pos ≠ p) :
    (deliver o sh l r c).elem? p = c.elem? p := by
  have same (c : CoreCtx) (g : Elem → Elem) : (c.modElem l.t.pos g).elem? p = c.elem? p := CoreCtx.elem?_modElem_other c _ _ g h
  unfold deliver
  simp only
  split_ifs <;>
    simp only [CoreCtx.writeBehind, CoreCtx.sendBehind, CoreCtx.holdCredit, CoreCtx.elem?_joinReqs, CoreCtx.elem?_fly,
      CoreCtx.send_other _ _ _ _ _ _ _ h, same]

/-- The core once a fire has taken its operands and delivered its result. -/
def deliveredCore (o : Op) (sh : Shape) (l : Look) (c : CoreCtx) : CoreCtx :=
  deliver o sh l (o.res l) (takeOperands o sh (l.t.takes l.f) l.t.pos c)

/-- What operands and delivery leave of the element that fires. -/
theorem deliveredCore_elem (o : Op) (sh : Shape) (l : Look) (c : CoreCtx) :
    ∃ e', Delivered sh l.f.dst.toNat e' ((deliveredCore o sh l c).elemD l.t.pos) ∧
      e' = { c.elemD l.t.pos with queues := e'.queues, regs := e'.regs } ∧
      (∀ n < 12, e'.reg n =
        if n ∈ dqRegs sh (l.t.takes l.f) then { (c.elemD l.t.pos).reg n with full := false } else (c.elemD l.t.pos).reg n) ∧
      ∀ q, e'.queue q =
        if q ∈ dqQueues sh (l.t.takes l.f) then ((c.elemD l.t.pos).queue q).drop o.take else (c.elemD l.t.pos).queue q := by
  refine ⟨(takeOperands o sh (l.t.takes l.f) l.t.pos c).elemD l.t.pos, deliver_delivered o sh l _ _, ?_,
    takeOperands_reg o sh _ _ c, takeOperands_queue o sh _ _ c⟩
  obtain ⟨qs, rs, h⟩ := takeOperands_shape o sh (l.t.takes l.f) l.t.pos c
  rw [h]

/-- Two cores of which one was made of the other by effects that leave the elements alone, but for the port of destination `d` of
the element at `pos` and for what R24 does not count. -/
structure SameParts (sh : Shape) (d pos : Nat) (c c' : CoreCtx) : Prop where
  regs : ∀ n, (c'.elemD pos).reg n = (c.elemD pos).reg n
  queues : ∀ q, (c'.elemD pos).queue q = (c.elemD pos).queue q
  preds : ∀ n, (c'.elemD pos).pred n = (c.elemD pos).pred n
  ports : ∀ p, d ≠ 24 + p ∨ sh.d = .none → (c'.elemD pos).port p = (c.elemD pos).port p
  others : ∀ p, p ≠ pos → c'.elem? p = c.elem? p

theorem SameParts.of_elems {sh : Shape} {d pos : Nat} {c c' : CoreCtx} (h : c'.elems = c.elems) : SameParts sh d pos c c' := by
  have hD : c'.elemD pos = c.elemD pos := by rw [CoreCtx.elemD, h, CoreCtx.elemD]
  exact ⟨fun _ => by rw [hD], fun _ => by rw [hD], fun _ => by rw [hD], fun _ _ => by rw [hD],
    fun p _ => by rw [CoreCtx.elem?, h, CoreCtx.elem?]⟩

theorem SameParts.trans {sh : Shape} {d pos : Nat} {a b c : CoreCtx} (h : SameParts sh d pos a b) (g : SameParts sh d pos b c) :
    SameParts sh d pos a c where
  regs n := (g.regs n).trans (h.regs n)
  queues q := (g.queues q).trans (h.queues q)
  preds n := (g.preds n).trans (h.preds n)
  ports p hp := (g.ports p hp).trans (h.ports p hp)
  others p hp := (g.others p hp).trans (h.others p hp)

/-- What operands and delivery leave of the element that fires and of the others, by what its slot names (R24). -/
theorem deliveredCore_kept (o : Op) (sh : Shape) (f : Fields) (s : State) (c : CoreCtx) (e : Elem) (hat : Claims.At s c e)
    (htake : o.take = 1) :
    let e' := (deliveredCore o sh (lookAt o f s s.site c e) c).elemD s.here.pos
    (∀ n ≤ 11, f.dst.toNat ≠ n ∨ sh.d = .none → Claims.Takes sh f n → e'.reg n = { e.reg n with full := false }) ∧
    (∀ n ≤ 11, f.dst.toNat ≠ n ∨ sh.d = .none → ¬ Claims.Takes sh f n → e'.reg n = e.reg n) ∧
    (∀ q < 4, Claims.TakesHead sh f s q → e'.queue q = (e.queue q).drop 1) ∧
    (∀ q < 4, ¬ Claims.TakesHead sh f s q → e'.queue q = e.queue q) ∧
    (∀ p, f.dst.toNat ≠ 24 + p ∨ sh.d = .none → e'.port p = e.port p) ∧
    (∀ n, e'.pred n = e.pred n) ∧
    ∀ p, p ≠ s.here.pos → (deliveredCore o sh (lookAt o f s s.site c e) c).elem? p = c.elem? p := by
  have hce : c.elemD s.here.pos = e := c.elemD_of _ e hat.elem
  obtain ⟨eT, delivered, rest, hreg, hqueue⟩ := deliveredCore_elem o sh (lookAt o f s s.site c e) c
  replace delivered : Delivered sh f.dst.toNat eT ((deliveredCore o sh (lookAt o f s s.site c e) c).elemD s.here.pos) := delivered
  replace rest : eT = { c.elemD s.here.pos with queues := eT.queues, regs := eT.regs } := rest
  replace hreg : ∀ n < 12, eT.reg n = if n ∈ dqRegs sh (s.site.takes f) then { (c.elemD s.here.pos).reg n with full := false }
    else (c.elemD s.here.pos).reg n := hreg
  replace hqueue : ∀ q, eT.queue q = if q ∈ dqQueues sh (s.site.takes f) then ((c.elemD s.here.pos).queue q).drop o.take
    else (c.elemD s.here.pos).queue q := hqueue
  have dother := deliver_elem?_other o sh (lookAt o f s s.site c e) (o.res (lookAt o f s s.site c e))
    (takeOperands o sh (s.site.takes f) s.here.pos c)
  rw [hce] at rest hreg hqueue
  have taken (n : Nat) (hn : n ≤ 11) : n ∈ dqRegs sh (s.site.takes f) ↔ Claims.Takes sh f n := by
    rw [mem_dqRegs, takes_reg _ _ _ _ hn, and_iff_right hn]
  intro e'
  have queues (q : Nat) : e'.queue q = eT.queue q := by
    rw [show e' = _ from delivered.rest]; rfl
  refine ⟨fun n hn hd ht => ?_, fun n hn hd ht => ?_, fun q hq ht => ?_, fun q hq ht => ?_, fun p hd => ?_, fun n => ?_, fun p hp => ?_⟩
  · rw [delivered.regs n hd, hreg n (by omega), if_pos ((taken n hn).2 ht)]
  · rw [delivered.regs n hd, hreg n (by omega), if_neg (mt (taken n hn).1 ht)]
  · rw [queues, hqueue, if_pos ((takesHead_iff sh f s q hq).2 ht), htake]
  · rw [queues, hqueue, if_neg (mt (takesHead_iff sh f s q hq).1 ht)]
  · rw [delivered.ports p hd, rest]; rfl
  · rw [show e' = _ from delivered.rest, rest]; rfl
  · exact (dother p hp.symm).trans (takeOperands_other o sh _ _ p c hp.symm)

/-- R24: a fire whose further effects leave its element alone leaves what its slot does not name as it was. -/
theorem keptHere_of_sameParts (o : Op) (sh : Shape) (f : Fields) (s : State) (c c' : CoreCtx) (e : Elem) (r : Res) (c₁ : CoreCtx)
    (hat : Claims.At s c e) (htake : o.take = 1)
    (h₁ : SameParts sh f.dst.toNat s.here.pos (deliveredCore o sh (lookAt o f s s.site c e) c) c₁)
    (h' : c'.elems = (updatePred o sh (lookAt o f s s.site c e) r c₁).elems) : Claims.KeptHere sh f s c e c' := by
  obtain ⟨emptied, regs, dequeued, queues, ports, preds, others⟩ := deliveredCore_kept o sh f s c e hat htake
  obtain ⟨ps, shape⟩ := updatePred_shape o sh (lookAt o f s s.site c e) r c₁
  have hpred := updatePred_pred o sh (lookAt o f s s.site c e) r c₁
  have hother := updatePred_other o sh (lookAt o f s s.site c e) r c₁
  generalize deliveredCore o sh (lookAt o f s s.site c e) c = cd at *
  have here : c'.elemD s.here.pos = (updatePred o sh (lookAt o f s s.site c e) r c₁).elemD s.here.pos := by
    rw [CoreCtx.elemD, h', CoreCtx.elemD]
  have final : c'.elemD s.here.pos = { c₁.elemD s.here.pos with preds := ps } := here.trans shape
  have reg (n : Nat) : (c'.elemD s.here.pos).reg n = (cd.elemD s.here.pos).reg n := by rw [final, ← h₁.regs]; rfl
  have queue (q : Nat) : (c'.elemD s.here.pos).queue q = (cd.elemD s.here.pos).queue q := by rw [final, ← h₁.queues]; rfl
  exact {
    emptied := fun n hn hd ht => (reg n).trans (emptied n hn hd ht)
    regs := fun n hn hd ht => (reg n).trans (regs n hn hd ht)
    dequeued := fun q hq ht => (queue q).trans (dequeued q hq ht)
    queues := fun q hq ht => (queue q).trans (queues q hq ht)
    ports := fun p _ hd => by
      rw [final, ← ports p hd, ← h₁.ports p hd]; rfl
    preds := fun n _ hn => by
      rw [here, ← preds n, ← h₁.preds n]
      exact hpred n hn
    others := fun p hp => by
      rw [CoreCtx.elem?, h']
      exact (hother p hp.symm).trans ((h₁.others p hp).trans (others p hp)) }

/-- The rest of the element that fires (R24): only registers, predicates, queues, ports and flags change. -/
theorem elemD_of_elems (o : Op) (sh : Shape) (l : Look) (c c' : CoreCtx) (r : Res) (h' : c'.elems = (updatePred o sh l r (deliveredCore o sh l c)).elems) :
    c'.elemD l.t.pos = { c.elemD l.t.pos with
      regs := (c'.elemD l.t.pos).regs, preds := (c'.elemD l.t.pos).preds, queues := (c'.elemD l.t.pos).queues
      ports := (c'.elemD l.t.pos).ports, flags := (c'.elemD l.t.pos).flags } := by
  obtain ⟨eT, delivered, rest, -, -⟩ := deliveredCore_elem o sh l c
  obtain ⟨ps, preds⟩ := updatePred_shape o sh l r (deliveredCore o sh l c)
  rw [show c'.elemD l.t.pos = (updatePred o sh l r (deliveredCore o sh l c)).elemD l.t.pos by rw [CoreCtx.elemD, h', CoreCtx.elemD],
    preds, delivered.rest, rest]

/-! ### The machine after a fire -/

/-- The machine once a fire has taken its operands, delivered its result and made its further effects (R24). -/
def effectState (o : Op) (sh : Shape) (l : Look) : State :=
  o.effect l ((l.s.modCore l.t.k (takeOperands o sh (l.t.takes l.f) l.t.pos)).modCore l.t.k (deliver o sh l (o.res l)))

/-- The counters of a fire change the cores, the counters of physical cores and the teams. -/
theorem State.count_only (s : State) (k : Key) (i n : Nat) :
    s.count k i n = { s with cores := (s.count k i n).cores, phys := (s.count k i n).phys } := by
  unfold State.count
  simp only
  split
  · split <;> rfl
  · rfl

theorem physOf_put_same (s : State) (pc : Nat) (f : PhysCore → PhysCore) : (s.modPhys pc f).physOf pc = f (s.physOf pc) := by
  simp [State.physOf, State.modPhys, Assoc.get?_put_same]

theorem physOf_put_other (s : State) (pc pc' : Nat) (f : PhysCore → PhysCore) (h : pc ≠ pc') :
    (s.modPhys pc f).physOf pc' = s.physOf pc' := by
  simp [State.physOf, State.modPhys, Assoc.get?_put_other _ _ _ _ h]

/-- R368: a count changes nothing of a physical core but its totals. -/
theorem State.count_phys (s : State) (k : Key) (i n pc : Nat) :
    (s.count k i n).physOf pc = { s.physOf pc with totals := ((s.count k i n).physOf pc).totals } := by
  unfold State.count
  simp only
  split
  · split
    · next q _ =>
      by_cases h : q = pc
      · subst h; rw [physOf_put_same]; rfl
      · rw [physOf_put_other _ _ _ _ h]; rfl
    · rfl
  · rfl

/-- The machine before a fire counts: its predicate is updated (R26). -/
def uncountedState (o : Op) (sh : Shape) (l : Look) : State := (effectState o sh l).modCore l.t.k (updatePred o sh l (o.res l))

/-- The machine with the token that a fire sends counted (R368). -/
def sentState (o : Op) (sh : Shape) (l : Look) : State :=
  if sendsNow o sh l = true then (uncountedState o sh l).count l.t.k 23 1 else uncountedState o sh l

/-- R24: a fire that needs no spill commit. -/
theorem fireSlot_eq (o : Op) (sh : Shape) (l : Look) (room : l.spilled (o.entries l) = l) :
    fireSlot o sh l = (sentState o sh l).fired l.t.k l.e.runId o.counter := by
  unfold fireSlot
  simp only [room]
  rfl

/-- A fire that finds its entries in the commit buffer needs no spill commit (R167, R168). -/
theorem spilled_of_hasRoom (o : Op) (f : Fields) (s : State) (c : CoreCtx) (e : Elem) (h : Claims.HasRoom o f s c e) :
    (lookAt o f s s.site c e).spilled (o.entries (lookAt o f s s.site c e)) = lookAt o f s s.site c e :=
  if_pos h

theorem State.fired_only (s : State) (k : Key) (r : Nat) (o : Option Nat) :
    s.fired k r o = { s with
      cores := (s.fired k r o).cores, phys := (s.fired k r o).phys
      teams := s.teams.adjust k.1 fun m => { m with watchdog := 0, progress := s.time } } := by
  have h0 := s.count_only k 0 1
  unfold State.fired
  cases o with
  | none =>
    simp only [State.progressed, State.modTeam, State.modCore]
    rw [h0]
  | some i =>
    have h1 := (s.count k 0 1).count_only k i 1
    simp only [State.progressed, State.modTeam, State.modCore]
    rw [h1, h0]

theorem State.fired_phys (s : State) (k : Key) (r : Nat) (o : Option Nat) (pc : Nat) :
    (s.fired k r o).physOf pc = { s.physOf pc with totals := ((s.fired k r o).physOf pc).totals } := by
  have h0 := s.count_phys k 0 1 pc
  unfold State.fired
  cases o with
  | none => exact h0
  | some i =>
    show ((s.count k 0 1).count k i 1).physOf pc = _
    rw [(s.count k 0 1).count_phys k i 1 pc, h0]
    rfl

theorem sentState_only (o : Op) (sh : Shape) (l : Look) :
    sentState o sh l = { effectState o sh l with cores := (sentState o sh l).cores, phys := (sentState o sh l).phys } := by
  unfold sentState
  split
  · rw [State.count_only]; rfl
  · rfl

theorem sentState_core_other (o : Op) (sh : Shape) (l : Look) (k : Key) (h : l.t.k ≠ k) :
    (sentState o sh l).core? k = (effectState o sh l).core? k := by
  unfold sentState
  split
  · rw [State.count_core_other _ _ _ _ _ h, uncountedState, State.core?_modCore_other _ _ _ _ h]
  · rw [uncountedState, State.core?_modCore_other _ _ _ _ h]

theorem sentState_core (o : Op) (sh : Shape) (l : Look) (c : CoreCtx) (h : (effectState o sh l).core? l.t.k = some c) :
    ∃ v, (sentState o sh l).core? l.t.k = some { updatePred o sh l (o.res l) c with evc := v } := by
  have h1 : (uncountedState o sh l).core? l.t.k = some (updatePred o sh l (o.res l) c) := by
    rw [uncountedState, State.core?_modCore_same, h, Option.map_some]
  unfold sentState
  split
  · exact ⟨_, State.count_core _ _ _ _ _ h1⟩
  · exact ⟨_, h1⟩

theorem sentState_phys (o : Op) (sh : Shape) (l : Look) (pc : Nat) :
    (sentState o sh l).physOf pc = { (effectState o sh l).physOf pc with totals := ((sentState o sh l).physOf pc).totals } := by
  unfold sentState
  split
  · rw [State.count_phys]; rfl
  · rfl

section
variable {o : Op} {sh : Shape} {l : Look} (room : l.spilled (o.entries l) = l)
include room

/-- The core after a fire: its predicate is updated, and its run and its events are counted (R26, R256, R368). -/
theorem fireSlot_core_of (c : CoreCtx) (h : (effectState o sh l).core? l.t.k = some c) :
    ∃ v, (fireSlot o sh l).core? l.t.k = some { updatePred o sh l (o.res l) c with
      evc := v, runs := c.runs.map fun x => if x.id = l.e.runId then { x with fires := x.fires + 1 } else x } := by
  obtain ⟨v, h1⟩ := sentState_core o sh l c h
  obtain ⟨w, h2⟩ := State.fired_core _ l.t.k l.e.runId o.counter _ h1
  obtain ⟨es, fl, grown⟩ := updatePred_grown o sh l (o.res l) c
  refine ⟨w, ?_⟩
  rw [fireSlot_eq o sh l room, h2, grown]

theorem fireSlot_core_other_of (k : Key) (h : l.t.k ≠ k) : (fireSlot o sh l).core? k = (effectState o sh l).core? k := by
  rw [fireSlot_eq o sh l room, State.fired_core_other _ _ _ _ _ h, sentState_core_other _ _ _ _ h]

/-- What the counters of a fire leave of the machine that its effects have made (R315, R368). -/
theorem fireSlot_only :
    fireSlot o sh l = { effectState o sh l with
      cores := (fireSlot o sh l).cores, phys := (fireSlot o sh l).phys
      teams := (effectState o sh l).teams.adjust l.t.k.1 fun m => { m with watchdog := 0, progress := (effectState o sh l).time } } := by
  rw [fireSlot_eq o sh l room, State.fired_only, sentState_only]

theorem fireSlot_phys (pc : Nat) :
    (fireSlot o sh l).physOf pc = { (effectState o sh l).physOf pc with totals := ((fireSlot o sh l).physOf pc).totals } := by
  rw [fireSlot_eq o sh l room, State.fired_phys, sentState_phys]

end

end Sys2Proof.Machine
end

