-- ==== Sys2Proof/Proofs/PureFires.lean ====
section
/-! PROOF. O16: a fire that only gives a result changes nothing but its operands, destination and predicate (R24 to R26). -/

namespace Sys2Proof.Machine

/-- An operation without further effects and without entries in the commit buffer. -/
structure PureOp (o : Op) : Prop where
  delay : o.delay ≠ 0
  effect : ∀ l s, o.effect l s = s
  entries : ∀ l, o.entries l = 0
  take : o.take = 1

theorem pureOps_pure : ∀ x ∈ Claims.pureOps, PureOp x.2 := by
  refine List.forall_iff_forall_mem.1 ?_
  repeat' apply And.intro
  all_goals exact ⟨by decide, fun _ _ => rfl, fun _ => rfl, rfl⟩

theorem pureOps_runOp : ∀ x ∈ Claims.pureOps, RunsOp x := by
  refine List.forall_iff_forall_mem.1 ?_
  repeat' apply And.intro
  all_goals exact fun _ _ => rfl

/-- The core of a PE after operands and delivery: its elements change, and more is in flight. -/
theorem deliveredCore_grown (o : Op) (sh : Shape) (l : Look) (c : CoreCtx) (hk : kindAt l.t.pos = .pe) (h0 : o.delay ≠ 0) :
    c.Grown (deliveredCore o sh l c) := by
  have behind (c : CoreCtx) : c.behindReqs l.t.pos l.f.dst.toNat = false := by
    rw [CoreCtx.behindReqs, hk]; rfl
  exact (takeOperands_grown o sh _ _ c).trans (deliver_grown o sh l _ _ (behind _) fun h => absurd h h0)

theorem effectState_core_pure (o : Op) (sh : Shape) (l : Look) (c : CoreCtx) (he : ∀ l s, o.effect l s = s)
    (hc : l.s.core? l.t.k = some c) : (effectState o sh l).core? l.t.k = some (deliveredCore o sh l c) := by
  rw [effectState, he, State.core?_modCore_same, State.core?_modCore_same, hc, Option.map_some, Option.map_some, deliveredCore]

theorem effectState_core_pure_other (o : Op) (sh : Shape) (l : Look) (k : Key) (he : ∀ l s, o.effect l s = s) (hk : l.t.k ≠ k) :
    (effectState o sh l).core? k = l.s.core? k := by
  rw [effectState, he, State.core?_modCore_other _ _ _ _ hk, State.core?_modCore_other _ _ _ _ hk]

theorem effectState_pure (o : Op) (sh : Shape) (l : Look) (he : ∀ l s, o.effect l s = s) :
    effectState o sh l = { l.s with cores := (effectState o sh l).cores } := by
  rw [effectState, he]; rfl

theorem effectState_pure_physOf (o : Op) (sh : Shape) (l : Look) (he : ∀ l s, o.effect l s = s) (pc : Nat) :
    (effectState o sh l).physOf pc = l.s.physOf pc := by
  rw [effectState_pure o sh l he]; rfl

/-- Settles O16, from the frame of a fire's parts. -/
theorem pureFireChangesNothingElse : Obligations.PureFireChangesNothingElse := by
  intro x hx sh hsh f s c e hat hpe hready
  have pure := pureOps_pure x hx
  let l := lookAt x.2 f s s.site c e
  have here : c.elemD l.t.pos = e := c.elemD_of _ e hat.elem
  have exec := (pureOps_runOp x hx f s).trans (runOp_ready x.2 f s c e sh hsh hat.core hat.elem hready)
  have room := spilled_of_hasRoom x.2 f s c e (.inl (pure.entries _))
  obtain ⟨v, core⟩ := fireSlot_core_of (sh := sh) room _ (effectState_core_pure x.2 sh l c pure.effect hat.core)
  obtain ⟨es, fl, delivered⟩ := deliveredCore_grown x.2 sh l c hpe pure.delay
  obtain ⟨es', fl', updated⟩ := updatePred_grown x.2 sh l (x.2.res l) (deliveredCore x.2 sh l c)
  obtain ⟨c', hc'⟩ : ∃ c' : CoreCtx, c' = { updatePred x.2 sh l (x.2.res l) (deliveredCore x.2 sh l c) with
      evc := v, runs := (deliveredCore x.2 sh l c).runs.map fun r : Run => if r.id = l.e.runId then { r with fires := r.fires + 1 } else r } :=
    ⟨_, rfl⟩
  have elems : c'.elems = (updatePred x.2 sh l (x.2.res l) (deliveredCore x.2 sh l c)).elems := by rw [hc']
  have kept := keptHere_of_sameParts x.2 sh f s c c' e _ _ hat pure.take (.of_elems rfl) elems
  have elem := elemD_of_elems x.2 sh l c c' _ elems
  rw [here] at elem
  have state : fireSlot x.2 sh l = { s with
      cores := (fireSlot x.2 sh l).cores, phys := (fireSlot x.2 sh l).phys
      teams := s.teams.adjust s.here.ctx fun m => { m with watchdog := 0, progress := s.time } } := by
    rw [fireSlot_only (sh := sh) room, effectState_pure x.2 sh l pure.effect]; rfl
  have teams : (fireSlot x.2 sh l).teams = s.teams.adjust s.here.ctx fun m => { m with watchdog := 0, progress := s.time } := by
    rw [state]
  refine ⟨_, c', exec, core.trans (by rw [hc']), ?_⟩
  exact {
    emptied := kept.emptied
    regs := kept.regs
    dequeued := fun q hq ht => kept.dequeued q hq ⟨ht, fun hme => by rw [hpe] at hme; cases hme.1⟩
    queues := fun q hq ht => kept.queues q hq fun h => ht h.1
    ports := kept.ports
    preds := kept.preds
    elem := elem
    others := kept.others
    core := by rw [hc', updated, delivered]
    fires := by rw [hc', delivered]; rfl
    cores := fun k hk => by
      rw [fireSlot_core_other_of (sh := sh) room k hk.symm, effectState_core_pure_other x.2 sh l k pure.effect hk.symm]; rfl
    machine := by rw [teams]; exact state
    teams := teams
    phys := fun pc => (fireSlot_phys (sh := sh) room pc).trans (by rw [effectState_pure_physOf x.2 sh _ pure.effect]; rfl) }

end Sys2Proof.Machine
end

