-- ==== Sys2Proof/Proofs/Arrivals.lean ====
section
/-! PROOF. O33: long results, tokens and credits arrive where they are bound for, and unaccepted heads leave by their detour (R16 to
R19, R26, R42, R79, R126). -/

namespace Sys2Proof.Machine

/-! ### The first item due -/

theorem takeDue_append (kind : Cargo → Bool) (pre post : List Flight) (x : Flight) (h0 : x.left = 0) (hx : kind x.cargo = true)
    (hpre : ∀ y ∈ pre, y.left = 0 → kind y.cargo = false) : takeDue kind (pre ++ x :: post) = some (x, pre ++ post) := by
  induction pre with
  | nil => simp [takeDue, h0, hx]
  | cons y ys ih =>
    have hy : ¬ (y.left = 0 ∧ kind y.cargo = true) := fun h => by simp [hpre y List.mem_cons_self h.1] at h
    rw [List.cons_append, takeDue, if_neg hy, ih fun z hz => hpre z (List.mem_cons_of_mem _ hz)]
    rfl

theorem takeDue_of_firstDue (kind : Cargo → Bool) (c : CoreCtx) (x : Flight) (rest : List Flight) (h : Claims.FirstDue kind c x rest) :
    takeDue kind c.flights = some (x, rest) := by
  obtain ⟨h0, hx, pre, post, hc, rfl, hpre⟩ := h
  rw [hc, takeDue_append kind pre post x h0 hx hpre]

theorem State.onCore_of (s : State) (c : CoreCtx) (g : CoreCtx → State) (h : s.core? s.key = some c) : s.onCore g = .next (g c) := by
  rw [State.onCore, h]

/-! ### Long results (R19, R25, R26, R42) -/

/-- A core with the result that arrives written to its register, or sent with the credit it holds. -/
def CoreCtx.placed (c : CoreCtx) (run : Nat) (r : LongResult) : CoreCtx :=
  if r.dst ≤ 11 then c.modElem r.pos fun e => e.setReg r.dst ⟨r.data, r.fmt, r.tnt, true, false⟩
  else if codeIsPort r.dst then c.send r.pos (r.dst - 24) run true ⟨r.data, r.fmt, r.ctl, r.tnt⟩
  else c

/-- A core after the arrival of a result, its flags and its late predicate update. -/
def CoreCtx.withResult (c : CoreCtx) (run : Nat) (r : LongResult) (rest : List Flight) : CoreCtx :=
  (CoreCtx.placed { c with flights := rest } run r).modElem r.pos fun e => (e.landFlags r.flags).landPred r.pu r.pn r.data r.tnt

theorem execLongResultArrival_due (s : State) (c : CoreCtx) (run g : Nat) (r : LongResult) (rest : List Flight)
    (hc : s.core? s.key = some c) (h : Claims.FirstDue Claims.isResult c ⟨0, run, g, .result r⟩ rest) :
    ∃ t v, exec .longResultArrival s = .next t ∧ t.core? s.key = some { c.withResult run r rest with evc := v } := by
  have due := takeDue_of_firstDue _ _ _ _ h
  have core : (s.modCore s.key fun c => c.withResult run r rest).core? s.key = some (c.withResult run r rest) := by
    rw [State.core?_modCore_same, hc, Option.map_some]
  by_cases hp : codeIsPort r.dst = true
  · refine ⟨_, _, ?_, State.count_core _ s.key 23 1 _ core⟩
    show execLongResultArrival s = _
    rw [execLongResultArrival, State.onCore_of s c _ hc]
    dsimp only
    split
    · next heq => cases heq.symm.trans due; rw [if_pos hp]; rfl
    · next hne => exact (hne _ _ _ _ _ due).elim
  · refine ⟨_, (c.withResult run r rest).evc, ?_, core⟩
    show execLongResultArrival s = _
    rw [execLongResultArrival, State.onCore_of s c _ hc]
    dsimp only
    split
    · next heq => cases heq.symm.trans due; rw [if_neg hp]; rfl
    · next hne => exact (hne _ _ _ _ _ due).elim

theorem Elem.reg_landFlags (e : Elem) (x : Flags) (n : Nat) : (e.landFlags x).reg n = e.reg n := rfl

theorem Elem.reg_landPred (e : Elem) (pu pn : Nat) (v : W64) (t : Bool) (n : Nat) : (e.landPred pu pn v t).reg n = e.reg n := by
  unfold Elem.landPred
  split <;> rfl

theorem Elem.flags_landPred (e : Elem) (pu pn : Nat) (v : W64) (t : Bool) : (e.landPred pu pn v t).flags = e.flags := by
  unfold Elem.landPred
  split <;> rfl

theorem Elem.pred_setPred_same (e : Elem) (n : Nat) (x : Pred) (h : n < 8) : (e.setPred n x).pred n = x := at_upd_same _ _ _ _ h

/-- R26: the bit that a late update tests. -/
theorem resultBit_eq (pu : Nat) (v : W64) (h : 3 ≤ pu ∧ pu ≤ 5) :
    resultBit pu v = if pu = 3 then v.getLsbD 0 else if pu = 4 then decide (v = 0#64) else v.getLsbD 63 := by
  obtain ⟨h3, h5⟩ := h
  interval_cases pu <;> simp [resultBit, beq_eq_decide]

theorem CoreCtx.placed_flags (c : CoreCtx) (run : Nat) (r : LongResult) : ((c.placed run r).elemD r.pos).flags = (c.elemD r.pos).flags := by
  unfold CoreCtx.placed
  split
  · rw [CoreCtx.elemD_modElem_same]; rfl
  · split <;> rfl

theorem longResultsLand (s : State) (c : CoreCtx) (run g : Nat) (r : LongResult) (rest : List Flight)
    (h : Claims.FirstDue Claims.isResult c ⟨0, run, g, .result r⟩ rest) :
    Claims.CoreEvent .longResultArrival s c fun _ c' =>
      (r.dst ≤ 11 → (c'.elemD r.pos).reg r.dst = ⟨r.data, r.fmt, r.tnt, true, false⟩ ∧ c'.flights = rest) ∧
      (24 ≤ r.dst ∧ r.dst ≤ 27 → c'.flights = rest ++
        Claims.sent run (c.groupOf run) ((c.elemD r.pos).port (r.dst - 24)).recvs ⟨r.data, r.fmt, r.ctl, r.tnt⟩) ∧
      (c'.elemD r.pos).flags = (c.elemD r.pos).flags.or r.flags ∧
      (3 ≤ r.pu ∧ r.pu ≤ 5 → r.pn < 8 → (c'.elemD r.pos).pred r.pn =
        ⟨if r.pu = 3 then r.data.getLsbD 0 else if r.pu = 4 then decide (r.data = 0#64) else r.data.getLsbD 63, r.tnt, false⟩) := by
  intro hc
  obtain ⟨t, v, hexec, hcore⟩ := execLongResultArrival_due s c run g r rest hc h
  have landed : ((c.withResult run r rest).elemD r.pos) =
      ((((CoreCtx.placed { c with flights := rest } run r).elemD r.pos).landFlags r.flags).landPred r.pu r.pn r.data r.tnt) :=
    CoreCtx.elemD_modElem_same _ _ _
  refine ⟨t, _, hexec, hcore, fun hreg => ⟨?_, ?_⟩, fun hport => ?_, ?_, fun hpu hpn => ?_⟩
  · show ((c.withResult run r rest).elemD r.pos).reg r.dst = _
    rw [landed, Elem.reg_landPred, Elem.reg_landFlags, CoreCtx.placed, if_pos hreg, CoreCtx.elemD_modElem_same,
      Elem.reg_setReg_same _ _ _ (by omega)]
  · show (c.withResult run r rest).flights = _
    rw [CoreCtx.withResult, CoreCtx.placed, if_pos hreg]; rfl
  · show (c.withResult run r rest).flights = _
    rw [CoreCtx.withResult, CoreCtx.placed, if_neg (by omega), if_pos (show codeIsPort r.dst = true from decide_eq_true hport)]; rfl
  · show ((c.withResult run r rest).elemD r.pos).flags = _
    rw [landed, Elem.flags_landPred, Elem.landFlags, CoreCtx.placed_flags]; rfl
  · show ((c.withResult run r rest).elemD r.pos).pred r.pn = _
    rw [landed, Elem.landPred, if_neg (by omega), Elem.pred_setPred_same _ _ _ hpn, resultBit_eq _ _ hpu]

/-! ### Tokens and credits (R16, R18, R79) -/

theorem tokensLand (s : State) (c : CoreCtx) (run g pos q : Nat) (tok : Token) (rest : List Flight)
    (h : Claims.FirstDue Claims.isToken c ⟨0, run, g, .token pos q tok⟩ rest) (hq : q < 4) :
    Claims.CoreEvent .tokenArrival s c fun _ c' =>
      (c'.elemD pos).queue q = (c.elemD pos).queue q ++ [tok] ∧ c'.flights = rest ∧
      (∀ p, p ≠ pos → c'.elem? p = c.elem? p) ∧ ∀ x < 4, x ≠ q → (c'.elemD pos).queue x = (c.elemD pos).queue x := by
  intro hc
  have due := takeDue_of_firstDue _ _ _ _ h
  refine ⟨s.modCore s.key fun c => CoreCtx.modElem { c with flights := rest } pos fun e => e.setQueue q (e.queue q ++ [tok]),
    CoreCtx.modElem { c with flights := rest } pos fun e => e.setQueue q (e.queue q ++ [tok]), ?_, ?_, ?_, rfl, fun p hp => ?_,
    fun x _ hx => ?_⟩
  · show execTokenArrival s = _
    rw [execTokenArrival, State.onCore_of s c _ hc]
    dsimp only
    split
    · next heq => cases heq.symm.trans due; rfl
    · next hne => exact (hne _ _ _ _ _ _ _ due).elim
  · rw [State.core?_modCore_same, hc, Option.map_some]
  · rw [CoreCtx.elemD_modElem_same, Elem.queue_setQueue_same _ _ _ hq]; rfl
  · rw [CoreCtx.elem?_modElem_other _ _ _ _ hp.symm]; rfl
  · rw [CoreCtx.elemD_modElem_same, Elem.queue_setQueue_other _ _ _ _ hx.symm]; rfl

theorem length_modAt {α : Type} (f : α → α) (l : List α) (i : Nat) : (modAt f l i).length = l.length := by
  induction l generalizing i with
  | nil => rfl
  | cons x xs ih =>
    cases i with
    | zero => rfl
    | succ i => simp [modAt, ih]

theorem getElem?_modAt {α : Type} (f : α → α) (l : List α) (i j : Nat) (x : α) (h : l[j]? = some x) :
    (modAt f l i)[j]? = some (if j = i then f x else x) := by
  induction l generalizing i j with
  | nil => simp at h
  | cons y ys ih =>
    cases i <;> cases j
    case zero.zero =>
      obtain rfl : y = x := by simpa using h
      simp [modAt]
    case zero.succ j => simpa [modAt] using h
    case succ.zero i => simpa [modAt] using h
    case succ.succ i j =>
      simp only [List.getElem?_cons_succ] at h
      simpa [modAt] using ih i j h

theorem creditsReturn (s : State) (c : CoreCtx) (run g pos p i : Nat) (rest : List Flight)
    (h : Claims.FirstDue Claims.isCredit c ⟨0, run, g, .credit pos p i⟩ rest) (hp : p < 4) (hk : kindAt pos ≠ .le) :
    Claims.CoreEvent .creditReturn s c fun _ c' => c'.flights = rest ∧
      ((c'.elemD pos).port p).recvs.length = ((c.elemD pos).port p).recvs.length ∧
      ∀ j x, ((c.elemD pos).port p).recvs[j]? = some x →
        ((c'.elemD pos).port p).recvs[j]? = some (if j = i then { x with credits := x.credits + 1 } else x) := by
  intro hc
  have due := takeDue_of_firstDue _ _ _ _ h
  obtain ⟨back, hback⟩ : ∃ back : CoreCtx → CoreCtx, back = fun c => CoreCtx.modElem { c with flights := rest } pos fun e =>
    e.setPort p { e.port p with recvs := modAt (fun r => { r with credits := r.credits + 1 }) (e.port p).recvs i } := ⟨_, rfl⟩
  have port : (((back c).elemD pos).port p).recvs =
      modAt (fun r => { r with credits := r.credits + 1 }) ((c.elemD pos).port p).recvs i := by
    rw [hback]
    simp only [CoreCtx.elemD_modElem_same]
    exact congrArg Port.recvs (at_upd_same _ _ _ _ hp)
  refine ⟨s.modCore s.key back, back c, ?_, ?_, by rw [hback]; rfl, by rw [port, length_modAt], fun j x hx => ?_⟩
  · show execCreditReturn s = _
    rw [execCreditReturn, State.onCore_of s c _ hc]
    dsimp only
    split
    · next heq => cases heq.symm.trans due; simp only [show ¬ 4 ≤ p by omega, hk, if_false, hback]
    · next heq => cases heq.symm.trans due
    · next hne _ => exact (hne _ _ _ _ _ _ _ due).elim
  · rw [State.core?_modCore_same, hc, Option.map_some]
  · rw [port, getElem?_modAt _ _ _ _ _ hx]

theorem busCreditsReturn (s : State) (c : CoreCtx) (run g pos q : Nat) (rest : List Flight)
    (h : Claims.FirstDue Claims.isCredit c ⟨0, run, g, .busCredit pos q⟩ rest) (hq : q < 4) :
    Claims.CoreEvent .creditReturn s c fun _ c' => c'.flights = rest ∧ at' (c'.me pos).qUsed q 0 = at' (c.me pos).qUsed q 0 - 1 := by
  intro hc
  have due := takeDue_of_firstDue _ _ _ _ h
  refine ⟨s.modCore s.key fun c => CoreCtx.modMe { c with flights := rest } pos fun m => { m with qUsed := upd m.qUsed q (at' m.qUsed q 0 - 1) },
    CoreCtx.modMe { c with flights := rest } pos fun m => { m with qUsed := upd m.qUsed q (at' m.qUsed q 0 - 1) }, ?_, ?_, rfl, ?_⟩
  · show execCreditReturn s = _
    rw [execCreditReturn, State.onCore_of s c _ hc]
    dsimp only
    split
    · next heq => cases heq.symm.trans due
    · next heq => cases heq.symm.trans due; rfl
    · next _ hne => exact (hne _ _ _ _ _ _ due).elim
  · rw [State.core?_modCore_same, hc, Option.map_some]
  · simp only [CoreCtx.me, CoreCtx.modMe, Assoc.get?_put_same, Option.getD_some]
    exact at_upd_same _ _ _ _ hq

/-! ### Detours (R17, R126) -/

theorem CoreCtx.onlyCredits_giveCredit (c : CoreCtx) (p q : Nat) :
    ∃ back, Claims.OnlyCredits back ∧ (c.giveCredit p q).flights = c.flights ++ back := by
  by_cases hk : kindAt p = .me
  · refine ⟨[⟨2, 0, c.groupOf 0, .busCredit p q⟩], fun x hx => ?_, by rw [CoreCtx.giveCredit, if_pos hk]; rfl⟩
    rw [List.mem_singleton.1 hx]
    exact .inr ⟨p, q, rfl⟩
  · obtain ⟨back, hback, hfl⟩ := c.giveCredit_inFlight p q hk
    exact ⟨back, fun x hx => .inl (hback x hx), hfl⟩

theorem CoreCtx.groupOf_dequeue (c : CoreCtx) (p q n r : Nat) : (c.dequeue p q n).groupOf r = c.groupOf r := by
  obtain ⟨es, fl, h⟩ := c.grown_dequeue p q n
  rw [h]; rfl

theorem detoursLeave : Claims.DetoursLeave := by
  intro s c e tok ce hat hhead hq hrefused hce hfrozen hroom
  have hdetour : e.detours s.here.idx = true :=
    (e.detours_iff _).2 ⟨⟨tok, hhead, hrefused⟩, fun h => by rw [h] at hce; cases hce⟩
  obtain ⟨back, hback, hfl⟩ :=
    CoreCtx.onlyCredits_giveCredit (c.modElem s.here.pos fun e => e.setQueue s.here.idx (e.queue s.here.idx).tail) s.here.pos s.here.idx
  have core : (s.modCore s.key fun c => (c.dequeue s.here.pos s.here.idx 1).fly (routeLat s.here.pos ce) e.runId
      (.token ce s.here.idx tok)).core? s.key =
      some ((c.dequeue s.here.pos s.here.idx 1).fly (routeLat s.here.pos ce) e.runId (.token ce s.here.idx tok)) := by
    rw [State.core?_modCore_same, hat.core, Option.map_some]
  refine ⟨_, _, back, ?_, State.count_core _ s.key 23 1 _ core, hback, ?_, ?_⟩
  · show execDetourSend s = _
    rw [execDetourSend, State.onCore_of s c _ hat.core]
    simp only [hat.elem, hhead, hce, hdetour, hfrozen, hroom, and_self, if_true]
  · show ((c.dequeue s.here.pos s.here.idx 1).elemD s.here.pos).queue s.here.idx = _
    rw [c.dequeue_same _ _ 1 hq, Elem.queue_setQueue_same _ _ _ hq, c.elemD_of _ e hat.elem]
  · show (c.dequeue s.here.pos s.here.idx 1).flights ++ [⟨_, _, CoreCtx.groupOf _ _, _⟩] = _
    rw [CoreCtx.groupOf_dequeue, show (c.dequeue s.here.pos s.here.idx 1).flights = _ from hfl]
    rfl

/-- Settles O33: what arrives (R16, R18, R19, R26, R42, R79) and what leaves by a detour (R17, R126), one event at a time. -/
theorem resultsArriveAndDetour : Obligations.ResultsArriveAndDetour :=
  ⟨⟨longResultsLand, tokensLand, creditsReturn, busCreditsReturn⟩, detoursLeave⟩

end Sys2Proof.Machine
end

