-- ==== Sys2Proof/Proofs/Blocks.lean ====
section
/-! PROOF. O34: blocks are cached, issued and completed (R13, R57, R102, R143, R162, R163, R181), their issue traps and missing blocks
are the walker's traps (R164, R196), and a window of admission begins with its allowance (R159). -/

namespace Sys2Proof.Machine

/-! ### The configuration cache (R57, R162) -/

theorem makeRoom_fits (s : State) (pc n fuel : Nat) (h : (s.physOf pc).used + n ≤ 8192) : s.makeRoom pc n (fuel + 1) = some (s.physOf pc) :=
  if_pos h

/-- A physical core with one more image in its configuration cache. -/
def PhysCore.withImage (x : CacheEntry) (p : PhysCore) : PhysCore := { p with cache := p.cache ++ [x] }

/-- R162: a block whose words fit enters the configuration cache. -/
theorem cacheBlock_fits (s : State) (ctx core block pc : Nat) (tm : Team) (ws : List W64) (hpc : s.physCore? (ctx, core) = some pc)
    (ht : s.team? ctx = some tm) (hw : tm.blocks.get? block = some ws) (hnew : (s.physOf pc).entry? ctx block = none)
    (hfit : (s.physOf pc).used + ws.length ≤ 8192) :
    s.cacheBlock ctx core block = some (s.modPhys pc
      (PhysCore.withImage ⟨ctx, block, ws.length, blockFail tm.launch.ups (parseBlock ws), (s.physOf pc).uses⟩)) := by
  unfold State.cacheBlock
  simp only [hpc, ht, hw, hnew, makeRoom_fits s pc ws.length _ hfit]
  rfl

theorem blocksAreCached : Claims.BlocksAreCached := by
  intro s c pc tm ws hpc ht hw hnew hneeds hres hfit hc
  let x : CacheEntry := ⟨s.here.ctx, s.here.idx, ws.length, blockFail tm.launch.ups (parseBlock ws), (s.physOf pc).uses⟩
  refine ⟨s.modPhys pc (PhysCore.withImage x), c, ?_, hc, rfl, x, ?_, rfl, rfl, rfl, rfl⟩
  · show execBlockLoad s = _
    rw [execBlockLoad, State.onCore_of s c _ hc, if_neg (by simp [hneeds, hres]),
      cacheBlock_fits s s.here.ctx s.here.core s.here.idx pc tm ws hpc ht hw hnew hfit]
    rfl
  · rw [physOf_put_same]; rfl

/-! ### Traps of the walker (R164, R196) -/

/-- What a record says of a walker at a node, when no block run is concerned (Table 20.2). -/
def walkerSite (core node : Nat) (c : CoreCtx) : RecordSite := ⟨1, false, core, 0, 0, node, 0#64, c.cyc, c.epoch⟩

theorem recordWords_walkerSite (s : State) (c : CoreCtx) (tm : Team) (node : Nat) (x : TrapInfo) :
    recordWords s.here.ctx x (walkerSite s.here.core node c) s.time tm.recSeq = Claims.walkerRecord s c tm node x.code x.info x.info2 := by
  unfold recordWords Claims.walkerRecord walkerSite w64
  refine congrArg₂ List.cons (congrArg (BitVec.ofNat 64) ?_) rfl
  dsimp only
  rw [show b2n false = 0 from rfl]
  omega

/-- R196: the walker's trap writes its record and its core notes it. -/
theorem walkerTrapAt_trapped (s : State) (c : CoreCtx) (tm : Team) (p node : Nat) (x : TrapInfo) (hc : s.core? s.key = some c)
    (ht : s.team? s.here.ctx = some tm) (hp : tm.freePos (s.here.core / 2) = some p) (wf : s.flat.wf = true) :
    (s.walkerTrapAt s.key node none x).core? s.key = some (c.noteRecord (s.here.core / 2 * 512 + p)) ∧
      Claims.Recorded s (s.walkerTrapAt s.key node none x) tm (s.here.core / 2) p (Claims.walkerRecord s c tm node x.code x.info x.info2) := by
  obtain ⟨g, hr⟩ := s.raiseOnCore_free s.key x (walkerSite s.here.core node c) tm p ht hp
  have words := recordWords_walkerSite s c tm node x
  have len : (Claims.walkerRecord s c tm node x.code x.info x.info2).length = 8 := rfl
  have trap : s.walkerTrapAt s.key node none x = s.raiseOnCore s.key x (walkerSite s.here.core node c) := by
    rw [State.walkerTrapAt, hc]; rfl
  generalize Claims.walkerRecord s c tm node x.code x.info x.info2 = ws at words len ⊢
  rw [trap, hr, show recordWords s.key.1 x (walkerSite s.here.core node c) s.time tm.recSeq = ws from words]
  refine ⟨?_, s.readN_withRecord _ _ _ _ _ len wf, fun a ha => s.read_withRecord _ _ _ _ _ len wf a ha⟩
  rw [State.core?_withRecord, hc]; rfl

/-! ### Admission and missing blocks (R159, R164) -/

theorem admitWindowsBegin (s : State) (c : CoreCtx) (hleft : c.admitLeft = 0) (hstep : s.power.step < 3) :
    Claims.CoreEvent .admitWindow s c fun t c' => c' = { c with
      allowance := if c.admitN = 0 then 0 else max c.admitN 8, admitLeft := c.admitW } ∧ t = { s with cores := t.cores } := by
  intro hc
  have now (n : Nat) : s.admitNow s.key n = max n 8 := by
    rw [State.admitNow, if_neg (fun h => by omega)]
  refine ⟨_, _, ?_, (State.core?_modCore_same _ _ _).trans (by rw [hc, Option.map_some]), rfl, rfl⟩
  show execAdmitWindow s = _
  rw [execAdmitWindow, State.onCore_of s c _ hc, if_neg (not_not.2 hleft)]
  simp only [now]

/-- R164: the timeout of a missing block restarts. -/
def CoreCtx.restartMiss (block : Nat) (c : CoreCtx) : CoreCtx :=
  { c with cfgMiss := c.cfgMiss.map fun x => if x.1 = block then (block, 0) else x }

theorem missingBlocksTrap (s : State) (c : CoreCtx) (tm : Team) (block n p : Nat) (ht : s.team? s.here.ctx = some tm)
    (hmiss : (c.cfgMiss.find? fun x => decide (2 ^ tm.launch.cfgto ≤ x.2)) = some (block, n))
    (hruns : ∀ r ∈ c.runs, r.reissue = true → r.block ≠ block) (hp : tm.freePos (s.here.core / 2) = some p) (wf : s.flat.wf = true) :
    Claims.CoreEvent .cfgMissTimeout s c fun t c' =>
      c'.cfgMiss = c.cfgMiss.map (fun x => if x.1 = block then (block, 0) else x) ∧
      Claims.WalkerTrapped s t c c' tm p (((c.walker.pend.find? fun e => e.block == block).map (·.node)).getD 0) 0x0F
        (BitVec.ofNat 64 block) 0#64 := by
  intro hc
  have again : (c.runs.find? fun r => r.reissue && r.block == block) = none := by
    simpa [List.find?_eq_none] using hruns
  have core : (s.modCore s.key (CoreCtx.restartMiss block)).core? s.key = some (c.restartMiss block) := by
    rw [State.core?_modCore_same, hc, Option.map_some]
  obtain ⟨hcore, hrec⟩ := walkerTrapAt_trapped (s.modCore s.key (CoreCtx.restartMiss block)) (c.restartMiss block) tm p
    (((c.walker.pend.find? fun e => e.block == block).map (·.node)).getD 0) ⟨0x0F, w64 block, 0#64⟩ core ht hp wf
  refine ⟨_, _, ?_, hcore, rfl, hrec, rfl⟩
  show execCfgMissTimeout s = _
  rw [execCfgMissTimeout, State.onCore_of s c _ hc]
  simp only [ht, hmiss, again]
  rfl

/-! ### Issue (R13, R163, R181) -/

/-- The state of an element's kind at issue is apart from the elements, the runs and the walker. -/
theorem CoreCtx.issueKind_keeps (c : CoreCtx) (v : Variant) (run pos : Nat) :
    (c.issueKind v run pos).elems = c.elems ∧ (c.issueKind v run pos).runs = c.runs ∧ (c.issueKind v run pos).walker = c.walker := by
  unfold CoreCtx.issueKind
  simp only
  split
  · split_ifs <;> exact ⟨rfl, rfl, rfl⟩
  all_goals exact ⟨rfl, rfl, rfl⟩

/-- One element of a region, loaded for a run. -/
def CoreCtx.loadElem (v : Variant) (run : Nat) (c : CoreCtx) (pos : Nat) : CoreCtx :=
  (c.modElem pos (issueElem v run pos)).issueKind v run pos

theorem CoreCtx.loadElem_keeps (v : Variant) (run : Nat) (c : CoreCtx) (pos : Nat) :
    (c.loadElem v run pos).runs = c.runs ∧ (c.loadElem v run pos).walker = c.walker := by
  obtain ⟨-, hruns, hwalker⟩ := (c.modElem pos (issueElem v run pos)).issueKind_keeps v run pos
  exact ⟨hruns, hwalker⟩

theorem CoreCtx.loadElem_elem? (v : Variant) (run : Nat) (c : CoreCtx) (pos p : Nat) :
    (c.loadElem v run pos).elem? p = if p = pos then some (issueElem v run pos (c.elemD pos)) else c.elem? p := by
  obtain ⟨helems, -, -⟩ := (c.modElem pos (issueElem v run pos)).issueKind_keeps v run pos
  rw [CoreCtx.loadElem, CoreCtx.elem?, helems]
  show (c.modElem pos (issueElem v run pos)).elem? p = _
  split
  · next h => rw [h, CoreCtx.elem?_modElem_same]
  · next h => exact CoreCtx.elem?_modElem_other _ _ _ _ (Ne.symm h)

theorem CoreCtx.loadElems_keeps (v : Variant) (run : Nat) (ps : List Nat) (c : CoreCtx) :
    (ps.foldl (CoreCtx.loadElem v run) c).runs = c.runs ∧ (ps.foldl (CoreCtx.loadElem v run) c).walker = c.walker := by
  induction ps generalizing c with
  | nil => exact ⟨rfl, rfl⟩
  | cons p ps ih =>
    obtain ⟨hruns, hwalker⟩ := c.loadElem_keeps v run p
    obtain ⟨ihruns, ihwalker⟩ := ih (c.loadElem v run p)
    exact ⟨ihruns.trans hruns, ihwalker.trans hwalker⟩

/-- Each element of a region is loaded once, and no other one changes. -/
theorem CoreCtx.loadElems_elem? (v : Variant) (run : Nat) (ps : List Nat) (hps : ps.Nodup) (c : CoreCtx) (p : Nat) :
    (ps.foldl (CoreCtx.loadElem v run) c).elem? p = if p ∈ ps then some (issueElem v run p (c.elemD p)) else c.elem? p := by
  induction ps generalizing c with
  | nil => simp
  | cons x xs ih =>
    obtain ⟨hx, hxs⟩ := List.nodup_cons.1 hps
    rw [List.foldl_cons, ih hxs]
    by_cases h : p = x
    · subst h
      rw [if_neg hx, CoreCtx.loadElem_elem?, if_pos rfl, if_pos List.mem_cons_self]
    · have same : (c.loadElem v run x).elem? p = c.elem? p := by rw [CoreCtx.loadElem_elem?, if_neg h]
      have sameD : (c.loadElem v run x).elemD p = c.elemD p := by
        rw [CoreCtx.elemD, CoreCtx.elemD]; exact congrArg (·.getD Elem.init) same
      simp [h, same, sameD]

theorem Variant.mem_positions (v : Variant) (p : Nat) : p ∈ v.positions ↔ p < 64 ∧ v.holds p = true := by
  simp [Variant.positions]

/-- R163: what the load of a variant leaves of runs, walker and elements. -/
theorem CoreCtx.configure_keeps (c : CoreCtx) (v : Variant) (run : Nat) :
    (c.configure v run).runs = c.runs ∧ (c.configure v run).walker = c.walker ∧
      ∀ p, (c.configure v run).elem? p =
        if p ∈ v.positions then some (issueElem v run p (c.elemD p)) else c.elem? p := by
  have nodup : v.positions.Nodup := List.Nodup.filter _ List.nodup_range
  exact ⟨(CoreCtx.loadElems_keeps v run _ _).1, (CoreCtx.loadElems_keeps v run _ _).2, fun p => CoreCtx.loadElems_elem? v run _ nodup _ p⟩

theorem at_ofFn {α : Type} {n : Nat} (g : Fin n → α) (i : Nat) (d : α) (h : i < n) : at' (Vector.ofFn g) i d = g ⟨i, h⟩ := by
  simp [at', Vector.getD, Array.getD, h]

/-- R13, R42: an element as its image says. -/
theorem issueElem_spec (v : Variant) (run pos : Nat) (old : Elem) :
    let e := issueElem v run pos old
    e.run = some run ∧ e.flags = old.flags ∧ (∀ q < 4, e.queue q = []) ∧ e.halted = false ∧ e.held = none ∧ e.ptr = 0 ∧
      ∀ y, v.elem? pos = some y → e.slots = y.slots ∧ e.consts = y.consts ∧ e.cfg = y.cfg ∧
        (∀ n < 12, e.reg n = { data := 0#64, fmt := .i64, tnt := false, full := y.cfg.initf.getLsbD n, pending := false }) ∧
        ∀ n < 8, e.pred n = ⟨y.cfg.initp.getLsbD n, false, false⟩ := by
  have empty : ∀ q < 4, Elem.init.queue q = [] := by decide
  intro e
  cases hy : v.elem? pos with
  | none =>
    have he : e = { Elem.init with flags := old.flags, run := some run } := by
      show issueElem v run pos old = _
      rw [issueElem, hy]
    rw [he]
    exact ⟨rfl, rfl, empty, rfl, rfl, rfl, fun y h => by cases h⟩
  | some y =>
    have he : e = { Elem.init with
        flags := old.flags, run := some run, cfg := y.cfg, consts := y.consts, slots := y.slots
        regs := Vector.ofFn fun i : Fin 12 => { Reg.empty with full := y.cfg.initf.getLsbD i }
        preds := Vector.ofFn fun i : Fin 8 => ⟨y.cfg.initp.getLsbD i, false, false⟩
        ports := Vector.ofFn fun i : Fin 4 => v.portOf pos i } := by
      show issueElem v run pos old = _
      rw [issueElem, hy]
    rw [he]
    refine ⟨rfl, rfl, empty, rfl, rfl, rfl, ?_⟩
    rintro y' ⟨⟩
    refine ⟨rfl, rfl, rfl, fun n hn => ?_, fun n hn => ?_⟩
    · exact at_ofFn _ _ _ hn
    · exact at_ofFn _ _ _ hn

/-- The run that an entry of the walker's list becomes (R181). -/
def issuedRun (c : CoreCtx) (x : Pend) (b : Block) (v : Variant) (vn : Nat) (is : List SpecInput) (level : Nat) : Run where
  id := x.id
  node := x.node
  block := x.block
  itr := x.itr
  runs := x.spec
  status := ⟨false, false, false, false, vn, 0⟩
  elems := v.positions
  commitPos := b.commitPos
  group := 0
  ended := []
  closing := false
  level := level
  spec := is.any fun i => i.kind != .real
  inputs := is
  complete := false
  reissue := false
  fires := 0
  unroll := v.unroll
  issue := (at' c.evc 15 0#64).toNat

/-- A core with one more run, whose entry has left the walker's list. -/
def CoreCtx.started (r : Run) (idx : Nat) (c : CoreCtx) : CoreCtx :=
  { c with runs := c.runs ++ [r] }.modWalker fun w => { w with pend := w.pend.eraseIdx idx }

theorem bindInputs_cores (s : State) (k : Key) (b : Block) (run : Nat) (is : List SpecInput) : (s.bindInputs k b run is).cores = s.cores := by
  unfold State.bindInputs
  generalize is.zipIdx = l
  induction l generalizing s with
  | nil => rfl
  | cons y ys ih => rw [List.foldl_cons, ih]; rfl

/-- R162: an issue counts as a use of its image. -/
def PhysCore.noteIssue (ctx block : Nat) (q : PhysCore) : PhysCore :=
  { q with
    uses := q.uses + 1
    cache := q.cache.map fun e => if e.ctx = ctx ∧ e.block = block then { e with lastUse := q.uses + 1 } else e }

/-- A machine on which an entry's issue has configured its region and bound its inputs (R163, R248). -/
def State.configured (s : State) (k : Key) (r : Run) (idx pc : Nat) (b : Block) (v : Variant) : State :=
  ((s.modCore k fun c => (c.started r idx).configure v r.id).bindInputs k b r.id r.inputs).modPhys pc (PhysCore.noteIssue k.1 r.block)

theorem issue_eq (s : State) (k : Key) (c : CoreCtx) (tm : Team) (p : Pick) (pc vn level : Nat) (is : List SpecInput) (x : Pend)
    (ws : List W64) (v : Variant) (hre : p.reissue = none) (hx : c.walker.pend[p.idx]? = some x)
    (ht : s.team? k.1 = some tm) (hpc : s.physCore? k = some pc) (hw : tm.blocks.get? x.block = some ws)
    (hv : (parseBlock ws).variants[vn]? = some v) :
    s.issue k c p vn is level =
      (((s.configured k (issuedRun c x (parseBlock ws) v vn is level) p.idx pc (parseBlock ws) v).count k 16
        (is.filter fun i => i.kind != .real).length).count k 15 1).progressed k.1 := by
  unfold State.issue
  simp only [hre, hx, ht, hpc, hw, hv, Option.map_some, Option.getD_some]
  rfl

theorem configured_core (s : State) (k : Key) (r : Run) (idx pc : Nat) (b : Block) (v : Variant) (c : CoreCtx)
    (hc : s.core? k = some c) : (s.configured k r idx pc b v).core? k = some ((c.started r idx).configure v r.id) := by
  rw [State.configured, State.core?_modPhys, State.core?, bindInputs_cores]
  show (s.modCore k _).core? k = _
  rw [State.core?_modCore_same, hc, Option.map_some]

theorem issue_core (s : State) (k : Key) (c c₀ : CoreCtx) (tm : Team) (p : Pick) (pc vn level : Nat) (is : List SpecInput) (x : Pend)
    (ws : List W64) (v : Variant) (hc : s.core? k = some c₀) (hre : p.reissue = none) (hx : c.walker.pend[p.idx]? = some x)
    (ht : s.team? k.1 = some tm) (hpc : s.physCore? k = some pc) (hw : tm.blocks.get? x.block = some ws)
    (hv : (parseBlock ws).variants[vn]? = some v) :
    ∃ e, (s.issue k c p vn is level).core? k =
      some { (c₀.started (issuedRun c x (parseBlock ws) v vn is level) p.idx).configure v x.id with evc := e } := by
  have configured := configured_core s k (issuedRun c x (parseBlock ws) v vn is level) p.idx pc (parseBlock ws) v c₀ hc
  have counted := State.count_core _ k 16 (is.filter fun i => i.kind != .real).length _ configured
  rw [issue_eq s k c tm p pc vn level is x ws v hre hx ht hpc hw hv, State.progressed, State.core?_modTeam,
    State.count_core _ k 15 1 _ counted]
  exact ⟨_, rfl⟩

/-- R181: the waits of the entries left rise. -/
def CoreCtx.agePend (c : CoreCtx) : CoreCtx :=
  c.modWalker fun w => { w with pend := w.pend.map fun (e : Pend) => { e with wait := min (e.wait + 1) 65535 } }

theorem execBlockIssue_yes (s : State) (c : CoreCtx) (p : Pick) (vn level : Nat) (is : List SpecInput) (hc : s.core? s.key = some c)
    (hf : c.frozen = false) (hr : c.resident = true) (hp : s.issuePick s.key c = some p) (hy : p.found = .yes vn is level) :
    exec .blockIssue s = .next ((s.issue s.key c p vn is level).modCore s.key CoreCtx.agePend) := by
  show execBlockIssue s = _
  rw [execBlockIssue, State.onCore_of s c _ hc, if_neg (by simp [hf, hr])]
  simp only [hp, hy]
  rfl

theorem execBlockIssue_trap (s : State) (c : CoreCtx) (p : Pick) (y : TrapInfo) (x : Pend) (hc : s.core? s.key = some c)
    (hf : c.frozen = false) (hr : c.resident = true) (hp : s.issuePick s.key c = some p) (hy : p.found = .trap y)
    (hre : p.reissue = none) (hx : c.walker.pend[p.idx]? = some x) :
    exec .blockIssue s = .next ((s.walkerTrapAt s.key x.node none y).modCore s.key CoreCtx.agePend) := by
  show execBlockIssue s = _
  rw [execBlockIssue, State.onCore_of s c _ hc, if_neg (by simp [hf, hr])]
  simp only [hp, hy, hre, hx]
  rfl

theorem blocksIssue : Claims.BlocksIssue := by
  intro s c tm pc p vn is level x ws v hf hr hp hy hre hx ht hpc hw hv hc
  obtain ⟨ev, core⟩ := issue_core s s.key c c tm p pc vn level is x ws v hc hre hx ht hpc hw hv
  obtain ⟨hruns, hwalker, helems⟩ :=
    (c.started (issuedRun c x (parseBlock ws) v vn is level) p.idx).configure_keeps v x.id
  have aged := (State.core?_modCore_same (s.issue s.key c p vn is level) s.key CoreCtx.agePend).trans (congrArg (Option.map _) core)
  refine ⟨_, _, execBlockIssue_yes s c p vn level is hc hf hr hp hy, aged, ⟨issuedRun c x (parseBlock ws) v vn is level, hruns, rfl, rfl, rfl, rfl, rfl, rfl, rfl, rfl, rfl, rfl, ?_⟩, ?_, fun pos hpos => ?_,
    fun pos h64 hpos => ?_⟩
  · simp [issuedRun]
  · exact congrArg (fun w : Walker => w.pend.map fun (e : Pend) => { e with wait := min (e.wait + 1) 65535 }) hwalker
  · refine (helems pos).trans (if_neg fun h => ?_)
    rw [Variant.mem_positions, hpos] at h
    exact absurd h.2 Bool.false_ne_true
  · obtain ⟨hrun, hflags, rest⟩ := issueElem_spec v x.id pos (c.elemD pos)
    exact ⟨_, (helems pos).trans (if_pos ((v.mem_positions pos).2 ⟨h64, hpos⟩)), hrun, hflags, rest⟩

theorem issueTrapsAreTheWalkers : Claims.IssueTrapsAreTheWalkers := by
  intro s c tm p y x n hf hr hp hy hre hx ht hn wf hc
  obtain ⟨hcore, hrec⟩ := walkerTrapAt_trapped s c tm n x.node y hc ht hn wf
  exact ⟨_, _, execBlockIssue_trap s c p y x hc hf hr hp hy hre hx,
    (State.core?_modCore_same _ _ _).trans (by rw [hcore, Option.map_some]), hrec, rfl⟩

/-! ### Completion (R102, R143) -/

/-- The credits of a list of ports come back (R254). -/
def CoreCtx.dropCredits (l : List (Nat × Nat)) (c : CoreCtx) : CoreCtx := l.foldl (fun c x => c.dropCredit x.1 x.2) c

theorem CoreCtx.dropCredits_only (l : List (Nat × Nat)) (c : CoreCtx) : c.dropCredits l = { c with elems := (c.dropCredits l).elems } := by
  induction l generalizing c with
  | nil => rfl
  | cons x xs ih =>
    show (c.dropCredit x.1 x.2).dropCredits xs = _
    rw [ih]; rfl

/-- A port with `n` more credits of each receiver. -/
def Recv.more (n : Nat) (x : Recv) : Recv := { x with credits := x.credits + n }

theorem CoreCtx.elem?_dropCredit (c : CoreCtx) (pos port p : Nat) (e : Elem) (h : c.elem? p = some e) :
    ∃ ports, (c.dropCredit pos port).elem? p = some { e with ports := ports } := by
  by_cases hp : p = pos
  · subst hp
    exact ⟨_, (c.elem?_modElem_same p _).trans (by rw [c.elemD_of p e h]; rfl)⟩
  · exact ⟨e.ports, (c.elem?_modElem_other pos p _ (Ne.symm hp)).trans h⟩

theorem CoreCtx.elem?_dropCredits (l : List (Nat × Nat)) (c : CoreCtx) (p : Nat) (e : Elem) (h : c.elem? p = some e) :
    ∃ ports, (c.dropCredits l).elem? p = some { e with ports := ports } := by
  induction l generalizing c e with
  | nil => exact ⟨e.ports, h⟩
  | cons x xs ih =>
    obtain ⟨ports, h'⟩ := c.elem?_dropCredit x.1 x.2 p e h
    obtain ⟨ports', h''⟩ := ih (c.dropCredit x.1 x.2) _ h'
    exact ⟨ports', h''⟩

theorem CoreCtx.recvs_dropCredit (c : CoreCtx) (x : Nat × Nat) (pos p : Nat) (hp : p < 4) :
    (((c.dropCredit x.1 x.2).elemD pos).port p).recvs =
      ((c.elemD pos).port p).recvs.map (Recv.more (if x = (pos, p) then 1 else 0)) := by
  obtain ⟨q, r⟩ := x
  have none : Recv.more 0 = id := rfl
  by_cases hq : q = pos
  · subst hq
    rw [CoreCtx.dropCredit, CoreCtx.elemD_modElem_same]
    by_cases hr : r = p
    · subst hr
      rw [if_pos rfl]
      exact congrArg Port.recvs (at_upd_same _ _ _ _ hp)
    · rw [Elem.port_setPort_other _ _ _ _ hr, if_neg (by simp [hr]), none, List.map_id]
  · rw [if_neg (by simp [hq]), none, List.map_id, CoreCtx.elemD]
    exact congrArg (fun e : Option Elem => ((e.getD Elem.init).port p).recvs) (c.elem?_modElem_other q pos _ hq)

theorem CoreCtx.recvs_dropCredits (l : List (Nat × Nat)) (c : CoreCtx) (pos p : Nat) (hp : p < 4) :
    (((c.dropCredits l).elemD pos).port p).recvs = ((c.elemD pos).port p).recvs.map (Recv.more (l.count (pos, p))) := by
  induction l generalizing c with
  | nil => exact (List.map_id _).symm
  | cons x xs ih =>
    show (((CoreCtx.dropCredits xs (c.dropCredit x.1 x.2)).elemD pos).port p).recvs = _
    rw [ih, c.recvs_dropCredit x pos p hp, List.map_map, List.count_cons]
    refine List.map_congr_left fun y _ => ?_
    simp only [Function.comp_apply, Recv.more, beq_iff_eq]
    rw [Nat.add_assoc, Nat.add_comm (List.count _ _)]

/-- The words of a run's streams that wait for a port, counted. -/
theorem count_unsent (run pos p : Nat) (l : List Flight) :
    (l.filterMap (Claims.unsent run)).count (pos, p) = (l.filter fun f => Claims.unsent run f = some (pos, p)).length := by
  induction l with
  | nil => rfl
  | cons f fs ih =>
    rw [List.filterMap_cons, List.filter_cons]
    cases h : Claims.unsent run f with
    | none => simp [ih]
    | some x => by_cases hx : x = (pos, p) <;> simp [hx, ih]

/-- A core without the words that a run's streams have read and not sent, before their credits come back. -/
def CoreCtx.dropWords (r : Run) (c : CoreCtx) : CoreCtx :=
  { c with
    ses := c.ses.map fun (x : Nat × SE) =>
      if (c.elemD x.1).run = some r.id then (x.1, { x.2 with gens := Vector.replicate 4 SGen.init, burst := none }) else x
    readers := c.readers.filter fun x => x.2.run != r.id
    flights := c.flights.filter fun f => (Claims.unsent r.id f).isNone }

theorem CoreCtx.endStreams_eq (c : CoreCtx) (r : Run) :
    c.endStreams r = (c.dropWords r).dropCredits (c.flights.filterMap (Claims.unsent r.id)) := rfl

/-- What the end of a run's streams leaves of its core (R102, R120). -/
theorem CoreCtx.endStreams_ended (c : CoreCtx) (r : Run) : Claims.StreamsEnded r.id c (c.endStreams r) := by
  rw [CoreCtx.endStreams_eq]
  refine ⟨?_, ?_, fun pos p hp => ?_⟩
  · rw [CoreCtx.dropCredits_only]; rfl
  · rw [CoreCtx.dropCredits_only]; rfl
  · rw [CoreCtx.recvs_dropCredits _ _ _ _ hp, count_unsent]; rfl

theorem CoreCtx.endStreams_keeps (c : CoreCtx) (r : Run) : (c.endStreams r).runs = c.runs ∧ (c.endStreams r).buf = c.buf := by
  rw [CoreCtx.endStreams_eq, CoreCtx.dropCredits_only]
  exact ⟨rfl, rfl⟩

theorem CoreCtx.endStreams_elem? (c : CoreCtx) (r : Run) (p : Nat) (e : Elem) (h : c.elem? p = some e) :
    ∃ ports, (c.endStreams r).elem? p = some { e with ports := ports } := by
  rw [CoreCtx.endStreams_eq]
  exact CoreCtx.elem?_dropCredits _ _ p e h

/-- An element that a run has left. -/
def Elem.leave (run : Nat) (e : Elem) : Elem := if e.run = some run then { e with run := none } else e

theorem Elem.port_leave (run : Nat) (e : Elem) (p : Nat) : (e.leave run).port p = e.port p := by
  unfold Elem.leave
  split <;> rfl

theorem get?_map_leave (run : Nat) (l : Assoc Nat Elem) (p : Nat) :
    Assoc.get? (l.map fun (x : Nat × Elem) => if x.2.run = some run then (x.1, { x.2 with run := none }) else x) p =
      (l.get? p).map (Elem.leave run) := by
  induction l with
  | nil => rfl
  | cons x xs ih =>
    obtain ⟨k, e⟩ := x
    by_cases hk : k = p <;> by_cases hr : e.run = some run <;> simp [Assoc.get?, Elem.leave, hk, hr, ih]

theorem CoreCtx.release_elem? (c : CoreCtx) (r : Run) (p : Nat) :
    (c.release r).elem? p = ((c.endStreams r).elem? p).map (Elem.leave r.id) := get?_map_leave r.id _ p

theorem CoreCtx.release_port (c : CoreCtx) (r : Run) (pos p : Nat) :
    ((c.release r).elemD pos).port p = ((c.endStreams r).elemD pos).port p := by
  rw [CoreCtx.elemD, show (c.release r).elems.get? pos = _ from c.release_elem? r pos, CoreCtx.elemD, CoreCtx.elem?]
  cases (c.endStreams r).elems.get? pos with
  | none => rfl
  | some e => exact Elem.port_leave r.id e p

theorem CoreCtx.release_ended (c : CoreCtx) (r : Run) : Claims.StreamsEnded r.id c (c.release r) := by
  obtain ⟨hflights, hreaders, hports⟩ := c.endStreams_ended r
  exact ⟨hflights, hreaders, fun pos p hp => by rw [c.release_port]; exact hports pos p hp⟩

/-- A run whose last group ends with its completion (R143). -/
def Run.completed (r : Run) : Run := { r with complete := true, closing := false, ended := r.ended ++ [r.group], group := r.group + 1 }

theorem find?_map_run (rs : List Run) (r : Run) (g : Run → Run) (hg : ∀ x, (g x).id = x.id)
    (h : rs.find? (fun x => x.id == r.id) = some r) :
    (rs.map fun x => if x.id = r.id then g x else x).find? (fun x => x.id == r.id) = some (g r) := by
  induction rs with
  | nil => simp at h
  | cons x xs ih =>
    rw [List.find?_cons] at h
    rw [List.map_cons, List.find?_cons]
    by_cases hx : x.id = r.id
    · simp only [hx, beq_self_eq_true, Option.some.injEq] at h
      subst h
      simp [hg]
    · have hb : (x.id == r.id) = false := by simpa using hx
      simp only [hb] at h
      simp only [hx, if_false, hb]
      exact ih h

theorem CoreCtx.run?_modRun (c : CoreCtx) (r : Run) (g : Run → Run) (hg : ∀ x, (g x).id = x.id) (n : Nat) (h : c.run? n = some r) :
    (c.modRun r.id g).run? n = some (g r) := by
  obtain rfl : r.id = n := by simpa using List.find?_some h
  exact find?_map_run c.runs r g hg h

/-- What a run's completion makes of its core: its streams end, and its elements leave it unless it may be squashed. -/
def CoreCtx.completed (r : Run) (c : CoreCtx) : CoreCtx :=
  { if r.spec then (c.modRun r.id Run.completed).endStreams r else (c.modRun r.id Run.completed).release r with ends := true }

theorem execBlockComplete_done (s : State) (c : CoreCtx) (r : Run) (hc : s.core? s.key = some c) (hr : c.run? s.here.idx = some r)
    (hcomplete : r.complete = false) (hre : r.reissue = false) (hhalted : c.halted r = true) (hsettled : c.settled r = true) :
    exec .blockComplete s =
      .next ((s.modCore s.key (CoreCtx.completed r)).modTeam s.here.ctx fun t => t.leaveBars s.here.core r.id) := by
  show execBlockComplete s = _
  rw [execBlockComplete, State.onCore_of s c _ hc]
  simp only [hr, hcomplete, hre, hhalted, hsettled]
  rfl

theorem blocksComplete : Claims.BlocksComplete := by
  intro s c r hr hcomplete hre hhalted hsettled hc
  have run := c.run?_modRun r Run.completed (fun _ => rfl) _ hr
  refine ⟨_, c.completed r, execBlockComplete_done s c r hc hr hcomplete hre hhalted hsettled, ?_, ?_⟩
  · rw [State.core?_modTeam, State.core?_modCore_same, hc, Option.map_some]
  have streams (pos : Nat) (e : Elem) (he : c.elem? pos = some e) := (c.modRun r.id Run.completed).endStreams_elem? r pos e he
  obtain ⟨hruns, hbuf⟩ := (c.modRun r.id Run.completed).endStreams_keeps r
  have done := (congrArg (List.find? fun x : Run => x.id == s.here.idx) hruns).trans run
  unfold CoreCtx.completed
  by_cases hspec : r.spec = true
  · rw [if_pos hspec]
    refine ⟨done, rfl, hbuf, (c.modRun r.id Run.completed).endStreams_ended r, fun pos e he => ?_⟩
    obtain ⟨ports, h⟩ := streams pos e he
    exact ⟨_, h, fun hf => absurd (hspec.symm.trans hf) Bool.noConfusion, fun _ => rfl⟩
  · rw [if_neg hspec]
    refine ⟨done, rfl, hbuf, (c.modRun r.id Run.completed).release_ended r, fun pos e he => ?_⟩
    obtain ⟨ports, h⟩ := streams pos e he
    refine ⟨Elem.leave r.id { e with ports := ports }, ?_, fun _ hrun => ?_, fun hrun => ?_⟩
    · exact ((c.modRun r.id Run.completed).release_elem? r pos).trans (congrArg (Option.map _) h)
    · rw [Elem.leave, if_pos hrun]
    · rw [Elem.leave, if_neg (hrun.resolve_left hspec)]

/-- Settles O34: the cache, the issue with its traps, the completion, the admission and the missing blocks, each from the lemmas
about its step. -/
theorem blocksLoadIssueAndComplete : Obligations.BlocksLoadIssueAndComplete :=
  ⟨blocksAreCached, blocksIssue, issueTrapsAreTheWalkers, blocksComplete, admitWindowsBegin, missingBlocksTrap⟩

end Sys2Proof.Machine
end

