-- ==== Sys2Proof/Proofs/Words.lean ====
section
/-! PROOF. The 64-bit word that eight spots of one byte each hold (R6, R132): in flat memory, in HBM, and in a tile's buffer, where
undefined bytes become defined (R203). -/

namespace Sys2Proof.Machine

/-! ### Bytes of a number -/

theorem leBytes_succ (n v : Nat) : leBytes (n + 1) v = leBytes n v ++ [BitVec.ofNat 8 (v / 2 ^ (8 * n))] := by
  induction n generalizing v with
  | zero => simp [leBytes]
  | succ n ih =>
    rw [leBytes, ih, leBytes, List.cons_append, Nat.div_div_eq_div_mul, show 256 * 2 ^ (8 * n) = 2 ^ (8 * (n + 1)) by
      rw [Nat.mul_succ, Nat.pow_add]; omega]

theorem leNat_append (a b : List Byte) : leNat (a ++ b) = leNat a + 2 ^ (8 * a.length) * leNat b := by
  induction a with
  | nil => simp [leNat]
  | cons x xs ih =>
    rw [List.cons_append, leNat, leNat, ih, List.length_cons, Nat.mul_succ, Nat.pow_add]
    ring

theorem Memory.readN_succ (m : Memory) (a n : Nat) : m.readN a (n + 1) = m.readN a n ++ [m.read (a + n)] := by
  induction n generalizing a with
  | zero => rfl
  | succ n ih => rw [Memory.readN, ih, Memory.readN, List.cons_append, Nat.add_right_comm, Nat.add_assoc]

theorem Memory.writeN_append (m : Memory) (a : Nat) (xs ys : List Byte) : m.writeN a (xs ++ ys) = (m.writeN a xs).writeN (a + xs.length) ys := by
  induction xs generalizing m a with
  | nil => rfl
  | cons x xs ih => rw [List.cons_append, Memory.writeN, ih, Memory.writeN, List.length_cons, Nat.add_right_comm, Nat.add_assoc]

/-- A number is the sum of its bytes. -/
theorem sum_bytes (r : Nat → Byte) (n : Nat) :
    ((List.range n).map fun j => (r j).toNat * 2 ^ (8 * j)).sum = leNat ((List.range n).map r) := by
  induction n with
  | zero => rfl
  | succ n ih =>
    rw [List.range_succ, List.map_append, List.map_append, List.sum_append, ih, leNat_append]
    simp [leNat, Nat.mul_comm]

theorem Memory.readN_eq_map (m : Memory) (a n : Nat) : m.readN a n = (List.range n).map fun j => m.read (a + j) := by
  induction n with
  | zero => rfl
  | succ n ih => rw [Memory.readN_succ, ih, List.range_succ, List.map_append]; rfl

/-! ### Bits at a byte's place -/

/-- What `setBits` makes of the byte it replaces. -/
theorem replaced_byte (b : Byte) (v : Nat) :
    leBytes 1 (leNat [b] - leNat [b] / 2 ^ 0 % 2 ^ 8 * 2 ^ 0 + v % 2 ^ 8 * 2 ^ 0) = [BitVec.ofNat 8 v] := by
  have hb : b.toNat < 256 := b.isLt
  have hl : leNat [b] = b.toNat := by simp [leNat]
  simp only [leBytes, hl, List.cons.injEq, and_true]
  apply BitVec.eq_of_toNat_eq
  simp only [BitVec.toNat_ofNat]
  omega

theorem Memory.bits_byte (m : Memory) (b : Nat) (h : b % 8 = 0) : m.bits b 8 = (m.read (b / 8)).toNat := by
  have hlt : (m.read (b / 8)).toNat < 256 := (m.read (b / 8)).isLt
  simp only [Memory.bits, h, Memory.readN, leNat]
  omega

theorem Memory.setBits_byte (m : Memory) (b v : Nat) (h : b % 8 = 0) : m.setBits b 8 v = m.write (b / 8) (BitVec.ofNat 8 v) := by
  unfold Memory.setBits
  simp only [h]
  rw [show (8 + 7) / 8 = 1 from rfl, show m.readN (b / 8) 1 = [m.read (b / 8)] from rfl, replaced_byte]
  rfl

theorem Memory.setBits_wf (m : Memory) (b n v : Nat) (w : m.wf = true) : (m.setBits b n v).wf = true := Memory.writeN_wf _ _ _ w

/-- A write of `n` bits touches no byte beyond the ones that `n` bits take from its first one on. -/
theorem Memory.read_setBits_outside (m : Memory) (b n v x : Nat) (w : m.wf = true) (h : x < b / 8 ∨ b / 8 + (n + 7) / 8 ≤ x) :
    (m.setBits b n v).read x = m.read x :=
  Memory.read_writeN_outside _ _ _ _ w (by rw [leBytes_length]; exact h)

/-- The word written byte by byte. -/
theorem Memory.foldl_setBits (m : Memory) (b v : Nat) (h : b % 8 = 0) (n : Nat) :
    (List.range n).foldl (fun m j => m.setBits (b + 8 * j) 8 (v / 2 ^ (8 * j) % 2 ^ 8)) m = m.writeN (b / 8) (leBytes n v) := by
  induction n with
  | zero => rfl
  | succ n ih =>
    rw [List.range_succ, List.foldl_append, ih, leBytes_succ, Memory.writeN_append, leBytes_length, List.foldl_cons, List.foldl_nil,
      Memory.setBits_byte _ _ _ (by omega), show (b + 8 * n) / 8 = b / 8 + n by omega, Memory.writeN, Memory.writeN]
    congr 1
    apply BitVec.eq_of_toNat_eq
    simp

/-- The word read byte by byte. -/
theorem Memory.sum_bits (m : Memory) (b : Nat) (h : b % 8 = 0) (n : Nat) :
    ((List.range n).map fun j => m.bits (b + 8 * j) 8 * 2 ^ (8 * j)).sum = leNat (m.readN (b / 8) n) := by
  rw [Memory.readN_eq_map, ← sum_bytes]
  congr 1
  refine List.map_congr_left fun j _ => ?_
  rw [Memory.bits_byte _ _ (by omega), show (b + 8 * j) / 8 = b / 8 + j by omega]

/-! ### A memory core's window (R203) -/

theorem undefAt_append (u w : List (Nat × Nat × Nat)) (x : Nat) : undefAt (u ++ w) x = (undefAt u x).or (undefAt w x) := by
  induction u with
  | nil => rfl
  | cons p t ih =>
    obtain ⟨lo, hi, n⟩ := p
    rw [List.cons_append, undefAt, undefAt, ih]
    split <;> rfl

/-- A written range is defined, and no other byte's definedness changes. -/
theorem undefAt_undefCut (u : List (Nat × Nat × Nat)) (lo hi x : Nat) :
    undefAt (undefCut u lo hi) x = if lo ≤ x ∧ x < hi then none else undefAt u x := by
  induction u with
  | nil => simp [undefCut, undefAt]
  | cons p t ih =>
    obtain ⟨a, b, n⟩ := p
    have left : undefAt (if a < min b lo then [(a, min b lo, n)] else []) x = if a ≤ x ∧ x < min b lo then some (n + (x - a)) else none := by
      split
      · rfl
      · rw [if_neg (by omega)]; rfl
    have right : undefAt (if max a hi < b then [(max a hi, b, n + (max a hi - a))] else []) x =
        if max a hi ≤ x ∧ x < b then some (n + (x - a)) else none := by
      split
      · simp only [undefAt]
        split
        · congr 1; omega
        · rfl
      · rw [if_neg (by omega)]; rfl
    rw [undefCut, List.flatMap_cons, undefAt_append, undefAt_append, left, right]
    change ((_ : Option Nat).or _).or (undefAt (undefCut t lo hi) x) = _
    rw [ih, undefAt]
    by_cases hin : lo ≤ x ∧ x < hi
    · rw [if_neg (by omega), if_neg (by omega), if_pos hin, if_pos hin]; rfl
    · rw [if_neg hin, if_neg hin]
      by_cases hab : a ≤ x ∧ x < b
      · rw [if_pos hab]
        by_cases hlo : x < lo
        · rw [if_pos (by omega)]; rfl
        · rw [if_neg (by omega), if_pos (by omega)]; rfl
      · rw [if_neg hab, if_neg (by omega), if_neg (by omega)]; rfl

theorem MCoreCtx.byte_setBytes (m : MCoreCtx) (a x : Nat) (bs : List Byte) (w : m.window.wf = true) :
    (m.setBytes a bs).byte x = if a ≤ x ∧ x < a + bs.length then bs.getD (x - a) 0#8 else m.byte x := by
  unfold MCoreCtx.byte MCoreCtx.setBytes
  simp only [undefAt_undefCut m.undef a (a + bs.length) x]
  by_cases h : a ≤ x ∧ x < a + bs.length
  · obtain ⟨i, rfl⟩ := Nat.exists_eq_add_of_le h.1
    have hi : i < bs.length := by omega
    rw [if_pos h, if_pos h, Nat.add_sub_cancel_left]
    exact Memory.read_writeN_inside _ _ _ _ w hi
  · rw [if_neg h, if_neg h, Memory.read_writeN_outside _ _ _ _ w (by omega)]

theorem MCoreCtx.setBits_byte (m : MCoreCtx) (base b v : Nat) (h : b % 8 = 0) :
    m.setBits base b 8 v = m.setBytes (base + b / 8) [BitVec.ofNat 8 v] := by
  unfold MCoreCtx.setBits
  simp only [h]
  rw [show (8 + 7) / 8 = 1 from rfl, show m.bytes (base + b / 8) 1 = [m.byte (base + b / 8)] from rfl, replaced_byte]

theorem MCoreCtx.bits_byte (m : MCoreCtx) (base b : Nat) (h : b % 8 = 0) : m.bits base b 8 = (m.byte (base + b / 8)).toNat := by
  have hlt : (m.byte (base + b / 8)).toNat < 256 := (m.byte (base + b / 8)).isLt
  unfold MCoreCtx.bits
  simp only [h]
  rw [show (8 + 7) / 8 = 1 from rfl, show m.bytes (base + b / 8) 1 = [m.byte (base + b / 8)] from rfl]
  simp only [leNat]
  omega

/-- The word read byte by byte. -/
theorem MCoreCtx.sum_bits (m : MCoreCtx) (base b : Nat) (h : b % 8 = 0) (n : Nat) :
    ((List.range n).map fun j => m.bits base (b + 8 * j) 8 * 2 ^ (8 * j)).sum = leNat (m.bytes (base + b / 8) n) := by
  rw [MCoreCtx.bytes, ← sum_bytes]
  congr 1
  refine List.map_congr_left fun j _ => ?_
  rw [MCoreCtx.bits_byte _ _ _ (by omega), show base + (b + 8 * j) / 8 = base + b / 8 + j by omega]

theorem List.getD_leBytes (n v i : Nat) (h : i < n) : (leBytes n v).getD i 0#8 = BitVec.ofNat 8 (v / 2 ^ (8 * i)) := by
  induction n with
  | zero => omega
  | succ n ih =>
    rw [leBytes_succ]
    by_cases hi : i < n
    · rw [List.getD_append _ _ _ _ (by rw [leBytes_length]; exact hi), ih hi]
    · obtain rfl : i = n := by omega
      rw [List.getD_append_right _ _ _ _ (by rw [leBytes_length]), leBytes_length, Nat.sub_self]
      rfl

/-- A window with a number's bytes from `w` on. -/
structure HoldsBytes (m m' : MCoreCtx) (w n v : Nat) : Prop where
  wf : m'.window.wf = true
  tiles : m'.tiles = m.tiles
  inside : ∀ i < n, m'.byte (w + i) = BitVec.ofNat 8 (v / 2 ^ (8 * i))
  outside : ∀ x, x < w ∨ w + n ≤ x → m'.byte x = m.byte x

theorem HoldsBytes.bytes {m m' : MCoreCtx} {w n v : Nat} (h : HoldsBytes m m' w n v) : m'.bytes w n = leBytes n v := by
  refine List.ext_getElem (by simp [MCoreCtx.bytes, leBytes_length]) fun i hi hi' => ?_
  have hn : i < n := by simpa [MCoreCtx.bytes] using hi
  simp only [MCoreCtx.bytes, List.getElem_map, List.getElem_range]
  rw [h.inside i hn, ← List.getD_leBytes n v i hn, List.getD_eq_getElem _ _ hi']

/-- The byte of a number that one spot takes of a tile's current buffer (R132). -/
def MCoreCtx.setTileByte (slot b v : Nat) (m : MCoreCtx) (j : Nat) : MCoreCtx :=
  m.setBits ((m.tile slot).bufAt (m.tile slot).cur) (b + 8 * j) 8 (v / 2 ^ (8 * j) % 2 ^ 8)

/-- The word written byte by byte. -/
theorem MCoreCtx.foldl_setTileByte (m : MCoreCtx) (slot b v : Nat) (h : b % 8 = 0) (wf : m.window.wf = true) (n : Nat) :
    HoldsBytes m ((List.range n).foldl (MCoreCtx.setTileByte slot b v) m) ((m.tile slot).bufAt (m.tile slot).cur + b / 8) n v := by
  induction n with
  | zero => exact ⟨wf, rfl, fun i hi => absurd hi (Nat.not_lt_zero i), fun _ _ => rfl⟩
  | succ n ih =>
    obtain ⟨hwf, htiles, hin, hout⟩ := ih
    rw [List.range_succ, List.foldl_append, List.foldl_cons, List.foldl_nil]
    generalize (List.range n).foldl (MCoreCtx.setTileByte slot b v) m = m' at hwf htiles hin hout ⊢
    have tile : m'.tile slot = m.tile slot := by rw [MCoreCtx.tile, htiles, MCoreCtx.tile]
    rw [MCoreCtx.setTileByte, tile, MCoreCtx.setBits_byte _ _ _ _ (by omega), show (b + 8 * n) / 8 = b / 8 + n by omega]
    generalize (m.tile slot).bufAt (m.tile slot).cur = base at hin hout ⊢
    have byte (x : Nat) := MCoreCtx.byte_setBytes m' (base + (b / 8 + n)) x [BitVec.ofNat 8 (v / 2 ^ (8 * n) % 2 ^ 8)] hwf
    simp only [List.length_singleton] at byte
    refine ⟨Memory.writeN_wf _ _ _ hwf, htiles, fun i hi => ?_, fun x hx => ?_⟩
    · rw [byte]
      by_cases hin' : i < n
      · rw [if_neg (by omega)]
        exact hin i hin'
      · obtain rfl : i = n := by omega
        rw [if_pos (by omega), show base + b / 8 + i - (base + (b / 8 + i)) = 0 by omega]
        apply BitVec.eq_of_toNat_eq
        simp
    · rw [byte, if_neg (by omega)]
      exact hout x (by omega)

/-! ### The parts of a word (R132) -/

theorem readParts_flat (s : State) (ctx b : Nat) (h : b % 8 = 0) :
    s.readParts ctx (Claims.together fun j => .flat (b + 8 * j)) = leNat (s.flat.readN (b / 8) 8) := by
  rw [← Memory.sum_bits _ _ h, State.readParts, Claims.together, List.map_map]; rfl

theorem readParts_hbm (s : State) (ctx b : Nat) (h : b % 8 = 0) :
    s.readParts ctx (Claims.together fun j => .hbm (b + 8 * j)) = leNat (s.hbm.readN (b / 8) 8) := by
  rw [← Memory.sum_bits _ _ h, State.readParts, Claims.together, List.map_map]; rfl

theorem readParts_tile (s : State) (ctx mc slot b : Nat) (m : MCoreCtx) (h : b % 8 = 0) (hm : s.mcore? (ctx, mc) = some m) :
    s.readParts ctx (Claims.together fun j => .tile mc slot (b + 8 * j)) =
      leNat (m.bytes ((m.tile slot).bufAt (m.tile slot).cur + b / 8) 8) := by
  rw [← MCoreCtx.sum_bits _ _ _ h, State.readParts, Claims.together, List.map_map]
  congr 1
  refine List.map_congr_left fun j _ => ?_
  simp only [Function.comp_apply, State.readSpot, hm]

/-- The current buffer of a tile, in which atomics and committed stores act (R203). -/
def curBuf (_ : Nat) (t : Tile) : Nat := t.cur

theorem writeParts_flat (s : State) (ctx b v : Nat) (h : b % 8 = 0) :
    s.writeParts ctx curBuf (Claims.together fun j => .flat (b + 8 * j)) v = { s with flat := s.flat.writeN (b / 8) (leBytes 8 v) } := by
  have steps (l : List Nat) (s : State) :
      l.foldl (fun s j => s.writeSpot ctx curBuf (.flat (b + 8 * j)) 8 (v / 2 ^ (8 * j) % 2 ^ 8)) s =
        { s with flat := l.foldl (fun m j => m.setBits (b + 8 * j) 8 (v / 2 ^ (8 * j) % 2 ^ 8)) s.flat } := by
    induction l generalizing s with
    | nil => rfl
    | cons j js ih => rw [List.foldl_cons, ih]; rfl
  rw [← Memory.foldl_setBits _ _ _ h, State.writeParts, Claims.together, List.foldl_map]
  exact steps _ s

theorem writeParts_hbm (s : State) (ctx b v : Nat) (h : b % 8 = 0) :
    s.writeParts ctx curBuf (Claims.together fun j => .hbm (b + 8 * j)) v = { s with hbm := s.hbm.writeN (b / 8) (leBytes 8 v) } := by
  have steps (l : List Nat) (s : State) :
      l.foldl (fun s j => s.writeSpot ctx curBuf (.hbm (b + 8 * j)) 8 (v / 2 ^ (8 * j) % 2 ^ 8)) s =
        { s with hbm := l.foldl (fun m j => m.setBits (b + 8 * j) 8 (v / 2 ^ (8 * j) % 2 ^ 8)) s.hbm } := by
    induction l generalizing s with
    | nil => rfl
    | cons j js ih => rw [List.foldl_cons, ih]; rfl
  rw [← Memory.foldl_setBits _ _ _ h, State.writeParts, Claims.together, List.foldl_map]
  exact steps _ s

theorem State.modMcore_modMcore (s : State) (k : Key) (f g : MCoreCtx → MCoreCtx) :
    (s.modMcore k f).modMcore k g = s.modMcore k fun m => g (f m) := by
  simp only [State.modMcore, Assoc.adjust_adjust]

theorem Assoc.adjust_id {α : Type} (l : Assoc Key α) (k : Key) : l.adjust k (fun x => x) = l := by
  induction l with
  | nil => rfl
  | cons p t ih =>
    obtain ⟨k', v⟩ := p
    rw [Assoc.adjust, ih]
    split <;> rfl

theorem writeParts_tile (s : State) (ctx mc slot b v : Nat) :
    s.writeParts ctx curBuf (Claims.together fun j => .tile mc slot (b + 8 * j)) v =
      s.modMcore (ctx, mc) fun m => (List.range 8).foldl (MCoreCtx.setTileByte slot b v) m := by
  have steps (l : List Nat) (s : State) :
      l.foldl (fun s j => s.writeSpot ctx curBuf (.tile mc slot (b + 8 * j)) 8 (v / 2 ^ (8 * j) % 2 ^ 8)) s =
        s.modMcore (ctx, mc) fun m => l.foldl (MCoreCtx.setTileByte slot b v) m := by
    induction l generalizing s with
    | nil => simp only [List.foldl_nil, State.modMcore, Assoc.adjust_id]
    | cons j js ih => rw [List.foldl_cons, ih]; exact State.modMcore_modMcore _ _ _ _
  rw [State.writeParts, Claims.together, List.foldl_map]
  exact steps _ s

/-- A write of parts changes flat memory, HBM and memory cores alone. -/
theorem writeParts_only (s : State) (ctx : Nat) (buf : Nat → Tile → Nat) (parts : List (Spot × Nat × Nat)) (v : Nat) :
    s.writeParts ctx buf parts v = { s with
      flat := (s.writeParts ctx buf parts v).flat, hbm := (s.writeParts ctx buf parts v).hbm
      mcores := (s.writeParts ctx buf parts v).mcores } := by
  unfold State.writeParts
  induction parts generalizing s with
  | nil => rfl
  | cons p ps ih =>
    rw [List.foldl_cons, ih]
    cases h : p.1 <;> rfl

/-- A byte of HBM that no part touches is as it was. -/
theorem hbm_read_writeParts (s : State) (ctx : Nat) (buf : Nat → Tile → Nat) (parts : List (Spot × Nat × Nat)) (v x : Nat)
    (wf : s.hbm.wf = true) (h : ∀ p ∈ parts, ∀ b, p.1 = .hbm b → x < b / 8 ∨ b / 8 + (p.2.1 + 7) / 8 ≤ x) :
    (s.writeParts ctx buf parts v).hbm.read x = s.hbm.read x := by
  unfold State.writeParts
  induction parts generalizing s with
  | nil => rfl
  | cons p ps ih =>
    rw [List.foldl_cons]
    have rest := fun q hq => h q (List.mem_cons_of_mem p hq)
    have first := h p List.mem_cons_self
    cases hp : p.1 with
    | hbm b =>
      refine (ih _ (Memory.setBits_wf _ _ _ _ wf) rest).trans ?_
      exact Memory.read_setBits_outside _ _ _ _ _ wf (first b hp)
    | flat b => exact ih _ wf rest
    | tile mc slot b => exact ih _ wf rest
    | none => exact ih _ wf rest

end Sys2Proof.Machine
end

