-- ==== Sys2Proof/Proofs/EndpointFires.lean ====
section
/-! PROOF. The fires of an endpoint element (R127 to R137): what the machine's shared counters and tables leave of cores and memory, and
what a fire makes of its core once its further effects are known. -/

namespace Sys2Proof.Machine

/-! ### Effects on one core -/

theorem quiet_refl (s : State) : Claims.Quiet s s := ⟨rfl, rfl, rfl, rfl, rfl, rfl⟩

theorem quiet_trans {s t u : State} (h : Claims.Quiet s t) (g : Claims.Quiet t u) : Claims.Quiet s u := by
  obtain ⟨flat, hbm, mcores, engines, disp, host⟩ := h
  obtain ⟨flat', hbm', mcores', engines', disp', host'⟩ := g
  exact ⟨flat'.trans flat, hbm'.trans hbm, mcores'.trans mcores, engines'.trans engines, disp'.trans disp, host'.trans host⟩

/-- An effect that turns core `k` from `c` into `c'` and changes neither another core nor memory, engines or the host. -/
structure Acts (k : Key) (s t : State) (c c' : CoreCtx) : Prop where
  quiet : Claims.Quiet s t
  core : s.core? k = some c → t.core? k = some c'
  others : ∀ k', k' ≠ k → t.core? k' = s.core? k'

namespace Acts

theorem refl (k : Key) (s : State) (c : CoreCtx) : Acts k s s c c := ⟨quiet_refl s, id, fun _ _ => rfl⟩

theorem of_eq {k : Key} {s t : State} (c : CoreCtx) (h : t = s) : Acts k s t c c := by rw [h]; exact refl k s c

theorem trans {k : Key} {s t u : State} {a b c : CoreCtx} (h : Acts k s t a b) (g : Acts k t u b c) : Acts k s u a c :=
  ⟨quiet_trans h.quiet g.quiet, fun hc => g.core (h.core hc), fun k' hk => (g.others k' hk).trans (h.others k' hk)⟩

theorem modCore (k : Key) (s : State) (c : CoreCtx) (g : CoreCtx → CoreCtx) : Acts k s (s.modCore k g) c (g c) where
  quiet := ⟨rfl, rfl, rfl, rfl, rfl, rfl⟩
  core hc := by rw [State.core?_modCore_same, hc, Option.map_some]
  others k' hk := State.core?_modCore_other _ _ _ _ hk.symm

theorem modElem (k : Key) (s : State) (c : CoreCtx) (pos : Nat) (g : Elem → Elem) :
    Acts k s (s.modElem k pos g) c (c.modElem pos g) := modCore k s c _

theorem count (k : Key) (s : State) (c : CoreCtx) (i n : Nat) :
    Acts k s (s.count k i n) c { c with evc := upd c.evc i (at' c.evc i 0#64 + w64 n) } where
  quiet := ⟨by simp, by simp, by simp, by simp, by simp, by simp⟩
  core hc := State.count_core s k i n c hc
  others k' hk := State.count_core_other s k k' i n hk.symm

theorem countHits (k : Key) (s : State) (c : CoreCtx) (ctx : Nat) (hits : List Nat) : Acts k s (s.countHits ctx hits) c c := by
  unfold State.countHits
  split
  · exact refl k s c
  · exact ⟨⟨rfl, rfl, rfl, rfl, rfl, rfl⟩, id, fun _ _ => rfl⟩

theorem modPhys (k : Key) (s : State) (c : CoreCtx) (pc : Nat) (g : PhysCore → PhysCore) : Acts k s (s.modPhys pc g) c c :=
  ⟨⟨rfl, rfl, rfl, rfl, rfl, rfl⟩, id, fun _ _ => rfl⟩

theorem xlatUse (k k' : Key) (s : State) (c : CoreCtx) (t : Tensor) (cs : List Nat) (n : Nat) :
    Acts k s (s.xlatUse k' t cs n) c c := by
  unfold State.xlatUse
  split
  · next h =>
    clear h
    generalize xlatTiles t cs n = tiles
    induction tiles generalizing s with
    | nil => exact refl k s c
    | cons x xs ih =>
      rw [List.foldl_cons]
      exact (modPhys k s c _ _).trans (ih _)
  · exact refl k s c

end Acts

theorem CoreCtx.le_modLe_same (c : CoreCtx) (p : Nat) (g : LE → LE) : (c.modLe p g).le p = g (c.le p) := by
  simp [CoreCtx.le, CoreCtx.modLe, Assoc.get?_put_same]

/-- The mark of an access that watchpoints let go is none of the parts that R24 counts. -/
theorem SameParts.passWatch (sh : Shape) (d pos : Nat) (c : CoreCtx) (x : LateAccess) :
    SameParts sh d pos c (c.modElem pos fun e => e.passWatch x) := by
  have here := c.elemD_modElem_same pos fun e => e.passWatch x
  exact ⟨fun _ => by rw [here]; rfl, fun _ => by rw [here]; rfl, fun _ => by rw [here]; rfl, fun _ _ => by rw [here]; rfl,
    fun p hp => CoreCtx.elem?_modElem_other c _ _ _ hp.symm⟩

/-! ### A fire without a result at once -/

/-- A core of which a fire has changed the elements, and has sent credits back. -/
def CoreCtx.served (c : CoreCtx) (es : Assoc Nat Elem) (back : List Flight) : CoreCtx := { c with elems := es, flights := c.flights ++ back }

/-- Does a fire give no result, or none yet? -/
def Silent (o : Op) (sh : Shape) (l : Look) : Prop :=
  o.delay = 1 ∧ ((sh.d == .result || sh.d == .accum) && !o.mute l) = false ∨ o.delay = 0 ∧ o.now l = false

/-- A fire that gives no result, or none yet, takes its operands, marks its destination and sends back credits. -/
theorem deliveredCore_silent (o : Op) (sh : Shape) (l : Look) (c : CoreCtx) (hk : kindAt l.t.pos ≠ .me) (h : Silent o sh l) :
    ∃ es back, Claims.OnlyCredits back ∧ deliveredCore o sh l c = c.served es back := by
  have delivers (c : CoreCtx) : ∃ es, deliver o sh l (o.res l) c = { c with elems := es } := by
    unfold deliver Op.atOnce
    rcases h with ⟨hdelay, hasD⟩ | ⟨hdelay, hnow⟩
    · simp only [hdelay, hasD, beq_self_eq_true, Bool.true_or, if_true, Bool.not_false]
      exact ⟨_, rfl⟩
    · simp only [hdelay, hnow, Nat.reduceBEq, Bool.or_self, Bool.false_eq_true, if_false, if_true]
      split_ifs <;> exact ⟨_, rfl⟩
  obtain ⟨es, fl, taken⟩ := takeOperands_grown o sh (l.t.takes l.f) l.t.pos c
  obtain ⟨back, hback, flights⟩ := takeOperands_flights o sh (l.t.takes l.f) l.t.pos hk c
  obtain ⟨es', delivered⟩ := delivers (takeOperands o sh (l.t.takes l.f) l.t.pos c)
  refine ⟨es', back, fun x hx => .inl (hback x hx), ?_⟩
  rw [deliveredCore, delivered, flights, taken, CoreCtx.served]

/-! ### The whole fire -/

/-- The machine once a fire has taken its operands and delivered its result (R24). -/
def operandState (o : Op) (sh : Shape) (l : Look) : State :=
  (l.s.modCore l.t.k (takeOperands o sh (l.t.takes l.f) l.t.pos)).modCore l.t.k (deliver o sh l (o.res l))

theorem acts_operandState (o : Op) (sh : Shape) (l : Look) (c : CoreCtx) :
    Acts l.t.k l.s (operandState o sh l) c (deliveredCore o sh l c) :=
  (Acts.modCore _ _ _ _).trans (Acts.modCore _ _ _ _)

/-- What the predicate update and the counters of a fire leave of the machine `s` and the core `c` that its effects have made. -/
structure Counted (pos : Nat) (s t : State) (c c' : CoreCtx) : Prop where
  quiet : Claims.Quiet s t
  les : c'.les = c.les
  buf : c'.buf = c.buf
  nextReq : c'.nextReq = c.nextReq
  flights : c'.flights = c.flights
  elem : ∃ ps, c'.elemD pos = { c.elemD pos with preds := ps }

theorem Counted.le {pos : Nat} {s t : State} {c c' : CoreCtx} (h : Counted pos s t c c') (p : Nat) : c'.le p = c.le p := by
  rw [CoreCtx.le, h.les, CoreCtx.le]

section
variable (o : Op) (sh : Shape) (f : Fields) (s : State) (c : CoreCtx) (e : Elem)

/-- What a fire does (R24): its operands and its delivery, its further effects from memory as `s₁` holds it, its predicate and its
counters. -/
theorem fires_of_acts (hat : Claims.At s c e) (room : Claims.HasRoom o f s c e) (htake : o.take = 1) (s₁ : State) (c₁ : CoreCtx)
    (cores : s₁.cores = (operandState o sh (lookAt o f s s.site c e)).cores)
    (acts : Acts s.key s₁ (o.effect (lookAt o f s s.site c e) (operandState o sh (lookAt o f s s.site c e)))
      (deliveredCore o sh (lookAt o f s s.site c e) c) c₁)
    (same : SameParts sh f.dst.toNat s.here.pos (deliveredCore o sh (lookAt o f s s.site c e) c) c₁) :
    ∃ c', (fireSlot o sh (lookAt o f s s.site c e)).core? s.key = some c' ∧
      Claims.Kept sh f s c e (fireSlot o sh (lookAt o f s s.site c e)) c' ∧
      Counted s.here.pos s₁ (fireSlot o sh (lookAt o f s s.site c e)) c₁ c' := by
  have spilled := spilled_of_hasRoom o f s c e room
  have operands := acts_operandState o sh (lookAt o f s s.site c e) c
  have core? (k : Key) : s₁.core? k = (operandState o sh (lookAt o f s s.site c e)).core? k := by rw [State.core?, cores, State.core?]
  obtain ⟨v, core⟩ := fireSlot_core_of (sh := sh) spilled c₁ (acts.core ((core? _).trans (operands.core hat.core)))
  obtain ⟨es, fl, grown⟩ := updatePred_grown o sh (lookAt o f s s.site c e) (o.res (lookAt o f s s.site c e)) c₁
  have flights := updatePred_flights o sh (lookAt o f s s.site c e) (o.res (lookAt o f s s.site c e)) c₁
  have preds := updatePred_shape o sh (lookAt o f s s.site c e) (o.res (lookAt o f s s.site c e)) c₁
  have others (k : Key) (hk : k ≠ s.key) : (fireSlot o sh (lookAt o f s s.site c e)).core? k = s.core? k :=
    calc (fireSlot o sh (lookAt o f s s.site c e)).core? k
      _ = (effectState o sh (lookAt o f s s.site c e)).core? k := fireSlot_core_other_of spilled k hk.symm
      _ = s₁.core? k := acts.others k hk
      _ = s.core? k := (core? k).trans (operands.others k hk)
  have quiet : Claims.Quiet s₁ (fireSlot o sh (lookAt o f s s.site c e)) := by
    rw [fireSlot_only (sh := sh) spilled]
    exact quiet_trans acts.quiet ⟨rfl, rfl, rfl, rfl, rfl, rfl⟩
  refine ⟨_, core, { toKeptHere := keptHere_of_sameParts o sh f s c _ e _ c₁ hat htake same rfl, cores := others }, ?_⟩
  exact ⟨quiet, by rw [grown], by rw [grown], by rw [grown], flights, preds⟩

/-- A ready slot that gives no result yet fires, and makes `P` of the machine and its core if its further effects `c₁` do. -/
theorem silentFires (mk : Fields → Instr) (runs : RunsOp (mk, o)) (hat : Claims.At s c e) (hle : kindAt s.here.pos = .le)
    (hsh : shapeOf o.opc = some sh) (room : Claims.HasRoom o f s c e) (ready : slotStatus o f s s.site = .ready) (htake : o.take = 1)
    (silent : Silent o sh (lookAt o f s s.site c e)) (P : State → CoreCtx → Prop)
    (effect : ∀ es back, Claims.OnlyCredits back → ∃ s₁ c₁, s₁.cores = (operandState o sh (lookAt o f s s.site c e)).cores ∧
      Acts s.key s₁ (o.effect (lookAt o f s s.site c e) (operandState o sh (lookAt o f s s.site c e)))
        (c.served es back) c₁ ∧
      SameParts sh f.dst.toNat s.here.pos (c.served es back) c₁ ∧
      ∀ t c', Counted s.here.pos s₁ t c₁ c' → P t c') :
    ∃ t c', exec (mk f) s = .next t ∧ t.core? s.key = some c' ∧ Claims.Kept sh f s c e t c' ∧ P t c' := by
  have hme : kindAt s.here.pos ≠ .me := by rw [hle]; decide
  obtain ⟨es, back, hback, delivered⟩ := deliveredCore_silent o sh (lookAt o f s s.site c e) c hme silent
  obtain ⟨s₁, c₁, cores, acts, same, holds⟩ := effect es back hback
  rw [← delivered] at acts same
  obtain ⟨c', core, kept, counted⟩ := fires_of_acts o sh f s c e hat room htake s₁ c₁ cores acts same
  exact ⟨_, c', (runs f s).trans (runOp_ready o f s c e sh hsh hat.core hat.elem ready), core, kept, holds _ c' counted⟩

end

theorem quiet_operandState (o : Op) (sh : Shape) (l : Look) : Claims.Quiet l.s (operandState o sh l) := ⟨rfl, rfl, rfl, rfl, rfl, rfl⟩

end Sys2Proof.Machine
end

