-- ==== Sys2Proof/Proofs/EndpointStores.lean ====
section
/-! PROOF. O26, its stores: GST, ASTR and MSND put their entry into the commit buffer, and no memory changes at the fire (R29, R131, R135,
R137). -/

namespace Sys2Proof.Machine

/-! ### Entries of the commit buffer (R167) -/

/-- An entry taken for the run of an element. -/
theorem acts_buffer (k : Key) (s : State) (c : CoreCtx) (run pos : Nat) (op : BufOp) :
    ∃ c', Acts k s (s.buffer k run pos [op]) c c' ∧ c'.elems = c.elems ∧ c'.les = c.les ∧
      c'.buf = c.buf ++ [⟨run, c.groupOf run, pos, op, false⟩] :=
  ⟨_, (Acts.modCore k s c _).trans (Acts.count k _ _ 14 1), rfl, rfl, rfl⟩

/-- The entry of a store, with its watchpoints and translations (R131, R293, R300). -/
theorem acts_bufferStore (l : Look) (sh : Shape) (d : Nat) (t : Tensor) (cs : List Nat) (n : Nat) (v : W64) (s : State) (c : CoreCtx) :
    ∃ c', Acts l.t.k s (bufferStore l t cs n v s) c c' ∧ SameParts sh d l.t.pos c c' ∧ c'.les = c.les ∧
      c'.buf = c.buf ++ [⟨l.e.runId, c.groupOf l.e.runId, l.t.pos, .store t.tid cs n v, false⟩] := by
  obtain ⟨c', acts, elems, les, buf⟩ := acts_buffer l.t.k s c l.e.runId l.t.pos (.store t.tid cs n v)
  refine ⟨_, ((acts.trans (Acts.countHits _ _ _ _ _)).trans (Acts.xlatUse _ _ _ _ _ _ _)).trans (Acts.modElem _ _ _ _ _), ?_, les, buf⟩
  exact (SameParts.of_elems elems).trans (SameParts.passWatch sh d l.t.pos c' _)

/-! ### The three operations -/

theorem gstStores_eq (l : Look) : gstStores l = Claims.Stores l.f l.i := by
  simp only [gstStores, Claims.Stores, codeIsQueue, beq_eq_decide]

theorem effect_gstOp_of_not (l : Look) (s : State) (h : Claims.Stores l.f l.i = false) : gstOp.effect l s = s := by
  show (if gstStores l = true then _ else s) = s
  rw [gstStores_eq, h]; rfl

theorem effect_gstOp_of_ok (l : Look) (s : State) (t : Tensor) (cs : List Nat) (n : Nat) (h : Claims.Stores l.f l.i = true)
    (hv : l.verdict .store oneToken = .ok t cs n) : gstOp.effect l s = bufferStore l t cs n l.i.b.data s := by
  show (if gstStores l = true then (match l.verdict .store oneToken with | .ok t cs n => bufferStore l t cs n l.i.b.data s | _ => s)
    else s) = _
  rw [gstStores_eq, h, hv]; rfl

theorem effect_gstOp_of_fault (l : Look) (s : State) (h : ∀ t cs n, l.verdict .store oneToken ≠ .ok t cs n) : gstOp.effect l s = s := by
  show (if gstStores l = true then (match l.verdict .store oneToken with | .ok t cs n => bufferStore l t cs n l.i.b.data s | _ => s)
    else s) = _
  split
  · split
    · next heq => exact absurd heq (h _ _ _)
    · rfl
  · rfl

/-- R131: GST. -/
theorem gst_waits : Claims.Endpoint .gst gstOp fun f s c e i t c' => Claims.Quiet s t ∧
    (Claims.Stores f i = true → ∀ tn cs n,
      Claims.access gstOp f s c e .store (fun t => 64 / ebits t.efmt) = .ok tn cs n →
        Claims.Buffers c e s.here.pos (.store tn.tid cs n i.b.data) c') ∧
    (Claims.Stores f i = false → c'.buf = c.buf) := by
  intro f s c e sh hat hle hsh room ready
  have silent : Silent gstOp sh (lookAt gstOp f s s.site c e) := by cases hsh; exact .inl ⟨rfl, rfl⟩
  refine silentFires gstOp sh f s c e .gst (fun _ _ => rfl) hat hle hsh room ready rfl silent _ fun es back _ => ?_
  have quiet := quiet_operandState gstOp sh (lookAt gstOp f s s.site c e)
  by_cases stores : Claims.Stores f (lookAt gstOp f s s.site c e).i = true
  · by_cases verdict : ∃ tn cs n, (lookAt gstOp f s s.site c e).verdict .store oneToken = .ok tn cs n
    · obtain ⟨tn, cs, n, verdict⟩ := verdict
      obtain ⟨c₁, acts, same, -, buf⟩ := acts_bufferStore (lookAt gstOp f s s.site c e) sh f.dst.toNat tn cs n
        (lookAt gstOp f s s.site c e).i.b.data (operandState gstOp sh (lookAt gstOp f s s.site c e))
        (c.served es back)
      refine ⟨_, c₁, rfl, effect_gstOp_of_ok _ _ tn cs n stores verdict ▸ acts, same, fun t c' counted => ?_⟩
      refine ⟨quiet_trans quiet counted.quiet, fun _ tn' cs' n' verdict' => ?_, fun h => by cases stores.symm.trans h⟩
      cases verdict.symm.trans verdict'
      exact counted.buf.trans buf
    · have fault := fun tn cs n h => verdict ⟨tn, cs, n, h⟩
      refine ⟨_, _, rfl, .of_eq (c.served es back) (effect_gstOp_of_fault _ _ fault), .of_elems rfl, fun t c' counted => ?_⟩
      exact ⟨quiet_trans quiet counted.quiet, fun _ tn cs n h => (fault tn cs n h).elim, fun _ => counted.buf⟩
  · have without := Bool.not_eq_true _ ▸ stores
    refine ⟨_, _, rfl, .of_eq (c.served es back) (effect_gstOp_of_not _ _ without), .of_elems rfl, fun t c' counted => ?_⟩
    exact ⟨quiet_trans quiet counted.quiet, fun h => (stores h).elim, fun _ => counted.buf⟩

/-- R137: MSND. -/
theorem msnd_waits : Claims.Endpoint .msnd msndOp fun _ s c e i t c' => Claims.Quiet s t ∧
    Claims.Buffers c e s.here.pos (.msnd i.a.data i.b.data) c' := by
  intro f s c e sh hat hle hsh room ready
  have silent : Silent msndOp sh (lookAt msndOp f s s.site c e) := by cases hsh; exact .inl ⟨rfl, rfl⟩
  refine silentFires msndOp sh f s c e .msnd (fun _ _ => rfl) hat hle hsh room ready rfl silent _ fun es back _ => ?_
  obtain ⟨c₁, acts, elems, -, buf⟩ := acts_buffer s.key (operandState msndOp sh (lookAt msndOp f s s.site c e))
    (c.served es back) e.runId s.here.pos
    (.msnd (lookAt msndOp f s s.site c e).i.a.data (lookAt msndOp f s s.site c e).i.b.data)
  refine ⟨_, c₁, rfl, acts, .of_elems elems, fun t c' counted => ?_⟩
  exact ⟨quiet_trans (quiet_operandState _ _ _) counted.quiet, counted.buf.trans buf⟩

/-! ### Generators -/

theorem LE.gen_setGen_same (x : LE) (g : Nat) (v : LGen) (h : g < 4) : (x.setGen g v).gen g = v := at_upd_same _ _ _ _ h

theorem LE.gen_setGen_other (x : LE) (g m : Nat) (v : LGen) (h : g ≠ m) : (x.setGen g v).gen m = x.gen m := at_upd_other _ _ _ _ _ h

theorem agenNo_eq (b : W64) : agenNo b = b.toNat % 4 := by
  simp [agenNo, field]

theorem agenNo_lt (b : W64) : agenNo b < 4 := agenNo_eq b ▸ Nat.mod_lt _ (by decide)

/-- The generator of an ASTR goes on to its next group, or ends with its last one. -/
def LE.stepGen (i : Nat) (t : Tensor) (x : LE) : LE :=
  x.setGen i (if (x.gen i).group + 1 = (x.gen i).groups t.rank (lanesOf t.efmt) then { x.gen i with mode := .idle, group := 0 }
    else { x.gen i with group := (x.gen i).group + 1 })

theorem acts_astrOp (l : Look) (sh : Shape) (d : Nat) (t : Tensor) (cs : List Nat) (n : Nat) (h : l.astrVerdict = .ok t cs n)
    (s : State) (c : CoreCtx) : ∃ c', Acts l.t.k s (astrOp.effect l s) c c' ∧ SameParts sh d l.t.pos c c' ∧
      c'.le l.t.pos = LE.stepGen (agenNo l.i.b.data) t (c.le l.t.pos) ∧
      c'.buf = c.buf ++ [⟨l.e.runId, c.groupOf l.e.runId, l.t.pos, .store t.tid cs n l.i.a.data, false⟩] := by
  have effect : astrOp.effect l s =
      (bufferStore l t cs n l.i.a.data s).modCore l.t.k fun c => c.modLe l.t.pos (LE.stepGen (agenNo l.i.b.data) t) := by
    show (match l.astrVerdict with | .ok t cs n => _ | _ => s) = _
    rw [h]; rfl
  obtain ⟨c₁, acts, same, les, buf⟩ := acts_bufferStore l sh d t cs n l.i.a.data s c
  refine ⟨c₁.modLe l.t.pos (LE.stepGen (agenNo l.i.b.data) t), ?_, same.trans (.of_elems rfl), ?_, buf⟩
  · rw [effect]
    exact acts.trans (Acts.modCore _ _ c₁ _)
  · rw [CoreCtx.le_modLe_same, CoreCtx.le, les, CoreCtx.le]

theorem effect_astrOp_of_fault (l : Look) (s : State) (h : ∀ t cs n, l.astrVerdict ≠ .ok t cs n) : astrOp.effect l s = s := by
  show (match l.astrVerdict with | .ok t cs n => _ | _ => s) = s
  split
  · next heq => exact absurd heq (h _ _ _)
  · rfl

/-- R135: ASTR. -/
theorem astr_waits : Claims.Endpoint .astr astrOp fun f s c e i t c' => Claims.Quiet s t ∧
    ∀ tn cs n, (lookAt astrOp f s s.site c e).astrVerdict = .ok tn cs n →
      Claims.Buffers c e s.here.pos (.store tn.tid cs n i.a.data) c' ∧
      let g := (c.le s.here.pos).gen (i.b.data.toNat % 4)
      (c'.le s.here.pos).gen (i.b.data.toNat % 4) =
        if g.group + 1 = g.groups tn.rank (64 / ebits tn.efmt) then { g with mode := .idle, group := 0 }
        else { g with group := g.group + 1 } := by
  intro f s c e sh hat hle hsh room ready
  have silent : Silent astrOp sh (lookAt astrOp f s s.site c e) := by cases hsh; exact .inl ⟨rfl, rfl⟩
  refine silentFires astrOp sh f s c e .astr (fun _ _ => rfl) hat hle hsh room ready rfl silent _ fun es back _ => ?_
  have quiet := quiet_operandState astrOp sh (lookAt astrOp f s s.site c e)
  by_cases verdict : ∃ tn cs n, (lookAt astrOp f s s.site c e).astrVerdict = .ok tn cs n
  · obtain ⟨tn, cs, n, verdict⟩ := verdict
    obtain ⟨c₁, acts, same, le, buf⟩ := acts_astrOp (lookAt astrOp f s s.site c e) sh f.dst.toNat tn cs n verdict
      (operandState astrOp sh (lookAt astrOp f s s.site c e)) (c.served es back)
    refine ⟨_, c₁, rfl, acts, same, fun t c' counted => ?_⟩
    refine ⟨quiet_trans quiet counted.quiet, fun tn' cs' n' verdict' => ?_⟩
    cases verdict.symm.trans verdict'
    refine ⟨counted.buf.trans buf, ?_⟩
    rw [counted.le, show c₁.le s.here.pos = _ from le, ← agenNo_eq]
    exact LE.gen_setGen_same _ _ _ (agenNo_lt _)
  · have fault := fun tn cs n h => verdict ⟨tn, cs, n, h⟩
    refine ⟨_, _, rfl, .of_eq (c.served es back) (effect_astrOp_of_fault _ _ fault), .of_elems rfl, fun t c' counted => ?_⟩
    exact ⟨quiet_trans quiet counted.quiet, fun tn cs n h => (fault tn cs n h).elim⟩

/-- R29, R131, R135, R137: stores wait in the commit buffer. -/
theorem storesWaitInTheCommitBuffer : Claims.StoresWaitInTheCommitBuffer := ⟨gst_waits, astr_waits, msnd_waits⟩

end Sys2Proof.Machine
end

