-- ==== Sys2Proof/Proofs/EndpointGenerators.lean ====
section
/-! PROOF. O26, its generators: AGEN sets them, and a stream's token is one request with the tag of its place in the box (R134, R136). -/

namespace Sys2Proof.Machine

/-- R30: a slot that fires has no trap of its own operation. -/
theorem trap_of_ready (o : Op) (f : Fields) (s : State) (c : CoreCtx) (e : Elem) (sh : Shape) (hat : Claims.At s c e)
    (hk : kindAt s.here.pos ≠ .me) (hsh : shapeOf o.opc = some sh) (ready : slotStatus o f s s.site = .ready) :
    o.trap (lookAt o f s s.site c e) = none := by
  have chosen : s.site.chosen = false := by
    show (kindAt s.here.pos == .me && s.here.val % 2 == 1) = false
    rw [beq_false_of_ne hk, Bool.false_and]
  obtain ⟨-, -, present, -, own⟩ := (slotStatus_eq_ready o f s s.site c e sh hat.core hsh hat.elem chosen).1 ready
  simp only [operandsPresent, Bool.and_eq_true] at present
  have full : (emptySources sh f e).isEmpty = true := present.1
  cases h : o.trap (lookAt o f s s.site c e) with
  | none => rfl
  | some x =>
    have raised : ownTraps o sh (lookAt o f s s.site c e) = [x] := by
      unfold ownTraps
      rw [show (emptySources sh (lookAt o f s s.site c e).f (lookAt o f s s.site c e).e).isEmpty = true from full, if_pos rfl, h]
    cases raised.symm.trans own

/-! ### AGEN (R134) -/

theorem agenOp'_eq (b : W64) : agenOp' b = b.toNat / 4 % 8 := by
  simp [agenOp', field, Nat.shiftRight_eq_div_pow]

/-- The generator that an AGEN leaves. -/
def Look.nextGen (l : Look) (g : LGen) : LGen :=
  let armed (m : GenMode) : LGen :=
    { g with mode := m, group := 0, port := l.f.dst.toNat - 24, slot := l.t.slot, addr := l.i.a.data, tnt := l.i.tnt }
  if agenOp' l.i.b.data = 5 then armed .load
  else if agenOp' l.i.b.data = 6 then armed .store
  else Claims.setBy g (agenOp' l.i.b.data) l.i.a.data

theorem LGen.set_eq_setBy (g : LGen) (op : Nat) (a : W64) : g.set op a = Claims.setBy g op a := by
  unfold Claims.setBy
  have part (i : Nat) : field a (16 * i) 16 = a.toNat / 2 ^ (16 * i) % 2 ^ 16 := by
    rw [field, BitVec.extractLsb'_toNat, Nat.shiftRight_eq_div_pow]
  unfold LGen.set
  split
  · rfl
  · rfl
  · rfl
  · simp only [Nat.reduceEqDiff, if_false, if_true, part]; rfl
  · next h0 h1 h2 h3 =>
    rw [if_neg h0, if_neg h1, if_neg h2, if_neg h3]
    exact congrArg (fun x => { g with n := upd g.n 4 x }) (part 0)

theorem Look.nextGen_eq (l : Look) (g : LGen) : l.nextGen g =
    match agenOp' l.i.b.data with
    | 5 => { g with mode := .load, group := 0, port := l.f.dst.toNat - 24, slot := l.t.slot, addr := l.i.a.data, tnt := l.i.tnt }
    | 6 => { g with mode := .store, group := 0, port := l.f.dst.toNat - 24, slot := l.t.slot, addr := l.i.a.data, tnt := l.i.tnt }
    | op => g.set op l.i.a.data := by
  unfold Look.nextGen
  by_cases h5 : agenOp' l.i.b.data = 5
  · simp only [h5, if_true]
  · by_cases h6 : agenOp' l.i.b.data = 6
    · simp only [h6, Nat.reduceEqDiff, if_false, if_true]
    · simp only [h5, h6, if_false, LGen.set_eq_setBy]

/-- The port that an AGEN with operation 5 holds for its stream. -/
def Elem.streams (p n : Nat) (e : Elem) : Elem :=
  { e.setPort p { e.port p with hold := some (.leGen n) } with fence := [], fenceGens := [] }

/-- The LE of an AGEN. -/
def Look.setGenerator (l : Look) (x : LE) : LE := x.setGen (agenNo l.i.b.data) (l.nextGen (x.gen (agenNo l.i.b.data)))

theorem effect_agenOp (l : Look) (s : State) :
    agenOp.effect l s =
      if agenOp' l.i.b.data = 5 then
        (s.modCore l.t.k fun c => c.modLe l.t.pos l.setGenerator).modElem l.t.k l.t.pos
          (Elem.streams (l.f.dst.toNat - 24) (agenNo l.i.b.data))
      else s.modCore l.t.k fun c => c.modLe l.t.pos l.setGenerator := by
  have set : l.setGenerator = fun x => x.setGen (agenNo l.i.b.data) (l.nextGen (x.gen (agenNo l.i.b.data))) := rfl
  rw [set]
  simp only [Look.nextGen_eq]
  rfl

theorem SameParts.streams (sh : Shape) (d pos n : Nat) (c : CoreCtx) (hd : 24 ≤ d) (hsh : sh.d ≠ .none) :
    SameParts sh d pos c (c.modElem pos (Elem.streams (d - 24) n)) := by
  have here := c.elemD_modElem_same pos (Elem.streams (d - 24) n)
  refine ⟨fun _ => by rw [here]; rfl, fun _ => by rw [here]; rfl, fun _ => by rw [here]; rfl, fun p hp => ?_,
    fun p hp => CoreCtx.elem?_modElem_other c _ _ _ hp.symm⟩
  rw [here]
  exact Elem.port_setPort_other _ _ _ _ (by have := hp.resolve_right hsh; omega)

theorem acts_agenOp (l : Look) (sh : Shape) (s : State) (c : CoreCtx) (hsh : sh.d ≠ .none)
    (hport : agenOp' l.i.b.data = 5 → codeIsPort l.f.dst.toNat = true) :
    ∃ c', Acts l.t.k s (agenOp.effect l s) c c' ∧ SameParts sh l.f.dst.toNat l.t.pos c c' ∧ c'.flights = c.flights ∧
      c'.le l.t.pos = l.setGenerator (c.le l.t.pos) ∧
      (agenOp' l.i.b.data = 5 → ((c'.elemD l.t.pos).port (l.f.dst.toNat - 24)).hold = some (.leGen (agenNo l.i.b.data))) := by
  have set := Acts.modCore l.t.k s c fun c => c.modLe l.t.pos l.setGenerator
  rw [effect_agenOp]
  by_cases h5 : agenOp' l.i.b.data = 5
  · have port := hport h5
    simp only [codeIsPort, decide_eq_true_eq] at port
    rw [if_pos h5]
    refine ⟨_, set.trans (Acts.modElem _ _ _ _ _), SameParts.trans (b := c.modLe l.t.pos l.setGenerator) (.of_elems rfl) (.streams _ _ _ _ _ port.1 hsh), rfl,
      CoreCtx.le_modLe_same _ _ _, fun _ => ?_⟩
    rw [CoreCtx.elemD_modElem_same]
    exact congrArg Port.hold (at_upd_same _ _ _ _ (by omega))
  · rw [if_neg h5]
    exact ⟨_, set, .of_elems rfl, rfl, CoreCtx.le_modLe_same _ _ _, fun h => absurd h h5⟩

/-- R134: AGEN. -/
theorem agen_sets : Claims.Endpoint .agen agenOp fun f s c _ i t c' =>
    let n := i.b.data.toNat % 4
    let op := i.b.data.toNat / 4 % 8
    let g := (c.le s.here.pos).gen n
    let armed (m : GenMode) : LGen :=
      { g with mode := m, group := 0, port := f.dst.toNat - 24, slot := s.here.idx, addr := i.a.data, tnt := Claims.taint i }
    Claims.Quiet s t ∧
    (c'.le s.here.pos).gen n = (if op = 5 then armed .load else if op = 6 then armed .store else Claims.setBy g op i.a.data) ∧
    (∀ m < 4, m ≠ n → (c'.le s.here.pos).gen m = (c.le s.here.pos).gen m) ∧
    (op = 5 → Claims.onPort f → ((c'.elemD s.here.pos).port (f.dst.toNat - 24)).hold = some (.leGen n)) ∧
    ∃ back, Claims.OnlyCredits back ∧ c'.flights = c.flights ++ back := by
  intro f s c e sh hat hle hsh room ready
  have silent : Silent agenOp sh (lookAt agenOp f s s.site c e) := by cases hsh; exact .inl ⟨rfl, rfl⟩
  have result : sh.d ≠ .none := by cases hsh; decide
  have untrapped := trap_of_ready agenOp f s c e sh hat (by rw [hle]; decide) hsh ready
  have port : agenOp' (lookAt agenOp f s s.site c e).i.b.data = 5 → codeIsPort f.dst.toNat = true := by
    intro h5
    by_contra hport
    rw [Bool.not_eq_true] at hport
    exact absurd ((if_pos (.inr ⟨h5, hport⟩)).symm.trans untrapped) (by simp)
  refine silentFires agenOp sh f s c e .agen (fun _ _ => rfl) hat hle hsh room ready rfl silent _ fun es back hback => ?_
  obtain ⟨c₁, acts, same, flights, le, hold⟩ := acts_agenOp (lookAt agenOp f s s.site c e) sh
    (operandState agenOp sh (lookAt agenOp f s s.site c e)) (c.served es back) result port
  refine ⟨_, c₁, rfl, acts, same, fun t c' counted => ?_⟩
  obtain ⟨ps, elem⟩ := counted.elem
  have number : agenNo (lookAt agenOp f s s.site c e).i.b.data = _ := agenNo_eq _
  have gens : c'.le s.here.pos = (lookAt agenOp f s s.site c e).setGenerator (c.le s.here.pos) := (counted.le _).trans le
  refine ⟨quiet_trans (quiet_operandState _ _ _) counted.quiet, ?_, fun m _ hm => ?_, fun h5 _ => ?_, back, hback, counted.flights.trans flights⟩
  · rw [gens, Look.setGenerator, number]
    refine (LE.gen_setGen_same _ _ _ (Nat.mod_lt _ (by decide))).trans ?_
    rw [Look.nextGen, agenOp'_eq]
    rfl
  · rw [gens]
    exact LE.gen_setGen_other _ _ _ _ (number ▸ hm.symm)
  · rw [elem]
    exact (hold ((agenOp'_eq _).trans h5)).trans (by rw [number]; rfl)

/-! ### Load streams (R134, R136) -/

theorem acts_addReq (k : Key) (s : State) (c : CoreCtx) (pos : Nat) (r : LReq) :
    ∃ c', Acts k s (s.addReq k pos r) c c' ∧ c'.elems = c.elems ∧
      c'.le pos = { c.le pos with reqs := (c.le pos).reqs ++ [{ r with id := c.nextReq }] } ∧ c'.nextReq = c.nextReq + 1 :=
  ⟨_, Acts.modCore k s c _, rfl, c.le_modLe_same pos fun x => { x with reqs := x.reqs ++ [{ r with id := c.nextReq }] }, rfl⟩

/-- What an access that passes its checks accesses (R129). -/
theorem check_eq_ok (s : State) (ctx tid : Nat) (k : Access) (coords : Tensor → List Nat) (lanes : Tensor → Nat) (watch : Bool)
    (t tn : Tensor) (cs : List Nat) (n : Nat) (ht : s.tensor? ctx tid = some t)
    (h : s.check ctx tid k coords lanes watch = .ok tn cs n) : tn = t ∧ cs = coords t ∧ n = t.accessed (coords t) (lanes t) := by
  unfold State.check at h
  rw [ht] at h
  split at h
  · next t' tm heq _ =>
    cases heq
    simp only at h
    generalize (if watch = true then tm.watchTrap (tm.watchHits t k (coords t) (t.accessed (coords t) (lanes t))) else none) = hit at h
    split at h
    · cases h
    · split at h
      · cases h
      · split at h
        · cases h
        · split at h
          · cases h; exact ⟨rfl, rfl, rfl⟩
          · split at h
            · cases h; exact ⟨rfl, rfl, rfl⟩
            · split at h <;> cases h
  · cases h

/-- The request of a stream's next token (R134). -/
def streamRequest (s : State) (c : CoreCtx) (e : Elem) (g : LGen) (b : Nat) (tn : Tensor) (cs : List Nat) (n : Nat) : LReq where
  id := 0
  kind := .stream s.here.idx (g.group + 1 == g.groups tn.rank (lanesOf tn.efmt))
  slot := g.slot
  binding := b
  tid := at' e.cfg.tids b 0
  coords := (g.place tn.rank (lanesOf tn.efmt) g.group).1
  lanes := tn.accessed (g.place tn.rank (lanesOf tn.efmt) g.group).1 (g.place tn.rank (lanesOf tn.efmt) g.group).2
  dst := 24 + g.port
  tnt := g.tnt
  ctl := g.tag tn.rank (lanesOf tn.efmt) g.group
  pu := 0
  pn := 0
  addr := g.addr
  run := e.runId
  group := c.groupOf e.runId
  fwd := c.forward e.runId tn cs n
  held := false
  hits := s.hits s.key.1 tn .load cs n
  left := s.readWait s.key s.here.pos tn
  st := .waiting
  gone := 0
  own := false

/-- A generator goes on to its next group, or ends with its last one. -/
def LGen.streamed (g : LGen) (groups : Nat) (x : LGen) : LGen :=
  { x with group := g.group + 1, mode := if (g.group + 1 == groups) = true then .ending else .load }

/-- The core of a stream's token, once its request is in the table. -/
def CoreCtx.streamed (c : CoreCtx) (pos idx : Nat) (g : LGen) (groups : Nat) : CoreCtx :=
  (c.modLe pos fun x => x.setGen idx (g.streamed groups (x.gen idx))).modElem pos fun e => e.passWatch (.gen idx)

/-- A stream's token that is checked and translated forms its request. -/
def State.streamed (s : State) (g : LGen) (r : LReq) (tn : Tensor) (cs : List Nat) (n : Nat) : State :=
  (((s.addReq s.key s.here.pos r).modCore s.key fun c =>
    c.streamed s.here.pos s.here.idx g (g.groups tn.rank (lanesOf tn.efmt))).count s.key 10 1).xlatUse s.key tn cs n

theorem acts_streamed (s : State) (c : CoreCtx) (g : LGen) (r : LReq) (tn : Tensor) (cs : List Nat) (n : Nat) (h : s.here.idx < 4) :
    ∃ c', Acts s.key s (s.streamed g r tn cs n) c c' ∧
      (c'.le s.here.pos).reqs = (c.le s.here.pos).reqs ++ [{ r with id := c.nextReq }] ∧
      (c'.le s.here.pos).gen s.here.idx = g.streamed (g.groups tn.rank (lanesOf tn.efmt)) ((c.le s.here.pos).gen s.here.idx) := by
  obtain ⟨c₁, added, -, le, -⟩ := acts_addReq s.key s c s.here.pos r
  have streamed : (c₁.streamed s.here.pos s.here.idx g (g.groups tn.rank (lanesOf tn.efmt))).le s.here.pos =
      (c₁.le s.here.pos).setGen s.here.idx
        (g.streamed (g.groups tn.rank (lanesOf tn.efmt)) ((c₁.le s.here.pos).gen s.here.idx)) :=
    c₁.le_modLe_same _ fun x => x.setGen s.here.idx (g.streamed (g.groups tn.rank (lanesOf tn.efmt)) (x.gen s.here.idx))
  refine ⟨_, ((added.trans (.modCore _ _ _ _)).trans (.count _ _ _ _ _)).trans (.xlatUse _ _ _ _ _ _ _), ?_, ?_⟩
  · refine (congrArg LE.reqs streamed).trans ?_
    rw [le]; rfl
  · refine (congrArg (·.gen s.here.idx) streamed).trans ?_
    rw [le]
    exact LE.gen_setGen_same _ _ _ h

/-- R134: a stream's token is one request. -/
theorem streamToken_requests (s : State) (c : CoreCtx) (e : Elem) (tn : Tensor) (cs : List Nat) (n : Nat) (hat : Claims.At s c e)
    (unfrozen : c.frozen = false) (foreground : s.foreground s.key = true) (held : e.held = none) (running : e.run ≠ none) :
    let g := (c.le s.here.pos).gen s.here.idx
    let L := 64 / ebits tn.efmt
    let b := (at' e.cfg.lslots g.slot 0x10#9).toNat % 4
    g.mode = .load → s.here.idx < 4 → (c.le s.here.pos).stopped (24 + g.port) = false → s.reqRoom s.key s.here.pos = true →
    s.tensor? s.here.ctx (at' e.cfg.tids b 0) = some tn → g.group < g.groups tn.rank L →
    s.genVerdict s.key g (at' e.cfg.tids b 0) .load (e.watches (.gen s.here.idx)) = .ok tn cs n → s.xlatHit s.key tn cs n = true →
    ∃ t c' r, exec .leStreamToken s = .next t ∧ t.core? s.key = some c' ∧ Claims.Quiet s t ∧
      (c'.le s.here.pos).reqs = (c.le s.here.pos).reqs ++ [r] ∧ r.coords = cs ∧ r.lanes = n ∧ r.dst = 24 + g.port ∧
      r.st = .waiting ∧ r.ctl = (if g.group + 1 = g.groups tn.rank L then .last
        else if (g.group + 1) % g.runGroups tn.rank L = 0 then .sep else .data) ∧
      (c'.le s.here.pos).gen s.here.idx = { g with
        group := g.group + 1, mode := if g.group + 1 = g.groups tn.rank L then .ending else .load } := by
  intro g L b mode hidx flowing reqRoom tensor inside verdict hit
  have here : c.elemD s.here.pos = e := c.elemD_of _ e hat.elem
  have binding : field (at' e.cfg.lslots g.slot 0x10#9) 0 2 = b := by simp [field, b]
  have goes : ¬ (g.mode ≠ .load ∨ c.frozen = true ∨ s.foreground s.key = false ∨ e.held.isSome = true ∨ e.run.isNone = true ∨
      (c.le s.here.pos).stopped (24 + g.port) = true ∨ s.reqRoom s.key s.here.pos = false) := by
    simp [mode, unfrozen, foreground, held, running, flowing, reqRoom]
  have unended : ¬ g.groups tn.rank (lanesOf tn.efmt) ≤ g.group := Nat.not_le_of_lt inside
  have turn : exec .leStreamToken s = .next (s.streamed g (streamRequest s c e g b tn cs n) tn cs n) := by
    rw [show exec .leStreamToken s = execLeStreamToken s from rfl, execLeStreamToken, State.onCore_of s c _ hat.core]
    dsimp only
    rw [here, if_neg goes, binding, show s.tensor? s.key.1 (at' e.cfg.tids b 0) = some tn from tensor]
    dsimp only
    rw [if_neg unended, show s.genVerdict s.key ((c.le s.here.pos).gen s.here.idx) (at' e.cfg.tids b 0) .load
      (e.watches (.gen s.here.idx)) = .ok tn cs n from verdict]
    dsimp only
    rw [hit]
    rfl
  have place : cs = (g.place tn.rank (lanesOf tn.efmt) g.group).1 ∧
      n = tn.accessed (g.place tn.rank (lanesOf tn.efmt) g.group).1 (g.place tn.rank (lanesOf tn.efmt) g.group).2 := by
    unfold State.genVerdict at verdict
    rw [show s.tensor? s.key.1 (at' e.cfg.tids b 0) = some tn from tensor] at verdict
    exact (check_eq_ok _ _ _ _ _ _ _ _ _ _ _ tensor verdict).2
  obtain ⟨c', acts, reqs, gen⟩ := acts_streamed s c g (streamRequest s c e g b tn cs n) tn cs n hidx
  refine ⟨_, c', _, turn, acts.core hat.core, acts.quiet, reqs, place.1.symm, place.2.symm, rfl, rfl, rfl, gen.trans ?_⟩
  simp only [LGen.streamed, beq_iff_eq]
  rfl

/-- R134, R136: the generators of an endpoint element walk their boxes. -/
theorem generatorsWalkTheirBoxes : Claims.GeneratorsWalkTheirBoxes := ⟨agen_sets, streamToken_requests⟩

end Sys2Proof.Machine
end

