-- ==== Sys2Proof/Proofs/EndpointAtomics.lean ====
section
/-! PROOF. O26, its atomics: with a guard of 1 the word is read and written at the fire and the old word is a served request; with a guard
of 0 the result 0 lands at once and no access is made (R27, R132). -/

namespace Sys2Proof.Machine

/-! ### A result at once behind no earlier one (R19, R130) -/

section
variable (o : Op) (sh : Shape) (l : Look) (r : Res) (c : CoreCtx) (now : o.atOnce l = true)
  (result : ((sh.d == .result || sh.d == .accum) && !o.mute l) = true)
include now result

theorem deliver_now_reg (h : l.f.dst.toNat ≤ 11) (free : c.regBehind l.t.pos = false) :
    deliver o sh l r c = (c.modElem l.t.pos fun e => e.setFlags r.flags).modElem l.t.pos fun e =>
      e.setReg l.f.dst.toNat ⟨r.data, r.fmt, r.tnt, true, false⟩ := by
  have unblocked : ¬ (o.delay = 0 ∧ (c.modElem l.t.pos fun e => e.setFlags r.flags).regBehind l.t.pos = true) :=
    fun x => Bool.false_ne_true (free.symm.trans x.2)
  unfold deliver
  simp only [now, result, if_true, Bool.not_true, Bool.false_eq_true, if_false, h, unblocked]

theorem deliver_now_port (h : 24 ≤ l.f.dst.toNat ∧ l.f.dst.toNat ≤ 27) (free : c.behindReqs l.t.pos l.f.dst.toNat = false) :
    deliver o sh l r c = (c.modElem l.t.pos fun e => e.setFlags r.flags).send l.t.pos (l.f.dst.toNat - 24) l.e.runId false
      ⟨r.data, r.fmt, r.ctl.getD (toutCtl l.f l.i), r.tnt⟩ := by
  have unblocked : (c.modElem l.t.pos fun e => e.setFlags r.flags).behindReqs l.t.pos l.f.dst.toNat = false := free
  have port : codeIsPort l.f.dst.toNat = true := decide_eq_true h
  have noReg : ¬ l.f.dst.toNat ≤ 11 := by omega
  unfold deliver
  simp only [now, result, if_true, Bool.not_true, Bool.false_eq_true, if_false, noReg, port, unblocked]

theorem deliver_now_nowhere (h : ¬ l.f.dst.toNat ≤ 11) (h' : ¬ (24 ≤ l.f.dst.toNat ∧ l.f.dst.toNat ≤ 27)) :
    deliver o sh l r c = c.modElem l.t.pos fun e => e.setFlags r.flags := by
  have port : codeIsPort l.f.dst.toNat = false := decide_eq_false h'
  unfold deliver
  simp only [now, result, if_true, Bool.not_true, Bool.false_eq_true, if_false, h, port]

end

/-- R19, R24, R25, R42: a result given at the fire lands where its slot says, unless an earlier result of its LE waits for that place. -/
theorem landsNow_deliveredCore (o : Op) (sh : Shape) (f : Fields) (s : State) (c : CoreCtx) (e : Elem) (hat : Claims.At s c e)
    (hk : kindAt s.here.pos ≠ .me) (now : o.atOnce (lookAt o f s s.site c e) = true)
    (result : ((sh.d == .result || sh.d == .accum) && !o.mute (lookAt o f s s.site c e)) = true)
    (port : c.behindReqs s.here.pos f.dst.toNat = false) (reg : f.dst.toNat ≤ 11 → c.regBehind s.here.pos = false) :
    Claims.LandsNow f s.here.pos c e (Claims.operands o.opc f s c e) (o.res (lookAt o f s s.site c e))
      (deliveredCore o sh (lookAt o f s s.site c e) c) := by
  have here : c.elemD s.here.pos = e := c.elemD_of _ e hat.elem
  obtain ⟨back, hback, flights⟩ := takeOperands_flights o sh (s.site.takes f) s.here.pos hk c
  obtain ⟨qs, rs, shape⟩ := takeOperands_shape o sh (s.site.takes f) s.here.pos c
  obtain ⟨es, fl, grown⟩ := takeOperands_grown o sh (s.site.takes f) s.here.pos c
  have group := takeOperands_groupOf o sh (s.site.takes f) s.here.pos e.runId c
  unfold deliveredCore
  change Claims.LandsNow f s.here.pos c e _ _ (deliver o sh (lookAt o f s s.site c e) _ (takeOperands o sh (s.site.takes f) s.here.pos c))
  have port' : (takeOperands o sh (s.site.takes f) s.here.pos c).behindReqs s.here.pos f.dst.toNat = false := by rw [grown]; exact port
  have reg' : f.dst.toNat ≤ 11 → (takeOperands o sh (s.site.takes f) s.here.pos c).regBehind s.here.pos = false := by
    rw [grown]; exact reg
  generalize takeOperands o sh (s.site.takes f) s.here.pos c = ct at flights shape group port' reg' ⊢
  generalize o.res (lookAt o f s s.site c e) = r
  rw [here] at shape
  have flagged : (ct.modElem s.here.pos fun e => e.setFlags r.flags).elemD s.here.pos = (ct.elemD s.here.pos).setFlags r.flags :=
    CoreCtx.elemD_modElem_same _ _ _
  by_cases h11 : f.dst.toNat ≤ 11
  · rw [deliver_now_reg o sh (lookAt o f s s.site c e) r ct now result h11 (reg' h11)]
    have elem : (((ct.modElem s.here.pos fun e => e.setFlags r.flags).modElem s.here.pos fun e =>
        e.setReg f.dst.toNat ⟨r.data, r.fmt, r.tnt, true, false⟩).elemD s.here.pos) =
        ((ct.elemD s.here.pos).setFlags r.flags).setReg f.dst.toNat ⟨r.data, r.fmt, r.tnt, true, false⟩ := by
      rw [CoreCtx.elemD_modElem_same, flagged]
    refine ⟨(congrArg Elem.flags elem).trans (by rw [shape]; rfl), fun _ => (congrArg (·.reg f.dst.toNat) elem).trans ?_,
      fun h => absurd h (by omega)⟩
    exact Elem.reg_setReg_same _ _ _ (by omega)
  · by_cases hport : 24 ≤ f.dst.toNat ∧ f.dst.toNat ≤ 27
    · rw [deliver_now_port o sh (lookAt o f s s.site c e) r ct now result hport port']
      have elem := (ct.modElem s.here.pos fun e => e.setFlags r.flags).elemD_send s.here.pos (f.dst.toNat - 24) e.runId
        ⟨r.data, r.fmt, r.ctl.getD (toutCtl f (lookAt o f s s.site c e).i), r.tnt⟩
      rw [flagged] at elem
      have before : (ct.elemD s.here.pos).port (f.dst.toNat - 24) = e.port (f.dst.toNat - 24) := by rw [shape]; rfl
      refine ⟨(congrArg Elem.flags elem).trans (by rw [shape]; rfl), fun h => absurd h h11, fun _ => ⟨?_, back, ?_, ?_⟩⟩
      · refine (congrArg (fun x : Elem => (x.port (f.dst.toNat - 24)).recvs) elem).trans ?_
        refine (congrArg Port.recvs (at_upd_same _ _ _ _ (by omega))).trans ?_
        exact congrArg (fun p : Port => p.take.recvs) before
      · exact fun x hx => .inl (hback x hx)
      · show ct.flights ++ sendFlights e.runId (ct.groupOf e.runId)
          (((ct.modElem s.here.pos fun e => e.setFlags r.flags).elemD s.here.pos).port (f.dst.toNat - 24)) _ = _
        rw [flagged, flights, group, show ((ct.elemD s.here.pos).setFlags r.flags).port (f.dst.toNat - 24) = _ from before]
        rfl
    · rw [deliver_now_nowhere o sh (lookAt o f s s.site c e) r ct now result h11 hport]
      exact ⟨(congrArg Elem.flags flagged).trans (by rw [shape]; rfl), fun h => absurd h h11, fun h => absurd h hport⟩

theorem Counted.landsNow {s₁ t : State} {c c₁ c' : CoreCtx} {pos : Nat} {f : Fields} {e : Elem} {i : Ins} {r : Res}
    (h : Counted pos s₁ t c₁ c') (lands : Claims.LandsNow f pos c e i r c₁) : Claims.LandsNow f pos c e i r c' := by
  obtain ⟨ps, elem⟩ := h.elem
  obtain ⟨flags, reg, port⟩ := lands
  refine ⟨(congrArg Elem.flags elem).trans flags, fun hd => (congrArg (·.reg f.dst.toNat) elem).trans (reg hd), fun hd => ?_⟩
  obtain ⟨recvs, back, hback, flights⟩ := port hd
  exact ⟨(congrArg (fun x : Elem => (x.port (f.dst.toNat - 24)).recvs) elem).trans recvs, back, hback, h.flights.trans flights⟩

/-! ### The access of an atomic (R132) -/

theorem atomicWord_eq_modified (slot : BitVec 9) (old b : W64) :
    atomicWord (field slot 2 2) old b = Claims.modified (slot.toNat / 4 % 4) old b := by
  have op : field slot 2 2 = slot.toNat / 4 % 4 := by simp [field, Nat.shiftRight_eq_div_pow]
  rw [op]
  generalize slot.toNat / 4 % 4 = k
  rcases k with _ | _ | _ | k
  · rfl
  · show (if old.slt b then b else old) = if b.toInt > old.toInt then b else old
    simp only [BitVec.slt, decide_eq_true_eq, gt_iff_lt]
  · rfl
  · rfl

theorem verdict_of_atomicParts (l : Look) (h : l.atomicParts ≠ []) : ∃ tn cs n, l.verdict .atomic oneToken = .ok tn cs n := by
  unfold Look.atomicParts at h
  split at h
  · next heq _ => exact ⟨_, _, _, heq⟩
  · exact absurd rfl h

theorem atomicParts_of_fault (l : Look) (h : ∀ tn cs n, l.verdict .atomic oneToken ≠ .ok tn cs n) : l.atomicParts = [] := by
  by_contra hne
  obtain ⟨tn, cs, n, ok⟩ := verdict_of_atomicParts l hne
  exact h tn cs n ok

/-- Memory once an atomic has written its word. -/
def Look.atomicWritten (l : Look) (s : State) : State :=
  s.writeParts l.t.k.1 curBuf l.atomicParts (atomicWord (field l.lslot 2 2) l.atomicOld l.i.b.data).toNat

theorem cores_atomicWritten (l : Look) (s : State) : (l.atomicWritten s).cores = s.cores := by
  rw [Look.atomicWritten, writeParts_only]

theorem atomicWritten_of_none (l : Look) (s : State) (h : l.atomicParts = []) : l.atomicWritten s = s := by
  rw [Look.atomicWritten, h]; rfl

/-- The counters of an atomic's access (R368). -/
def State.countAtomic (s : State) (k : Key) (pos : Nat) (t : Tensor) : State :=
  let s := match t.loc with | .hbm _ => s.count k 22 1 | _ => s
  s.count k (s.pathCounter k pos t.loc) 1

theorem acts_countAtomic (k : Key) (s : State) (c : CoreCtx) (pos : Nat) (t : Tensor) :
    ∃ v, Acts k s (s.countAtomic k pos t) c { c with evc := v } := by
  have counted (s : State) (c : CoreCtx) (i : Nat) : ∃ v, Acts k s (s.count k i 1) c { c with evc := v } := ⟨_, .count k s c i 1⟩
  unfold State.countAtomic
  dsimp only
  split
  · obtain ⟨v, hbm⟩ := counted s c 22
    obtain ⟨w, path⟩ := counted (s.count k 22 1) { c with evc := v } ((s.count k 22 1).pathCounter k pos t.loc)
    exact ⟨w, hbm.trans path⟩
  · exact counted s c _

/-- An atomic takes the beats of its block from the LE's buffer, all of them for an acquire (R259). -/
def Look.withoutBeats (l : Look) (y : LE) : LE :=
  { y with beats := if l.ord % 2 = 1 then [] else y.beats.filter fun b => !l.atomicParts.any fun x => x.1.block == b.1 }

/-- The request that stands for an atomic's reply. -/
def Look.atomicReply (l : Look) (cs : List Nat) (n : Nat) : LReq :=
  { l.request .atomic l.i.tnt (toPort l) false with
    coords := cs, lanes := n, st := .served [⟨l.atomicOld, .i64, toutCtl l.f l.i, l.i.tnt⟩] }

theorem gatomEffect_eq (l : Look) (s : State) (tn : Tensor) (cs : List Nat) (n : Nat) (h : l.verdict .atomic oneToken = .ok tn cs n) :
    gatomEffect l s =
      ((((((l.atomicWritten s).countHits l.t.k.1 (s.hits l.t.k.1 tn .atomic cs n)).xlatUse l.t.k tn cs n).countAtomic l.t.k l.t.pos
        tn).modElem l.t.k l.t.pos fun e => e.passWatch (.slot l.t.slot)).modCore l.t.k fun c => c.modLe l.t.pos l.withoutBeats).addReq
        l.t.k l.t.pos (l.atomicReply cs n) := by
  unfold gatomEffect
  rw [h]
  rfl

theorem gatomEffect_of_fault (l : Look) (s : State) (h : ∀ tn cs n, l.verdict .atomic oneToken ≠ .ok tn cs n) : gatomEffect l s = s := by
  unfold gatomEffect
  split
  · next heq => exact absurd heq (h _ _ _)
  · rfl

/-- The reply of an atomic is a served request (R132), the youngest of the table. -/
theorem acts_gatomEffect (l : Look) (sh : Shape) (d : Nat) (s : State) (c : CoreCtx) (tn : Tensor) (cs : List Nat) (n : Nat)
    (h : l.verdict .atomic oneToken = .ok tn cs n) :
    ∃ c', Acts l.t.k (l.atomicWritten s) (gatomEffect l s) c c' ∧ SameParts sh d l.t.pos c c' ∧ c'.nextReq = c.nextReq + 1 ∧
      (c'.le l.t.pos).reqs = (c.le l.t.pos).reqs ++ [{ l.atomicReply cs n with id := c.nextReq }] := by
  rw [gatomEffect_eq l s tn cs n h]
  have hits := Acts.countHits l.t.k (l.atomicWritten s) c l.t.k.1 (s.hits l.t.k.1 tn .atomic cs n)
  have used := hits.trans (.xlatUse _ l.t.k _ _ tn cs n)
  obtain ⟨v, counted⟩ := acts_countAtomic l.t.k _ c l.t.pos tn
  have cleared := ((used.trans counted).trans (.modElem _ _ _ l.t.pos fun e => e.passWatch (.slot l.t.slot))).trans
    (.modCore _ _ _ fun c => c.modLe l.t.pos l.withoutBeats)
  obtain ⟨c', added, elems, le, nextReq⟩ := acts_addReq l.t.k _ _ l.t.pos (l.atomicReply cs n)
  refine ⟨c', cleared.trans added, ?_, nextReq, ?_⟩
  · have marked := SameParts.passWatch sh d l.t.pos { c with evc := v } (.slot l.t.slot)
    exact (SameParts.of_elems (c := c) (c' := { c with evc := v }) rfl).trans (marked.trans (.of_elems elems))
  · rw [le, CoreCtx.le_modLe_same]
    rfl

/-! ### The fire of an atomic -/

section
variable {f : Fields} {s : State} {c : CoreCtx} {e : Elem} {sh : Shape} (hat : Claims.At s c e) (hle : kindAt s.here.pos = .le)
  (hsh : shapeOf gatomOp.opc = some sh) (room : Claims.HasRoom gatomOp f s c e) (ready : slotStatus gatomOp f s s.site = .ready)
include hat hle hsh room ready

/-- R132: an atomic with a guard of 1. -/
theorem atomic_accesses (guard : (lookAt gatomOp f s s.site c e).i.guard = true) :
    ∃ t c', exec (.gatom f) s = .next t ∧ t.core? s.key = some c' ∧ Claims.Kept sh f s c e t c' ∧
      Claims.Quiet ((lookAt gatomOp f s s.site c e).atomicWritten (operandState gatomOp sh (lookAt gatomOp f s s.site c e))) t ∧
      ((lookAt gatomOp f s s.site c e).atomicParts ≠ [] → Claims.Requests f s c e c' fun r =>
        ∃ ctl, r.st = .served [⟨(lookAt gatomOp f s s.site c e).atomicOld, .i64, ctl, (lookAt gatomOp f s s.site c e).i.tnt⟩]) := by
  have silent : Silent gatomOp sh (lookAt gatomOp f s s.site c e) := .inr ⟨rfl, congrArg not guard⟩
  have guarded (s' : State) : gatomOp.effect (lookAt gatomOp f s s.site c e) s' = gatomEffect (lookAt gatomOp f s s.site c e) s' := if_pos guard
  refine silentFires gatomOp sh f s c e .gatom (fun _ _ => rfl) hat hle hsh room ready rfl silent _ fun es back _ => ?_
  rw [guarded]
  refine ⟨(lookAt gatomOp f s s.site c e).atomicWritten (operandState gatomOp sh (lookAt gatomOp f s s.site c e)), ?_⟩
  by_cases verdict : ∃ tn cs n, (lookAt gatomOp f s s.site c e).verdict .atomic oneToken = .ok tn cs n
  · obtain ⟨tn, cs, n, verdict⟩ := verdict
    obtain ⟨c₁, acts, same, nextReq, reqs⟩ := acts_gatomEffect (lookAt gatomOp f s s.site c e) sh f.dst.toNat
      (operandState gatomOp sh (lookAt gatomOp f s s.site c e)) (c.served es back) tn cs n verdict
    refine ⟨c₁, cores_atomicWritten _ _, acts, same, fun t c' counted => ⟨counted.quiet, fun _ => ?_⟩⟩
    refine ⟨{ (lookAt gatomOp f s s.site c e).atomicReply cs n with id := c.nextReq }, ?_, counted.nextReq.trans nextReq, rfl, rfl, rfl,
      rfl, _, rfl⟩
    rw [counted.le]
    exact reqs
  · have fault := fun tn cs n h => verdict ⟨tn, cs, n, h⟩
    have none := atomicParts_of_fault (lookAt gatomOp f s s.site c e) fault
    rw [atomicWritten_of_none _ _ none]
    exact ⟨_, rfl, .of_eq _ (gatomEffect_of_fault _ _ fault), .of_elems rfl, fun t c' counted => ⟨counted.quiet, fun h => absurd none h⟩⟩

/-- R27: an atomic with a guard of 0. -/
theorem atomic_skips (unguarded : (lookAt gatomOp f s s.site c e).i.guard = false) :
    ∃ t c', exec (.gatom f) s = .next t ∧ t.core? s.key = some c' ∧ Claims.Kept sh f s c e t c' ∧ Claims.Quiet s t ∧
      (c.behindReqs s.here.pos f.dst.toNat = false → (f.dst.toNat ≤ 11 → ∀ r ∈ (c.le s.here.pos).reqs, 11 < r.dst) →
        Claims.LandsNow f s.here.pos c e (lookAt gatomOp f s s.site c e).i
          ⟨0#64, .i64, Claims.taint (lookAt gatomOp f s s.site c e).i, Flags.none, none⟩ c') := by
  have hme : kindAt s.here.pos ≠ .me := by rw [hle]; decide
  have still (s' : State) : gatomOp.effect (lookAt gatomOp f s s.site c e) s' = s' := if_neg (by rw [unguarded]; decide)
  have now : gatomOp.atOnce (lookAt gatomOp f s s.site c e) = true := congrArg not unguarded
  have result : ((sh.d == .result || sh.d == .accum) && !gatomOp.mute (lookAt gatomOp f s s.site c e)) = true := by cases hsh; rfl
  obtain ⟨c', core, kept, counted⟩ := fires_of_acts gatomOp sh f s c e hat room rfl _ _ rfl (.of_eq _ (still _)) (.of_elems rfl)
  refine ⟨_, c', runOp_ready gatomOp f s c e sh hsh hat.core hat.elem ready, core, kept,
    quiet_trans (quiet_operandState _ _ _) counted.quiet, fun port regs => counted.landsNow ?_⟩
  refine landsNow_deliveredCore gatomOp sh f s c e hat hme now result port fun h11 => ?_
  have away := regs h11
  simp only [CoreCtx.regBehind, Bool.and_eq_false_imp, List.any_eq_false, decide_eq_true_eq, Nat.not_le]
  exact fun _ => away

end

/-! ### The word of an atomic -/

/-- The word that an atomic leaves (R132). -/
def Look.atomicNew (l : Look) : W64 := Claims.modified (l.lslot.toNat / 4 % 4) l.atomicOld l.i.b.data

theorem atomicWritten_eq (l : Look) (s : State) :
    l.atomicWritten s = s.writeParts l.t.k.1 curBuf l.atomicParts l.atomicNew.toNat := by
  rw [Look.atomicWritten, atomicWord_eq_modified, Look.atomicNew]

theorem Memory.word_written (m : Memory) (a v : Nat) (wf : m.wf = true) :
    (m.writeN a (leBytes 8 v)).readN a 8 = leBytes 8 v ∧
      ∀ x, x < a ∨ a + 8 ≤ x → (m.writeN a (leBytes 8 v)).read x = m.read x := by
  have length := leBytes_length 8 v
  refine ⟨?_, fun x hx => Memory.read_writeN_outside _ _ _ _ wf (by rw [length]; exact hx)⟩
  have read := Memory.readN_writeN m a (leBytes 8 v) wf
  rwa [length] at read

theorem together_ne_nil (f : Nat → Spot) : Claims.together f ≠ [] := List.cons_ne_nil _ _

/-- R27, R132: atomics act at their fire. -/
theorem atomicsActAtTheirFire : Claims.AtomicsActAtTheirFire := by
  intro f s c e sh hat hle hsh room ready
  by_cases guard : (lookAt gatomOp f s s.site c e).i.guard = true
  · obtain ⟨t, c', turn, core, kept, quiet, reply⟩ := atomic_accesses hat hle hsh room ready guard
    obtain ⟨flat, hbm, mcores, -, -, -⟩ := quiet
    rw [atomicWritten_eq] at flat hbm mcores
    refine ⟨t, c', turn, core, kept, fun _ b hb parts wf => ?_, fun _ b hb parts wf => ?_, fun _ wf x outside => ?_,
      fun _ mc slot b m hb parts hm wf => ?_, fun h => absurd (guard.symm.trans h) (by decide)⟩
    · have old : (lookAt gatomOp f s s.site c e).atomicOld = Claims.wordOf (s.flat.readN (b / 8) 8) := by
        rw [Look.atomicOld, parts, readParts_flat _ _ _ hb]; rfl
      obtain ⟨inside, outside⟩ := Memory.word_written s.flat (b / 8) (lookAt gatomOp f s s.site c e).atomicNew.toNat wf
      rw [parts, writeParts_flat _ _ _ _ hb] at flat hbm mcores
      refine ⟨old ▸ reply (parts ▸ together_ne_nil _), ?_, fun x hx => ?_, hbm, mcores⟩
      · rw [flat]
        exact inside.trans (by rw [Look.atomicNew, old]; rfl)
      · rw [flat]
        exact outside x hx
    · have old : (lookAt gatomOp f s s.site c e).atomicOld = Claims.wordOf (s.hbm.readN (b / 8) 8) := by
        rw [Look.atomicOld, parts, readParts_hbm _ _ _ hb]; rfl
      obtain ⟨inside, outside⟩ := Memory.word_written s.hbm (b / 8) (lookAt gatomOp f s s.site c e).atomicNew.toNat wf
      rw [parts, writeParts_hbm _ _ _ _ hb] at flat hbm mcores
      refine ⟨old ▸ reply (parts ▸ together_ne_nil _), ?_, fun x hx => ?_, flat, mcores⟩
      · rw [hbm]
        exact inside.trans (by rw [Look.atomicNew, old]; rfl)
      · rw [hbm]
        exact outside x hx
    · rw [hbm]
      exact hbm_read_writeParts _ _ _ _ _ _ wf outside
    · have old : (lookAt gatomOp f s s.site c e).atomicOld =
          Claims.wordOf (m.bytes ((m.tile slot).bufAt (m.tile slot).cur + b / 8) 8) := by
        rw [Look.atomicOld, parts]
        exact congrArg (BitVec.ofNat 64) (readParts_tile _ _ _ _ _ m hb hm)
      have holds := MCoreCtx.foldl_setTileByte m slot b (lookAt gatomOp f s s.site c e).atomicNew.toNat hb wf 8
      rw [parts, writeParts_tile] at flat hbm mcores
      refine ⟨_, ?_, old ▸ reply (parts ▸ together_ne_nil _), ?_, holds.outside, holds.tiles, flat, hbm⟩
      · rw [State.mcore?, mcores]
        exact (Assoc.get?_adjust_same _ _ _).trans (congrArg (Option.map _) hm)
      · exact holds.bytes.trans (by rw [Look.atomicNew, old]; rfl)
  · rw [Bool.not_eq_true] at guard
    obtain ⟨t, c', turn, core, kept, quiet, lands⟩ := atomic_skips hat hle hsh room ready guard
    exact ⟨t, c', turn, core, kept, fun h => absurd (guard.symm.trans h) (by decide), fun h => absurd (guard.symm.trans h) (by decide),
      fun h => absurd (guard.symm.trans h) (by decide), fun h => absurd (guard.symm.trans h) (by decide), fun _ => ⟨quiet, lands⟩⟩

/-- Settles O26, from the fires of its three kinds of operation. -/
theorem storesAndGeneratorsOfAnEndpoint : Obligations.StoresAndGeneratorsOfAnEndpoint :=
  ⟨atomicsActAtTheirFire, storesWaitInTheCommitBuffer, generatorsWalkTheirBoxes⟩

end Sys2Proof.Machine
end

