-- ==== Sys2Proof/Proofs/Products.lean ====
section
/-! PROOF. O11: products after 3 cycles, quotients and remainders after 18 (R47, R65, R68, R72). -/

namespace Sys2Proof.Machine

/-! ### Results that come later (R19, R25, R65) -/

/-- An operation that gives its result `lat` cycles later and has no further effect. -/
structure LateOp (lat : Nat) (o : Op) : Prop where
  delay : o.delay = lat
  late : 1 < lat
  now : ∀ l, o.now l = false
  mute : ∀ l, o.mute l = false
  effect : ∀ l s, o.effect l s = s
  entries : ∀ l, o.entries l = 0
  gives : ((shapeOf o.opc).map Shape.gives) = some true

/-- R19, R24, R25, R65: a ready slot of such an operation fires, and its result is in flight for its latency. -/
theorem LateOp.givesLater {lat : Nat} {o : Op} (late : LateOp lat o) (k : Kind) (hk : k ≠ .me) (mk : Fields → Instr) (runs : RunsOp (mk, o))
    (v : Fields → Elem → Ins → Res) (value : ∀ l, o.res l = v l.f l.e l.i) : Claims.GivesLater k lat mk o v := by
  intro f s c e hat hkind ready
  obtain ⟨sh, hsh, gives⟩ := Option.map_eq_some_iff.1 late.gives
  have notMe : kindAt s.here.pos ≠ .me := by rw [hkind]; exact hk
  have atOnce : o.atOnce (lookAt o f s s.site c e) = false := by
    have := late.late
    simp only [Op.atOnce, late.delay, late.now, Bool.or_false, beq_eq_false_iff_ne]
    omega
  obtain ⟨ev, rs, core⟩ := fireSlot_core o sh (lookAt o f s s.site c e) c hat.core late.effect (late.entries _)
  obtain ⟨flags, reg, port, back, x, hback, flights, place⟩ := firedCore_later o sh (lookAt o f s s.site c e) c
    (c.elemD_of _ e hat.elem) notMe atOnce (by have := late.late; rw [late.delay]; omega)
    (by simpa [Shape.gives] using gives) (late.mute _)
  rw [value, late.delay] at *
  exact ⟨_, _, (runs f s).trans (runOp_ready o f s c e sh hsh hat.core hat.elem ready), core, flags, reg, port, back, x,
    fun y hy => .inl (hback y hy), flights, place⟩

/-! ### Products (R68, R72) -/

theorem mul_eq (a b : W64) : a * b = BitVec.ofNat 64 (a.toNat * b.toNat) :=
  BitVec.eq_of_toNat_eq (by rw [BitVec.toNat_mul, BitVec.toNat_ofNat])

theorem mula_eq (d a b : W64) : d + a * b = BitVec.ofNat 64 (d.toNat + a.toNat * b.toNat) :=
  BitVec.eq_of_toNat_eq (by rw [BitVec.toNat_add, BitVec.toNat_mul, BitVec.toNat_ofNat, Nat.add_mod_mod])

/-- The upper half of a number of two words. -/
theorem extractLsb'_ofInt (p : Int) : (BitVec.ofInt 128 p).extractLsb' 64 64 = BitVec.ofInt 64 (p / 2 ^ 64) := by
  refine BitVec.eq_of_toNat_eq ?_
  rw [BitVec.extractLsb'_toNat, BitVec.toNat_ofInt, BitVec.toNat_ofInt, Nat.shiftRight_eq_div_pow]
  omega

theorem mulhVal_eq (a b : W64) : mulhVal a b = BitVec.ofInt 64 (a.toInt * b.toInt / 2 ^ 64) := extractLsb'_ofInt _

/-! ### Quotients and remainders (R47) -/

theorem divSigned_quotient (a b : W64) : (divSigned a b).1 = Claims.signedQuotient a b := by
  unfold divSigned Claims.signedQuotient
  by_cases h0 : b = 0#64
  · rw [if_pos h0, if_pos h0]
  · rw [if_neg h0, if_neg h0]
    by_cases hwrap : a.toInt = -2 ^ 63 ∧ b.toInt = -1
    · rw [if_pos hwrap]
      show BitVec.ofInt 64 (a.toInt.tdiv b.toInt) = _
      rw [hwrap.1, hwrap.2]
      decide
    · rw [if_neg hwrap]; rfl

theorem divSigned_rest (a b : W64) : (divSigned a b).2 = Claims.signedRest a b := by
  unfold divSigned Claims.signedRest
  by_cases h0 : b = 0#64
  · rw [if_pos h0, if_pos h0]
  · rw [if_neg h0, if_neg h0]
    show BitVec.ofInt 64 (a.toInt.tmod b.toInt) = _
    by_cases hwrap : a.toInt = -2 ^ 63 ∧ b.toInt = -1
    · rw [if_pos hwrap, hwrap.1, hwrap.2]
      decide
    · rw [if_neg hwrap, Int.tmod_def, Int.mul_comm]

theorem divUnsigned_quotient (a b : W64) :
    (divUnsigned a b).1 = if b = 0#64 then BitVec.allOnes 64 else BitVec.ofNat 64 (a.toNat / b.toNat) := by
  unfold divUnsigned
  split
  · rfl
  · exact BitVec.eq_of_toNat_eq (by
      have := Nat.div_le_self a.toNat b.toNat
      rw [BitVec.toNat_ofNat, Nat.mod_eq_of_lt (by omega)]
      exact BitVec.toNat_udiv)

theorem divUnsigned_rest (a b : W64) :
    (divUnsigned a b).2 = if b = 0#64 then a else BitVec.ofNat 64 (a.toNat - a.toNat / b.toNat * b.toNat) := by
  unfold divUnsigned
  split
  · rfl
  · refine BitVec.eq_of_toNat_eq ?_
    have rest : a.toNat - a.toNat / b.toNat * b.toNat = a.toNat % b.toNat := by
      rw [Nat.mod_eq_sub_div_mul]
    have := Nat.mod_le a.toNat b.toNat
    rw [rest, BitVec.toNat_ofNat, Nat.mod_eq_of_lt (by omega)]
    exact BitVec.toNat_umod

/-! ### The obligation -/

theorem productsAndQuotients_late : ∀ x ∈ Claims.productsAndQuotients, LateOp x.1 x.2.2.1 := by
  refine List.forall_iff_forall_mem.1 ?_
  repeat' apply And.intro
  all_goals exact ⟨rfl, by decide, fun _ => rfl, fun _ => rfl, fun _ _ => rfl, fun _ => rfl, by decide⟩

theorem productsAndQuotients_runOp : ∀ x ∈ Claims.productsAndQuotients, RunsOp (x.2.1, x.2.2.1) := by
  refine List.forall_iff_forall_mem.1 ?_
  repeat' apply And.intro
  all_goals exact fun _ _ => rfl

/-- R47, R68, R72: what the multiplier and the divider compute. -/
theorem productsAndQuotients_value : ∀ x ∈ Claims.productsAndQuotients, ∀ l, x.2.2.1.res l = x.2.2.2 l.f l.e l.i := by
  refine List.forall_iff_forall_mem.1 ⟨?mul, ?mulh, ?mulhn, ?mula, ?div, ?divn, ?rem, ?remn⟩
  case mul => exact fun l => congrArg l.int (mul_eq l.i.a.data l.i.b.data)
  case mulh => exact fun l => congrArg l.int (mulhVal_eq l.i.a.data l.i.b.data)
  case mulhn => exact fun _ => rfl
  case mula => exact fun l => congrArg l.int (mula_eq l.i.d.data l.i.a.data l.i.b.data)
  case div => exact fun l => congrArg l.int (divSigned_quotient l.i.a.data l.i.b.data)
  case divn => exact fun l => congrArg l.int (divUnsigned_quotient l.i.a.data l.i.b.data)
  case rem => exact fun l => congrArg l.int (divSigned_rest l.i.a.data l.i.b.data)
  case remn => exact fun l => congrArg l.int (divUnsigned_rest l.i.a.data l.i.b.data)

/-- Settles O11: the operations of the multiplier and the divider are late ones, and give the values of R47, R68 and R72. -/
theorem productsAndQuotientsGive : Obligations.ProductsAndQuotientsGive := fun x hx =>
  (productsAndQuotients_late x hx).givesLater .pe (by decide) x.2.1 (productsAndQuotients_runOp x hx) x.2.2.2
    (productsAndQuotients_value x hx)

end Sys2Proof.Machine
end

