-- ==== Sys2Proof/Proofs/TimeReads.lean ====
section
/-! PROOF. O30: TIME, CYC and ID give the ticks, the core's cycles and the selected value, on an LE in the order of its results (R42,
R136, R147, R148; log 20). -/

namespace Sys2Proof.Machine

/-! ### A result given at the fire of any element (R19, R24, R25, R42) -/

/-- R18, R79: a dequeue sends back credits only. -/
theorem CoreCtx.onlyCredits_dequeue (p q n : Nat) (c : CoreCtx) :
    ∃ back, Claims.OnlyCredits back ∧ (c.dequeue p q n).flights = c.flights ++ back := by
  induction n generalizing c with
  | zero => exact ⟨[], fun x hx => absurd hx (List.not_mem_nil), (List.append_nil _).symm⟩
  | succ n ih =>
    obtain ⟨b, hb, given⟩ := (c.modElem p fun e => e.setQueue q (e.queue q).tail).onlyCredits_giveCredit p q
    obtain ⟨b', hb', rest⟩ := ih ((c.modElem p fun e => e.setQueue q (e.queue q).tail).giveCredit p q)
    refine ⟨b ++ b', fun x hx => (List.mem_append.1 hx).elim (hb x) (hb' x), ?_⟩
    rw [CoreCtx.dequeue, rest, given, List.append_assoc]
    rfl

/-- R24: operands of any element leave with nothing but credits sent back. -/
theorem takeOperands_onlyCredits (o : Op) (sh : Shape) (f : Fields) (p : Nat) (c : CoreCtx) :
    ∃ back, Claims.OnlyCredits back ∧ (takeOperands o sh f p c).flights = c.flights ++ back := by
  have emptied (l : List Nat) (c : CoreCtx) : (l.foldl (fun c r => c.modElem p (Elem.emptied r)) c).flights = c.flights := by
    induction l generalizing c with
    | nil => rfl
    | cons x xs ih => exact ih _
  have dequeued (l : List Nat) (c : CoreCtx) :
      ∃ back, Claims.OnlyCredits back ∧ (l.foldl (fun c q => c.dequeue p q o.take) c).flights = c.flights ++ back := by
    induction l generalizing c with
    | nil => exact ⟨[], fun x hx => absurd hx (List.not_mem_nil), (List.append_nil _).symm⟩
    | cons x xs ih =>
      obtain ⟨b, hb, first⟩ := c.onlyCredits_dequeue p x o.take
      obtain ⟨b', hb', rest⟩ := ih (c.dequeue p x o.take)
      exact ⟨b ++ b', fun y hy => (List.mem_append.1 hy).elim (hb y) (hb' y), by
        rw [List.foldl_cons, rest, first, List.append_assoc]⟩
  obtain ⟨back, hback, flights⟩ := dequeued (dqQueues sh f) c
  exact ⟨back, hback, (emptied (dqRegs sh f) _).trans flights⟩

/-- R42: a result that comes at once sets its flags, wherever it goes. -/
theorem deliver_now_flags (o : Op) (sh : Shape) (l : Look) (r : Res) (c : CoreCtx) (now : o.atOnce l = true) :
    ((deliver o sh l r c).elemD l.t.pos).flags = (c.elemD l.t.pos).flags.or r.flags := by
  have flagged : ((c.modElem l.t.pos fun e => e.setFlags r.flags).elemD l.t.pos).flags = (c.elemD l.t.pos).flags.or r.flags := by
    rw [CoreCtx.elemD_modElem_same]; rfl
  unfold deliver
  simp only [now, if_true]
  split_ifs
  · exact flagged
  · rw [CoreCtx.writeBehind, CoreCtx.elemD_joinReqs, CoreCtx.elemD_modElem_same]; exact flagged
  · rw [CoreCtx.elemD_modElem_same]; exact flagged
  · rw [CoreCtx.sendBehind, CoreCtx.elemD_joinReqs, CoreCtx.holdCredit, CoreCtx.elemD_modElem_same]; exact flagged
  · rw [CoreCtx.elemD_send]; exact flagged
  · exact flagged

section
variable (o : Op) (sh : Shape) (f : Fields) (s : State) (c : CoreCtx) (e : Elem)

/-- R42: the flags of the element once a fire has delivered its result. -/
theorem flags_deliveredCore (hat : Claims.At s c e) (now : o.atOnce (lookAt o f s s.site c e) = true) :
    ((deliveredCore o sh (lookAt o f s s.site c e) c).elemD s.here.pos).flags =
      e.flags.or (o.res (lookAt o f s s.site c e)).flags := by
  obtain ⟨qs, rs, shape⟩ := takeOperands_shape o sh (s.site.takes f) s.here.pos c
  have taken : ((takeOperands o sh (s.site.takes f) s.here.pos c).elemD s.here.pos).flags = e.flags := by
    rw [shape, c.elemD_of _ e hat.elem]
  exact (deliver_now_flags o sh (lookAt o f s s.site c e) _ _ now).trans (congrArg (Flags.or · _) taken)

/-- R19: the register that a result which comes at once is given. -/
theorem reg_deliveredCore (now : o.atOnce (lookAt o f s s.site c e) = true) (h0 : o.delay ≠ 0) (hd : sh.d = .result)
    (hm : o.mute (lookAt o f s s.site c e) = false) (h : f.dst.toNat ≤ 11) :
    let r := o.res (lookAt o f s s.site c e)
    ((deliveredCore o sh (lookAt o f s s.site c e) c).elemD s.here.pos).reg f.dst.toNat = ⟨r.data, r.fmt, r.tnt, true, false⟩ :=
  deliver_reg o sh (lookAt o f s s.site c e) _ _ now (.inl hd) hm h fun hz => absurd hz h0

/-- R16, R24, R25: a result of any element for a port without results outstanding is sent to its receivers. -/
theorem port_deliveredCore (hat : Claims.At s c e) (now : o.atOnce (lookAt o f s s.site c e) = true) (hd : sh.d = .result)
    (hm : o.mute (lookAt o f s s.site c e) = false) (free : c.behindReqs s.here.pos f.dst.toNat = false) (h : Claims.onPort f) :
    let c' := deliveredCore o sh (lookAt o f s s.site c e) c
    let r := o.res (lookAt o f s s.site c e)
    let p := e.port (f.dst.toNat - 24)
    ((c'.elemD s.here.pos).port (f.dst.toNat - 24)).recvs = Claims.oneLess p.recvs ∧
      ∃ back, Claims.OnlyCredits back ∧ c'.flights = c.flights ++ back ++ Claims.sent e.runId (c.groupOf e.runId) p.recvs
        ⟨r.data, r.fmt, r.ctl.getD (toutCtl f (lookAt o f s s.site c e).i), r.tnt⟩ := by
  obtain ⟨h24, h27⟩ := h
  obtain ⟨back, hback, flights⟩ := takeOperands_onlyCredits o sh (s.site.takes f) s.here.pos c
  obtain ⟨qs, rs, shape⟩ := takeOperands_shape o sh (s.site.takes f) s.here.pos c
  obtain ⟨es, fl, grown⟩ := takeOperands_grown o sh (s.site.takes f) s.here.pos c
  have group := takeOperands_groupOf o sh (s.site.takes f) s.here.pos e.runId c
  have sends := deliver_now_port o sh (lookAt o f s s.site c e) (o.res (lookAt o f s s.site c e))
    (takeOperands o sh (s.site.takes f) s.here.pos c) now (by simp [hd, hm]) ⟨h24, h27⟩ (by rw [grown]; exact free)
  rw [show deliveredCore o sh (lookAt o f s s.site c e) c = _ from sends]
  generalize takeOperands o sh (s.site.takes f) s.here.pos c = ct at flights shape group ⊢
  have flagged : (ct.modElem s.here.pos fun x => x.setFlags (o.res (lookAt o f s s.site c e)).flags).elemD s.here.pos =
      (ct.elemD s.here.pos).setFlags (o.res (lookAt o f s s.site c e)).flags := 
    ct.elemD_modElem_same s.here.pos fun x => x.setFlags (o.res (lookAt o f s s.site c e)).flags
  have port : ((ct.modElem s.here.pos fun x => x.setFlags (o.res (lookAt o f s s.site c e)).flags).elemD s.here.pos).port
      (f.dst.toNat - 24) = e.port (f.dst.toNat - 24) := by
    rw [flagged, shape, c.elemD_of _ e hat.elem]; rfl
  refine ⟨?_, back, hback, ?_⟩
  · refine (congrArg (fun x : Elem => (x.port (f.dst.toNat - 24)).recvs) (CoreCtx.elemD_send _ _ _ _ _)).trans ?_
    refine (congrArg Port.recvs (at_upd_same _ _ _ _ (by show f.dst.toNat - 24 < 4; omega))).trans ?_
    exact congrArg (fun p : Port => p.take.recvs) port
  · show ct.flights ++ sendFlights e.runId (ct.groupOf e.runId) (((ct.modElem s.here.pos fun x =>
      x.setFlags (o.res (lookAt o f s s.site c e)).flags).elemD s.here.pos).port (f.dst.toNat - 24)) _ = _
    rw [port, flights, group]
    rfl

/-- R19, R24, R25, R42: a result of latency 1 lands where its slot says, on an element of any kind. -/
theorem landsNow_of_delay (hat : Claims.At s c e) (now : o.atOnce (lookAt o f s s.site c e) = true) (h0 : o.delay ≠ 0)
    (hd : sh.d = .result) (hm : o.mute (lookAt o f s s.site c e) = false) (free : c.behindReqs s.here.pos f.dst.toNat = false) :
    Claims.LandsNow f s.here.pos c e (Claims.operands o.opc f s c e) (o.res (lookAt o f s s.site c e))
      (deliveredCore o sh (lookAt o f s s.site c e) c) :=
  ⟨flags_deliveredCore o sh f s c e hat now, reg_deliveredCore o sh f s c e now h0 hd hm,
    port_deliveredCore o sh f s c e hat now hd hm free⟩

/-- R24: what a ready slot's fire is, where its further effects change the machine by `acts`. -/
theorem fires_with (mk : Fields → Instr) (runs : RunsOp (mk, o)) (hat : Claims.At s c e) (hsh : shapeOf o.opc = some sh)
    (room : Claims.HasRoom o f s c e) (ready : slotStatus o f s s.site = .ready) (htake : o.take = 1) (c₁ : CoreCtx)
    (acts : Acts s.key (operandState o sh (lookAt o f s s.site c e))
      (o.effect (lookAt o f s s.site c e) (operandState o sh (lookAt o f s s.site c e)))
      (deliveredCore o sh (lookAt o f s s.site c e) c) c₁)
    (same : SameParts sh f.dst.toNat s.here.pos (deliveredCore o sh (lookAt o f s s.site c e) c) c₁) :
    ∃ t c', exec (mk f) s = .next t ∧ t.core? s.key = some c' ∧ Claims.Kept sh f s c e t c' ∧ Claims.Quiet s t ∧
      Counted s.here.pos (operandState o sh (lookAt o f s s.site c e)) t c₁ c' := by
  obtain ⟨c', core, kept, counted⟩ := fires_of_acts o sh f s c e hat room htake _ c₁ rfl acts same
  exact ⟨_, c', (runs f s).trans (runOp_ready o f s c e sh hsh hat.core hat.elem ready), core, kept,
    quiet_trans (quiet_operandState o sh _) counted.quiet, counted⟩

end

/-! ### The value of an ID selector (R42, R148) -/

theorem fixedTiming_of (s : State) (ctx : Nat) (tm : Team) (h : s.team? ctx = some tm) : s.fixedTiming ctx = tm.launch.ft := by
  rw [State.fixedTiming, h]; rfl

theorem Flags.word_eq (x : Flags) : x.word =
    (if x.nv then 2 ^ 0 else 0) + (if x.dz then 2 ^ 1 else 0) + (if x.of then 2 ^ 2 else 0) + (if x.uf then 2 ^ 3 else 0) +
      (if x.nx then 2 ^ 4 else 0) + (if x.io then 2 ^ 5 else 0) + (if x.tc then 2 ^ 6 else 0) := by
  obtain ⟨nv, dz, of, uf, nx, io, tc⟩ := x
  have weigh (b : Bool) (n : Nat) : n * b2n b = if b then n else 0 := by cases b <;> simp [b2n]
  rw [Flags.word, ← weigh, ← weigh, ← weigh, ← weigh, ← weigh, ← weigh, ← weigh]
  simp only [Nat.reducePow, Nat.one_mul]

theorem idValue_eq_identity (f : Fields) (s : State) (c : CoreCtx) (e : Elem) (tm : Team) (r : Run)
    (ht : s.team? s.here.ctx = some tm) (hr : c.run? e.runId = some r) :
    idValue (lookAt idOp f s s.site c e) =
      Claims.identity s c e tm r ((Claims.operands 0xE7 f s c e).a.data.toNat % 256) := by
  have sel : field (Claims.operands 0xE7 f s c e).a.data 0 8 = (Claims.operands 0xE7 f s c e).a.data.toNat % 256 := by
    simp [field]
  have ft := fixedTiming_of s s.here.ctx tm ht
  unfold idValue Claims.identity
  rw [show (lookAt idOp f s s.site c e).i = Claims.operands 0xE7 f s c e from rfl, sel]
  simp only [lookAt, State.site, State.key, ht, hr, ft, Option.map_some, Option.getD_some, eidOf, Flags.word_eq]
  generalize (Claims.operands 0xE7 f s c e).a.data.toNat % 256 = n
  split <;> simp_all [b2n]

/-- R42, R148: what a clear leaves of the flags, but for those of results of this cycle. -/
theorem clearFlags_flags (e : Elem) (a : W64) :
    (e.clearFlags (Flags.ofNat (field a 8 7))).flags = (Claims.cleared e.flags a).or e.landed := by
  have bit (i : Nat) (h : i < 7) : (field a 8 7 / 2 ^ i % 2 == 1) = a.getLsbD (8 + i) := by
    have : (a.extractLsb' 8 7).getLsbD i = a.getLsbD (8 + i) := by simp [h]
    rw [← this, BitVec.getLsbD, Nat.testBit_eq_decide_div_mod_eq]
    exact beq_eq_decide _ _
  have named : Flags.ofNat (field a 8 7) =
      ⟨a.getLsbD 8, a.getLsbD 9, a.getLsbD 10, a.getLsbD 11, a.getLsbD 12, a.getLsbD 13, a.getLsbD 14⟩ := by
    unfold Flags.ofNat
    simp only [bit 0, bit 1, bit 2, bit 3, bit 4, bit 5, bit 6, Nat.reduceLT, Nat.reduceAdd]
  rw [named]; rfl

/-! ### The three reads -/

/-- The cleared flags are none of the parts that R24 counts. -/
theorem SameParts.clearFlags (sh : Shape) (d pos : Nat) (c : CoreCtx) (m : Flags) :
    SameParts sh d pos c (c.modElem pos fun e => e.clearFlags m) := by
  have here := c.elemD_modElem_same pos fun e => e.clearFlags m
  exact ⟨fun _ => by rw [here]; rfl, fun _ => by rw [here]; rfl, fun _ => by rw [here]; rfl, fun _ _ => by rw [here]; rfl,
    fun p hp => CoreCtx.elem?_modElem_other c _ _ _ hp.symm⟩

/-- R147: a read without further effects gives its value, and nothing else changes. -/
theorem readFires (mk : Fields → Instr) (o : Op) (runs : RunsOp (mk, o)) (delay : o.delay = 1) (mute : ∀ l, o.mute l = false)
    (htake : o.take = 1) (f : Fields) (s : State) (c : CoreCtx) (e : Elem) (sh : Shape) (hat : Claims.At s c e)
    (hsh : shapeOf o.opc = some sh) (hd : sh.d = .result) (room : Claims.HasRoom o f s c e)
    (ready : slotStatus o f s s.site = .ready) (still : ∀ x, o.effect (lookAt o f s s.site c e) x = x) :
    ∃ t c', exec (mk f) s = .next t ∧ t.core? s.key = some c' ∧ Claims.Kept sh f s c e t c' ∧ Claims.Quiet s t ∧
      (c.behindReqs s.here.pos f.dst.toNat = false → Claims.LandsNow f s.here.pos c e (Claims.operands o.opc f s c e)
        (o.res (lookAt o f s s.site c e)) c') := by
  have now : o.atOnce (lookAt o f s s.site c e) = true := by simp [Op.atOnce, delay]
  obtain ⟨t, c', exec, core, kept, quiet, counted⟩ := fires_with o sh f s c e mk runs hat hsh room ready htake _ (.of_eq _ (still _))
    (.of_elems rfl)
  exact ⟨t, c', exec, core, kept, quiet, fun free =>
    counted.landsNow (landsNow_of_delay o sh f s c e hat now (by rw [delay]; decide) hd (mute _) free)⟩

/-- R42, R148: ID with selector 0x07 reads the flags and clears those it names. -/
theorem clearingIdFires (f : Fields) (s : State) (c : CoreCtx) (e : Elem) (hat : Claims.At s c e) (room : Claims.HasRoom idOp f s c e)
    (ready : slotStatus idOp f s s.site = .ready) (sel : field (Claims.operands 0xE7 f s c e).a.data 0 8 = 7) :
    ∃ t c', exec (.id f) s = .next t ∧ t.core? s.key = some c' ∧ Claims.Kept .da f s c e t c' ∧ Claims.Quiet s t ∧
      (c'.elemD s.here.pos).flags = (Claims.cleared e.flags (Claims.operands 0xE7 f s c e).a.data).or e.landed ∧
      (f.dst.toNat ≤ 11 → (c'.elemD s.here.pos).reg f.dst.toNat =
        ⟨w64 (idValue (lookAt idOp f s s.site c e)), .i64, Claims.taint (Claims.operands 0xE7 f s c e), true, false⟩) := by
  let a := (Claims.operands 0xE7 f s c e).a.data
  let cd := deliveredCore idOp .da (lookAt idOp f s s.site c e) c
  let c₁ := cd.modElem s.here.pos fun e => e.clearFlags (Flags.ofNat (field a 8 7))
  have acts : Acts s.key (operandState idOp .da (lookAt idOp f s s.site c e))
      (idOp.effect (lookAt idOp f s s.site c e) (operandState idOp .da (lookAt idOp f s s.site c e))) cd c₁ := by
    show Acts s.key _ (if field a 0 8 = 7 then _ else _) _ _
    rw [if_pos sel]
    exact .modElem _ _ _ _ _
  obtain ⟨t, c', exec, core, kept, quiet, counted⟩ :=
    fires_with idOp .da f s c e .id (fun _ _ => rfl) hat rfl room ready rfl c₁ acts (.clearFlags _ _ _ _ _)
  obtain ⟨ps, elem⟩ := counted.elem
  have here : c₁.elemD s.here.pos = (cd.elemD s.here.pos).clearFlags (Flags.ofNat (field a 8 7)) := CoreCtx.elemD_modElem_same _ _ _
  have flags : (cd.elemD s.here.pos).flags = e.flags := by
    refine (flags_deliveredCore idOp .da f s c e hat rfl).trans ?_
    show e.flags.or Flags.none = e.flags
    simp [Flags.or, Flags.none]
  have landed : (cd.elemD s.here.pos).landed = e.landed := by
    obtain ⟨e', delivered, rest, -, -⟩ := deliveredCore_elem idOp .da (lookAt idOp f s s.site c e) c
    exact (congrArg Elem.landed delivered.rest).trans ((congrArg Elem.landed rest).trans
      (show (c.elemD s.here.pos).landed = _ by rw [c.elemD_of _ e hat.elem]))
  refine ⟨t, c', exec, core, kept, quiet, ?_, fun h => ?_⟩
  · rw [elem, here]
    exact (clearFlags_flags _ _).trans (by rw [flags, landed])
  · rw [elem, here]
    exact reg_deliveredCore idOp .da f s c e rfl (by decide) rfl rfl h

theorem timeCyclesAndIdentity : Claims.TimeCyclesAndIdentity := by
  refine ⟨fun f s c e sh hat _ hsh room ready => ?time, fun f s c e sh hat _ hsh room ready => ?cyc,
    fun f s c e sh hat _ hsh room ready => ?id⟩
  case time =>
    cases hsh
    exact readFires .time timeOp (fun _ _ => rfl) rfl (fun _ => rfl) rfl f s c e _ hat rfl rfl room ready fun _ => rfl
  case cyc =>
    cases hsh
    exact readFires .cyc cycOp (fun _ _ => rfl) rfl (fun _ => rfl) rfl f s c e _ hat rfl rfl room ready fun _ => rfl
  case id =>
    cases hsh
    have sel : field (Claims.operands 0xE7 f s c e).a.data 0 8 = (Claims.operands 0xE7 f s c e).a.data.toNat % 256 := by
      simp [field]
    by_cases h7 : (Claims.operands 0xE7 f s c e).a.data.toNat % 256 = 7
    · obtain ⟨t, c', exec, core, kept, quiet, flags, reg⟩ := clearingIdFires f s c e hat room ready (sel.trans h7)
      refine ⟨t, c', exec, core, kept, quiet, fun tm r ht hr => ⟨fun h => absurd h7 h, fun _ => ⟨flags, fun h => ?_⟩⟩⟩
      rw [reg h, idValue_eq_identity f s c e tm r ht hr]
      rfl
    · have still (x : State) : idOp.effect (lookAt idOp f s s.site c e) x = x := if_neg fun h => h7 (sel.symm.trans h)
      obtain ⟨t, c', exec, core, kept, quiet, lands⟩ :=
        readFires .id idOp (fun _ _ => rfl) rfl (fun _ => rfl) rfl f s c e _ hat rfl rfl room ready still
      refine ⟨t, c', exec, core, kept, quiet, fun tm r ht hr => ⟨fun _ free => ?_, fun h => absurd h h7⟩⟩
      have value : idOp.res (lookAt idOp f s s.site c e) = ⟨BitVec.ofNat 64 (Claims.identity s c e tm r
          ((Claims.operands 0xE7 f s c e).a.data.toNat % 256)), .i64, Claims.taint (Claims.operands 0xE7 f s c e), Flags.none, none⟩ := by
        rw [← idValue_eq_identity f s c e tm r ht hr]; rfl
      exact value ▸ lands free

/-! ### Results behind those of an LE (R136, log 20) -/

/-- A core with a result kept back behind those that its port waits for (R130, R136): it holds its credit and joins the table. -/
theorem deliver_now_behind (o : Op) (sh : Shape) (l : Look) (r : Res) (c : CoreCtx) (now : o.atOnce l = true) (hd : sh.d = .result)
    (hm : o.mute l = false) (h : Claims.onPort l.f) (behind : c.behindReqs l.t.pos l.f.dst.toNat = true) :
    deliver o sh l r c = (c.modElem l.t.pos fun x => x.setFlags r.flags).sendBehind l.t.pos l.t.slot l.f.dst.toNat l.e.runId
      ⟨r.data, r.fmt, r.ctl.getD (toutCtl l.f l.i), r.tnt⟩ := by
  obtain ⟨h24, h27⟩ := h
  have blocked : (c.modElem l.t.pos fun x => x.setFlags r.flags).behindReqs l.t.pos l.f.dst.toNat = true := behind
  have result : ((sh.d == .result || sh.d == .accum) && !o.mute l) = true := by simp [hd, hm]
  have port : codeIsPort l.f.dst.toNat = true := decide_eq_true ⟨h24, h27⟩
  have noReg : ¬ l.f.dst.toNat ≤ 11 := by omega
  unfold deliver
  simp only [now, result, if_true, Bool.not_true, Bool.false_eq_true, if_false, noReg, port, blocked]

/-- R130, R136: the youngest entry of the table once a result has joined it. -/
theorem CoreCtx.reqs_joinReqs (c : CoreCtx) (pos slot dst run : Nat) (t : Token) :
    ∃ r, ((c.joinReqs pos slot dst run t).le pos).reqs = (c.le pos).reqs ++ [r] ∧ r.kind = .sent ∧ r.dst = dst ∧
      r.st = .served [t] := by
  let r : LReq :=
    ⟨c.nextReq, .sent, slot, 0, 0, [], 0, dst, t.tnt, t.ctl, 0, 0, 0#64, run, c.groupOf run, [], true, [], 0, .served [t], 0, true⟩
  exact ⟨r, congrArg LE.reqs (c.le_modLe_same pos fun x => { x with reqs := x.reqs ++ [r] }), rfl, rfl, rfl⟩

/-- R136: the table of an LE once a result has joined it, and the credit that the result holds. -/
theorem sendBehind_joins (c : CoreCtx) (pos slot dst run : Nat) (t : Token) (h : 24 ≤ dst ∧ dst ≤ 27) :
    (∃ r, ((c.sendBehind pos slot dst run t).le pos).reqs = (c.le pos).reqs ++ [r] ∧ r.kind = .sent ∧ r.dst = dst ∧
      r.st = .served [t]) ∧
    (((c.sendBehind pos slot dst run t).elemD pos).port (dst - 24)).recvs = Claims.oneLess ((c.elemD pos).port (dst - 24)).recvs := by
  constructor
  · exact (c.holdCredit pos (dst - 24)).reqs_joinReqs pos slot dst run t
  · rw [CoreCtx.sendBehind, CoreCtx.elemD_joinReqs, CoreCtx.holdCredit, CoreCtx.elemD_modElem_same]
    exact congrArg Port.recvs (at_upd_same _ _ _ _ (by omega))

/-- R136, log 20: a read for a port with results outstanding keeps its credit and its place, if its further effects leave both. -/
theorem readKeepsOrder (mk : Fields → Instr) (o : Op) (runs : RunsOp (mk, o)) (delay : o.delay = 1) (mute : ∀ l, o.mute l = false)
    (entries : ∀ l, o.entries l = 0) (htake : o.take = 1) (f : Fields) (s : State) (c : CoreCtx) (e : Elem) (sh : Shape)
    (hat : Claims.At s c e) (hsh : shapeOf o.opc = some sh) (hd : sh.d = .result) (ready : slotStatus o f s s.site = .ready)
    (port : Claims.onPort f) (behind : c.behindReqs s.here.pos f.dst.toNat = true) (g : CoreCtx → CoreCtx)
    (acts : ∀ x y, Acts s.key x (o.effect (lookAt o f s s.site c e) x) y (g y))
    (same : ∀ y d, SameParts sh d s.here.pos y (g y)) (les : ∀ y, (g y).les = y.les) :
    ∃ t c' r tok, exec (mk f) s = .next t ∧ t.core? s.key = some c' ∧
      (c'.le s.here.pos).reqs = (c.le s.here.pos).reqs ++ [r] ∧ r.kind = .sent ∧ r.dst = f.dst.toNat ∧ r.st = .served [tok] ∧
      ((c'.elemD s.here.pos).port (f.dst.toNat - 24)).recvs = Claims.oneLess (e.port (f.dst.toNat - 24)).recvs := by
  have now : o.atOnce (lookAt o f s s.site c e) = true := by simp [Op.atOnce, delay]
  obtain ⟨es, fl, grown⟩ := takeOperands_grown o sh (s.site.takes f) s.here.pos c
  obtain ⟨qs, rs, shape⟩ := takeOperands_shape o sh (s.site.takes f) s.here.pos c
  have kept := deliver_now_behind o sh (lookAt o f s s.site c e) (o.res (lookAt o f s s.site c e))
    (takeOperands o sh (s.site.takes f) s.here.pos c) now hd (mute _) port (by rw [grown]; exact behind)
  obtain ⟨t, c', exec, core, -, -, counted⟩ := fires_with o sh f s c e mk runs hat hsh (.inl (entries _)) ready htake _ (acts _ _)
    (same _ _)
  obtain ⟨ps, elem⟩ := counted.elem
  have les' : (c'.le s.here.pos) = (deliveredCore o sh (lookAt o f s s.site c e) c).le s.here.pos :=
    (counted.le _).trans (by rw [CoreCtx.le, les, CoreCtx.le])
  have ports : (c'.elemD s.here.pos).port (f.dst.toNat - 24) =
      ((deliveredCore o sh (lookAt o f s s.site c e) c).elemD s.here.pos).port (f.dst.toNat - 24) := by
    rw [elem]
    exact (same _ 0).ports _ (.inl (by omega))
  rw [show deliveredCore o sh (lookAt o f s s.site c e) c = _ from kept] at les' ports
  obtain ⟨⟨r, reqs, kind, dst, st⟩, recvs⟩ := sendBehind_joins ((takeOperands o sh (s.site.takes f) s.here.pos c).modElem s.here.pos
    fun x => x.setFlags (o.res (lookAt o f s s.site c e)).flags) s.here.pos s.here.idx f.dst.toNat e.runId
    ⟨_, _, (o.res (lookAt o f s s.site c e)).ctl.getD (toutCtl f (lookAt o f s s.site c e).i), _⟩ port
  refine ⟨t, c', r, _, exec, core, (congrArg LE.reqs les').trans (reqs.trans ?_), kind, dst, st,
    (congrArg Port.recvs ports).trans (recvs.trans ?_)⟩
  · show ((takeOperands o sh (s.site.takes f) s.here.pos c).le s.here.pos).reqs ++ [r] = _
    rw [grown]
    rfl
  · rw [CoreCtx.elemD_modElem_same, shape, c.elemD_of _ e hat.elem]
    rfl

theorem endpointResultsKeepTheirOrder : Claims.EndpointResultsKeepTheirOrder := by
  refine List.forall_iff_forall_mem.1 ⟨?time, ?cyc, ?id⟩ <;> intro f s c e hat ready port behind
  case time =>
    exact readKeepsOrder .time timeOp (fun _ _ => rfl) rfl (fun _ => rfl) (fun _ => rfl) rfl f s c e _ hat rfl rfl ready port behind
      id (fun x y => .refl _ x y) (fun _ _ => .of_elems rfl) fun _ => rfl
  case cyc =>
    exact readKeepsOrder .cyc cycOp (fun _ _ => rfl) rfl (fun _ => rfl) (fun _ => rfl) rfl f s c e _ hat rfl rfl ready port behind
      id (fun x y => .refl _ x y) (fun _ _ => .of_elems rfl) fun _ => rfl
  case id =>
    refine readKeepsOrder .id idOp (fun _ _ => rfl) rfl (fun _ => rfl) (fun _ => rfl) rfl f s c e _ hat rfl rfl ready port behind
      (fun y => if field (Claims.operands 0xE7 f s c e).a.data 0 8 = 7 then
        y.modElem s.here.pos fun x => x.clearFlags (Flags.ofNat (field (Claims.operands 0xE7 f s c e).a.data 8 7)) else y)
      (fun x y => ?_) (fun y d => ?_) fun y => ?_
    · show Acts s.key x (if field (Claims.operands 0xE7 f s c e).a.data 0 8 = 7 then _ else _) _ _
      split
      · exact .modElem _ _ _ _ _
      · exact .refl _ _ _
    · split
      · exact .clearFlags _ _ _ _ _
      · exact .of_elems rfl
    · split <;> rfl

/-- Settles O30: what the three reads give, and where a result waits on an LE. -/
theorem readsOfTimeAndIdentity : Obligations.ReadsOfTimeAndIdentity := ⟨timeCyclesAndIdentity, endpointResultsKeepTheirOrder⟩

end Sys2Proof.Machine
end

