-- ==== Sys2Proof/Proofs/MatrixRows.lean ====
section
/-! PROOF. O20: an MMA row leaves with its fire and lands in its accumulator row four cycles later (R43, R44, R106, R107). -/

namespace Sys2Proof.Machine

/-! ### The MEs of a core -/

theorem CoreCtx.me_modMe_same (c : CoreCtx) (p : Nat) (g : ME → ME) : (c.modMe p g).me p = g (c.me p) := by
  simp [CoreCtx.me, CoreCtx.modMe, Assoc.get?_put_same]

theorem CoreCtx.me_modMe_other (c : CoreCtx) (p q : Nat) (g : ME → ME) (h : p ≠ q) : (c.modMe p g).me q = c.me q := by
  simp [CoreCtx.me, CoreCtx.modMe, Assoc.get?_put_other _ _ _ _ h]

theorem ME.bank_setBank_same (m : ME) (n : Nat) (b : Bank) (h : n < 8) : (m.setBank n b).bank n = b := at_upd_same _ _ _ _ h

theorem ME.bank_setBank_other (m : ME) (n n' : Nat) (b : Bank) (h : n ≠ n') : (m.setBank n b).bank n' = m.bank n' :=
  at_upd_other _ _ _ _ _ h

/-! ### The fire (R100, R106, R107) -/

theorem rowFires_runOp : ∀ x ∈ Claims.rowFires, RunsOp (x.1, mmaOp x.2) := by
  refine List.forall_iff_forall_mem.1 ?_
  repeat' apply And.intro
  all_goals exact fun _ _ => rfl

/-- The operands of a row fire: a queue of its slice, and a bank in place of a destination (R55). -/
theorem rowFires_shape : ∀ x ∈ Claims.rowFires, shapeOf x.2 = some ⟨.bank, .queue, .none, false⟩ := by
  refine List.forall_iff_forall_mem.1 ?_
  repeat' apply And.intro
  all_goals rfl

theorem State.core?_modCore_of {s : State} {k : Key} {c : CoreCtx} (g : CoreCtx → CoreCtx) (h : s.core? k = some c) :
    (s.modCore k g).core? k = some (g c) := by
  rw [State.core?_modCore_same, h, Option.map_some]

/-- R251: undo entries are the only thing that a bank's first write in a speculative run leaves of its core. -/
theorem takeUndo_core (l : Look) (s : State) (c : CoreCtx) (h : s.core? l.t.k = some c) :
    ∃ buf filter evc, (takeUndo l s).core? l.t.k = some { c with buf := buf, filter := filter, evc := evc } := by
  unfold takeUndo
  split
  · exact ⟨_, _, _, h⟩
  · rw [State.buffer, State.count_core _ _ _ _ _ (State.core?_modCore_of _ h)]
    exact ⟨_, _, _, rfl⟩

/-- The row of an MMA on its way (R107): what it takes with it of its tokens, its chunk and its scale. -/
def Look.mmaRow (opc : Nat) (l : Look) : MmaLand :=
  let q := sliceOf l.f
  let m := l.c.me l.t.pos
  let t (i : Nat) := ((l.e.queue q).take 2).getD i ⟨0#64, .raw, .data, false⟩
  let b := m.cur.getD ⟨0#512, 0#32, false, 0#4, none⟩
  ⟨l.t.pos, q, l.f.dst.toNat, opc, k1Data l.f.x (t 1).data ++ k1Data l.f.x (t 0).data, b.chunk, b.side,
    if mmaFmt opc = 3 then (takeScale (at' m.holders q (0#32, 0))).1 else 0, (t 0).tnt || (t 1).tnt || b.tnt⟩

/-- R99, R100: an ME of which a row has used its chunk and its scale. -/
def Look.spendRow (opc : Nat) (l : Look) (m : ME) : ME :=
  let q := sliceOf l.f
  let h := (takeScale (at' (l.c.me l.t.pos).holders q (0#32, 0))).2
  { m with
    cur := m.cur.map fun b => b.consume q
    holders := if mmaFmt opc = 3 then upd m.holders q h else m.holders
    gave := if mmaFmt opc = 3 ∧ h.2 = 0 then upd m.gave q true else m.gave }

/-- R107: a core that a row has left. -/
def Look.leaveRow (opc : Nat) (l : Look) (c : CoreCtx) : CoreCtx :=
  let b := (l.c.me l.t.pos).cur.getD ⟨0#512, 0#32, false, 0#4, none⟩
  ((c.modMe l.t.pos (l.spendRow opc)).modElem l.t.pos fun e => e.landFlags { Flags.none with tc := readsT2Ten opc b.chunk }).fly
    (c.cyclesOf l.t.pos 4) l.e.runId (.mma (l.mmaRow opc))

theorem mmaEffect_eq (opc : Nat) (l : Look) (s : State) : mmaEffect opc l s = (takeUndo l s).modCore l.t.k (l.leaveRow opc) := rfl

theorem me_leaveRow (opc : Nat) (l : Look) (c : CoreCtx) : (l.leaveRow opc c).me l.t.pos = l.spendRow opc (c.me l.t.pos) :=
  CoreCtx.me_modMe_same _ _ _

theorem queue_leaveRow (opc : Nat) (l : Look) (c : CoreCtx) (q : Nat) :
    ((l.leaveRow opc c).elemD l.t.pos).queue q = (c.elemD l.t.pos).queue q := by
  rw [Look.leaveRow, CoreCtx.elemD_fly, CoreCtx.elemD_modElem_same]
  rfl

/-- R100, R107: an MMA makes one use of the chunk and sends its row to the accumulator, and changes no bank. -/
theorem mmaEffect_core (opc : Nat) (l : Look) (s : State) (c : CoreCtx) (h : s.core? l.t.k = some c) :
    ∃ c', (mmaEffect opc l s).core? l.t.k = some c' ∧ c'.me l.t.pos = l.spendRow opc (c.me l.t.pos) ∧
      (∀ q, (c'.elemD l.t.pos).queue q = (c.elemD l.t.pos).queue q) ∧
      ∃ g, ⟨c.cyclesOf l.t.pos 4, l.e.runId, g, .mma (l.mmaRow opc)⟩ ∈ c'.flights := by
  obtain ⟨buf, filter, evc, undone⟩ := takeUndo_core l s c h
  exact ⟨_, State.core?_modCore_of _ undone, me_leaveRow _ _ _, queue_leaveRow _ _ _, _,
    List.mem_append_right _ (List.mem_singleton.2 rfl)⟩

theorem rowFiresLeave : Claims.RowFiresLeave := by
  intro x hx f s c e hat hme hsa hdqa hval room ready q t0 t1 rest b hqueue hcur
  let o := mmaOp x.2
  let sh : Shape := ⟨.bank, .queue, .none, false⟩
  let l := lookAt o f s s.site c e
  have hsh : shapeOf o.opc = some sh := rowFires_shape x hx
  have here : c.elemD s.here.pos = e := c.elemD_of _ e hat.elem
  have free (c : CoreCtx) : c.behindReqs s.here.pos f.dst.toNat = false := by rw [CoreCtx.behindReqs, hme]; rfl
  have keep : s.site.takes f = f := by
    have : s.site.keep = 0 := by
      show (if kindAt s.here.pos == .me then s.here.val / 2 else 0) = 0
      rw [hme]; show s.here.val / 2 = 0; omega
    rw [Site.takes, if_pos this]
  have taken : q ∈ dqQueues sh f := (mem_dqQueues sh f q).2 ⟨by omega, .inl ⟨rfl, hdqa, by omega⟩⟩
  obtain ⟨es, fl, grown⟩ : c.Grown (deliveredCore o sh l c) :=
    (takeOperands_grown o sh _ _ c).trans (deliver_grown o sh l _ _ (free _) fun h => absurd h Nat.one_ne_zero)
  obtain ⟨eT, delivered, -, -, queue⟩ := deliveredCore_elem o sh l c
  obtain ⟨c₁, effect, spent, queues, g, flight⟩ := mmaEffect_core x.2 l (operandState o sh l) _
    ((acts_operandState o sh l c).core hat.core)
  obtain ⟨v, core⟩ := fireSlot_core_of (sh := sh) (spilled_of_hasRoom o f s c e room) c₁ effect
  obtain ⟨es', fl', updated⟩ := updatePred_grown o sh l (o.res l) c₁
  obtain ⟨ps, preds⟩ := updatePred_shape o sh l (o.res l) c₁
  have mes : (deliveredCore o sh l c).me s.here.pos = c.me s.here.pos := by rw [grown]; rfl
  have flights : (updatePred o sh l (o.res l) c₁).flights = c₁.flights := updatePred_flights _ _ _ _ _
  have use : (c₁.me s.here.pos).cur = some (Claims.used b q) := by
    rw [show c₁.me s.here.pos = _ from spent, Look.spendRow, show (deliveredCore o sh l c).me l.t.pos = _ from mes, hcur]
    rfl
  refine ⟨_, _, (rowFires_runOp x hx f s).trans (runOp_ready o f s c e sh hsh hat.core hat.elem ready), core, ?_, ?_, ?_,
    _, flights ▸ flight, _, ?_, rfl, rfl, rfl, rfl, rfl, rfl, ?_⟩
  · have after : (c₁.elemD s.here.pos).queue q = rest := by
      refine (queues q).trans ?_
      rw [show ((deliveredCore o sh l c).elemD l.t.pos).queue q = eT.queue q by rw [delivered.rest]; rfl, queue q,
        show l.t.takes l.f = f from keep, if_pos taken, show c.elemD l.t.pos = e from here, hqueue]
      rfl
    exact (congrArg (Elem.queue · q) preds).trans after
  · rw [updated]; exact use
  · rw [updated]; exact (congrArg ME.banks spent).trans (show ((deliveredCore o sh l c).me l.t.pos).banks = _ from congrArg ME.banks mes)
  · show (deliveredCore o sh l c).cyclesOf s.here.pos 4 = _
    rw [grown]; rfl
  · have tokens : (e.queue (sliceOf f)).take 2 = [t0, t1] := by rw [show sliceOf f = q from rfl, hqueue]; rfl
    simp only [Look.mmaRow, l, lookAt, State.site, tokens, hcur]
    exact ⟨rfl, rfl, rfl, rfl⟩

/-! ### The landing (R43, R44, R107) -/

/-- R43, R44: one element of the row that lands, from the old one and its bank's decay. -/
def MmaLand.element (m : MmaLand) (γ : FVal) (j : Nat) (x : W32) : W32 × Flags :=
  if mmaInt m.opc then mmaIntElem x γ (mmaZ m.opc) (mmaD m.opc) (m.intSum j)
  else
    let r := mmaElem (fp32.decode x.toNat) γ (mmaZ m.opc) (mmaD m.opc) ((List.range m.depth).map m.aVal)
      ((List.range m.depth).map fun k => m.bVal k j)
    (w32 r.bits, r.flags)

/-- One element of row `i` made anew, with its flags. -/
def Bank.step (i : Nat) (v : Nat → W32 → W32 × Flags) (acc : Bank × Flags) (j : Nat) : Bank × Flags :=
  (acc.1.set i j (v j (acc.1.at i j)).1, acc.2.or (v j (acc.1.at i j)).2)

/-- What making the first `n` elements of row `i` anew leaves of a bank. -/
theorem Bank.foldl_step (i : Nat) (hi : i < 4) (v : Nat → W32 → W32 × Flags) (b : Bank) (fl : Flags) (n : Nat) (hn : n ≤ 4) :
    let b' := ((List.range n).foldl (Bank.step i v) (b, fl)).1
    b'.tnt = b.tnt ∧
    ∀ i' < 4, ∀ j' < 4, b'.at i' j' = if i' = i ∧ j' < n then (v j' (b.at i' j')).1 else b.at i' j' := by
  induction n with
  | zero => exact ⟨rfl, fun _ _ _ _ => by simp⟩
  | succ n ih =>
    obtain ⟨tnt, elems⟩ := ih (by omega)
    rw [List.range_succ, List.foldl_append, List.foldl_cons, List.foldl_nil]
    generalize (List.range n).foldl (Bank.step i v) (b, fl) = acc at tnt elems
    refine ⟨tnt, fun i' hi' j' hj' => ?_⟩
    by_cases h : i' = i ∧ j' = n
    · obtain ⟨rfl, rfl⟩ := h
      rw [if_pos ⟨rfl, Nat.lt_succ_self _⟩]
      refine (at_upd_same _ _ _ _ (by omega)).trans ?_
      rw [elems i' hi' j' hj', if_neg (by omega)]
    · refine (at_upd_other _ _ _ _ _ (by omega)).trans ((elems i' hi' j' hj').trans ?_)
      by_cases hrow : i' = i ∧ j' < n
      · rw [if_pos hrow, if_pos ⟨hrow.1, by omega⟩]
      · rw [if_neg hrow, if_neg (by omega)]

/-- R43, R44, R107: the bank after a landing. -/
theorem MmaLand.land_eq (m : MmaLand) (b : Bank) :
    (m.land b).1 = { ((List.range 4).foldl (Bank.step m.slice (m.element (fp32.decode b.gamma.toNat))) (b, Flags.none)).1 with
      tnt := ((List.range 4).foldl (Bank.step m.slice (m.element (fp32.decode b.gamma.toNat))) (b, Flags.none)).1.tnt || m.tnt } := by
  have step : (fun (acc : Bank × Flags) (j : Nat) =>
      let c := acc.1.at m.slice j
      if mmaInt m.opc then
        let (v, f) := mmaIntElem c (fp32.decode b.gamma.toNat) (mmaZ m.opc) (mmaD m.opc) (m.intSum j)
        (acc.1.set m.slice j v, acc.2.or f)
      else
        let r := mmaElem (fp32.decode c.toNat) (fp32.decode b.gamma.toNat) (mmaZ m.opc) (mmaD m.opc) ((List.range m.depth).map m.aVal)
          ((List.range m.depth).map fun k => m.bVal k j)
        (acc.1.set m.slice j (w32 r.bits), acc.2.or r.flags)) =
      Bank.step m.slice (m.element (fp32.decode b.gamma.toNat)) := by
    funext acc j
    unfold Bank.step MmaLand.element
    dsimp only
    split <;> rfl
  unfold MmaLand.land
  dsimp only
  rw [← step]

/-- R107: a core on whose accumulator a row has landed. -/
def MmaLand.landOn (m : MmaLand) (rest : List Flight) (c : CoreCtx) : CoreCtx :=
  let r := m.land ((c.me m.pos).bank m.bank)
  (CoreCtx.modMe { c with flights := rest } m.pos fun x => x.setBank m.bank r.1).modElem m.pos fun e => e.landFlags r.2

theorem MmaLand.me_landOn_same (m : MmaLand) (rest : List Flight) (c : CoreCtx) :
    (m.landOn rest c).me m.pos = (c.me m.pos).setBank m.bank (m.land ((c.me m.pos).bank m.bank)).1 :=
  CoreCtx.me_modMe_same { c with flights := rest } m.pos fun x => x.setBank m.bank (m.land ((c.me m.pos).bank m.bank)).1

theorem MmaLand.me_landOn_other (m : MmaLand) (rest : List Flight) (c : CoreCtx) (p : Nat) (h : m.pos ≠ p) :
    (m.landOn rest c).me p = c.me p :=
  CoreCtx.me_modMe_other { c with flights := rest } m.pos p (fun x => x.setBank m.bank (m.land ((c.me m.pos).bank m.bank)).1) h

/-- A row on its way to the accumulator. -/
def Cargo.isRow : Cargo → Bool
  | .mma _ => true
  | _ => false

theorem rowFiresLand : Claims.RowFiresLand := by
  intro s c m r g pre post hc hflights hpre hslice hbank hopc old z d γ
  have int : mmaInt m.opc = decide (0xA0 ≤ m.opc) := by
    rw [mmaInt, mmaFmt]
    exact decide_eq_decide.2 (by omega)
  have notMma (y : Flight) (hy : y ∈ pre) (h0 : y.left = 0) : y.cargo.isRow = false := by
    cases h : y.cargo with
    | mma x => exact absurd h (hpre y hy h0 x)
    | _ => rfl
  have due : takeDue Cargo.isRow c.flights = some (⟨0, r, g, .mma m⟩, pre ++ post) := by
    rw [hflights]
    exact takeDue_append Cargo.isRow pre post ⟨0, r, g, .mma m⟩ rfl rfl notMma
  obtain ⟨tnt, elems⟩ := old.foldl_step m.slice hslice (m.element γ) Flags.none 4 (Nat.le_refl 4)
  have land := m.land_eq old
  have entries (i j : Nat) (hi : i < 4) (hj : j < 4) : Claims.entry (m.land old).1 i j =
      if i = m.slice ∧ j < 4 then (m.element γ j (Claims.entry old i j)).1 else Claims.entry old i j := by
    rw [land]
    exact elems i hi j hj
  have bank : ((m.landOn (pre ++ post) c).me m.pos).bank m.bank = (m.land old).1 := by
    rw [m.me_landOn_same, ME.bank_setBank_same _ _ _ hbank]
  refine ⟨_, m.landOn (pre ++ post) c, ?_, State.core?_modCore_of (m.landOn (pre ++ post)) hc, rfl, fun j hj => ?_,
    fun i hi j hj hne => ?_, ?_, fun n _ hn => ?_, fun p hp => ?_⟩
  · show execMmaRowLanding s = _
    rw [execMmaRowLanding, State.onCore_of s c _ hc]
    dsimp only
    split
    · next heq => cases heq.symm.trans due; rfl
    · next hne => exact (hne _ _ _ _ _ due).elim
  · rw [bank, entries _ _ hslice hj, if_pos ⟨rfl, hj⟩, MmaLand.element, int]
    by_cases hint : 0xA0 ≤ m.opc
    · rw [if_pos (decide_eq_true hint), if_pos hint]; rfl
    · rw [if_neg (by simpa using hint), if_neg hint]; rfl
  · rw [bank, entries _ _ hi hj, if_neg fun h => hne h.1]
  · rw [bank, land, tnt]
  · rw [m.me_landOn_same, ME.bank_setBank_other _ _ _ _ hn.symm]
  · exact m.me_landOn_other _ _ _ hp.symm

/-- Settles O20: the fire of a row and its landing. -/
theorem matrixRowsFireAndLand : Obligations.MatrixRowsFireAndLand := ⟨rowFiresLeave, rowFiresLand⟩

end Sys2Proof.Machine
end

