-- ==== Sys2Proof/Proofs/Codes.lean ====
section
/-! PROOF. O14, its codes: what the codes of a format stand for, in rising order and by their fields (R32, R33, R35, Tables 2.1 and
2.2). -/

namespace Sys2Proof.Machine

open Claims (grid Stands Term arithmeticFormats)

/-! ### The magnitudes of a format -/

/-- The exponent of the least quantum of a format (R38). -/
def FFmt.least (f : FFmt) : ℤ := 1 - (f.bias : ℤ) - f.mb

/-- The quanta that the `k`-th magnitude of a format counts. -/
def FFmt.quanta (f : FFmt) (k : ℕ) : ℕ := if k < 2 ^ f.mb then k else 2 ^ f.mb + k % 2 ^ f.mb

/-- The exponent of the quantum that the `k`-th magnitude counts. -/
def FFmt.quantum (f : FFmt) (k : ℕ) : ℤ := (max 1 (k / 2 ^ f.mb) : ℕ) - (f.bias : ℤ) - f.mb

theorem FFmt.quanta_of_lt (f : FFmt) (k : ℕ) (h : k < 2 ^ f.mb) : f.quanta k = k := if_pos h

theorem FFmt.quanta_of_le (f : FFmt) (k : ℕ) (h : 2 ^ f.mb ≤ k) : f.quanta k = 2 ^ f.mb + k % 2 ^ f.mb := if_neg (by omega)

theorem FFmt.quantum_of_lt (f : FFmt) (k : ℕ) (h : k < 2 ^ f.mb) : f.quantum k = f.least := by
  rw [FFmt.quantum, Nat.div_eq_of_lt h]; rfl

theorem FFmt.quantum_of_le (f : FFmt) (k : ℕ) (h : 2 ^ f.mb ≤ k) : f.quantum k = (k / 2 ^ f.mb : ℕ) - (f.bias : ℤ) - f.mb := by
  rw [FFmt.quantum, Nat.max_eq_right (Nat.div_pos h (Nat.two_pow_pos _))]

/-- R38: a magnitude is its quanta. -/
theorem grid_eq (f : FFmt) (k : ℕ) : grid f k = f.quanta k * (2 : ℚ) ^ f.quantum k := by
  unfold grid FFmt.quanta
  split
  · next h => rw [f.quantum_of_lt k h, FFmt.least]
  · next h => rw [f.quantum_of_le k (by omega)]

/-- The quanta of the next magnitude, where its quantum is the same. -/
theorem FFmt.next_of_lt (f : FFmt) (k : ℕ) (h : k < 2 ^ f.mb ∨ k % 2 ^ f.mb + 1 < 2 ^ f.mb) :
    f.quanta (k + 1) = f.quanta k + 1 ∧ f.quantum (k + 1) = f.quantum k := by
  have pos : 0 < 2 ^ f.mb := Nat.two_pow_pos _
  have split := Nat.mod_add_div k (2 ^ f.mb)
  by_cases last : k + 1 = 2 ^ f.mb
  · rw [f.quanta_of_le _ (by omega), f.quanta_of_lt _ (by omega), f.quantum_of_le _ (by omega), f.quantum_of_lt _ (by omega),
      last, Nat.mod_self, Nat.div_self pos]
    exact ⟨rfl, rfl⟩
  · have room : k % 2 ^ f.mb + 1 < 2 ^ f.mb := by
      rcases h with h | h
      · rw [Nat.mod_eq_of_lt h]; omega
      · exact h
    obtain ⟨quotient, rest⟩ := (Nat.div_mod_unique (a := k + 1) (d := k / 2 ^ f.mb) (c := k % 2 ^ f.mb + 1) pos).2 ⟨by omega, room⟩
    rw [FFmt.quanta, FFmt.quanta, FFmt.quantum, FFmt.quantum, quotient, rest]
    refine ⟨?_, rfl⟩
    split <;> split <;> omega

/-- The next magnitude of the last one with its quantum. -/
theorem FFmt.next_of_full (f : FFmt) (k : ℕ) (normal : 2 ^ f.mb ≤ k) (full : k % 2 ^ f.mb + 1 = 2 ^ f.mb) :
    f.quanta k + 1 = 2 ^ f.mb * 2 ∧ f.quanta (k + 1) = 2 ^ f.mb ∧ f.quantum (k + 1) = f.quantum k + 1 := by
  have pos : 0 < 2 ^ f.mb := Nat.two_pow_pos _
  have split := Nat.mod_add_div k (2 ^ f.mb)
  have next : k + 1 = 2 ^ f.mb * (k / 2 ^ f.mb + 1) := by rw [Nat.mul_add]; omega
  refine ⟨?_, ?_, ?_⟩
  · rw [f.quanta_of_le _ normal]; omega
  · rw [f.quanta_of_le _ (by omega), next, Nat.mul_mod_right, Nat.add_zero]
  · rw [f.quantum_of_le _ (by omega), f.quantum_of_le _ normal, next, Nat.mul_div_cancel_left _ pos]
    push_cast; ring

/-- R38: the next magnitude is one quantum more. -/
theorem grid_succ (f : FFmt) (k : ℕ) : grid f (k + 1) = (f.quanta k + 1) * (2 : ℚ) ^ f.quantum k := by
  have rest := Nat.mod_lt k (Nat.two_pow_pos f.mb)
  rw [grid_eq]
  by_cases full : 2 ^ f.mb ≤ k ∧ k % 2 ^ f.mb + 1 = 2 ^ f.mb
  · obtain ⟨double, quanta, quantum⟩ := f.next_of_full k full.1 full.2
    have double' : (f.quanta k : ℚ) + 1 = 2 ^ f.mb * 2 := by exact_mod_cast double
    rw [quanta, quantum, double', zpow_add_one₀ (by norm_num)]
    push_cast; ring
  · obtain ⟨quanta, quantum⟩ := f.next_of_lt k (by omega)
    rw [quanta, quantum]
    push_cast; ring

theorem grid_strictMono (f : FFmt) : StrictMono (grid f) := strictMono_nat_of_lt_succ fun k => by
  rw [grid_succ, grid_eq]
  have : (0 : ℚ) < 2 ^ f.quantum k := by positivity
  nlinarith

theorem grid_zero (f : FFmt) : grid f 0 = 0 := by
  rw [grid_eq, f.quanta_of_lt _ (Nat.two_pow_pos _)]; simp

theorem grid_nonneg (f : FFmt) (k : ℕ) : 0 ≤ grid f k := grid_zero f ▸ (grid_strictMono f).monotone (Nat.zero_le k)

/-- Quanta are odd and even as their codes are. -/
theorem FFmt.quanta_mod_two (f : FFmt) (hmb : 0 < f.mb) (k : ℕ) : f.quanta k % 2 = k % 2 := by
  obtain ⟨j, hj⟩ : 2 ∣ 2 ^ f.mb := dvd_pow_self 2 (by omega)
  have split := Nat.mod_add_div k (2 ^ f.mb)
  unfold FFmt.quanta
  split
  · rfl
  · have : 2 ^ f.mb * (k / 2 ^ f.mb) = 2 * (j * (k / 2 ^ f.mb)) := by rw [hj, Nat.mul_assoc]
    omega

/-! ### Codes of quanta (R38) -/

theorem FFmt.pack_neg (f : FFmt) (neg : Bool) (n : ℕ) (q : ℤ) :
    f.pack neg n q = (if neg then 2 ^ (f.eb + f.mb) else 0) + f.pack false n q := by
  unfold FFmt.pack FFmt.signBit
  simp only [Bool.false_eq_true, if_false, Nat.zero_add]
  split
  · rfl
  · split
    · rw [Nat.add_assoc]
    · rfl

/-- `n` quanta of 2^`q` are counted as a format counts them. -/
structure FFmt.Counts (f : FFmt) (n : ℕ) (q : ℤ) : Prop where
  least : f.least ≤ q
  normal : q = f.least ∨ 2 ^ f.mb ≤ n
  room : n < 2 ^ (f.mb + 1)

/-- R38: the code of quanta so counted is the one of their magnitude. -/
theorem FFmt.Counts.pack {f : FFmt} {n : ℕ} {q : ℤ} (h : f.Counts n q) :
    f.quanta (f.pack false n q) = n ∧ f.quantum (f.pack false n q) = q := by
  obtain ⟨least, normal, room⟩ := h
  rw [Nat.pow_succ] at room
  have pos : 0 < 2 ^ f.mb := Nat.two_pow_pos _
  unfold FFmt.least at least normal
  by_cases sub : n < 2 ^ f.mb
  · have code : f.pack false n q = n := by rw [FFmt.pack, if_pos sub]; simp
    rw [code, f.quantum_of_lt n sub, f.quanta_of_lt n sub, FFmt.least]
    exact ⟨rfl, by omega⟩
  · obtain ⟨E, hE⟩ : ∃ E, (q + f.mb + f.bias).toNat = E := ⟨_, rfl⟩
    have code : f.pack false n q = (n - 2 ^ f.mb) + 2 ^ f.mb * E := by
      rw [FFmt.pack, if_neg sub, if_pos (by rw [Nat.pow_succ]; exact room), hE, Nat.mul_comm]
      simp [Nat.add_comm]
    obtain ⟨quotient, rest⟩ := (Nat.div_mod_unique (a := f.pack false n q) (d := E) (c := n - 2 ^ f.mb) pos).2 ⟨by omega, by omega⟩
    have above : 2 ^ f.mb ≤ f.pack false n q := by
      have : 2 ^ f.mb * 1 ≤ 2 ^ f.mb * E := Nat.mul_le_mul_left _ (by omega)
      omega
    rw [f.quantum_of_le _ above, f.quanta_of_le _ above, quotient, rest]
    omega

/-- R38: one quantum more has the next code. -/
theorem FFmt.Counts.pack_succ {f : FFmt} {n : ℕ} {q : ℤ} (h : f.Counts n q) : f.pack false (n + 1) q = f.pack false n q + 1 := by
  obtain ⟨least, normal, room⟩ := h
  rw [Nat.pow_succ] at room
  unfold FFmt.least at least normal
  have pos : 0 < 2 ^ f.mb := Nat.two_pow_pos _
  have more : (q + 1 + f.mb + f.bias).toNat * 2 ^ f.mb = (q + f.mb + f.bias).toNat * 2 ^ f.mb + 2 ^ f.mb := by
    rw [show (q + 1 + f.mb + f.bias).toNat = (q + f.mb + f.bias).toNat + 1 by omega, Nat.succ_mul]
  have first : q = 1 - (f.bias : ℤ) - f.mb → (q + f.mb + f.bias).toNat * 2 ^ f.mb = 2 ^ f.mb := by
    intro hq
    rw [show (q + f.mb + f.bias).toNat = 1 by omega, Nat.one_mul]
  unfold FFmt.pack
  simp only [Bool.false_eq_true, if_false, Nat.zero_add, Nat.pow_succ]
  by_cases sub : n < 2 ^ f.mb
  · have := first (by omega)
    split_ifs <;> omega
  · split_ifs <;> omega

theorem FFmt.Counts.grid_pack {f : FFmt} {n : ℕ} {q : ℤ} (h : f.Counts n q) : grid f (f.pack false n q) = n * (2 : ℚ) ^ q := by
  rw [grid_eq, h.pack.1, h.pack.2]

theorem FFmt.Counts.grid_pack_succ {f : FFmt} {n : ℕ} {q : ℤ} (h : f.Counts n q) :
    grid f (f.pack false n q + 1) = (n + 1) * (2 : ℚ) ^ q := by
  rw [grid_succ, h.pack.1, h.pack.2]

/-! ### Reading a code by its fields (R32, R33) -/

/-- The sign that a code's top bit gives. -/
theorem FFmt.sign_of_lt (f : FFmt) (b : ℕ) (h : b < 2 ^ (1 + f.eb + f.mb)) :
    decide (b / f.signBit % 2 = 1) = decide (2 ^ (f.eb + f.mb) ≤ b) := by
  have pos : 0 < 2 ^ (f.eb + f.mb) := Nat.two_pow_pos _
  have two : 2 ^ (1 + f.eb + f.mb) = 2 * 2 ^ (f.eb + f.mb) := by rw [Nat.add_assoc, Nat.pow_add]
  refine decide_eq_decide.2 ?_
  rw [FFmt.signBit]
  have top : b / 2 ^ (f.eb + f.mb) < 2 := Nat.div_lt_of_lt_mul (by omega)
  have set : 1 ≤ b / 2 ^ (f.eb + f.mb) ↔ 2 ^ (f.eb + f.mb) ≤ b := by rw [Nat.le_div_iff_mul_le pos, Nat.one_mul]
  rw [← set]
  generalize b / 2 ^ (f.eb + f.mb) = t at top
  omega

/-- R32: a finite code is its sign with the quanta of its exponent and mantissa. -/
theorem stands_of_fields (f : FFmt) (neg : Bool) (ex man : ℕ) :
    Stands (if ex = 0 then .num neg man (1 - (f.bias : ℤ) - f.mb) else .num neg (2 ^ f.mb + man) ((ex : ℤ) - f.bias - f.mb)) neg
      ((if neg then -1 else 1) * (if ex = 0 then (man : ℚ) / 2 ^ f.mb * (2 : ℚ) ^ (1 - (f.bias : ℤ))
        else (1 + (man : ℚ) / 2 ^ f.mb) * (2 : ℚ) ^ ((ex : ℤ) - f.bias))) := by
  have whole : (2 : ℚ) ^ f.mb ≠ 0 := by positivity
  split
  · refine ⟨_, _, rfl, ?_⟩
    rw [zpow_sub₀ (by norm_num) _ (f.mb : ℤ), zpow_natCast]
    field_simp
  · refine ⟨_, _, rfl, ?_⟩
    rw [zpow_sub₀ (by norm_num) _ (f.mb : ℤ), zpow_natCast]
    push_cast
    field_simp

/-- What the special codes of a format are (Table 2.1). -/
theorem special_of_mem (f : FFmt) (hf : f ∈ arithmeticFormats ++ [e2m1]) :
    (f ∈ [fp32, bf16, e5m2] ↔ f.sp = .ieee) ∧ (f = e4m3 ↔ f.sp = .e4m3) ∧ (f.sp = .ieee → (f.eb = 8 ↔ f ≠ e5m2)) := by
  revert f
  decide

/-- R32, R33: the value of a code, by its sign, exponent and mantissa. -/
theorem FFmt.decode_eq (f : FFmt) (b : ℕ) (hb : b < 2 ^ (1 + f.eb + f.mb)) :
    f.decode b =
      if f.sp = .ieee ∧ b / 2 ^ f.mb % 2 ^ f.eb = 2 ^ f.eb - 1 then
        if b % 2 ^ f.mb = 0 then .inf (decide (2 ^ (f.eb + f.mb) ≤ b))
        else .nan (decide (f.eb = 8) && decide (b % 2 ^ f.mb < 2 ^ (f.mb - 1)))
      else if f.sp = .e4m3 ∧ b / 2 ^ f.mb % 2 ^ f.eb = 15 ∧ b % 2 ^ f.mb = 7 then .nan false
      else if b / 2 ^ f.mb % 2 ^ f.eb = 0 then
        .num (decide (2 ^ (f.eb + f.mb) ≤ b)) (b % 2 ^ f.mb) (1 - (f.bias : ℤ) - f.mb)
      else .num (decide (2 ^ (f.eb + f.mb) ≤ b)) (2 ^ f.mb + b % 2 ^ f.mb)
        (((b / 2 ^ f.mb % 2 ^ f.eb : ℕ) : ℤ) - f.bias - f.mb) := by
  unfold FFmt.decode
  rw [f.sign_of_lt b hb]

theorem codesDecode (f : FFmt) (hf : f ∈ arithmeticFormats ++ [e2m1]) (b : ℕ) (hb : b < 2 ^ (1 + f.eb + f.mb)) :
    let neg := decide (2 ^ (f.eb + f.mb) ≤ b)
    let ex : ℕ := b / 2 ^ f.mb % 2 ^ f.eb
    let man : ℕ := b % 2 ^ f.mb
    if f ∈ [fp32, bf16, e5m2] ∧ ex = 2 ^ f.eb - 1 then
      f.decode b = if man = 0 then .inf neg else .nan (decide (f ≠ e5m2 ∧ man < 2 ^ (f.mb - 1)))
    else if f = e4m3 ∧ b % 128 = 127 then f.decode b = .nan false
    else Stands (f.decode b) neg ((if neg then -1 else 1) *
      (if ex = 0 then (man : ℚ) / 2 ^ f.mb * (2 : ℚ) ^ (1 - (f.bias : ℤ))
        else (1 + (man : ℚ) / 2 ^ f.mb) * (2 : ℚ) ^ ((ex : ℤ) - f.bias))) := by
  intro neg ex man
  obtain ⟨ieee, one, quiet⟩ := special_of_mem f hf
  rw [f.decode_eq b hb]
  by_cases top : f.sp = .ieee ∧ ex = 2 ^ f.eb - 1
  · rw [if_pos top, if_pos (⟨ieee.2 top.1, top.2⟩ : f ∈ [fp32, bf16, e5m2] ∧ ex = 2 ^ f.eb - 1)]
    by_cases zero : man = 0
    · rw [if_pos zero, if_pos zero]
    · rw [if_neg zero, if_neg zero, ← Bool.decide_and, decide_eq_decide.2 (and_congr_left' (quiet top.1))]
  · have code : f.sp = .e4m3 ∧ ex = 15 ∧ man = 7 ↔ f = e4m3 ∧ b % 128 = 127 := by
      rw [← one]
      refine and_congr_right fun h => ?_
      subst h
      show b / 2 ^ 3 % 2 ^ 4 = 15 ∧ b % 2 ^ 3 = 7 ↔ _
      omega
    rw [if_neg top, if_neg fun h : f ∈ [fp32, bf16, e5m2] ∧ ex = 2 ^ f.eb - 1 => top ⟨ieee.1 h.1, h.2⟩]
    by_cases nan : f = e4m3 ∧ b % 128 = 127
    · rw [if_pos nan, if_pos (code.2 nan)]
    · rw [if_neg nan, if_neg (mt code.1 nan)]
      exact stands_of_fields f neg ex man

/-- R35: an E2M1 code is a number at every scale but 0xFF. -/
theorem stands_decodeMx (code e : ℕ) (he : e < 255) (neg : Bool) (x : ℚ) (h : Stands (e2m1.decode code) neg x) :
    Stands (decodeMx code e) neg (x * (2 : ℚ) ^ ((e : ℤ) - 127)) := by
  obtain ⟨m, ev, decoded, rfl⟩ := h
  rw [decodeMx, if_neg (by omega), decoded]
  refine ⟨m, _, rfl, ?_⟩
  rw [mul_assoc, ← zpow_add₀ (by norm_num)]
  congr 2; ring

theorem numbersDecode : Claims.NumbersDecode :=
  ⟨codesDecode, fun code _ => ⟨rfl, fun e he neg x h => stands_decodeMx code e he neg x h⟩⟩

/-! ### Reading a magnitude back (R32) -/

/-- R32: a finite FP32 code by its fields. -/
theorem decode_fp32 (b : ℕ) (hb : b < 2 ^ 32) (finite : b / 2 ^ 23 % 2 ^ 8 ≠ 255) :
    fp32.decode b = if b / 2 ^ 23 % 2 ^ 8 = 0 then .num (decide (2 ^ 31 ≤ b)) (b % 2 ^ 23) fp32.least
      else .num (decide (2 ^ 31 ≤ b)) (2 ^ 23 + b % 2 ^ 23) (((b / 2 ^ 23 % 2 ^ 8 : ℕ) : ℤ) - 127 - 23) := by
  rw [fp32.decode_eq b hb, if_neg fun h => finite h.2, if_neg fun h => absurd h.1 (by decide)]
  rfl

/-- R32: the code of a finite magnitude with its sign decodes to that magnitude. -/
theorem decode_fp32_of_le (neg : Bool) (k : ℕ) (h : k ≤ Claims.largest fp32) :
    fp32.decode ((if neg then 2 ^ (fp32.eb + fp32.mb) else 0) + k) = .num neg (fp32.quanta k) (fp32.quantum k) := by
  replace h : k ≤ 0x7F7FFFFF := h
  change fp32.decode ((if neg then 2 ^ 31 else 0) + k) = _
  obtain ⟨b, hb⟩ : ∃ b, b = (if neg then 2 ^ 31 else 0) + k := ⟨_, rfl⟩
  have small : b < 2 ^ 32 := by cases neg <;> simp at hb <;> omega
  have sign : decide (2 ^ 31 ≤ b) = neg := by cases neg <;> simp at hb <;> simp <;> omega
  obtain ⟨exponent, mantissa⟩ : b / 2 ^ 23 % 2 ^ 8 = k / 2 ^ 23 ∧ b % 2 ^ 23 = k % 2 ^ 23 := by
    cases neg <;> simp at hb <;> omega
  rw [← hb, decode_fp32 b small (by omega), exponent, mantissa, sign]
  by_cases sub : k < 2 ^ 23
  · rw [if_pos (by omega), fp32.quantum_of_lt k sub, fp32.quanta_of_lt k sub, Nat.mod_eq_of_lt sub]
  · have normal : 2 ^ fp32.mb ≤ k := Nat.le_of_not_lt sub
    rw [if_neg (by omega), fp32.quantum_of_le k normal, fp32.quanta_of_le k normal]
    rfl

/-- R32: so it stands for that magnitude under its sign. -/
theorem stands_fp32_of_le (neg : Bool) (k : ℕ) (h : k ≤ Claims.largest fp32) :
    Stands (fp32.decode ((if neg then 2 ^ (fp32.eb + fp32.mb) else 0) + k)) neg ((if neg then -1 else 1) * grid fp32 k) :=
  ⟨_, _, decode_fp32_of_le neg k h, by rw [grid_eq, mul_assoc]⟩

end Sys2Proof.Machine
end

