-- ==== Sys2Proof/Proofs/Rounding.lean ====
section
/-! PROOF. O14, its rounding: a magnitude is cut at the quantum of its format and rounded once (R38 to R41, Table 2.5). Magnitudes are
numbers of an ordered field, so that a reciprocal root is one too. -/

namespace Sys2Proof.Machine

open Claims (grid Stands Term arithmeticFormats Nearest Coded RoundsNearest Rounds minNormal)

variable {K : Type} [Field K] [LinearOrder K] [IsStrictOrderedRing K]

/-! ### Cuts (R38) -/

/-- A magnitude holds a number: exactly, or with its sticky bit for what lies above. -/
structure Mag.Holds (x : Mag) (y : K) : Prop where
  lower : (x.m : K) * 2 ^ x.e ≤ y
  upper : y < (x.m + 1) * 2 ^ x.e
  sticky : x.sticky = true ↔ (x.m : K) * 2 ^ x.e ≠ y

theorem Mag.holds_exact (m : ℕ) (e : ℤ) : (Mag.mk m e false).Holds ((m : K) * 2 ^ e) where
  lower := le_refl _
  upper := by have : (0 : K) < 2 ^ e := by positivity
              nlinarith
  sticky := by simp

/-- A cut of a number at quantum 2^`q`: its whole quanta, whether more is left, and whether it goes up to the nearest (R38). -/
structure Cut.Of (c : Cut) (q : ℤ) (y : K) : Prop where
  lower : (c.n : K) * 2 ^ q ≤ y
  upper : y < (c.n + 1) * 2 ^ q
  inexact : c.inexact = true ↔ (c.n : K) * 2 ^ q ≠ y
  up : (c.inexact && c.up) = true ↔ (c.n + 1 / 2) * 2 ^ q < y ∨ (c.n + 1 / 2) * 2 ^ q = y ∧ c.n % 2 = 1

/-- A number between `n` and `n + 1` quanta of `p` units each, known by `r` whole units and a sticky bit for more. -/
theorem half_iff (n p half r : ℕ) (z : K) (st : Bool) (hp : p = 2 * half) (hhalf : 0 < half) (hr : r < p) (lower : (n * p + r : K) ≤ z)
    (upper : z < n * p + r + 1) (sticky : st = true ↔ (n * p + r : K) ≠ z) :
    (n : K) * p ≤ z ∧ z < (n + 1) * p ∧ ((r ≠ 0 || st) = true ↔ (n : K) * p ≠ z) ∧
      (((r ≠ 0 || st) && (decide (half < r) || (r == half && (st || n % 2 == 1)))) = true ↔
        (n + 1 / 2 : K) * p < z ∨ (n + 1 / 2 : K) * p = z ∧ n % 2 = 1) := by
  have hr' : (r : K) + 1 ≤ p := by exact_mod_cast hr
  have hp' : (p : K) = 2 * half := by exact_mod_cast hp
  have r0 : (0 : K) ≤ r := Nat.cast_nonneg r
  have mid : (n + 1 / 2 : K) * p = n * p + half := by rw [hp']; ring
  refine ⟨by linarith, by linarith, ?_, ?_⟩
  · simp only [ne_eq, decide_not, Bool.or_eq_true, Bool.not_eq_true', decide_eq_false_iff_not, sticky]
    rcases Nat.eq_zero_or_pos r with rfl | hpos
    · simp
    · have : (1 : K) ≤ r := by exact_mod_cast hpos
      exact ⟨fun _ => by linarith, fun _ => .inl (by omega)⟩
  · rw [mid]
    rcases Nat.lt_trichotomy r half with below | rfl | above
    · have : (r : K) + 1 ≤ half := by exact_mod_cast below
      have none : ¬ (half < r) ∧ ¬ (r = half) := by omega
      have low : z < n * p + half := by linarith
      simp [none, not_lt.2 low.le, low.ne']
    · have some : (r ≠ 0 || st) = true := by simp [show r ≠ 0 by omega]
      rw [some, Bool.true_and]
      rcases lower.lt_or_eq with more | exact
      · simp [sticky.2 more.ne, more]
      · simp [Bool.eq_false_iff.2 fun h => sticky.1 h exact, exact]
    · have : (half : K) < r := by exact_mod_cast above
      have high : (n * p + half : K) < z := by linarith
      simp [above, high, show r ≠ 0 by omega]

/-- R38: a cut below the sticky bit is one of the number held. -/
theorem Mag.cut_of {x : Mag} {y : K} (h : x.Holds y) (q : ℤ) (hq : x.sticky = true → x.e < q) : (x.cut q).Of q y := by
  by_cases le : q ≤ x.e
  · have st : x.sticky = false := Bool.eq_false_iff.2 fun st => by have := hq st; omega
    have exact : (x.m : K) * 2 ^ x.e = y := by_contra fun ne => by rw [h.sticky.2 ne] at st; cases st
    have whole : ((x.m * 2 ^ (x.e - q).toNat : ℕ) : K) * 2 ^ q = y := by
      rw [← exact, show x.e = (x.e - q).toNat + q by omega, zpow_add₀ (by norm_num), zpow_natCast]
      push_cast
      rw [show ((x.e - q).toNat + q - q).toNat = (x.e - q).toNat by omega]; ring
    have pos : (0 : K) < 2 ^ q := by positivity
    rw [Mag.cut, if_pos le]
    refine ⟨whole.le, by nlinarith, ?_, ?_⟩
    · simpa [st] using whole
    · have low : y < ((x.m * 2 ^ (x.e - q).toNat : ℕ) + 1 / 2) * 2 ^ q := by nlinarith
      simp only [Bool.and_false, Bool.false_eq_true, false_iff, not_or, not_and]
      exact ⟨low.not_gt, fun eq => absurd eq low.ne'⟩
  · obtain ⟨s, hs, hs0⟩ : ∃ s, (q - x.e).toNat = s ∧ 0 < s := ⟨_, rfl, by omega⟩
    have pos : (0 : K) < 2 ^ x.e := by positivity
    have scale (c : K) : c * 2 ^ q = c * (2 ^ s : ℕ) * 2 ^ x.e := by
      rw [show q = s + x.e by omega, zpow_add₀ (by norm_num), zpow_natCast]; push_cast; ring
    have parts : ((x.m / 2 ^ s : ℕ) * (2 ^ s : ℕ) + (x.m % 2 ^ s : ℕ) : K) = x.m := by
      exact_mod_cast (by rw [Nat.mul_comm]; exact Nat.div_add_mod _ _ : x.m / 2 ^ s * 2 ^ s + x.m % 2 ^ s = x.m)
    have lower : (x.m : K) ≤ y / 2 ^ x.e := (le_div_iff₀ pos).2 h.lower
    have upper : y / 2 ^ x.e < x.m + 1 := (div_lt_iff₀ pos).2 h.upper
    have eq (c : K) : c = y / 2 ^ x.e ↔ c * 2 ^ x.e = y := eq_div_iff pos.ne'
    obtain ⟨low, high, inexact, up⟩ := half_iff (x.m / 2 ^ s) (2 ^ s) (2 ^ (s - 1)) (x.m % 2 ^ s) (y / 2 ^ x.e) x.sticky
      (by rw [← Nat.pow_succ', Nat.succ_eq_add_one, Nat.sub_add_cancel hs0]) (Nat.two_pow_pos _) (Nat.mod_lt _ (Nat.two_pow_pos _))
      (parts ▸ lower) (by rw [parts]; exact upper) (by rw [parts, h.sticky]; exact not_congr (eq _).symm)
    rw [Mag.cut, if_neg le, hs]
    refine ⟨?_, ?_, ?_, ?_⟩
    · rw [scale]; exact (le_div_iff₀ pos).1 low
    · rw [scale]; exact (div_lt_iff₀ pos).1 high
    · rw [scale]; exact inexact.trans (not_congr (eq _))
    · rw [scale, ← eq, ← lt_div_iff₀ pos]; exact up

theorem Cut.Of.lt_two_pow {c : Cut} {q : ℤ} {y : K} (h : c.Of q y) {l : ℕ} (hy : y < 2 ^ (q + l)) : c.n < 2 ^ l := by
  have pos : (0 : K) < 2 ^ q := by positivity
  rw [zpow_add₀ (by norm_num), zpow_natCast, mul_comm] at hy
  exact_mod_cast lt_of_mul_lt_mul_right (h.lower.trans_lt hy) pos.le

theorem Cut.Of.two_pow_le {c : Cut} {q : ℤ} {y : K} (h : c.Of q y) {l : ℕ} (hy : 2 ^ (q + l) ≤ y) : 2 ^ l ≤ c.n := by
  have pos : (0 : K) < 2 ^ q := by positivity
  rw [zpow_add₀ (by norm_num), zpow_natCast, mul_comm] at hy
  exact Nat.le_of_lt_succ (by exact_mod_cast lt_of_mul_lt_mul_right (hy.trans_lt h.upper) pos.le)

/-- The fraction of 2^16 that a cut of an exact magnitude leaves (R39). -/
theorem Mag.cut_frac16 (m : ℕ) (e q : ℤ) :
    (((Mag.mk m e false).cut q).frac16 : ℤ) =
      ⌊((m : ℚ) * 2 ^ e - ((Mag.mk m e false).cut q).n * 2 ^ q) / 2 ^ q * 65536⌋ := by
  have pos : (0 : ℚ) < 2 ^ q := by positivity
  by_cases le : q ≤ e
  · obtain ⟨s, hs⟩ : ∃ s : ℕ, e = s + q := ⟨(e - q).toNat, by omega⟩
    rw [Mag.cut, if_pos le, hs, zpow_add₀ (by norm_num), zpow_natCast]
    simp [mul_assoc]
  · obtain ⟨s, hs⟩ : ∃ s : ℕ, q = s + e := ⟨(q - e).toNat, by omega⟩
    have parts : ((2 ^ s : ℕ) * (m / 2 ^ s : ℕ) + (m % 2 ^ s : ℕ) : ℚ) = m := by exact_mod_cast Nat.div_add_mod m (2 ^ s)
    have rest : ((m : ℚ) * 2 ^ e - (m / 2 ^ s : ℕ) * 2 ^ q) / 2 ^ q * 65536 = (m % 2 ^ s * 65536 : ℕ) / (2 ^ s : ℕ) := by
      rw [hs, zpow_add₀ (by norm_num), zpow_natCast, ← parts]
      push_cast
      field_simp
      ring
    rw [Mag.cut, if_neg le]
    simp only [show (q - e).toNat = s by omega]
    rw [rest, Rat.floor_natCast_div_natCast]
    rfl

/-! ### The nearest magnitude (R38) -/

/-- R38: of two neighbours, the upper one is the nearest past their middle, and at it where the lower one is odd. -/
theorem nearest_of_bracket (f : FFmt) (y : K) (a : ℕ) (up : Bool) (lower : (grid f a : K) ≤ y) (upper : y < grid f (a + 1))
    (hup : up = true ↔ (((grid f a + grid f (a + 1)) / 2 : ℚ) : K) < y ∨ (((grid f a + grid f (a + 1)) / 2 : ℚ) : K) = y ∧ a % 2 = 1) :
    Nearest f (fun r => (r : K) < y) (fun r => y < (r : K)) (if up then a + 1 else a) := by
  have rise (j : ℕ) : grid f j < (grid f j + grid f (j + 1)) / 2 ∧ (grid f j + grid f (j + 1)) / 2 < grid f (j + 1) := by
    have := grid_strictMono f (Nat.lt_succ_self j)
    constructor <;> linarith
  cases up with
  | true =>
    refine ⟨fun j hj => ?_, .inl (upper.trans (Rat.cast_lt.2 (rise _).1))⟩
    obtain rfl : a = j := by simpa using hj
    rcases hup.1 rfl with below | ⟨mid, odd⟩
    · exact .inl below
    · exact .inr ⟨mid.le.not_gt, by simp; omega⟩
  | false =>
    obtain ⟨notBelow, notMid⟩ := not_or.1 (mt hup.2 (by simp))
    refine ⟨fun j hj => .inl ?_, ?_⟩
    · obtain rfl : a = j + 1 := by simpa using hj
      exact (Rat.cast_lt.2 (rise j).2).trans_le lower
    · rcases (not_lt.1 notBelow).lt_or_eq with above | mid
      · exact .inl above
      · exact .inr ⟨notBelow, by have := mt (And.intro mid.symm) notMid; simp; omega⟩

/-! ### What `roundMag` cuts (R38) -/

/-- The exponent of a magnitude's leading bit. -/
def Mag.lead (x : Mag) : ℤ := x.e + Nat.log2 x.m

/-- R38: the quantum that a magnitude is rounded to. -/
def FFmt.quantumOf (f : FFmt) (x : Mag) : ℤ := if x.lead - f.mb < f.least then f.least else x.lead - f.mb

/-- A magnitude cut at its quantum. -/
def FFmt.cutOf (f : FFmt) (x : Mag) : Cut := x.cut (f.quantumOf x)

/-- The code of the magnitude below. -/
def FFmt.floorOf (f : FFmt) (x : Mag) : ℕ := f.pack false (f.cutOf x).n (f.quantumOf x)

/-- R38, R39: whether a cut is rounded away from zero. -/
def Cut.goesUp (c : Cut) (mode : RMode) (draw : ℕ) : Bool :=
  c.inexact && (match mode with
    | .rne => c.up
    | .rtz => false
    | .sr => decide (65536 ≤ c.frac16 + draw))

/-- R40: whether a magnitude is rounded away from zero where its exponent has no bound below. -/
def FFmt.freeUp (f : FFmt) (mode : RMode) (draw : ℕ) (x : Mag) : Bool :=
  (x.cut (x.lead - f.mb)).inexact && (match mode with
    | .rne => (x.cut (x.lead - f.mb)).up
    | .rtz => false
    | .sr => (f.cutOf x).goesUp .sr draw)

/-- R40: whether a magnitude is tiny after rounding. -/
def FFmt.tiny (f : FFmt) (mode : RMode) (draw : ℕ) (x : Mag) : Bool :=
  decide (x.lead < f.least + f.mb) && !(decide (x.lead + 1 = f.least + f.mb ∧
    (if f.freeUp mode draw x then (x.cut (x.lead - f.mb)).n + 1 else (x.cut (x.lead - f.mb)).n) = 2 ^ (f.mb + 1)))

/-- R38, R40: the code and flags of `n` quanta of 2^`q`. -/
def FFmt.coded (f : FFmt) (mode : RMode) (sat neg : Bool) (n : ℕ) (q : ℤ) (inexact tiny : Bool) : Rounded :=
  if f.maxBits < f.pack false n q ∨ 2 ^ (f.eb + f.mb) ≤ f.pack false n q then
    ⟨f.overflow neg mode sat, { Flags.none with of := true, nx := true }, true⟩
  else ⟨f.pack neg n q, { Flags.none with nx := inexact, uf := inexact && tiny }, inexact⟩

theorem roundMag_eq (f : FFmt) (mode : RMode) (sat : Bool) (draw : ℕ) (neg : Bool) (x : Mag) :
    roundMag f mode sat draw neg x = f.coded mode sat neg
      (if (f.cutOf x).goesUp mode draw then (f.cutOf x).n + 1 else (f.cutOf x).n) (f.quantumOf x) (f.cutOf x).inexact
      (f.tiny mode draw x) := by
  cases mode <;> rfl

/-- Tables 2.1 and 2.5 of the arithmetic formats. -/
theorem limits_of_mem (f : FFmt) (hf : f ∈ arithmeticFormats) :
    f.maxBits = Claims.largest f ∧ Claims.largest f < 2 ^ (f.eb + f.mb) ∧ 0 < f.mb ∧ ∀ mode sat neg,
      f.overflow neg mode sat = (if neg then 2 ^ (f.eb + f.mb) else 0) + Claims.overflowed f mode sat := by
  simp only [arithmeticFormats, List.mem_cons, List.not_mem_nil, or_false] at hf
  rcases hf with rfl | rfl | rfl | rfl <;> refine ⟨by decide, by decide, by decide, fun mode sat neg => ?_⟩ <;>
    cases mode <;> revert sat neg <;> decide

theorem FFmt.coded_spec (f : FFmt) (hf : f ∈ arithmeticFormats) (mode : RMode) (sat neg : Bool) (n : ℕ) (q : ℤ) (inexact tiny : Bool) :
    Coded f mode sat neg (f.pack false n q) (inexact = true) (tiny = true) (f.coded mode sat neg n q inexact tiny).bits
      (f.coded mode sat neg n q inexact tiny).flags := by
  obtain ⟨maxBits, top, -, overflow⟩ := limits_of_mem f hf
  unfold Coded FFmt.coded
  rw [maxBits]
  by_cases big : Claims.largest f < f.pack false n q
  · rw [if_pos big, if_pos (.inl big)]
    exact ⟨overflow mode sat neg, rfl⟩
  · rw [if_neg big, if_neg (by omega)]
    exact ⟨f.pack_neg neg n q, Iff.rfl, Bool.and_eq_true_iff, rfl⟩

/-! ### A magnitude between its neighbours -/

section
variable {f : FFmt} {x : Mag} {y : K}

theorem Mag.Holds.two_pow_lead_le (h : x.Holds y) (hm : x.m ≠ 0) : 2 ^ x.lead ≤ y := by
  rw [Mag.lead, zpow_add₀ (by norm_num), zpow_natCast, mul_comm]
  have low : ((2 ^ Nat.log2 x.m : ℕ) : K) ≤ x.m := Nat.cast_le.2 (Nat.log2_self_le hm)
  push_cast at low
  exact (mul_le_mul_of_nonneg_right low (by positivity)).trans h.lower

theorem Mag.Holds.lt_two_pow_lead (h : x.Holds y) : y < 2 ^ (x.lead + 1) := by
  rw [Mag.lead, show x.e + Nat.log2 x.m + 1 = (Nat.log2 x.m + 1 : ℕ) + x.e by push_cast; ring, zpow_add₀ (by norm_num), zpow_natCast]
  have high : ((x.m + 1 : ℕ) : K) ≤ (2 ^ (Nat.log2 x.m + 1) : ℕ) := Nat.cast_le.2 Nat.lt_log2_self
  push_cast at high
  exact h.upper.trans_le (mul_le_mul_of_nonneg_right high (by positivity))

theorem Mag.Holds.lead_lt_iff (h : x.Holds y) (hm : x.m ≠ 0) (E : ℤ) : x.lead < E ↔ y < 2 ^ E := by
  constructor
  · exact fun lt => h.lt_two_pow_lead.trans_le (zpow_le_zpow_right₀ (by norm_num) lt)
  · exact fun lt => (zpow_lt_zpow_iff_right₀ (by norm_num)).1 ((h.two_pow_lead_le hm).trans_lt lt)

theorem FFmt.least_le_quantumOf (f : FFmt) (x : Mag) :
    f.least ≤ f.quantumOf x ∧ x.lead - f.mb ≤ f.quantumOf x ∧ (f.quantumOf x = f.least ∨ f.quantumOf x = x.lead - f.mb) := by
  unfold FFmt.quantumOf
  split <;> omega

/-- The cut without a bound below. -/
theorem Mag.Holds.free_of (h : x.Holds y) (hs : x.sticky = true → f.mb < Nat.log2 x.m) :
    (x.cut (x.lead - f.mb)).Of (x.lead - f.mb) y :=
  Mag.cut_of h _ fun st => by have := hs st; unfold Mag.lead; omega

theorem Mag.Holds.cutOf_of (h : x.Holds y) (hs : x.sticky = true → f.mb < Nat.log2 x.m) :
    (f.cutOf x).Of (f.quantumOf x) y :=
  Mag.cut_of h _ fun st => by have := hs st; have := f.least_le_quantumOf x; unfold Mag.lead at this; omega

theorem Mag.Holds.counts (h : x.Holds y) (hm : x.m ≠ 0) (hs : x.sticky = true → f.mb < Nat.log2 x.m) :
    f.Counts (f.cutOf x).n (f.quantumOf x) := by
  obtain ⟨least, free, which⟩ := f.least_le_quantumOf x
  have cut := h.cutOf_of hs
  refine ⟨least, which.imp_right fun hq => cut.two_pow_le ?_, cut.lt_two_pow ?_⟩
  · rw [hq, sub_add_cancel]; exact h.two_pow_lead_le hm
  · exact h.lt_two_pow_lead.trans_le (zpow_le_zpow_right₀ (by norm_num) (by push_cast; omega))

/-- R38: a magnitude lies between its cut and the next one, and goes up to the nearest past their middle. -/
theorem Mag.Holds.between (h : x.Holds y) (hm : x.m ≠ 0) (hs : x.sticky = true → f.mb < Nat.log2 x.m) :
    (grid f (f.floorOf x) : K) ≤ y ∧ y < grid f (f.floorOf x + 1) ∧
      ((f.cutOf x).inexact = true ↔ (grid f (f.floorOf x) : K) < y) := by
  have counts := h.counts hm hs
  have low : (grid f (f.floorOf x) : K) = (f.cutOf x).n * 2 ^ f.quantumOf x := by
    rw [FFmt.floorOf, counts.grid_pack]; push_cast; rfl
  have high : (grid f (f.floorOf x + 1) : K) = ((f.cutOf x).n + 1) * 2 ^ f.quantumOf x := by
    rw [FFmt.floorOf, counts.grid_pack_succ]; push_cast; rfl
  obtain ⟨lower, upper, inexact, -⟩ := h.cutOf_of hs
  rw [low, high]
  exact ⟨lower, upper, inexact.trans ⟨lower.lt_of_ne, ne_of_lt⟩⟩

theorem Mag.Holds.goesUp_rne (h : x.Holds y) (hm : x.m ≠ 0) (hs : x.sticky = true → f.mb < Nat.log2 x.m) (hmb : 0 < f.mb) (draw : ℕ) :
    (f.cutOf x).goesUp .rne draw = true ↔
      (((grid f (f.floorOf x) + grid f (f.floorOf x + 1)) / 2 : ℚ) : K) < y ∨
        (((grid f (f.floorOf x) + grid f (f.floorOf x + 1)) / 2 : ℚ) : K) = y ∧ f.floorOf x % 2 = 1 := by
  have counts := h.counts hm hs
  have mid : (((grid f (f.floorOf x) + grid f (f.floorOf x + 1)) / 2 : ℚ) : K) = ((f.cutOf x).n + 1 / 2) * 2 ^ f.quantumOf x := by
    rw [FFmt.floorOf, counts.grid_pack, counts.grid_pack_succ]; push_cast; ring
  have odd : f.floorOf x % 2 = (f.cutOf x).n % 2 := by rw [← f.quanta_mod_two hmb, FFmt.floorOf, counts.pack.1]
  rw [mid, odd]
  exact (h.cutOf_of hs).up

/-- R38, R40: what `roundMag` gives is the code of the magnitude below or of the next one. -/
theorem Mag.Holds.coded (h : x.Holds y) (hm : x.m ≠ 0) (hs : x.sticky = true → f.mb < Nat.log2 x.m) (hf : f ∈ arithmeticFormats)
    (mode : RMode) (sat neg : Bool) (draw : ℕ) :
    Coded f mode sat neg (if (f.cutOf x).goesUp mode draw then f.floorOf x + 1 else f.floorOf x) ((grid f (f.floorOf x) : K) < y)
      (f.tiny mode draw x = true) (roundMag f mode sat draw neg x).bits (roundMag f mode sat draw neg x).flags := by
  have spec := f.coded_spec hf mode sat neg (if (f.cutOf x).goesUp mode draw then (f.cutOf x).n + 1 else (f.cutOf x).n)
    (f.quantumOf x) (f.cutOf x).inexact (f.tiny mode draw x)
  rw [← roundMag_eq, propext (h.between hm hs).2.2] at spec
  convert spec using 1
  split
  · exact (h.counts hm hs).pack_succ.symm
  · rfl

/-! ### Tiny magnitudes (R40) -/

/-- R40: a magnitude is tiny below the least normal one, but where it is rounded to that. -/
theorem Mag.Holds.tiny_iff (h : x.Holds y) (hm : x.m ≠ 0) (mode : RMode) (draw : ℕ) (P : Prop)
    (near : P → 2 ^ (f.least + f.mb - 1) ≤ y)
    (rounded : x.lead + 1 = f.least + f.mb →
      ((if f.freeUp mode draw x then (x.cut (x.lead - f.mb)).n + 1 else (x.cut (x.lead - f.mb)).n) = 2 ^ (f.mb + 1) ↔ P)) :
    f.tiny mode draw x = true ↔ y < 2 ^ (f.least + f.mb) ∧ ¬ P := by
  rw [FFmt.tiny, Bool.and_eq_true_iff, decide_eq_true_iff, h.lead_lt_iff hm, Bool.not_eq_true', decide_eq_false_iff_not]
  refine and_congr_right fun small => not_congr ⟨fun ⟨last, full⟩ => (rounded last).1 full, fun hP => ?_⟩
  have last : x.lead + 1 = f.least + f.mb := by
    have := (h.lead_lt_iff hm _).2 small
    have := mt (h.lead_lt_iff hm _).1 (not_lt.2 (near hP))
    omega
  exact ⟨last, (rounded last).2 hP⟩

theorem minNormal_eq (f : FFmt) : minNormal f = 2 ^ (f.least + f.mb) := by
  rw [minNormal, FFmt.least, sub_add_cancel]

/-- The cut of a magnitude below the least normal one counts fewer than 2^(`mb` + 1) quanta. -/
theorem Mag.Holds.free_lt (h : x.Holds y) (hs : x.sticky = true → f.mb < Nat.log2 x.m) :
    (x.cut (x.lead - f.mb)).n < 2 ^ (f.mb + 1) :=
  (h.free_of hs).lt_two_pow (by convert h.lt_two_pow_lead using 2; push_cast; ring)

/-- The quantum of the magnitudes just below the least normal one. -/
theorem quantum_below_minNormal (f : FFmt) (q : ℤ) (hq : q + f.mb + 1 = f.least + f.mb) (j : ℕ) :
    ((minNormal f * (1 - 1 / 2 ^ (f.mb + 1 + j)) : ℚ) : K) = ((2 ^ (f.mb + 1) : ℕ) - 1 / 2 ^ j) * 2 ^ q := by
  rw [minNormal_eq, ← hq, show q + f.mb + 1 = (f.mb + 1 : ℕ) + q by push_cast; ring, zpow_add₀ (by norm_num), zpow_natCast,
    pow_add _ (f.mb + 1) j]
  push_cast
  field_simp

/-- R38: quanta are rounded to the next power of two, to the nearest, from half a quantum below it. -/
theorem Cut.Of.reaches_iff {c : Cut} {q : ℤ} (h : c.Of q y) {N : ℕ} (even : N % 2 = 0) (lt : c.n < N) :
    (if c.inexact && c.up then c.n + 1 else c.n) = N ↔ (N - 1 / 2) * 2 ^ q ≤ y := by
  have pos : (0 : K) < 2 ^ q := by positivity
  obtain ⟨-, upper, -, up⟩ := h
  rw [le_iff_lt_or_eq]
  by_cases last : c.n + 1 = N
  · have cast : (N : K) - 1 / 2 = c.n + 1 / 2 := by rw [← last]; push_cast; ring
    have odd : c.n % 2 = 1 := by omega
    rw [cast, ← (up.trans (or_congr_right (and_iff_left odd)))]
    split
    · next all => exact ⟨fun _ => all, fun _ => last⟩
    · next none => exact ⟨fun h => absurd h (by omega), fun h => absurd h none⟩
  · have step : (c.n : K) + 2 ≤ N := by exact_mod_cast (by omega : c.n + 2 ≤ N)
    have low : y < (N - 1 / 2) * 2 ^ q := by nlinarith
    simp only [low.not_gt, low.ne', or_self, iff_false]
    split <;> omega

/-- R39: and by a draw only from the last quantum below it. -/
theorem Cut.Of.draws_iff {c : Cut} {q : ℤ} (h : c.Of q y) {N : ℕ} (lt : c.n < N) (up : Bool) :
    (if c.inexact && up then c.n + 1 else c.n) = N ↔ up = true ∧ (N - 1) * 2 ^ q < y := by
  have pos : (0 : K) < 2 ^ q := by positivity
  obtain ⟨lower, upper, inexact, -⟩ := h
  by_cases last : c.n + 1 = N
  · have cast : (N : K) - 1 = c.n := by rw [← last]; push_cast; ring
    have some : c.inexact = true ↔ (N - 1) * 2 ^ q < y := by rw [cast, inexact]; exact ⟨lower.lt_of_ne, ne_of_lt⟩
    rw [← some]
    cases up <;> cases c.inexact <;> simp <;> omega
  · have step : (c.n : K) + 2 ≤ N := by exact_mod_cast (by omega : c.n + 2 ≤ N)
    have low : y < (N - 1) * 2 ^ q := by nlinarith
    simp only [low.not_gt, and_false, iff_false]
    split <;> omega

theorem minNormal_cast (f : FFmt) : ((minNormal f : ℚ) : K) = 2 ^ (f.least + f.mb) := by
  rw [minNormal_eq]; push_cast; rfl

theorem below_minNormal_mem (f : FFmt) (j : ℕ) :
    (2 : K) ^ (f.least + f.mb - 1) ≤ ((minNormal f * (1 - 1 / 2 ^ (f.mb + 1 + j)) : ℚ) : K) ∧
      ((minNormal f * (1 - 1 / 2 ^ (f.mb + 1 + j)) : ℚ) : K) < 2 ^ (f.least + f.mb) := by
  have pos : (0 : ℚ) < minNormal f := by rw [minNormal]; positivity
  have none : (0 : ℚ) < 1 / 2 ^ (f.mb + 1 + j) := by positivity
  have part : (1 : ℚ) / 2 ^ (f.mb + 1 + j) ≤ 1 / 2 :=
    one_div_le_one_div_of_le (by norm_num) (le_self_pow₀ (by norm_num) (by omega))
  have half : (2 : K) ^ (f.least + f.mb - 1) = ((minNormal f / 2 : ℚ) : K) := by
    rw [zpow_sub_one₀ (by norm_num), Rat.cast_div, minNormal_cast, Rat.cast_ofNat, div_eq_mul_inv]
  rw [half, ← minNormal_cast, Rat.cast_le, Rat.cast_lt]
  constructor <;> nlinarith

theorem two_pow_succ_even (n : ℕ) : 2 ^ (n + 1) % 2 = 0 := by rw [Nat.pow_succ]; omega

theorem Mag.Holds.tiny_rne (h : x.Holds y) (hm : x.m ≠ 0) (hs : x.sticky = true → f.mb < Nat.log2 x.m) (draw : ℕ) :
    f.tiny .rne draw x = true ↔ y < ((minNormal f * (1 - 1 / 2 ^ (f.mb + 2)) : ℚ) : K) := by
  obtain ⟨low, high⟩ := below_minNormal_mem (K := K) f 1
  rw [h.tiny_iff hm .rne draw (((minNormal f * (1 - 1 / 2 ^ (f.mb + 2)) : ℚ) : K) ≤ y) low.trans, not_le,
    and_iff_right_of_imp fun below => below.trans high]
  intro last
  rw [quantum_below_minNormal f (x.lead - f.mb) (by omega) 1, pow_one]
  exact (h.free_of hs).reaches_iff (two_pow_succ_even _) (h.free_lt hs)

theorem Mag.Holds.tiny_rtz (h : x.Holds y) (hm : x.m ≠ 0) (hs : x.sticky = true → f.mb < Nat.log2 x.m) (draw : ℕ) :
    f.tiny .rtz draw x = true ↔ y < ((minNormal f : ℚ) : K) := by
  rw [h.tiny_iff hm .rtz draw False False.elim, not_false_eq_true, and_true, minNormal_cast]
  intro _
  simpa [FFmt.freeUp] using (h.free_lt hs).ne

theorem Mag.Holds.tiny_sr (h : x.Holds y) (hm : x.m ≠ 0) (hs : x.sticky = true → f.mb < Nat.log2 x.m) (draw : ℕ) :
    f.tiny .sr draw x = true ↔ y < ((minNormal f : ℚ) : K) ∧
      ¬ ((f.cutOf x).goesUp .sr draw = true ∧ ((minNormal f * (1 - 1 / 2 ^ (f.mb + 1)) : ℚ) : K) < y) := by
  rw [h.tiny_iff hm .sr draw ((f.cutOf x).goesUp .sr draw = true ∧ ((minNormal f * (1 - 1 / 2 ^ (f.mb + 1)) : ℚ) : K) < y)
    fun near => (below_minNormal_mem f 0).1.trans near.2.le, minNormal_cast]
  intro last
  have scale := quantum_below_minNormal (K := K) f (x.lead - f.mb) (by omega) 0
  rw [pow_zero, div_one, add_zero] at scale
  rw [scale]
  exact (h.free_of hs).draws_iff (h.free_lt hs) _

/-! ### Rounding once (R38, R39) -/

theorem Cut.inexact_of_goesUp (c : Cut) (mode : RMode) (draw : ℕ) (up : c.goesUp mode draw = true) : c.inexact = true :=
  (Bool.and_eq_true_iff.1 up).1

/-- R38: `roundMag` to the nearest, of a magnitude that need not be rational. -/
theorem Mag.Holds.rounds_nearest (h : x.Holds y) (hm : x.m ≠ 0) (hs : x.sticky = true → f.mb < Nat.log2 x.m)
    (hf : f ∈ arithmeticFormats) (sat neg : Bool) (draw : ℕ) :
    RoundsNearest f sat neg (fun r => (r : K) < y) (fun r => y < (r : K)) (roundMag f .rne sat draw neg x).bits
      (roundMag f .rne sat draw neg x).flags := by
  obtain ⟨-, -, hmb, -⟩ := limits_of_mem f hf
  obtain ⟨lower, upper, inexact⟩ := h.between hm hs
  refine ⟨_, nearest_of_bracket f y (f.floorOf x) ((f.cutOf x).goesUp .rne draw) lower upper (h.goesUp_rne hm hs hmb draw), ?_⟩
  have code := h.coded hm hs hf .rne sat neg draw
  rw [propext (h.tiny_rne hm hs draw)] at code
  convert code using 1
  split
  · next up => simp [upper, inexact.1 (Cut.inexact_of_goesUp _ _ _ up)]
  · simp [lower.not_gt]

end

/-- R39: a draw takes a magnitude up by the 2^16-ths that it stands above the one below. -/
theorem goesUp_sr (f : FFmt) (m : ℕ) (e : ℤ) (hm : m ≠ 0) (draw : ℕ) :
    (f.cutOf ⟨m, e, false⟩).goesUp .sr draw = true ↔ grid f (f.floorOf ⟨m, e, false⟩) < (m : ℚ) * 2 ^ e ∧
      65536 ≤ ⌊((m : ℚ) * 2 ^ e - grid f (f.floorOf ⟨m, e, false⟩)) /
        (grid f (f.floorOf ⟨m, e, false⟩ + 1) - grid f (f.floorOf ⟨m, e, false⟩)) * 65536⌋ + (draw : ℤ) := by
  have h : (Mag.mk m e false).Holds ((m : ℚ) * 2 ^ e) := Mag.holds_exact m e
  have inexact := (h.between (f := f) hm (by simp)).2.2
  have counts := h.counts (f := f) hm (by simp)
  rw [Rat.cast_id] at inexact
  have low : grid f (f.floorOf ⟨m, e, false⟩) = (f.cutOf ⟨m, e, false⟩).n * 2 ^ f.quantumOf ⟨m, e, false⟩ := counts.grid_pack
  have width : grid f (f.floorOf ⟨m, e, false⟩ + 1) - grid f (f.floorOf ⟨m, e, false⟩) = 2 ^ f.quantumOf ⟨m, e, false⟩ := by
    rw [low, FFmt.floorOf, counts.grid_pack_succ]; ring
  rw [Cut.goesUp, Bool.and_eq_true_iff, inexact, decide_eq_true_iff, width, low, FFmt.cutOf, ← Mag.cut_frac16]
  exact and_congr_right fun _ => by omega

/-- R38, R39: `roundMag` of an exact magnitude. -/
theorem roundMag_rounds (f : FFmt) (hf : f ∈ arithmeticFormats) (mode : RMode) (sat neg : Bool) (draw m : ℕ) (e : ℤ) (hm : m ≠ 0) :
    Rounds f mode sat draw neg ((m : ℚ) * 2 ^ e) (roundMag f mode sat draw neg ⟨m, e, false⟩).bits
      (roundMag f mode sat draw neg ⟨m, e, false⟩).flags := by
  have h : (Mag.mk m e false).Holds ((m : ℚ) * 2 ^ e) := Mag.holds_exact m e
  have hs : (Mag.mk m e false).sticky = true → f.mb < Nat.log2 m := by simp
  obtain ⟨lower, upper, inexact⟩ := h.between hm hs
  have code := h.coded hm hs hf mode sat neg draw
  simp only [Rat.cast_id] at lower upper inexact code
  cases mode with
  | rne =>
    have nearest := h.rounds_nearest hm hs hf sat neg draw
    simp only [Rat.cast_id] at nearest
    exact nearest
  | rtz =>
    refine ⟨_, lower, upper, ?_⟩
    rw [propext (h.tiny_rtz hm hs draw)] at code
    simpa [Cut.goesUp] using code
  | sr =>
    have up := goesUp_sr f m e hm draw
    rw [propext (h.tiny_sr hm hs draw)] at code
    refine ⟨f.floorOf ⟨m, e, false⟩, _, lower, upper, if_congr up rfl rfl, ?_⟩
    simpa using code

/-! ### Narrowing (R38, R41, Table 2.5) -/

theorem narrow_num (f : FFmt) (hf : f ∈ arithmeticFormats) (mode : RMode) (sat : Bool) (draw : ℕ) (n : Bool) (m : ℕ) (e : ℤ) (hm : m ≠ 0) :
    Rounds f mode sat draw n ((m : ℚ) * 2 ^ e) (narrow f mode sat draw (.num n m e)).bits (narrow f mode sat draw (.num n m e)).flags := by
  rw [narrow, if_neg hm]
  exact roundMag_rounds f hf mode sat n draw m e hm

theorem narrow_inf (f : FFmt) (hf : f ∈ arithmeticFormats) (mode : RMode) (sat : Bool) (draw : ℕ) (n : Bool) :
    (narrow f mode sat draw (.inf n)).bits = (if n then 2 ^ (f.eb + f.mb) else 0) +
        (if f = e4m3 then (if sat then 0x7E else 0x7F) else Claims.largest f + 1) ∧
      (narrow f mode sat draw (.inf n)).flags = { Flags.none with of := decide (f = e4m3) && sat, nv := decide (f = e4m3) && !sat } := by
  simp only [arithmeticFormats, List.mem_cons, List.not_mem_nil, or_false] at hf
  rw [show narrow f mode sat draw (.inf n) = narrow f .rne sat 0 (.inf n) from rfl]
  rcases hf with rfl | rfl | rfl | rfl <;> revert sat n <;> decide

theorem narrow_nan (mode : RMode) (sat : Bool) (draw : ℕ) (s : Bool) (x : FFmt × ℕ)
    (hx : x ∈ [(fp32, 0x7FC00000), (bf16, 0x7FC0), (e4m3, 0x7F), (e5m2, 0x7E)]) :
    (narrow x.1 mode sat draw (.nan s)).bits = x.2 ∧ (narrow x.1 mode sat draw (.nan s)).flags = { Flags.none with nv := s } := by
  refine ⟨?_, rfl⟩
  change x.1.canon = x.2
  revert x
  decide

/-! ### Integers (R41) -/

/-- The whole units of a cut after its rounding. -/
def Cut.rounded (c : Cut) (mode : RMode) (draw : ℕ) : ℕ := if c.goesUp mode draw then c.n + 1 else c.n

theorem roundInt_eq (mode : RMode) (draw : ℕ) (neg : Bool) (m : ℕ) (e : ℤ) :
    roundInt mode draw neg m e =
      ((if neg then -(((Mag.mk m e false).cut 0).rounded mode draw : ℤ) else ((Mag.mk m e false).cut 0).rounded mode draw),
        ((Mag.mk m e false).cut 0).inexact) := by
  cases mode <;> rfl

/-- R41: a number cut at its units, to the nearest. -/
theorem Cut.Of.nearest_unit {c : Cut} {y : ℚ} (h : c.Of 0 y) (draw : ℕ) :
    |(c.rounded .rne draw : ℚ) - y| ≤ 1 / 2 ∧ (|(c.rounded .rne draw : ℚ) - y| = 1 / 2 → c.rounded .rne draw % 2 = 0) := by
  obtain ⟨lower, upper, -, up⟩ := h
  simp only [zpow_zero, mul_one] at lower upper up
  change c.goesUp .rne draw = true ↔ _ at up
  by_cases go : c.goesUp .rne draw = true
  · rw [Cut.rounded, if_pos go, Nat.cast_succ]
    rcases up.1 go with more | ⟨tie, odd⟩
    · rw [abs_of_nonneg (by linarith)]
      exact ⟨by linarith, fun _ => by linarith⟩
    · rw [abs_of_nonneg (by linarith)]
      exact ⟨by linarith, fun _ => by omega⟩
  · obtain ⟨less, noTie⟩ := not_or.1 (mt up.2 go)
    rw [Cut.rounded, if_neg go, abs_of_nonpos (by linarith)]
    refine ⟨by linarith, fun half => ?_⟩
    have := mt (And.intro (by linarith : (c.n + 1 / 2 : ℚ) = y)) noTie
    omega

/-- R41: a number cut at its units, toward zero. -/
theorem Cut.Of.toward_zero {c : Cut} {y : ℚ} (h : c.Of 0 y) (draw : ℕ) :
    (c.rounded .rtz draw : ℚ) ≤ y ∧ |(c.rounded .rtz draw : ℚ) - y| < 1 := by
  obtain ⟨lower, upper, -, -⟩ := h
  simp only [zpow_zero, mul_one] at lower upper
  rw [Cut.rounded, if_neg (by simp [Cut.goesUp]), abs_of_nonpos (by linarith)]
  exact ⟨lower, by linarith⟩

/-- R41: a number is inexact where it is not the integer it is rounded to. -/
theorem Cut.Of.inexact_iff {c : Cut} {y : ℚ} (h : c.Of 0 y) (mode : RMode) (draw : ℕ) :
    c.inexact = true ↔ (c.rounded mode draw : ℚ) ≠ y := by
  obtain ⟨lower, upper, inexact, -⟩ := h
  simp only [zpow_zero, mul_one] at lower upper inexact
  by_cases go : c.goesUp mode draw = true
  · rw [Cut.rounded, if_pos go, Nat.cast_succ]
    exact ⟨fun _ => upper.ne', fun _ => c.inexact_of_goesUp mode draw go⟩
  · rw [Cut.rounded, if_neg go, inexact]

/-- R41: what an integer conversion answers of the integer that a number is rounded to. -/
theorem toInt_num (w : ℕ) (mode : RMode) (draw : ℕ) (neg : Bool) (m : ℕ) (e k : ℤ) (inexact : Bool)
    (rounded : roundInt mode draw neg m e = (k, inexact)) :
    let r := toInt w mode draw (.num neg m e)
    (2 ^ (w - 1) ≤ k → r.1 = 2 ^ (w - 1) - 1 ∧ r.2.1 = { Flags.none with nv := true }) ∧
      (k < -2 ^ (w - 1) → r.1 = -2 ^ (w - 1) ∧ r.2.1 = { Flags.none with nv := true }) ∧
      (-2 ^ (w - 1) ≤ k ∧ k < 2 ^ (w - 1) → r.1 = k ∧ r.2.1 = { Flags.none with nx := inexact }) := by
  have pos : (0 : ℤ) < 2 ^ (w - 1) := by positivity
  intro r
  have eq : r = if 2 ^ (w - 1) - 1 < k then (2 ^ (w - 1) - 1, Flags.justNv, inexact)
      else if k < -2 ^ (w - 1) then (-2 ^ (w - 1), Flags.justNv, inexact) else (k, { Flags.none with nx := inexact }, inexact) := by
    simp only [r, toInt, rounded]
  refine ⟨fun h => ?_, fun h => ?_, fun h => ?_⟩
  · rw [eq, if_pos (by omega)]; exact ⟨rfl, rfl⟩
  · rw [eq, if_neg (by omega), if_pos h]; exact ⟨rfl, rfl⟩
  · rw [eq, if_neg (by omega), if_neg (by omega)]; exact ⟨rfl, rfl⟩

theorem toInt_rounds (w : ℕ) (mode : RMode) (t : Term) :
    let r := toInt w mode 0 t.val
    ∃ k : ℤ, (mode = .rne → |(k : ℚ) - t.real| ≤ 1 / 2 ∧ (|(k : ℚ) - t.real| = 1 / 2 → k % 2 = 0)) ∧
      (mode = .rtz → |(k : ℚ)| ≤ |t.real| ∧ |(k : ℚ) - t.real| < 1) ∧
      (2 ^ (w - 1) ≤ k → r.1 = 2 ^ (w - 1) - 1 ∧ r.2.1 = { Flags.none with nv := true }) ∧
      (k < -2 ^ (w - 1) → r.1 = -2 ^ (w - 1) ∧ r.2.1 = { Flags.none with nv := true }) ∧
      (-2 ^ (w - 1) ≤ k ∧ k < 2 ^ (w - 1) → r.1 = k ∧ r.2.1 = { Flags.none with nx := decide ((k : ℚ) ≠ t.real) }) := by
  obtain ⟨neg, m, e⟩ := t
  have h : ((Mag.mk m e false).cut 0).Of 0 ((m : ℚ) * 2 ^ e) := Mag.cut_of (Mag.holds_exact m e) 0 (by simp)
  have real : Term.real (neg, m, e) = (if neg then -1 else 1) * ((m : ℚ) * 2 ^ e) := mul_assoc _ _ _
  have nonneg : 0 ≤ (m : ℚ) * 2 ^ e := by positivity
  obtain ⟨k, hk⟩ : ∃ k : ℤ, k = if neg then -(((Mag.mk m e false).cut 0).rounded mode 0 : ℤ)
    else ((Mag.mk m e false).cut 0).rounded mode 0 := ⟨_, rfl⟩
  generalize (m : ℚ) * 2 ^ e = y at h real nonneg
  have dist : |(k : ℚ) - Term.real (neg, m, e)| = |(((Mag.mk m e false).cut 0).rounded mode 0 : ℚ) - y| := by
    rw [hk, real]
    cases neg
    · simp
    · simp [abs_sub_comm, neg_add_eq_sub]
  have exact : ((k : ℚ) ≠ Term.real (neg, m, e)) ↔ ((Mag.mk m e false).cut 0).inexact = true := by
    rw [h.inexact_iff mode 0, ← sub_ne_zero, ← abs_pos, dist, abs_pos, sub_ne_zero]
  refine ⟨k, ?_, ?_, ?_⟩
  · rintro rfl
    obtain ⟨near, tie⟩ := h.nearest_unit 0
    rw [dist]
    exact ⟨near, fun half => by have := tie half; rw [hk]; split <;> omega⟩
  · rintro rfl
    obtain ⟨low, near⟩ := h.toward_zero 0
    rw [dist]
    refine ⟨?_, near⟩
    rw [hk, real]
    cases neg <;> simpa [abs_of_nonneg nonneg] using low
  · have flags := toInt_num w mode 0 neg m e k ((Mag.mk m e false).cut 0).inexact (by rw [roundInt_eq, hk])
    simp only [exact, Bool.decide_eq_true]
    exact flags

theorem numbersNarrow : Claims.NumbersNarrow :=
  ⟨fun f hf mode sat draw n m e hm _ => narrow_num f hf mode sat draw n m e hm,
    fun f hf mode sat draw n => narrow_inf f hf mode sat draw n,
    fun mode sat draw s x hx => narrow_nan mode sat draw s x hx,
    fun w _ mode _ t => toInt_rounds w mode t⟩

end Sys2Proof.Machine
end

