-- ==== Sys2Proof/Proofs/Sums.lean ====
section
/-! PROOF. O14, its sums: products are exact, and a sum of them is rounded once (R33, R34, R43, R44, R87). -/

namespace Sys2Proof.Machine

open Claims (Term Rounds arithmeticFormats)

/-! ### Numbers as sign, magnitude and exponent -/

theorem Term.abs_real (t : Term) : |t.real| = (t.2.1 : ℚ) * 2 ^ t.2.2 := by
  have nonneg : 0 ≤ (t.2.1 : ℚ) * 2 ^ t.2.2 := by positivity
  unfold Term.real
  rw [mul_assoc]
  cases t.1 <;> simp [abs_of_nonneg nonneg]

theorem Term.real_eq_zero (t : Term) : t.real = 0 ↔ t.2.1 = 0 := by
  rw [← abs_eq_zero, Term.abs_real, mul_eq_zero, or_iff_left (by positivity), Nat.cast_eq_zero]

theorem Term.real_lt_zero (t : Term) (h : t.real ≠ 0) : t.real < 0 ↔ t.1 = true := by
  have pos : 0 < (t.2.1 : ℚ) * 2 ^ t.2.2 := by rw [← Term.abs_real]; exact abs_pos.2 h
  unfold Term.real
  rw [mul_assoc]
  cases t.1
  · simpa using pos.le
  · simpa using pos

/-- R33: the product of two numbers. -/
def Term.prod (a b : Term) : Term := (a.1 != b.1, a.2.1 * b.2.1, a.2.2 + b.2.2)

theorem Term.val_mul (a b : Term) : a.val.mul b.val = some (Term.prod a b).val := rfl

theorem Term.real_prod (a b : Term) : (Term.prod a b).real = a.real * b.real := by
  obtain ⟨n, m, e⟩ := a
  obtain ⟨n', m', e'⟩ := b
  unfold Term.prod Term.real
  rw [zpow_add₀ (by norm_num)]
  cases n <;> cases n' <;> simp <;> ring

theorem inf_mul_term (n : Bool) (t : Term) : (FVal.inf n).mul t.val = (if t.2.1 = 0 then none else some (.inf (n != t.1))) := rfl

theorem Term.not_nan (t : Term) : t.val.isNan = false := rfl

/-- R38: a number other than zero is rounded once to a format, and a zero keeps its sign. -/
theorem Term.narrow_rounds (f : FFmt) (hf : f ∈ arithmeticFormats) (t : Term) (h : t.real ≠ 0) :
    Rounds f .rne true 0 (decide (t.real < 0)) |t.real| (narrow f .rne true 0 t.val).bits (narrow f .rne true 0 t.val).flags := by
  rw [Bool.eq_iff_iff.2 (decide_eq_true_iff.trans (Term.real_lt_zero t h)), Term.abs_real]
  exact narrow_num f hf .rne true 0 t.1 t.2.1 t.2.2 (mt (Term.real_eq_zero t).2 h)

theorem Term.narrow_zero (f : FFmt) (t : Term) (h : t.real = 0) :
    narrow f .rne true 0 t.val = ⟨if t.1 then 2 ^ (f.eb + f.mb) else 0, Flags.none, false⟩ := if_pos ((Term.real_eq_zero t).1 h)

/-! ### Exact sums (R34, R87) -/

/-- The exponent that a sum of numbers is formed at: none has a lower one. -/
theorem foldl_expo_le (ts : List FVal) (e : ℤ) :
    ts.foldl (fun a t => if t.expo < a then t.expo else a) e ≤ e ∧
      ∀ t ∈ ts, ts.foldl (fun a t => if t.expo < a then t.expo else a) e ≤ t.expo := by
  induction ts generalizing e with
  | nil => simp
  | cons t ts ih =>
    obtain ⟨first, rest⟩ := ih (if t.expo < e then t.expo else e)
    rw [List.foldl_cons]
    refine ⟨first.trans (by split <;> omega), fun u hu => ?_⟩
    rcases List.mem_cons.1 hu with rfl | hu
    · exact first.trans (by split <;> omega)
    · exact rest u hu

theorem Term.scaled_mul (t : Term) (e : ℤ) (h : e ≤ t.2.2) : (t.val.scaled e : ℚ) * 2 ^ e = t.real := by
  obtain ⟨n, m, ev⟩ := t
  obtain ⟨s, hs⟩ : ∃ s : ℕ, ev = s + e := ⟨(ev - e).toNat, by simp only at h; omega⟩
  subst hs
  unfold Term.real Term.val FVal.scaled
  simp only [add_sub_cancel_right, Int.toNat_natCast, zpow_add₀ (by norm_num : (2 : ℚ) ≠ 0), zpow_natCast]
  cases n <;> simp [mul_assoc]

theorem foldl_scaled (ts : List Term) (e a : ℤ) (h : ∀ t ∈ ts, e ≤ t.2.2) :
    (((ts.map Term.val).foldl (fun a t => a + t.scaled e) a : ℤ) : ℚ) * 2 ^ e = a * 2 ^ e + (ts.map Term.real).sum := by
  induction ts generalizing a with
  | nil => simp
  | cons t ts ih =>
    rw [List.map_cons, List.foldl_cons, ih _ fun u hu => h u (List.mem_cons_of_mem _ hu), List.map_cons, List.sum_cons, Int.cast_add,
      add_mul, Term.scaled_mul t e (h t List.mem_cons_self), add_assoc]

/-- R34, R87: the sum of numbers is their exact sum, and a zero sum is negative where every addend is a negative zero. -/
theorem sumVals_terms (ts : List Term) : ∃ r : Term, sumVals (ts.map Term.val) = some r.val ∧ r.real = (ts.map Term.real).sum ∧
    (r.real = 0 → (r.1 = true ↔ ts ≠ [] ∧ ∀ t ∈ ts, t.1 = true ∧ t.2.1 = 0)) := by
  obtain ⟨e, he⟩ : ∃ e, e = (ts.map Term.val).foldl (fun a t => if t.expo < a then t.expo else a)
    ((ts.map Term.val).headD (.num false 0 0)).expo := ⟨_, rfl⟩
  obtain ⟨s, hs⟩ : ∃ s, s = (ts.map Term.val).foldl (fun a t => a + t.scaled e) (0 : ℤ) := ⟨_, rfl⟩
  have lowest : ∀ t ∈ ts, e ≤ t.2.2 := fun t ht => he ▸ (foldl_expo_le _ _).2 t.val (List.mem_map_of_mem ht)
  have sum : (s : ℚ) * 2 ^ e = (ts.map Term.real).sum := by
    rw [hs, foldl_scaled ts e 0 lowest, Int.cast_zero, zero_mul, zero_add]
  have noInf (n : Bool) : ((ts.map Term.val).any fun t => t == .inf n) = false := by
    rw [List.any_map, List.any_eq_false]
    exact fun t _ => by simp [Term.val]
  have result : sumVals (ts.map Term.val) =
      if s = 0 then some (.num (!(ts.map Term.val).isEmpty && (ts.map Term.val).all fun t => t.neg? && t.isZero) 0 0)
      else some (.num (decide (s < 0)) s.natAbs e) := by
    simp only [sumVals, noInf, ← he, ← hs, Bool.and_self, Bool.false_eq_true, if_false]
  by_cases zero : s = 0
  · refine ⟨(!(ts.map Term.val).isEmpty && (ts.map Term.val).all fun t => t.neg? && t.isZero, 0, 0), ?_, ?_, fun _ => ?_⟩
    · rw [result, if_pos zero]; rfl
    · rw [← sum, zero]; simp [Term.real]
    · simp [Term.val, FVal.neg?, FVal.isZero]
  · refine ⟨(decide (s < 0), s.natAbs, e), ?_, ?_, fun none => ?_⟩
    · rw [result, if_neg zero]; rfl
    · rw [← sum, Term.real, Nat.cast_natAbs]
      rcases lt_or_gt_of_ne zero with neg | pos
      · simp [neg, abs_of_neg neg]
      · simp [pos.le, abs_of_pos pos]
    · exact absurd ((Term.real_eq_zero _).1 none) (by simpa using zero)

/-! ### `fp_eval` (R87) -/

theorem any_isNan_eq_false (ops : List FVal) (h : ∀ s, FVal.nan s ∉ ops) : ops.any FVal.isNan = false :=
  List.any_eq_false.2 fun o ho nan => by
    cases o with
    | nan s => exact h s ho
    | inf _ => cases nan
    | num _ _ _ => cases nan

theorem any_isNone_some_val (ts : List Term) : (ts.map fun t => some t.val).any Option.isNone = false := by simp

theorem filterMap_some_val (ts : List Term) : (ts.map fun t => some t.val).filterMap id = ts.map Term.val := by
  simp [List.filterMap_map]

theorem fpEval_terms (f : FFmt) (ops : List FVal) (ts : List Term) (noNan : ∀ o ∈ ops, ∀ s, o ≠ .nan s) (r : Term)
    (sum : sumVals (ts.map Term.val) = some r.val) :
    fpEval f ops (ts.map fun t => some t.val) = narrow f .rne true 0 r.val := by
  rw [fpEval, any_isNan_eq_false ops fun s hs => noNan _ hs s rfl, any_isNone_some_val, filterMap_some_val, sum]
  rfl

theorem fpEval_nan (f : FFmt) (ops : List FVal) (ts : List (Option FVal)) (h : ∃ s, FVal.nan s ∈ ops) :
    fpEval f ops ts = ⟨f.canon, { Flags.none with nv := ops.any FVal.isSnan }, false⟩ := by
  obtain ⟨s, hs⟩ := h
  exact if_pos (List.any_eq_true.2 ⟨_, hs, rfl⟩)

theorem any_isSnan (ops : List FVal) : ops.any FVal.isSnan = true ↔ FVal.nan true ∈ ops := by
  rw [List.any_eq_true]
  refine ⟨fun ⟨o, ho, snan⟩ => ?_, fun h => ⟨_, h, rfl⟩⟩
  cases o with
  | nan s => obtain rfl : s = true := snan; exact ho
  | inf _ => cases snan
  | num _ _ _ => cases snan

theorem sumVals_opposed (ts : List FVal) (pos : FVal.inf false ∈ ts) (neg : FVal.inf true ∈ ts) : sumVals ts = none := by
  have both (n : Bool) (h : FVal.inf n ∈ ts) : (ts.any fun t => t == .inf n) = true := List.any_eq_true.2 ⟨_, h, beq_self_eq_true _⟩
  simp [sumVals, both _ pos, both _ neg]

theorem fpEval_invalid (f : FFmt) (ops : List FVal) (ts : List (Option FVal)) (noNan : ∀ s, FVal.nan s ∉ ops)
    (h : none ∈ ts ∨ (some (.inf true) ∈ ts ∧ some (.inf false) ∈ ts)) : fpEval f ops ts = ⟨f.canon, Flags.justNv, false⟩ := by
  rw [fpEval, any_isNan_eq_false ops noNan]
  by_cases invalid : ts.any Option.isNone = true
  · rw [if_neg Bool.false_ne_true, if_pos invalid]
  · have opposed := h.resolve_left fun none => invalid (List.any_eq_true.2 ⟨_, none, rfl⟩)
    rw [if_neg Bool.false_ne_true, if_neg invalid, sumVals_opposed _ (List.mem_filterMap.2 ⟨_, opposed.2, rfl⟩)
      (List.mem_filterMap.2 ⟨_, opposed.1, rfl⟩)]

theorem canon_of_mem (f : FFmt) (hf : f ∈ [fp32, bf16]) :
    f ∈ arithmeticFormats ∧ f.decode f.canon = .nan false ∧ f.canon < 2 ^ (f.eb + f.mb) := by
  simp only [List.mem_cons, List.not_mem_nil, or_false] at hf
  rcases hf with rfl | rfl <;> decide

/-- R34, R87: a sum of numbers is rounded once, and is a signed zero where it is zero. -/
theorem fpEval_rounds (f : FFmt) (hf : f ∈ [fp32, bf16]) (ops : List FVal) (ts : List Term) (noNan : ∀ o ∈ ops, ∀ s, o ≠ .nan s) :
    let x := (ts.map Term.real).sum
    let r := fpEval f ops (ts.map fun t => some t.val)
    (x ≠ 0 → Rounds f .rne true 0 (decide (x < 0)) |x| r.bits r.flags) ∧
      (x = 0 → r.flags = Flags.none ∧
        r.bits = if ts ≠ [] ∧ ∀ t ∈ ts, t.1 = true ∧ t.2.1 = 0 then 2 ^ (f.eb + f.mb) else 0) := by
  obtain ⟨t, sum, real, zeroSign⟩ := sumVals_terms ts
  intro x r
  rw [show x = t.real from real.symm, show r = _ from fpEval_terms f ops ts noNan t sum]
  refine ⟨Term.narrow_rounds f (canon_of_mem f hf).1 t, fun zero => ?_⟩
  rw [Term.narrow_zero f t zero]
  exact ⟨rfl, if_congr (zeroSign zero) rfl rfl⟩

theorem sumsRoundOnce : Claims.SumsRoundOnce := by
  refine ⟨fun a b => ⟨Term.prod a b, Term.val_mul a b, Term.real_prod a b, rfl⟩, inf_mul_term, fpEval_rounds,
    fun f hf ops ts nan => ?_, fun f hf ops ts noNan invalid => ?_⟩
  · obtain ⟨-, decoded, small⟩ := canon_of_mem f hf
    rw [fpEval_nan f ops ts nan]
    exact ⟨decoded, small, any_isSnan ops⟩
  · obtain ⟨-, decoded, -⟩ := canon_of_mem f hf
    rw [fpEval_invalid f ops ts noNan invalid]
    exact ⟨decoded, rfl⟩

/-! ### Elements of a row fire (R43, R44) -/

/-- R43: the base of an element of a row fire. -/
def rowBase (c γ : Term) (z d : Bool) : Term := if z then (false, 0, 0) else if d then Term.prod γ c else c

theorem rowBase_real (c γ : Term) (z d : Bool) : (rowBase c γ z d).real = if z then 0 else if d then γ.real * c.real else c.real := by
  unfold rowBase
  cases z
  · cases d
    · rfl
    · exact Term.real_prod γ c
  · simp [Term.real]

/-- R43: an element of a row fire of numbers is the sum of its base and its products, narrowed once. -/
theorem mmaElem_terms (c γ : Term) (z d : Bool) (ps : List (Term × Term)) (v x : Term)
    (products : sumVals ((ps.map fun p => Term.prod p.1 p.2).map Term.val) = some v.val)
    (sum : sumVals ([rowBase c γ z d, v].map Term.val) = some x.val) :
    mmaElem c.val γ.val z d (ps.map fun p => p.1.val) (ps.map fun p => p.2.val) = narrow fp32 .rne true 0 x.val := by
  have pairs : (((ps.map fun p => p.1.val).zip (ps.map fun p => p.2.val)).map fun (a, b) => a.mul b) =
      (ps.map fun p => Term.prod p.1 p.2).map fun t => some t.val := by
    rw [List.zip_map', List.map_map, List.map_map]; rfl
  have quiet : ((ps.map fun p => p.1.val) ++ ps.map fun p => p.2.val).any FVal.isNan = false := by
    simp [Term.not_nan]
  have base : (if z then some (.num false 0 0) else if d then γ.val.mul c.val else some c.val) = some (rowBase c γ z d).val := by
    unfold rowBase
    cases z <;> cases d <;> rfl
  have quiet' : (if d && !z then [c.val, γ.val] else if z then [] else [c.val]).any FVal.isNan = false := by
    cases z <;> cases d <;> rfl
  unfold mmaElem
  simp only [pairs, filterMap_some_val, products, any_isNone_some_val, quiet, quiet', base]
  rw [show [(rowBase c γ z d).val, v.val] = [rowBase c γ z d, v].map Term.val from rfl, sum]
  rfl

theorem mmaElem_nan (c γ : FVal) (z d : Bool) (as bs : List FVal) (h : ∃ s, FVal.nan s ∈ as ++ bs) :
    (mmaElem c γ z d as bs).bits = 0x7FC00000 := by
  obtain ⟨s, hs⟩ := h
  have nan : (as ++ bs).any FVal.isNan = true := List.any_eq_true.2 ⟨_, hs, rfl⟩
  simp [mmaElem, nan]

/-- R44: an element of an INT32 row fire that is not decayed. -/
theorem mmaIntElem_eq (c : W32) (γ : FVal) (z d : Bool) (sum : ℤ) (h : z = true ∨ d = false) :
    mmaIntElem c γ z d sum = (BitVec.ofInt 32 ((if z then 0 else c.toInt) + sum),
      { Flags.none with io := decide ((if z then 0 else c.toInt) + sum < -2 ^ 31 ∨ 2 ^ 31 ≤ (if z then 0 else c.toInt) + sum) }) := by
  have range (v : ℤ) : (decide (v < -(2 ^ 31)) || decide (2 ^ 31 - 1 < v)) = decide (v < -2 ^ 31 ∨ 2 ^ 31 ≤ v) := by
    rw [← Bool.decide_or]; exact decide_eq_decide.2 (by omega)
  unfold mmaIntElem
  cases z
  · obtain rfl : d = false := h.resolve_left Bool.false_ne_true
    simp only [Bool.false_eq_true, if_false, range]; rfl
  · simp only [if_true, range]; rfl

theorem rowElementsRoundOnce : Claims.RowElementsRoundOnce := by
  refine ⟨fun c γ z d ps => ?_, mmaElem_nan, mmaIntElem_eq⟩
  obtain ⟨v, products, vReal, -⟩ := sumVals_terms (ps.map fun p => Term.prod p.1 p.2)
  obtain ⟨t, sum, real, zeroSign⟩ := sumVals_terms [rowBase c γ z d, v]
  have value : t.real = (if z then 0 else if d then γ.real * c.real else c.real) + (ps.map fun p => p.1.real * p.2.real).sum := by
    rw [real, List.map_cons, List.map_singleton, List.sum_cons, List.sum_singleton, vReal, rowBase_real, List.map_map]
    simp [Function.comp_def, Term.real_prod]
  intro base x r
  rw [show x = t.real from value.symm, show r = _ from mmaElem_terms c γ z d ps v t products sum]
  refine ⟨Term.narrow_rounds fp32 (by decide) t, fun zero positive => ?_⟩
  have plus : t.1 = false := by
    by_contra minus
    obtain ⟨-, all⟩ := (zeroSign zero).1 (by simpa using minus)
    obtain ⟨neg, none⟩ := all (rowBase c γ z d) List.mem_cons_self
    rcases positive with rfl | nonzero
    · cases neg
    · exact nonzero (by rw [← (Term.real_eq_zero _).2 none, rowBase_real])
  rw [Term.narrow_zero fp32 t zero, plus]
  exact ⟨rfl, rfl⟩

end Sys2Proof.Machine
end

