-- ==== Sys2Proof/Proofs/Specials.lean ====
section
/-! PROOF. O14, its special functions: the reciprocal and the reciprocal root are rounded once, and powers of two and their logarithms
are exact (R92, Table 5.3). -/

namespace Sys2Proof.Machine

open Claims (grid Stands Term arithmeticFormats RoundsNearest Coded)

/-! ### Operands (R32) -/

/-- R32: the magnitude and the exponent of a finite FP32 code. -/
theorem fp32_fields (b : ℕ) (hb : b < 2 ^ 32) (n : Bool) (m : ℕ) (e : ℤ) (decoded : fp32.decode b = .num n m e) :
    m < 2 ^ 24 ∧ -149 ≤ e ∧ e ≤ 104 := by
  have finite : b / 2 ^ 23 % 2 ^ 8 ≠ 255 := fun top => by
    rw [fp32.decode_eq b hb, if_pos ⟨rfl, top⟩] at decoded
    split at decoded <;> cases decoded
  rw [decode_fp32 b hb finite] at decoded
  split at decoded <;> injection decoded with _ hm he
  · simp only [FFmt.least, fp32] at he
    omega
  · omega

/-- A code that stands for a number other than zero. -/
theorem stands_abs {v : FVal} {neg : Bool} {x : ℚ} (h : Stands v neg x) (hx : x ≠ 0) :
    ∃ m e, v = .num neg m e ∧ m ≠ 0 ∧ |x| = (m : ℚ) * 2 ^ (e : ℤ) := by
  obtain ⟨m, e, hv, real⟩ := h
  have hx' : x = Term.real (neg, m, e) := real
  subst hx'
  exact ⟨m, e, hv, mt (Term.real_eq_zero (neg, m, e)).2 hx, Term.abs_real (neg, m, e)⟩

/-! ### The reciprocal -/

/-- A quotient of naturals holds the exact one. -/
theorem holds_div (N m : ℕ) (hm : m ≠ 0) (e : ℤ) : (Mag.mk (N / m) e (decide (N % m ≠ 0))).Holds ((N : ℚ) / m * 2 ^ e) := by
  have pos : (0 : ℚ) < m := by positivity
  have unit : (0 : ℚ) < 2 ^ e := by positivity
  have split : (N : ℚ) / m = (N / m : ℕ) + (N % m : ℕ) / m := by
    rw [eq_comm, ← mul_left_inj' pos.ne', add_mul, div_mul_cancel₀ _ pos.ne', div_mul_cancel₀ _ pos.ne']
    exact_mod_cast by rw [Nat.mul_comm]; exact Nat.div_add_mod N m
  have rest : ((N % m : ℕ) : ℚ) / m < 1 := (div_lt_one pos).2 (by exact_mod_cast Nat.mod_lt N (Nat.pos_of_ne_zero hm))
  have none : (0 : ℚ) ≤ ((N % m : ℕ) : ℚ) / m := by positivity
  rw [split]
  refine ⟨mul_le_mul_of_nonneg_right (by linarith) unit.le, mul_lt_mul_of_pos_right (by linarith) unit, ?_⟩
  rw [decide_eq_true_iff, not_iff_not, mul_left_inj' unit.ne', left_eq_add, div_eq_zero_iff, or_iff_left pos.ne', Nat.cast_eq_zero]

theorem frcp_num (b : ℕ) (n : Bool) (m : ℕ) (e : ℤ) (decoded : fp32.decode b = .num n m e) (hm : m ≠ 0) :
    frcp b = ((roundMag fp32 .rne true 0 n ⟨2 ^ 80 / m, -e - 80, decide (2 ^ 80 % m ≠ 0)⟩).bits,
      (roundMag fp32 .rne true 0 n ⟨2 ^ 80 / m, -e - 80, decide (2 ^ 80 % m ≠ 0)⟩).flags) := by
  rw [frcp, decoded]
  exact if_neg hm

theorem frcp_rounds (b : ℕ) (neg : Bool) (x : ℚ) (hb : b < 2 ^ 32) (h : Stands (fp32.decode b) neg x) (hx : x ≠ 0) :
    RoundsNearest fp32 true neg (fun q => q * |x| < 1) (fun q => 1 < q * |x|) (frcp b).1 (frcp b).2 := by
  obtain ⟨m, e, decoded, hm, abs⟩ := stands_abs h hx
  have pos : 0 < |x| := abs_pos.2 hx
  have long : 2 ^ 56 ≤ 2 ^ 80 / m := (Nat.le_div_iff_mul_le (Nat.pos_of_ne_zero hm)).2 (by
    have small := (fp32_fields b hb neg m e decoded).1
    calc 2 ^ 56 * m ≤ 2 ^ 56 * 2 ^ 24 := Nat.mul_le_mul_left _ small.le
      _ = 2 ^ 80 := by norm_num)
  have nonzero : 2 ^ 80 / m ≠ 0 := by omega
  have value : ((2 ^ 80 : ℕ) : ℚ) / m * 2 ^ (-e - 80) = 1 / |x| := by
    rw [abs, zpow_sub₀ (by norm_num), zpow_neg]
    field_simp
    norm_num
  have holds := value ▸ holds_div (2 ^ 80) m hm (-e - 80)
  have rounds := holds.rounds_nearest (f := fp32) nonzero
    (fun _ => (Nat.le_log2 nonzero).2 ((by norm_num : 2 ^ 24 ≤ 2 ^ 56).trans long)) (by decide) true neg 0
  rw [frcp_num b neg m e decoded hm]
  simpa only [Rat.cast_id, lt_div_iff₀ pos, div_lt_iff₀ pos] using rounds

/-! ### The reciprocal root -/

/-- Rounding to the nearest asks of numbers that are not negative. -/
theorem roundsNearest_congr {f : FFmt} {sat neg : Bool} {below above below' above' : ℚ → Prop} {bits : ℕ} {fl : Flags}
    (hbelow : ∀ q, 0 ≤ q → (below q ↔ below' q)) (habove : ∀ q, 0 ≤ q → (above q ↔ above' q))
    (h : RoundsNearest f sat neg below above bits fl) : RoundsNearest f sat neg below' above' bits fl := by
  have mid (j : ℕ) : 0 ≤ (grid f j + grid f (j + 1)) / 2 := by
    have := grid_nonneg f j
    have := grid_nonneg f (j + 1)
    linarith
  have tiny : 0 ≤ Claims.minNormal f * (1 - 1 / 2 ^ (f.mb + 2)) := by
    have part : (1 : ℚ) / 2 ^ (f.mb + 2) ≤ 1 := (div_le_one (by positivity)).2 (one_le_pow₀ (by norm_num))
    exact mul_nonneg (by rw [Claims.minNormal]; positivity) (by linarith)
  obtain ⟨k, ⟨lower, upper⟩, coded⟩ := h
  refine ⟨k, ⟨fun j hj => ?_, ?_⟩, ?_⟩
  · rw [← hbelow _ (mid j), ← habove _ (mid j)]; exact lower j hj
  · rw [← hbelow _ (mid k), ← habove _ (mid k)]; exact upper
  · rw [← hbelow _ (grid_nonneg f k), ← habove _ (grid_nonneg f k), ← habove _ tiny]; exact coded

theorem lt_inv_sqrt_iff (x r : ℝ) (hx : 0 < x) (hr : 0 ≤ r) : (r < (√x)⁻¹ ↔ r * r * x < 1) ∧ ((√x)⁻¹ < r ↔ 1 < r * r * x) := by
  have root : 0 < √x := Real.sqrt_pos.2 hx
  have square : r * √x * (r * √x) = r * r * x := by rw [mul_mul_mul_comm, Real.mul_self_sqrt hx.le]
  rw [← one_div, lt_div_iff₀ root, div_lt_iff₀ root, mul_self_lt_mul_self_iff (by positivity) zero_le_one,
    mul_self_lt_mul_self_iff zero_le_one (by positivity : 0 ≤ r * √x), square, one_mul]
  exact ⟨Iff.rfl, Iff.rfl⟩

/-- R92: the bits found make the largest `s` with `s`² × `m` no more than `t`. -/
theorem rsqBits_spec (i s m t : ℕ) (low : s * s * m ≤ t) (high : t < (s + 2 ^ i) * (s + 2 ^ i) * m) :
    rsqBits i s m t * rsqBits i s m t * m ≤ t ∧ t < (rsqBits i s m t + 1) * (rsqBits i s m t + 1) * m := by
  induction i generalizing s with
  | zero => exact ⟨low, high⟩
  | succ i ih =>
    rw [rsqBits]
    split
    · next fits => exact ih _ fits (by rwa [Nat.add_assoc, ← Nat.two_mul, ← Nat.pow_succ'])
    · next above => exact ih _ low (not_le.1 above)

/-- The operand of a reciprocal root with an even exponent: its magnitude, and half its exponent. -/
def rootOperand (m : ℕ) (e : ℤ) : ℕ × ℤ :=
  (if decide (e % 2 = 1) then 2 * m else m, (if decide (e % 2 = 1) then e - 1 else e) / 2)

theorem rootOperand_spec (m : ℕ) (e : ℤ) (hm : m ≠ 0) (small : m < 2 ^ 24) :
    (rootOperand m e).1 ≠ 0 ∧ (rootOperand m e).1 < 2 ^ 25 ∧
      (m : ℝ) * 2 ^ e = (rootOperand m e).1 * (2 ^ (rootOperand m e).2 * 2 ^ (rootOperand m e).2) := by
  unfold rootOperand
  by_cases odd : e % 2 = 1
  · simp only [odd, decide_true, if_true]
    refine ⟨by omega, by omega, ?_⟩
    rw [← zpow_add₀ (by norm_num), show (e - 1) / 2 + (e - 1) / 2 = e - 1 by omega, zpow_sub_one₀ (by norm_num)]
    push_cast; ring
  · simp only [odd, decide_false, Bool.false_eq_true, if_false]
    refine ⟨hm, by omega, ?_⟩
    rw [← zpow_add₀ (by norm_num), show e / 2 + e / 2 = e by omega]

theorem frsq_num (b m : ℕ) (e : ℤ) (decoded : fp32.decode b = .num false m e) (hm : m ≠ 0) (s : ℕ)
    (hs : s = rsqBits 66 0 (rootOperand m e).1 (2 ^ 128)) :
    frsq b = ((roundMag fp32 .rne true 0 false ⟨s, -(rootOperand m e).2 - 64, decide (s * s * (rootOperand m e).1 ≠ 2 ^ 128)⟩).bits,
      (roundMag fp32 .rne true 0 false ⟨s, -(rootOperand m e).2 - 64, decide (s * s * (rootOperand m e).1 ≠ 2 ^ 128)⟩).flags) := by
  rw [frsq, decoded, hs]
  exact (if_neg hm).trans (if_neg Bool.false_ne_true)

/-- R92: that `s` holds the reciprocal root. -/
theorem holds_root (m s : ℕ) (h : ℤ) (hm : m ≠ 0) (low : s * s * m ≤ 2 ^ 128) (high : 2 ^ 128 < (s + 1) * (s + 1) * m) :
    (Mag.mk s (-h - 64) (decide (s * s * m ≠ 2 ^ 128))).Holds (√((m : ℝ) * (2 ^ h * 2 ^ h)))⁻¹ := by
  have pos : 0 < (m : ℝ) * (2 ^ h * 2 ^ h) := by positivity
  have square (c : ℕ) : (c : ℝ) * 2 ^ (-h - 64) * (c * 2 ^ (-h - 64)) * (m * (2 ^ h * 2 ^ h)) = (c * c * m : ℕ) / (2 ^ 128 : ℕ) := by
    rw [zpow_sub₀ (by norm_num), zpow_neg]
    push_cast
    field_simp
    norm_num
  have whole : (0 : ℝ) < (2 ^ 128 : ℕ) := by positivity
  have cmp (c : ℕ) := lt_inv_sqrt_iff _ ((c : ℝ) * 2 ^ (-h - 64)) pos (by positivity)
  simp only [square, div_lt_one whole, one_lt_div whole, Nat.cast_lt] at cmp
  have lower := not_lt.1 (mt (cmp s).2.1 (not_lt.2 low))
  refine ⟨lower, by exact_mod_cast (cmp (s + 1)).2.2 high, ?_⟩
  exact decide_eq_true_iff.trans (low.lt_iff_ne.symm.trans ((cmp s).1.symm.trans lower.lt_iff_ne))

theorem frsq_rounds (b : ℕ) (x : ℚ) (hb : b < 2 ^ 32) (h : Stands (fp32.decode b) false x) (hx : x ≠ 0) :
    RoundsNearest fp32 true false (fun q => q * q * x < 1) (fun q => 1 < q * q * x) (frsq b).1 (frsq b).2 := by
  obtain ⟨m, e, decoded, real⟩ := h
  have real : x = (m : ℚ) * 2 ^ e := by simpa using real
  have hm : m ≠ 0 := fun zero => hx (by rw [real, zero]; simp)
  obtain ⟨positive, small, operand⟩ := rootOperand_spec m e hm (fp32_fields b hb false m e decoded).1
  obtain ⟨s, hs⟩ : ∃ s, s = rsqBits 66 0 (rootOperand m e).1 (2 ^ 128) := ⟨_, rfl⟩
  obtain ⟨low, high⟩ := rsqBits_spec 66 0 (rootOperand m e).1 (2 ^ 128) (by simp) (by omega)
  rw [← hs] at low high
  have long : 2 ^ 51 ≤ s := by
    by_contra short
    have : (s + 1) * (s + 1) * (rootOperand m e).1 ≤ 2 ^ 51 * 2 ^ 51 * 2 ^ 25 :=
      Nat.mul_le_mul (Nat.mul_le_mul (by omega) (by omega)) small.le
    omega
  have nonzero : s ≠ 0 := by omega
  have value : (x : ℝ) = (rootOperand m e).1 * (2 ^ (rootOperand m e).2 * 2 ^ (rootOperand m e).2) := by
    rw [← operand, real]; push_cast; rfl
  have pos : (0 : ℝ) < x := by rw [value]; positivity
  have holds := holds_root (rootOperand m e).1 s (rootOperand m e).2 positive low high
  rw [← value] at holds
  have rounds := holds.rounds_nearest (f := fp32) nonzero
    (fun _ => (Nat.le_log2 nonzero).2 ((by norm_num : 2 ^ 24 ≤ 2 ^ 51).trans long)) (by decide) true false 0
  rw [frsq_num b m e decoded hm s hs]
  refine roundsNearest_congr (fun q hq => ?_) (fun q hq => ?_) rounds
  · rw [(lt_inv_sqrt_iff x q pos (by exact_mod_cast hq)).1]; exact_mod_cast Iff.rfl
  · rw [(lt_inv_sqrt_iff x q pos (by exact_mod_cast hq)).2]; exact_mod_cast Iff.rfl

/-! ### Exact results (R92) -/

/-- R38: a magnitude no finer than its quantum is its own rounding. -/
theorem floorOf_exact (f : FFmt) (m : ℕ) (e : ℤ) (hm : m ≠ 0) (hq : f.quantumOf ⟨m, e, false⟩ ≤ e) :
    grid f (f.floorOf ⟨m, e, false⟩) = (m : ℚ) * 2 ^ e := by
  have holds : (Mag.mk m e false).Holds ((m : ℚ) * 2 ^ e) := Mag.holds_exact m e
  obtain ⟨lower, -, inexact⟩ := holds.between (f := f) hm (by simp)
  rw [Rat.cast_id] at lower inexact
  have exact : (f.cutOf ⟨m, e, false⟩).inexact = false := by rw [FFmt.cutOf, Mag.cut, if_pos hq]
  exact lower.eq_of_not_lt fun less => by rw [inexact.2 less] at exact; cases exact

/-- R38: up to 24 bits, not below the least quantum, need no finer one. -/
theorem quantumOf_fp32_le (m : ℕ) (e : ℤ) (low : -149 ≤ e) (short : Nat.log2 m ≤ 23) : fp32.quantumOf ⟨m, e, false⟩ ≤ e := by
  have least : fp32.least = -149 := rfl
  have free : (Mag.mk m e false).lead - (fp32.mb : ℤ) = e + Nat.log2 m - 23 := rfl
  obtain ⟨-, -, which | which⟩ := fp32.least_le_quantumOf ⟨m, e, false⟩ <;> omega

theorem grid_above_largest : grid fp32 (Claims.largest fp32 + 1) = 2 ^ 128 := by
  rw [grid_eq]
  norm_num [Claims.largest, FFmt.quanta, FFmt.quantum, fp32]

/-- R38: an FP32 magnitude so coarse is given exactly, with no flag. -/
theorem roundMag_exact (neg : Bool) (m : ℕ) (e : ℤ) (hm : m ≠ 0) (hq : fp32.quantumOf ⟨m, e, false⟩ ≤ e)
    (small : (m : ℚ) * 2 ^ e < 2 ^ 128) :
    Stands (fp32.decode (roundMag fp32 .rne true 0 neg ⟨m, e, false⟩).bits) neg ((if neg then -1 else 1) * ((m : ℚ) * 2 ^ e)) ∧
      (roundMag fp32 .rne true 0 neg ⟨m, e, false⟩).flags = Flags.none := by
  have holds : (Mag.mk m e false).Holds ((m : ℚ) * 2 ^ e) := Mag.holds_exact m e
  have exact := floorOf_exact fp32 m e hm hq
  have inexact := (holds.between (f := fp32) hm (by simp)).2.2
  have coded := holds.coded (f := fp32) hm (by simp) (by decide) .rne true neg 0
  rw [Rat.cast_id, exact] at inexact coded
  have finite : fp32.floorOf ⟨m, e, false⟩ ≤ Claims.largest fp32 := Nat.le_of_lt_succ ((grid_strictMono fp32).lt_iff_lt.1 (by
    rw [exact, Nat.succ_eq_add_one, grid_above_largest]; exact small))
  have stays : ¬ (fp32.cutOf ⟨m, e, false⟩).goesUp .rne 0 = true := fun up =>
    lt_irrefl _ (inexact.1 (Cut.inexact_of_goesUp _ _ _ up))
  rw [if_neg stays, Coded, if_neg finite.not_gt] at coded
  obtain ⟨bits, nx, uf, flags⟩ := coded
  refine ⟨?_, ?_⟩
  · rw [bits, ← exact]
    exact stands_fp32_of_le neg _ finite
  · rw [flags, Bool.eq_false_iff.2 fun h => lt_irrefl _ (nx.1 h), Bool.eq_false_iff.2 fun h => lt_irrefl _ (uf.1 h).1]
    rfl

/-- Quanta that make an integer, as FEXP2 reads them. -/
theorem whole_of_eq (N m : ℕ) (e : ℤ) (h : (N : ℚ) = m * 2 ^ e) :
    (e ≥ 0 ∨ m % 2 ^ (-e).toNat = 0) ∧ (if e ≥ 0 then (m : ℤ) * 2 ^ e.toNat else (m / 2 ^ (-e).toNat : ℕ)) = N := by
  by_cases pos : e ≥ 0
  · obtain ⟨s, rfl⟩ := Int.eq_ofNat_of_zero_le pos
    refine ⟨.inl pos, ?_⟩
    rw [if_pos pos]
    rw [zpow_natCast] at h
    rw [Int.toNat_natCast]
    exact_mod_cast h.symm
  · obtain ⟨s, hs⟩ : ∃ s : ℕ, e = -s := ⟨(-e).toNat, by omega⟩
    have product : m = N * 2 ^ s := by
      rw [hs, zpow_neg, zpow_natCast, ← div_eq_mul_inv, eq_div_iff (by positivity)] at h
      exact_mod_cast h.symm
    rw [if_neg pos, show (-e).toNat = s by omega, product, Nat.mul_div_cancel _ (Nat.two_pow_pos s)]
    exact ⟨.inr (Nat.mul_mod_left _ _), rfl⟩

theorem fexp2_zero (b : ℕ) (n : Bool) (e : ℤ) (decoded : fp32.decode b = .num n 0 e) : fexp2 b = (0x3F800000, Flags.none) := by
  rw [fexp2, decoded]; rfl

/-- R92: FEXP2 of an integer of small magnitude is a power of two, rounded. -/
theorem fexp2_whole (b : ℕ) (n : Bool) (m : ℕ) (e : ℤ) (decoded : fp32.decode b = .num n m e) (hm : m ≠ 0)
    (small : e + Nat.log2 m < 8) (N : ℕ) (whole : (N : ℚ) = m * 2 ^ e) :
    fexp2 b = ((roundMag fp32 .rne true 0 false ⟨1, if n then -(N : ℤ) else N, false⟩).bits,
      (roundMag fp32 .rne true 0 false ⟨1, if n then -(N : ℤ) else N, false⟩).flags) := by
  obtain ⟨integer, value⟩ := whole_of_eq N m e whole
  rw [fexp2, decoded]
  refine (if_neg hm).trans ((if_neg (not_le.2 small)).trans ?_)
  simp only [if_pos integer, value]

theorem fexp2_exact (b : ℕ) (neg : Bool) (k : ℤ) (h : Stands (fp32.decode b) neg k) (low : -149 ≤ k) (high : k ≤ 127) :
    Stands (fp32.decode (fexp2 b).1) false ((2 : ℚ) ^ k) ∧ (fexp2 b).2 = Flags.none := by
  obtain ⟨m, e, decoded, real⟩ := h
  have abs : |(k : ℚ)| = m * 2 ^ e := by rw [real]; exact Term.abs_real (neg, m, e)
  have natAbs : (k.natAbs : ℚ) = m * 2 ^ e := by rw [← abs, Nat.cast_natAbs, Int.cast_abs]
  by_cases hm : m = 0
  · subst hm
    obtain rfl : k = 0 := by simpa using abs
    rw [fexp2_zero b neg e decoded]
    exact ⟨⟨2 ^ 23, -23, by decide, by norm_num⟩, rfl⟩
  · have small : e + Nat.log2 m < 8 := by
      have holds : (Mag.mk m e false).Holds ((m : ℚ) * 2 ^ e) := Mag.holds_exact m e
      refine (holds.lead_lt_iff hm 8).2 ?_
      rw [← natAbs]
      exact_mod_cast (by omega : k.natAbs < 2 ^ 8)
    have sign : (if neg then -(k.natAbs : ℤ) else k.natAbs) = k := by
      refine Int.cast_injective (α := ℚ) ?_
      cases neg
      · rw [if_neg Bool.false_ne_true, Int.cast_natCast, natAbs, real]; simp
      · rw [if_pos rfl, Int.cast_neg, Int.cast_natCast, natAbs, real]; simp
    rw [fexp2_whole b neg m e decoded hm small k.natAbs natAbs, sign]
    have exact := roundMag_exact false 1 k one_ne_zero (quantumOf_fp32_le 1 k low (by decide)) (by
      rw [Nat.cast_one, one_mul]
      exact_mod_cast zpow_lt_zpow_right₀ (by norm_num : (1 : ℚ) < 2) (by omega : k < (128 : ℕ)))
    simpa using exact

/-- R92: FLOG2 of a power of two is its exponent, rounded. -/
theorem flog2_two_pow (b l : ℕ) (e : ℤ) (decoded : fp32.decode b = .num false (2 ^ l) e) :
    flog2 b = if e + l = 0 then (0, Flags.none) else
      ((roundMag fp32 .rne true 0 (decide (e + l < 0)) ⟨(e + l).natAbs, 0, false⟩).bits,
        (roundMag fp32 .rne true 0 (decide (e + l < 0)) ⟨(e + l).natAbs, 0, false⟩).flags) := by
  rw [flog2, decoded]
  refine (if_neg (Nat.two_pow_pos l).ne').trans ((if_neg Bool.false_ne_true).trans ?_)
  simp only [Nat.log2_two_pow, if_true]

theorem flog2_exact (b : ℕ) (k : ℤ) (hb : b < 2 ^ 32) (h : Stands (fp32.decode b) false ((2 : ℚ) ^ k)) :
    Stands (fp32.decode (flog2 b).1) (decide (k < 0)) k ∧ (flog2 b).2 = Flags.none := by
  obtain ⟨m, e, decoded, real⟩ := h
  have real : (2 : ℚ) ^ k = m * 2 ^ e := by simpa using real
  obtain ⟨small, least, most⟩ := fp32_fields b hb false m e decoded
  have quanta : (m : ℚ) = 2 ^ (k - e) := by rw [zpow_sub₀ (by norm_num), real, mul_div_cancel_right₀ _ (by positivity)]
  obtain ⟨l, hl⟩ : ∃ l : ℕ, k - e = l := Int.eq_ofNat_of_zero_le (by
    by_contra fraction
    have less : (m : ℚ) < 1 := quanta ▸ zpow_lt_one_of_neg₀ (by norm_num) (not_le.1 fraction)
    have pos : (0 : ℚ) < m := quanta ▸ by positivity
    have : 0 < m ∧ m < 1 := by exact_mod_cast And.intro pos less
    omega)
  obtain rfl : m = 2 ^ l := by rw [hl, zpow_natCast] at quanta; exact_mod_cast quanta
  have short : l < 24 := (Nat.pow_lt_pow_iff_right (by norm_num)).1 small
  rw [flog2_two_pow b l e decoded, show e + l = k by omega]
  by_cases zero : k = 0
  · subst zero
    exact ⟨⟨0, -149, by decide, by simp⟩, rfl⟩
  · rw [if_neg zero]
    have size : k.natAbs < 2 ^ 23 := by omega
    have exact := roundMag_exact (decide (k < 0)) k.natAbs 0 (by omega)
      (quantumOf_fp32_le _ 0 (by norm_num) ((Nat.log2_lt (by omega)).2 size).le) (by
      rw [zpow_zero, mul_one]
      exact_mod_cast size.trans (by norm_num))
    convert exact using 2
    rw [zpow_zero, mul_one, Nat.cast_natAbs, Int.cast_abs]
    rcases lt_or_ge k 0 with neg | pos
    · simp [neg, abs_of_neg]
    · simp [pos.not_gt, pos, abs_of_nonneg]

theorem specialFunctionsRoundOnce : Claims.SpecialFunctionsRoundOnce :=
  ⟨fun b neg x hb h hx => frcp_rounds b neg x hb h hx, fun b x hb h hx => frsq_rounds b x hb h hx,
    fun b neg k _ h low high => fexp2_exact b neg k h low high, fun b k hb h => flog2_exact b k hb h⟩

/-- Settles O14: codes are read by their fields, and a magnitude is cut at the quantum of its format, between two neighbours of which
the rounding takes one. -/
theorem numbersRoundOnce : Obligations.NumbersRoundOnce :=
  ⟨numbersDecode, numbersNarrow, sumsRoundOnce, rowElementsRoundOnce, specialFunctionsRoundOnce⟩

end Sys2Proof.Machine
end

