-- ==== Sys2Proof/Proofs/Encoding.lean ====
section
/-! PROOF. O2 to O4: decoding and encoding are inverse to each other, field by field (Tables 3.1, 10.2, R209) and row by row of
the opcode map, the node kinds and the sequencer words (Tables 3.6 to 3.9, 10.3, 11.3). -/

namespace Sys2Proof

/-! ### A word and its fields -/

theorem append_inj {v w : ℕ} {a c : BitVec v} {b d : BitVec w} : a ++ b = c ++ d ↔ a = c ∧ b = d := by
  refine ⟨fun h => ⟨?high, ?low⟩, fun ⟨high, low⟩ => high ▸ low ▸ rfl⟩
  case high => rw [← BitVec.extractLsb'_append_eq_left (a := a) (b := b), h, BitVec.extractLsb'_append_eq_left]
  case low => rw [← BitVec.extractLsb'_append_eq_right (a := a) (b := b), h, BitVec.extractLsb'_append_eq_right]

theorem ofBool_getLsbD {n : ℕ} (w : BitVec n) (i : ℕ) : BitVec.ofBool (w.getLsbD i) = w.extractLsb' i 1 := by
  ext j hj
  obtain rfl : j = 0 := by omega
  simp

/-- Table 3.1 leaves out no bit: the fields and the opcode of a word with V = 1 make it up again. -/
theorem Fields.toWord_ofWord (w : W64) (valid : w.getLsbD 1 = true) :
    (Fields.ofWord w).toWord (w.extractLsb' 30 8) = w := by
  have v : 1#1 = w.extractLsb' 1 1 := by rw [← ofBool_getLsbD, valid]; rfl
  simp only [Fields.toWord, Fields.ofWord, v, ofBool_getLsbD, BitVec.extractLsb'_append_extractLsb'_eq_extractLsb',
    BitVec.extractLsb'_eq_self]

/-- Table 10.2 leaves out no bit. -/
theorem NodeFields.toWord_ofWord (w : W64) : (NodeFields.ofWord w).toWord (w.extractLsb' 58 6) = w := by
  simp only [NodeFields.toWord, NodeFields.ofWord, BitVec.extractLsb'_append_extractLsb'_eq_extractLsb',
    BitVec.extractLsb'_eq_self]

/-- R209 leaves out no bit. -/
theorem SeqFields.toWord_ofWord (w : W64) : (SeqFields.ofWord w).toWord (w.extractLsb' 58 6) = w := by
  simp only [SeqFields.toWord, SeqFields.ofWord, BitVec.extractLsb'_append_extractLsb'_eq_extractLsb',
    BitVec.extractLsb'_eq_self]

theorem Fields.toWord_inj {f g : Fields} {c d : BitVec 8} (h : f.toWord c = g.toWord d) : f = g ∧ c = d := by
  obtain ⟨h, x⟩ := append_inj.1 h
  simp only [append_inj] at h
  cases f; cases g
  simp_all [BitVec.ofBool_eq_iff_eq]

theorem NodeFields.toWord_inj {n m : NodeFields} {c d : BitVec 6} (h : n.toWord c = m.toWord d) : n = m ∧ c = d := by
  obtain ⟨h, payload⟩ := append_inj.1 h
  simp only [append_inj] at h
  cases n; cases m
  simp_all

theorem SeqFields.toWord_inj {q r : SeqFields} {c d : BitVec 6} (h : q.toWord c = r.toWord d) : q = r ∧ c = d := by
  obtain ⟨h, opnd⟩ := append_inj.1 h
  simp only [append_inj] at h
  cases q; cases r
  simp_all

theorem Fields.valid_toWord (f : Fields) (c : BitVec 8) : (f.toWord c).getLsbD 1 = true := by
  simp only [Fields.toWord, BitVec.getLsbD_append]
  simp

theorem Fields.ofWord_toWord (f : Fields) (c : BitVec 8) :
    Fields.ofWord (f.toWord c) = f ∧ (f.toWord c).extractLsb' 30 8 = c :=
  Fields.toWord_inj (Fields.toWord_ofWord _ (f.valid_toWord c))

theorem NodeFields.ofWord_toWord (n : NodeFields) (c : BitVec 6) :
    NodeFields.ofWord (n.toWord c) = n ∧ (n.toWord c).extractLsb' 58 6 = c :=
  NodeFields.toWord_inj (NodeFields.toWord_ofWord _)

theorem SeqFields.ofWord_toWord (q : SeqFields) (c : BitVec 6) :
    SeqFields.ofWord (q.toWord c) = q ∧ (q.toWord c).extractLsb' 58 6 = c :=
  SeqFields.toWord_inj (SeqFields.toWord_ofWord _)

/-! ### What a word decodes to -/

/-- R49, R50, R54: a slot's word is a step when V = 1 and its opcode is in the map, and then of its own fields. -/
theorem decodeSlot_eq_ok_iff (w : W64) (i : Instr) : decodeSlot w = .ok i ↔
    w.getLsbD 1 = true ∧ ∃ mk, opcodeMap (w.extractLsb' 30 8).toNat = some mk ∧ mk (Fields.ofWord w) = i := by
  unfold decodeSlot
  cases w.getLsbD 1 <;> cases opcodeMap (w.extractLsb' 30 8).toNat <;> simp

theorem decodeNode_eq_ok_iff (w : W64) (i : Instr) : decodeNode w = .ok i ↔
    ∃ mk, nodeMap (w.extractLsb' 58 6).toNat = some mk ∧ mk (NodeFields.ofWord w) = i := by
  unfold decodeNode
  cases nodeMap (w.extractLsb' 58 6).toNat <;> simp

theorem decodeSeq_eq_ok_iff (w : W64) (i : Instr) : decodeSeq w = .ok i ↔
    ∃ mk, seqMap (w.extractLsb' 58 6).toNat = some mk ∧ mk (SeqFields.ofWord w) = i := by
  unfold decodeSeq
  cases seqMap (w.extractLsb' 58 6).toNat <;> simp

/-- R54: a full slot whose opcode is not in the map. -/
theorem decodeSlot_of_unlisted (w : W64) (valid : w.getLsbD 1 = true)
    (h : opcodeMap (w.extractLsb' 30 8).toNat = none) : decodeSlot w = .error (.illegalOpc (w.extractLsb' 30 8)) := by
  rw [decodeSlot, valid, if_neg (by decide), h]

theorem decodeSlot_toWord {c : BitVec 8} {mk : Fields → Instr} (f : Fields) (row : opcodeMap c.toNat = some mk) :
    decodeSlot (f.toWord c) = .ok (mk f) := by
  obtain ⟨fields, opcode⟩ := f.ofWord_toWord c
  exact (decodeSlot_eq_ok_iff _ _).2 ⟨f.valid_toWord c, mk, by rw [opcode, row], by rw [fields]⟩

theorem decodeNode_toWord {c : BitVec 6} {mk : NodeFields → Instr} (n : NodeFields) (row : nodeMap c.toNat = some mk) :
    decodeNode (n.toWord c) = .ok (mk n) := by
  obtain ⟨fields, kind⟩ := n.ofWord_toWord c
  exact (decodeNode_eq_ok_iff _ _).2 ⟨mk, by rw [kind, row], by rw [fields]⟩

theorem decodeSeq_toWord {c : BitVec 6} {mk : SeqFields → Instr} (q : SeqFields) (row : seqMap c.toNat = some mk) :
    decodeSeq (q.toWord c) = .ok (mk q) := by
  obtain ⟨fields, op⟩ := q.ofWord_toWord c
  exact (decodeSeq_eq_ok_iff _ _).2 ⟨mk, by rw [op, row], by rw [fields]⟩

/-- The class byte chooses the decoder (log 4). -/
theorem decode_append (cls : BitVec 8) (v : W64) : decode (cls ++ v) =
    if cls = 0#8 then decodeSlot v else if cls = 1#8 then decodeNode v else if cls = 2#8 then decodeSeq v
    else if cls = 3#8 then decodeEvent v else .error (.badClass cls) := by
  rw [decode, Laws.StepClass.class_append, BitVec.extractLsb'_append_eq_right]

/-! ### The word of a step -/

/-- The word `w` is that of the step `i`: the tables have a row with `i`, and `w` is made of its code and the fields of `i`. -/
inductive WordOf : Instr → BitVec 72 → Prop where
  | slot {c : BitVec 8} {mk : Fields → Instr} (f : Fields) (row : opcodeMap c.toNat = some mk) :
      WordOf (mk f) (0#8 ++ f.toWord c)
  | node {c : BitVec 6} {mk : NodeFields → Instr} (n : NodeFields) (row : nodeMap c.toNat = some mk) :
      WordOf (mk n) (1#8 ++ n.toWord c)
  | seq {c : BitVec 6} {mk : SeqFields → Instr} (q : SeqFields) (row : seqMap c.toNat = some mk) :
      WordOf (mk q) (2#8 ++ q.toWord c)
  | event {c : W64} {i : Instr} (row : eventMap c.toNat = some i) : WordOf i (3#8 ++ c)

/-- Every step has its row: the fields that a step carries choose its table, and the code in its word the row. -/
theorem wordOf_encode (i : Instr) : WordOf i (encode i) := by
  cases i <;> constructor <;> rfl

theorem WordOf.decode_eq {i : Instr} {w : BitVec 72} (h : WordOf i w) : decode w = .ok i := by
  cases h with
  | slot f row => exact (decode_append 0#8 _).trans (decodeSlot_toWord f row)
  | node n row => exact (decode_append 1#8 _).trans (decodeNode_toWord n row)
  | seq q row => exact (decode_append 2#8 _).trans (decodeSeq_toWord q row)
  | event row => exact (decode_append 3#8 _).trans (by rw [decodeEvent, row]; rfl)

/-- Settles O3: the word of a step has a row and the step's own fields, and both are read back. -/
theorem decodeInvertsEncode : Obligations.DecodeInvertsEncode := fun i => (wordOf_encode i).decode_eq

/-! ### The rows of the tables -/

/-- Tables 3.7 to 3.9, one opcode at a time. -/
theorem encode_of_opcodeMap {c : BitVec 8} {mk : Fields → Instr} (row : opcodeMap c.toNat = some mk) (f : Fields) :
    encode (mk f) = 0#8 ++ f.toWord c := by
  obtain ⟨c, small⟩ := c
  interval_cases c <;> cases row <;> rfl

/-- Table 10.3, one kind at a time. -/
theorem encode_of_nodeMap {c : BitVec 6} {mk : NodeFields → Instr} (row : nodeMap c.toNat = some mk) (n : NodeFields) :
    encode (mk n) = 1#8 ++ n.toWord c := by
  obtain ⟨c, small⟩ := c
  interval_cases c <;> cases row <;> rfl

/-- Table 11.3, one operation at a time. -/
theorem encode_of_seqMap {c : BitVec 6} {mk : SeqFields → Instr} (row : seqMap c.toNat = some mk) (q : SeqFields) :
    encode (mk q) = 2#8 ++ q.toWord c := by
  obtain ⟨c, small⟩ := c
  interval_cases c <;> cases row <;> rfl

/-- Table 3.6: the opcode map has exactly the opcodes of its ranges. -/
theorem isSome_opcodeMap_iff (c : ℕ) (small : c < 2 ^ 8) : (opcodeMap c).isSome ↔ Claims.ListedOpcode c := by
  unfold Claims.ListedOpcode
  interval_cases c <;> decide

theorem isSome_nodeMap_iff : ∀ c : BitVec 6, (nodeMap c.toNat).isSome ↔ 1 ≤ c.toNat ∧ c.toNat ≤ 19 := by decide

theorem isSome_seqMap_iff : ∀ c : BitVec 6, (seqMap c.toNat).isSome ↔ 1 ≤ c.toNat ∧ c.toNat ≤ 18 := by decide

/-! ### The words that decode -/

theorem encode_of_decodeSlot (w : W64) (i : Instr) (h : decodeSlot w = .ok i) : encode i = 0#8 ++ w := by
  obtain ⟨valid, mk, row, rfl⟩ := (decodeSlot_eq_ok_iff w i).1 h
  rw [encode_of_opcodeMap row, Fields.toWord_ofWord w valid]

theorem encode_of_decodeNode (w : W64) (i : Instr) (h : decodeNode w = .ok i) : encode i = 1#8 ++ w := by
  obtain ⟨mk, row, rfl⟩ := (decodeNode_eq_ok_iff w i).1 h
  rw [encode_of_nodeMap row, NodeFields.toWord_ofWord w]

theorem encode_of_decodeSeq (w : W64) (i : Instr) (h : decodeSeq w = .ok i) : encode i = 2#8 ++ w := by
  obtain ⟨mk, row, rfl⟩ := (decodeSeq_eq_ok_iff w i).1 h
  rw [encode_of_seqMap row, SeqFields.toWord_ofWord w]

theorem bitsOf_eq (w : W64) (hi lo : ℕ) : Claims.bitsOf w hi lo = (w.extractLsb' lo (hi + 1 - lo)).toNat := by
  rw [Claims.bitsOf, BitVec.extractLsb'_toNat, Nat.shiftRight_eq_div_pow]

/-- R50, R54: of the words with V = 1, those decode whose opcode Table 3.6 lists. -/
theorem decodeSlot_ok_iff (w : W64) (valid : w.getLsbD 1 = true) :
    (∃ i, decodeSlot w = .ok i) ↔ Claims.ListedOpcode (Claims.bitsOf w 37 30) := by
  rw [bitsOf_eq, ← isSome_opcodeMap_iff _ (BitVec.isLt _), Option.isSome_iff_exists]
  simp [decodeSlot_eq_ok_iff, valid]

theorem decodeSlot_error (w : W64) (valid : w.getLsbD 1 = true) (unlisted : ¬ Claims.ListedOpcode (Claims.bitsOf w 37 30)) :
    decodeSlot w = .error (.illegalOpc (w.extractLsb' 30 8)) := by
  rw [bitsOf_eq, ← isSome_opcodeMap_iff _ (BitVec.isLt _), Option.not_isSome_iff_eq_none] at unlisted
  exact decodeSlot_of_unlisted w valid unlisted

/-- R176: the nodes of Table 10.3 decode. -/
theorem decodeNode_ok_iff (w : W64) :
    (∃ i, decodeNode w = .ok i) ↔ 1 ≤ Claims.bitsOf w 63 58 ∧ Claims.bitsOf w 63 58 ≤ 19 := by
  rw [bitsOf_eq, ← isSome_nodeMap_iff, Option.isSome_iff_exists]
  simp [decodeNode_eq_ok_iff]

/-- R209: the words of Table 11.3 decode. -/
theorem decodeSeq_ok_iff (w : W64) :
    (∃ i, decodeSeq w = .ok i) ↔ 1 ≤ Claims.bitsOf w 63 58 ∧ Claims.bitsOf w 63 58 ≤ 18 := by
  rw [bitsOf_eq, ← isSome_seqMap_iff, Option.isSome_iff_exists]
  simp [decodeSeq_eq_ok_iff]

/-- Settles O4, from the rows of the tables and from the fields that make up a word. -/
theorem wordsDecodeWhereListed : Obligations.WordsDecodeWhereListed :=
  ⟨encode_of_decodeSlot, encode_of_decodeNode, encode_of_decodeSeq, Machine.decodeSlot_of_not_valid,
    fun w valid => ⟨decodeSlot_ok_iff w valid, decodeSlot_error w valid⟩, decodeNode_ok_iff, decodeSeq_ok_iff⟩

/-- Settles O2: each word is made of the fields that the spec gives for it and of the code of its row. -/
theorem wordsOfTheSpecDecode : Obligations.WordsOfTheSpecDecode :=
  ⟨decodeSlot_toWord (c := 0x01#8) ⟨1#8, 3#8, 0#2, 2#3, 0#2, 0#3, 24#5, 12#5, 16#5, true, false, 3#3, 1#3, 1#2, 1#3, false⟩ rfl,
    decodeSlot_toWord (c := 0xAD#8) ⟨0#8, 0#8, 2#2, 2#3, 0#2, 0#3, 6#5, 14#5, 17#5, true, false, 0#3, 0#3, 0#2, 0#3, false⟩ rfl,
    decodeNode_toWord (c := 4#6) ⟨4#10, 0#10, 0#6, 0#32⟩ rfl, decodeSeq_toWord (c := 10#6) ⟨0#6, 0#6, 1#6, 1#40⟩ rfl⟩

end Sys2Proof
end

