-- ==== Sys2Proof/Proofs/OneCycle.lean ====
section
/-! PROOF. O10: the one-cycle integer and stream operations give their results at the fire (R65, R68 to R71, R73 to R77). -/

namespace Sys2Proof.Machine

/-! ### Results at the fire of a PE (R19, R24, R65) -/

/-- An operation that gives its result at its fire and has no further effect. -/
structure PromptOp (o : Op) : Prop where
  delay : o.delay = 1
  mute : ∀ l, o.mute l = false
  effect : ∀ l s, o.effect l s = s
  entries : ∀ l, o.entries l = 0
  take : o.take = 1
  gives : ((shapeOf o.opc).map Shape.gives) = some true

/-- R19, R24, R65: a ready slot of such an operation on a PE fires, and its result lands in the same cycle. -/
theorem PromptOp.givesNow {o : Op} (prompt : PromptOp o) (mk : Fields → Instr) (runs : RunsOp (mk, o)) (v : Fields → Elem → Ins → Res)
    (value : ∀ f s c e, o.res (lookAt o f s s.site c e) = v f e (Claims.operands o.opc f s c e)) : Claims.GivesNow .pe mk o v := by
  intro f s c e hat hpe ready
  obtain ⟨sh, hsh, gives⟩ := Option.map_eq_some_iff.1 prompt.gives
  have now : o.atOnce (lookAt o f s s.site c e) = true := by rw [Op.atOnce, prompt.delay]; rfl
  have result : ((sh.d == .result || sh.d == .accum) && !o.mute (lookAt o f s s.site c e)) = true := by
    rw [show (sh.d == .result || sh.d == .accum) = true from gives, prompt.mute]; rfl
  obtain ⟨t, c', exec, core, -, -, counted⟩ := fires_with o sh f s c e mk runs hat hsh (.inl (prompt.entries _)) ready prompt.take _
    (.of_eq _ (prompt.effect _ _)) (.of_elems rfl)
  have lands := landsNow_deliveredCore o sh f s c e hat (by rw [hpe]; decide) now result
    (by rw [CoreCtx.behindReqs, hpe]; rfl) (fun _ => by rw [CoreCtx.regBehind, hpe]; rfl)
  exact ⟨t, c', exec, core, counted.landsNow (value f s c e ▸ lands)⟩

/-- R28: the taint of an operation whose one source is SA. -/
theorem readIns_tnt_of_one (c : CoreCtx) (e : Elem) (core pos : Nat) (sh : Shape) (f : Fields) (hb : sh.srcB = false)
    (hd : sh.srcD = false) (hg : sh.guarded = false) : (readIns c e core pos sh f).tnt = (readIns c e core pos sh f).a.tnt := by
  simp [Ins.tnt, readIns, hb, hd, hg, Src.zero]

/-- R28: the taint of an operation of two sources. -/
theorem readIns_tnt_of_two (c : CoreCtx) (e : Elem) (core pos : Nat) (sh : Shape) (f : Fields)
    (hd : sh.srcD = false) (hg : sh.guarded = false) :
    (readIns c e core pos sh f).tnt = ((readIns c e core pos sh f).a.tnt || (readIns c e core pos sh f).b.tnt) := by
  simp [Ins.tnt, readIns, hd, hg, Src.zero]

/-! ### Sums, shifts and orders (R68) -/

theorem toNat_field {n : Nat} (w : BitVec n) (lo len : Nat) : field w lo len = w.toNat / 2 ^ lo % 2 ^ len := by
  rw [field, BitVec.extractLsb'_toNat, Nat.shiftRight_eq_div_pow]

theorem toNat_field_zero {n : Nat} (w : BitVec n) (len : Nat) : field w 0 len = w.toNat % 2 ^ len := by
  rw [toNat_field, Nat.pow_zero, Nat.div_one]

theorem addwVal_eq (a b : W64) :
    addwVal a b = (BitVec.ofNat 32 (a.toNat % 2 ^ 32 + b.toNat % 2 ^ 32)).signExtend 64 := by
  refine congrArg (BitVec.signExtend 64) (BitVec.eq_of_toNat_eq ?_)
  rw [BitVec.toNat_add, BitVec.toNat_ofNat, ← toNat_field_zero, ← toNat_field_zero]

theorem subwVal_eq (a b : W64) :
    subwVal a b = (BitVec.ofInt 32 ((a.toNat % 2 ^ 32 : Nat) - (b.toNat % 2 ^ 32 : Nat))).signExtend 64 := by
  refine congrArg (BitVec.signExtend 64) (BitVec.eq_of_toNat_eq ?_)
  have ha : (a.extractLsb' 0 32).toNat = a.toNat % 2 ^ 32 := toNat_field_zero a 32
  have hb : (b.extractLsb' 0 32).toNat = b.toNat % 2 ^ 32 := toNat_field_zero b 32
  rw [BitVec.toNat_sub, BitVec.toNat_ofInt, ha, hb]
  omega

/-- The number of places that a shift takes from its second operand, and the position of a field (R68, R70). -/
theorem fieldPos_eq (b : W64) : fieldPos b = b.toNat % 64 := toNat_field_zero b 6

theorem sshiftRight_field (a b : W64) : a.sshiftRight (field b 0 6) = BitVec.ofInt 64 (a.toInt / 2 ^ (b.toNat % 64)) := by
  rw [BitVec.sshiftRight, Int.shiftRight_eq_div_pow, show field b 0 6 = _ from fieldPos_eq b]
  push_cast
  rfl

theorem rotateRight_field (a b : W64) : a.rotateRight (field b 0 6) =
    if b.toNat % 64 = 0 then a else a >>> (b.toNat % 64) ||| a <<< (64 - b.toNat % 64) := by
  rw [BitVec.rotateRight_def, show field b 0 6 = _ from fieldPos_eq b, Nat.mod_mod]
  split
  · next h => rw [h]; simp
  · rfl

theorem ite_sle (a b x y : W64) : (if a.sle b then x else y) = if a.toInt ≤ b.toInt then x else y := by
  rw [BitVec.sle_eq_decide]
  exact if_congr decide_eq_true_iff rfl rfl

theorem ite_msb_neg (a : W64) : (if a.msb then -a else a) = if a.toInt ≥ 0 then a else -a := by
  rw [BitVec.msb_eq_toInt]
  by_cases h : a.toInt < 0
  · rw [if_pos (decide_eq_true h), if_neg (by omega)]
  · rw [if_neg (by simpa using h), if_pos (by omega)]

/-! ### Counts of bits (R69) -/

/-- How many of the first `n` numbers come before the first one, `k`, that fails a test. -/
theorem length_takeWhile_range (p : Nat → Bool) (n k : Nat) (hk : k ≤ n) (before : ∀ i < k, p i = true) (stop : k < n → p k = false) :
    ((List.range n).takeWhile p).length = k := by
  rw [List.takeWhile_eq_take_findIdx_not, List.length_take, Nat.min_eq_left List.findIdx_le_length]
  rcases Nat.lt_or_ge k n with h | h
  · rw [List.findIdx_eq (by simpa using h)]
    exact ⟨by simp [stop h], fun j hj => by simp [before j hj]⟩
  · obtain rfl : k = n := Nat.le_antisymm hk h
    rw [List.findIdx_eq_length.2 fun i hi => by simp [before i (List.mem_range.1 hi)], List.length_range]

/-- R69: CLZ counts the zero bits above the highest one bit. -/
theorem clzVal_eq (a : W64) : clzVal a = Claims.leadingZeros a := by
  refine (length_takeWhile_range _ 64 (clzVal a) ?_ ?_ ?_).symm
  · unfold clzVal; split <;> omega
  · intro i hi
    have small : a.toNat < 2 ^ (63 - i) := by
      unfold clzVal at hi
      split at hi
      · next h => rw [h]; exact Nat.two_pow_pos _
      · exact Nat.lt_of_lt_of_le Nat.lt_log2_self (Nat.pow_le_pow_right (by decide) (by omega))
    rw [BitVec.getLsbD, Nat.testBit_lt_two_pow small]; rfl
  · intro h
    have nonzero : a ≠ 0#64 := fun h0 => by rw [clzVal, if_pos h0] at h; omega
    have top : a.toNat.log2 < 64 := (Nat.log2_lt fun h0 => nonzero (BitVec.eq_of_toNat_eq h0)).2 a.isLt
    have place : 63 - clzVal a = a.toNat.log2 := by rw [clzVal, if_neg nonzero]; omega
    rw [place, BitVec.getLsbD, Nat.testBit_log2 fun h0 => nonzero (BitVec.eq_of_toNat_eq h0)]; rfl

theorem foldl_b2n (p : Nat → Bool) (l : List Nat) (n : Nat) : l.foldl (fun n i => n + b2n (p i)) n = n + (l.filter p).length := by
  induction l generalizing n with
  | nil => rfl
  | cons x xs ih =>
    rw [List.foldl_cons, ih, List.filter_cons]
    cases p x
    · rfl
    · show n + 1 + _ = n + (_ + 1)
      omega

/-- R69: POPC counts the one bits. -/
theorem popcVal_eq (a : W64) : popcVal a = ((List.range 64).filter fun i => a.getLsbD i).length :=
  (foldl_b2n _ _ _).trans (Nat.zero_add _)

/-! ### Fields (R70) -/

theorem fieldLen_eq (b : W64) : fieldLen b = Claims.fieldLength b := by
  rw [fieldLen, Claims.fieldLength, fieldPos_eq, toNat_field]
  split <;> omega

theorem fieldLength_le (b : W64) : Claims.fieldLength b ≤ 64 := by
  unfold Claims.fieldLength
  split <;> omega

theorem fieldMask_eq (b : W64) : fieldMask b = BitVec.ofNat 64 (2 ^ Claims.fieldLength b - 1) := by rw [fieldMask, fieldLen_eq]; rfl

/-- R70: INS puts the field in its place and leaves the bits around it. -/
theorem insVal_eq (d a b : W64) : insVal d a b = Claims.insert d a b := by
  rw [insVal, Claims.insert, fieldMask_eq, fieldPos_eq]

/-- The mask of `n` low bits, as a number. -/
theorem toNat_lowMask (n : Nat) (h : n ≤ 64) : (BitVec.ofNat 64 (2 ^ n - 1)).toNat = 2 ^ n - 1 := by
  have := Nat.pow_le_pow_right (show 0 < 2 by decide) h
  have := Nat.two_pow_pos n
  rw [BitVec.toNat_ofNat, Nat.mod_eq_of_lt (by omega)]

/-- A field of `n` bits with ones above it. -/
theorem or_not_lowMask (w : W64) (n : Nat) (h : n ≤ 64) :
    (w &&& BitVec.ofNat 64 (2 ^ n - 1)) ||| ~~~BitVec.ofNat 64 (2 ^ n - 1) = BitVec.ofNat 64 (w.toNat % 2 ^ n + (2 ^ 64 - 2 ^ n)) := by
  have disjoint : w &&& BitVec.ofNat 64 (2 ^ n - 1) &&& ~~~BitVec.ofNat 64 (2 ^ n - 1) = 0#64 := by
    rw [BitVec.and_assoc, BitVec.and_not_self]; exact BitVec.and_zero
  rw [← BitVec.add_eq_or_of_and_eq_zero _ _ disjoint]
  refine BitVec.eq_of_toNat_eq ?_
  have := Nat.two_pow_pos n
  rw [BitVec.toNat_add, BitVec.toNat_and, BitVec.toNat_not, toNat_lowMask n h, Nat.and_two_pow_sub_one_eq_mod, BitVec.toNat_ofNat]
  congr 2
  omega

/-- R70: EXT gives the field, with its top bit spread over the bits above it where the descriptor says so. -/
theorem extVal_eq (a b : W64) : extVal a b = Claims.extract a b := by
  have h64 := fieldLength_le b
  unfold extVal Claims.extract
  dsimp only
  rw [fieldMask_eq, fieldPos_eq, fieldLen_eq]
  generalize Claims.fieldLength b = n at h64
  have shifted : (a >>> (b.toNat % 64)).toNat = a.toNat / 2 ^ (b.toNat % 64) := by
    rw [BitVec.toNat_ushiftRight, Nat.shiftRight_eq_div_pow]
  have bits : ((a >>> (b.toNat % 64)) &&& BitVec.ofNat 64 (2 ^ n - 1)).toNat = a.toNat / 2 ^ (b.toNat % 64) % 2 ^ n := by
    rw [BitVec.toNat_and, toNat_lowMask n h64, Nat.and_two_pow_sub_one_eq_mod, shifted]
  have top : ((a >>> (b.toNat % 64)) &&& BitVec.ofNat 64 (2 ^ n - 1)).getLsbD (n - 1) =
      (a.toNat / 2 ^ (b.toNat % 64) % 2 ^ n).testBit (n - 1) := congrArg (·.testBit (n - 1)) bits
  rw [or_not_lowMask _ _ h64, top, shifted]
  refine if_congr Iff.rfl rfl (BitVec.eq_of_toNat_eq ?_)
  rw [bits, BitVec.toNat_ofNat, ← bits, Nat.mod_eq_of_lt (BitVec.isLt _)]

/-- R74: the count of a STEP and its limit. -/
theorem stepVal_eq (a b : W64) : stepVal a b =
    let n := a + (b.extractLsb' 32 32).signExtend 64
    if n.toNat ≥ b.toNat % 2 ^ 32 then 0#64 else n := by
  rw [stepVal, toNat_field_zero]

/-! ### The rows (Table 4.2, R69 to R71, R73 to R77) -/

/-- The one-cycle rows: arithmetic, fields and compares, and streams. -/
def oneCycleRows : List ((Fields → Instr) × Op × (Fields → Elem → Ins → Res)) :=
  Claims.arithmetic ++ Claims.fieldsAndCompares ++ Claims.streams

theorem oneCycleRows_prompt : ∀ x ∈ oneCycleRows, PromptOp x.2.1 := by
  refine List.forall_iff_forall_mem.1 ?_
  repeat' apply And.intro
  all_goals exact ⟨rfl, fun _ => rfl, fun _ _ => rfl, fun _ => rfl, rfl, by decide⟩

theorem oneCycleRows_runOp : ∀ x ∈ oneCycleRows, RunsOp (x.1, x.2.1) := by
  refine List.forall_iff_forall_mem.1 ?_
  repeat' apply And.intro
  all_goals exact fun _ _ => rfl

/-- What an operation computes of the operands that its slot reads. -/
def Computes (x : (Fields → Instr) × Op × (Fields → Elem → Ins → Res)) : Prop :=
  ∀ f s c e, x.2.1.res (lookAt x.2.1 f s s.site c e) = x.2.2 f e (Claims.operands x.2.1.opc f s c e)

/-- An integer operation whose value of its operands is `w` (R64). -/
theorem Computes.of_int {mk : Fields → Instr} {opc : Nat} {u : Unit'} {v : W64 → W64 → W64} {w : W64 → W64 → W64 → W64}
    (h : ∀ d a b, v a b = w d a b) : Computes (mk, intOp opc 1 u v, Claims.int w) :=
  fun f s c e => congrArg (lookAt (intOp opc 1 u v) f s s.site c e).int (h _ _ _)

theorem arithmetic_value : ∀ x ∈ Claims.arithmetic, Computes x := by
  refine List.forall_iff_forall_mem.1 ⟨?mov, ?add, ?sub, ?addw, ?subw, ?and, ?or, ?xor, ?andn, ?shl, ?shr, ?sra, ?rotr,
    ?min, ?max, ?minn, ?maxn⟩
  case mov => exact fun f s c e => congrArg (Res.mk _ _ · _ _) (readIns_tnt_of_one c e _ _ .da f rfl rfl rfl)
  case addw => exact .of_int fun _ => addwVal_eq
  case subw => exact .of_int fun _ => subwVal_eq
  case shl => exact .of_int fun _ a b => congrArg (a <<< ·) (fieldPos_eq b)
  case shr => exact .of_int fun _ a b => congrArg (a >>> ·) (fieldPos_eq b)
  case sra => exact .of_int fun _ => sshiftRight_field
  case rotr => exact .of_int fun _ => rotateRight_field
  case min => exact .of_int fun _ a b => ite_sle a b a b
  case max => exact .of_int fun _ a b => ite_sle b a a b
  all_goals exact .of_int fun _ _ _ => rfl

theorem fieldsAndCompares_value : ∀ x ∈ Claims.fieldsAndCompares, Computes x := by
  refine List.forall_iff_forall_mem.1 ⟨?abs, ?clz, ?popc, ?ext, ?ins, ?seq, ?sne, ?slt, ?sle, ?sltn, ?slen, ?crd, ?crx, ?inc,
    ?dec, ?step⟩
  case abs => exact .of_int fun _ a _ => ite_msb_neg a
  case clz => exact .of_int fun _ a _ => congrArg w64 (clzVal_eq a)
  case popc => exact .of_int fun _ a _ => congrArg w64 (popcVal_eq a)
  case ext => exact .of_int fun _ => extVal_eq
  case ins => exact fun f s c e => congrArg (lookAt insOp f s s.site c e).int (insVal_eq _ _ _)
  case step => exact .of_int fun _ => stepVal_eq
  all_goals exact .of_int fun _ _ _ => rfl

/-- R75: the guard chooses data and format together. -/
theorem selResult_eq (i : Ins) (t : Bool) (fl : Flags) (ctl : Option Ctl) :
    (Res.mk (if i.guard then i.a else i.b).data (if i.guard then i.a else i.b).fmt t fl ctl) =
      ⟨if i.guard then i.a.data else i.b.data, if i.guard then i.a.fmt else i.b.fmt, t, fl, ctl⟩ := by
  cases i.guard <;> rfl

/-- R76: the tag that TAGW writes. -/
theorem tagwResult_eq (i : Ins) (t : Bool) (h : i.tnt = t) :
    (Res.mk i.a.data (if i.b.data.getLsbD 2 then Fmt.ofCode (field i.b.data 3 3) else i.a.fmt) i.tnt Flags.none
      (some (Ctl.ofCode (field i.b.data 0 2)))) =
      ⟨i.a.data, if i.b.data.getLsbD 2 then Fmt.ofCode (i.b.data.toNat / 8 % 8) else i.a.fmt, t, Flags.none,
        some (Ctl.ofCode (i.b.data.toNat % 4))⟩ := by
  rw [h, toNat_field, toNat_field_zero]
  rfl

/-- R75, R76, R77: formats, tags and words of the stream operations. -/
theorem streams_value : ∀ x ∈ Claims.streams, Computes x := by
  refine List.forall_iff_forall_mem.1 ⟨?sel, ?pass, ?tagr, ?tagw, ?pack2⟩
  case sel => exact fun f s c e => selResult_eq (Claims.operands 0x40 f s c e) _ _ _
  case pass => exact fun f s c e => congrArg (Res.mk _ _ · _ _) (readIns_tnt_of_one c e _ _ .da f rfl rfl rfl)
  case tagr => exact fun f s c e => congrArg (Res.mk _ _ · _ _) (readIns_tnt_of_one c e _ _ ⟨.result, .queue, .none, false⟩ f rfl rfl rfl)
  case tagw => exact fun f s c e => tagwResult_eq (Claims.operands 0x44 f s c e) _ (readIns_tnt_of_two c e _ _ .dab f rfl rfl)
  case pack2 => exact fun _ _ _ _ => rfl

theorem oneCycleRows_value : ∀ x ∈ oneCycleRows, Computes x := by
  intro x hx
  simp only [oneCycleRows, List.mem_append] at hx
  rcases hx with (hx | hx) | hx
  · exact arithmetic_value x hx
  · exact fieldsAndCompares_value x hx
  · exact streams_value x hx

theorem oneCycleRows_giveNow (x : (Fields → Instr) × Op × (Fields → Elem → Ins → Res)) (hx : x ∈ oneCycleRows) :
    Claims.GivesNow .pe x.1 x.2.1 x.2.2 :=
  (oneCycleRows_prompt x hx).givesNow x.1 (oneCycleRows_runOp x hx) x.2.2 (oneCycleRows_value x hx)

/-- Settles O10: the one-cycle rows fire promptly, and give the values of R68 to R71 and R73 to R77. -/
theorem oneCycleResultsAreGiven : Obligations.OneCycleResultsAreGiven :=
  ⟨fun x hx => oneCycleRows_giveNow x (List.mem_append_left _ (List.mem_append_left _ hx)),
    fun x hx => oneCycleRows_giveNow x (List.mem_append_left _ (List.mem_append_right _ hx)),
    fun x hx => oneCycleRows_giveNow x (List.mem_append_right _ hx)⟩

end Sys2Proof.Machine
end

