-- ==== Sys2Proof/Proofs/Buses.lean ====
section
/-! PROOF. O19: what BUSR and BUSC put on the row and column buses, and what the buses deliver (R78 to R81, R99 to R102). -/

namespace Sys2Proof.Machine

/-! ### Fires without a result that change their core (R24) -/

/-- R26: the update of a predicate changes elements only. -/
theorem updatePred_only (o : Op) (sh : Shape) (l : Look) (r : Res) (c : CoreCtx) : ∃ es, updatePred o sh l r c = { c with elems := es } := by
  unfold updatePred
  split <;> exact ⟨_, rfl⟩

/-- An operation of latency 1 without a destination whose further effect is `g` on its core. -/
structure CoreOp (o : Op) (sh : Shape) (g : Look → CoreCtx → CoreCtx) : Prop where
  shape : shapeOf o.opc = some sh
  noResult : (sh.d == .result || sh.d == .accum) = false
  delay : o.delay = 1
  entries : ∀ l, o.entries l = 0
  effect : ∀ l s, o.effect l s = s.modCore l.t.k (g l)

/-- R24: a ready slot of such an operation fires, and leaves `g` of its core but for its elements, its run's count and its events. -/
theorem CoreOp.fires {o : Op} {sh : Shape} {g : Look → CoreCtx → CoreCtx} (op : CoreOp o sh g) (mk : Fields → Instr) (runs : RunsOp (mk, o))
    (f : Fields) (s : State) (c : CoreCtx) (e : Elem) (hat : Claims.At s c e) (hk : kindAt s.here.pos ≠ .me)
    (ready : slotStatus o f s s.site = .ready) :
    ∃ t es es' back v rs, exec (mk f) s = .next t ∧ Claims.OnlyCredits back ∧
      t.core? s.key = some { g (lookAt o f s s.site c e) (c.served es back) with elems := es', evc := v, runs := rs } := by
  let l := lookAt o f s s.site c e
  obtain ⟨es, back, hback, delivered⟩ := deliveredCore_silent o sh l c hk (.inl ⟨op.delay, by rw [op.noResult]; rfl⟩)
  have effect : (effectState o sh l).core? s.key = some (g l (c.served es back)) := by
    rw [← delivered, effectState, op.effect]
    exact State.core?_modCore_of _ ((acts_operandState o sh l c).core hat.core)
  obtain ⟨v, core⟩ := fireSlot_core_of (sh := sh) (spilled_of_hasRoom o f s c e (.inl (op.entries _))) _ effect
  obtain ⟨es', updated⟩ := updatePred_only o sh l (o.res l) (g l (c.served es back))
  rw [updated] at core
  exact ⟨_, es, es', back, v, _, (runs f s).trans (runOp_ready o f s c e sh op.shape hat.core hat.elem ready), hback, core⟩

/-- R28: the taint of what BUSR and BUSC write. -/
theorem readIns_tnt_ab (c : CoreCtx) (e : Elem) (core pos : Nat) (f : Fields) :
    (readIns c e core pos .ab f).tnt = ((readIns c e core pos .ab f).a.tnt || (readIns c e core pos .ab f).b.tnt) :=
  readIns_tnt_of_two c e core pos .ab f rfl rfl

/-! ### Steps that go from ME to ME -/

/-- Steps that each change one ME, by what its element holds: each ME of the list has been changed once. -/
theorem me_foldl (step : CoreCtx → Nat → CoreCtx) (g : Elem → ME → ME)
    (mes : ∀ c p, (step c p).mes = c.mes.put p (g (c.elemD p) (c.me p))) (elems : ∀ c p, (step c p).elems = c.elems)
    (ps : List Nat) (nodup : ps.Nodup) (c : CoreCtx) (p : Nat) :
    (ps.foldl step c).me p = if p ∈ ps then g (c.elemD p) (c.me p) else c.me p := by
  induction ps generalizing c with
  | nil => simp
  | cons x xs ih =>
    obtain ⟨hx, hxs⟩ := List.nodup_cons.1 nodup
    have elem : (step c x).elemD p = c.elemD p := by rw [CoreCtx.elemD, elems, CoreCtx.elemD]
    have me : (step c x).me p = if p = x then g (c.elemD p) (c.me p) else c.me p := by
      rw [CoreCtx.me, mes]
      split
      · next h => rw [h, Assoc.get?_put_same]; rfl
      · next h => rw [Assoc.get?_put_other _ _ _ _ (Ne.symm h)]; rfl
    rw [List.foldl_cons, ih hxs, elem, me]
    by_cases h : p = x
    · subst h; simp [hx]
    · simp [h]

/-- Steps that change MEs only leave the rest of the core. -/
theorem foldl_mes {α : Type} (step : CoreCtx → α → CoreCtx) (only : ∀ c x, ∃ mes, step c x = { c with mes := mes }) (l : List α) (c : CoreCtx) :
    ∃ mes, l.foldl step c = { c with mes := mes } := by
  induction l generalizing c with
  | nil => exact ⟨c.mes, rfl⟩
  | cons x xs ih =>
    obtain ⟨mes, first⟩ := only c x
    obtain ⟨mes', rest⟩ := ih (step c x)
    exact ⟨mes', by rw [List.foldl_cons, rest, first]⟩

/-- The places of the MEs of one row, or of one column, are all different. -/
theorem nodup_places (n : Nat) (test : Nat → Bool) (place : Nat → Nat) (inj : ∀ a b, place a = place b → a = b) :
    (((List.range n).filter test).map place).Nodup := (List.nodup_range.filter _).map inj

/-! ### The row bus (R78, R79) -/

theorem rowQueue_eq (b : W64) : rowQueue b = b.toNat / 4 % 4 := toNat_field b 2 2

theorem rowMes_eq (b : W64) : rowMes b = Claims.labelled b := by
  rw [rowMes, Claims.labelled, rowOf, toNat_field_zero]
  rfl

theorem nodup_labelled (b : W64) : (Claims.labelled b).Nodup := nodup_places 8 _ _ fun _ _ h => by omega

/-- The token that BUSR sends (R79). -/
def Look.busTok (l : Look) : Token := ⟨l.i.a.data, l.i.a.fmt, if codeIsQueue l.f.sa.toNat then l.i.ctlA else .data, l.i.tnt⟩

/-- What BUSR puts on the row bus for the ME at `p` (R79). -/
def Look.busCargo (l : Look) (p : Nat) : Cargo :=
  if isScl l.i.b.data then .busScales p (rowQueue l.i.b.data) (l.i.a.data.extractLsb' 0 32)
  else .busToken p (rowQueue l.i.b.data) l.busTok

/-- An ME in which BUSR has taken room for what it sends (R79). -/
def Look.busReserve (l : Look) (m : ME) : ME :=
  let q := rowQueue l.i.b.data
  if isScl l.i.b.data then { m with scalesComing := upd m.scalesComing q (at' m.scalesComing q 0 + 1) }
  else { m with qUsed := upd m.qUsed q (at' m.qUsed q 0 + 1) }

/-- BUSR sends to one ME (R79). -/
def Look.busSend (l : Look) (c : CoreCtx) (p : Nat) : CoreCtx := (c.modMe p l.busReserve).fly 2 l.e.runId (l.busCargo p)

/-- A core whose row bus counts one more token of this cycle (R82). -/
def Look.rowGranted (l : Look) (c : CoreCtx) : CoreCtx :=
  let row := rowOf l.i.b.data
  let u := at' c.rowUsed row (0, false)
  { c with
    rowUsed := upd c.rowUsed row (if isScl l.i.b.data then (u.1, true) else (u.1 + 1, u.2))
    grant := upd c.grant row ((l.t.pos + 1) % 64) }

/-- The effect of BUSR on its core (R79). -/
def Look.enterRowBus (l : Look) (c : CoreCtx) : CoreCtx := (rowMes l.i.b.data).foldl l.busSend (l.rowGranted c)

theorem busrEffect_eq (l : Look) (s : State) : busrEffect l s = s.modCore l.t.k l.enterRowBus := by
  unfold busrEffect
  refine congrArg (s.modCore l.t.k) (funext fun c => congrArg (List.foldl · (l.rowGranted c) (rowMes l.i.b.data)) (funext₂ fun c p => ?_))
  unfold Look.busSend Look.busCargo Look.busReserve
  split <;> rfl

theorem busr_coreOp : CoreOp busrOp .ab Look.enterRowBus := ⟨rfl, rfl, rfl, fun _ => rfl, busrEffect_eq⟩

theorem flights_foldl_busSend (l : Look) (ps : List Nat) (c : CoreCtx) :
    (ps.foldl l.busSend c).flights = c.flights ++ ps.map fun p => ⟨2, l.e.runId, c.groupOf l.e.runId, l.busCargo p⟩ := by
  induction ps generalizing c with
  | nil => simp
  | cons x xs ih =>
    rw [List.foldl_cons, ih, List.map_cons]
    show c.flights ++ [_] ++ _ = _
    rw [List.append_assoc]
    rfl

/-- R79: what BUSR puts on its row bus. -/
theorem flights_enterRowBus (l : Look) (c : CoreCtx) : (l.enterRowBus c).flights =
    c.flights ++ (Claims.labelled l.i.b.data).map fun p => ⟨2, l.e.runId, c.groupOf l.e.runId, l.busCargo p⟩ := by
  rw [Look.enterRowBus, rowMes_eq]
  exact flights_foldl_busSend l _ _

/-- R79: the MEs in which BUSR takes room. -/
theorem me_enterRowBus (l : Look) (c : CoreCtx) (p : Nat) :
    (l.enterRowBus c).me p = if p ∈ Claims.labelled l.i.b.data then l.busReserve (c.me p) else c.me p := by
  rw [Look.enterRowBus, rowMes_eq]
  exact me_foldl l.busSend (fun _ => l.busReserve) (fun _ _ => rfl) (fun _ _ => rfl) _ (nodup_labelled _) (l.rowGranted c) p

/-- R79: one more token, or scale token, is on its way to the ME. -/
theorem busReserve_counts (l : Look) (m : ME) :
    let q := l.i.b.data.toNat / 4 % 4
    if l.i.b.data.getLsbD 16 then at' (l.busReserve m).scalesComing q 0 = at' m.scalesComing q 0 + 1
    else at' (l.busReserve m).qUsed q 0 = at' m.qUsed q 0 + 1 := by
  have q4 : rowQueue l.i.b.data < 4 := by rw [rowQueue_eq]; omega
  simp only [← rowQueue_eq]
  split
  · next scl => rw [Look.busReserve, if_pos (show isScl l.i.b.data = true from scl)]; exact at_upd_same _ _ _ _ q4
  · next scl => rw [Look.busReserve, if_neg (show ¬ isScl l.i.b.data = true from scl)]; exact at_upd_same _ _ _ _ q4

theorem rowBusWrites : Claims.RowBusWrites := by
  intro f s c e hat hpe ready i q scl tok
  obtain ⟨t, es, es', back, v, rs, exec, hback, core⟩ :=
    busr_coreOp.fires .busr (fun _ _ => rfl) f s c e hat (by rw [hpe]; decide) ready
  let l := lookAt busrOp f s s.site c e
  have token : l.busTok = tok := by
    have queue : (if codeIsQueue f.sa.toNat = true then l.i.ctlA else Ctl.data) =
        if 12 ≤ f.sa.toNat ∧ f.sa.toNat ≤ 15 then i.ctlA else .data := if_congr decide_eq_true_iff rfl rfl
    exact congrArg₂ (Token.mk i.a.data i.a.fmt) queue (readIns_tnt_ab c e _ _ f)
  have cargo (p : Nat) : l.busCargo p = if scl then .busScales p q (i.a.data.extractLsb' 0 32) else .busToken p q tok := by
    rw [Look.busCargo, rowQueue_eq, token]; rfl
  refine ⟨t, _, back, exec, core, hback, ?_, fun p hp => ?_, fun p hp => ?_⟩
  · refine (flights_enterRowBus l (c.served es back)).trans ?_
    simp only [cargo]
    rfl
  · have me := (me_enterRowBus l (c.served es back) p).trans (if_pos hp)
    have counts := busReserve_counts l (c.me p)
    rw [← show _ = l.busReserve (c.me p) from me] at counts
    exact counts
  · exact (me_enterRowBus l (c.served es back) p).trans (if_neg hp)

/-! ### The column bus (R80) -/

theorem colOf_eq (b : W64) : colOf b = b.toNat % 8 := toNat_field_zero b 3
theorem colLane_eq (b : W64) : colLane b = b.toNat / 8 % 8 := toNat_field b 3 3
theorem colRmask_eq (b : W64) : colRmask b = b.toNat / 256 % 16 := toNat_field b 8 4

/-- A staging chunk that BUSC has written (R80; log 108). -/
def Look.stagedChunk (l : Look) (g : Staging) : Staging :=
  let g := { g with rmask := colRmask l.i.b.data, tnt := (if g.isEmpty then false else g.tnt) || l.i.tnt }
  if isScl l.i.b.data then { g with side := some (l.i.a.data.extractLsb' 0 32) }
  else { g with lanes := upd g.lanes (colLane l.i.b.data) (some l.i.a.data) }

/-- The effect of BUSC on its core (R80). -/
def Look.enterColumnBus (l : Look) (c : CoreCtx) : CoreCtx :=
  let col := colOf l.i.b.data
  { c with staging := upd c.staging col (l.stagedChunk (c.staged col)), grant := upd c.grant (4 + col) ((l.t.pos + 1) % 64) }

theorem busc_coreOp : CoreOp buscOp .ab Look.enterColumnBus := ⟨rfl, rfl, rfl, fun _ => rfl, fun _ _ => rfl⟩

theorem stagedChunk_of_side (l : Look) (g : Staging) (h : l.i.b.data.getLsbD 16 = true) :
    (l.stagedChunk g).rmask = colRmask l.i.b.data ∧ (l.stagedChunk g).side = some (l.i.a.data.extractLsb' 0 32) ∧
      (l.stagedChunk g).lanes = g.lanes := by
  rw [Look.stagedChunk, if_pos (show isScl l.i.b.data = true from h)]
  exact ⟨rfl, rfl, rfl⟩

theorem stagedChunk_of_lane (l : Look) (g : Staging) (h : l.i.b.data.getLsbD 16 = false) :
    (l.stagedChunk g).rmask = colRmask l.i.b.data ∧ (l.stagedChunk g).side = g.side ∧
      (l.stagedChunk g).lanes = upd g.lanes (colLane l.i.b.data) (some l.i.a.data) := by
  rw [Look.stagedChunk, if_neg (by rw [show isScl l.i.b.data = false from h]; decide)]
  exact ⟨rfl, rfl, rfl⟩

theorem columnBusWrites : Claims.ColumnBusWrites := by
  intro f s c e hat hpe ready i col lane
  obtain ⟨t, es, es', back, v, rs, exec, hback, core⟩ :=
    busc_coreOp.fires .busc (fun _ _ => rfl) f s c e hat (by rw [hpe]; decide) ready
  let l := lookAt buscOp f s s.site c e
  have hcol : colOf l.i.b.data = col := colOf_eq _
  have hlane : colLane l.i.b.data = lane := colLane_eq _
  have hmask : colRmask l.i.b.data = i.b.data.toNat / 256 % 16 := colRmask_eq _
  have col8 : col < 8 := Nat.mod_lt _ (by decide)
  have lane8 : lane < 8 := Nat.mod_lt _ (by decide)
  have chunk : at' (l.enterColumnBus (c.served es back)).staging col Staging.empty =
      l.stagedChunk (at' c.staging col Staging.empty) := by
    rw [← hcol] at col8 ⊢
    exact at_upd_same _ _ _ _ col8
  refine ⟨t, _, exec, core, ?_, fun side => ?_, fun side => ?_, fun n _ hn => ?_⟩
  · refine (congrArg Staging.rmask chunk).trans (Eq.trans ?_ hmask)
    cases h : l.i.b.data.getLsbD 16
    · exact (stagedChunk_of_lane l _ h).1
    · exact (stagedChunk_of_side l _ h).1
  · obtain ⟨-, hside, hlanes⟩ := stagedChunk_of_side l (at' c.staging col Staging.empty) side
    exact ⟨(congrArg Staging.side chunk).trans hside, (congrArg Staging.lanes chunk).trans hlanes⟩
  · obtain ⟨-, hside, hlanes⟩ := stagedChunk_of_lane l (at' c.staging col Staging.empty) side
    rw [hlane] at hlanes
    have lanes := (congrArg Staging.lanes chunk).trans hlanes
    exact ⟨(congrArg (at' · lane none) lanes).trans (at_upd_same _ _ _ _ lane8),
      fun n _ hn => (congrArg (at' · n none) lanes).trans (at_upd_other _ _ _ _ _ hn.symm), (congrArg Staging.side chunk).trans hside⟩
  · exact at_upd_other _ _ _ _ _ (by rw [hcol]; exact hn.symm)

/-! ### What the row bus delivers (R79, R99) -/

theorem rowBusTokensLand (s : State) (c : CoreCtx) (run g pos q : Nat) (tok : Token) (rest : List Flight)
    (h : Claims.FirstDue Claims.isBus c ⟨0, run, g, .busToken pos q tok⟩ rest) (hq : q < 4) :
    Claims.CoreEvent .rowBusDelivery s c fun _ c' => (c'.elemD pos).queue q = (c.elemD pos).queue q ++ [tok] ∧ c'.flights = rest := by
  intro hc
  have due := takeDue_of_firstDue _ _ _ _ h
  refine ⟨_, _, ?_, State.core?_modCore_of (fun c => CoreCtx.modElem { c with flights := rest } pos fun e =>
    e.setQueue q (e.queue q ++ [tok])) hc, ?_, rfl⟩
  · show execRowBusDelivery s = _
    rw [execRowBusDelivery, State.onCore_of s c _ hc]
    dsimp only
    split
    · next heq => cases heq.symm.trans due; rfl
    · next heq => cases heq.symm.trans due
    · next hne _ => exact (hne _ _ _ _ _ _ _ due).elim
  · rw [CoreCtx.elemD_modElem_same, Elem.queue_setQueue_same _ _ _ hq]; rfl

theorem rowBusScalesLand (s : State) (c : CoreCtx) (run g pos q : Nat) (v : W32) (rest : List Flight)
    (h : Claims.FirstDue Claims.isBus c ⟨0, run, g, .busScales pos q v⟩ rest) (hq : q < 4) :
    Claims.CoreEvent .rowBusDelivery s c fun _ c' =>
      at' (c'.me pos).holders q (0#32, 0) = (v, 4) ∧ c'.flights = rest ∧
      at' (c'.me pos).scalesComing q 0 = at' (c.me pos).scalesComing q 0 - 1 := by
  intro hc
  have due := takeDue_of_firstDue _ _ _ _ h
  refine ⟨_, _, ?_, State.core?_modCore_of (fun c => CoreCtx.modMe { c with flights := rest } pos fun m =>
    { m with holders := upd m.holders q (v, 4), scalesComing := upd m.scalesComing q (at' m.scalesComing q 0 - 1) }) hc, ?_, rfl, ?_⟩
  · show execRowBusDelivery s = _
    rw [execRowBusDelivery, State.onCore_of s c _ hc]
    dsimp only
    split
    · next heq => cases heq.symm.trans due
    · next heq => cases heq.symm.trans due; rfl
    · next _ hne => exact (hne _ _ _ _ _ _ _ due).elim
  · rw [CoreCtx.me_modMe_same]; exact at_upd_same _ _ _ _ hq
  · rw [CoreCtx.me_modMe_same]; exact at_upd_same _ _ _ _ hq

/-! ### What a column bus delivers (R80, R100, R101) -/

/-- Is a word a valid MMA slot (R100)? -/
def isMmaSlot (w : W64) : Bool := w.getLsbD 1 && decide (0x90 ≤ field w 30 8 ∧ field w 30 8 ≤ 0xA7)

theorem getLsbD_one_shiftLeft (n q : Nat) (hq : q < 4) : (1#4 <<< n).getLsbD q = decide (n = q) := by
  rw [BitVec.getLsbD_shiftLeft, BitVec.getLsbD_one]
  simp only [hq, decide_true, Bool.true_and]
  by_cases h : q < n
  · simp [h]; omega
  · simp [h]; omega

/-- The slices of a list of slots, as a mask. -/
theorem getLsbD_foldl_slices (slot : Nat → W64) (l : List Nat) (m : BitVec 4) (q : Nat) (hq : q < 4) :
    (l.foldl (fun (m : BitVec 4) i => if isMmaSlot (slot i) then m ||| (1#4 <<< (field (slot i) 20 5 - 12)) else m) m).getLsbD q = true ↔
      m.getLsbD q = true ∨ ∃ i ∈ l, isMmaSlot (slot i) = true ∧ field (slot i) 20 5 - 12 = q := by
  induction l generalizing m with
  | nil => simp
  | cons x xs ih =>
    rw [List.foldl_cons, ih]
    by_cases h : isMmaSlot (slot x) = true
    · simp [h, getLsbD_one_shiftLeft _ _ hq, or_assoc]
    · simp [h]

theorem mem_slots_iff (e : Elem) (w : W64) : w ∈ e.slots.toList ↔ ∃ i ∈ List.range 16, e.slot i = w := by
  simp only [List.mem_range, Elem.slot, at', Vector.getD]
  rw [Vector.mem_toList_iff, Vector.mem_iff_getElem]
  constructor
  · rintro ⟨i, hi, rfl⟩
    exact ⟨i, hi, by simp [hi]⟩
  · rintro ⟨i, hi, rfl⟩
    exact ⟨i, hi, by simp [hi]⟩

/-- R100: the slices that an element's MMA slots enable. -/
theorem getLsbD_enabledSlices (e : Elem) (q : Nat) (hq : q < 4) : (enabledSlices e).getLsbD q = true ↔ Claims.enabled e q := by
  have slices := getLsbD_foldl_slices e.slot (List.range 16) 0#4 q hq
  refine slices.trans ?_
  simp only [Claims.enabled, mem_slots_iff, isMmaSlot, Bool.and_eq_true, decide_eq_true_eq, toNat_field]
  simp [and_assoc]

theorem enabledSlices_eq_zero (e : Elem) (h : ∀ q < 4, ¬ Claims.enabled e q) : enabledSlices e = 0#4 :=
  BitVec.eq_of_getLsbD_eq fun q hq => by
    simpa using mt (getLsbD_enabledSlices e q hq).1 (h q hq)

/-- The entry that a chunk makes in the B register of an ME (R100, R101). -/
def ME.entryOf (m : ME) (en : BitVec 4) (data : BitVec 512) (side : W32) (tnt : Bool) : BEntry :=
  ⟨data, side, tnt, en, if m.ph = 0 then none else some m.ph⟩

/-- An ME that a chunk has reached (R100, R101). -/
def ME.withChunk (data : BitVec 512) (side : W32) (tnt : Bool) (e : Elem) (m : ME) : ME :=
  let en := enabledSlices e
  let b := m.entryOf en data side tnt
  if en = 0#4 then { m with reserved := m.reserved - 1 }
  else if m.cur.isNone then { m with reserved := m.reserved - 1, ph := 0, cur := some b }
  else { m with reserved := m.reserved - 1, ph := 0, nxt := some b }

theorem chunkArrives_eq (c : CoreCtx) (pos : Nat) (data : BitVec 512) (side : W32) (tnt : Bool) :
    c.chunkArrives pos data side tnt = c.modMe pos (ME.withChunk data side tnt (c.elemD pos)) := rfl

/-- R100: an ME without MMA slots lets the chunk go. -/
theorem withChunk_of_idle (data : BitVec 512) (side : W32) (tnt : Bool) (e : Elem) (m : ME) (idle : ∀ q < 4, ¬ Claims.enabled e q) :
    (m.withChunk data side tnt e).cur = m.cur ∧ (m.withChunk data side tnt e).nxt = m.nxt := by
  rw [ME.withChunk, if_pos (enabledSlices_eq_zero e idle)]
  exact ⟨rfl, rfl⟩

/-- R100, R101: an ME with an MMA slot takes the chunk as its next entry, or as the current one where it has none, and PH is used. -/
theorem withChunk_of_enabled (data : BitVec 512) (side : W32) (tnt : Bool) (e : Elem) (m : ME) (q : Nat) (hq : q < 4)
    (en : Claims.enabled e q) :
    let b := m.entryOf (enabledSlices e) data side tnt
    let m' := m.withChunk data side tnt e
    b.cm.getLsbD q = true ∧ m'.ph = 0 ∧
      if m.cur = none then m'.cur = some b ∧ m'.nxt = m.nxt else m'.cur = m.cur ∧ m'.nxt = some b := by
  have bit := (getLsbD_enabledSlices e q hq).2 en
  have nonzero : enabledSlices e ≠ 0#4 := fun h => by rw [h] at bit; simp at bit
  refine ⟨bit, ?_⟩
  simp only [ME.withChunk, nonzero, if_false, Option.isNone_iff_eq_none]
  split <;> exact ⟨rfl, rfl, rfl⟩

theorem withChunk_reserved (data : BitVec 512) (side : W32) (tnt : Bool) (e : Elem) (m : ME) :
    (m.withChunk data side tnt e).reserved = m.reserved - 1 := by
  unfold ME.withChunk
  dsimp only
  split_ifs <;> rfl

/-- The rows of a mask. -/
def maskRows (rmask : Nat) : List Nat := (List.range 4).filter fun m => decide (rmask / 2 ^ m % 2 = 1)

theorem mem_maskRows (rmask m : Nat) : m ∈ maskRows rmask ↔ m < 4 ∧ rmask.testBit m = true := by
  rw [maskRows, List.mem_filter, List.mem_range, Nat.testBit_eq_decide_div_mod_eq]

/-- A core of whose column `col` the rows of a mask have been given a chunk (R80, R100). -/
def CoreCtx.chunkLands (c : CoreCtx) (col rmask : Nat) (data : BitVec 512) (side : W32) (tnt : Bool) : CoreCtx :=
  ((maskRows rmask).map fun m => (m + 2) * 8 + col).foldl (fun c p => c.chunkArrives p data side tnt) c

theorem me_chunkLands (c : CoreCtx) (col rmask : Nat) (data : BitVec 512) (side : W32) (tnt : Bool) (m : Nat) (hm : m < 4)
    (hr : rmask.testBit m = true) : (c.chunkLands col rmask data side tnt).me ((m + 2) * 8 + col) =
      (c.me ((m + 2) * 8 + col)).withChunk data side tnt (c.elemD ((m + 2) * 8 + col)) := by
  refine (me_foldl (fun c p => c.chunkArrives p data side tnt) (ME.withChunk data side tnt) (fun _ _ => rfl) (fun _ _ => rfl) _
    (nodup_places 4 _ _ fun _ _ h => by omega) c _).trans (if_pos ?_)
  exact List.mem_map_of_mem ((mem_maskRows rmask m).2 ⟨hm, hr⟩)

theorem flights_chunkLands (c : CoreCtx) (col rmask : Nat) (data : BitVec 512) (side : W32) (tnt : Bool) :
    (c.chunkLands col rmask data side tnt).flights = c.flights := by
  obtain ⟨mes, h⟩ := foldl_mes (fun c p => c.chunkArrives p data side tnt) (fun _ _ => ⟨_, rfl⟩)
    ((maskRows rmask).map fun m => (m + 2) * 8 + col) c
  rw [CoreCtx.chunkLands, h]

theorem columnChunksLand (s : State) (c : CoreCtx) (run g col rmask : Nat) (data : BitVec 512) (side : W32) (tnt : Bool)
    (rest : List Flight) (h : Claims.FirstDue Claims.isChunk c ⟨0, run, g, .chunk col rmask data side tnt⟩ rest) :
    Claims.CoreEvent .columnChunkDelivery s c fun _ c' => c' = CoreCtx.chunkLands { c with flights := rest } col rmask data side tnt := by
  intro hc
  have due := takeDue_of_firstDue _ _ _ _ h
  refine ⟨_, _, ?_, State.core?_modCore_of (fun c => CoreCtx.chunkLands { c with flights := rest } col rmask data side tnt) hc, rfl⟩
  show execColumnChunkDelivery s = _
  rw [execColumnChunkDelivery, State.onCore_of s c _ hc]
  dsimp only
  split
  · next heq => cases heq.symm.trans due; simp only [CoreCtx.chunkLands, List.foldl_map]; rfl
  · next hne => exact (hne _ _ _ _ _ _ _ _ _ due).elim

/-! ### The column readers (R81, R102) -/

/-- R80, R81: a chunk sent changes MEs and is on its way. -/
theorem sendChunk_only (c : CoreCtx) (col rmask left run : Nat) (data : BitVec 512) (side : W32) (tnt : Bool) :
    ∃ mes, c.sendChunk col rmask left run data side tnt =
      { c with mes := mes, flights := c.flights ++ [⟨left, run, c.groupOf run, .chunk col rmask data side tnt⟩] } := by
  obtain ⟨mes, h⟩ := foldl_mes (fun c m => c.modMe ((m + 2) * 8 + col) fun x => { x with reserved := x.reserved + 1 })
    (fun _ _ => ⟨_, rfl⟩) ((List.range 4).filter fun m => decide (rmask / 2 ^ m % 2 = 1)) c
  exact ⟨mes, by rw [CoreCtx.sendChunk, h]; rfl⟩

/-- The chunk and the side band that a column reader sends next (R102, Table 6.2). -/
def CoreCtx.readerData (c : CoreCtx) (col : Nat) (r : Reader) : BitVec 512 :=
  BitVec.ofNat 512 (leNat (c.upper.readN (col * 0x40000 + 64 * r.chunkNo) 64))
def CoreCtx.readerSide (c : CoreCtx) (col : Nat) (r : Reader) : W32 :=
  if r.desc.getLsbD 51 then w32 (leNat (c.upper.readN (col * 0x40000 + r.sideAt) 4)) else 0x7F7F7F7F#32

/-- The readers of a core once the one of column `col` has sent a chunk (R102). -/
def Reader.follow (r : Reader) (col : Nat) (readers : Assoc Nat Reader) : Assoc Nat Reader :=
  match r.next with
  | some n => readers.put col n
  | none => readers.del col

/-- A core of whose reader `r` the column bus has taken a chunk (R81, R102). -/
def CoreCtx.readerTurn (col : Nat) (r : Reader) (data : BitVec 512) (side : W32) (c : CoreCtx) : CoreCtx :=
  let c' := c.sendChunk col (readerRmask r.desc) 2 r.run data side false
  { c' with colTaken := c'.colTaken ++ [col], readers := r.follow col c'.readers }

theorem readerTurn_sends (c : CoreCtx) (col : Nat) (r : Reader) (data : BitVec 512) (side : W32) :
    (c.readerTurn col r data side).flights =
      c.flights ++ [⟨2, r.run, c.groupOf r.run, .chunk col (readerRmask r.desc) data side false⟩] ∧
    (c.readerTurn col r data side).readers = r.follow col c.readers := by
  obtain ⟨mes, sent⟩ := sendChunk_only c col (readerRmask r.desc) 2 r.run data side false
  rw [CoreCtx.readerTurn, sent]
  exact ⟨rfl, rfl⟩

/-- R81, R102: what the turn of a ready reader leaves of its core. -/
theorem columnReaderSends (s : State) (c : CoreCtx) (r : Reader) (hr : c.readers.get? s.here.idx = some r) (frozen : c.frozen = false)
    (ready : c.readerReady s.here.idx = true) : Claims.CoreEvent .columnReaderChunk s c fun _ c' =>
      c'.flights = c.flights ++ [⟨2, r.run, c.groupOf r.run, .chunk s.here.idx (readerRmask r.desc) (c.readerData s.here.idx r)
        (c.readerSide s.here.idx r) false⟩] ∧ c'.readers = r.follow s.here.idx c.readers := by
  intro hc
  refine ⟨_, _, ?_, State.count_core _ s.key 13 1 _ (State.core?_modCore_of
    (CoreCtx.readerTurn s.here.idx r (c.readerData s.here.idx r) (c.readerSide s.here.idx r)) hc), readerTurn_sends _ _ _ _ _⟩
  show execColumnReaderChunk s = _
  rw [execColumnReaderChunk, State.onCore_of s c _ hc]
  simp only [hr, frozen, ready, and_self, if_true]
  rfl

/-- R102: the chunk that a reader sends next, or none once its passes are made (Table 6.2). -/
theorem Reader.next_eq (r : Reader) : r.next =
    if r.idx < r.desc.toNat / 2 ^ 24 % 2 ^ 12 then some { r with idx := r.idx + 1 }
    else if r.pass < r.desc.toNat / 2 ^ 36 % 2 ^ 11 then some { r with idx := 0, pass := r.pass + 1 }
    else none := by
  simp only [Reader.next, readerCount, readerPasses, toNat_field, Nat.add_lt_add_iff_right]

theorem Reader.chunkNo_eq (r : Reader) : r.chunkNo =
    ((((r.desc.toNat % 2 ^ 12 : Nat) : Int) + r.idx * (r.desc.extractLsb' 12 12).toInt) % 4096).toNat := by
  rw [Reader.chunkNo, toNat_field_zero]

theorem Reader.sideAt_eq (r : Reader) : r.sideAt = (64 * (r.desc.toNat / 2 ^ 52 % 2 ^ 12) + 4 * r.idx) % 0x40000 := by
  rw [Reader.sideAt, toNat_field]

theorem Reader.get?_follow (r n : Reader) (col : Nat) (readers : Assoc Nat Reader) (h : r.next = some n) :
    (r.follow col readers).get? col = some n := by
  rw [Reader.follow, h]
  exact Assoc.get?_put_same _ _ _

theorem Reader.follow_of_last (r : Reader) (col : Nat) (readers : Assoc Nat Reader) (h : r.next = none) :
    ∀ y ∈ r.follow col readers, y.1 ≠ col := by
  rw [Reader.follow, h]
  intro y hy
  simpa using (List.mem_filter.1 hy).2

theorem busesDeliver : Claims.BusesDeliver := by
  refine ⟨rowBusTokensLand, rowBusScalesLand, ?_, ?_⟩
  · intro s c run g col rmask data side tnt rest h _ hc
    obtain ⟨t, c', exec, core, landed⟩ := columnChunksLand s c run g col rmask data side tnt rest h hc
    refine ⟨t, c', exec, core, by rw [landed, flights_chunkLands], fun m hm hr => ?_⟩
    intro pos old
    have me : c'.me pos = old.withChunk data side tnt (c.elemD pos) := by
      rw [landed]; exact me_chunkLands { c with flights := rest } col rmask data side tnt m hm hr
    rw [me]
    refine ⟨withChunk_reserved _ _ _ _ _, withChunk_of_idle _ _ _ _ _, fun q hq en => ?_⟩
    obtain ⟨bit, ph, place⟩ := withChunk_of_enabled data side tnt _ old q hq en
    exact ⟨_, place, rfl, rfl, rfl, bit, rfl, ph⟩
  · intro s c r hr frozen ready _ hc
    obtain ⟨t, c', exec, core, flights, readers⟩ := columnReaderSends s c r hr frozen ready hc
    refine ⟨t, c', exec, core, ?_, ?_, fun last lastPass => ?_⟩
    · rw [flights, readerRmask, toNat_field, CoreCtx.readerData, CoreCtx.readerSide, r.chunkNo_eq, r.sideAt_eq]
      rfl
    · have next := r.next_eq
      rw [readers]
      split
      · next more => exact r.get?_follow _ _ _ (next.trans (if_pos more))
      · next done =>
        split
        · next more => exact r.get?_follow _ _ _ (next.trans ((if_neg done).trans (if_pos more)))
        · rfl
    · rw [readers]
      exact r.follow_of_last _ _ (by rw [r.next_eq, if_neg (by omega), if_neg (by omega)])

/-- Settles O19: the writes of both buses and what the buses deliver. -/
theorem busesCarryWrites : Obligations.BusesCarryWrites := ⟨rowBusWrites, columnBusWrites, busesDeliver⟩

end Sys2Proof.Machine
end

