-- ==== Sys2Proof/Proofs/Lanes.lean ====
section
/-! PROOF. The words that the operations of lanes make, said of bit vectors (R6, R42, R83, R90, R91, R94 to R96). -/

namespace Sys2Proof.Machine

/-! ### Words as sums of their lanes (R6) -/

/-- A word is the number whose digits are its lanes. -/
theorem ofLanes_eq (w : Nat) (l : List Nat) : ofLanes w l = BitVec.ofNat 64 (Nat.ofDigits (2 ^ w) (l.map (· % 2 ^ w))) := by
  induction l with
  | nil => rfl
  | cons v vs ih =>
    have disjoint : BitVec.ofNat 64 (v % 2 ^ w) &&& ofLanes w vs <<< w = 0#64 := by
      refine BitVec.eq_of_getLsbD_eq fun i _ => ?_
      rw [BitVec.getLsbD_and, BitVec.getLsbD_ofNat, Nat.testBit_mod_two_pow, BitVec.getLsbD_shiftLeft]
      by_cases low : i < w <;> simp [low]
    rw [ofLanes, ← BitVec.add_eq_or_of_and_eq_zero _ _ disjoint, List.map_cons, Nat.ofDigits_cons, ih]
    refine BitVec.eq_of_toNat_eq ?_
    simp [Nat.shiftLeft_eq, Nat.mul_comm]

/-- Two words side by side, as one number. -/
theorem ofNat_append_ofNat (m n a b : Nat) :
    BitVec.ofNat m a ++ BitVec.ofNat n b = BitVec.ofNat (m + n) (b % 2 ^ n + 2 ^ n * a) := by
  refine BitVec.eq_of_toNat_eq ?_
  have low : (b % 2 ^ n + 2 ^ n * a) % 2 ^ n = b % 2 ^ n := by rw [Nat.add_mul_mod_self_left, Nat.mod_mod]
  have high : (b % 2 ^ n + 2 ^ n * a) / 2 ^ n = a := by
    rw [Nat.add_mul_div_left _ _ (Nat.two_pow_pos n), Nat.div_eq_of_lt (Nat.mod_lt _ (Nat.two_pow_pos n)), Nat.zero_add]
  calc (BitVec.ofNat m a ++ BitVec.ofNat n b).toNat
      = (a % 2 ^ m) <<< n ||| b % 2 ^ n := by rw [BitVec.toNat_append, BitVec.toNat_ofNat, BitVec.toNat_ofNat]
    _ = b % 2 ^ n + 2 ^ n * (a % 2 ^ m) := by
      rw [← Nat.shiftLeft_add_eq_or_of_lt (Nat.mod_lt _ (Nat.two_pow_pos n)), Nat.shiftLeft_eq, Nat.add_comm, Nat.mul_comm]
    _ = _ := by rw [BitVec.toNat_ofNat, Nat.add_comm m n, Nat.pow_add, Nat.mod_mul, low, high]

theorem ofNat_lane (w i : Nat) (x : W64) : BitVec.ofNat w (lane w i x) = x.extractLsb' (w * i) w := by
  refine BitVec.eq_of_toNat_eq ?_
  rw [lane, BitVec.toNat_ofNat, Nat.mod_mod, BitVec.extractLsb'_toNat, Nat.shiftRight_eq_div_pow]

theorem slane_eq (w i : Nat) (x : W64) : slane w i x = (x.extractLsb' (w * i) w).toInt := by rw [slane, ofNat_lane]

theorem ofLanes_two (x y : Nat) : ofLanes 32 [x, y] = BitVec.ofNat 32 y ++ BitVec.ofNat 32 x := by
  rw [ofLanes_eq, ofNat_append_ofNat]
  refine BitVec.eq_of_toNat_eq ?_
  simp only [List.map_cons, List.map_nil, Nat.ofDigits_cons, Nat.ofDigits_nil, BitVec.toNat_ofNat]
  omega

theorem ofLanes_four (x y z t : Nat) : ofLanes 16 [x, y, z, t] =
    BitVec.ofNat 16 t ++ BitVec.ofNat 16 z ++ BitVec.ofNat 16 y ++ BitVec.ofNat 16 x := by
  rw [ofLanes_eq, ofNat_append_ofNat, ofNat_append_ofNat, ofNat_append_ofNat]
  refine BitVec.eq_of_toNat_eq ?_
  simp only [List.map_cons, List.map_nil, Nat.ofDigits_cons, Nat.ofDigits_nil, BitVec.toNat_ofNat]
  omega

theorem ofLanes_eight (v : Nat → Nat) : ofLanes 8 ((List.range 8).map v) = Claims.bytes fun i => BitVec.ofNat 8 (v i) := by
  unfold Claims.bytes
  iterate 7 rw [ofNat_append_ofNat]
  rw [ofLanes_eq]
  refine BitVec.eq_of_toNat_eq ?_
  simp only [show List.range 8 = [0, 1, 2, 3, 4, 5, 6, 7] from rfl, List.map_cons, List.map_nil, Nat.ofDigits_cons,
    Nat.ofDigits_nil, BitVec.toNat_ofNat]
  omega

theorem ofLanes_replicate (w n x : Nat) (h : x < 2 ^ w) : ofLanes w (List.replicate n x) =
    BitVec.ofNat 64 ((List.range n).map fun i => x * 2 ^ (w * i)).sum := by
  rw [ofLanes_eq, List.map_replicate, Nat.mod_eq_of_lt h, Nat.ofDigits_eq_sum_mapIdx]
  congr 2
  refine List.ext_getElem (by simp) fun i _ _ => by simp [Nat.pow_mul]

/-! ### Lanes with their flags (R42, R83) -/

theorem lanes32_eq (v : Nat → Rounded) : lanes32 v = Claims.both v := congrArg (·, _) (ofLanes_two _ _)

theorem lanes16_eq (v : Nat → Rounded) : lanes16 v = Claims.all4 v := congrArg (·, _) (ofLanes_four _ _ _ _)

theorem lowLane_eq (r : Rounded) (hi : Nat) : lowLane r hi = Claims.lane0 r (BitVec.ofNat 32 hi) :=
  congrArg (·, r.flags) (ofLanes_two _ _)

theorem bytes8_eq (v : Nat → Int) : bytes8 v = Claims.bytes fun i => BitVec.ofInt 8 (v i) := by
  rw [bytes8, ofLanes_eight]
  simp only [toLane, BitVec.ofNat_toNat, BitVec.setWidth_eq]

/-! ### Signs and compares (R90, R91) -/

theorem signOp_eq (g : Nat → Nat) (x : Nat) : signOp g x = Claims.sign g x := by
  unfold signOp Claims.sign
  cases fp32.decode x <;> rfl

theorem compareRes_eq (anyNan cond : Bool) (x y : FVal) :
    compareRes anyNan cond x y = Claims.mask (if anyNan then x.isNan || y.isNan else x.isSnan || y.isSnan) cond x y := by
  rw [compareRes, Claims.mask, Bool.not_or, Bool.and_assoc]

/-! ### Sums and products of lanes (R94, R95) -/

theorem vdotbVal_eq (d a b : W64) : vdotbVal d a b = BitVec.ofInt 64 (d.toInt +
    ((List.range 8).map fun i => (a.extractLsb' (8 * i) 8).toInt * (b.extractLsb' (8 * i) 8).toInt).sum) := by
  simp only [vdotbVal, slane_eq, List.sum_eq_foldl, List.foldl_map]
  rfl

theorem add_lanes32 (a b : W64) : ofLanes 32 [lane 32 0 a + lane 32 0 b, lane 32 1 a + lane 32 1 b] =
    (a.extractLsb' 32 32 + b.extractLsb' 32 32) ++ (a.extractLsb' 0 32 + b.extractLsb' 0 32) := by
  simp only [ofLanes_two, BitVec.ofNat_add, ofNat_lane]

theorem mul_lanes32 (a b : W64) : ofLanes 32 [lane 32 0 a * lane 32 0 b, lane 32 1 a * lane 32 1 b] =
    (a.extractLsb' 32 32 * b.extractLsb' 32 32) ++ (a.extractLsb' 0 32 * b.extractLsb' 0 32) := by
  simp only [ofLanes_two, BitVec.ofNat_mul, ofNat_lane]

/-! ### Bytes (R95) -/

theorem ofInt_toInt_sub (x y : BitVec 8) : BitVec.ofInt 8 (x.toInt - y.toInt) = x - y := by
  rw [Int.sub_eq_add_neg, BitVec.ofInt_add, BitVec.ofInt_neg, BitVec.ofInt_toInt, BitVec.ofInt_toInt, BitVec.sub_eq_add_neg]

theorem ofInt_max_toInt (x y : BitVec 8) : BitVec.ofInt 8 (max x.toInt y.toInt) = if x.toInt ≥ y.toInt then x else y := by
  rw [max_def', apply_ite (BitVec.ofInt 8), BitVec.ofInt_toInt, BitVec.ofInt_toInt]

theorem ofInt_min_toInt (x y : BitVec 8) : BitVec.ofInt 8 (min x.toInt y.toInt) = if x.toInt ≤ y.toInt then x else y := by
  rw [min_def, apply_ite (BitVec.ofInt 8), BitVec.ofInt_toInt, BitVec.ofInt_toInt]

/-! ### Shuffles, broadcasts and selections (R96) -/

theorem shufVal_eq (a b : W64) : shufVal a b = Claims.bytes fun j =>
    let c := b.toNat / 2 ^ (4 * j) % 16
    if c ≤ 7 then a.extractLsb' (8 * c) 8 else 0#8 := by
  rw [shufVal, ofLanes_eight]
  refine congrArg Claims.bytes (funext fun j => ?_)
  show BitVec.ofNat 8 (if 8 ≤ b.toNat / 2 ^ (4 * j) % 16 then 0 else lane 8 _ a) = _
  dsimp only
  split
  · rw [if_neg (by omega)]
  · rw [if_pos (by omega), ← ofNat_lane]; rfl

theorem bcastVal_eq (a b : W64) : bcastVal a b =
    let w := 4 * 2 ^ (b.toNat / 16 % 4)
    let x := a.toNat / 2 ^ (w * (b.toNat % 16 % (64 / w))) % 2 ^ w
    BitVec.ofNat 64 ((List.range (64 / w)).map fun i => x * 2 ^ (w * i)).sum := by
  rw [bcastVal, toNat_field, toNat_field_zero]
  exact ofLanes_replicate _ _ _ (Nat.mod_lt _ (Nat.two_pow_pos _))

theorem bytes_congr {v v' : Nat → BitVec 8} (h : ∀ i < 8, v i = v' i) : Claims.bytes v = Claims.bytes v' := by
  simp [Claims.bytes, h]

theorem vselVal_eq (e : Elem) (a b : W64) : vselVal e.predMask a b = Claims.bytes fun j =>
    if (e.pred j).val then a.extractLsb' (8 * j) 8 else b.extractLsb' (8 * j) 8 := by
  rw [vselVal, ofLanes_eight]
  exact bytes_congr fun j h => by rw [e.getLsbD_predMask j h, apply_ite (BitVec.ofNat 8), ofNat_lane, ofNat_lane]

end Sys2Proof.Machine
end

