-- ==== Sys2Proof/Proofs/FloatsAndVectors.lean ====
section
/-! PROOF. O12 and O13: what the floating-point and vector operations give, and when (R84, R88 to R96). -/

namespace Sys2Proof.Machine

/-! ### Results of operations of lanes (R83, R86) -/

/-- What an operation gives is `v` of its operands. -/
def Yields (o : Op) (v : Fields → Elem → Ins → Res) : Prop := ∀ l, o.res l = v l.f l.e l.i

section

variable {opc delay : Nat} {u : Unit'} {fmt : Fmt} {counter : Nat}

theorem Yields.of_words {v w : W64 → W64 → W64 → W64 × Flags}
    (h : ∀ d a b, v d a b = w d a b) : Yields (laneOp opc delay u fmt counter v) (Claims.flagged fmt w) := fun l =>
  congrArg (fun x => (⟨x.1, fmt, l.i.tnt, x.2, none⟩ : Res)) (h _ _ _)

/-- R83: two FP32 lanes, each formed on its own. -/
theorem Yields.of_lanes32 {v w : W64 → W64 → W64 → Nat → Rounded}
    (h : ∀ d a b i, v d a b i = w d a b i) : Yields (laneOp opc delay u fmt counter fun d a b => lanes32 (v d a b))
      (Claims.flagged fmt fun d a b => Claims.both (w d a b)) :=
  .of_words fun d a b => (lanes32_eq _).trans (congrArg Claims.both (funext (h d a b)))

/-- R83: four BF16 lanes, each formed on its own. -/
theorem Yields.of_lanes16 {v w : W64 → W64 → W64 → Nat → Rounded}
    (h : ∀ d a b i, v d a b i = w d a b i) : Yields (laneOp opc delay u fmt counter fun d a b => lanes16 (v d a b))
      (Claims.flagged fmt fun d a b => Claims.all4 (w d a b)) :=
  .of_words fun d a b => (lanes16_eq _).trans (congrArg Claims.all4 (funext (h d a b)))

/-- R88, R94: one FP32 value, and the lane above it. -/
theorem Yields.of_lowLane {v w : W64 → W64 → W64 → Rounded}
    {hi : W64 → W64 → W64 → Nat} {top : W64 → W64 → W64 → BitVec 32} (low : ∀ d a b, v d a b = w d a b)
    (high : ∀ d a b, BitVec.ofNat 32 (hi d a b) = top d a b) :
    Yields (laneOp opc delay u fmt counter fun d a b => lowLane (v d a b) (hi d a b))
      (Claims.flagged fmt fun d a b => Claims.lane0 (w d a b) (top d a b)) :=
  .of_words fun d a b => by rw [lowLane_eq, low, high]

/-- R95: an operation on words that raises no flag. -/
theorem Yields.of_noFlags {v w : W64 → W64 → W64 → W64}
    (h : ∀ d a b, v d a b = w d a b) : Yields (laneOp opc delay u fmt counter fun d a b => noFlags (v d a b))
      (Claims.flagged fmt fun d a b => (w d a b, Flags.none)) := .of_words fun d a b => congrArg noFlags (h d a b)

/-- R95: an operation on bytes, byte by byte. -/
theorem Yields.of_bytes {v : W64 → W64 → W64 → Nat → Int}
    {w : W64 → W64 → W64 → Nat → BitVec 8} (h : ∀ d a b i, BitVec.ofInt 8 (v d a b i) = w d a b i) :
    Yields (laneOp opc delay u fmt counter fun d a b => noFlags (bytes8 (v d a b)))
      (Claims.flagged fmt fun d a b => (Claims.bytes (w d a b), Flags.none)) :=
  .of_noFlags fun d a b => (bytes8_eq _).trans (congrArg Claims.bytes (funext (h d a b)))

end

theorem floats_yield : ∀ x ∈ Claims.floats, Yields x.2.2.1 x.2.2.2 := by
  refine List.forall_iff_forall_mem.1 ⟨?fadd, ?fsub, ?fmul, ?fma, ?fmin, ?fmax, ?fabs, ?fneg, ?fclt, ?fceq, ?fexp2, ?flog2, ?frcp,
    ?frsq, ?fsum, ?fscl⟩
  all_goals dsimp only [faddOp, fsubOp, fmulOp, fmaOp, fminOp, fmaxOp, fabsOp, fnegOp, fcltOp, fceqOp, fexp2Op,
    flog2Op, frcpOp, frsqOp, fsumOp, fsclOp, fpOp, List.Forall]
  case fabs | fneg => exact .of_lanes32 fun _ _ _ _ => signOp_eq _ _
  case fclt | fceq => exact .of_lanes32 fun _ _ _ _ => compareRes_eq _ _ _ _
  case fsum => exact .of_lowLane (fun _ _ _ => rfl) fun _ _ _ => rfl
  all_goals exact .of_lanes32 fun _ _ _ _ => rfl

theorem vectorsLater_yield : ∀ x ∈ Claims.vectorsLater, Yields x.2.2.1 x.2.2.2 := by
  refine List.forall_iff_forall_mem.1 ⟨?vaddBf, ?vsubBf, ?vmulBf, ?vfmaBf, ?vmaxBf, ?vminBf, ?vdotBf, ?vrsumBf, ?vdotB, ?vmulW⟩
  all_goals dsimp only [vaddBfOp, vsubBfOp, vmulBfOp, vfmaBfOp, vmaxBfOp, vminBfOp, vdotBfOp, vrsumBfOp, vdotBOp,
    vmulWOp, vecOp, List.Forall]
  case vdotBf => exact .of_lowLane (fun _ _ _ => rfl) fun d _ _ => ofNat_lane 32 1 d
  case vrsumBf => exact .of_lowLane (fun _ _ _ => rfl) fun _ _ _ => rfl
  case vdotB => exact .of_noFlags vdotbVal_eq
  case vmulW => exact .of_noFlags fun _ => mul_lanes32
  all_goals exact .of_lanes16 fun _ _ _ _ => rfl

theorem vectorsNow_yield : ∀ x ∈ Claims.vectorsNow, Yields x.2.1 x.2.2 := by
  refine List.forall_iff_forall_mem.1 ⟨?vaddB, ?vaddsB, ?vsubB, ?vmaxB, ?vminB, ?vaddW, ?vshuf, ?vbcast, ?vsel⟩
  all_goals dsimp only [vaddBOp, vaddsBOp, vsubBOp, vmaxBOp, vminBOp, vaddWOp, vshufOp, vbcastOp, vselOp, vecOp, List.Forall]
  case vaddB => exact .of_bytes fun _ _ _ _ => by rw [slane_eq, slane_eq, BitVec.ofInt_add, BitVec.ofInt_toInt, BitVec.ofInt_toInt]
  case vaddsB => exact .of_bytes fun _ _ _ _ => by rw [slane_eq, slane_eq]
  case vsubB => exact .of_bytes fun _ _ _ _ => by rw [slane_eq, slane_eq, ofInt_toInt_sub]
  case vmaxB => exact .of_bytes fun _ _ _ _ => by rw [slane_eq, slane_eq, ofInt_max_toInt]
  case vminB => exact .of_bytes fun _ _ _ _ => by rw [slane_eq, slane_eq, ofInt_min_toInt]
  case vaddW => exact .of_noFlags fun _ => add_lanes32
  case vshuf => exact fun l => congrArg (Res.mk · _ _ _ _) (shufVal_eq _ _)
  case vbcast => exact .of_noFlags fun _ => bcastVal_eq
  case vsel => exact fun l => congrArg (Res.mk · _ _ _ _) (vselVal_eq _ _ _)

/-! ### The rows (R84, R88 to R96) -/

/-- R84: the rows whose results come later. -/
def lateLaneRows : List (Nat × (Fields → Instr) × Op × (Fields → Elem → Ins → Res)) := Claims.floats ++ Claims.vectorsLater

theorem lateLaneRows_late : ∀ x ∈ lateLaneRows, LateOp x.1 x.2.2.1 := by
  refine List.forall_iff_forall_mem.1 ?_
  repeat' apply And.intro
  all_goals exact ⟨rfl, by decide, fun _ => rfl, fun _ => rfl, fun _ _ => rfl, fun _ => rfl, by decide⟩

theorem lateLaneRows_runOp : ∀ x ∈ lateLaneRows, RunsOp (x.2.1, x.2.2.1) := by
  refine List.forall_iff_forall_mem.1 ?_
  repeat' apply And.intro
  all_goals exact fun _ _ => rfl

theorem vectorsNow_prompt : ∀ x ∈ Claims.vectorsNow, PromptOp x.2.1 := by
  refine List.forall_iff_forall_mem.1 ?_
  repeat' apply And.intro
  all_goals exact ⟨rfl, fun _ => rfl, fun _ _ => rfl, fun _ => rfl, rfl, by decide⟩

theorem vectorsNow_runOp : ∀ x ∈ Claims.vectorsNow, RunsOp (x.1, x.2.1) := by
  refine List.forall_iff_forall_mem.1 ?_
  repeat' apply And.intro
  all_goals exact fun _ _ => rfl

theorem lateLaneRows_giveLater (x : Nat × (Fields → Instr) × Op × (Fields → Elem → Ins → Res)) (hx : x ∈ lateLaneRows) :
    Claims.GivesLater .pe x.1 x.2.1 x.2.2.1 x.2.2.2 :=
  (lateLaneRows_late x hx).givesLater .pe (by decide) x.2.1 (lateLaneRows_runOp x hx) x.2.2.2
    ((List.mem_append.1 hx).elim (floats_yield x) (vectorsLater_yield x))

/-- Settles O13: the rows of R88 to R94 and of the multiplier give their results late, those of R95 and R96 at their fire. -/
theorem floatAndVectorOpsGive : Obligations.FloatAndVectorOpsGive :=
  ⟨fun x hx => lateLaneRows_giveLater x (List.mem_append_left _ hx),
    fun x hx => lateLaneRows_giveLater x (List.mem_append_right _ hx),
    fun x hx => (vectorsNow_prompt x hx).givesNow x.1 (vectorsNow_runOp x hx) x.2.2 fun _ _ _ _ => vectorsNow_yield x hx _⟩

/-! ### FABS and FNEG bit by bit (R33, R90) -/

/-- Is an FP32 lane a NaN (R33)? -/
def nanLane (x : W32) : Bool := decide (x.extractLsb' 23 8 = 0xFF#8 ∧ x.extractLsb' 0 23 ≠ 0#23)

theorem nanLane_iff (x : W32) : nanLane x = true ↔ x.toNat / 2 ^ 23 % 2 ^ 8 = 2 ^ 8 - 1 ∧ x.toNat % 2 ^ 23 ≠ 0 := by
  have exponent : (x.extractLsb' 23 8).toNat = x.toNat / 2 ^ 23 % 2 ^ 8 := toNat_field x 23 8
  have mantissa : (x.extractLsb' 0 23).toNat = x.toNat % 2 ^ 23 := toNat_field_zero x 23
  rw [nanLane, decide_eq_true_iff, ← exponent, ← mantissa, ne_eq, BitVec.toNat_inj.symm, BitVec.toNat_inj.symm]
  rfl

/-- R33: the top bit of the mantissa of a quiet NaN is 1. -/
theorem decide_mantissa_lt (x : W32) : decide (x.toNat % 2 ^ 23 < 2 ^ 22) = !x.getLsbD 22 := by
  rw [BitVec.getLsbD, Nat.testBit_eq_decide_div_mod_eq, ← decide_not, decide_eq_decide]
  omega

theorem decode_of_nanLane (x : W32) (h : nanLane x = true) : fp32.decode x.toNat = .nan (!x.getLsbD 22) := by
  obtain ⟨exponent, mantissa⟩ := (nanLane_iff x).1 h
  rw [fp32.decode_eq _ x.isLt, if_pos ⟨rfl, exponent⟩, if_neg (show ¬ x.toNat % 2 ^ fp32.mb = 0 from mantissa),
    ← decide_mantissa_lt]
  rfl

theorem isNan_decode_of_not_nanLane (x : W32) (h : nanLane x = false) : (fp32.decode x.toNat).isNan = false := by
  rw [fp32.decode_eq _ x.isLt]
  split
  · next top =>
    have mantissa : x.toNat % 2 ^ fp32.mb = 0 := by
      by_contra nonzero
      rw [(nanLane_iff x).2 ⟨top.2, nonzero⟩] at h
      exact Bool.noConfusion h
    rw [if_pos mantissa]; rfl
  · rw [if_neg fun special => absurd special.1 (by decide)]
    split <;> rfl

/-- R90: what a sign operation gives of a lane. -/
theorem sign_toNat (g : Nat → Nat) (x : W32) : Claims.sign g x.toNat =
    if nanLane x then ⟨0x7FC00000, { Flags.none with nv := !x.getLsbD 22 }, false⟩ else ⟨g x.toNat, Flags.none, false⟩ := by
  rw [Claims.sign]
  cases h : nanLane x
  · rw [isNan_decode_of_not_nanLane x h]; rfl
  · rw [decode_of_nanLane x h]; rfl

theorem sign_flags (g : Nat → Nat) (x : W32) :
    (Claims.sign g x.toNat).flags = { Flags.none with nv := nanLane x && !x.getLsbD 22 } := by
  rw [sign_toNat]
  cases nanLane x <;> rfl

theorem toNat_extractLsb'_lane (i : Nat) (a : W64) : (a.extractLsb' (32 * i) 32).toNat = a.toNat / 2 ^ (32 * i) % 2 ^ 32 :=
  toNat_field a (32 * i) 32

theorem extractLsb'_both (v : Nat → Rounded) (i : Nat) (h : i < 2) :
    (Claims.both v).1.extractLsb' (32 * i) 32 = BitVec.ofNat 32 (v i).bits := by
  obtain rfl | rfl : i = 0 ∨ i = 1 := by omega
  · exact BitVec.extractLsb'_append_eq_right
  · exact BitVec.extractLsb'_append_eq_left

/-- R90, said of the bits of a lane. -/
theorem signLanes_flagged (g : Nat → Nat) (g' : W32 → W32) (bits : ∀ x : W32, BitVec.ofNat 32 (g x.toNat) = g' x)
    (f : Fields) (e : Elem) (i : Ins) : Claims.SignLanes g' i.a.data (Claims.flagged .f32x2
      (fun _ a _ => Claims.both fun j => Claims.sign g (a.toNat / 2 ^ (32 * j) % 2 ^ 32)) f e i) := by
  have lane (j : Nat) := toNat_extractLsb'_lane j i.a.data
  refine ⟨fun j hj => ?_, ?_, rfl⟩
  · have word := extractLsb'_both (fun j => Claims.sign g (i.a.data.toNat / 2 ^ (32 * j) % 2 ^ 32)) j hj
    rw [← lane, sign_toNat] at word
    refine word.trans ?_
    show _ = if nanLane _ then _ else _
    split
    · rfl
    · exact bits _
  · show (Claims.sign g (i.a.data.toNat / 2 ^ (32 * 0) % 2 ^ 32)).flags.or
      (Claims.sign g (i.a.data.toNat / 2 ^ (32 * 1) % 2 ^ 32)).flags = _
    rw [← lane, ← lane, sign_flags, sign_flags]
    rfl

theorem ofNat_clear_sign (x : W32) : BitVec.ofNat 32 (x.toNat % 2 ^ 31) = x &&& 0x7FFFFFFF#32 := by
  refine BitVec.eq_of_toNat_eq ?_
  have low : x.toNat &&& 0x7FFFFFFF = x.toNat % 2 ^ 31 := Nat.and_two_pow_sub_one_eq_mod x.toNat 31
  rw [BitVec.toNat_and, BitVec.toNat_ofNat, BitVec.toNat_ofNat, Nat.mod_eq_of_lt (show 0x7FFFFFFF < 2 ^ 32 by decide), low]
  omega

theorem ofNat_invert_sign (x : W32) : BitVec.ofNat 32 ((x.toNat + 2 ^ 31) % 2 ^ 32) = x ^^^ 0x80000000#32 := by
  refine BitVec.eq_of_getLsbD_eq fun i hi => ?_
  have sign : (0x80000000#32).getLsbD i = decide (31 = i) := by
    rw [show 0x80000000#32 = BitVec.twoPow 32 31 from rfl, BitVec.getLsbD_twoPow]; simp
  rw [BitVec.getLsbD_xor, sign, BitVec.getLsbD_ofNat, Nat.testBit_mod_two_pow, Nat.add_comm]
  obtain low | rfl : i < 31 ∨ i = 31 := by omega
  · simp only [hi, decide_true, Bool.true_and, Nat.testBit_two_pow_add_gt low, show ¬ 31 = i by omega, decide_false, Bool.xor_false]
    rfl
  · simp only [Nat.testBit_two_pow_add_eq]
    simp [BitVec.getLsbD]

/-- R90: a ready slot of an operation that gives `Claims.sign g` of its lanes changes their bits as `g` does. -/
theorem fires_signLanes {mk : Fields → Instr} {o : Op} (g : Nat → Nat) {g' : W32 → W32}
    (bits : ∀ x : W32, BitVec.ofNat 32 (g x.toNat) = g' x) (gives : Claims.GivesLater .pe 4 mk o (Claims.flagged .f32x2
      fun _ a _ => Claims.both fun j => Claims.sign g (a.toNat / 2 ^ (32 * j) % 2 ^ 32)))
    (f : Fields) (s : State) (c : CoreCtx) (e : Elem) (hat : Claims.At s c e) (hpe : kindAt s.here.pos = .pe)
    (ready : slotStatus o f s s.site = .ready) :
    let i := Claims.operands o.opc f s c e
    ∃ t c' r, exec (mk f) s = .next t ∧ t.core? s.key = some c' ∧ Claims.LandsLater 4 f s.here.pos c e i r c' ∧
      r.tnt = Claims.taint i ∧ r.ctl = none ∧ Claims.SignLanes g' i.a.data r := by
  obtain ⟨t, c', exec, core, lands⟩ := gives f s c e hat hpe ready
  exact ⟨t, c', _, exec, core, lands, rfl, rfl, signLanes_flagged g g' bits f e _⟩

/-- Settles O12: the rows of FABS and FNEG, read bit by bit. -/
theorem absAndNegateFollowR90 : Obligations.AbsAndNegateFollowR90 := by
  obtain ⟨-, -, -, -, -, -, fabs, fneg, -⟩ := List.forall_iff_forall_mem.2 floatAndVectorOpsGive.1
  exact ⟨fires_signLanes (· % 2 ^ 31) ofNat_clear_sign fabs, fires_signLanes (fun x => (x + 2 ^ 31) % 2 ^ 32) ofNat_invert_sign fneg⟩

end Sys2Proof.Machine
end

