-- ==== Sys2Proof/Proofs/AccumulatorBanks.lean ====
section
/-! PROOF. O21: what the bank operations of an ME make of its banks, what ACC.RD and BHOLD leave, and the rows of a drain (R101,
R109 to R112; Table 6.5). -/

namespace Sys2Proof.Machine

/-! ### Fires without a result on any element (R24, R42) -/

/-- R42: an operation of latency 1 without a destination sets its flags at its fire. -/
theorem deliver_of_atOnce (o : Op) (sh : Shape) (l : Look) (r : Res) (c : CoreCtx)
    (noResult : (sh.d == .result || sh.d == .accum) = false) (now : o.atOnce l = true) :
    deliver o sh l r c = c.modElem l.t.pos fun e => e.setFlags r.flags := by
  unfold deliver
  simp only [now, noResult, Bool.false_and, Bool.not_false, if_true]

/-- R42: a longer one has nothing in flight but its flags. -/
theorem deliver_of_later (o : Op) (sh : Shape) (l : Look) (r : Res) (c : CoreCtx)
    (noResult : (sh.d == .result || sh.d == .accum) = false) (later : o.atOnce l = false) (h0 : o.delay ≠ 0) :
    ∃ x, deliver o sh l r c = c.fly (c.cyclesOf l.t.pos o.delay) l.e.runId (.result x) ∧
      x.pos = l.t.pos ∧ x.dst = 28 ∧ x.flags = r.flags := by
  unfold deliver
  simp only [later, noResult, h0, Bool.false_and, Bool.not_false, Bool.false_eq_true, if_true, if_false]
  exact ⟨_, rfl, rfl, rfl, rfl⟩

/-- A fire whose further effects made core `c` ends with the predicate and the counters (R26, R256, R368). -/
structure Finished (pos : Nat) (c c' : CoreCtx) : Prop where
  rest : c' = { c with elems := c'.elems, evc := c'.evc, runs := c'.runs }
  flags : (c'.elemD pos).flags = (c.elemD pos).flags

theorem Finished.me {pos : Nat} {c c' : CoreCtx} (h : Finished pos c c') (p : Nat) : c'.me p = c.me p := by
  rw [h.rest]; rfl

theorem Finished.flights {pos : Nat} {c c' : CoreCtx} (h : Finished pos c c') : c'.flights = c.flights := by
  rw [h.rest]

/-- The events that an effect counts are among those that a fire counts (R368). -/
theorem Finished.of_evc {pos : Nat} {c c' : CoreCtx} {v : Vector W64 32} (h : Finished pos { c with evc := v } c') : Finished pos c c' :=
  ⟨h.rest, h.flags⟩

/-- R24: a ready slot fires, and nothing follows its further effects but its predicate and its counters. -/
theorem fires_finished {o : Op} {sh : Shape} (hsh : shapeOf o.opc = some sh) (mk : Fields → Instr) (runs : RunsOp (mk, o)) (f : Fields)
    (s : State) (c : CoreCtx) (e : Elem) (hat : Claims.At s c e) (room : Claims.HasRoom o f s c e)
    (ready : slotStatus o f s s.site = .ready) (c₁ : CoreCtx)
    (effect : (effectState o sh (lookAt o f s s.site c e)).core? s.key = some c₁) :
    ∃ t c', exec (mk f) s = .next t ∧ t.core? s.key = some c' ∧ Finished s.here.pos c₁ c' := by
  let l := lookAt o f s s.site c e
  obtain ⟨v, core⟩ := fireSlot_core_of (sh := sh) (spilled_of_hasRoom o f s c e room) c₁ effect
  obtain ⟨es, updated⟩ := updatePred_only o sh l (o.res l) c₁
  obtain ⟨ps, preds⟩ := updatePred_shape o sh l (o.res l) c₁
  refine ⟨_, _, (runs f s).trans (runOp_ready o f s c e sh hsh hat.core hat.elem ready), core, ?_, ?_⟩
  · rw [show updatePred o sh (lookAt o f s s.site c e) (o.res (lookAt o f s s.site c e)) c₁ = _ from updated]
  · show ((updatePred o sh l (o.res l) c₁).elemD l.t.pos).flags = _
    rw [preds]
    rfl

/-- The core that the further effects of a fire find (R24). -/
theorem core_operandState (o : Op) (sh : Shape) (f : Fields) (s : State) (c : CoreCtx) (e : Elem) (hat : Claims.At s c e) :
    (operandState o sh (lookAt o f s s.site c e)).core? s.key = some (deliveredCore o sh (lookAt o f s s.site c e) c) :=
  (acts_operandState o sh (lookAt o f s s.site c e) c).core hat.core

/-- R24: operands and delivery of an element that is no LE change elements and what is in flight only. -/
theorem deliveredCore_grown_of_ne_le (o : Op) (sh : Shape) (l : Look) (c : CoreCtx) (hk : kindAt l.t.pos ≠ .le) :
    c.Grown (deliveredCore o sh l c) := by
  have free : (kindAt l.t.pos == .le) = false := beq_false_of_ne hk
  exact (takeOperands_grown o sh _ _ c).trans (deliver_grown o sh l _ _
    (by rw [CoreCtx.behindReqs, free]; rfl) fun _ => by rw [CoreCtx.regBehind, free]; rfl)

theorem CoreCtx.Grown.me {c c' : CoreCtx} (h : c.Grown c') (p : Nat) : c'.me p = c.me p := by
  obtain ⟨es, fl, rfl⟩ := h; rfl

theorem CoreCtx.Grown.cyclesOf {c c' : CoreCtx} (h : c.Grown c') (p n : Nat) : c'.cyclesOf p n = c.cyclesOf p n := by
  obtain ⟨es, fl, rfl⟩ := h; rfl

theorem CoreCtx.Grown.groupOf {c c' : CoreCtx} (h : c.Grown c') (run : Nat) : c'.groupOf run = c.groupOf run := by
  obtain ⟨es, fl, rfl⟩ := h; rfl

/-! ### Operations that write their bank (R109, R112; Table 6.5) -/

/-- R109: the ME of which a bank operation has written its bank and keeps it busy. -/
def Look.writtenMe (l : Look) (cycles : Nat) (g : Bank → Bank × Flags) (c : CoreCtx) : ME :=
  let m := c.me l.t.pos
  { m.setBank l.f.dst.toNat (g (m.bank l.f.dst.toNat)).1 with busy := upd m.busy l.f.dst.toNat (c.cyclesOf l.t.pos cycles) }

/-- R109: a bank operation changes one ME of its core, and neither its elements nor what is in flight. -/
theorem bankWrite_core (l : Look) (cycles : Nat) (g : Bank → Bank × Flags) (s : State) (c : CoreCtx) (h : s.core? l.t.k = some c) :
    ∃ c', (bankWrite l cycles g s).core? l.t.k = some c' ∧ c'.me l.t.pos = l.writtenMe cycles g c ∧
      (∀ p, p ≠ l.t.pos → c'.me p = c.me p) ∧ c'.elems = c.elems ∧ c'.flights = c.flights := by
  obtain ⟨buf, filter, evc, undone⟩ := takeUndo_core l s c h
  exact ⟨_, State.core?_modCore_of _ undone, CoreCtx.me_modMe_same _ _ _,
    fun p hp => CoreCtx.me_modMe_other _ _ _ _ hp.symm, rfl, rfl⟩

theorem bank_writtenMe_same (l : Look) (cycles : Nat) (g : Bank → Bank × Flags) (c : CoreCtx) (h : l.f.dst.toNat < 8) :
    (l.writtenMe cycles g c).bank l.f.dst.toNat = (g ((c.me l.t.pos).bank l.f.dst.toNat)).1 := ME.bank_setBank_same _ _ _ h

theorem bank_writtenMe_other (l : Look) (cycles : Nat) (g : Bank → Bank × Flags) (c : CoreCtx) (n : Nat) (h : n ≠ l.f.dst.toNat) :
    (l.writtenMe cycles g c).bank n = (c.me l.t.pos).bank n := ME.bank_setBank_other _ _ _ _ h.symm

theorem busy_writtenMe (l : Look) (cycles : Nat) (g : Bank → Bank × Flags) (c : CoreCtx) (h : l.f.dst.toNat < 8) :
    at' (l.writtenMe cycles g c).busy l.f.dst.toNat 0 = c.cyclesOf l.t.pos cycles := at_upd_same _ _ _ _ h

section
variable {o : Op} {sh : Shape} (f : Fields) (s : State) (c : CoreCtx) (e : Elem)

/-- R42: the flags of a bank operation of one cycle are set at its fire, those of a longer one are in flight. -/
theorem flags_of_bankOp (hat : Claims.At s c e) (noResult : (sh.d == .result || sh.d == .accum) = false)
    (now : ∀ l, o.now l = false) (h0 : o.delay ≠ 0) :
    let c' := deliveredCore o sh (lookAt o f s s.site c e) c
    let fl := (o.res (lookAt o f s s.site c e)).flags
    if o.delay = 1 then (c'.elemD s.here.pos).flags = e.flags.or fl
    else (c'.elemD s.here.pos).flags = e.flags ∧ ∃ y ∈ c'.flights, ∃ x, y.left = o.delay * at' c.divs (s.here.pos / 8) 1 ∧
      y.run = e.runId ∧ y.cargo = .result x ∧ x.pos = s.here.pos ∧ x.dst = 28 ∧ x.flags = fl := by
  intro c' fl
  split
  · next one => exact flags_deliveredCore o sh f s c e hat (by rw [Op.atOnce, one]; rfl)
  · next more =>
    have later : o.atOnce (lookAt o f s s.site c e) = false := by rw [Op.atOnce, now, beq_false_of_ne more]; rfl
    obtain ⟨x, delivered, hpos, hdst, hflags⟩ := deliver_of_later o sh (lookAt o f s s.site c e) (o.res (lookAt o f s s.site c e))
      (takeOperands o sh (s.site.takes f) s.here.pos c) noResult later h0
    have core : c' = _ := delivered
    have grown := takeOperands_grown o sh (s.site.takes f) s.here.pos c
    obtain ⟨qs, rs, shape⟩ := takeOperands_shape o sh (s.site.takes f) s.here.pos c
    rw [core]
    refine ⟨?_, _, List.mem_append_right _ (List.mem_singleton.2 rfl), x, ?_, rfl, rfl, hpos, hdst, hflags⟩
    · show ((takeOperands o sh (s.site.takes f) s.here.pos c).elemD s.here.pos).flags = _
      rw [shape, c.elemD_of _ e hat.elem]
    · exact grown.cyclesOf _ _

end

/-- R109, Table 6.5: a bank operation makes of its bank what it computes of its operands. -/
theorem bankOp_becomes {opc cycles : Nat} {g : Look → Bank → Bank × Flags} {sh : Shape}
    (hsh : shapeOf opc = some sh) (hd : sh.d = .bank) (h0 : cycles ≠ 0) {mk : Fields → Instr}
    (runs : RunsOp (mk, bankOp opc cycles g)) (g' : Ins → Bank → Bank × Flags)
    (computes : ∀ l b, g l b = g' l.i b) : Claims.BankBecomes cycles mk (bankOp opc cycles g) g' := by
  intro f s c e hat hme hdst room ready n r
  let o := bankOp opc cycles g
  let l := lookAt o f s s.site c e
  have value : g l ((c.me s.here.pos).bank n) = r := computes l _
  have grown := deliveredCore_grown_of_ne_le o sh l c (by show kindAt s.here.pos ≠ .le; rw [hme]; decide)
  have me : (deliveredCore o sh l c).me s.here.pos = c.me s.here.pos := grown.me _
  obtain ⟨c₁, effect, here, others, elems, flights⟩ := bankWrite_core l cycles (g l) _ _ (core_operandState o sh f s c e hat)
  obtain ⟨t, c', exec, core, done⟩ := fires_finished hsh mk runs f s c e hat room ready c₁ effect
  replace here : c'.me s.here.pos = l.writtenMe cycles (g l) (deliveredCore o sh l c) := (done.me _).trans here
  have elem : (c'.elemD s.here.pos).flags = ((deliveredCore o sh l c).elemD s.here.pos).flags := by
    rw [done.flags, CoreCtx.elemD, elems, CoreCtx.elemD]
  have flags := flags_of_bankOp (o := o) (sh := sh) f s c e hat (by rw [hd]; rfl) (fun _ => rfl) h0
  refine ⟨t, c', exec, core, ?_, ?_, ?_, fun m _ hm => ?_, fun p hp => ?_⟩
  · rw [here, ← value, ← me]; exact bank_writtenMe_same l _ _ _ hdst
  · rw [elem, done.flights.trans flights, ← value]; exact flags
  · rw [here]; exact (busy_writtenMe l _ _ _ hdst).trans (grown.cyclesOf _ _)
  · rw [here, ← me]; exact bank_writtenMe_other l _ _ _ _ hm
  · exact (done.me p).trans ((others p hp).trans (grown.me p))

/-! ### What they compute (R109, R112) -/

theorem field_low_word (a : W64) : field a 0 32 = (a.extractLsb' 0 32).toNat := rfl

/-- R109: ACC.SCL scales every element. -/
theorem sclBank_eq (a : W64) (tnt : Bool) (b : Bank) :
    let r (n : Nat) := Claims.scaled b.int (at' b.c n 0#32) (a.extractLsb' 0 32)
    sclBank a tnt b = ({ b with c := Vector.ofFn fun n : Fin 16 => (r n).1, tnt := b.tnt || tnt },
      ((List.range 16).map fun n => (r n).2).foldl Flags.or Flags.none) := by
  intro r
  refine Prod.ext (congrArg (Bank.mk · _ _ _) (Vector.ext fun i hi => ?_)) ?_
  all_goals simp only [sclBank, r, Claims.scaled, field_low_word, BitVec.ofNat_toNat, BitVec.setWidth_eq, BitVec.ofInt_mul,
    BitVec.ofInt_toInt, List.map_map]
  · rw [Vector.getElem_map, Vector.getElem_range, Vector.getElem_ofFn, List.getElem?_map, List.getElem?_range hi]
    rfl
  · rfl

/-- R111, R112: the element that a bank operation names. -/
theorem elementIndex_eq (b : W64) : 4 * field b 2 2 + field b 0 2 = b.toNat % 16 := by
  rw [toNat_field, toNat_field_zero]; omega

/-- R112: ACC.PATCH writes or adds one element. -/
theorem patchBank_eq (a b : W64) (tnt : Bool) (k : Bank) :
    let n := b.toNat % 16
    let r := Claims.patched (b.getLsbD 4) k.int (at' k.c n 0#32) (a.extractLsb' 0 32)
    patchBank a b tnt k = ({ k with c := upd k.c n r.1, tnt := k.tnt || tnt }, r.2) := by
  simp only [patchBank, Bank.at, Bank.set, elementIndex_eq, Claims.patched]
  cases b.getLsbD 4
  · rfl
  · simp only [Bool.not_true, Bool.false_eq_true, if_false, BitVec.ofInt_add, BitVec.ofInt_toInt]
    cases k.int <;> rfl

theorem bankOperations : Claims.BankOperations :=
  ⟨bankOp_becomes rfl rfl (by decide) (fun _ _ => rfl) _ fun _ _ => rfl,
    bankOp_becomes rfl rfl (by decide) (fun _ _ => rfl) _ fun _ _ => rfl,
    bankOp_becomes rfl rfl (by decide) (fun _ _ => rfl) _ fun _ _ => rfl,
    bankOp_becomes rfl rfl (by decide) (fun _ _ => rfl) _ fun l b => patchBank_eq _ _ l.i.tnt b,
    bankOp_becomes rfl rfl (by decide) (fun _ _ => rfl) _ fun l b => sclBank_eq _ l.i.tnt b⟩

/-! ### Sends on several ports (R16, R18) -/

/-- The tokens of a row, each sent on its port (R110). -/
def CoreCtx.sendAll (c : CoreCtx) (pos run : Nat) (ts : List (Nat × Token)) : CoreCtx :=
  ts.foldl (fun c x => c.send pos x.1 run false x.2) c

theorem CoreCtx.grown_sendAll (c : CoreCtx) (pos run : Nat) (ts : List (Nat × Token)) : c.Grown (c.sendAll pos run ts) :=
  CoreCtx.grown_foldl _ (fun c _ => c.grown_send _ _ _ _ _) _ _

/-- R16: tokens for different ports are on their way to the receivers that the ports have. -/
theorem CoreCtx.flights_sendAll (pos run : Nat) (ts : List (Nat × Token)) (nodup : (ts.map Prod.fst).Nodup) (c : CoreCtx) :
    (c.sendAll pos run ts).flights = c.flights ++ Claims.rowSent run (c.groupOf run) (c.elemD pos) ts := by
  induction ts generalizing c with
  | nil => exact (List.append_nil _).symm
  | cons x xs ih =>
    obtain ⟨hx, hxs⟩ := List.nodup_cons.1 nodup
    have others : Claims.rowSent run (c.groupOf run) ((c.send pos x.1 run false x.2).elemD pos) xs =
        Claims.rowSent run (c.groupOf run) (c.elemD pos) xs := by
      refine List.flatMap_congr fun y hy => ?_
      have differ : x.1 ≠ y.1 := fun h => hx (h ▸ List.mem_map_of_mem hy)
      rw [CoreCtx.elemD_send, Elem.port_setPort_other _ _ _ _ differ]
    calc ((c.send pos x.1 run false x.2).sendAll pos run xs).flights
      _ = (c.send pos x.1 run false x.2).flights ++ Claims.rowSent run (c.groupOf run) ((c.send pos x.1 run false x.2).elemD pos) xs := by
        rw [ih hxs, (c.grown_send _ _ _ _ _).groupOf]
      _ = c.flights ++ Claims.sent run (c.groupOf run) ((c.elemD pos).port x.1).recvs x.2 ++
          Claims.rowSent run (c.groupOf run) (c.elemD pos) xs := by rw [others]; rfl
      _ = _ := List.append_assoc _ _ _

/-! ### One row of a drain (R110) -/

/-- R110: the tokens of a row. -/
theorem drainToks_eq (d : Drain) (b : Bank) : (drainToks d b).1 = Claims.rowTokens d b := by
  unfold drainToks Claims.rowTokens
  cases d.bf16
  · simp only [Bool.false_eq_true, if_false, ofLanes_two, BitVec.ofNat_toNat, BitVec.setWidth_eq]
    rfl
  · simp only [if_true, show List.range 4 = [0, 1, 2, 3] from rfl, List.map_cons, List.map_nil, ofLanes_four]
    rfl

theorem nodup_ports_rowTokens (d : Drain) (b : Bank) : ((Claims.rowTokens d b).map Prod.fst).Nodup := by
  unfold Claims.rowTokens
  cases d.bf16 <;> simp

theorem portsFree_iff (e : Elem) (ts : List (Nat × Token)) : (ts.all fun x => (e.port x.1).writable) = true ↔ Claims.PortsFree e ts := by
  simp only [List.all_eq_true, Port.writable_iff, Claims.PortsFree]

/-- R110: the ME of which drain `d` has sent its next row; after row 3 its bank stays busy for `busy` cycles. -/
def ME.sentRow (m : ME) (d : Drain) (bank busy : Nat) : ME :=
  if d.row = 3 then { m with drains := m.drains.filter fun x => x.bank != bank, busy := upd m.busy bank busy }
  else { m with drains := m.drains.map fun x => if x.bank = bank then { x with row := x.row + 1 } else x }

theorem ME.banks_sentRow (m : ME) (d : Drain) (bank busy : Nat) : (m.sentRow d bank busy).banks = m.banks := by
  unfold ME.sentRow; split <;> rfl

/-- R110: after row 3 a drain ends. -/
theorem ME.drains_sentRow_last (m : ME) (d : Drain) (bank busy : Nat) (h : d.row = 3) :
    (m.sentRow d bank busy).drains = m.drains.filter fun x => x.bank != bank := by rw [ME.sentRow, if_pos h]

/-- R110: before, it goes on with the next row. -/
theorem ME.drains_sentRow_next (m : ME) (d : Drain) (bank busy : Nat) (h : d.row ≠ 3) :
    (m.sentRow d bank busy).drains = m.drains.map fun x => if x.bank = bank then { x with row := x.row + 1 } else x := by
  rw [ME.sentRow, if_neg h]

section
variable {c : CoreCtx} {pos bank : Nat} {d : Drain} (found : (c.me pos).drains.find? (fun x => x.bank == bank) = some d)
include found

/-- R110: a drain as the model sends its row. -/
theorem CoreCtx.drainRow_eq (run : Nat) : ∃ fl, c.drainRow pos bank run =
    if ((Claims.rowTokens d ((c.me pos).bank bank)).all fun x => ((c.elemD pos).port x.1).writable) = true then
      ((c.sendAll pos run (Claims.rowTokens d ((c.me pos).bank bank))).modElem pos fun e => e.landFlags fl).modMe pos fun m =>
        m.sentRow d bank (c.cyclesOf pos 1)
    else c := by
  refine ⟨(drainToks d ((c.me pos).bank bank)).2, ?_⟩
  have cycles := (c.grown_sendAll pos run (Claims.rowTokens d ((c.me pos).bank bank))).cyclesOf pos 1
  rw [← drainToks_eq] at cycles ⊢
  rw [← cycles]
  unfold CoreCtx.drainRow
  simp only [found]
  rfl

/-- R110: a row whose ports are free is sent, and its drain goes on or ends. -/
theorem CoreCtx.drainRow_free (run : Nat) (free : Claims.PortsFree (c.elemD pos) (Claims.rowTokens d ((c.me pos).bank bank))) :
    (c.drainRow pos bank run).flights =
      c.flights ++ Claims.rowSent run (c.groupOf run) (c.elemD pos) (Claims.rowTokens d ((c.me pos).bank bank)) ∧
    (c.drainRow pos bank run).me pos = (c.me pos).sentRow d bank (c.cyclesOf pos 1) := by
  obtain ⟨fl, row⟩ := CoreCtx.drainRow_eq found run
  rw [row, if_pos ((portsFree_iff _ _).2 free)]
  refine ⟨CoreCtx.flights_sendAll pos run _ (nodup_ports_rowTokens _ _) c, (CoreCtx.me_modMe_same _ _ _).trans ?_⟩
  exact congrArg (ME.sentRow · _ _ _) ((c.grown_sendAll pos run _).me pos)

/-- R110: a row of which a port is not free waits. -/
theorem CoreCtx.drainRow_blocked (run : Nat) (blocked : ¬ Claims.PortsFree (c.elemD pos) (Claims.rowTokens d ((c.me pos).bank bank))) :
    c.drainRow pos bank run = c := by
  obtain ⟨fl, row⟩ := CoreCtx.drainRow_eq found run
  rw [row, if_neg (mt (portsFree_iff _ _).1 blocked)]

end

/-- R110, R368: a row of a drain changes its core by that and counts. -/
theorem State.drainRow_core (s : State) (k : Key) (pos bank run : Nat) (c : CoreCtx) (h : s.core? k = some c) :
    ∃ v, (s.drainRow k pos bank run).core? k = some { c.drainRow pos bank run with evc := v } := by
  rw [State.drainRow]
  simp only [h]
  exact ⟨_, State.count_core _ _ _ _ _ (State.core?_modCore_of _ h)⟩

/-! ### ACC.DRN (R110) -/

/-- R24: a slot without sources takes nothing. -/
theorem takeOperands_of_noSources (o : Op) (sh : Shape) (f : Fields) (pos : Nat) (c : CoreCtx) (ha : sh.srcA = false)
    (hb : sh.srcB = false) : takeOperands o sh f pos c = c := by
  simp [takeOperands, dqQueues, dqRegs, ha, hb]

/-- R21: a slot that fires has what its operation waits for. -/
theorem ready_of_slotStatus (o : Op) (f : Fields) (s : State) (c : CoreCtx) (e : Elem) (sh : Shape) (hat : Claims.At s c e)
    (hsh : shapeOf o.opc = some sh) (ready : slotStatus o f s s.site = .ready) : o.ready (lookAt o f s s.site c e) = true := by
  have rest : restReady o (lookAt o f s s.site c e) = true := by
    rw [slotStatus_eq o f s s.site c e sh hat.core hsh hat.elem] at ready
    by_contra h
    simp only [Bool.not_eq_true] at h
    simp only [h, Bool.and_false, Bool.not_false, Bool.or_true, Bool.false_eq_true, if_false, if_true] at ready
    split at ready
    · cases ready
    · split at ready
      · cases ready
      · split at ready <;> cases ready
  simp only [restReady, Bool.and_eq_true] at rest
  exact rest.1.1

/-- R106: a free bank has no drain. -/
theorem drains_of_bankFree (l : Look) (free : bankFree l = true) : ∀ x ∈ (l.c.me l.t.pos).drains, x.bank ≠ l.f.dst.toNat := by
  simp only [bankFree, ME.bankBusy, Bool.and_eq_true, Bool.not_eq_true', Bool.or_eq_false_iff, List.any_eq_false, beq_iff_eq] at free
  exact free.1.2

/-- The core in which ACC.DRN has begun its drain, before its first row (R110). -/
def CoreCtx.beginDrain (c : CoreCtx) (pos : Nat) (d : Drain) : CoreCtx := c.modMe pos fun m => { m with drains := m.drains ++ [d] }

theorem me_beginDrain (c : CoreCtx) (pos : Nat) (d : Drain) :
    (c.beginDrain pos d).me pos = { c.me pos with drains := (c.me pos).drains ++ [d] } := CoreCtx.me_modMe_same _ _ _

/-- R110: the only drain of its bank is the one just begun. -/
theorem find_append_drain (ds : List Drain) (d : Drain) (idle : ∀ x ∈ ds, x.bank ≠ d.bank) :
    (ds ++ [d]).find? (fun x => x.bank == d.bank) = some d := by
  rw [List.find?_append, List.find?_eq_none.2 fun x hx => by simpa using idle x hx]
  simp

theorem map_append_drain (ds : List Drain) (d : Drain) (idle : ∀ x ∈ ds, x.bank ≠ d.bank) :
    ((ds ++ [d]).map fun x => if x.bank = d.bank then { x with row := x.row + 1 } else x) = ds ++ [{ d with row := d.row + 1 }] := by
  have kept : (ds.map fun x => if x.bank = d.bank then { x with row := x.row + 1 } else x) = ds :=
    (List.map_congr_left fun x hx => if_neg (idle x hx)).trans (List.map_id' ds)
  rw [List.map_append, kept, List.map_singleton, if_pos rfl]

/-- The operands of ACC.DRN: its bank, its ports and its form, none of them a source (Table 6.5). -/
def drainShape : Shape := ⟨.bank, .drainPort, .drainForm, false⟩

/-- The drain that a slot of ACC.DRN begins (R110). -/
def drainOf (f : Fields) : Drain := ⟨f.dst.toNat, 0, f.sa.toNat - 24, f.sb.toNat == 21⟩

/-- The core that ACC.DRN at element `pos` leaves to its first row (R110). -/
def CoreCtx.drainBegun (c : CoreCtx) (pos : Nat) (f : Fields) : CoreCtx :=
  (c.modElem pos fun e => e.setFlags Flags.none).beginDrain pos (drainOf f)

theorem elemD_drainBegun (c : CoreCtx) (pos : Nat) (f : Fields) : (c.drainBegun pos f).elemD pos = (c.elemD pos).setFlags Flags.none :=
  c.elemD_modElem_same pos fun e => e.setFlags Flags.none

theorem me_drainBegun (c : CoreCtx) (pos : Nat) (f : Fields) :
    (c.drainBegun pos f).me pos = { c.me pos with drains := (c.me pos).drains ++ [drainOf f] } :=
  me_beginDrain (c.modElem pos fun e => e.setFlags Flags.none) pos (drainOf f)

/-- R110: ACC.DRN takes no operand, begins its drain, and has row 0 sent. -/
theorem accDrn_core (f : Fields) (s : State) (c : CoreCtx) (e : Elem) (hat : Claims.At s c e) :
    ∃ v, (effectState accDrnOp drainShape (lookAt accDrnOp f s s.site c e)).core? s.key =
      some { (c.drainBegun s.here.pos f).drainRow s.here.pos (drainOf f).bank e.runId with evc := v } := by
  have delivered : deliveredCore accDrnOp drainShape (lookAt accDrnOp f s s.site c e) c =
      c.modElem s.here.pos fun e => e.setFlags Flags.none := by
    rw [deliveredCore, takeOperands_of_noSources _ _ _ _ _ rfl rfl]
    exact deliver_of_atOnce accDrnOp drainShape (lookAt accDrnOp f s s.site c e) _ c rfl rfl
  have operands := core_operandState accDrnOp drainShape f s c e hat
  rw [delivered] at operands
  exact State.drainRow_core _ _ _ _ _ _ (State.core?_modCore_of (·.beginDrain s.here.pos (drainOf f)) operands)

theorem drainsSendTheirRows : Claims.DrainsSendTheirRows := by
  refine ⟨?begin, ?next⟩
  case begin =>
    intro f s c e hat _ _ _ ready d ts
    have idle := drains_of_bankFree _ (ready_of_slotStatus accDrnOp f s c e drainShape hat rfl ready)
    obtain ⟨v, effect⟩ := accDrn_core f s c e hat
    obtain ⟨t, c', exec, core, done⟩ :=
      fires_finished (sh := drainShape) rfl .accDrn (fun _ _ => rfl) f s c e hat (.inl rfl) ready _ effect
    replace done := done.of_evc
    have here : (c.drainBegun s.here.pos f).elemD s.here.pos = e.setFlags Flags.none := by
      rw [elemD_drainBegun, c.elemD_of _ e hat.elem]
    have me := me_drainBegun c s.here.pos f
    have row : Claims.rowTokens d (((c.drainBegun s.here.pos f).me s.here.pos).bank d.bank) = ts := by rw [me]; rfl
    have found : ((c.drainBegun s.here.pos f).me s.here.pos).drains.find? (fun x => x.bank == d.bank) = some d := by
      rw [me]; exact find_append_drain _ d idle
    refine ⟨t, c', exec, core, fun free => ?_, fun blocked => ?_⟩
    · obtain ⟨flights, sent⟩ := CoreCtx.drainRow_free found e.runId (by rw [here, row]; exact free)
      rw [here, row] at flights
      refine ⟨done.flights.trans flights, (congrArg ME.drains ((done.me _).trans sent)).trans ?_⟩
      rw [ME.drains_sentRow_next _ d _ _ (show 0 ≠ 3 by decide), me]
      exact map_append_drain _ d idle
    · have waits := CoreCtx.drainRow_blocked found e.runId (by rw [here, row]; exact blocked)
      rw [show (drainOf f).bank = d.bank from rfl, waits] at done
      exact ⟨done.flights, congrArg ME.drains ((done.me _).trans me)⟩
  case next =>
    intro s c e d hat found _ ts free
    have here : c.elemD s.here.pos = e := c.elemD_of _ e hat.elem
    have bank : d.bank = s.here.idx := by simpa using List.find?_some found
    rw [← bank] at found
    have ran : exec .accDrnRowSend s = .next (s.drainRow s.key s.here.pos d.bank e.runId) := by
      rw [show exec .accDrnRowSend s = execAccDrnRowSend s from rfl, execAccDrnRowSend, State.onCore_of s c _ hat.core, bank, here]
    obtain ⟨v, core⟩ := s.drainRow_core s.key s.here.pos d.bank e.runId c hat.core
    obtain ⟨flights, sent⟩ := CoreCtx.drainRow_free found e.runId (by rw [here]; exact free)
    rw [here] at flights
    replace sent : (CoreCtx.me { c.drainRow s.here.pos d.bank e.runId with evc := v } s.here.pos) = _ := sent
    refine ⟨_, _, ran, core, flights, fun last x hx => ?_, fun more => ?_, ?_⟩
    · rw [sent, ME.drains_sentRow_last _ _ _ _ last, List.mem_filter, bne_iff_ne] at hx
      exact hx.2
    · rw [sent, ME.drains_sentRow_next _ _ _ _ more]
      exact List.mem_map.2 ⟨d, List.mem_of_find?_eq_some found, if_pos rfl⟩
    · rw [sent, ME.banks_sentRow]

/-! ### ACC.RD and BHOLD (R101, R111) -/

/-- R111: the token that ACC.RD sends. -/
theorem readToken_eq (l : Look) :
    let b := (l.c.me l.t.pos).bank l.f.dst.toNat
    let x := at' b.c (l.i.b.data.toNat % 16) 0#32
    (⟨(readToken l).data, (readToken l).fmt, .data, (readToken l).tnt⟩ : Token) =
      ⟨if b.int then x.signExtend 64 else x.zeroExtend 64, if b.int then .i64 else .f32x2, .data, b.tnt || Claims.taint l.i⟩ := by
  simp only [readToken, Bank.at, elementIndex_eq]
  split <;> rfl

/-- The effect of ACC.RD on its core (R111; Table 6.5). -/
def Look.sendElement (l : Look) (c : CoreCtx) : CoreCtx :=
  let r := readToken l
  (c.modMe l.t.pos fun m => { m with busy := upd m.busy l.f.dst.toNat (c.cyclesOf l.t.pos 1) }).send l.t.pos (l.f.sa.toNat - 24)
    l.e.runId false ⟨r.data, r.fmt, .data, r.tnt⟩

theorem banks_sendElement (l : Look) (c : CoreCtx) : ((l.sendElement c).me l.t.pos).banks = (c.me l.t.pos).banks := by
  rw [Look.sendElement, (CoreCtx.grown_send _ _ _ _ _ _).me, CoreCtx.me_modMe_same]

/-- R111: ACC.RD sends its token to the receivers of its port, after the credits of its operands. -/
theorem flights_sendElement (f : Fields) (s : State) (c : CoreCtx) (e : Elem) (hat : Claims.At s c e) (sh : Shape)
    (noResult : (sh.d == .result || sh.d == .accum) = false) :
    let l := lookAt accRdOp f s s.site c e
    ∃ back, Claims.OnlyCredits back ∧ (l.sendElement (deliveredCore accRdOp sh l c)).flights = c.flights ++ back ++
      Claims.sent e.runId (c.groupOf e.runId) (e.port (f.sa.toNat - 24)).recvs
        ⟨(readToken l).data, (readToken l).fmt, .data, (readToken l).tnt⟩ := by
  intro l
  let ct := takeOperands accRdOp sh (s.site.takes f) s.here.pos c
  have delivered : deliveredCore accRdOp sh l c = ct.modElem s.here.pos fun e => e.setFlags (readToken l).flags :=
    deliver_of_atOnce accRdOp sh l _ ct noResult rfl
  obtain ⟨back, hback, flights⟩ := takeOperands_onlyCredits accRdOp sh (s.site.takes f) s.here.pos c
  obtain ⟨qs, rs, shape⟩ := takeOperands_shape accRdOp sh (s.site.takes f) s.here.pos c
  have group : ct.groupOf e.runId = c.groupOf e.runId := (takeOperands_grown accRdOp sh _ _ c).groupOf _
  have elem := ct.elemD_modElem_same s.here.pos fun e => e.setFlags (readToken l).flags
  rw [show ct.elemD s.here.pos = _ from shape, c.elemD_of _ e hat.elem] at elem
  refine ⟨back, hback, ?_⟩
  rw [delivered]
  show ct.flights ++ Claims.sent e.runId (ct.groupOf e.runId)
    (((ct.modElem s.here.pos fun e => e.setFlags (readToken l).flags).elemD s.here.pos).port (f.sa.toNat - 24)).recvs _ = _
  rw [elem, group, show ct.flights = _ from flights]
  rfl

theorem bankReadAndHold : Claims.BankReadAndHold := by
  refine ⟨?read, ?hold⟩
  case read =>
    intro f s c e hat hme _ _ ready i b x tok
    have notLe : kindAt s.here.pos ≠ .le := by rw [hme]; decide
    let sh : Shape := ⟨.bank, .port, .source, false⟩
    let l := lookAt accRdOp f s s.site c e
    obtain ⟨back, hback, flights⟩ := flights_sendElement f s c e hat sh rfl
    obtain ⟨t, c', exec, core, done⟩ := fires_finished (sh := sh) rfl .accRd (fun _ _ => rfl) f s c e hat (.inl rfl) ready _
      (State.count_core _ s.key 23 1 _ (State.core?_modCore_of l.sendElement (core_operandState accRdOp sh f s c e hat)))
    have banks := (banks_sendElement l _).trans (congrArg ME.banks ((deliveredCore_grown_of_ne_le accRdOp sh l c notLe).me s.here.pos))
    rw [readToken_eq] at flights
    exact ⟨t, c', back, exec, core, hback, done.of_evc.flights.trans flights,
      (congrArg ME.banks (done.of_evc.me _)).trans banks⟩
  case hold =>
    intro f s c e hat hme ready
    have notLe : kindAt s.here.pos ≠ .le := by rw [hme]; decide
    let sh : Shape := ⟨.zero, .source, .none, false⟩
    let l := lookAt bholdOp f s s.site c e
    have me := (deliveredCore_grown_of_ne_le bholdOp sh l c notLe).me
    have ph : field l.i.a.data 0 16 = (Claims.operands 0xAF f s c e).a.data.toNat % 65536 := toNat_field_zero _ _
    obtain ⟨t, c', exec, core, done⟩ := fires_finished (sh := sh) rfl .bhold (fun _ _ => rfl) f s c e hat (.inl rfl) ready _
      (State.core?_modCore_of (fun c => c.modMe s.here.pos fun m => { m with ph := field l.i.a.data 0 16 })
        (core_operandState bholdOp sh f s c e hat))
    refine ⟨t, c', exec, core, (done.me _).trans ?_, fun p hp => (done.me p).trans ?_⟩
    · rw [CoreCtx.me_modMe_same, ph, show (deliveredCore bholdOp sh (lookAt bholdOp f s s.site c e) c).me s.here.pos = _ from me _]
    · exact (CoreCtx.me_modMe_other _ _ _ _ hp.symm).trans (me p)

/-- Settles O21: the operations that write a bank, those that read it, and its drains. -/
theorem accumulatorBanksAreManaged : Obligations.AccumulatorBanksAreManaged := ⟨bankOperations, bankReadAndHold, drainsSendTheirRows⟩

end Sys2Proof.Machine
end

