-- ==== Sys2Proof/Proofs/ScratchpadWord.lean ====
section
/-! PROOF. O1: the word of the example of R118. -/

namespace Sys2Proof

/-- Settles O1: the word of R118's example has the fields of the rule, decodes to the step
that they make, and is the step's word. -/
theorem theWordOfR118 : Obligations.TheWordOfR118 :=
  ⟨by decide, by decide, by decide, by decide, by decide, by decide, by decide, by decide, by decide,
    decodeSlot_toWord (c := 0xB5#8) ⟨0#8, 0#8, 1#2, 1#3, 0#2, 0#3, 4#5, 13#5, 16#5,
      true, false, 1#3, 2#3, 0#2, 0#3, false⟩ rfl,
    encode_of_opcodeMap (c := 0xB5#8) rfl _⟩

end Sys2Proof
end

