-- ==== Sys2Proof/Proofs/OwnStateFires.lean ====
section
/-! PROOF. Fires of the elements that keep a state of their own, the SE's bank and the CE's registers (R113, R122): what such a fire
leaves of that state and of its element, and the result that it has in flight (R19, R25, R227). -/

namespace Sys2Proof.Machine

theorem CoreCtx.Grown.se {c c' : CoreCtx} (h : c.Grown c') (p : Nat) : c'.se p = c.se p := by
  obtain ⟨es, fl, rfl⟩ := h; rfl

theorem CoreCtx.Grown.ce {c c' : CoreCtx} (h : c.Grown c') (p : Nat) : c'.ce p = c.ce p := by
  obtain ⟨es, fl, rfl⟩ := h; rfl

theorem CoreCtx.se_modSe_same (c : CoreCtx) (p : Nat) (g : SE → SE) : (c.modSe p g).se p = g (c.se p) := by
  simp [CoreCtx.se, CoreCtx.modSe, Assoc.get?_put_same]

theorem CoreCtx.ce_modCe_same (c : CoreCtx) (p : Nat) (g : CE → CE) : (c.modCe p g).ce p = g (c.ce p) := by
  simp [CoreCtx.ce, CoreCtx.modCe, Assoc.get?_put_same]

/-! ### Results that come later, whatever the further effects (R19, R25, R227) -/

/-- A result in flight is said of what is in flight, and of the flags, registers and ports of its element. -/
theorem landsLater_of_same {lat pos : Nat} {f : Fields} {c c₁ c' : CoreCtx} {e : Elem} {i : Ins} {r : Res}
    (h : Claims.LandsLater lat f pos c e i r c₁) (elem : ∃ ps, c'.elemD pos = { c₁.elemD pos with preds := ps })
    (flights : c'.flights = c₁.flights) : Claims.LandsLater lat f pos c e i r c' := by
  obtain ⟨ps, elem⟩ := elem
  obtain ⟨flags, reg, port, sent⟩ := h
  exact ⟨(congrArg Elem.flags elem).trans flags, fun hd => by rw [elem]; exact reg hd, fun hd => by rw [elem]; exact port hd,
    by rw [flights]; exact sent⟩

/-- R19, R24, R25: a result that comes later is in flight once the fire has delivered it. -/
theorem landsLater_deliveredCore (o : Op) (sh : Shape) (f : Fields) (s : State) (c : CoreCtx) (e : Elem) (hat : Claims.At s c e)
    (notMe : kindAt s.here.pos ≠ .me) (later : o.atOnce (lookAt o f s s.site c e) = false) (h0 : o.delay ≠ 0) (gives : sh.gives = true)
    (mute : o.mute (lookAt o f s s.site c e) = false) :
    Claims.LandsLater o.delay f s.here.pos c e (Claims.operands o.opc f s c e) (o.res (lookAt o f s s.site c e))
      (deliveredCore o sh (lookAt o f s s.site c e) c) := by
  let l := lookAt o f s s.site c e
  obtain ⟨flags, reg, port, back, x, hback, flights, place⟩ := firedCore_later o sh l c (c.elemD_of _ e hat.elem) notMe later h0
    (by simpa [Shape.gives] using gives) mute
  have fired : Claims.LandsLater o.delay f s.here.pos c e (Claims.operands o.opc f s c e) (o.res l) (firedCore o sh l c) :=
    ⟨flags, reg, port, back, x, fun y hy => .inl (hback y hy), flights, place⟩
  obtain ⟨ps, updated⟩ := updatePred_shape o sh l (o.res l) (deliveredCore o sh l c)
  refine landsLater_of_same fired ⟨((deliveredCore o sh l c).elemD s.here.pos).preds, ?_⟩ (updatePred_flights o sh l _ _).symm
  rw [show (firedCore o sh l c).elemD s.here.pos = _ from updated]
  rfl

/-! ### Fires that change the element's own state -/

/-- Of core `c`, on which a fire has delivered its result, its further effects have made `c'`: `x` of the element's own state, `h` of
the element but for its predicates, and nothing of what is in flight. -/
structure Made {α : Type} (own : CoreCtx → Nat → α) (pos : Nat) (x : α) (h : Elem → Elem) (c c' : CoreCtx) : Prop where
  own : own c' pos = x
  elem : ∃ ps, c'.elemD pos = { h (c.elemD pos) with preds := ps }
  flights : c'.flights = c.flights

/-- The further effects of the fire `l` make `x` of the element's own state and `h` of the element. -/
def Look.Makes {α : Type} (l : Look) (o : Op) (own : CoreCtx → Nat → α) (x : α) (h : Elem → Elem) : Prop :=
  ∀ s c, l.c.Grown c → s.core? l.t.k = some c → ∃ c', (o.effect l s).core? l.t.k = some c' ∧ Made own l.t.pos x h c c'

/-- Further effects that are one change of the core. -/
theorem Look.makes_of_core {α : Type} {l : Look} {o : Op} {own : CoreCtx → Nat → α} {x : α} {h : Elem → Elem} (g : CoreCtx → CoreCtx)
    (effect : ∀ s, o.effect l s = s.modCore l.t.k g) (made : ∀ c, l.c.Grown c → Made own l.t.pos x h c (g c)) : l.Makes o own x h :=
  fun s c grown core => ⟨g c, by rw [effect]; exact State.core?_modCore_of g core, made c grown⟩

theorem Look.makes_of_none {α : Type} {l : Look} {o : Op} {own : CoreCtx → Nat → α} (effect : ∀ s, o.effect l s = s)
    (kept : ∀ c, l.c.Grown c → own c l.t.pos = own l.c l.t.pos) : l.Makes o own (own l.c l.t.pos) id :=
  fun s c grown core => ⟨c, by rw [effect]; exact core, kept c grown, ⟨_, rfl⟩, rfl⟩

section
variable {α : Type} {own : CoreCtx → Nat → α} (kept : ∀ (c : CoreCtx) es v rs p, own { c with elems := es, evc := v, runs := rs } p = own c p)
  {o : Op} {sh : Shape} (hsh : shapeOf o.opc = some sh) {mk : Fields → Instr} (runs : RunsOp (mk, o)) {f : Fields} {s : State} {c : CoreCtx}
  {e : Elem} (hat : Claims.At s c e) (room : Claims.HasRoom o f s c e) (ready : slotStatus o f s s.site = .ready) {x : α} {h : Elem → Elem}
include kept hsh runs hat room ready

/-- R24: a ready slot fires, and its predicate and its counters leave what its further effects have made. -/
theorem fires_making (notLe : kindAt s.here.pos ≠ .le) (makes : (lookAt o f s s.site c e).Makes o own x h) :
    ∃ t c', exec (mk f) s = .next t ∧ t.core? s.key = some c' ∧
      Made own s.here.pos x h (deliveredCore o sh (lookAt o f s s.site c e) c) c' := by
  let l := lookAt o f s s.site c e
  obtain ⟨c₁, effect, made, ⟨ps, elem⟩, flights⟩ := makes (operandState o sh l) (deliveredCore o sh l c)
    (deliveredCore_grown_of_ne_le o sh l c notLe) (core_operandState o sh f s c e hat)
  obtain ⟨v, core⟩ := fireSlot_core_of (sh := sh) (spilled_of_hasRoom o f s c e room) c₁ effect
  obtain ⟨es, updated⟩ := updatePred_only o sh l (o.res l) c₁
  obtain ⟨ps', shape⟩ := updatePred_shape o sh l (o.res l) c₁
  refine ⟨_, _, (runs f s).trans (runOp_ready o f s c e sh hsh hat.core hat.elem ready), core, ?_, ⟨ps', ?_⟩, ?_⟩
  · rw [show updatePred o sh (lookAt o f s s.site c e) (o.res (lookAt o f s s.site c e)) c₁ = _ from updated]
    exact (kept c₁ es v _ _).trans made
  · refine (show CoreCtx.elemD _ s.here.pos = (updatePred o sh l (o.res l) c₁).elemD s.here.pos from rfl).trans (shape.trans ?_)
    rw [show c₁.elemD l.t.pos = _ from elem]
    rfl
  · exact (updatePred_flights o sh l (o.res l) c₁).trans flights

/-- R19, R25: such a fire whose effects leave the element alone, with its result in flight. -/
theorem fires_later (notLe : kindAt s.here.pos ≠ .le) (notMe : kindAt s.here.pos ≠ .me) (makes : (lookAt o f s s.site c e).Makes o own x id)
    (later : o.atOnce (lookAt o f s s.site c e) = false) (h0 : o.delay ≠ 0) (gives : sh.gives = true)
    (mute : o.mute (lookAt o f s s.site c e) = false) :
    ∃ t c', exec (mk f) s = .next t ∧ t.core? s.key = some c' ∧
      Claims.LandsLater o.delay f s.here.pos c e (Claims.operands o.opc f s c e) (o.res (lookAt o f s s.site c e)) c' ∧
      own c' s.here.pos = x := by
  obtain ⟨t, c', exec, core, made, elem, flights⟩ := fires_making kept hsh runs hat room ready notLe makes
  exact ⟨t, c', exec, core, landsLater_of_same
    (landsLater_deliveredCore o sh f s c e hat notMe later h0 gives mute) elem flights, made⟩

end

end Sys2Proof.Machine
end

