-- ==== Sys2Proof/Proofs/ScratchpadSlots.lean ====
section
/-! PROOF. O22 and O23, the slots of an SE: loads, stores, atomics, generators, owner bits, fills and bursts (R113 to R121). -/

namespace Sys2Proof.Machine

/-! ### Words and generators (R113, R114, R119) -/

theorem Assoc.get?_del {κ α : Type} [DecidableEq κ] (l : Assoc κ α) (k k' : κ) :
    (l.del k).get? k' = if k' = k then none else l.get? k' := by
  induction l with
  | nil => simp [Assoc.del, Assoc.get?]
  | cons x t ih =>
    obtain ⟨a, v⟩ := x
    have cons : Assoc.del ((a, v) :: t) k = if a = k then Assoc.del t k else (a, v) :: Assoc.del t k := by
      by_cases h : a = k <;> simp [Assoc.del, h]
    rw [cons]
    by_cases h : a = k
    · rw [if_pos h, ih]
      by_cases h' : k' = k
      · simp [h']
      · simp [Assoc.get?, h', show a ≠ k' from fun e => h' (e.symm.trans h)]
    · rw [if_neg h, Assoc.get?, ih, Assoc.get?]
      by_cases h' : a = k'
      · simp [h', show k' ≠ k from fun e => h (h'.trans e)]
      · simp [h']

/-- R114: a word once one of the bank is written. -/
theorem SE.word_setWord (b : SE) (a : Nat) (v : W64 × Fmt) (n : Nat) : (b.setWord a v).word n = if n = a then v else b.word n := by
  unfold SE.setWord SE.word
  by_cases zero : v = (0#64, .raw)
  · simp only [zero, if_true, Assoc.get?_del]
    split <;> rfl
  · simp only [zero, if_false]
    split
    · next h => rw [h, Assoc.get?_put_same]; rfl
    · next h => rw [Assoc.get?_put_other _ _ _ _ (Ne.symm h)]

/-- An SE of which words of the bank have been written, one after another. -/
def SE.setWords (b : SE) (ws : List (Nat × (W64 × Fmt))) : SE := ws.foldl (fun b w => b.setWord w.1 w.2) b

/-- R121: words that are all written alike. -/
theorem SE.word_setWords (b : SE) (as : List Nat) (v : W64 × Fmt) (n : Nat) :
    (b.setWords (as.map fun a => (a, v))).word n = if n ∈ as then v else b.word n := by
  induction as generalizing b with
  | nil => rfl
  | cons a as ih =>
    show ((b.setWord a v).setWords (as.map fun a => (a, v))).word n = _
    rw [ih, SE.word_setWord]
    by_cases rest : n ∈ as <;> by_cases here : n = a <;> simp [rest, here]

theorem SE.gens_setWords (b : SE) (ws : List (Nat × (W64 × Fmt))) : (b.setWords ws).gens = b.gens := by
  induction ws generalizing b with
  | nil => rfl
  | cons w ws ih => exact (ih (b.setWord w.1 w.2)).trans rfl

theorem SE.gen_setGen_same (b : SE) (g : Nat) (x : SGen) (h : g < 4) : (b.setGen g x).gen g = x := at_upd_same _ _ _ _ h

theorem seAddr_eq (a : W64) : seAddr a = Claims.addr a := toNat_field_zero a 11

theorem genOf_eq (l : Look) : genOf l = l.i.a.data.toNat % 4 := toNat_field_zero _ 2

theorem genOf_lt (l : Look) : genOf l < 4 := by rw [genOf_eq]; omega

/-- An SE of which a generator has gone to its next position (R119). -/
def Look.stepped (l : Look) (b : SE) : SE := b.setGen (genOf l) (b.gen (genOf l)).advance

theorem Look.gen_stepped (l : Look) (b : SE) (h : b.gens = l.seOf.gens) :
    let g := l.seOf.gen (l.i.a.data.toNat % 4)
    (l.stepped b).gen (l.i.a.data.toNat % 4) = { g with pos := Claims.genNext g } := by
  have here : b.gen (genOf l) = l.seOf.gen (genOf l) := by rw [SE.gen, SE.gen, h]
  rw [← genOf_eq, Look.stepped, SE.gen_setGen_same _ _ _ (genOf_lt l), here]
  rfl

/-! ### What a slot's further effects make of its SE -/

/-- R167: what taking entries of the commit buffer leaves of its core. -/
theorem buffer_core (k : Key) (run pos : Nat) (ops : List BufOp) (s : State) (c : CoreCtx) (h : s.core? k = some c) :
    ∃ buf filter evc, (s.buffer k run pos ops).core? k = some { c with buf := buf, filter := filter, evc := evc } := by
  rw [State.buffer, State.count_core _ _ _ _ _ (State.core?_modCore_of _ h)]
  exact ⟨_, _, _, rfl⟩

/-- R116: what a write of words leaves of its core: the words, and their undo entries. -/
theorem seWrite_core (l : Look) (ws : List (Nat × (W64 × Fmt))) (s : State) (c : CoreCtx) (h : s.core? l.t.k = some c) :
    ∃ buf filter evc, (seWrite l ws s).core? l.t.k =
      some (CoreCtx.modSe { c with buf := buf, filter := filter, evc := evc } l.t.pos (·.setWords ws)) := by
  obtain ⟨buf, filter, evc, buffered⟩ := buffer_core l.t.k l.e.runId l.t.pos (ws.flatMap fun w => undoWord l w.1) s c h
  exact ⟨buf, filter, evc, State.core?_modCore_of (·.modSe l.t.pos (·.setWords ws)) buffered⟩

/-- Further effects that change the SE alone. -/
theorem Look.makes_modSe {l : Look} {o : Op} (g : SE → SE) (effect : ∀ s, o.effect l s = s.modCore l.t.k fun c => c.modSe l.t.pos g) :
    l.Makes o CoreCtx.se (g l.seOf) id :=
  Look.makes_of_core _ effect fun c grown =>
    ⟨(c.se_modSe_same _ g).trans (congrArg g (grown.se _)), ⟨(c.elemD l.t.pos).preds, rfl⟩, rfl⟩

/-- Further effects that write words, and then change the SE. -/
theorem Look.makes_write {l : Look} {o : Op} (ws : List (Nat × (W64 × Fmt))) (g : SE → SE)
    (effect : ∀ s, o.effect l s = (seWrite l ws s).modCore l.t.k fun c => c.modSe l.t.pos g) :
    l.Makes o CoreCtx.se (g (l.seOf.setWords ws)) id := by
  intro s c grown core
  obtain ⟨buf, filter, evc, written⟩ := seWrite_core l ws s c core
  have changed := State.core?_modCore_of (·.modSe l.t.pos g) written
  rw [← effect] at changed
  refine ⟨_, changed, ?_, ⟨(c.elemD l.t.pos).preds, rfl⟩, rfl⟩
  rw [CoreCtx.se_modSe_same, CoreCtx.se_modSe_same]
  exact congrArg (fun b : SE => g (b.setWords ws)) (grown.se _)

/-- Further effects that write words where `b` holds. -/
theorem Look.makes_write_if {l : Look} {o : Op} (b : Bool) (ws : List (Nat × (W64 × Fmt)))
    (effect : ∀ s, o.effect l s = if b then seWrite l ws s else s) :
    l.Makes o CoreCtx.se (if b then l.seOf.setWords ws else l.seOf) id := by
  cases b with
  | false => exact Look.makes_of_none effect fun c grown => grown.se _
  | true =>
    intro s c grown core
    obtain ⟨buf, filter, evc, written⟩ := seWrite_core l ws s c core
    have changed : (o.effect l s).core? l.t.k = _ := (congrArg (·.core? l.t.k) (effect s)).trans written
    refine ⟨_, changed, ?_, ⟨(c.elemD l.t.pos).preds, rfl⟩, rfl⟩
    rw [CoreCtx.se_modSe_same]
    exact congrArg (fun b : SE => b.setWords ws) (grown.se _)

/-- The words that are changed where `b` holds, and those that are not. -/
theorem wordsBecome_of_bank {pos : Nat} {c c' : CoreCtx} {x : SE} (se : c'.se pos = x) (b : Bool) (as : List Nat) (v : W64 × Fmt)
    (bank : x.bank = (if b then (c.se pos).setWords (as.map fun a => (a, v)) else c.se pos).bank) (changed : Nat → Bool)
    (same : ∀ n < 2048, changed n = (b && decide (n ∈ as))) : Claims.WordsBecome pos changed (fun _ => v) c c' := by
  intro n hn
  rw [SE.word, se, bank, ← SE.word, same n hn]
  cases b with
  | false => rfl
  | true => exact (SE.word_setWords _ as v n).trans (by simp)

/-! ### Slots of an SE -/

section
variable {o : Op} {sh : Shape} (hsh : shapeOf o.opc = some sh) {mk : Fields → Instr} (runs : RunsOp (mk, o))
  {P : Fields → Nat → CoreCtx → Elem → Ins → CoreCtx → Prop} (x : Look → SE)
include hsh runs

/-- R24: a slot of an SE fires, and leaves what its further effects make. -/
theorem scratch_of_makes (h : Look → Elem → Elem) (makes : ∀ l : Look, l.Makes o CoreCtx.se (x l) (h l))
    (post : ∀ (l : Look) c₁ c', Made CoreCtx.se l.t.pos (x l) (h l) c₁ c' → P l.f l.t.pos l.c l.e l.i c') : Claims.Scratch mk o P := by
  intro f s c e hat hse room ready
  obtain ⟨t, c', exec, core, made⟩ := fires_making (own := CoreCtx.se) (fun _ _ _ _ _ => rfl) hsh runs hat room ready (by rw [hse]; decide) (makes _)
  exact ⟨t, c', exec, core, post (lookAt o f s s.site c e) _ c' made⟩

/-- R114: a slot of an SE with a result has it in flight for two cycles. -/
theorem scratch_of_later (delay : o.delay = 2) (now : ∀ l, o.now l = false) (mute : ∀ l, o.mute l = false) (gives : sh.gives = true)
    (makes : ∀ l : Look, l.Makes o CoreCtx.se (x l) id)
    (post : ∀ (l : Look) c', Claims.LandsLater 2 l.f l.t.pos l.c l.e l.i (o.res l) c' → c'.se l.t.pos = x l →
      P l.f l.t.pos l.c l.e l.i c') : Claims.Scratch mk o P := by
  intro f s c e hat hse room ready
  obtain ⟨t, c', exec, core, lands, se⟩ := fires_later (own := CoreCtx.se) (fun _ _ _ _ _ => rfl) hsh runs hat room ready (by rw [hse]; decide)
    (by rw [hse]; decide) (makes _) (by rw [Op.atOnce, delay, now]; rfl) (by rw [delay]; decide) gives (mute _)
  rw [delay] at lands
  exact ⟨t, c', exec, core, post (lookAt o f s s.site c e) c' lands se⟩

end

/-! ### Loads (R114, R117, R119) -/

theorem scratchpadLoads : Claims.ScratchpadLoads := by
  refine ⟨?sld, ?sldg⟩
  case sld =>
    refine scratch_of_later rfl (fun _ _ => rfl) (fun l => l.seOf) rfl (fun _ => rfl) (fun _ => rfl) rfl
      (fun l => Look.makes_of_none (fun _ => rfl) fun c grown => grown.se _) fun l c' lands se => ⟨?_, se⟩
    rw [← seAddr_eq]
    exact lands
  case sldg =>
    refine scratch_of_later rfl (fun _ _ => rfl) (fun l => l.stepped l.seOf) rfl (fun _ => rfl) (fun _ => rfl) rfl
      (fun l => Look.makes_modSe l.stepped fun _ => rfl) fun l c' lands se => ⟨?_, ?_, ?_⟩
    · rw [← genOf_eq]; exact lands
    · rw [se]; exact l.gen_stepped _ rfl
    · rw [se]; rfl

/-! ### Stores and atomics (R116, R117, R119) -/

theorem sstStores_eq (l : Look) : sstStores l = Claims.Stores l.f l.i := by
  simp only [sstStores, Claims.Stores, codeIsQueue, beq_eq_decide]

/-- One word among the changed ones. -/
theorem decide_mem_singleton (n a : Nat) : decide (n ∈ [a]) = (n == a) := by simp [beq_eq_decide]

theorem sst_stores : Claims.Scratch .sst sstOp fun f pos c _ i c' =>
    Claims.WordsBecome pos (fun w => Claims.Stores f i && w == Claims.addr i.a.data) (fun _ => (i.b.data, i.b.fmt)) c c' :=
  scratch_of_makes (sh := ⟨.none, .source, .source, true⟩) rfl (fun _ _ => rfl) _ _ (fun l => Look.makes_write_if (sstStores l) _ fun _ => rfl)
    fun l _ c' made => wordsBecome_of_bank made.own (sstStores l) [seAddr l.i.a.data] _ rfl _ fun n _ => by
      rw [decide_mem_singleton, sstStores_eq, seAddr_eq]

theorem sstg_stores : Claims.Scratch .sstg sstgOp fun _ pos c _ i c' =>
    let g := (c.se pos).gen (i.a.data.toNat % 4)
    Claims.WordsBecome pos (fun w => w == Claims.genWord g) (fun _ => (i.b.data, i.b.fmt)) c c' ∧
    (c'.se pos).gen (i.a.data.toNat % 4) = { g with pos := Claims.genNext g } := by
  refine scratch_of_makes (sh := .ab) rfl (fun _ _ => rfl) _ _ (fun l => Look.makes_write _ l.stepped fun _ => rfl) fun l _ c' made => ⟨?_, ?_⟩
  · refine wordsBecome_of_bank made.own true [(l.seOf.gen (genOf l)).addr] _ rfl _ fun n _ => ?_
    rw [decide_mem_singleton, genOf_eq]
    rfl
  · rw [made.own]; exact l.gen_stepped _ (SE.gens_setWords _ _)

/-- R117: an atomic, whatever it computes. -/
theorem atomic_updates {opc : Nat} {mk : Fields → Instr} (g : W64 → W64 → W64) (hsh : shapeOf opc = some ⟨.result, .source, .source, true⟩)
    (runs : RunsOp (mk, seAtomic opc g)) : Claims.Atomic mk (seAtomic opc g) g := by
  refine scratch_of_later hsh runs _ rfl (fun _ => rfl) (fun _ => rfl) rfl
    (fun l => Look.makes_write_if l.i.guard _ fun _ => rfl) fun l c' lands se => ⟨?_, ?_⟩
  · rw [← seAddr_eq]
    have value : (seAtomic opc g).res l =
        ⟨if l.i.guard then (l.seOf.word (seAddr l.i.a.data)).1 else 0#64, .i64, Claims.taint l.i, Flags.none, none⟩ := by
      show (if l.i.guard = true then _ else _) = _
      split <;> rfl
    exact value ▸ lands
  · rw [← seAddr_eq]
    exact wordsBecome_of_bank se l.i.guard [seAddr l.i.a.data] _ rfl _ fun n _ => by rw [decide_mem_singleton]

/-- R117: SAMAX compares signed words. -/
theorem samax_eq (old b : W64) : (if old.slt b then b else old) = if b.toInt > old.toInt then b else old := by
  simp only [BitVec.slt, decide_eq_true_eq, gt_iff_lt]

/-! ### Fills (R121) -/

theorem mem_fillWords (a : W64) (n : Nat) (h : n < 2048) : n ∈ fillWords a ↔ Claims.filled a n = true := by
  simp only [fillWords, toNat_field, List.mem_map, List.mem_range, Claims.filled, decide_eq_true_eq]
  constructor
  · rintro ⟨i, hi, rfl⟩; omega
  · intro hn; exact ⟨(n + 2048 - a.toNat % 2048) % 2048, by omega, by omega⟩

/-- As many of `n` numbers lie below `k` as there are, or `k`. -/
theorem count_lt (k n : Nat) : Nat.count (· < k) n = min n k := by
  induction n with
  | zero => simp
  | succ n ih => rw [Nat.count_succ, ih]; split <;> omega

/-- Counted round a circle of 256 places from any of them, `k` places are `k`, or all. -/
theorem length_filter_rotated (q k : Nat) (hq : q ≤ 256) :
    ((List.range 256).filter fun g => decide ((g + 256 - q) % 256 < k)).length = min 256 k := by
  let p (x : Nat) : Prop := x % 256 < k
  have from_q : Nat.count p (256 - q + 256) = Nat.count p (256 - q) + Nat.count (fun g => p (256 - q + g)) 256 := Nat.count_add _ _ _
  have from_0 : Nat.count p (256 + (256 - q)) = Nat.count p 256 + Nat.count (fun g => p (256 + g)) (256 - q) := Nat.count_add _ _ _
  have periodic : Nat.count (fun g => p (256 + g)) (256 - q) = Nat.count p (256 - q) := by
    simp only [p, Nat.add_mod_left]
  have first : Nat.count p 256 = Nat.count (· < k) 256 := by
    rw [Nat.count_eq_card_filter_range, Nat.count_eq_card_filter_range]
    exact congrArg Finset.card (Finset.filter_congr fun x hx => by
      simp only [p, Nat.mod_eq_of_lt (Finset.mem_range.1 hx)])
  have all : Nat.count (fun g => p (256 - q + g)) 256 = min 256 k := by
    rw [← count_lt, ← first]; rw [Nat.add_comm] at from_q; omega
  rw [← all, Nat.count, List.countP_eq_length_filter]
  exact congrArg List.length (List.filter_congr fun g _ => by simp only [p]; rw [show 256 - q + g = g + 256 - q by omega])

/-- R121: the groups of eight words that a fill of `n + 1` words from word `b` on touches, counted from its first one. -/
theorem touches_iff (b n g : Nat) (hb : b < 2048) (hg : g < 256) :
    (∃ j < 8, (8 * g + j + 2048 - b) % 2048 < n + 1) ↔ (g + 256 - b / 8) % 256 < (b % 8 + n + 1 + 7) / 8 := by
  obtain ⟨q, r, hq, hr, rfl⟩ : ∃ q r, q < 256 ∧ r < 8 ∧ b = 8 * q + r := ⟨b / 8, b % 8, by omega, by omega, by omega⟩
  rw [show (8 * q + r) / 8 = q by omega, show (8 * q + r) % 8 = r by omega]
  rcases Nat.lt_trichotomy g q with before | rfl | after
  · rw [show (g + 256 - q) % 256 = g + 256 - q by omega]
    exact ⟨fun ⟨j, hj, h⟩ => by omega, fun h => ⟨0, by omega, by omega⟩⟩
  · rw [show (g + 256 - g) % 256 = 0 by omega]
    exact ⟨fun _ => by omega, fun _ => ⟨r, hr, by omega⟩⟩
  · rw [show (g + 256 - q) % 256 = g - q by omega]
    exact ⟨fun ⟨j, hj, h⟩ => by omega, fun h => ⟨0, by omega, by omega⟩⟩

theorem fillGroups_eq (a : W64) : fillGroups a = Claims.touched a := by
  have hb : a.toNat % 2048 < 2048 := by omega
  rw [fillGroups, toNat_field_zero, toNat_field, ← length_filter_rotated (a.toNat % 2048 / 8) _ (by omega), Claims.touched]
  refine congrArg List.length (List.filter_congr fun g hg => ?_)
  have touched := touches_iff _ (a.toNat / 2048 % 2048) g hb (List.mem_range.1 hg)
  rw [Bool.eq_iff_iff, decide_eq_true_iff, List.any_eq_true]
  simp only [List.mem_range, Claims.filled, decide_eq_true_eq]
  exact touched.symm

/-- A region is written where one of its 128 words is. -/
theorem any_fillWords (a : W64) (r : Nat) (hr : r < 16) :
    ((fillWords a).any fun w => w / 128 == r) = (List.range 128).any fun n => Claims.filled a (128 * r + n) := by
  rw [Bool.eq_iff_iff, List.any_eq_true, List.any_eq_true]
  constructor
  · rintro ⟨w, hw, region⟩
    have place : w = 128 * r + w % 128 := by have := beq_iff_eq.1 region; omega
    refine ⟨w % 128, List.mem_range.2 (by omega), ?_⟩
    rw [← place]
    exact (mem_fillWords a w (by omega)).1 hw
  · rintro ⟨n, hn, written⟩
    have := List.mem_range.1 hn
    exact ⟨128 * r + n, (mem_fillWords a _ (by omega)).2 written, beq_iff_eq.2 (by omega)⟩

theorem getLsbD_fillMask (a : W64) (r : Nat) (hr : r < 16) :
    (fillMask a).getLsbD r = (List.range 128).any fun n => Claims.filled a (128 * r + n) := by
  have bits (p : Nat → Bool) : ((List.range 16).map fun i => b2n (p i) * 2 ^ i).sum =
      (List.range 16).foldl (fun x i => x + if p i then 2 ^ i else 0) 0 := by
    rw [List.sum_eq_foldl, List.foldl_map]
    congr 1
    funext x i
    cases p i <;> simp [b2n]
  rw [fillMask, bits, BitVec.getLsbD_ofNat, (foldl_bits _ 16).2 r, any_fillWords a r hr]
  simp [hr]

/-- R121: the SE that a fill leaves. -/
def Look.filledSe (l : Look) : SE :=
  { l.seOf.setWords ((fillWords l.i.a.data).map fun w => (w, (l.i.b.data, l.i.b.fmt))) with
    fillLeft := l.c.cyclesOf l.t.pos (fillGroups l.i.a.data), fillMask := fillMask l.i.a.data }

theorem makes_filledSe (l : Look) : l.Makes sfillOp CoreCtx.se l.filledSe id := by
  intro s c grown core
  obtain ⟨buf, filter, evc, written⟩ := seWrite_core l ((fillWords l.i.a.data).map fun w => (w, (l.i.b.data, l.i.b.fmt))) s c core
  refine ⟨_, State.core?_modCore_of (fun c => c.modSe l.t.pos fun b =>
    { b with fillLeft := c.cyclesOf l.t.pos (fillGroups l.i.a.data), fillMask := fillMask l.i.a.data }) written, ?_,
    ⟨(c.elemD l.t.pos).preds, rfl⟩, rfl⟩
  rw [CoreCtx.se_modSe_same, CoreCtx.se_modSe_same, Look.filledSe, ← grown.cyclesOf, Look.seOf, ← grown.se]
  rfl

theorem sfill_fills : Claims.Scratch .sfill sfillOp fun _ pos c _ i c' =>
    Claims.WordsBecome pos (Claims.filled i.a.data) (fun _ => (i.b.data, i.b.fmt)) c c' ∧
    (c'.se pos).fillLeft = Claims.touched i.a.data * at' c.divs (pos / 8) 1 ∧
    ∀ r < 16, (c'.se pos).fillMask.getLsbD r = (List.range 128).any fun n => Claims.filled i.a.data (128 * r + n) := by
  refine scratch_of_makes (sh := .ab) rfl (fun _ _ => rfl) _ _ makes_filledSe fun l _ c' made => ⟨?_, ?_, fun r hr => ?_⟩
  · refine wordsBecome_of_bank made.own true (fillWords l.i.a.data) _ rfl _ fun n hn => ?_
    rw [Bool.true_and, Bool.eq_iff_iff, decide_eq_true_iff, mem_fillWords _ n hn]
  · rw [made.own, ← fillGroups_eq]; rfl
  · rw [made.own]; exact getLsbD_fillMask _ r hr

/-- Settles O23: what each store, atomic and fill writes, and which words it leaves. -/
theorem scratchpadStores : Obligations.ScratchpadStores :=
  ⟨sst_stores, sstg_stores, atomic_updates _ rfl fun _ _ => rfl,
    funext₂ samax_eq ▸ atomic_updates _ rfl fun _ _ => rfl, atomic_updates _ rfl fun _ _ => rfl, sfill_fills⟩

/-! ### Generators, bursts and owner bits (R115, R119, R120) -/

theorem sgenNo_eq (b : W64) : sgenNo b = b.toNat % 4 := toNat_field_zero b 2

theorem sgenPort_eq (b : W64) : sgenPort b = b.toNat / 8 % 4 := toNat_field b 3 2

/-- R119, R120: does an SGEN start a stream? An unrouted port ends it at once. -/
def Look.startsStream (l : Look) : Bool := sgenStream l.i.b.data && !(l.e.port (sgenPort l.i.b.data)).recvs.isEmpty

/-- R119: the generator that an SGEN loads. -/
def Look.loadedGen (l : Look) : SGen :=
  let a := l.i.a.data
  ⟨field a 0 11, a.extractLsb' 11 12, field a 23 12 + 1, 0, sgenStream l.i.b.data, sgenPort l.i.b.data, l.startsStream, true⟩

/-- R120: an element one of whose ports is held. -/
def Elem.holding (p : Nat) (h : Hold) (e : Elem) : Elem := e.setPort p { e.port p with hold := some h }

theorem Elem.hold_holding (p : Nat) (h : Hold) (e : Elem) (hp : p < 4) : ((e.holding p h).port p).hold = some h :=
  congrArg Port.hold (at_upd_same _ _ _ _ hp)

/-- The hold of a port that a fire's effects have taken outlasts its predicate. -/
theorem Made.hold {α : Type} {own : CoreCtx → Nat → α} {pos p : Nat} {x : α} {h : Hold} {c c' : CoreCtx}
    (made : Made own pos x (Elem.holding p h) c c') (hp : p < 4) : ((c'.elemD pos).port p).hold = some h := by
  obtain ⟨ps, elem⟩ := made.elem
  rw [elem]
  exact Elem.hold_holding p h _ hp

theorem makes_loadedGen (l : Look) : l.Makes sgenOp CoreCtx.se (l.seOf.setGen (sgenNo l.i.b.data) l.loadedGen)
    (if l.startsStream then Elem.holding (sgenPort l.i.b.data) (.gen (sgenNo l.i.b.data)) else id) := by
  let g (c : CoreCtx) : CoreCtx := c.modSe l.t.pos fun x => x.setGen (sgenNo l.i.b.data) l.loadedGen
  refine Look.makes_of_core (fun c => if l.startsStream then (g c).modElem l.t.pos
    (Elem.holding (sgenPort l.i.b.data) (.gen (sgenNo l.i.b.data))) else g c) (fun _ => rfl) fun c grown => ?_
  have se : (g c).se l.t.pos = l.seOf.setGen (sgenNo l.i.b.data) l.loadedGen := by
    rw [CoreCtx.se_modSe_same, grown.se]; rfl
  cases l.startsStream with
  | true => exact ⟨se, ⟨_, (g c).elemD_modElem_same _ _⟩, rfl⟩
  | false => exact ⟨se, ⟨((g c).elemD l.t.pos).preds, rfl⟩, rfl⟩

/-- R120: an SE that runs a burst. -/
def SE.bursting (x : Burst) (b : SE) : SE := { b with burst := some x }

theorem makes_bursting (l : Look) :
    l.Makes sbeatOp CoreCtx.se (l.seOf.bursting ⟨field l.i.a.data 3 8, 0, l.f.dst.toNat - 24⟩) (Elem.holding (l.f.dst.toNat - 24) .burst) := by
  let g : SE → SE := SE.bursting ⟨field l.i.a.data 3 8, 0, l.f.dst.toNat - 24⟩
  exact Look.makes_of_core (fun c => (c.modSe l.t.pos g).modElem l.t.pos (Elem.holding (l.f.dst.toNat - 24) .burst)) (fun _ => rfl)
    fun c grown => ⟨(c.se_modSe_same _ g).trans (congrArg g (grown.se _)), ⟨_, CoreCtx.elemD_modElem_same _ _ _⟩, rfl⟩

theorem scratchpadControl : Claims.ScratchpadControl := by
  refine ⟨?sgen, ?sbeat, ?sown⟩
  case sgen =>
    refine scratch_of_makes (sh := .ab) rfl (fun _ _ => rfl) _ _ makes_loadedGen fun l c₁ c' made => ?_
    simp only [← sgenNo_eq, ← sgenPort_eq]
    refine ⟨?_, fun starts => ?_, by rw [made.own]; rfl⟩
    · rw [made.own, SE.gen_setGen_same _ _ _ (by rw [sgenNo_eq]; omega), Look.loadedGen, toNat_field_zero, toNat_field]
      rfl
    · rw [show l.startsStream = true from starts, if_pos rfl] at made
      exact made.hold (by rw [sgenPort_eq]; omega)
  case sbeat =>
    refine scratch_of_makes (sh := ⟨.port, .source, .none, false⟩) rfl (fun _ _ => rfl) _ _ makes_bursting fun l _ c' made =>
      ⟨fun hport => made.hold (by omega), ?_⟩
    rw [made.own, toNat_field]
    rfl
  case sown =>
    exact scratch_of_makes (sh := .sa) rfl (fun _ _ => rfl) _ _ (fun l => Look.makes_modSe _ fun _ => rfl) fun l _ c' made => made.own

end Sys2Proof.Machine
end

