-- ==== Sys2Proof/Proofs/ScratchpadStreams.lean ====
section
/-! PROOF. O22: the streams of an SE. Its stream port reads a word, the word is sent two cycles later, and the port is free with the end
of the cycle of the last one (R114, R120; log 45). -/

namespace Sys2Proof.Machine

/-! ### The stream port reads (R120) -/

/-- An SE whose stream `i` has given its next word. -/
def SE.advanced (i : Nat) (b : SE) : SE :=
  let b := { b with ptr := (i + 1) % 5 }
  if i < 4 then b.setGen i { b.gen i with pos := (b.gen i).pos + 1 }
  else { b with burst := b.burst.map fun x => { x with prog := x.prog + 1 } }

theorem SE.ptr_advanced (i : Nat) (b : SE) : (b.advanced i).ptr = (i + 1) % 5 := by
  unfold SE.advanced
  dsimp only
  split <;> rfl

/-- R120: what the first eligible stream takes: its next word, a credit of its port, and its place in flight. -/
theorem CoreCtx.streamRead_eq {c : CoreCtx} {pos i w p : Nat} {last : Bool} (idle : (c.se pos).fillLeft = 0)
    (first : ((List.range 5).map fun n => ((c.se pos).ptr + n) % 5).find? (fun n => c.streamReady pos n) = some i)
    (next : (c.se pos).nextWord i = some (w, p, last)) :
    c.streamRead pos = ((c.modSe pos (SE.advanced i)).holdCredit pos p).fly (c.cyclesOf pos 2) (c.elemD pos).runId
      (.streamWord pos p w ⟨((c.se pos).word w).1, ((c.se pos).word w).2, if last then .last else .data, false⟩ last
        (if i < 4 then .gen i else .burst)) := by
  have quiet : (c.se pos).filling = false := by rw [SE.filling, idle]; rfl
  unfold CoreCtx.streamRead
  simp only [quiet, Bool.false_eq_true, if_false, first, next]
  rfl

/-- R114, R120: the read of a stream's word. -/
theorem stream_reads (s : State) (c : CoreCtx) (e : Elem) (i w p : Nat) (last : Bool) (hat : Claims.At s c e) (reads : s.here.val ≠ 0)
    (thawed : c.frozen = false) (idle : (c.se s.here.pos).fillLeft = 0)
    (first : ((List.range 5).map fun n => ((c.se s.here.pos).ptr + n) % 5).find? (fun n => c.streamReady s.here.pos n) = some i)
    (next : (c.se s.here.pos).nextWord i = some (w, p, last)) (hp : p < 4) :
    ∃ t c', exec .seStreamWord s = .next t ∧ t.core? s.key = some c' ∧ (c'.se s.here.pos).ptr = (i + 1) % 5 ∧
      ((c'.elemD s.here.pos).port p).recvs = Claims.oneLess (e.port p).recvs ∧
      c'.flights = c.flights ++ [⟨2 * at' c.divs (s.here.pos / 8) 1, e.runId, c.groupOf e.runId,
        .streamWord s.here.pos p w ⟨((c.se s.here.pos).word w).1, ((c.se s.here.pos).word w).2, if last then .last else .data, false⟩
          last (if i < 4 then .gen i else .burst)⟩] := by
  have here : c.elemD s.here.pos = e := c.elemD_of _ e hat.elem
  have read := CoreCtx.streamRead_eq idle first next
  rw [here] at read
  have core := State.core?_modCore_of (fun _ => c.streamRead s.here.pos) hat.core
  have counted : ∃ t v, exec .seStreamWord s = .next t ∧ t.core? s.key = some { c.streamRead s.here.pos with evc := v } := by
    rw [show exec .seStreamWord s = execSeStreamWord s from rfl, execSeStreamWord, State.onCore_of s c _ hat.core, if_neg reads, thawed]
    simp only [Bool.false_eq_true, if_false]
    split
    · exact ⟨_, _, rfl, State.count_core _ s.key 8 1 _ core⟩
    · exact ⟨_, _, rfl, core⟩
  obtain ⟨t, v, exec, core⟩ := counted
  refine ⟨t, _, exec, core, ?_, ?_, ?_⟩ <;> rw [read]
  · exact (congrArg SE.ptr (c.se_modSe_same s.here.pos (SE.advanced i))).trans (SE.ptr_advanced _ _)
  · have elem := (c.modSe s.here.pos (SE.advanced i)).elemD_modElem_same s.here.pos fun e => e.setPort p (e.port p).take
    refine (congrArg (fun x : Elem => (x.port p).recvs) elem).trans ((congrArg Port.recvs (at_upd_same _ _ _ _ hp)).trans ?_)
    rw [show (c.modSe s.here.pos (SE.advanced i)).elemD s.here.pos = e from here]
    rfl
  · rfl

/-! ### The word is sent (R114, R120) -/

/-- R120: a core that has sent a stream's word on its port, with `rest` in flight besides. -/
def CoreCtx.wordSent (rest : List Flight) (pos p run : Nat) (t : Token) (last : Bool) (h : Hold) (c : CoreCtx) : CoreCtx :=
  let c := CoreCtx.send { c with flights := rest } pos p run true t
  if last then c.endHold pos p run h else c

theorem CoreCtx.flights_wordSent (rest : List Flight) (pos p run : Nat) (t : Token) (last : Bool) (h : Hold) (c : CoreCtx) :
    (c.wordSent rest pos p run t last h).flights = rest ++ Claims.sent run (c.groupOf run) ((c.elemD pos).port p).recvs t ++
      (if last then [⟨0, run, c.groupOf run, .portFree pos p h⟩] else []) := by
  cases last
  · exact (List.append_nil _).symm
  · rfl

theorem CoreCtx.elems_wordSent (rest : List Flight) (pos p run : Nat) (t : Token) (last : Bool) (h : Hold) (c : CoreCtx) :
    (c.wordSent rest pos p run t last h).elems = c.elems := by
  cases last <;> rfl

theorem stream_sends (s : State) (c : CoreCtx) (r g pos p w : Nat) (tok : Token) (last : Bool) (h : Hold) (pre post : List Flight)
    (hc : s.core? s.key = some c) (sends : s.here.val = 0) (due : c.flights = pre ++ ⟨0, r, g, .streamWord pos p w tok last h⟩ :: post)
    (none : ∀ x ∈ pre, x.left = 0 → ∀ a b u v y z, x.cargo ≠ .streamWord a b u v y z) :
    ∃ t c', exec .seStreamWord s = .next t ∧ t.core? s.key = some c' ∧
      c'.flights = pre ++ post ++ Claims.sent r (c.groupOf r) ((c.elemD pos).port p).recvs tok ++
        (if last then [⟨0, r, c.groupOf r, .portFree pos p h⟩] else []) ∧
      ((c'.elemD pos).port p).hold = ((c.elemD pos).port p).hold := by
  have core := State.count_core _ s.key 23 1 _ (State.core?_modCore_of (CoreCtx.wordSent (pre ++ post) pos p r tok last h) hc)
  have found : ∀ kind : Cargo → Bool, kind (.streamWord pos p w tok last h) = true →
      (∀ x ∈ pre, x.left = 0 → kind x.cargo = false) →
      takeDue kind c.flights = some (⟨0, r, g, .streamWord pos p w tok last h⟩, pre ++ post) := fun kind is others => by
    rw [due]; exact takeDue_append kind pre post _ rfl is others
  refine ⟨_, _, ?_, core, c.flights_wordSent (pre ++ post) pos p r tok last h, ?_⟩
  · rw [show exec .seStreamWord s = execSeStreamWord s from rfl, execSeStreamWord, State.onCore_of s c _ hc, if_pos sends]
    dsimp only
    rw [found _ rfl]
    · rfl
    · intro x hx h0
      split
      · next heq => exact absurd heq (none x hx h0 _ _ _ _ _ _)
      · rfl
  · show ((CoreCtx.elemD (c.wordSent (pre ++ post) pos p r tok last h) pos).port p).hold = _
    rw [CoreCtx.elemD, CoreCtx.elems_wordSent, CoreCtx.elemD]

/-! ### The port is free (R120, log 45) -/

theorem CoreCtx.hold_streamEnd (c : CoreCtx) (pos p : Nat) (h : Hold) (hp : p < 4) : (((c.streamEnd pos p h).elemD pos).port p).hold = none := by
  have freed : (((c.modElem pos fun e => e.setPort p { e.port p with hold := none }).elemD pos).port p).hold = none := by
    rw [CoreCtx.elemD_modElem_same]
    exact congrArg Port.hold (at_upd_same _ _ _ _ hp)
  unfold CoreCtx.streamEnd
  cases h
  case burst =>
    dsimp only
    split <;> exact freed
  all_goals exact freed

theorem CoreCtx.flights_streamEnd (c : CoreCtx) (pos p : Nat) (h : Hold) : (c.streamEnd pos p h).flights = c.flights := by
  unfold CoreCtx.streamEnd
  cases h
  case burst =>
    dsimp only
    split <;> rfl
  all_goals rfl

/-- With no slot rewritten in a cycle, R59 changes nothing at its end. -/
theorem CoreCtx.rewriteSlots_of_nil (c : CoreCtx) (h : c.flights = []) : c.rewriteSlots.elems = c.elems ∧ c.rewriteSlots.flights = [] := by
  unfold CoreCtx.rewriteSlots
  rw [h]
  exact ⟨rfl, rfl⟩

theorem hold_ends (c : CoreCtx) (left r g pos p : Nat) (h : Hold) (hp : p < 4) (only : c.flights = [⟨left, r, g, .portFree pos p h⟩]) :
    ((c.endCycle.elemD pos).port p).hold = none ∧ c.endCycle.flights = [] := by
  unfold CoreCtx.endCycle
  dsimp only
  generalize hc₁ : CoreCtx.mk .. = c₁
  have only₁ : c₁.flights = [⟨left, r, g, .portFree pos p h⟩] := by rw [← hc₁]; exact only
  have freed : c₁.freeHolds = CoreCtx.streamEnd { c₁ with flights := [] } pos p h := by
    unfold CoreCtx.freeHolds
    rw [only₁]
    rfl
  have none : c₁.freeHolds.flights = [] := by rw [freed, CoreCtx.flights_streamEnd]
  obtain ⟨elems, flights⟩ := CoreCtx.rewriteSlots_of_nil _ none
  refine ⟨?_, flights⟩
  show ((CoreCtx.elemD c₁.freeHolds.rewriteSlots pos).port p).hold = _
  rw [CoreCtx.elemD, elems, ← CoreCtx.elemD, freed]
  exact CoreCtx.hold_streamEnd _ pos p h hp

theorem scratchpadStreams : Claims.ScratchpadStreams :=
  ⟨stream_reads, fun s c r g pos p w tok last h pre post hc sends due none _ => stream_sends s c r g pos p w tok last h pre post hc sends due none,
    fun c _ left r g pos p h _ hp only => hold_ends c left r g pos p h hp only⟩

/-- Settles O22: what loads read, what the streams send, and what SGEN, SBEAT and SOWN set. -/
theorem scratchpadIsRead : Obligations.ScratchpadIsRead := ⟨scratchpadLoads, scratchpadStreams, scratchpadControl⟩

end Sys2Proof.Machine
end

