-- ==== Sys2Proof/Proofs/Conversions.lean ====
section
/-! PROOF. O24: the conversions of a CE, narrowing, widening and microscaling (R122 to R125, Table 7.3). -/

namespace Sys2Proof.Machine

/-! ### Words by the bits of their lanes (R6) -/

theorem getLsbD_ofLanes (w : Nat) (hw : 0 < w) (xs : List Nat) (i : Nat) :
    (ofLanes w xs).getLsbD i = (decide (i < 64) && (xs.getD (i / w) 0).testBit (i % w)) := by
  induction xs generalizing i with
  | nil => simp [ofLanes]
  | cons x xs ih =>
    rw [ofLanes, BitVec.getLsbD_or, BitVec.getLsbD_ofNat, BitVec.getLsbD_shiftLeft, Nat.testBit_mod_two_pow, ih]
    by_cases low : i < w
    · simp [low, Nat.div_eq_of_lt low, Nat.mod_eq_of_lt low]
    · have next : i / w = (i - w) / w + 1 := by rw [← Nat.add_div_right _ hw, Nat.sub_add_cancel (by omega)]
      have rest : i % w = (i - w) % w := by rw [Nat.mod_eq_sub_mod (by omega)]
      rw [next, rest, List.getD_cons_succ]
      by_cases hi : i < 64
      · simp [low, hi, show i - w < 64 by omega]
      · simp [low, hi]

/-- The word of the claims, by its lanes in a list. -/
theorem fromLanes_eq (w : Nat) (v : Nat → Nat) : Claims.fromLanes w v = ofLanes w ((List.range (64 / w)).map v) := by
  rw [ofLanes_eq, Nat.ofDigits_eq_sum_mapIdx, Claims.fromLanes]
  congr 2
  exact List.ext_getElem (by simp) fun i _ _ => by simp [Nat.pow_mul]

theorem getLsbD_fromLanes (w : Nat) (hw : w ∣ 64) (v : Nat → Nat) (i : Nat) (hi : i < 64) :
    (Claims.fromLanes w v).getLsbD i = (v (i / w)).testBit (i % w) := by
  have pos : 0 < w := Nat.pos_of_dvd_of_pos hw (by decide)
  have lane : i / w < 64 / w := Nat.div_lt_div_of_lt_of_dvd hw hi
  rw [fromLanes_eq, getLsbD_ofLanes w pos, List.getD_eq_getElem?_getD, List.getElem?_map, List.getElem?_range lane]
  simp [hi]

theorem ofLanes_eq_fromLanes (w : Nat) (hw : w ∣ 64) (xs : List Nat) : ofLanes w xs = Claims.fromLanes w fun k => xs.getD k 0 :=
  BitVec.eq_of_getLsbD_eq fun i hi => by
    rw [getLsbD_ofLanes w (Nat.pos_of_dvd_of_pos hw (by decide)), getLsbD_fromLanes w hw _ i hi]
    simp [hi]

theorem testBit_laneOf (w : Nat) (hw : 0 < w) (x : W64) (i : Nat) : (Claims.laneOf w (i / w) x).testBit (i % w) = x.getLsbD i := by
  rw [Claims.laneOf, Nat.testBit_mod_two_pow, Nat.testBit_div_two_pow, decide_eq_true (Nat.mod_lt i hw), Bool.true_and,
    Nat.mod_add_div]
  rfl

/-- A number of which one digit is replaced, bit by bit. -/
theorem testBit_replaced (m w x v i : Nat) :
    (x - x / 2 ^ m % 2 ^ w * 2 ^ m + v % 2 ^ w * 2 ^ m).testBit i =
      if m ≤ i ∧ i < m + w then v.testBit (i - m) else x.testBit i := by
  obtain ⟨q, d, r, hd, hr, rfl⟩ : ∃ q d r, d < 2 ^ w ∧ r < 2 ^ m ∧ x = 2 ^ m * (2 ^ w * q + d) + r :=
    ⟨x / 2 ^ m / 2 ^ w, x / 2 ^ m % 2 ^ w, x % 2 ^ m, Nat.mod_lt _ (Nat.two_pow_pos w), Nat.mod_lt _ (Nat.two_pow_pos m), by
      rw [Nat.div_add_mod, Nat.div_add_mod]⟩
  have digit : (2 ^ m * (2 ^ w * q + d) + r) / 2 ^ m % 2 ^ w = d := by
    rw [Nat.mul_add_div (Nat.two_pow_pos m), Nat.div_eq_of_lt hr, Nat.add_zero, Nat.mul_add_mod, Nat.mod_eq_of_lt hd]
  have replaced : 2 ^ m * (2 ^ w * q + d) + r - d * 2 ^ m + v % 2 ^ w * 2 ^ m = 2 ^ m * (2 ^ w * q + v % 2 ^ w) + r := by
    have : d * 2 ^ m ≤ 2 ^ m * (2 ^ w * q + d) + r := by rw [Nat.mul_comm d, Nat.mul_add]; omega
    rw [Nat.mul_add, Nat.mul_add, Nat.mul_comm d, Nat.mul_comm (v % 2 ^ w)]
    omega
  rw [digit, replaced, Nat.testBit_two_pow_mul_add _ hr, Nat.testBit_two_pow_mul_add _ hr,
    Nat.testBit_two_pow_mul_add _ (Nat.mod_lt v (Nat.two_pow_pos w)), Nat.testBit_two_pow_mul_add _ hd, Nat.testBit_mod_two_pow]
  by_cases low : i < m
  · simp [low, show ¬ m ≤ i by omega]
  · by_cases here : i - m < w
    · simp [low, here, show m ≤ i ∧ i < m + w by omega]
    · simp [low, here, show ¬ (m ≤ i ∧ i < m + w) by omega]

theorem getLsbD_setLane (w : Nat) (hw : 0 < w) (k v : Nat) (x : W64) (i : Nat) (hi : i < 64) :
    (setLane w k v x).getLsbD i = if i / w = k then v.testBit (i % w) else x.getLsbD i := by
  rw [setLane, w64, BitVec.getLsbD_ofNat, decide_eq_true hi, Bool.true_and, lane, testBit_replaced]
  have here : w * k ≤ i ∧ i < w * k + w ↔ i / w = k := by
    rw [Nat.div_eq_iff hw, Nat.mul_comm]; omega
  by_cases h : i / w = k
  · rw [if_pos (here.2 h), if_pos h, ← h, Nat.mod_eq_sub_mul_div]
  · rw [if_neg (mt here.1 h), if_neg h]; rfl

/-- Lanes put into a word from place `base` on, one after another. -/
theorem getLsbD_foldl_setLane (w : Nat) (hw : 0 < w) (base : Nat) (xs : List Nat) (n : Nat) (p : W64) (i : Nat) (hi : i < 64) :
    ((xs.zipIdx n).foldl (fun p x => setLane w (base + x.2) x.1 p) p).getLsbD i =
      if base + n ≤ i / w ∧ i / w < base + n + xs.length then (xs.getD (i / w - (base + n)) 0).testBit (i % w) else p.getLsbD i := by
  induction xs generalizing n p with
  | nil =>
    rw [if_neg (by rw [List.length_nil]; omega)]
    rfl
  | cons x xs ih =>
    rw [List.zipIdx_cons, List.foldl_cons, ih, getLsbD_setLane w hw _ _ _ i hi, List.length_cons]
    rcases Nat.lt_trichotomy (i / w) (base + n) with before | here | after
    · rw [if_neg (by omega), if_neg (by omega), if_neg (by omega)]
    · rw [if_neg (by omega), if_pos here, if_pos (by omega), here, Nat.sub_self]; rfl
    · rw [show i / w - (base + n) = i / w - (base + (n + 1)) + 1 by omega, List.getD_cons_succ, if_neg (show i / w ≠ base + n by omega)]
      congr 1
      simp only [eq_iff_iff]
      omega

/-- R123: PK with lanes put into it. -/
theorem foldl_setLane_eq (w : Nat) (hw : w ∣ 64) (base : Nat) (xs : List Nat) (p : W64) :
    xs.zipIdx.foldl (fun p x => setLane w (base + x.2) x.1 p) p =
      Claims.fromLanes w fun k => if base ≤ k ∧ k < base + xs.length then xs.getD (k - base) 0 else Claims.laneOf w k p := by
  have pos : 0 < w := Nat.pos_of_dvd_of_pos hw (by decide)
  refine BitVec.eq_of_getLsbD_eq fun i hi => ?_
  rw [getLsbD_foldl_setLane w pos base xs 0 p i hi, getLsbD_fromLanes w hw _ i hi, Nat.add_zero]
  split
  · rfl
  · exact (testBit_laneOf w pos p i).symm

theorem length_drawLanes (g : W32 → FVal → Nat × Flags × W32) (vs : List FVal) (s : W32) : (drawLanes g vs s).1.length = vs.length := by
  induction vs generalizing s with
  | nil => rfl
  | cons v vs ih => exact congrArg (· + 1) (ih _)

/-! ### Slots of a CE (R122) -/

/-- The operands and the destination of a conversion (Table 7.3). -/
def cvtShape : Shape := ⟨.result, .source, .cvt, false⟩

/-- R122: an operation that converts as `g` says, with its result in format `fmt`. -/
structure Converts (o : Op) (fmt : Look → Fmt) (g : Look → CE → CvtOut) : Prop where
  shape : shapeOf o.opc = some cvtShape
  delay : o.delay = 2
  now : ∀ l, o.now l = false
  mute : ∀ l, o.mute l = false
  entries : ∀ l, o.entries l = 0
  res : ∀ l, o.res l = ⟨(g l (l.c.ce l.t.pos)).data, fmt l, (g l (l.c.ce l.t.pos)).tnt, (g l (l.c.ce l.t.pos)).flags, none⟩
  makes : ∀ l : Look, l.Makes o CoreCtx.ce (g l (l.c.ce l.t.pos)).ce id

theorem makes_cvtOp (opc : Nat) (fmt : Fmt) (ready : Look → Bool) (g : Look → CE → CvtOut) (l : Look) :
    l.Makes (cvtOp opc fmt ready g) CoreCtx.ce (g l (l.c.ce l.t.pos)).ce id :=
  Look.makes_of_core (fun c => c.modCe l.t.pos fun _ => (g l (l.c.ce l.t.pos)).ce) (fun _ => rfl) fun c _ =>
    ⟨c.ce_modCe_same _ _, ⟨(c.elemD l.t.pos).preds, rfl⟩, rfl⟩

theorem converts_cvtOp (opc : Nat) (fmt : Fmt) (ready : Look → Bool) (g : Look → CE → CvtOut) (hsh : shapeOf opc = some cvtShape) :
    Converts (cvtOp opc fmt ready g) (fun _ => fmt) g :=
  ⟨hsh, rfl, fun _ => rfl, fun _ => rfl, fun _ => rfl, fun _ => rfl, makes_cvtOp opc fmt ready g⟩

/-- R122: a slot of a CE has its result in flight for two cycles, and changes the CE at its fire. -/
theorem Converts.fires {o : Op} {fmt : Look → Fmt} {g : Look → CE → CvtOut} (converts : Converts o fmt g) {mk : Fields → Instr}
    (runs : RunsOp (mk, o)) (f : Fields) (s : State) (c : CoreCtx) (e : Elem) (hat : Claims.At s c e) (hce : kindAt s.here.pos = .ce)
    (ready : slotStatus o f s s.site = .ready) :
    let l := lookAt o f s s.site c e
    let r := g l (c.ce s.here.pos)
    ∃ t c', exec (mk f) s = .next t ∧ t.core? s.key = some c' ∧
      Claims.LandsLater 2 f s.here.pos c e (Claims.operands o.opc f s c e) ⟨r.data, fmt l, r.tnt, r.flags, none⟩ c' ∧
      c'.ce s.here.pos = r.ce := by
  obtain ⟨t, c', exec, core, lands, ce⟩ := fires_later (own := CoreCtx.ce) (fun _ _ _ _ _ => rfl) converts.shape runs hat
    (.inl (converts.entries _)) ready (by rw [hce]; decide) (by rw [hce]; decide) (converts.makes _)
    (by rw [Op.atOnce, converts.delay, converts.now]; rfl) (by rw [converts.delay]; decide) rfl (converts.mute _)
  rw [converts.delay, converts.res] at lands
  exact ⟨t, c', exec, core, lands, ce⟩

/-! ### Narrowing and widening (R123, Table 7.3) -/

/-- R123 `narrow`, with PK by its lanes. -/
theorem narrowCvt_eq (w : Nat) (hw : w ∣ 64) (vals : W64 → List FVal) (conv : Fields → W32 → FVal → Nat × Flags × W32) (l : Look) (ce : CE) :
    narrowCvt w vals conv l ce =
      let d := drawLanes (conv l.f) (vals l.i.a.data) ce.lfsr
      let n := (vals l.i.a.data).length
      let pk := Claims.fromLanes w fun k =>
        if n * Claims.part l.f ≤ k ∧ k < n * Claims.part l.f + n then d.1.getD (k - n * Claims.part l.f) 0 else Claims.laneOf w k ce.pk
      ⟨pk, ce.pkTnt || l.i.tnt, d.2.1, if l.f.dst = 28#5 then { ce with pk := pk, pkTnt := ce.pkTnt || l.i.tnt, lfsr := d.2.2 }
        else { ce with pk := 0#64, pkTnt := false, lfsr := d.2.2 }⟩ := by
  simp only [narrowCvt, foldl_setLane_eq w hw, length_drawLanes]
  split <;> rfl

theorem narrows {opc w : Nat} {fmt : Fmt} {vals : W64 → List FVal} {conv : Fields → W32 → FVal → Nat × Flags × W32} {mk : Fields → Instr}
    (hsh : shapeOf opc = some cvtShape) (hw : w ∣ 64) (runs : RunsOp (mk, cvtOp opc fmt always (narrowCvt w vals conv))) :
    Claims.Narrows mk (cvtOp opc fmt always (narrowCvt w vals conv)) fmt w vals conv := by
  intro f s c e hat hce ready
  have fires := (converts_cvtOp opc fmt always (narrowCvt w vals conv) hsh).fires runs f s c e hat hce ready
  simp only [narrowCvt_eq w hw] at fires
  exact fires

/-- R123 `widen`. -/
theorem widens {opc w v n : Nat} {fmt : Fmt} {dec : Nat → FVal} {conv : Fields → W32 → FVal → Nat × Flags × W32} {mk : Fields → Instr}
    (hsh : shapeOf opc = some cvtShape) (hv : v ∣ 64) (runs : RunsOp (mk, cvtOp opc fmt always (widenCvt w v n dec conv))) :
    Claims.Widens mk (cvtOp opc fmt always (widenCvt w v n dec conv)) fmt w v n dec conv := by
  intro f s c e hat hce ready
  have fires := (converts_cvtOp opc fmt always (widenCvt w v n dec conv) hsh).fires runs f s c e hat hce ready
  simp only [widenCvt, ofLanes_eq_fromLanes v hv] at fires
  exact fires

theorem conversionsNarrowAndWiden : Claims.ConversionsNarrowAndWiden :=
  ⟨narrows rfl (by decide) fun _ _ => rfl, narrows rfl (by decide) fun _ _ => rfl, narrows rfl (by decide) fun _ _ => rfl,
    narrows rfl (by decide) fun _ _ => rfl, narrows rfl (by decide) fun _ _ => rfl, widens rfl (by decide) fun _ _ => rfl,
    widens rfl (by decide) fun _ _ => rfl, widens rfl (by decide) fun _ _ => rfl, widens rfl (by decide) fun _ _ => rfl,
    widens rfl (by decide) fun _ _ => rfl, widens rfl (by decide) fun _ _ => rfl⟩

/-! ### Microscaling (R124, R125) -/

/-- R124: the format of what CVT.MX4.BF gives. -/
def Look.mx4Fmt (l : Look) : Fmt := if cvtPart l.f = 2 then .raw else .e2m1x16

theorem usesFree_cores (l : Look) (s : State) : (usesFree l s).cores = s.cores := by
  unfold usesFree
  split <;> rfl

/-- Taking a free value changes no core. -/
theorem Look.makes_usesFree {α : Type} {l : Look} {o o' : Op} {own : CoreCtx → Nat → α} {x : α} {h : Elem → Elem}
    (makes : l.Makes o own x h) (effect : ∀ s, o'.effect l s = usesFree l (o.effect l s)) : l.Makes o' own x h := by
  intro s c grown core
  obtain ⟨c', core', made⟩ := makes s c grown core
  exact ⟨c', by rw [effect, State.core?, usesFree_cores]; exact core', made⟩

theorem converts_cvtMx4BfOp : Converts cvtMx4BfOp Look.mx4Fmt mx4Cvt :=
  ⟨rfl, rfl, fun _ => rfl, fun _ => rfl, fun _ => rfl, fun _ => rfl, fun l =>
    Look.makes_usesFree (makes_cvtOp 0xC7 .e2m1x16 mx4Ready mx4Cvt l) fun _ => rfl⟩

theorem converts_cvtBfMx4Op : Converts cvtBfMx4Op (fun _ => .bf16x4) bfMx4Cvt :=
  ⟨rfl, rfl, fun _ => rfl, fun _ => rfl, fun _ => rfl, fun _ => rfl, fun l =>
    Look.makes_usesFree (makes_cvtOp 0xC8 .bf16x4 always bfMx4Cvt l) fun _ => rfl⟩

/-- R124: a gather adds four lanes, and finds the scale of a full block. -/
theorem mx4Cvt_gathers (l : Look) (ce : CE) (h : l.f.dst = 28#5) :
    let mb := ce.mb ++ (List.range 4).map fun k => BitVec.ofNat 16 (Claims.laneOf 16 k l.i.a.data)
    (mx4Cvt l ce).ce.mb = mb ∧ (mx4Cvt l ce).ce.mt = (ce.mt || l.i.tnt) ∧
      (mb.length = 32 → (mx4Cvt l ce).ce.xe = BitVec.ofNat 8 (mxExponent mb).1) := by
  intro mb
  rw [mx4Cvt, if_pos h]
  refine ⟨rfl, rfl, fun full => ?_⟩
  show BitVec.ofNat 8 (if mb.length = 32 then mxExponent mb else (ce.xe.toNat, false)).1 = _
  rw [if_pos full]

/-- R124: the scale is emitted, and the block is at an end. -/
theorem mx4Cvt_emitsScale (l : Look) (ce : CE) (h : l.f.dst ≠ 28#5) (part : Claims.part l.f = 2) :
    mx4Cvt l ce = ⟨ce.xe.zeroExtend 64, ce.mt || l.i.tnt, Flags.none, { ce with mb := [], mt := false }⟩ := by
  rw [mx4Cvt, if_neg h, if_pos (show cvtPart l.f = 2 from part)]

/-- R124: sixteen elements are emitted under the scale. -/
theorem mx4Cvt_emits (l : Look) (ce : CE) (h : l.f.dst ≠ 28#5) (part : Claims.part l.f ≠ 2) {xs : List Nat} {flags : Flags} {lfsr : W32}
    (drawn : drawLanes (mxElem (cvtRnd l.f) ce.xe.toNat)
      (((ce.mb.drop (16 * Claims.part l.f)).take 16).map fun x => bf16.decode x.toNat) ce.lfsr = (xs, flags, lfsr)) :
    mx4Cvt l ce = ⟨Claims.fromLanes 4 fun k => xs.getD k 0, ce.mt || l.i.tnt, flags, { ce with lfsr := lfsr }⟩ := by
  rw [mx4Cvt, if_neg h, if_neg (show ¬ cvtPart l.f = 2 from part), ← ofLanes_eq_fromLanes 4 (by decide)]
  dsimp only
  rw [show drawLanes _ (((ce.mb.drop (16 * cvtPart l.f)).take 16).map _) _ = _ from drawn]

/-- R125: a scale is taken. -/
theorem bfMx4Cvt_takesScale (l : Look) (ce : CE) (h : l.f.dst = 28#5) :
    (bfMx4Cvt l ce).ce = { ce with xs := l.i.a.data.extractLsb' 0 8 } := by
  rw [bfMx4Cvt, if_pos h]

/-- R125: four lanes are given under the scale. -/
theorem bfMx4Cvt_gives (l : Look) (ce : CE) (h : l.f.dst ≠ 28#5) {xs : List Nat} {flags : Flags} {lfsr : W32}
    (drawn : drawLanes (roundLane bf16 (cvtRnd l.f) (cvtSat l.f))
      ((List.range 4).map fun k => decodeMx (Claims.laneOf 4 (4 * Claims.part l.f + k) l.i.a.data) ce.xs.toNat) ce.lfsr = (xs, flags, lfsr)) :
    bfMx4Cvt l ce = ⟨Claims.fromLanes 16 fun k => xs.getD k 0, l.i.tnt, flags, { ce with lfsr := lfsr }⟩ := by
  rw [bfMx4Cvt, if_neg h, ← ofLanes_eq_fromLanes 16 (by decide)]
  dsimp only
  rw [show drawLanes (toFmt bf16 l.f) ((List.range 4).map fun i => decodeMx (lane 4 (4 * cvtPart l.f + i) l.i.a.data) ce.xs.toNat) ce.lfsr =
    _ from drawn]

theorem microscaling : Claims.Microscaling := by
  refine ⟨?toMx4, ?ofMx4⟩
  case toMx4 =>
    intro f s c e hat hce ready i ce vs
    split
    next xs flags lfsr drawn =>
    let l := lookAt cvtMx4BfOp f s s.site c e
    obtain ⟨t, c', exec, core, lands, after⟩ := converts_cvtMx4BfOp.fires (mk := .cvtMx4Bf) (fun _ _ => rfl) f s c e hat hce ready
    refine ⟨t, c', exec, core, fun gathers => ?_, fun ⟨emits, elems⟩ => ?_, fun ⟨emits, scale⟩ => ?_⟩
    · rw [after]
      exact mx4Cvt_gathers l _ gathers
    · rw [mx4Cvt_emits l _ emits elems drawn, show l.mx4Fmt = .e2m1x16 from if_neg elems] at lands
      rw [mx4Cvt_emits l _ emits elems drawn] at after
      exact ⟨lands, after⟩
    · rw [mx4Cvt_emitsScale l _ emits scale, show l.mx4Fmt = .raw from if_pos scale] at lands
      rw [mx4Cvt_emitsScale l _ emits scale] at after
      exact ⟨lands, after⟩
  case ofMx4 =>
    intro f s c e hat hce ready i ce vs
    split
    next xs flags lfsr drawn =>
    let l := lookAt cvtBfMx4Op f s s.site c e
    obtain ⟨t, c', exec, core, lands, after⟩ := converts_cvtBfMx4Op.fires (mk := .cvtBfMx4) (fun _ _ => rfl) f s c e hat hce ready
    refine ⟨t, c', exec, core, fun takes => after.trans (bfMx4Cvt_takesScale l _ takes), fun gives => ?_⟩
    rw [bfMx4Cvt_gives l _ gives drawn] at lands after
    exact ⟨lands, after⟩

/-- Settles O24: the rows of Table 7.3, and the two microscaling conversions. -/
theorem conversionsGive : Obligations.ConversionsGive := ⟨conversionsNarrowAndWiden, microscaling⟩

end Sys2Proof.Machine
end
